-- ==== Sys2Proof/Word.lean ====
section
/-! DEFINITION. The word types of the machine (spec 00_scope R4, R5; 01_machine R19). -/

namespace Sys2Proof

/-- A 64-bit scalar register value or virtual address (R103). -/
abbrev Word := BitVec 64

/-- One byte of a store or of memory. -/
abbrev Byte := BitVec 8

/-- One 32-bit element of one lane of a vector register (R18). -/
abbrev Elem := BitVec 32

/-- One vector register: 64 lanes of 32 bits (R18, R103). -/
abbrev VReg := Vector Elem 64

/-- A mask register: one bit a lane (R103). -/
abbrev Mask := BitVec 64

/-- A tensor map register: 128 bytes, byte k at bits [8k+7:8k] (R103, R211). -/
abbrev TMap := BitVec 1024

/-- The number of an x register. -/
abbrev XR := BitVec 5

/-- The number of an m or tm register. -/
abbrev MR := BitVec 3

end Sys2Proof
end

