-- ==== Sys2Proof/Config.lean ====
section
/-! DEFINITION. What the signed configuration record (R451) and the implementation fix, as constants with no body: no
proof can see a value of them (log 2). -/

namespace Sys2Proof

/-- `steer` of a core in the configuration record (R105, R143). -/
opaque Config.steer : Nat → Nat

/-- HP_CFG of a host port in the configuration record (R359). -/
opaque Config.hpCfg : Nat → Nat

/-- MAC_ADDR of an Ethernet port in the configuration record (R378). -/
opaque Config.mac : Nat → Nat

/-- The silicon revision that mimpid reads (R108, R451); its low 8 bits are used. -/
opaque Config.stepping : Nat

/-- The special functions (R192): function number, fmt code and input bits give a choice among the results that the
bounds allow. A fixed function of the input bits. -/
opaque Config.sfu : Nat → Nat → Nat → Nat

/-- Which PTE of a group with the contiguous hint translates an access (R314), by ASID and virtual page. -/
opaque Config.contig : Nat → Nat → Nat

/-- The signed measurements that answer an SPDM request (R446): of the firmware and the configuration record, and of the patch in force
and the boot record, whose contents are the attempt, the steps that failed, the failing dies, the seam events, and the steering set
at run time (R443, R444). -/
opaque Config.spdm (req patch : List Byte) (attempt : Nat) (failed bad : List Nat) (seams : List (Nat × Nat)) (steer : List (Nat × Nat)) : List Byte

/-- The arev that the code object of a kernel entry names (R81, R99), by ASID and entry address; bit 0 is used. -/
opaque Config.arev : Nat → Nat → Nat

/-- The seam rates of the configuration record (R442, R451), by seam; a rate of 3 is none. -/
opaque Config.seamRate : Nat → Nat

/-- Whether the configuration record allows debug (R449, R451). -/
opaque Config.dbgAllowed : Bool

/-- Whether an image's signature holds under the key of the root of trust (R347, R445). -/
opaque Config.sigOk : List Byte → Bool

/-- The last applied patch, which boot reloads (R347, R442); empty for none. -/
opaque Config.patch : List Byte

/-- The PSN with which a queue pair starts (R391, R393), by port and queue pair. -/
opaque Config.firstPsn : Nat → Nat → Nat

/-- The credits that a seam's transmitter holds for a VC before any is returned (R428): the receiver's buffer, whose size the spec does not
give. -/
opaque Config.seamCredits : Nat → Nat

/-- Values the spec leaves open and that are not a function of operands, indexed by the counter `State.free`. -/
opaque Config.freeValue : Nat → BitVec 64

end Sys2Proof
end

