-- ==== Sys2Proof/Formats.lean ====
section
/-! DEFINITION. The field types that instructions carry (spec 03_encoding): the formats of the standard base, the
64-bit engine layout of R67, and the names of modes, engines and scopes. -/

namespace Sys2Proof

/-- Privilege modes (R107, R109). -/
inductive Mode where
  | u | s | m
deriving DecidableEq, Repr

/-- The four engines a 64-bit instruction is forwarded to; ENGINE codes 0 to 3 of R153. -/
inductive Engine where
  | lane | matrix | copy | message
deriving DecidableEq, Repr

/-- The scopes of R42, codes 00 to 11. -/
inductive Scope where
  | team | die | device | system
deriving DecidableEq, Repr

/-- The access kinds of the RV64I loads. -/
inductive LoadKind where
  | lb | lh | lw | ld | lbu | lhu | lwu
deriving DecidableEq, Repr

/-- The access kinds of the RV64I stores. -/
inductive StoreKind where
  | sb | sh | sw | sd
deriving DecidableEq, Repr

/-- The branch conditions of RV64I. -/
inductive BranchKind where
  | beq | bne | blt | bge | bltu | bgeu
deriving DecidableEq, Repr

/-- The RV64I register and immediate operations that take a 12-bit immediate. -/
inductive ImmKind where
  | addi | slti | sltiu | xori | ori | andi
deriving DecidableEq, Repr

/-- The shift operations. -/
inductive ShiftKind where
  | sll | srl | sra
deriving DecidableEq, Repr

/-- The RV64I register operations. -/
inductive AluKind where
  | add | sub | sll | slt | sltu | xor | srl | sra | or | and
deriving DecidableEq, Repr

/-- The RV64I 32-bit register operations. -/
inductive AluWKind where
  | addw | subw | sllw | srlw | sraw
deriving DecidableEq, Repr

/-- RV64I integer computation and control transfer: the forms of the row INTEGER_OP (R107).
Offsets and immediates are the encoded bits: a branch holds offset bits [12:1], jal holds offset bits [20:1],
lui and auipc hold bits [31:12]. -/
inductive IntOp where
  | lui (rd : XR) (imm : BitVec 20)
  | auipc (rd : XR) (imm : BitVec 20)
  | jal (rd : XR) (off : BitVec 20)
  | jalr (rd rs1 : XR) (imm : BitVec 12)
  | branch (c : BranchKind) (rs1 rs2 : XR) (off : BitVec 12)
  | aluImm (k : ImmKind) (rd rs1 : XR) (imm : BitVec 12)
  | shiftImm (k : ShiftKind) (rd rs1 : XR) (sh : BitVec 6)
  | addiw (rd rs1 : XR) (imm : BitVec 12)
  | shiftImmW (k : ShiftKind) (rd rs1 : XR) (sh : BitVec 5)
  | alu (k : AluKind) (rd rs1 rs2 : XR)
  | aluW (k : AluWKind) (rd rs1 rs2 : XR)
deriving DecidableEq, Repr

/-- The M-extension multiplies. -/
inductive MulKind where
  | mul | mulh | mulhsu | mulhu | mulw
deriving DecidableEq, Repr

/-- The M-extension divides and remainders. -/
inductive DivKind where
  | div | divu | rem | remu | divw | divuw | remw | remuw
deriving DecidableEq, Repr

/-- The standard AMO operations. -/
inductive AmoKind where
  | swap | add | xor | and | or | min | max | minu | maxu
deriving DecidableEq, Repr

/-- The three Zicsr operations. -/
inductive CsrKind where
  | rw | rs | rc
deriving DecidableEq, Repr

/-- The operand fields of a 64-bit engine instruction, as bits (R67). `vs3` is the [51:44] field.
For `vli` the eight fields from `vs1` up hold the imm32 of R68. -/
structure Eops where
  ks : BitVec 2
  rnd : BitVec 3
  fmt : BitVec 3
  pi : BitVec 1
  pm : BitVec 3
  vs3 : BitVec 8
  vs2 : BitVec 8
  vs1 : BitVec 8
  vd : BitVec 8
deriving DecidableEq, Repr

end Sys2Proof

namespace Sys2Proof

/-- What an 8-bit operand field of a 64-bit instruction holds (R69). `b` is a second operand chosen by ks (R71);
`d8` a displacement, which may hold any value; `imm8` the [51:44] field of a `b` form. -/
inductive FieldKind where
  | zero | v | x | m | tm | t | b | d8 | imm8 | lim (max : Nat)
deriving DecidableEq, Repr

/-- The code set the fmt field is read by (R72). -/
inductive FmtSet where
  | none | i | f | w | x | b
deriving DecidableEq, Repr

/-- What the rnd field holds (R74): nothing, a rounding mode (R93), or a sub-operation below a limit. -/
inductive RndKind where
  | zero | mode | op (n : Nat)
deriving DecidableEq, Repr

/-- What the ks field holds (R74): the listed operand kinds, or a scope. -/
inductive KsKind where
  | kinds (l : List Nat) | scope
deriving DecidableEq, Repr

/-- How many registers a vector operand names, and how they must be aligned (R70, R171, R195, R240). -/
inductive SpanKind where
  | none | one | byFmt | byOpc | block | quad | scale | packGroup
deriving DecidableEq, Repr

/-- One row of the tables of R164, R183, R214, R239, R264 and R292. -/
structure Shape where
  grp : Nat
  opc : Nat
  vd : FieldKind
  vs1 : FieldKind
  vs2 : FieldKind
  vs3 : FieldKind
  fmtSet : FmtSet
  fmts : List Nat
  rnd : RndKind
  ks : KsKind
  pred : Bool
  vdSpan : SpanKind
  vs1Span : SpanKind
  vs2Span : SpanKind
  vs3Span : SpanKind
  writesVd : Bool
deriving DecidableEq, Repr

/-- A run of vector registers named by an operand: first register, how many, the alignment the first must have,
whether register 0 is barred. -/
structure RegSpan where
  reg : Nat
  cnt : Nat
  align : Nat
  nonZero : Bool
deriving DecidableEq, Repr

end Sys2Proof

namespace Sys2Proof

/-- Why a decoder refuses instruction bits (R60 to R74). -/
inductive DecodeError where
  /-- A 16-bit form: the C extension is absent (R60). -/
  | compressed
  /-- A 48-bit form (R60). -/
  | long48
  /-- A form of 80 bits or more (R60). -/
  | long80
  /-- A major opcode outside R62. -/
  | majorOpcode
  /-- A funct3, funct7 or sub-operation that R62 or R65 does not define. -/
  | unassigned
  /-- A field that must be 0 is not, or a register field is out of its range (R64, R69). -/
  | reservedField
  /-- A 64-bit form with an unassigned group or opcode (R74). -/
  | unassignedGroup
  /-- A 64-bit form whose fields break its row (R70 to R74). -/
  | engineField
deriving DecidableEq, Repr

/-- What decoding gives: an instruction and its length in bytes, an illegal encoding with the xtval of R63, or too
few bytes to tell. -/
inductive Decoded (α : Type) where
  | ok (i : α) (len : Nat)
  | illegal (why : DecodeError) (xtval : BitVec 64)
  | short
deriving DecidableEq, Repr

end Sys2Proof
end

