-- ==== Sys2Proof/Syntax.lean ====
section
/-! DEFINITION. The one inductive of instructions: a constructor for each row of spec/opcode_table.json. Hart-side
and standard-base constructors carry the decoded fields (R65, R62); the executing hart is `State.cur`. The
constructors of the 64-bit class carry the operand fields of R67 as `Eops`. Every other row is a step of an engine
(95_what_each_step_holds.md); its constructor carries what the step needs from outside: which hart, queue, line,
message in transit (by its place in the list that holds it), or the data the outside world supplies. -/

namespace Sys2Proof

/-- An instruction or step, one constructor a row of the opcode table, in the table's order. -/
inductive Instr where
  | mand (d : MR) (a : MR) (b : MR)
  | mor (d : MR) (a : MR) (b : MR)
  | mxor (d : MR) (a : MR) (b : MR)
  | mandn (d : MR) (a : MR) (b : MR)
  | mnot (d : MR) (a : MR)
  | mrd (d : XR) (a : MR)
  | mwr (d : MR) (a : XR)
  | mcnt (d : XR) (a : MR)
  | mffs (d : XR) (a : MR)
  | mtop (d : XR)
  | mif (a : MR) (imm : BitVec 12)
  | melse (imm : BitVec 12)
  | mwhile (a : MR) (imm : BitVec 12)
  | mend
  | mbrk (a : MR)
  | mspush (a : MR) (b : XR)
  | mspop (d : MR)
  | msrdm (d : XR) (a : XR)
  | msrdp (d : XR) (a : XR)
  | mswrm (a : XR) (b : XR)
  | mswrp (a : XR) (b : XR)
  | hwmsg
  | hwtime (a : XR)
  | barSync (a : XR) (n : BitVec 4)
  | barArrive (a : XR) (n : BitVec 4)
  | barWait (n : BitVec 4)
  | hdrain (e : BitVec 4)
  | glaunch (d : XR) (a : XR)
  | gwait (d : XR) (a : XR)
  | hexit
  | hret
  | hyield
  | tmld (d : MR) (a : XR) (imm : BitVec 12)
  | tmst (d : MR) (a : XR) (imm : BitVec 12)
  | tmaddr (d : XR) (a : MR) (b : XR)
  | bst
  | bend
  | frrd (d : XR) (a : XR) (k : BitVec 2)
  | frrep
  | frdrop (a : XR)
  | scalarLoad (k : LoadKind) (rd : XR) (rs1 : XR) (imm : BitVec 12)
  | scalarStore (k : StoreKind) (rs1 : XR) (rs2 : XR) (imm : BitVec 12)
  | integerOp (op : IntOp)
  | mul (k : MulKind) (rd : XR) (rs1 : XR) (rs2 : XR)
  | div (k : DivKind) (rd : XR) (rs1 : XR) (rs2 : XR)
  | fence (fm : BitVec 4) (pred : BitVec 4) (succ : BitVec 4) (rd : XR) (rs1 : XR)
  | fenceI (imm : BitVec 12) (rd : XR) (rs1 : XR)
  | lr (dbl : Bool) (aq : Bool) (rl : Bool) (rd : XR) (rs1 : XR)
  | sc (dbl : Bool) (aq : Bool) (rl : Bool) (rd : XR) (rs1 : XR) (rs2 : XR)
  | amo (k : AmoKind) (dbl : Bool) (aq : Bool) (rl : Bool) (rd : XR) (rs1 : XR) (rs2 : XR)
  | ecall
  | ebreak
  | wfi
  | pause
  | wrsNto
  | wrsSto
  | csrAccess (op : CsrKind) (useImm : Bool) (csr : BitVec 12) (rd : XR) (src : XR)
  | steerWrite (op : CsrKind) (useImm : Bool) (rd : XR) (src : XR)
  | satpWrite (op : CsrKind) (useImm : Bool) (rd : XR) (src : XR)
  | mret
  | sret
  | sfenceVma (rs1 : XR) (rs2 : XR)
  | takeInterrupt (h : Nat)
  | lateFaultDelivery (h : Nat)
  | scalarReply (i : Nat)
  | monitorWake (h : Nat)
  | wrsTimeout (h : Nat)
  | hwtimeExpiry (h : Nat)
  | hartEnd (h : Nat)
  | gridRetire (g : Nat)
  | vld (o : Eops)
  | vst (o : Eops)
  | vlds (o : Eops)
  | vsts (o : Eops)
  | vldg (o : Eops)
  | vstg (o : Eops)
  | vldt (o : Eops)
  | vstt (o : Eops)
  | vldf (o : Eops)
  | vstf (o : Eops)
  | vcst (o : Eops)
  | vxld (o : Eops)
  | vamo (o : Eops)
  | vamoAq (o : Eops)
  | vamoRl (o : Eops)
  | vamoAqrl (o : Eops)
  | vpf (o : Eops)
  | vfence (o : Eops)
  | vaddI (o : Eops)
  | vsubI (o : Eops)
  | vmulI (o : Eops)
  | vmulh (o : Eops)
  | vdivI (o : Eops)
  | vrem (o : Eops)
  | vminI (o : Eops)
  | vmaxI (o : Eops)
  | vadds (o : Eops)
  | vsubs (o : Eops)
  | vabsI (o : Eops)
  | vnegI (o : Eops)
  | vmad (o : Eops)
  | vand (o : Eops)
  | vor (o : Eops)
  | vxor (o : Eops)
  | vnot (o : Eops)
  | vsll (o : Eops)
  | vsrl (o : Eops)
  | vsra (o : Eops)
  | vmov (o : Eops)
  | vli (o : Eops)
  | vcmp (o : Eops)
  | vfcmp (o : Eops)
  | vsel (o : Eops)
  | vpopc (o : Eops)
  | vclz (o : Eops)
  | vctz (o : Eops)
  | vbrev (o : Eops)
  | vaddF (o : Eops)
  | vsubF (o : Eops)
  | vmulF (o : Eops)
  | vdivF (o : Eops)
  | vsqrt (o : Eops)
  | vminF (o : Eops)
  | vmaxF (o : Eops)
  | vabsF (o : Eops)
  | vnegF (o : Eops)
  | vfma (o : Eops)
  | vfms (o : Eops)
  | vfnma (o : Eops)
  | vclass (o : Eops)
  | vrcp (o : Eops)
  | vrsqrt (o : Eops)
  | vexp2 (o : Eops)
  | vlog2 (o : Eops)
  | vsin (o : Eops)
  | vcos (o : Eops)
  | vtanh (o : Eops)
  | vcvtFF (src : BitVec 3) (o : Eops)
  | vcvtFI (src : BitVec 3) (o : Eops)
  | vcvtIF (src : BitVec 3) (o : Eops)
  | vpk (o : Eops)
  | vupk (o : Eops)
  | vdot (o : Eops)
  | vfdot (o : Eops)
  | vlid (o : Eops)
  | vballot (o : Eops)
  | vshfl (o : Eops)
  | vshup (o : Eops)
  | vshdn (o : Eops)
  | vxorl (o : Eops)
  | vbcast (o : Eops)
  | vscan (o : Eops)
  | vscanx (o : Eops)
  | vgred (o : Eops)
  | vmvx (o : Eops)
  | vfscan (o : Eops)
  | vfgred (o : Eops)
  | vredOpen (o : Eops)
  | vredAdd (o : Eops)
  | vredFlush (o : Eops)
  | mma (o : Eops)
  | mmasp (o : Eops)
  | mmabk (o : Eops)
  | tzero (o : Eops)
  | tmovv (o : Eops)
  | tmovt (o : Eops)
  | tst (o : Eops)
  | tld (o : Eops)
  | tdrain (o : Eops)
  | twait (o : Eops)
  | cpgs (o : Eops)
  | cpsg (o : Eops)
  | cpgg (o : Eops)
  | cpmc (o : Eops)
  | cpfill (o : Eops)
  | cpadd (o : Eops)
  | msend (o : Eops)
  | msendb (o : Eops)
  | msendr (o : Eops)
  | mrecv (o : Eops)
  | mackrd (o : Eops)
  | xamo (o : Eops)
  | xamoAq (o : Eops)
  | xamoRl (o : Eops)
  | xamoAqrl (o : Eops)
  | xfence (o : Eops)
  | xfenceSc (o : Eops)
  | laneIssue (h : Nat)
  | laneElementResponse (h : Nat) (seq : Nat) (lanes : Mask) (fresh : Bool)
  | entryReplay (h : Nat) (seq : Nat)
  | matrixDispatch (h : Nat)
  | arrayStart (h : Nat)
  | arrayWriteback (core : Nat)
  | tilePortStart (h : Nat)
  | drainImageArrival (i : Nat)
  | drainAck (i : Nat)
  | copyStart (h : Nat) (seq : Nat)
  | copyPhaseADone (h : Nat) (seq : Nat)
  | copyPhaseBDone (h : Nat) (seq : Nat)
  | copyCompletion (h : Nat) (seq : Nat)
  | sendService (h : Nat) (q : Nat)
  | messageAck (i : Nat)
  | inboxMessageArrival (i : Nat)
  | diversionRefill (h : Nat)
  | handlerMessageArrival (i : Nat)
  | handlerStart (core : Nat) (i : Nat)
  | handlerCaptureTimeout (core : Nat)
  | windowAccessArrival (i : Nat)
  | windowReply (i : Nat)
  | vredOpenRequest (i : Nat)
  | contributionArrival (i : Nat)
  | fragmentArrival (i : Nat)
  | slotApply (md : Nat) (slot : Nat)
  | vredReply (i : Nat)
  | homeRequest (i : Nat) (err : Nat)
  | writeBack (i : Nat)
  | snoop (i : Nat)
  | snoopReply (i : Nat)
  | auAtomic (i : Nat) (err : Nat)
  | patrolScrub (md : Nat) (err : Nat)
  | translationRequest (h : Nat) (va : Word) (write : Bool)
  | pteReadResponse (i : Nat)
  | sliceFaultRecord (i : Nat)
  | faultQueueRecord (i : Nat)
  | prgGroupSend (port : Nat)
  | prgResponse (port : Nat) (group : Nat) (code : Nat)
  | faultNotice (i : Nat)
  | atsCompletion (port : Nat) (va : Word) (asid : Nat) (pa : Nat) (perm : Nat)
  | atsInvalidate (port : Nat) (asid : Nat) (va : Word) (size : Nat)
  | shootdownArrival (id : Nat) (die : Nat)
  | shootdownComplete (id : Nat)
  | doorbellTail (port : Nat) (q : Nat) (v : Nat)
  | doorbellCrHead (port : Nat) (q : Nat) (v : Nat)
  | qctlEnable (q : Nat)
  | qctlDisable (q : Nat)
  | qctlReset (q : Nat)
  | disableDone (q : Nat)
  | rlPassTick (l : Nat)
  | nop (q : Nat)
  | launch (q : Nat)
  | launchGang (q : Nat)
  | copy (q : Nat)
  | signal (q : Nat)
  | waitCmd (q : Nat)
  | waitPoll (q : Nat)
  | ib (q : Nat)
  | timestamp (q : Nat)
  | frontEndFence (q : Nat)
  | completionRecord (q : Nat)
  | releaseTime (q : Nat)
  | teamPlacement (g : Nat)
  | gangRetest (g : Nat)
  | launchMessage (i : Nat)
  | glaunchRequest (i : Nat)
  | tenantCommit (v : Nat)
  | tenantCommitDone
  | patchGo (v : Nat)
  | patchSwap
  | feClrDbdrop
  | feClrOvr
  | slotRel (md : Nat)
  | slotRelasid (md : Nat) (asid : Nat)
  | eccClrCe (md : Nat)
  | eccClrUe (md : Nat)
  | priReset (asid : Nat)
  | xlClrPrgSent
  | xlClrPrgBad
  | inboundWrite (port : Nat) (bar : Nat) (rid : Nat) (ro : Bool) (addr : Nat) (data : List Byte)
  | pieceSend (i : Nat)
  | pieceAck (i : Nat)
  | inboundRead (port : Nat) (bar : Nat) (rid : Nat) (addr : Nat) (len : Nat)
  | inboundAtomicop (port : Nat) (bar : Nat) (rid : Nat) (addr : Nat) (op : Nat) (len : Nat) (a : Word) (b : Word)
  | cxlMemAccess (port : Nat) (addr : Nat) (write : Bool) (data : List Byte)
  | outboundCompletion (port : Nat) (i : Nat) (status : Nat) (data : List Byte)
  | completionTimeout (port : Nat) (i : Nat)
  | linkTraining (port : Nat) (mode : Nat) (width : Nat) (rate : Nat)
  | linkDown (port : Nat)
  | functionLevelReset (port : Nat)
  | d3hotRequest (port : Nat) (enter : Bool)
  | msixUnmask (port : Nat) (v : Nat)
  | svcDb (port : Nat) (hart : Nat)
  | svcPop (port : Nat)
  | svcClr (port : Nat)
  | hpErrclrErr (port : Nat)
  | hpErrclrInerr (port : Nat)
  | frameReceive (e : Nat) (frame : List Byte)
  | ringSeqWrite (e : Nat) (i : Nat)
  | ingressMessage (e : Nat) (i : Nat)
  | ingressDescriptorCopy (e : Nat) (i : Nat)
  | ingressLaunchCommand (e : Nat) (i : Nat)
  | ingressTailAdvance (e : Nat) (i : Nat)
  | txTail (e : Nat) (v : Nat)
  | frameTransmit (e : Nat)
  | txWriteback (e : Nat)
  | rgHeadWrite (e : Nat) (r : Nat) (v : Nat)
  | rgCfgWrite (e : Nat) (r : Nat) (v : Nat)
  | txCfgWrite (e : Nat) (v : Nat)
  | ptpLatch (e : Nat)
  | ptpStep (e : Nat) (v : Nat)
  | ptpSample (e : Nat)
  | ethCntClr (e : Nat)
  | ethLinkLoss (e : Nat)
  | rcDb (e : Nat) (qp : Nat) (v : Nat)
  | workEntryRun (e : Nat) (qp : Nat)
  | roceRequestPacket (e : Nat) (qp : Nat) (psn : Nat) (op : Nat) (va : Nat) (rkey : Nat) (len : Nat) (imm : Nat) (data : List Byte)
  | roceResponsePacket (e : Nat) (qp : Nat) (psn : Nat) (kind : Nat) (data : List Byte)
  | roceRetryTimeout (e : Nat) (qp : Nat)
  | writeImmHandler (e : Nat) (i : Nat)
  | captureRequest (grid : Nat) (team : Nat) (kind : Nat)
  | yieldWindowExpiry (h : Nat)
  | captureComplete (i : Nat)
  | saveComplete (i : Nat)
  | teamRestore (i : Nat)
  | restoreStart (i : Nat)
  | accountZero (a : Nat)
  | graceExpiry (a : Nat)
  | deadlineMiss (g : Nat)
  | eventRecordWrite
  | schEvict (asid : Nat)
  | schResume (asid : Nat)
  | schWinrel (v : Nat)
  | schShoot (v : Nat)
  | schCntClr
  | evtHeadWrite (v : Nat)
  | evtCfgWrite (v : Nat)
  | smCtlRate (n : Nat) (rate : Nat)
  | smCtlRetest (n : Nat)
  | smClrCounters (n : Nat)
  | smClrRtMax (n : Nat)
  | smEvtpendClear (n : Nat)
  | flitReceive (n : Nat) (ab : Bool) (m : Nat) (flit : List Byte)
  | seamAckTimeout (n : Nat) (ab : Bool)
  | replayThreshold (n : Nat)
  | retrainComplete (n : Nat) (found : List Nat)
  | dieOff (die : Nat)
  | dieOn (die : Nat) (found : List Nat)
  | boot (fail : List Nat)
  | thermalTrip (die : Nat)
  | contextKill (asid : Nat) (cause : Nat)
  | laneFailureReport (core : Nat) (quad : Nat) (lane : Nat)
  | powerLimit (die : Nat) (mhz : Nat)
  | spdmRequest (req : List Byte)
  | debugHalt (kind : Nat) (id : Nat)
  | debugStep (h : Nat)
  | debugStepTimeout (h : Nat)
  | debugRegisterAccess (h : Nat) (reg : Nat) (write : Bool) (data : Nat)
  | boundaryScan
  | registerWrite (off : Nat) (v : Nat)
  | retrainStart (n : Nat)
  | ethLinkUp (e : Nat)
  | priEnable (port : Nat) (v : Nat)
  | bisnpAnswer (port : Nat) (line : Nat) (data : List Byte)
  | laneComputeDone (h : Nat) (seq : Nat)
  | tilePortDone (core : Nat)
deriving DecidableEq, Repr

end Sys2Proof
end

