-- ==== Sys2Proof/Machine/Shapes.lean ====
section
/-! DEFINITION. The encoding tables of the 64-bit class (R74, R164, R182, R183, R214, R239, R264, R292): which
row an instruction obeys, which vector registers its operands name, and whether the fields keep the row's limits. -/

namespace Sys2Proof.Machine

/-- The row of the encoding tables an engine instruction obeys, with its operand fields; none for every other
constructor (R74, R164, R182, R183, R214, R239, R264, R292). -/
def engine? : Instr → Option (Shape × Eops)
  | .vld o => some (⟨0, 0, .v, .x, .zero, .d8, .w, [0,1,2,3,4,5], .zero, .kinds [0], true, .byFmt, .none, .none, .none, true⟩, o)
  | .vst o => some (⟨0, 1, .v, .x, .zero, .d8, .w, [0,1,2,3], .zero, .kinds [0], true, .byFmt, .none, .none, .none, false⟩, o)
  | .vlds o => some (⟨0, 2, .v, .x, .b, .imm8, .w, [0,1,2,3,4,5], .zero, .kinds [1, 2], true, .byFmt, .none, .none, .none, true⟩, o)
  | .vsts o => some (⟨0, 3, .v, .x, .b, .imm8, .w, [0,1,2,3], .zero, .kinds [1, 2], true, .byFmt, .none, .none, .none, false⟩, o)
  | .vldg o => some (⟨0, 4, .v, .x, .v, .zero, .w, [0,1,2,3,4,5], .zero, .kinds [0], true, .byFmt, .none, .one, .none, true⟩, o)
  | .vstg o => some (⟨0, 5, .v, .x, .v, .zero, .w, [0,1,2,3], .zero, .kinds [0], true, .byFmt, .none, .one, .none, false⟩, o)
  | .vldt o => some (⟨0, 6, .v, .x, .v, .d8, .w, [0,1,2,3,4,5], .zero, .kinds [0], true, .byFmt, .none, .one, .none, true⟩, o)
  | .vstt o => some (⟨0, 7, .v, .x, .v, .d8, .w, [0,1,2,3], .zero, .kinds [0], true, .byFmt, .none, .one, .none, false⟩, o)
  | .vldf o => some (⟨0, 8, .v, .x, .zero, .x, .x, [0,1,2,3,4,5,6], .zero, .kinds [0], true, .block, .none, .none, .none, true⟩, o)
  | .vstf o => some (⟨0, 9, .v, .x, .zero, .x, .x, [0,1,2,3,4,5,6], .zero, .kinds [0], true, .block, .none, .none, .none, false⟩, o)
  | .vcst o => some (⟨1, 0, .v, .x, .zero, .d8, .w, [0,1,2,3], .zero, .kinds [0], true, .byFmt, .none, .none, .none, false⟩, o)
  | .vxld o => some (⟨1, 1, .v, .x, .zero, .d8, .w, [0,1,2,3,4,5], .zero, .kinds [0], true, .byFmt, .none, .none, .none, true⟩, o)
  | .vamo o => some (⟨1, 8, .v, .x, .v, .v, .i, [2,3,6,7], (.op 8), .scope, true, .byFmt, .none, .one, .byFmt, true⟩, o)
  | .vamoAq o => some (⟨1, 9, .v, .x, .v, .v, .i, [2,3,6,7], (.op 8), .scope, true, .byFmt, .none, .one, .byFmt, true⟩, o)
  | .vamoRl o => some (⟨1, 10, .v, .x, .v, .v, .i, [2,3,6,7], (.op 8), .scope, true, .byFmt, .none, .one, .byFmt, true⟩, o)
  | .vamoAqrl o => some (⟨1, 11, .v, .x, .v, .v, .i, [2,3,6,7], (.op 8), .scope, true, .byFmt, .none, .one, .byFmt, true⟩, o)
  | .vpf o => some (⟨1, 16, .zero, .x, .v, .zero, .none, [0], (.op 3), .kinds [0], true, .none, .none, .one, .none, false⟩, o)
  | .vfence o => some (⟨1, 24, .zero, .zero, .zero, .zero, .none, [0], .zero, .scope, false, .none, .none, .none, .none, false⟩, o)
  | .vaddI o => some (⟨2, 0, .v, .v, .b, .imm8, .i, [0,1,2,3,4,5,6,7], .zero, .kinds [0, 1, 2], true, .byFmt, .byFmt, .byFmt, .none, true⟩, o)
  | .vsubI o => some (⟨2, 1, .v, .v, .b, .imm8, .i, [0,1,2,3,4,5,6,7], .zero, .kinds [0, 1, 2], true, .byFmt, .byFmt, .byFmt, .none, true⟩, o)
  | .vmulI o => some (⟨2, 2, .v, .v, .b, .imm8, .i, [0,1,2,3,4,5,6,7], .zero, .kinds [0, 1, 2], true, .byFmt, .byFmt, .byFmt, .none, true⟩, o)
  | .vmulh o => some (⟨2, 3, .v, .v, .b, .imm8, .i, [0,1,2,3,4,5,6,7], .zero, .kinds [0, 1, 2], true, .byFmt, .byFmt, .byFmt, .none, true⟩, o)
  | .vdivI o => some (⟨2, 4, .v, .v, .b, .imm8, .i, [0,1,2,3,4,5,6,7], .zero, .kinds [0, 1, 2], true, .byFmt, .byFmt, .byFmt, .none, true⟩, o)
  | .vrem o => some (⟨2, 5, .v, .v, .b, .imm8, .i, [0,1,2,3,4,5,6,7], .zero, .kinds [0, 1, 2], true, .byFmt, .byFmt, .byFmt, .none, true⟩, o)
  | .vminI o => some (⟨2, 6, .v, .v, .b, .imm8, .i, [0,1,2,3,4,5,6,7], .zero, .kinds [0, 1, 2], true, .byFmt, .byFmt, .byFmt, .none, true⟩, o)
  | .vmaxI o => some (⟨2, 7, .v, .v, .b, .imm8, .i, [0,1,2,3,4,5,6,7], .zero, .kinds [0, 1, 2], true, .byFmt, .byFmt, .byFmt, .none, true⟩, o)
  | .vadds o => some (⟨2, 8, .v, .v, .b, .imm8, .i, [0,1,2,3,4,5,6,7], .zero, .kinds [0, 1, 2], true, .byFmt, .byFmt, .byFmt, .none, true⟩, o)
  | .vsubs o => some (⟨2, 9, .v, .v, .b, .imm8, .i, [0,1,2,3,4,5,6,7], .zero, .kinds [0, 1, 2], true, .byFmt, .byFmt, .byFmt, .none, true⟩, o)
  | .vabsI o => some (⟨2, 10, .v, .v, .zero, .zero, .i, [0,1,2,3], .zero, .kinds [0], true, .byFmt, .byFmt, .none, .none, true⟩, o)
  | .vnegI o => some (⟨2, 11, .v, .v, .zero, .zero, .i, [0,1,2,3], .zero, .kinds [0], true, .byFmt, .byFmt, .none, .none, true⟩, o)
  | .vmad o => some (⟨2, 12, .v, .v, .b, .v, .i, [0,1,2,3,4,5,6,7], .zero, .kinds [0, 1], true, .byFmt, .byFmt, .byFmt, .byFmt, true⟩, o)
  | .vand o => some (⟨2, 16, .v, .v, .b, .imm8, .i, [0,1,2,3,4,5,6,7], .zero, .kinds [0, 1, 2], true, .byFmt, .byFmt, .byFmt, .none, true⟩, o)
  | .vor o => some (⟨2, 17, .v, .v, .b, .imm8, .i, [0,1,2,3,4,5,6,7], .zero, .kinds [0, 1, 2], true, .byFmt, .byFmt, .byFmt, .none, true⟩, o)
  | .vxor o => some (⟨2, 18, .v, .v, .b, .imm8, .i, [0,1,2,3,4,5,6,7], .zero, .kinds [0, 1, 2], true, .byFmt, .byFmt, .byFmt, .none, true⟩, o)
  | .vnot o => some (⟨2, 19, .v, .v, .zero, .zero, .i, [0,1,2,3,4,5,6,7], .zero, .kinds [0], true, .byFmt, .byFmt, .none, .none, true⟩, o)
  | .vsll o => some (⟨2, 20, .v, .v, .b, .imm8, .i, [0,1,2,3,4,5,6,7], .zero, .kinds [0, 1, 2], true, .byFmt, .byFmt, .byFmt, .none, true⟩, o)
  | .vsrl o => some (⟨2, 21, .v, .v, .b, .imm8, .i, [0,1,2,3,4,5,6,7], .zero, .kinds [0, 1, 2], true, .byFmt, .byFmt, .byFmt, .none, true⟩, o)
  | .vsra o => some (⟨2, 22, .v, .v, .b, .imm8, .i, [0,1,2,3,4,5,6,7], .zero, .kinds [0, 1, 2], true, .byFmt, .byFmt, .byFmt, .none, true⟩, o)
  | .vmov o => some (⟨2, 24, .v, .zero, .b, .imm8, .i, [0,1,2,3,4,5,6,7], .zero, .kinds [0, 1, 2], true, .byFmt, .none, .byFmt, .none, true⟩, o)
  | .vli o => some (⟨2, 25, .v, .d8, .d8, .d8, .none, [0], .zero, .kinds [0], true, .one, .none, .none, .none, true⟩, o)
  | .vcmp o => some (⟨3, 0, .m, .v, .b, .imm8, .i, [0,1,2,3,4,5,6,7], (.op 6), .kinds [0, 1, 2], true, .none, .byFmt, .byFmt, .none, true⟩, o)
  | .vfcmp o => some (⟨3, 1, .m, .v, .b, .imm8, .f, [0,1,2,3], (.op 8), .kinds [0, 1, 2], true, .none, .byFmt, .byFmt, .none, true⟩, o)
  | .vsel o => some (⟨3, 8, .v, .v, .b, .m, .i, [2,3], .zero, .kinds [0, 1], true, .byFmt, .byFmt, .byFmt, .none, true⟩, o)
  | .vpopc o => some (⟨3, 16, .v, .v, .zero, .zero, .i, [2,3,6,7], .zero, .kinds [0], true, .byFmt, .byFmt, .none, .none, true⟩, o)
  | .vclz o => some (⟨3, 17, .v, .v, .zero, .zero, .i, [2,3,6,7], .zero, .kinds [0], true, .byFmt, .byFmt, .none, .none, true⟩, o)
  | .vctz o => some (⟨3, 18, .v, .v, .zero, .zero, .i, [2,3,6,7], .zero, .kinds [0], true, .byFmt, .byFmt, .none, .none, true⟩, o)
  | .vbrev o => some (⟨3, 19, .v, .v, .zero, .zero, .i, [2,3,6,7], .zero, .kinds [0], true, .byFmt, .byFmt, .none, .none, true⟩, o)
  | .vaddF o => some (⟨4, 0, .v, .v, .b, .imm8, .f, [0,1,2,3], .mode, .kinds [0, 1, 2], true, .byFmt, .byFmt, .byFmt, .none, true⟩, o)
  | .vsubF o => some (⟨4, 1, .v, .v, .b, .imm8, .f, [0,1,2,3], .mode, .kinds [0, 1, 2], true, .byFmt, .byFmt, .byFmt, .none, true⟩, o)
  | .vmulF o => some (⟨4, 2, .v, .v, .b, .imm8, .f, [0,1,2,3], .mode, .kinds [0, 1, 2], true, .byFmt, .byFmt, .byFmt, .none, true⟩, o)
  | .vdivF o => some (⟨4, 3, .v, .v, .b, .imm8, .f, [0,1,2,3], .mode, .kinds [0, 1, 2], true, .byFmt, .byFmt, .byFmt, .none, true⟩, o)
  | .vsqrt o => some (⟨4, 4, .v, .v, .zero, .zero, .f, [0,1,2,3], .mode, .kinds [0], true, .byFmt, .byFmt, .none, .none, true⟩, o)
  | .vminF o => some (⟨4, 5, .v, .v, .b, .imm8, .f, [0,1,2,3], .zero, .kinds [0, 1, 2], true, .byFmt, .byFmt, .byFmt, .none, true⟩, o)
  | .vmaxF o => some (⟨4, 6, .v, .v, .b, .imm8, .f, [0,1,2,3], .zero, .kinds [0, 1, 2], true, .byFmt, .byFmt, .byFmt, .none, true⟩, o)
  | .vabsF o => some (⟨4, 7, .v, .v, .zero, .zero, .f, [0,1,2,3], .zero, .kinds [0], true, .byFmt, .byFmt, .none, .none, true⟩, o)
  | .vnegF o => some (⟨4, 8, .v, .v, .zero, .zero, .f, [0,1,2,3], .zero, .kinds [0], true, .byFmt, .byFmt, .none, .none, true⟩, o)
  | .vfma o => some (⟨4, 9, .v, .v, .b, .v, .f, [0,1,2,3], .mode, .kinds [0, 1], true, .byFmt, .byFmt, .byFmt, .byFmt, true⟩, o)
  | .vfms o => some (⟨4, 10, .v, .v, .b, .v, .f, [0,1,2,3], .mode, .kinds [0, 1], true, .byFmt, .byFmt, .byFmt, .byFmt, true⟩, o)
  | .vfnma o => some (⟨4, 11, .v, .v, .b, .v, .f, [0,1,2,3], .mode, .kinds [0, 1], true, .byFmt, .byFmt, .byFmt, .byFmt, true⟩, o)
  | .vclass o => some (⟨4, 12, .v, .v, .zero, .zero, .f, [0,1,2,3], .zero, .kinds [0], true, .one, .byFmt, .none, .none, true⟩, o)
  | .vrcp o => some (⟨5, 0, .v, .v, .zero, .zero, .f, [0,2], .zero, .kinds [0], true, .byFmt, .byFmt, .none, .none, true⟩, o)
  | .vrsqrt o => some (⟨5, 1, .v, .v, .zero, .zero, .f, [0,2], .zero, .kinds [0], true, .byFmt, .byFmt, .none, .none, true⟩, o)
  | .vexp2 o => some (⟨5, 2, .v, .v, .zero, .zero, .f, [0,2], .zero, .kinds [0], true, .byFmt, .byFmt, .none, .none, true⟩, o)
  | .vlog2 o => some (⟨5, 3, .v, .v, .zero, .zero, .f, [0,2], .zero, .kinds [0], true, .byFmt, .byFmt, .none, .none, true⟩, o)
  | .vsin o => some (⟨5, 4, .v, .v, .zero, .zero, .f, [0,2], .zero, .kinds [0], true, .byFmt, .byFmt, .none, .none, true⟩, o)
  | .vcos o => some (⟨5, 5, .v, .v, .zero, .zero, .f, [0,2], .zero, .kinds [0], true, .byFmt, .byFmt, .none, .none, true⟩, o)
  | .vtanh o => some (⟨5, 6, .v, .v, .zero, .zero, .f, [0,2], .zero, .kinds [0], true, .byFmt, .byFmt, .none, .none, true⟩, o)
  | .vcvtFF src o => some (⟨6, (0 + src.toNat), .v, .v, .zero, .zero, .f, [0,1,2,3,4,5,6], .mode, .kinds [0], true, .byFmt, .byOpc, .none, .none, true⟩, o)
  | .vcvtFI src o => some (⟨6, (8 + src.toNat), .v, .v, .zero, .zero, .i, [0,1,2,3,4,5,6,7], .mode, .kinds [0], true, .byFmt, .byOpc, .none, .none, true⟩, o)
  | .vcvtIF src o => some (⟨6, (16 + src.toNat), .v, .v, .zero, .zero, .f, [0,1,2,3,4,5,6], .mode, .kinds [0], true, .byFmt, .byOpc, .none, .none, true⟩, o)
  | .vpk o => some (⟨6, 32, .v, .v, .zero, .zero, .f, [4,5,6], .zero, .kinds [0], true, .one, .packGroup, .none, .none, true⟩, o)
  | .vupk o => some (⟨6, 33, .v, .v, .zero, .zero, .f, [4,5,6], .zero, .kinds [0], true, .packGroup, .one, .none, .none, true⟩, o)
  | .vdot o => some (⟨7, 0, .v, .v, .b, .v, .i, [0,1,4,5], .zero, .kinds [0, 1], true, .one, .one, .one, .one, true⟩, o)
  | .vfdot o => some (⟨7, 1, .v, .v, .b, .v, .f, [2,3,4,5,6], .mode, .kinds [0, 1], true, .one, .one, .one, .one, true⟩, o)
  | .vlid o => some (⟨8, 0, .v, .zero, .zero, .zero, .i, [2,3], .zero, .kinds [0], true, .byFmt, .none, .none, .none, true⟩, o)
  | .vballot o => some (⟨8, 6, .v, .zero, .zero, .zero, .i, [2,3], .zero, .kinds [0], true, .byFmt, .none, .none, .none, true⟩, o)
  | .vshfl o => some (⟨8, 1, .v, .v, .b, .imm8, .i, [2,3], .zero, .kinds [0, 1, 2], true, .byFmt, .byFmt, .byFmt, .none, true⟩, o)
  | .vshup o => some (⟨8, 2, .v, .v, .b, .imm8, .i, [2,3], .zero, .kinds [0, 1, 2], true, .byFmt, .byFmt, .byFmt, .none, true⟩, o)
  | .vshdn o => some (⟨8, 3, .v, .v, .b, .imm8, .i, [2,3], .zero, .kinds [0, 1, 2], true, .byFmt, .byFmt, .byFmt, .none, true⟩, o)
  | .vxorl o => some (⟨8, 4, .v, .v, .b, .imm8, .i, [2,3], .zero, .kinds [0, 1, 2], true, .byFmt, .byFmt, .byFmt, .none, true⟩, o)
  | .vbcast o => some (⟨8, 5, .v, .v, .b, .imm8, .i, [2,3], .zero, .kinds [1, 2], true, .byFmt, .byFmt, .none, .none, true⟩, o)
  | .vscan o => some (⟨8, 7, .v, .v, .b, .imm8, .i, [0,1,2,3,4,5,6,7], (.op 6), .kinds [1, 2], true, .byFmt, .byFmt, .none, .none, true⟩, o)
  | .vscanx o => some (⟨8, 8, .v, .v, .b, .imm8, .i, [0,1,2,3,4,5,6,7], (.op 6), .kinds [1, 2], true, .byFmt, .byFmt, .none, .none, true⟩, o)
  | .vgred o => some (⟨8, 9, .v, .v, .b, .imm8, .i, [0,1,2,3,4,5,6,7], (.op 6), .kinds [1, 2], true, .byFmt, .byFmt, .none, .none, true⟩, o)
  | .vmvx o => some (⟨8, 10, .x, .v, .b, .imm8, .i, [2,3], .zero, .kinds [1, 2], false, .none, .byFmt, .none, .none, true⟩, o)
  | .vfscan o => some (⟨8, 11, .v, .v, .b, .imm8, .f, [0,1,2,3], .mode, .kinds [1, 2], true, .byFmt, .byFmt, .none, .none, true⟩, o)
  | .vfgred o => some (⟨8, 12, .v, .v, .b, .imm8, .f, [0,1,2,3], .mode, .kinds [1, 2], true, .byFmt, .byFmt, .none, .none, true⟩, o)
  | .vredOpen o => some (⟨9, 0, .x, .x, .zero, .x, .b, [0,1,2,3], .zero, .kinds [0], false, .none, .none, .none, .none, true⟩, o)
  | .vredAdd o => some (⟨9, 1, .zero, .x, .v, .zero, .b, [0,1,2,3], .zero, .kinds [0], true, .none, .none, .byFmt, .none, false⟩, o)
  | .vredFlush o => some (⟨9, 2, .x, .x, .zero, .zero, .b, [0,1,2,3], .zero, .kinds [0], false, .none, .none, .none, .none, true⟩, o)
  | .mma o => some (⟨10, 0, .t, .v, .v, .v, .x, [0,1,2,3,4,5,6], .zero, .kinds [0], false, .none, .block, .block, .scale, true⟩, o)
  | .mmasp o => some (⟨10, 1, .t, .v, .v, .v, .x, [0,1,2,3,4,5,6], .zero, .kinds [0], false, .none, .block, .block, .scale, true⟩, o)
  | .mmabk o => some (⟨10, 2, .t, .v, .v, .v, .x, [0,1,2,3,4,5,6], .zero, .kinds [0], false, .none, .block, .block, .scale, true⟩, o)
  | .tzero o => some (⟨10, 3, .t, .zero, .zero, .zero, .none, [0], .zero, .kinds [0], false, .none, .none, .none, .none, true⟩, o)
  | .tmovv o => some (⟨10, 4, .v, .t, .zero, .zero, .none, [0], .zero, .kinds [0], false, .quad, .none, .none, .none, true⟩, o)
  | .tmovt o => some (⟨10, 5, .t, .v, .zero, .zero, .none, [0], .zero, .kinds [0], false, .none, .quad, .none, .none, true⟩, o)
  | .tst o => some (⟨10, 6, .t, .x, .zero, .zero, .none, [0], .zero, .kinds [0], false, .none, .none, .none, .none, false⟩, o)
  | .tld o => some (⟨10, 7, .t, .x, .zero, .zero, .none, [0], .zero, .kinds [0], false, .none, .none, .none, .none, true⟩, o)
  | .tdrain o => some (⟨10, 8, .t, .x, .zero, .x, .none, [0], .zero, .kinds [0], false, .none, .none, .none, .none, false⟩, o)
  | .twait o => some (⟨10, 9, .x, .t, .zero, .zero, .none, [0], .zero, .kinds [0], false, .none, .none, .none, .none, true⟩, o)
  | .cpgs o => some (⟨11, 0, .x, .x, .zero, .tm, .none, [0], .zero, .kinds [0], false, .none, .none, .none, .none, false⟩, o)
  | .cpsg o => some (⟨11, 1, .x, .x, .zero, .tm, .none, [0], .zero, .kinds [0], false, .none, .none, .none, .none, false⟩, o)
  | .cpgg o => some (⟨11, 2, .x, .x, .zero, .x, .none, [0], .zero, .kinds [0], false, .none, .none, .none, .none, false⟩, o)
  | .cpmc o => some (⟨11, 3, .x, .x, .zero, .tm, .none, [0], .zero, .kinds [0], false, .none, .none, .none, .none, false⟩, o)
  | .cpfill o => some (⟨11, 4, .x, .x, .zero, .x, .w, [0,1,2,3], .zero, .kinds [0], false, .none, .none, .none, .none, false⟩, o)
  | .cpadd o => some (⟨11, 5, .x, .x, .zero, .x, .i, [0,2,3,6,7], (.op 2), .kinds [0], false, .none, .none, .none, .none, false⟩, o)
  | .msend o => some (⟨12, 0, .x, .x, .zero, .x, .none, [0], .zero, .kinds [0], false, .none, .none, .none, .none, false⟩, o)
  | .msendb o => some (⟨12, 1, .x, .x, .zero, .x, .none, [0], .zero, .kinds [0], false, .none, .none, .none, .none, false⟩, o)
  | .msendr o => some (⟨12, 2, .zero, .zero, .zero, .x, .none, [0], .zero, .kinds [0], false, .none, .none, .none, .none, false⟩, o)
  | .mrecv o => some (⟨12, 3, .x, .x, .zero, .zero, .none, [0], .zero, .kinds [0], false, .none, .none, .none, .none, true⟩, o)
  | .mackrd o => some (⟨12, 4, .x, .zero, .zero, .lim 7, .none, [0], .zero, .kinds [0], false, .none, .none, .none, .none, true⟩, o)
  | .xamo o => some (⟨13, 0, .x, .x, .x, .x, .i, [2,3,6,7], (.op 8), .scope, false, .none, .none, .none, .none, true⟩, o)
  | .xamoAq o => some (⟨13, 1, .x, .x, .x, .x, .i, [2,3,6,7], (.op 8), .scope, false, .none, .none, .none, .none, true⟩, o)
  | .xamoRl o => some (⟨13, 2, .x, .x, .x, .x, .i, [2,3,6,7], (.op 8), .scope, false, .none, .none, .none, .none, true⟩, o)
  | .xamoAqrl o => some (⟨13, 3, .x, .x, .x, .x, .i, [2,3,6,7], (.op 8), .scope, false, .none, .none, .none, .none, true⟩, o)
  | .xfence o => some (⟨13, 8, .zero, .zero, .zero, .zero, .none, [0], .zero, .scope, false, .none, .none, .none, .none, false⟩, o)
  | .xfenceSc o => some (⟨13, 9, .zero, .zero, .zero, .zero, .none, [0], .zero, .scope, false, .none, .none, .none, .none, false⟩, o)
  | _ => none

/-- The instruction of opcode `opc` of group 0x00 (R74). -/
def ofGroup0 (opc : Nat) (o : Eops) : Option Instr :=
  match opc with
  | 0 => some (.vld o)
  | 1 => some (.vst o)
  | 2 => some (.vlds o)
  | 3 => some (.vsts o)
  | 4 => some (.vldg o)
  | 5 => some (.vstg o)
  | 6 => some (.vldt o)
  | 7 => some (.vstt o)
  | 8 => some (.vldf o)
  | 9 => some (.vstf o)
  | _ => none

/-- The instruction of opcode `opc` of group 0x01 (R74). -/
def ofGroup1 (opc : Nat) (o : Eops) : Option Instr :=
  match opc with
  | 0 => some (.vcst o)
  | 1 => some (.vxld o)
  | 8 => some (.vamo o)
  | 9 => some (.vamoAq o)
  | 10 => some (.vamoRl o)
  | 11 => some (.vamoAqrl o)
  | 16 => some (.vpf o)
  | 24 => some (.vfence o)
  | _ => none

/-- The instruction of opcode `opc` of group 0x02 (R74). -/
def ofGroup2 (opc : Nat) (o : Eops) : Option Instr :=
  match opc with
  | 0 => some (.vaddI o)
  | 1 => some (.vsubI o)
  | 2 => some (.vmulI o)
  | 3 => some (.vmulh o)
  | 4 => some (.vdivI o)
  | 5 => some (.vrem o)
  | 6 => some (.vminI o)
  | 7 => some (.vmaxI o)
  | 8 => some (.vadds o)
  | 9 => some (.vsubs o)
  | 10 => some (.vabsI o)
  | 11 => some (.vnegI o)
  | 12 => some (.vmad o)
  | 16 => some (.vand o)
  | 17 => some (.vor o)
  | 18 => some (.vxor o)
  | 19 => some (.vnot o)
  | 20 => some (.vsll o)
  | 21 => some (.vsrl o)
  | 22 => some (.vsra o)
  | 24 => some (.vmov o)
  | 25 => some (.vli o)
  | _ => none

/-- The instruction of opcode `opc` of group 0x03 (R74). -/
def ofGroup3 (opc : Nat) (o : Eops) : Option Instr :=
  match opc with
  | 0 => some (.vcmp o)
  | 1 => some (.vfcmp o)
  | 8 => some (.vsel o)
  | 16 => some (.vpopc o)
  | 17 => some (.vclz o)
  | 18 => some (.vctz o)
  | 19 => some (.vbrev o)
  | _ => none

/-- The instruction of opcode `opc` of group 0x04 (R74). -/
def ofGroup4 (opc : Nat) (o : Eops) : Option Instr :=
  match opc with
  | 0 => some (.vaddF o)
  | 1 => some (.vsubF o)
  | 2 => some (.vmulF o)
  | 3 => some (.vdivF o)
  | 4 => some (.vsqrt o)
  | 5 => some (.vminF o)
  | 6 => some (.vmaxF o)
  | 7 => some (.vabsF o)
  | 8 => some (.vnegF o)
  | 9 => some (.vfma o)
  | 10 => some (.vfms o)
  | 11 => some (.vfnma o)
  | 12 => some (.vclass o)
  | _ => none

/-- The instruction of opcode `opc` of group 0x05 (R74). -/
def ofGroup5 (opc : Nat) (o : Eops) : Option Instr :=
  match opc with
  | 0 => some (.vrcp o)
  | 1 => some (.vrsqrt o)
  | 2 => some (.vexp2 o)
  | 3 => some (.vlog2 o)
  | 4 => some (.vsin o)
  | 5 => some (.vcos o)
  | 6 => some (.vtanh o)
  | _ => none

/-- The instruction of opcode `opc` of group 0x06 (R74). -/
def ofGroup6 (opc : Nat) (o : Eops) : Option Instr :=
  match opc with
  | 0 => some (.vcvtFF 0 o)
  | 1 => some (.vcvtFF 1 o)
  | 2 => some (.vcvtFF 2 o)
  | 3 => some (.vcvtFF 3 o)
  | 4 => some (.vcvtFF 4 o)
  | 5 => some (.vcvtFF 5 o)
  | 6 => some (.vcvtFF 6 o)
  | 7 => some (.vcvtFF 7 o)
  | 8 => some (.vcvtFI 0 o)
  | 9 => some (.vcvtFI 1 o)
  | 10 => some (.vcvtFI 2 o)
  | 11 => some (.vcvtFI 3 o)
  | 12 => some (.vcvtFI 4 o)
  | 13 => some (.vcvtFI 5 o)
  | 14 => some (.vcvtFI 6 o)
  | 15 => some (.vcvtFI 7 o)
  | 16 => some (.vcvtIF 0 o)
  | 17 => some (.vcvtIF 1 o)
  | 18 => some (.vcvtIF 2 o)
  | 19 => some (.vcvtIF 3 o)
  | 20 => some (.vcvtIF 4 o)
  | 21 => some (.vcvtIF 5 o)
  | 22 => some (.vcvtIF 6 o)
  | 23 => some (.vcvtIF 7 o)
  | 32 => some (.vpk o)
  | 33 => some (.vupk o)
  | _ => none

/-- The instruction of opcode `opc` of group 0x07 (R74). -/
def ofGroup7 (opc : Nat) (o : Eops) : Option Instr :=
  match opc with
  | 0 => some (.vdot o)
  | 1 => some (.vfdot o)
  | _ => none

/-- The instruction of opcode `opc` of group 0x08 (R74). -/
def ofGroup8 (opc : Nat) (o : Eops) : Option Instr :=
  match opc with
  | 0 => some (.vlid o)
  | 6 => some (.vballot o)
  | 1 => some (.vshfl o)
  | 2 => some (.vshup o)
  | 3 => some (.vshdn o)
  | 4 => some (.vxorl o)
  | 5 => some (.vbcast o)
  | 7 => some (.vscan o)
  | 8 => some (.vscanx o)
  | 9 => some (.vgred o)
  | 10 => some (.vmvx o)
  | 11 => some (.vfscan o)
  | 12 => some (.vfgred o)
  | _ => none

/-- The instruction of opcode `opc` of group 0x09 (R74). -/
def ofGroup9 (opc : Nat) (o : Eops) : Option Instr :=
  match opc with
  | 0 => some (.vredOpen o)
  | 1 => some (.vredAdd o)
  | 2 => some (.vredFlush o)
  | _ => none

/-- The instruction of opcode `opc` of group 0x0A (R74). -/
def ofGroup10 (opc : Nat) (o : Eops) : Option Instr :=
  match opc with
  | 0 => some (.mma o)
  | 1 => some (.mmasp o)
  | 2 => some (.mmabk o)
  | 3 => some (.tzero o)
  | 4 => some (.tmovv o)
  | 5 => some (.tmovt o)
  | 6 => some (.tst o)
  | 7 => some (.tld o)
  | 8 => some (.tdrain o)
  | 9 => some (.twait o)
  | _ => none

/-- The instruction of opcode `opc` of group 0x0B (R74). -/
def ofGroup11 (opc : Nat) (o : Eops) : Option Instr :=
  match opc with
  | 0 => some (.cpgs o)
  | 1 => some (.cpsg o)
  | 2 => some (.cpgg o)
  | 3 => some (.cpmc o)
  | 4 => some (.cpfill o)
  | 5 => some (.cpadd o)
  | _ => none

/-- The instruction of opcode `opc` of group 0x0C (R74). -/
def ofGroup12 (opc : Nat) (o : Eops) : Option Instr :=
  match opc with
  | 0 => some (.msend o)
  | 1 => some (.msendb o)
  | 2 => some (.msendr o)
  | 3 => some (.mrecv o)
  | 4 => some (.mackrd o)
  | _ => none

/-- The instruction of opcode `opc` of group 0x0D (R74). -/
def ofGroup13 (opc : Nat) (o : Eops) : Option Instr :=
  match opc with
  | 0 => some (.xamo o)
  | 1 => some (.xamoAq o)
  | 2 => some (.xamoRl o)
  | 3 => some (.xamoAqrl o)
  | 8 => some (.xfence o)
  | 9 => some (.xfenceSc o)
  | _ => none

/-- The instruction a group and opcode name (R74); none for every unassigned value. -/
def ofGroup (grp opc : Nat) (o : Eops) : Option Instr :=
  match grp with
  | 0 => ofGroup0 opc o
  | 1 => ofGroup1 opc o
  | 2 => ofGroup2 opc o
  | 3 => ofGroup3 opc o
  | 4 => ofGroup4 opc o
  | 5 => ofGroup5 opc o
  | 6 => ofGroup6 opc o
  | 7 => ofGroup7 opc o
  | 8 => ofGroup8 opc o
  | 9 => ofGroup9 opc o
  | 10 => ofGroup10 opc o
  | 11 => ofGroup11 opc o
  | 12 => ofGroup12 opc o
  | 13 => ofGroup13 opc o
  | _ => none

/-- The width in bits that a code of a set names; 0 where the set gives none (R72). The X set names matrix elements. -/
def fmtWidth (fs : FmtSet) (c : Nat) : Nat :=
  match fs with
  | .none => 32
  | .i => [8, 16, 32, 64, 8, 16, 32, 64].getD c 0
  | .f => [32, 64, 16, 16, 8, 8, 4].getD c 0
  | .w => [8, 16, 32, 64, 8, 16].getD c 0
  | .x => [8, 8, 4, 16, 16, 8, 4].getD c 0
  | .b => [32, 64, 32, 64].getD c 0

/-- The set by which a `vcvt` source code is read: opcodes 0x10 to 0x17 take an integer source (R194). -/
def srcSet (opc : Nat) : FmtSet := if 0x10 ≤ opc then .i else .f

/-- How many registers an operand of a given width needs: a pair for 64 bits (R70). -/
def widthSpan (reg w : Nat) : RegSpan := if w = 64 then ⟨reg, 2, 2, false⟩ else ⟨reg, 1, 1, false⟩

/-- The group size g of `vpk` and `vupk` (R195). -/
def packGroupSize (fmt : Nat) : Nat := if fmt = 6 then 8 else 4

/-- The scale registers of a matrix operation (R236, R240): none when the field is 0. -/
def scaleSpan (reg fmt : Nat) : Option RegSpan :=
  if reg = 0 then none
  else if fmt = 0 ∨ fmt = 1 then some ⟨reg, 2, 2, true⟩
  else if fmt = 2 then some ⟨reg, 4, 4, true⟩
  else none

/-- The registers one vector operand names. -/
def operandSpan (sh : Shape) (o : Eops) (k : SpanKind) (reg : Nat) (isDst : Bool) : Option RegSpan :=
  match k with
  | .none => none
  | .one => some ⟨reg, 1, 1, false⟩
  | .byFmt => some (widthSpan reg (fmtWidth sh.fmtSet o.fmt.toNat))
  | .byOpc => some (widthSpan reg (fmtWidth (srcSet sh.opc) (sh.opc % 8)))
  | .block => some ⟨reg, 32, 16, true⟩
  | .quad => some ⟨reg, 4, 4, true⟩
  | .scale => scaleSpan reg o.fmt.toNat
  | .packGroup => some ⟨reg, packGroupSize o.fmt.toNat, packGroupSize o.fmt.toNat, isDst⟩

/-- The vector registers an engine instruction names, destination first. The vs2 field of a `b` form names a vector
register only when ks is 00 (R71). -/
def vdSpans (sh : Shape) (o : Eops) : List RegSpan := (operandSpan sh o sh.vdSpan o.vd.toNat true).toList

/-- The vector source operands other than vd. -/
def srcSpans (sh : Shape) (o : Eops) : List RegSpan :=
  (operandSpan sh o sh.vs1Span o.vs1.toNat false).toList ++
  (if sh.vs2 = .b ∧ o.ks ≠ 0 then [] else (operandSpan sh o sh.vs2Span o.vs2.toNat false).toList) ++
  (operandSpan sh o sh.vs3Span o.vs3.toNat false).toList

/-- A register run that the encoding rules of R70, R171, R195 and R240 allow, whatever the allocation. -/
def spanAligned (r : RegSpan) : Bool := r.reg % r.align == 0 && (!r.nonZero || r.reg != 0)

/-- A register run that lies inside an allocation of nv registers (R69). -/
def spanInside (nv : Nat) (r : RegSpan) : Bool := r.reg + r.cnt ≤ nv

/-- One operand field keeps its kind's limits (R69, R71). -/
def fieldOk (k : FieldKind) (ks : BitVec 2) (f : BitVec 8) : Bool :=
  match k with
  | .zero => f == 0
  | .v => true
  | .x => f.toNat < 32
  | .m => f.toNat < 8
  | .tm => f.toNat < 8
  | .t => f.toNat < 16
  | .b => if ks == 0 then true else if ks == 1 then f.toNat < 32 else f == 0
  | .d8 => true
  | .imm8 => ks == 2 || f == 0
  | .lim n => f.toNat ≤ n

/-- The rnd field keeps its kind's limits (R74, R93). -/
def rndOk (k : RndKind) (r : BitVec 3) : Bool :=
  match k with
  | .zero => r == 0
  | .mode => r.toNat ≤ 4 || r.toNat == 7
  | .op n => r.toNat < n

/-- The ks field keeps its kind's limits (R71, R74). -/
def ksOk (k : KsKind) (b : BitVec 2) : Bool :=
  match k with
  | .kinds l => l.contains b.toNat
  | .scope => true

/-- The predicate field (R73). -/
def predOk (p : Bool) (o : Eops) : Bool :=
  if p then !(o.pm == 0 && o.pi == 1) else o.pm == 0 && o.pi == 0

/-- The limits that one row alone has (R194, R214, R240, R264, R292). -/
def rowOk (i : Instr) : Bool :=
  match i with
  | .vcvtFF src o => src != 7 && src != o.fmt
  | .vcvtFI src _ => src != 7
  | .vcvtIF _ _ => true
  | .mma o | .mmasp o | .mmabk o => o.fmt.toNat < 3 || o.vs3 == 0
  | .cpadd o => if o.rnd == 0 then [2, 3, 6, 7].contains o.fmt.toNat else [0, 2, 3].contains o.fmt.toNat
  | .msend o => o.vs3.toNat ≤ 30
  | .msendb o => o.vs3.toNat ≤ 28
  | .msendr o => o.vs3.toNat ≤ 30
  | .mrecv o => o.vd != o.vs1 || o.vd == 0
  | .xamo o | .xamoAq o | .xamoRl o | .xamoAqrl o => o.rnd == 7 || o.vs3 == 0
  | _ => true

/-- Every limit of the encoding tables that does not depend on the hart: `vli` has no ks, rnd and fmt (R68). -/
def engineOk (i : Instr) : Bool :=
  match engine? i with
  | none => true
  | some (sh, o) =>
    match i with
    | .vli o' => predOk true o'
    | _ =>
      fieldOk sh.vd o.ks o.vd && fieldOk sh.vs1 o.ks o.vs1 && fieldOk sh.vs2 o.ks o.vs2 && fieldOk sh.vs3 o.ks o.vs3 &&
      sh.fmts.contains o.fmt.toNat && rndOk sh.rnd o.rnd && ksOk sh.ks o.ks && predOk sh.pred o &&
      (vdSpans sh o).all spanAligned && (srcSpans sh o).all spanAligned && rowOk i

/-- The limits that depend on the hart's allocation: vector registers below nv, tiles below nt (R69). -/
def allocOk (nv nt : Nat) (i : Instr) : Bool :=
  match engine? i with
  | none => true
  | some (sh, o) =>
    (vdSpans sh o).all (spanInside nv) && (srcSpans sh o).all (spanInside nv) &&
    (sh.vd != .t || o.vd.toNat < nt) && (sh.vs1 != .t || o.vs1.toNat < nt)

/-- The engine an instruction is forwarded to by its group (R74, R153); group AT is executed at the hart. -/
def engineOf (grp : Nat) : Engine :=
  if grp = 0x0A then .matrix else if grp = 0x0B then .copy else if grp = 0x0C then .message else .lane

end Sys2Proof.Machine
end

