-- ==== Sys2Proof/WellFormed.lean ====
section
/-! DEFINITION. Which terms of `Instr` stand for an encoding (R62 to R74): the fields keep the limits of their row, and
a CSR instruction stands under the one of its three rows that its CSR and its write make it. -/

namespace Sys2Proof

/-- A CSR instruction writes when it is csrrw, or csrrs and csrrc with a source other than x0 or the immediate 0
(Zicsr, R62). -/
def csrWrites (op : CsrKind) (src : XR) : Bool := op == .rw || src != 0

/-- The fields of the term keep the limits of its encoding. Steps that are not instructions are well formed. -/
def Instr.wf (i : Instr) : Bool :=
  match i with
  | .fence fm pred succ rd rs1 => !(fm == 0 && pred == 1 && succ == 0 && rd == 0 && rs1 == 0)
  | .csrAccess op _ csr _ src => !(csrWrites op src && (csr == 0x7C0 || csr == 0x180))
  | .steerWrite op _ _ src => csrWrites op src
  | .satpWrite op _ _ src => csrWrites op src
  | _ => Machine.engineOk i

end Sys2Proof
end

