-- ==== Sys2Proof/Decode.lean ====
section
/-! DEFINITION. The decoder of R60 to R74, total on any bytes and rejecting by name, and the encoder written from the
same tables: the standard base by its own formats (R62), the hart-side formats H and HI (R64, R65), and the 64-bit
layout (R67, R68). -/

namespace Sys2Proof

/-- An m or tm register in a 5-bit field: the upper two bits must be 0 (R64). -/
def mField (f : BitVec 5) : Option MR := if f.toNat < 8 then some (f.setWidth 3) else none

/-- A barrier number in field b: 0 to 15 (R66). -/
def barField (f : BitVec 5) : Option (BitVec 4) := if f.toNat < 16 then some (f.setWidth 4) else none

/-- A ring word number in field b: 0 to 3 (R66). -/
def wordField (f : BitVec 5) : Option (BitVec 2) := if f.toNat < 4 then some (f.setWidth 2) else none

/-- The answer `i` when field f is 0, none otherwise (R64). -/
def whenZero {n : Nat} (f : BitVec n) (i : Option Instr) : Option Instr := if f = 0 then i else none

/-- What a decoder of one major opcode answers. -/
abbrev Dec := Except DecodeError Instr

/-- An assigned funct value whose fields break R64 when the option is empty. -/
def fieldsOr (i : Option Instr) : Dec := match i with
  | some i => .ok i
  | none => .error .reservedField

/-- custom-0: masks and the mask stack (R65). -/
def decodeCustom0 (w : BitVec 32) : Dec :=
  let d : BitVec 5 := w.extractLsb' 7 5
  let a : BitVec 5 := w.extractLsb' 15 5
  let b : BitVec 5 := w.extractLsb' 20 5
  let imm : BitVec 12 := w.extractLsb' 20 12
  let f7 := (w.extractLsb' 25 7).toNat
  match (w.extractLsb' 12 3).toNat with
  | 0 =>
    match f7 with
    | 0 => fieldsOr do return .mand (← mField d) (← mField a) (← mField b)
    | 1 => fieldsOr do return .mor (← mField d) (← mField a) (← mField b)
    | 2 => fieldsOr do return .mxor (← mField d) (← mField a) (← mField b)
    | 3 => fieldsOr do return .mandn (← mField d) (← mField a) (← mField b)
    | 4 => fieldsOr (whenZero b do return .mnot (← mField d) (← mField a))
    | 8 => fieldsOr (whenZero b do return .mrd d (← mField a))
    | 9 => fieldsOr (whenZero b do return .mwr (← mField d) a)
    | 10 => fieldsOr (whenZero b do return .mcnt d (← mField a))
    | 11 => fieldsOr (whenZero b do return .mffs d (← mField a))
    | 12 => fieldsOr (whenZero b (whenZero a (some (.mtop d))))
    | _ => .error .unassigned
  | 1 => fieldsOr (whenZero d do return .mif (← mField a) imm)
  | 2 => fieldsOr (whenZero d (whenZero a (some (.melse imm))))
  | 3 => fieldsOr (whenZero d do return .mwhile (← mField a) imm)
  | 4 =>
    match f7 with
    | 0 => fieldsOr (whenZero d (whenZero a (whenZero b (some .mend))))
    | 1 => fieldsOr (whenZero d (whenZero b do return .mbrk (← mField a)))
    | _ => .error .unassigned
  | 5 =>
    match f7 with
    | 0 => fieldsOr (whenZero d do return .mspush (← mField a) b)
    | 1 => fieldsOr (whenZero a (whenZero b do return .mspop (← mField d)))
    | 2 => fieldsOr (whenZero b (some (.msrdm d a)))
    | 3 => fieldsOr (whenZero b (some (.msrdp d a)))
    | 4 => fieldsOr (whenZero d (some (.mswrm a b)))
    | 5 => fieldsOr (whenZero d (some (.mswrp a b)))
    | _ => .error .unassigned
  | _ => .error .unassigned

/-- custom-1: waits, barriers, drain, launches and ends (R65, R66). -/
def decodeCustom1 (w : BitVec 32) : Dec :=
  let d : BitVec 5 := w.extractLsb' 7 5
  let a : BitVec 5 := w.extractLsb' 15 5
  let b : BitVec 5 := w.extractLsb' 20 5
  let f7 := (w.extractLsb' 25 7).toNat
  match (w.extractLsb' 12 3).toNat with
  | 0 =>
    match f7 with
    | 0 => fieldsOr (whenZero d (whenZero a (whenZero b (some .hwmsg))))
    | 1 => fieldsOr (whenZero d (whenZero b (some (.hwtime a))))
    | _ => .error .unassigned
  | 1 =>
    match f7 with
    | 0 => fieldsOr (whenZero d do return .barSync a (← barField b))
    | 1 => fieldsOr (whenZero d do return .barArrive a (← barField b))
    | 2 => fieldsOr (whenZero d (whenZero a do return .barWait (← barField b)))
    | _ => .error .unassigned
  | 2 =>
    fieldsOr (whenZero d (whenZero a (whenZero (w.extractLsb' 24 8) (some (.hdrain (w.extractLsb' 20 4))))))
  | 3 =>
    match f7 with
    | 0 => fieldsOr (whenZero b (some (.glaunch d a)))
    | 1 => fieldsOr (whenZero b (some (.gwait d a)))
    | 2 => fieldsOr (whenZero d (whenZero a (whenZero b (some .hexit))))
    | 3 => fieldsOr (whenZero d (whenZero a (whenZero b (some .hret))))
    | 4 => fieldsOr (whenZero d (whenZero a (whenZero b (some .hyield))))
    | _ => .error .unassigned
  | _ => .error .unassigned

/-- custom-2: tensor maps, basting regions and the fault ring (R65, R66). -/
def decodeCustom2 (w : BitVec 32) : Dec :=
  let d : BitVec 5 := w.extractLsb' 7 5
  let a : BitVec 5 := w.extractLsb' 15 5
  let b : BitVec 5 := w.extractLsb' 20 5
  let imm : BitVec 12 := w.extractLsb' 20 12
  let f7 := (w.extractLsb' 25 7).toNat
  match (w.extractLsb' 12 3).toNat with
  | 0 => fieldsOr do return .tmld (← mField d) a imm
  | 1 => fieldsOr do return .tmst (← mField d) a imm
  | 2 =>
    match f7 with
    | 0 => fieldsOr do return .tmaddr d (← mField a) b
    | _ => .error .unassigned
  | 3 =>
    match f7 with
    | 0 => fieldsOr (whenZero d (whenZero a (whenZero b (some .bst))))
    | 1 => fieldsOr (whenZero d (whenZero a (whenZero b (some .bend))))
    | _ => .error .unassigned
  | 4 =>
    match f7 with
    | 0 => fieldsOr do return .frrd d a (← wordField b)
    | 1 => fieldsOr (whenZero d (whenZero a (whenZero b (some .frrep))))
    | 2 => fieldsOr (whenZero d (whenZero b (some (.frdrop a))))
    | _ => .error .unassigned
  | _ => .error .unassigned

/-- LOAD (R62). -/
def decodeLoad (w : BitVec 32) : Dec :=
  let rd : XR := w.extractLsb' 7 5
  let rs1 : XR := w.extractLsb' 15 5
  let imm : BitVec 12 := w.extractLsb' 20 12
  match (w.extractLsb' 12 3).toNat with
  | 0 => .ok (.scalarLoad .lb rd rs1 imm)
  | 1 => .ok (.scalarLoad .lh rd rs1 imm)
  | 2 => .ok (.scalarLoad .lw rd rs1 imm)
  | 3 => .ok (.scalarLoad .ld rd rs1 imm)
  | 4 => .ok (.scalarLoad .lbu rd rs1 imm)
  | 5 => .ok (.scalarLoad .lhu rd rs1 imm)
  | 6 => .ok (.scalarLoad .lwu rd rs1 imm)
  | _ => .error .unassigned

/-- STORE (R62). -/
def decodeStore (w : BitVec 32) : Dec :=
  let rs1 : XR := w.extractLsb' 15 5
  let rs2 : XR := w.extractLsb' 20 5
  let hi : BitVec 7 := w.extractLsb' 25 7
  let lo : BitVec 5 := w.extractLsb' 7 5
  let imm : BitVec 12 := hi ++ lo
  match (w.extractLsb' 12 3).toNat with
  | 0 => .ok (.scalarStore .sb rs1 rs2 imm)
  | 1 => .ok (.scalarStore .sh rs1 rs2 imm)
  | 2 => .ok (.scalarStore .sw rs1 rs2 imm)
  | 3 => .ok (.scalarStore .sd rs1 rs2 imm)
  | _ => .error .unassigned

/-- BRANCH: the offset bits [12:1] in order (R62). -/
def decodeBranch (w : BitVec 32) : Dec :=
  let rs1 : XR := w.extractLsb' 15 5
  let rs2 : XR := w.extractLsb' 20 5
  let b12 : BitVec 1 := w.extractLsb' 31 1
  let b11 : BitVec 1 := w.extractLsb' 7 1
  let b10 : BitVec 6 := w.extractLsb' 25 6
  let b4 : BitVec 4 := w.extractLsb' 8 4
  let off : BitVec 12 := b12 ++ b11 ++ b10 ++ b4
  match (w.extractLsb' 12 3).toNat with
  | 0 => .ok (.integerOp (.branch .beq rs1 rs2 off))
  | 1 => .ok (.integerOp (.branch .bne rs1 rs2 off))
  | 4 => .ok (.integerOp (.branch .blt rs1 rs2 off))
  | 5 => .ok (.integerOp (.branch .bge rs1 rs2 off))
  | 6 => .ok (.integerOp (.branch .bltu rs1 rs2 off))
  | 7 => .ok (.integerOp (.branch .bgeu rs1 rs2 off))
  | _ => .error .unassigned

/-- OP-IMM (R62). -/
def decodeOpImm (w : BitVec 32) : Dec :=
  let rd : XR := w.extractLsb' 7 5
  let rs1 : XR := w.extractLsb' 15 5
  let imm : BitVec 12 := w.extractLsb' 20 12
  let sh : BitVec 6 := w.extractLsb' 20 6
  let f6 := (w.extractLsb' 26 6).toNat
  match (w.extractLsb' 12 3).toNat with
  | 0 => .ok (.integerOp (.aluImm .addi rd rs1 imm))
  | 2 => .ok (.integerOp (.aluImm .slti rd rs1 imm))
  | 3 => .ok (.integerOp (.aluImm .sltiu rd rs1 imm))
  | 4 => .ok (.integerOp (.aluImm .xori rd rs1 imm))
  | 6 => .ok (.integerOp (.aluImm .ori rd rs1 imm))
  | 7 => .ok (.integerOp (.aluImm .andi rd rs1 imm))
  | 1 => if f6 = 0 then .ok (.integerOp (.shiftImm .sll rd rs1 sh)) else .error .unassigned
  | _ => if f6 = 0 then .ok (.integerOp (.shiftImm .srl rd rs1 sh))
         else if f6 = 16 then .ok (.integerOp (.shiftImm .sra rd rs1 sh)) else .error .unassigned

/-- OP-IMM-32 (R62). -/
def decodeOpImm32 (w : BitVec 32) : Dec :=
  let rd : XR := w.extractLsb' 7 5
  let rs1 : XR := w.extractLsb' 15 5
  let imm : BitVec 12 := w.extractLsb' 20 12
  let sh : BitVec 5 := w.extractLsb' 20 5
  let f7 := (w.extractLsb' 25 7).toNat
  match (w.extractLsb' 12 3).toNat with
  | 0 => .ok (.integerOp (.addiw rd rs1 imm))
  | 1 => if f7 = 0 then .ok (.integerOp (.shiftImmW .sll rd rs1 sh)) else .error .unassigned
  | 5 => if f7 = 0 then .ok (.integerOp (.shiftImmW .srl rd rs1 sh))
         else if f7 = 32 then .ok (.integerOp (.shiftImmW .sra rd rs1 sh)) else .error .unassigned
  | _ => .error .unassigned

/-- OP, with the multiplies and divides of M (R62). -/
def decodeOp (w : BitVec 32) : Dec :=
  let rd : XR := w.extractLsb' 7 5
  let rs1 : XR := w.extractLsb' 15 5
  let rs2 : XR := w.extractLsb' 20 5
  let f3 := (w.extractLsb' 12 3).toNat
  match (w.extractLsb' 25 7).toNat with
  | 0 =>
    match f3 with
    | 0 => .ok (.integerOp (.alu .add rd rs1 rs2))
    | 1 => .ok (.integerOp (.alu .sll rd rs1 rs2))
    | 2 => .ok (.integerOp (.alu .slt rd rs1 rs2))
    | 3 => .ok (.integerOp (.alu .sltu rd rs1 rs2))
    | 4 => .ok (.integerOp (.alu .xor rd rs1 rs2))
    | 5 => .ok (.integerOp (.alu .srl rd rs1 rs2))
    | 6 => .ok (.integerOp (.alu .or rd rs1 rs2))
    | _ => .ok (.integerOp (.alu .and rd rs1 rs2))
  | 32 =>
    match f3 with
    | 0 => .ok (.integerOp (.alu .sub rd rs1 rs2))
    | 5 => .ok (.integerOp (.alu .sra rd rs1 rs2))
    | _ => .error .unassigned
  | 1 =>
    match f3 with
    | 0 => .ok (.mul .mul rd rs1 rs2)
    | 1 => .ok (.mul .mulh rd rs1 rs2)
    | 2 => .ok (.mul .mulhsu rd rs1 rs2)
    | 3 => .ok (.mul .mulhu rd rs1 rs2)
    | 4 => .ok (.div .div rd rs1 rs2)
    | 5 => .ok (.div .divu rd rs1 rs2)
    | 6 => .ok (.div .rem rd rs1 rs2)
    | _ => .ok (.div .remu rd rs1 rs2)
  | _ => .error .unassigned

/-- OP-32, with the 32-bit multiply and divides of M (R62). -/
def decodeOp32 (w : BitVec 32) : Dec :=
  let rd : XR := w.extractLsb' 7 5
  let rs1 : XR := w.extractLsb' 15 5
  let rs2 : XR := w.extractLsb' 20 5
  let f3 := (w.extractLsb' 12 3).toNat
  match (w.extractLsb' 25 7).toNat with
  | 0 =>
    match f3 with
    | 0 => .ok (.integerOp (.aluW .addw rd rs1 rs2))
    | 1 => .ok (.integerOp (.aluW .sllw rd rs1 rs2))
    | 5 => .ok (.integerOp (.aluW .srlw rd rs1 rs2))
    | _ => .error .unassigned
  | 32 =>
    match f3 with
    | 0 => .ok (.integerOp (.aluW .subw rd rs1 rs2))
    | 5 => .ok (.integerOp (.aluW .sraw rd rs1 rs2))
    | _ => .error .unassigned
  | 1 =>
    match f3 with
    | 0 => .ok (.mul .mulw rd rs1 rs2)
    | 4 => .ok (.div .divw rd rs1 rs2)
    | 5 => .ok (.div .divuw rd rs1 rs2)
    | 6 => .ok (.div .remw rd rs1 rs2)
    | 7 => .ok (.div .remuw rd rs1 rs2)
    | _ => .error .unassigned
  | _ => .error .unassigned

/-- MISC-MEM: PAUSE is the FENCE word 0x0100000F (R62, Zihintpause). -/
def decodeMiscMem (w : BitVec 32) : Dec :=
  let rd : XR := w.extractLsb' 7 5
  let rs1 : XR := w.extractLsb' 15 5
  match (w.extractLsb' 12 3).toNat with
  | 0 => if w = 0x0100000F then .ok .pause
         else .ok (.fence (w.extractLsb' 28 4) (w.extractLsb' 24 4) (w.extractLsb' 20 4) rd rs1)
  | 1 => .ok (.fenceI (w.extractLsb' 20 12) rd rs1)
  | _ => .error .unassigned

/-- AMO: LR, SC and the nine AMOs, of 32 or 64 bits (R62). -/
def decodeAmo (w : BitVec 32) : Dec :=
  let rd : XR := w.extractLsb' 7 5
  let rs1 : XR := w.extractLsb' 15 5
  let rs2 : XR := w.extractLsb' 20 5
  let aq := w.extractLsb' 26 1 == 1
  let rl := w.extractLsb' 25 1 == 1
  let f3 := (w.extractLsb' 12 3).toNat
  let dbl := f3 == 3
  if f3 = 2 ∨ f3 = 3 then
    match (w.extractLsb' 27 5).toNat with
    | 0 => .ok (.amo .add dbl aq rl rd rs1 rs2)
    | 1 => .ok (.amo .swap dbl aq rl rd rs1 rs2)
    | 2 => fieldsOr (whenZero rs2 (some (.lr dbl aq rl rd rs1)))
    | 3 => .ok (.sc dbl aq rl rd rs1 rs2)
    | 4 => .ok (.amo .xor dbl aq rl rd rs1 rs2)
    | 8 => .ok (.amo .or dbl aq rl rd rs1 rs2)
    | 12 => .ok (.amo .and dbl aq rl rd rs1 rs2)
    | 16 => .ok (.amo .min dbl aq rl rd rs1 rs2)
    | 20 => .ok (.amo .max dbl aq rl rd rs1 rs2)
    | 24 => .ok (.amo .minu dbl aq rl rd rs1 rs2)
    | 28 => .ok (.amo .maxu dbl aq rl rd rs1 rs2)
    | _ => .error .unassigned
  else .error .unassigned

/-- A CSR instruction under its row: a write of CSR 0x7C0 is STEER_WRITE and one of 0x180 SATP_WRITE. -/
def csrInstr (op : CsrKind) (useImm : Bool) (csr : BitVec 12) (rd src : XR) : Instr :=
  if csrWrites op src ∧ csr = 0x7C0 then .steerWrite op useImm rd src
  else if csrWrites op src ∧ csr = 0x180 then .satpWrite op useImm rd src
  else .csrAccess op useImm csr rd src

/-- SYSTEM (R62, Zicsr, Zawrs and the privileged instructions). -/
def decodeSystem (w : BitVec 32) : Dec :=
  let rd : XR := w.extractLsb' 7 5
  let src : XR := w.extractLsb' 15 5
  let csr : BitVec 12 := w.extractLsb' 20 12
  match (w.extractLsb' 12 3).toNat with
  | 0 =>
    if (w.extractLsb' 25 7).toNat = 9 then
      fieldsOr (whenZero rd (some (.sfenceVma src (w.extractLsb' 20 5))))
    else
      match w.toNat with
      | 0x00000073 => .ok .ecall
      | 0x00100073 => .ok .ebreak
      | 0x00D00073 => .ok .wrsNto
      | 0x01D00073 => .ok .wrsSto
      | 0x10200073 => .ok .sret
      | 0x10500073 => .ok .wfi
      | 0x30200073 => .ok .mret
      | _ => .error .unassigned
  | 1 => .ok (csrInstr .rw false csr rd src)
  | 2 => .ok (csrInstr .rs false csr rd src)
  | 3 => .ok (csrInstr .rc false csr rd src)
  | 5 => .ok (csrInstr .rw true csr rd src)
  | 6 => .ok (csrInstr .rs true csr rd src)
  | 7 => .ok (csrInstr .rc true csr rd src)
  | _ => .error .unassigned

/-- A JAL offset: the offset bits [20:1] in order (R62). -/
def jalOffset (w : BitVec 32) : BitVec 20 :=
  let b20 : BitVec 1 := w.extractLsb' 31 1
  let b19 : BitVec 8 := w.extractLsb' 12 8
  let b11 : BitVec 1 := w.extractLsb' 20 1
  let b10 : BitVec 10 := w.extractLsb' 21 10
  b20 ++ b19 ++ b11 ++ b10

/-- A 32-bit instruction, by its major opcode [6:2] (R62, R65). -/
def decode32 (w : BitVec 32) : Dec :=
  let rd : XR := w.extractLsb' 7 5
  match (w.extractLsb' 2 5).toNat with
  | 0x00 => decodeLoad w
  | 0x02 => decodeCustom0 w
  | 0x03 => decodeMiscMem w
  | 0x04 => decodeOpImm w
  | 0x05 => .ok (.integerOp (.auipc rd (w.extractLsb' 12 20)))
  | 0x06 => decodeOpImm32 w
  | 0x08 => decodeStore w
  | 0x0A => decodeCustom1 w
  | 0x0B => decodeAmo w
  | 0x0C => decodeOp w
  | 0x0D => .ok (.integerOp (.lui rd (w.extractLsb' 12 20)))
  | 0x0E => decodeOp32 w
  | 0x16 => decodeCustom2 w
  | 0x18 => decodeBranch w
  | 0x19 => if (w.extractLsb' 12 3).toNat = 0 then
              .ok (.integerOp (.jalr rd (w.extractLsb' 15 5) (w.extractLsb' 20 12)))
            else .error .unassigned
  | 0x1B => .ok (.integerOp (.jal rd (jalOffset w)))
  | 0x1C => decodeSystem w
  | 0x1E => .error .unassigned
  | _ => .error .majorOpcode

/-- The operand fields of a 64-bit instruction (R67). -/
def eopsOf (w : BitVec 64) : Eops :=
  { ks := w.extractLsb' 62 2, rnd := w.extractLsb' 59 3, fmt := w.extractLsb' 56 3, pi := w.extractLsb' 55 1,
    pm := w.extractLsb' 52 3, vs3 := w.extractLsb' 44 8, vs2 := w.extractLsb' 36 8, vs1 := w.extractLsb' 28 8,
    vd := w.extractLsb' 20 8 }

/-- A 64-bit instruction (R67 to R74), without the limits that depend on the hart. -/
def decode64 (w : BitVec 64) : Dec :=
  match Machine.ofGroup (w.extractLsb' 7 5).toNat (w.extractLsb' 12 8).toNat (eopsOf w) with
  | none => .error .unassignedGroup
  | some i => if Machine.engineOk i then .ok i else .error .engineField

/-- The length class that the first 16-bit parcel names (R60): 2, 4, 6, 8 or 10 bytes (10 stands for 80 bits or more). -/
def lengthOf (p : BitVec 16) : Nat :=
  if p.extractLsb' 0 2 ≠ 3 then 2
  else if p.extractLsb' 2 3 ≠ 7 then 4
  else if p.extractLsb' 0 6 = 0x1F then 6
  else if p.extractLsb' 0 7 = 0x3F then 8
  else 10

/-- Decoding the first two 32-bit words at a 4-byte boundary: xtval as R63 gives it. -/
def decodeWords (lo hi : BitVec 32) : Decoded Instr :=
  let p : BitVec 16 := lo.extractLsb' 0 16
  match lengthOf p with
  | 2 => .illegal .compressed (p.setWidth 64)
  | 4 => match decode32 lo with
         | .ok i => .ok i 4
         | .error e => .illegal e (lo.setWidth 64)
  | 6 => .illegal .long48 (lo.setWidth 64)
  | 8 => match decode64 (hi ++ lo) with
         | .ok i => .ok i 8
         | .error e => .illegal e (hi ++ lo)
  | _ => .illegal .long80 (lo.setWidth 64)

/-- The 32-bit word of four bytes, lowest address first (R4). -/
def wordOfBytes (b0 b1 b2 b3 : Byte) : BitVec 32 := b3 ++ b2 ++ b1 ++ b0

/-- Decoding bytes, the first at the lowest address. -/
def decode (bs : List Byte) : Decoded Instr :=
  match bs with
  | b0 :: b1 :: b2 :: b3 :: b4 :: b5 :: b6 :: b7 :: _ => decodeWords (wordOfBytes b0 b1 b2 b3) (wordOfBytes b4 b5 b6 b7)
  | b0 :: b1 :: b2 :: b3 :: _ =>
    if lengthOf (b1 ++ b0) = 8 then .short else decodeWords (wordOfBytes b0 b1 b2 b3) 0
  | b0 :: b1 :: _ => if lengthOf (b1 ++ b0) = 2 then .illegal .compressed ((b1 ++ b0).setWidth 64) else .short
  | _ => .short

/-- Format H (R64). -/
def encH (f7 : BitVec 7) (b a : BitVec 5) (f3 : BitVec 3) (d : BitVec 5) (op : BitVec 7) : BitVec 32 :=
  f7 ++ b ++ a ++ f3 ++ d ++ op

/-- Format HI, and the I format of the standard base (R64). -/
def encHI (imm : BitVec 12) (a : BitVec 5) (f3 : BitVec 3) (d : BitVec 5) (op : BitVec 7) : BitVec 32 :=
  imm ++ a ++ f3 ++ d ++ op

/-- An m register in a 5-bit field. -/
def mBits (m : MR) : BitVec 5 := m.setWidth 5

/-- funct3 of a load. -/
def loadF3 : LoadKind → BitVec 3
  | .lb => 0 | .lh => 1 | .lw => 2 | .ld => 3 | .lbu => 4 | .lhu => 5 | .lwu => 6

/-- funct3 of a store. -/
def storeF3 : StoreKind → BitVec 3
  | .sb => 0 | .sh => 1 | .sw => 2 | .sd => 3

/-- funct3 of a branch. -/
def branchF3 : BranchKind → BitVec 3
  | .beq => 0 | .bne => 1 | .blt => 4 | .bge => 5 | .bltu => 6 | .bgeu => 7

/-- funct3 of an immediate operation. -/
def immF3 : ImmKind → BitVec 3
  | .addi => 0 | .slti => 2 | .sltiu => 3 | .xori => 4 | .ori => 6 | .andi => 7

/-- funct3 of a shift. -/
def shiftF3 : ShiftKind → BitVec 3
  | .sll => 1 | .srl => 5 | .sra => 5

/-- The B format. -/
def encBranch (c : BranchKind) (rs1 rs2 : XR) (off : BitVec 12) : BitVec 32 :=
  off.extractLsb' 11 1 ++ off.extractLsb' 4 6 ++ rs2 ++ rs1 ++ branchF3 c ++ off.extractLsb' 0 4 ++ off.extractLsb' 10 1
    ++ (0x63 : BitVec 7)

/-- The J format. -/
def encJal (rd : XR) (off : BitVec 20) : BitVec 32 :=
  off.extractLsb' 19 1 ++ off.extractLsb' 0 10 ++ off.extractLsb' 10 1 ++ off.extractLsb' 11 8 ++ rd ++ (0x6F : BitVec 7)

/-- funct7 and funct3 of a register operation. -/
def aluFunct : AluKind → BitVec 7 × BitVec 3
  | .add => (0, 0) | .sub => (32, 0) | .sll => (0, 1) | .slt => (0, 2) | .sltu => (0, 3) | .xor => (0, 4)
  | .srl => (0, 5) | .sra => (32, 5) | .or => (0, 6) | .and => (0, 7)

/-- funct7 and funct3 of a 32-bit register operation. -/
def aluWFunct : AluWKind → BitVec 7 × BitVec 3
  | .addw => (0, 0) | .subw => (32, 0) | .sllw => (0, 1) | .srlw => (0, 5) | .sraw => (32, 5)

/-- The word of an integer operation. -/
def encIntOp : IntOp → BitVec 32
  | .lui rd imm => imm ++ rd ++ (0x37 : BitVec 7)
  | .auipc rd imm => imm ++ rd ++ (0x17 : BitVec 7)
  | .jal rd off => encJal rd off
  | .jalr rd rs1 imm => encHI imm rs1 0 rd 0x67
  | .branch c rs1 rs2 off => encBranch c rs1 rs2 off
  | .aluImm k rd rs1 imm => encHI imm rs1 (immF3 k) rd 0x13
  | .shiftImm k rd rs1 sh => encHI ((if k = .sra then (16 : BitVec 6) else 0) ++ sh) rs1 (shiftF3 k) rd 0x13
  | .addiw rd rs1 imm => encHI imm rs1 0 rd 0x1B
  | .shiftImmW k rd rs1 sh => encH (if k = .sra then 32 else 0) sh rs1 (shiftF3 k) rd 0x1B
  | .alu k rd rs1 rs2 => encH (aluFunct k).1 rs2 rs1 (aluFunct k).2 rd 0x33
  | .aluW k rd rs1 rs2 => encH (aluWFunct k).1 rs2 rs1 (aluWFunct k).2 rd 0x3B

/-- The word of a multiply. -/
def encMul (k : MulKind) (rd rs1 rs2 : XR) : BitVec 32 :=
  match k with
  | .mul => encH 1 rs2 rs1 0 rd 0x33
  | .mulh => encH 1 rs2 rs1 1 rd 0x33
  | .mulhsu => encH 1 rs2 rs1 2 rd 0x33
  | .mulhu => encH 1 rs2 rs1 3 rd 0x33
  | .mulw => encH 1 rs2 rs1 0 rd 0x3B

/-- The word of a divide or remainder. -/
def encDiv (k : DivKind) (rd rs1 rs2 : XR) : BitVec 32 :=
  match k with
  | .div => encH 1 rs2 rs1 4 rd 0x33
  | .divu => encH 1 rs2 rs1 5 rd 0x33
  | .rem => encH 1 rs2 rs1 6 rd 0x33
  | .remu => encH 1 rs2 rs1 7 rd 0x33
  | .divw => encH 1 rs2 rs1 4 rd 0x3B
  | .divuw => encH 1 rs2 rs1 5 rd 0x3B
  | .remw => encH 1 rs2 rs1 6 rd 0x3B
  | .remuw => encH 1 rs2 rs1 7 rd 0x3B

/-- funct5 of an AMO. -/
def amoF5 : AmoKind → BitVec 5
  | .add => 0 | .swap => 1 | .xor => 4 | .or => 8 | .and => 12 | .min => 16 | .max => 20 | .minu => 24 | .maxu => 28

/-- The word of an LR, SC or AMO. -/
def encAmo (f5 : BitVec 5) (dbl aq rl : Bool) (rd rs1 rs2 : XR) : BitVec 32 :=
  encH (f5 ++ BitVec.ofBool aq ++ BitVec.ofBool rl) rs2 rs1 (if dbl then 3 else 2) rd 0x2F

/-- funct3 of a CSR instruction. -/
def csrF3 (op : CsrKind) (useImm : Bool) : BitVec 3 :=
  match op, useImm with
  | .rw, false => 1 | .rs, false => 2 | .rc, false => 3 | .rw, true => 5 | .rs, true => 6 | .rc, true => 7

/-- The word of a 64-bit instruction (R67). -/
def encEngine (grp : BitVec 5) (opc : BitVec 8) (o : Eops) : BitVec 64 :=
  o.ks ++ o.rnd ++ o.fmt ++ o.pi ++ o.pm ++ o.vs3 ++ o.vs2 ++ o.vs1 ++ o.vd ++ opc ++ grp ++ (0x3F : BitVec 7)

/-- The 32-bit words of the hart-side instructions and the standard base; none for a 64-bit instruction and for every
step that is no instruction. -/
def encode32 : Instr → Option (BitVec 32)
  | .mand d a b => some (encH 0 (mBits b) (mBits a) 0 (mBits d) 0x0B)
  | .mor d a b => some (encH 1 (mBits b) (mBits a) 0 (mBits d) 0x0B)
  | .mxor d a b => some (encH 2 (mBits b) (mBits a) 0 (mBits d) 0x0B)
  | .mandn d a b => some (encH 3 (mBits b) (mBits a) 0 (mBits d) 0x0B)
  | .mnot d a => some (encH 4 0 (mBits a) 0 (mBits d) 0x0B)
  | .mrd d a => some (encH 8 0 (mBits a) 0 d 0x0B)
  | .mwr d a => some (encH 9 0 a 0 (mBits d) 0x0B)
  | .mcnt d a => some (encH 10 0 (mBits a) 0 d 0x0B)
  | .mffs d a => some (encH 11 0 (mBits a) 0 d 0x0B)
  | .mtop d => some (encH 12 0 0 0 d 0x0B)
  | .mif a imm => some (encHI imm (mBits a) 1 0 0x0B)
  | .melse imm => some (encHI imm 0 2 0 0x0B)
  | .mwhile a imm => some (encHI imm (mBits a) 3 0 0x0B)
  | .mend => some (encH 0 0 0 4 0 0x0B)
  | .mbrk a => some (encH 1 0 (mBits a) 4 0 0x0B)
  | .mspush a b => some (encH 0 b (mBits a) 5 0 0x0B)
  | .mspop d => some (encH 1 0 0 5 (mBits d) 0x0B)
  | .msrdm d a => some (encH 2 0 a 5 d 0x0B)
  | .msrdp d a => some (encH 3 0 a 5 d 0x0B)
  | .mswrm a b => some (encH 4 b a 5 0 0x0B)
  | .mswrp a b => some (encH 5 b a 5 0 0x0B)
  | .hwmsg => some (encH 0 0 0 0 0 0x2B)
  | .hwtime a => some (encH 1 0 a 0 0 0x2B)
  | .barSync a n => some (encH 0 (n.setWidth 5) a 1 0 0x2B)
  | .barArrive a n => some (encH 1 (n.setWidth 5) a 1 0 0x2B)
  | .barWait n => some (encH 2 (n.setWidth 5) 0 1 0 0x2B)
  | .hdrain e => some (encHI (e.setWidth 12) 0 2 0 0x2B)
  | .glaunch d a => some (encH 0 0 a 3 d 0x2B)
  | .gwait d a => some (encH 1 0 a 3 d 0x2B)
  | .hexit => some (encH 2 0 0 3 0 0x2B)
  | .hret => some (encH 3 0 0 3 0 0x2B)
  | .hyield => some (encH 4 0 0 3 0 0x2B)
  | .tmld d a imm => some (encHI imm a 0 (mBits d) 0x5B)
  | .tmst d a imm => some (encHI imm a 1 (mBits d) 0x5B)
  | .tmaddr d a b => some (encH 0 b (mBits a) 2 d 0x5B)
  | .bst => some (encH 0 0 0 3 0 0x5B)
  | .bend => some (encH 1 0 0 3 0 0x5B)
  | .frrd d a k => some (encH 0 (k.setWidth 5) a 4 d 0x5B)
  | .frrep => some (encH 1 0 0 4 0 0x5B)
  | .frdrop a => some (encH 2 0 a 4 0 0x5B)
  | .scalarLoad k rd rs1 imm => some (encHI imm rs1 (loadF3 k) rd 0x03)
  | .scalarStore k rs1 rs2 imm => some (encH (imm.extractLsb' 5 7) rs2 rs1 (storeF3 k) (imm.extractLsb' 0 5) 0x23)
  | .integerOp op => some (encIntOp op)
  | .mul k rd rs1 rs2 => some (encMul k rd rs1 rs2)
  | .div k rd rs1 rs2 => some (encDiv k rd rs1 rs2)
  | .fence fm pred succ rd rs1 => some (encHI (fm ++ pred ++ succ) rs1 0 rd 0x0F)
  | .fenceI imm rd rs1 => some (encHI imm rs1 1 rd 0x0F)
  | .lr dbl aq rl rd rs1 => some (encAmo 2 dbl aq rl rd rs1 0)
  | .sc dbl aq rl rd rs1 rs2 => some (encAmo 3 dbl aq rl rd rs1 rs2)
  | .amo k dbl aq rl rd rs1 rs2 => some (encAmo (amoF5 k) dbl aq rl rd rs1 rs2)
  | .ecall => some 0x00000073
  | .ebreak => some 0x00100073
  | .wfi => some 0x10500073
  | .pause => some 0x0100000F
  | .wrsNto => some 0x00D00073
  | .wrsSto => some 0x01D00073
  | .csrAccess op useImm csr rd src => some (encHI csr src (csrF3 op useImm) rd 0x73)
  | .steerWrite op useImm rd src => some (encHI 0x7C0 src (csrF3 op useImm) rd 0x73)
  | .satpWrite op useImm rd src => some (encHI 0x180 src (csrF3 op useImm) rd 0x73)
  | .mret => some 0x30200073
  | .sret => some 0x10200073
  | .sfenceVma rs1 rs2 => some (encH 9 rs2 rs1 0 0 0x73)
  | _ => none

/-- The 64-bit word of an engine instruction (R67, R68). -/
def encode64 (i : Instr) : Option (BitVec 64) :=
  (Machine.engine? i).map fun p => encEngine (BitVec.ofNat 5 p.1.grp) (BitVec.ofNat 8 p.1.opc) p.2

/-- The four bytes of a word, lowest address first. -/
def bytesOf32 (w : BitVec 32) : List Byte :=
  [w.extractLsb' 0 8, w.extractLsb' 8 8, w.extractLsb' 16 8, w.extractLsb' 24 8]

/-- The bytes of an instruction, lowest address first; none for a step that is no instruction. -/
def encode (i : Instr) : Option (List Byte) :=
  match encode32 i with
  | some w => some (bytesOf32 w)
  | none => (encode64 i).map fun w => bytesOf32 (w.extractLsb' 0 32) ++ bytesOf32 (w.extractLsb' 32 32)

/-- The instruction bits that xtval receives for a legal encoding that an instruction rule refuses (R63). -/
def instrBits (i : Instr) : Word :=
  match encode32 i with
  | some w => w.setWidth 64
  | none => (encode64 i).getD 0

/-- A term that stands for an instruction of a hart and not for a step of another agent. -/
def isHartInstr (i : Instr) : Bool := (encode32 i).isSome || (Machine.engine? i).isSome

/-- The length in bytes of an instruction (R60). -/
def instrLen (i : Instr) : Nat := if (Machine.engine? i).isSome then 8 else 4

/-- The bytes of `w`, whose bit 0 is the least significant bit of the first byte: `n` of them. -/
def bytesOfNat (n w : Nat) : List Byte := (List.range n).map fun k => BitVec.ofNat 8 (w >>> (8 * k))

/-- The decoder's answer for an instruction whose bits are `w`, numbered from the first byte's bit 0; every bit from
`nbits` up is 0. -/
def decodeTableWord (nbits w : Nat) : Option Instr :=
  match decode (bytesOfNat 8 (w % 2 ^ nbits)) with
  | .ok i _ => some i
  | _ => none

end Sys2Proof
end

