-- ==== Sys2Proof/Machine/Tbl.lean ====
section
/-! DEFINITION. Sparse data by key: lists of key and value pairs in rising order of key, and lists used as queues.
Plain data, structurally recursive, so that states can be compared and evaluated. -/

namespace Sys2Proof.Machine

/-- A table by key, in rising order of key with no key twice. -/
abbrev Tbl (α : Type) := List (Nat × α)

/-- The entry of key k. -/
def tget {α : Type} (t : Tbl α) (k : Nat) : Option α :=
  match t with
  | [] => none
  | (k', a) :: t => if k = k' then some a else tget t k

/-- The entry of key k, or d. -/
def tgetD {α : Type} (t : Tbl α) (k : Nat) (d : α) : α := (tget t k).getD d

/-- The table without key k. -/
def tdel {α : Type} (t : Tbl α) (k : Nat) : Tbl α :=
  match t with
  | [] => []
  | (k', a) :: t => if k = k' then tdel t k else (k', a) :: tdel t k

/-- A pair put before the first larger key. -/
def tins {α : Type} (t : Tbl α) (k : Nat) (a : α) : Tbl α :=
  match t with
  | [] => [(k, a)]
  | (k', b) :: t => if k < k' then (k, a) :: (k', b) :: t else (k', b) :: tins t k a

/-- The table with key k holding a. -/
def tput {α : Type} (t : Tbl α) (k : Nat) (a : α) : Tbl α := tins (tdel t k) k a

/-- The entry of key k changed by f; nothing when there is none. -/
def tupd {α : Type} (t : Tbl α) (k : Nat) (f : α → α) : Tbl α :=
  match t with
  | [] => []
  | (k', a) :: t => if k = k' then (k', f a) :: t else (k', a) :: tupd t k f

/-- Keys strictly rising. -/
def keysRise {α : Type} : Tbl α → Bool
  | [] => true
  | [_] => true
  | (k, _) :: (k', b) :: t => k < k' && keysRise ((k', b) :: t)

/-- The list without its element n. -/
def dropAt {α : Type} (l : List α) (n : Nat) : List α := l.eraseIdx n

/-- Element n of the list changed by f. -/
def updAt {α : Type} (l : List α) (n : Nat) (f : α → α) : List α :=
  match l, n with
  | [], _ => []
  | a :: l, 0 => f a :: l
  | a :: l, n + 1 => a :: updAt l n f

/-- The first element that satisfies p changed by f. -/
def updFirst {α : Type} (l : List α) (p : α → Bool) (f : α → α) : List α :=
  match l with
  | [] => []
  | a :: l => if p a then f a :: l else a :: updFirst l p f

/-- The list without its first element that satisfies p. -/
def delFirst {α : Type} (l : List α) (p : α → Bool) : List α :=
  match l with
  | [] => []
  | a :: l => if p a then l else a :: delFirst l p

/-- f applied for k = 0 to n-1 in rising order. -/
def iter {α : Type} (n : Nat) (f : Nat → α → α) (a : α) : α :=
  match n with
  | 0 => a
  | n + 1 => f n (iter n f a)

/-- The smallest k below n with p k, or n. -/
def firstBelow (n : Nat) (p : Nat → Bool) : Nat :=
  match n with
  | 0 => 0
  | m + 1 => let k := firstBelow m p
             if k < m then k else if p m then m else m + 1

/-- Saturating addition. -/
def satAdd (cap a b : Nat) : Nat := min cap (a + b)

/-- Bit n of a number. -/
def bitOf (x n : Nat) : Bool := x.testBit n

/-- Bits [lo + len - 1 : lo] of a number. -/
def bitsOf (x lo len : Nat) : Nat := (x >>> lo) % 2 ^ len

/-- Number x with bits [lo + len - 1 : lo] set to v. -/
def setBits (x lo len v : Nat) : Nat :=
  x - (bitsOf x lo len) * 2 ^ lo + (v % 2 ^ len) * 2 ^ lo

/-- 1 for true. -/
def b2n (b : Bool) : Nat := if b then 1 else 0

end Sys2Proof.Machine
end

