-- ==== Sys2Proof/Machine/Memory.lean ====
section
/-! DEFINITION. Byte stores as lists of cells in one canonical form (addresses strictly rising, no cell equal to what an
unlisted address reads as, R4 little-endian). HBM, host memory, the team stores and the tile stores are each one such
list. The spec states no contents after power-on; an unlisted byte reads 0 (DESIGN CHOICE, log 6; unsafe). -/

namespace Sys2Proof.Machine

/-- A byte store. -/
abbrev Memory := List Host.Cell

/-- What an unlisted address reads as (log 6). -/
def blank : Byte := 0

/-- One byte. -/
def rd8 (m : Memory) (a : Nat) : Byte := (tget m a).getD blank

/-- One byte written; a byte equal to the blank one is not listed. -/
def wr8 (m : Memory) (a : Nat) (v : Byte) : Memory := if v = blank then tdel m a else tput m a v

/-- n bytes from address a upward. -/
def rdBytes (m : Memory) (a : Nat) : Nat → List Byte
  | 0 => []
  | n + 1 => rd8 m a :: rdBytes m (a + 1) n

/-- Bytes written from address a upward. -/
def wrBytes (m : Memory) (a : Nat) : List Byte → Memory
  | [] => m
  | b :: bs => wrBytes (wr8 m a b) (a + 1) bs

/-- The number a little-endian list of bytes stands for (R4). -/
def leNat : List Byte → Nat
  | [] => 0
  | b :: bs => b.toNat + 256 * leNat bs

/-- The n low bytes of a number, least significant first (R4). -/
def leBytes : Nat → Nat → List Byte
  | 0, _ => []
  | n + 1, v => BitVec.ofNat 8 v :: leBytes n (v / 256)

/-- The n-byte number at address a. -/
def rdN (m : Memory) (a n : Nat) : Nat := leNat (rdBytes m a n)

/-- The n-byte number v written at address a. -/
def wrN (m : Memory) (a n v : Nat) : Memory := wrBytes m a (leBytes n v)

/-- The canonical form. -/
def Memory.wf (m : Memory) : Bool := keysRise m && m.all fun c => c.2 != blank

/-- Bytes laid over others: byte k of the base is replaced where the patch, which starts at address p, covers base + k. -/
def overlay (base : Nat) (bs : List Byte) (p : Nat) (ps : List Byte) : List Byte :=
  match bs with
  | [] => []
  | b :: bs => (if p ≤ base then ps.getD (base - p) b else b) :: overlay (base + 1) bs p ps

end Sys2Proof.Machine
end

