-- ==== Sys2Proof/Machine/Types.lean ====
section
/-! DEFINITION. The records that the machine's state is made of: harts and their rings (04, 05), teams and grids
(01, 12), the memory system (02, 10, 11), messages and engines (06 to 09). Plain data only. -/

namespace Sys2Proof.Machine

/-- A mask-stack entry: a 64-bit mask and a 48-bit reconvergence pc (R103). -/
structure StkEntry where
  mask : Mask
  rpc : BitVec 48
deriving DecidableEq, Repr

/-- The basting snapshot (R132). -/
structure Snapshot where
  x : Vector Word 32
  m : Vector Mask 8
  stk : Vector StkEntry 32
  dep : Nat
deriving DecidableEq, Repr

/-- The four states of a ring entry (R133, R153). -/
inductive EState where
  | done | inflight | parked | held
deriving DecidableEq, Repr

/-- Where an INFLIGHT entry stands: in the lane queue, issued, in the matrix dispatch queue, being worked on by its
engine, or sent and waiting for an answer (R147, R218, R244, R247, R267). An entry at `refetch` is a replay whose bits are still to be
fetched again (R159). -/
inductive Stage where
  | refetch | queued | issued | dispatched | running | sent
deriving DecidableEq, Repr

/-- A dispatch-ring entry: the fields of R153, then what the model keeps beside them: the instruction, its stage, the
faulting lanes and address that a delivery reports (R155), the virtual pages it is parked on (R321), whether its
resolution has come (R154), whether it was forwarded in the open basting region (R132, R161), whether an engine answer
is awaited, the whole register behind OPB that a copy checks (R216), the bytes a copy has written (R224), LMASK as it
was at forwarding, which PART compares with (R155), the closed destinations a copy has met, bit 16 for any (R224), and
whether a drain to its own hart still holds its inbox reservation (R272), and its place in the order of the hart's forwarded
instructions, where a replay by `frrep` has the place of the `frrep` (R157). -/
structure Entry where
  seq : Nat
  st : EState
  eng : Engine
  mode : Mode
  started : Bool
  part : Bool
  sq : Bool
  await : Bool
  repl : Bool
  dlv : Bool
  ftz : Bool
  frm : BitVec 3
  opb : BitVec 32
  pc : BitVec 48
  code : Nat
  lmask : Mask
  opa : Word
  instr : Instr
  stage : Stage
  fltLanes : Mask
  fltAddr : Word
  flt : List (Nat × Nat × Word)
  pages : List Nat
  resolved : Bool
  region : Bool
  ptw : Word
  count : Nat
  fmask : Mask
  closed : Nat
  rsvd : Bool
  pos : Nat
deriving DecidableEq, Repr

/-- A barrier ticket (R123). -/
structure Ticket where
  valid : Bool
  phase : Bool
deriving DecidableEq, Repr

/-- A team barrier: E, arrival count, phase P and the arrived harts (R123, R138). -/
structure Barrier where
  e : Nat
  count : Nat
  p : Bool
  arrived : Nat
deriving DecidableEq, Repr

/-- What a hart waits for without re-executing: device time (R120), a monitor entry (R122), an interrupt (R107), or the
reply to a load of another core's window (R136, R282) with the number of its x register, or 32 and a tm register, and 64 for an acquire, the completion of a shoot-down (R325), the end of a barrier's phase (R124). -/
inductive Wait where
  | shoot (id : Nat)
  | hwtime (target : Nat)
  | wrs (line : Nat) (until_ : Option Nat)
  | wfi
  | window (id dest : Nat)
  | bar (n : BitVec 4)
deriving DecidableEq, Repr

/-- The destination of an outstanding reply: PENDREG and PEND (R139), with the request it answers, the pc of the instruction,
to which a refusal returns, and its address (R295). `acq` is the scope of the acquire that the answer completes, if it does (R46, R51). -/
structure Pend where
  reg : XR
  id : Nat
  pc : Word
  va : Word
  acq : Option Scope
deriving DecidableEq, Repr

/-- A piece of a scalar access of several pieces: its address, the request that asks the host for it, and the fault code (0 for
none) with the bytes when they are there. -/
structure Part where
  va : Nat
  id : Nat
  got : Option (Nat × List Byte)
deriving DecidableEq, Repr

/-- An inbox entry: two payload words, SCOPE, and whether it fills a reservation (R268, R272). -/
structure InboxMsg where
  w0 : Word
  w1 : Word
  scope : Nat
  reserved : Bool
deriving DecidableEq, Repr

/-- A send-queue entry: X[t], X[h] and up to four payload words, occupied until acknowledged (R266). -/
structure SendEntry where
  used : Bool
  seq : Nat
  target : Word
  handler : Word
  p : List Word
  sent : Bool
deriving DecidableEq, Repr

/-- Where a reservation is held (R297): at a home memory die, or at a core's team store. -/
inductive ResvAt where
  | home (md : Nat) | store (core : Nat)
deriving DecidableEq, Repr

/-- The supervisor CSRs of a hart and the machine status it shares with them (R107, R137). -/
structure SCsr where
  mstatus : Word
  mie : Word
  mip : Word
  stvec : Word
  sscratch : Word
  sepc : Word
  scause : Word
  stval : Word
  scounteren : Word
  senvcfg : Word
  instret : Word
deriving DecidableEq, Repr

/-- The machine CSRs of a hart slot (R107, R109). -/
structure MCsr where
  mtvec : Word
  mscratch : Word
  mepc : Word
  mcause : Word
  mtval : Word
  medeleg : Word
  mideleg : Word
  mcounteren : Word
  menvcfg : Word
  mcountinhibit : Word
  mcycleOff : Word
deriving DecidableEq, Repr

/-- The custom CSRs that a hart writes or that faults fill (R105); lfcause is `lfcode` and `lfengine`. -/
structure LCsr where
  lfrm : BitVec 3
  lflags : BitVec 6
  ftz : Bool
  wrsFull : Bool
  yreq : Bool
  fseq : Nat
  nseq : Nat
  lfcode : Nat
  lfengine : Nat
  lfaddr : Word
  lflanes : Mask
  bstpc : Word
deriving DecidableEq, Repr

/-- Who a hart is: names that do not change while it is resident (R105). `team` keys the team table; a handler hart has
none, and `land` is the number of its landing window (R277). -/
structure Ident where
  uid : Nat
  asid : Nat
  tenant : Nat
  team : Nat
  grid : Nat
  hidx : Nat
  size : Nat
  teamNo : Nat
  depth : Nat
  teams : Nat
  handler : Bool
  dline : Word
  cls : Nat
  level : Nat
  acct : Nat
  nv : Nat
  nt : Nat
  tile0 : List Nat
  arev : Nat
  land : Nat
deriving DecidableEq, Repr

/-- What the message engine holds for a hart (R266, R272, R276, R284), and for a handler its message (R276): `origin` holds
the source hwhere in [26:0], its TEAM at bit 32 and its hart index at bit 56, and `originUid` is that hart. `body` is what has come of a body that is read
from the host (R267), and `bodyErr` its failure. -/
structure MsgState where
  inbox : List InboxMsg
  rsv : Nat
  sendq : Vector SendEntry 8
  drop : Nat
  event : Nat
  origin : Word
  bodyLen : Nat
  rplAsked : Bool
  rplDue : Bool
  originRec : Word
  originUid : Nat
  divRecs : Nat
  body : List (Nat × List Byte)
  bodyErr : Option (Nat × Nat)
deriving DecidableEq, Repr

/-- A scalar load performed ahead of its place in program order, as RVWMO lets loads of different lines be (R45, R59): its base
register and address, its bytes, and the early values they hold. -/
structure Ahead where
  rs : XR
  va : Word
  pa : Nat
  bytes : List Byte
  ids : List Nat
deriving DecidableEq, Repr

/-- A hart: its architectural state (R103) and where it stands in waits, capture, debug and ending. `seen` are the early values it has read,
`deps` the requests that its later stores follow (R47), `ldeps` those that only its later lane accesses follow (R175). -/
structure Hart where
  pc : Word
  x : Vector Word 32
  m : Vector Mask 8
  stk : Vector StkEntry 32
  dep : Nat
  v : Tbl VReg
  vbad : List (Nat × Nat)
  tm : Vector TMap 8
  mode : Mode
  l : LCsr
  s : SCsr
  id : Ident
  snap : Option Snapshot
  ring : Tbl Entry
  laneQ : List Nat
  tickets : Vector Ticket 16
  syncw : Bool
  resv : Option (Nat × ResvAt)
  wait : Option Wait
  pend : Option Pend
  parts : List Part
  xlock : List (Nat × Nat)
  msg : MsgState
  frag : Option (Nat × Nat)
  halted : Bool
  stepping : Option Nat
  notReady : Nat
  ending : Bool
  capture : Option Nat
  seen : List Nat
  deps : List Nat
  ldeps : List Nat
  npos : Nat
  ahead : List Ahead
deriving DecidableEq, Repr

/-- A captured hart (R137, R176, R416): the hart, the slot it left or has been claimed for its return, the PA of its hart
record, whether its slot has been freed (step 5 of R416), and whether a slot is claimed for its return (R417). -/
structure SavedHart where
  hart : Hart
  slot : Nat
  pa : Nat
  freed : Bool
  claimed : Bool
deriving DecidableEq, Repr

/-- What a team needs of a core, and what is loaded with it (R22, R128, R348). -/
structure TeamSpec where
  entry : Word
  harts : Nat
  tiles : Nat
  vregs : Nat
  windows : Nat
  teams : Nat
  cores : Nat
  gang : Bool
  dataOk : Bool
  data : Word
  p0 : Word
  p1 : Word
  arev : Nat
deriving DecidableEq, Repr

/-- Where a team stands. -/
inductive TeamStat where
  | placed | live | capturing | saving | saved | restoring | ended
deriving DecidableEq, Repr

/-- A team (R21, R22, R138): its grid and index, the core and slots it holds, its windows and tiles in order, its
barriers, the PA of its record and its account. `order` is when it was placed, or while it is saved when it was saved (R415,
R417); `handOver` says that a window hand-over of its record is pending (R419); `yieldEnd` is when its yield window ends (R413);
`released` says that SCH_WINREL has been written for that hand-over, which still waits (R423);
`told` is the type of the last event record that its present save or restore has asked for (R423); `aways` are the slots whose
entry of the away directory names it (R274). -/
structure Team where
  grid : Nat
  idx : Nat
  asid : Nat
  core : Nat
  slots : List Nat
  wins : List Nat
  tiles : List Nat
  bars : Vector Barrier 16
  recPa : Nat
  acct : Nat
  stat : TeamStat
  hartsLeft : Nat
  order : Nat
  handOver : Bool
  yieldEnd : Option Nat
  told : Nat
  aways : List Nat
  released : Bool := false
deriving DecidableEq, Repr

/-- Where a grid was launched from: a queue and its command index, or a parent team (R21, R25). -/
inductive Origin where
  | queue (q idx : Nat) | team (t : Nat)
deriving DecidableEq, Repr

/-- A grid (R21, R25, R26, R409): its number, its work, and the flags its completion status is chosen from. -/
structure Grid where
  num : Nat
  asid : Nat
  tenant : Nat
  origin : Origin
  depth : Nat
  cls : Nat
  level : Nat
  dline : Nat
  acct : Nat
  spec : TeamSpec
  nextTeam : Nat
  liveTeams : Nat
  children : Nat
  overrun : Bool
  missed : Bool
  killed : Bool
  failCode : Nat
  retired : Bool
  status : Nat
  release : Nat
  budget : Nat
  placed : Bool
deriving DecidableEq, Repr

/-- A context (R21, R310, R421). -/
structure Ctx where
  satp : Word
  hold : Bool
deriving DecidableEq, Repr

/-- A copy of a line in an RDC: clean copies equal the home's bytes, a dirty one holds the 128 bytes (R36, R49). `late`
names the harts whose atomics performed in the RDC and have not reached the home (R298). -/
structure RdcLine where
  dirty : Option (List Byte)
  late : List Nat
deriving DecidableEq, Repr

/-- Whom an answer goes to: nobody, an x register of a hart, a lane of a ring entry, a held inbound piece, the
front end, a piece of a copy's chunk, a copy's write to another core's window (`bit` is 0, or its bit of MASK plus one, and `off` its
place in the windows of that team). -/
inductive ReplyTo where
  | none
  | xreg (uid id : Nat)
  | lane (uid seq lane : Nat)
  | piece (port id : Nat)
  | fe (id : Nat)
  | copy (uid seq piece : Nat)
  | copyWrite (uid seq bit off : Nat)
deriving DecidableEq, Repr

/-- What a home does for a request (R289): stores that the home grants to the writer's RDC, writes it makes itself, atomics
in a die's RDC or in the AU, store-conditionals, and scrubs. Reads are taken by the home within the reader's own step. -/
inductive ReqKind where
  | store
  | homeWrite
  | dieAtomic (op : Nat) (size : Nat) (signed : Bool) (s cmp : Nat)
  | auAtomic (op : Nat) (size : Nat) (signed : Bool) (s cmp : Nat)
  | auFloatAdd (fmt : Nat) (s : Nat)
  | sc
  | scrub
deriving DecidableEq, Repr

/-- A request that has arrived at its home or is on its way there, in order of arrival (R289). `deps` are the requests
that must be visible to every agent before this one may perform (R47). `lane` marks what the lane engine has handed over (R175). -/
structure HomeReq where
  id : Nat
  die : Nat
  core : Nat
  uid : Nat
  asid : Nat
  pa : Nat
  kind : ReqKind
  data : List Byte
  reply : ReplyTo
  sx : Bool
  deps : List Nat
  lane : Bool := false
deriving DecidableEq, Repr

/-- A request the home holds for snoop replies (R49, R290, R355): the dies still to answer (4 + p stands for the host on
port p, which a BISnp asks), the dies whose write-back is awaited, and whether the store has been granted (step 1 of R49). -/
structure Busy where
  req : HomeReq
  waitFor : List Nat
  waitWb : List Nat
  granted : Bool
deriving DecidableEq, Repr

/-- A write-back in transit (R290). -/
structure WriteBackMsg where
  die : Nat
  line : Nat
  data : List Byte
  late : List Nat
deriving DecidableEq, Repr

/-- A snoop in transit (R290). -/
structure SnoopMsg where
  die : Nat
  line : Nat
deriving DecidableEq, Repr

/-- What a slice answers a snoop with (R290). -/
inductive SnoopAns where
  | data (bs : List Byte) | wbPending | miss
deriving DecidableEq, Repr

/-- A snoop reply in transit. -/
structure SnoopRep where
  die : Nat
  line : Nat
  ans : SnoopAns
  late : List Nat
deriving DecidableEq, Repr

/-- An answer on its way to a hart (R139): an old value, or the refusal of R295. -/
structure Reply where
  to_ : ReplyTo
  value : Word
  unsup : Bool
deriving DecidableEq, Repr

/-- A reservation: the hart, its line and the clk of entry (R297). -/
structure Resv where
  uid : Nat
  line : Nat
  clk : Nat
deriving DecidableEq, Repr

/-- A wake notice in transit (R298). -/
structure Wake where
  uid : Nat
  line : Nat
deriving DecidableEq, Repr

/-- A monitor-table entry of a core (R122). -/
structure Monitor where
  uid : Nat
  line : Nat
deriving DecidableEq, Repr

/-- A cached leaf translation (R317): ASID, the virtual page, the level of its leaf and the PTE. -/
structure TlbEntry where
  asid : Nat
  vpn : Nat
  level : Nat
  pte : Nat
deriving DecidableEq, Repr

/-- A cached pointer PTE (R317). -/
structure WalkEntry where
  asid : Nat
  level : Nat
  vpn : Nat
  pte : Nat
deriving DecidableEq, Repr

/-- A slice's translation cache and walk cache. -/
structure Slice where
  tlb : List TlbEntry
  wc : List WalkEntry
deriving DecidableEq, Repr

/-- A walk under way (R317): its slice, the page, the level it reads next and the table it reads; the pointer PTEs it has read, which
are cached when it ends without a fault; and the access that it is for. -/
structure Walk where
  die : Nat
  slice : Nat
  asid : Nat
  vpn : Nat
  level : Nat
  table : Nat
  ptrs : List WalkEntry
  write : Bool
  mode : Mode
  sum : Bool
  mxr : Bool
deriving DecidableEq, Repr

/-- A record of a slice's pending table (R321); `priv`: some of its work was forwarded in S-mode (R372). -/
structure SliceRec where
  die : Nat
  slice : Nat
  asid : Nat
  vpn : Nat
  r : Bool
  w : Bool
  priv : Bool
  cores : List Nat
  sent : Bool
deriving DecidableEq, Repr

/-- A page of the IOD fault queue (R321). -/
structure FqRec where
  asid : Nat
  vpn : Nat
  r : Bool
  w : Bool
  priv : Bool
  dies : List Nat
  group : Option (Nat × Nat)
deriving DecidableEq, Repr

/-- A page-request group of a port (R322): open until sent; dead once its context has been killed or reset, so that its response is
discarded (R324). -/
structure Group where
  port : Nat
  index : Nat
  asid : Nat
  sent : Bool
  openClk : Nat
  pages : List Nat
  dead : Bool
deriving DecidableEq, Repr

/-- A resolution notice in transit to a core (R322): code 0 for Success, else the code its waiters take. -/
structure Notice where
  core : Nat
  asid : Nat
  vpn : Nat
  code : Nat
deriving DecidableEq, Repr

/-- An entry of a port's address translation cache (R323): the untranslated page, the host page, R and W granted, whether it was
asked for with Privileged Mode Requested (R372), and the ring entry that it has given ATS_DENIED: its hart and position. -/
structure AtcEntry where
  asid : Nat
  page : Nat
  hpage : Nat
  r : Bool
  w : Bool
  priv : Bool
  told : Option (Nat × Nat)
deriving DecidableEq, Repr

/-- An ATS Translation Request (R323, R372): its port, PASID and page, and Privileged Mode Requested. -/
structure AtsReq where
  port : Nat
  asid : Nat
  page : Nat
  priv : Bool
deriving DecidableEq, Repr

/-- An ATS invalidation not yet completed (R328). -/
structure AtsInv where
  port : Nat
  asid : Nat
  page : Nat
  size : Nat
  waits : List Nat
deriving DecidableEq, Repr

/-- A shoot-down under way (R325, R326): what it removes, the dies still to acknowledge, and the hart that waits. -/
structure Shoot where
  id : Nat
  uid : Nat
  va : Option Nat
  asid : Option Nat
  dies : List Nat
deriving DecidableEq, Repr

/-- The state of a reduction slot (R301). -/
inductive SlotState where
  | free | open_ | applying
deriving DecidableEq, Repr

/-- A stored contribution or fragment: key (core, quadrant, slot, order of sending) and partials (R206, R207), and the number of its line
in the contribution area (R301). -/
structure Contrib where
  core : Nat
  quad : Nat
  slot : Nat
  order : Nat
  fin : Bool
  parts : List Nat
  line : Nat
deriving DecidableEq, Repr

/-- A reduction slot of an AU (R301). -/
structure RedSlot where
  st : SlotState
  pa : Nat
  asid : Nat
  fmt : Nat
  declared : Nat
  finals : Nat
  contribs : List Contrib
deriving DecidableEq, Repr

/-- A hart's reduction-buffer entry (R203): key and partials. -/
structure RedEntry where
  va : Nat
  fmt : Nat
  parts : List Nat
  order : Nat
deriving DecidableEq, Repr

/-- Reduction traffic to the AUs (R204, R206, R210). -/
inductive AuMsg where
  | openReq (uid seq asid pa fmt count : Nat)
  | contribution (uid seq asid pa fmt : Nat) (c : Contrib)
  | fragment (uid asid pa fmt : Nat) (c : Contrib)
deriving DecidableEq, Repr

/-- An AU's answer in transit (R204, R206). -/
structure VredReply where
  uid : Nat
  seq : Nat
  status : Nat
deriving DecidableEq, Repr

/-- Where a translated access goes (R41, R313): HBM, cached or not, a window of a core, a tile of a core, host memory
through a port, or the device register space. -/
inductive Loc where
  | hbm (pa : Nat) (cached : Bool)
  | win (core win off : Nat)
  | tile (core tile off : Nat)
  | host (port asid addr : Nat)
  | mmio (pa : Nat)
deriving DecidableEq, Repr

/-- The kinds of message that software's sends make (R256). -/
inductive MsgKind where
  | inbox | handler
deriving DecidableEq, Repr

/-- A message in transit (R257). `uid`, `seq` and `sq` name the send it acknowledges to; `reserved` marks one that fills
a reservation (R272), of the hart `forUid` (R270); `drain` marks a drain's wake-up (R245); `acct` is the account its handler is charged to (R286). -/
structure Msg where
  kind : MsgKind
  net : Nat
  tenant : Nat
  asid : Nat
  cls : Nat
  level : Nat
  scope : Nat
  seq : Nat
  rpl : Bool
  src : Nat
  dst : Nat
  entry : Word
  teamNo : Nat
  off : Nat
  body : List Byte
  dline : Word
  orec : Nat
  srcTeam : Nat
  srcIdx : Nat
  p0 : Word
  p1 : Word
  uid : Nat
  sq : Option Nat
  reserved : Bool
  drain : Bool
  acct : Nat
  forUid : Nat
deriving DecidableEq, Repr

/-- An acknowledgement in transit (R269): code 0 accepts. -/
structure AckMsg where
  uid : Nat
  seq : Nat
  sq : Option Nat
  code : Nat
deriving DecidableEq, Repr

/-- What a window access does (R282). -/
inductive WinOp where
  | load | store | amo (op : Nat) (signed : Bool) (s cmp : Nat) | floatAdd (fmt s : Nat) | lr | sc
deriving DecidableEq, Repr

/-- A window access in transit (R282), with the tenant that routers check (R261). -/
structure WinAcc where
  id : Nat
  uid : Nat
  asid : Nat
  va : Word
  mode : Mode
  core : Nat
  win : Nat
  off : Nat
  size : Nat
  tenant : Nat
  op : WinOp
  data : List Byte
  sx : Bool
  reply : ReplyTo
deriving DecidableEq, Repr

/-- What the holding core answers (R282, R283). -/
inductive WinAns where
  | data (bs : List Byte) | ok | closed | moved
deriving DecidableEq, Repr

/-- A window reply in transit. -/
structure WinRep where
  acc : WinAcc
  ans : WinAns
deriving DecidableEq, Repr

/-- A drain image in transit (R244): a replay of a refused wake-up carries no image. -/
structure DrainMsg where
  uid : Nat
  seq : Nat
  asid : Nat
  tenant : Nat
  cls : Nat
  src : Nat
  dst : Nat
  off : Nat
  data : List Byte
  wakeOnly : Bool
  acct : Nat
  reserved : Bool
deriving DecidableEq, Repr

/-- A drain's outcome in transit: code 0 done, else the refusal. -/
structure DrainAckMsg where
  uid : Nat
  seq : Nat
  code : Nat
  dropped : Bool
deriving DecidableEq, Repr

/-- One destination write of a copy chunk (R218, R220, R223): its address, its place, its bytes, for `cpadd` the code of the type, and for
`cpmc` the bit of MASK plus one and the offset. -/
structure CopyWrite where
  va : Word
  loc : Loc
  bytes : List Byte
  add : Option (Nat × Nat)
  mcBit : Nat
  off : Nat
deriving DecidableEq, Repr

/-- A copy in the engine (R218, R220, R224): the teams that the bits of MASK name at the chunk's start, a chunk in phase A, its host data
that has come, or one in phase B with its writes and the bytes its progress advances by; `fin` when every chunk has passed phase B and its
message is to be posted, DROPPED when `frdrop` ended it. -/
structure CopyJob where
  uid : Nat
  seq : Nat
  teams : List (Nat × Nat)
  dropped : Bool
  ready : Bool
  fin : Bool
  hostBuf : List (Nat × List Byte)
  hostErr : Option (Nat × Nat)
  writes : List CopyWrite
  advance : Nat
  closed : Nat
  total : Nat
deriving DecidableEq, Repr

/-- A matrix instruction in a quadrant's dispatch queue (R247). -/
structure MdqEntry where
  slot : Nat
  seq : Nat
deriving DecidableEq, Repr

/-- An operation in the array or the tile port: its hart and entry, the clk at which it may finish (R248), and for the array
and `tmovt` what it read at its start: for each element of the tile the sum without the accumulator, a code or an integer. -/
structure MxOp where
  uid : Nat
  seq : Nat
  fin : Nat
  vals : List Int
deriving DecidableEq, Repr

/-- What a quadrant's keep buffer holds: whose B block and scales (R242). -/
structure KeepBuf where
  uid : Nat
  vb : Nat
  vs : Nat
  fmt : Nat
deriving DecidableEq, Repr

/-- A message in a core's handler queue with the clk of its arrival (R278). -/
structure HqEntry where
  msg : Msg
  clk : Nat
deriving DecidableEq, Repr

/-- A slot's away entry, and an entry of an away directory (R274). -/
structure Away where
  asid : Nat
  teamNo : Nat
  hidx : Nat
  run : Bool
  whereTo : Nat
deriving DecidableEq, Repr

/-- A write of `steer` that waits for datapaths to drain (R143): the hart and its slot, the pc of the write, the quadrants it stops. -/
structure SteerWait where
  slot : Nat
  uid : Nat
  pc : Word
  quads : List Nat
deriving DecidableEq, Repr

/-- What one core holds beside its harts (R18, R19). The lane L1 is keyed by the address space and the virtual line, with the line of HBM behind
it; `dcache` are the lines that the hart data cache holds, oldest first: it is coherent, so a read through it returns what the RDC has (log 28). `winVac` are the windows vacated by saved teams with the team key
and window index (R283); `winLoad` those still loading (R419). -/
structure Core where
  tstat : Tbl Nat
  l1 : Tbl (List Byte)
  icache : Tbl (List Byte)
  dcache : List Nat
  monitors : List Monitor
  mdq : Tbl (List MdqEntry)
  keep : Tbl KeepBuf
  arrayPipe : List MxOp
  port : Option MxOp
  arrayFree : Nat
  oryxFree : Nat
  copies : List CopyJob
  hq : List HqEntry
  away : Tbl Away
  winVac : Tbl (Nat × Nat)
  winLoad : List Nat
  steering : List SteerWait
deriving DecidableEq, Repr

/-- A budget account (R404 to R406): the team that owns it, or none for a handler's; `carry` is the remainder of R229. -/
structure Acct where
  asid : Nat
  team : Option Nat
  units : Nat
  unlimited : Bool
  carry : Nat
  graceEnd : Option Nat
  closed : Bool
deriving DecidableEq, Repr

/-- An outbound request of a host port that awaits a completion (R364 to R367): a read, or a PCIe AtomicOp (0 swap, 1 add,
7 cas) with its operands. -/
structure OutReq where
  id : Nat
  port : Nat
  asid : Nat
  uid : Nat
  addr : Nat
  size : Nat
  atomic : Option (Nat × Nat × Nat)
  sx : Bool
  reply : ReplyTo
  clk : Nat
deriving DecidableEq, Repr

/-- An event record before it is written (R423): TYPE, ASID, grid number, PA of the team record, team index, core. -/
structure EvtRec where
  type : Nat
  asid : Nat
  grid : Nat
  pa : Nat
  team : Nat
  core : Nat
deriving DecidableEq, Repr

/-- An entry of the admission table (R400). -/
structure AdmEntry where
  tenant : Nat
  r : Nat
  d : Nat
  n : Nat
  teams : Nat
  b : Nat
  placed : Nat
  grid : Nat
deriving DecidableEq, Repr

/-- What completes a command of the front end (R341): nothing more, requests at the homes, an AtomicOp at the host, a copy
that still has bytes to move, a grid that is to retire. -/
inductive FeRun where
  | done | reqs (ids : List Nat) | host (id : Nat) | copy (src dst left : Nat) (ids : List Nat) | grid (g : Nat)
deriving DecidableEq, Repr

/-- A dispatched command of a queue: the ring command whose record reports it, its opcode, and its outcome (R344 to R346). -/
structure FeCmd where
  ring : Nat
  op : Nat
  stop : Bool
  run : FeRun
  status : Nat
  reject : Nat
  info : Nat
  fcode : Nat
deriving DecidableEq, Repr

/-- What a command's accesses wait for (R342): the page asked for, and the page whose request failed with its code; host reads asked for
(request and VA) and answered, and the VA and the code of one that failed; and whether its last attempt is waiting for an answer. -/
structure FeWait where
  page : Option Nat
  noted : Option (Nat × Nat)
  asks : List (Nat × Nat)
  buf : List (Nat × List Byte)
  err : Option (Nat × Nat)
  stalled : Bool
deriving DecidableEq, Repr

/-- The front end's working state of a queue (R336): ring commands whose records are not written (index and word 0), the
commands dispatched for them, the open buffers, innermost first (VA, next command, count), the grid being placed, a WAIT
that holds the queue, what the head command and the running COPY wait for, the last launch's deadline (R337), and a DISABLE
that waits for records (R335), whether the head command was held when it was last tried (R339), and the requests of a record that is being
written (R374). -/
structure FeQueue where
  recs : List (Nat × Nat)
  cmds : List FeCmd
  ibs : List (Nat × Nat × Nat)
  placing : Option Nat
  waiting : Bool
  hd : FeWait
  cp : FeWait
  lastDl : Nat
  disabling : Bool
  held : Bool
  writing : Option (List Nat)
deriving DecidableEq, Repr

/-- A `glaunch` request in transit to the front end (R129). -/
structure GReq where
  uid : Nat
  slot : Nat
  id : Nat
  team : Nat
  desc : List Byte
deriving DecidableEq, Repr

/-- One direction of a seam (R429): the sequence number the transmitter sends next and its oldest unacknowledged one, what the
receiver expects, whether a NAK of it is outstanding, the clk of the last acknowledgement progress, the times of the replays that
R434 counts and the modules that carried the failed flits with their times, the flits delivered, and each VC's credits beyond the initial ones;
the replay buffer (R427, R429): each flit sent and not acknowledged, with its sequence number, its VC, and its length byte and payload, once a flit that
arrived whole has shown them; how many of them have been sent since the last replay began; the module that carried the last flit (R426); and by VC the
payload delivered last (R430). -/
structure SeamDir where
  next : Nat
  base : Nat
  expect : Nat
  nak : Bool
  progress : Nat
  replays : List Nat
  failedOn : List (Nat × Nat)
  delivered : Nat
  credits : Tbl Int
  buf : List (Nat × Nat × Option (List Byte))
  pos : Nat
  turn : Nat
  last : Tbl (List Byte)
deriving DecidableEq, Repr

/-- Why a seam retrains (R433 to R435): a module that degrades, a rate request, a lane re-test. -/
inductive Retrain where
  | degrade (module_ : Nat) | rate | retest
deriving DecidableEq, Repr

/-- A seam (R425, R429, R432): its directions, what it is to retrain for and the retrain under way, when the last one began, the
modules at half width that use their high lanes, and the spare lanes found failing. -/
structure Seam where
  ab : SeamDir
  ba : SeamDir
  due : List Retrain
  running : Option Retrain
  began : Option Nat
  high : List Nat
  badSpares : Tbl Nat
deriving DecidableEq, Repr

/-- The management controller and the power controllers (17): the attempt of a boot and the steps that failed on earlier ones
(R444), the seams with a recorded degradation (R436), each die's clock in MHz and since when its Oryx matrix issue is limited
(R441), the clk that a die has missed beside 1.8 GHz with a remainder in MHz, the answer in the DOE mailbox (R446), the debugger's last read
(R141), whether the last boundary scan was allowed (R450), the steer fields that M-mode has set, which the configuration record keeps for the
next boot (R144), the dies that the last boot left offline (R442), the quadrants with a lane failure reported while no hart stood there (R144), and the dies going offline whose seams take no new flit (R438). -/
structure Plat where
  attempt : Nat
  failed : List Nat
  seamDeg : List Nat
  mhz : Tbl Nat
  limit : Tbl (Nat × Bool)
  slow : Tbl (Nat × Nat)
  doe : List Byte
  dbg : Nat
  scan : Bool
  steerRec : Tbl Nat
  bad : List Nat
  seamRec : List (Nat × Nat)
  laneRep : List Nat
  sealed_ : List Nat
deriving DecidableEq, Repr

/-- What an inbound request of a host port does (R360 to R363): a line piece of a posted write, a write of the register space or
of a doorbell, a read, an AtomicOp. -/
inductive InKind where
  | piece (bs : List Byte)
  | mmio (bar : Nat) (bs : List Byte)
  | read (bar len : Nat)
  | atomic (op n a b : Nat)
deriving DecidableEq, Repr

/-- An inbound request at the ordering point (R361): the inbound request that it is a piece of, its port, its requester,
Relaxed Ordering, its address, and whether it has been
sent to its home and awaits the acknowledgement. -/
structure InReq where
  id : Nat
  req : Nat
  port : Nat
  rid : Nat
  ro : Bool
  addr : Nat
  kind : InKind
  sent : Bool
deriving DecidableEq, Repr

/-- A completion sent to the host: 0 successful, 1 Unsupported Request, 2 Completer Abort, with its data. -/
structure Comp where
  port : Nat
  rid : Nat
  status : Nat
  data : List Byte
deriving DecidableEq, Repr

/-- An error reported through AER (R354, R364): Unsupported Request, Completer Abort, an uncorrectable non-fatal error, a packet that
breaks a limit of the port, and one whose ECRC fails. -/
inductive AerErr where
  | ur | ca | nonFatal | malformed | ecrc
deriving DecidableEq, Repr

/-- The host ports (13): inbound requests in order of arrival, the service queues (R370), the completions of the last request
answered, the ports in D3hot, and the errors that each port has reported through AER, oldest first. -/
structure HostPorts where
  inq : List InReq
  svc : Tbl (List Nat)
  comp : List Comp
  d3 : List Nat
  aer : List (Nat × AerErr)
deriving DecidableEq, Repr

/-- A ring entry being written, or what follows from it (R384, R385, R387, R388): its ring and index; its stage: 4 it waits for its turn, 0 its pieces sent,
5 SEQ sent, 1 whole, 2 the descriptor sent, 3 the command sent; the requests to be acknowledged; the filter's action and its DTS; its header bytes
before SEQ and its payload. -/
structure RxJob where
  ring : Nat
  idx : Nat
  stage : Nat
  reqs : List Nat
  act : Nat
  dts : Nat
  bytes : List Byte
deriving DecidableEq, Repr

/-- A descriptor of the transmit ring whose frame is gone (R382): its stamp (ns, seconds), TS, ERR, and the write-back's stage. -/
structure TxJob where
  idx : Nat
  stamp : Option (Nat × Nat)
  err : Bool
  stage : Nat
  reqs : List Nat
deriving DecidableEq, Repr

/-- A work entry of a queue pair that is under way (R392): its index, operation, whether it signals, its packets' first and last
PSN, local address and length, bytes moved, the requests its local writes made, and whether it is answered. -/
structure QpWork where
  j : Nat
  op : Nat
  signal : Bool
  first : Nat
  last : Nat
  lva : Nat
  len : Nat
  moved : Nat
  reqs : List Nat
  acked : Bool
  status : Nat
deriving DecidableEq, Repr

/-- A write with Immediate whose data is on its way (R394): the queue pair, its PSN, the value and length, the requests of its data, its DTS. -/
structure ImmJob where
  qp : Nat
  psn : Nat
  imm : Nat
  len : Nat
  reqs : List Nat
  dts : Nat
deriving DecidableEq, Repr

/-- A queue pair as the engine runs it (R391 to R393): next work entry, tail, completions written, next PSN to send, oldest
unacknowledged, retries, the clk of the last progress; and the responder's expected PSN, whether its NAK is out, the write
under way or last (first PSN, address, key, length), the packets whose ACK waits for requests, and the pair's table entry as the engine read it
last. -/
structure Qp where
  head : Nat
  tail : Nat
  cq : Nat
  psn : Nat
  retries : Nat
  since : Nat
  work : List QpWork
  epsn : Nat
  nakOut : Bool
  wrs : List (Nat × Nat × Nat × Nat)
  acks : List (Nat × List Nat)
  ent : List Byte
deriving DecidableEq, Repr

/-- An Ethernet port (14): its clock in units of 2⁻³² ns, the clk of its last sample, entries and frames under way, the last frame
or data sent, good samples in a row (R381), its queue pairs, writes with Immediate, and the responder's last answer (queue pair,
PSN, 0 for an ACK or the NAK). -/
structure Eth where
  clock : Nat
  sampled : Nat
  rx : List RxJob
  tx : Option TxJob
  sent : List Byte
  good : Nat
  qps : Tbl Qp
  imms : List ImmJob
  rcAns : Option (Nat × Nat × Nat)
deriving DecidableEq, Repr

/-- An arbiter (R28, R134, R397): the key it picked last of Ibex and of each Kudu and Oryx level, its place in the weighted sequence of Kudu
levels, and the non-Ibex picks since the last that went to Oryx. -/
structure Arb where
  lasts : Tbl Nat
  place : Nat
  since : Nat
deriving DecidableEq, Repr

/-- What moves next: a hart, a step of another agent, the passing of time, a cache dropping a line, a word of a vector register
losing its parity, a scalar load performed ahead of its place (R45), an uncorrectable error in an RDC, a team store or a tile store that a
context uses (R161, R447), an error that ECC finds as a line of a stack is read, corrected or not (R306), or the reliable-connection engines
writing the completions and sending the ACKs whose requests have all been acknowledged (R392, R393). -/
inductive Turn where
  | hart (slot : Nat)
  | event (i : Instr)
  | elapse (clks : Nat)
  | evictRdc (die line : Nat)
  | dropL1 (core line : Nat)
  | dropIcache (core key : Nat)
  | dropTlb (die slice n : Nat)
  | flipWord (slot reg lane : Nat)
  | loadAhead (slot : Nat) (rs : XR) (off : BitVec 12) (size : Nat)
  | eccError (asid : Nat)
  | stackError (line err : Nat)
  | roceSettle
deriving DecidableEq, Repr

end Sys2Proof.Machine
end

