-- ==== Sys2Proof/Machine/State.lean ====
section
/-! DEFINITION. The machine's state as plain data, the reasons a step can stop, and the state after reset. -/

namespace Sys2Proof.Machine

/-- Why the machine stops with a fault. -/
inductive Fault where
  /-- A hart instruction executed with no hart in the slot `cur` (raised by every hart instruction's meaning; safe: the
  machine has no hart that could execute it). -/
  | noHart
deriving DecidableEq, Repr

/-- Why an instruction has no meaning in the model. -/
inductive Refusal where
  /-- Raised only by an arm of `exec` whose instruction is not modelled; safe: nothing can be proved of it. -/
  | notModelled (mnemonic : String)
deriving DecidableEq, Repr

/-- The clock of the machine (R5, R381). -/
structure Clock where
  clk : Nat
  time : Nat
  nsRem : Nat
  steer : Int
deriving DecidableEq, Repr

/-- Memory, the RDCs and the homes (02, 10). `msc` are the lines that the MSCs of the memory dies hold, oldest first (R12, R36). -/
structure MemSys where
  hbm : Memory
  host : Memory
  rdc : Tbl RdcLine
  homeq : List HomeReq
  busy : List Busy
  wbs : List WriteBackMsg
  snoops : List SnoopMsg
  sreps : List SnoopRep
  replies : List Reply
  resvHome : Tbl (List Resv)
  resvStore : Tbl (List Resv)
  wakes : List Wake
  cells : Tbl (List Nat)
  lost : Tbl Nat
  msc : List Nat
  hostHeld : List (Nat × Nat)
  out : List OutReq
deriving DecidableEq, Repr

/-- The translation engine (11). -/
structure Xlate where
  slices : Tbl Slice
  walks : List Walk
  recs : List SliceRec
  fqIn : List SliceRec
  fq : List FqRec
  groups : List Group
  notices : List Notice
  feNotes : List (Nat × Nat × Nat)
  atc : Tbl (List AtcEntry)
  invs : List AtsInv
  shoots : List Shoot
  atsReqs : List AtsReq
deriving DecidableEq, Repr

/-- The deterministic reductions (R203, R301). -/
structure Reds where
  buf : Tbl RedEntry
  slots : Tbl RedSlot
  auq : List AuMsg
  vreps : List VredReply
deriving DecidableEq, Repr

/-- Messages of the three networks in transit (09). -/
structure Net where
  msgs : List Msg
  acks : List AckMsg
  wins : List WinAcc
  winReps : List WinRep
  drains : List DrainMsg
  drainAcks : List DrainAckMsg
deriving DecidableEq, Repr

/-- Units of work (R21). -/
structure Work where
  teams : Tbl Team
  grids : Tbl Grid
  ctxs : Tbl Ctx
  accts : Tbl Acct
  saves : Tbl SavedHart
deriving DecidableEq, Repr

/-- The deadline scheduler (15): events that wait for ring space, the requests of the record that is being written (R423), the admission table,
and the values of RSV_CFG in force. -/
structure Sched where
  evq : List EvtRec
  evReqs : List Nat
  adm : List AdmEntry
  rsv : Tbl Nat
deriving DecidableEq, Repr

/-- The command front end (12): the sub-meshes and classes of tenants in force the commits under way (tenant and the time
by which each ends), what the walker holds of each run list (a QCB, or 0) and since when (R337), the queues, launch messages in transit (teams), `glaunch` requests, and the patch banks (R347). -/
structure FrontEnd where
  rect : Tbl Nat
  cls : Tbl Nat
  commit : List (Nat × Nat)
  walks : Tbl (Nat × Nat)
  queues : Tbl FeQueue
  lmsgs : List Nat
  greqs : List GReq
  patch : List Byte
  patchNext : Option (List Byte)
deriving DecidableEq, Repr

/-- The state of the machine. `agenda`, `cur`, `free` and `nextUid` are the model's own (logs 1, 2, 3). -/
structure State where
  agenda : List Turn
  cur : Nat
  free : Nat
  nextUid : Nat
  clock : Clock
  harts : Tbl Hart
  mcsrs : Tbl MCsr
  steerCfg : Tbl Nat
  cores : Tbl Core
  arbs : Tbl Arb
  tstore : Memory
  tiles : Memory
  mem : MemSys
  xl : Xlate
  reds : Reds
  net : Net
  work : Work
  sch : Sched
  fe : FrontEnd
  seams : Tbl Seam
  plat : Plat
  hp : HostPorts
  eth : Tbl Eth
  regs : Tbl Nat
  booted : Bool
  faulted : List (Nat × Nat)
deriving DecidableEq, Repr

/-- The state right after reset: no boot step has run, nothing is resident, every store is blank. -/
def State.reset : State :=
  { agenda := [], cur := 0, free := 0, nextUid := 1,
    clock := { clk := 0, time := 0, nsRem := 0, steer := 0 },
    harts := [], mcsrs := [], steerCfg := [], cores := [], arbs := [], tstore := [], tiles := [],
    mem := { hbm := [], host := [], rdc := [], homeq := [], busy := [], wbs := [], snoops := [], sreps := [],
             replies := [], resvHome := [], resvStore := [], wakes := [], cells := [], lost := [], msc := [], hostHeld := [], out := [] },
    xl := { slices := [], walks := [], recs := [], fqIn := [], fq := [], groups := [], notices := [], feNotes := [], atc := [], invs := [],
            shoots := [], atsReqs := [] },
    reds := { buf := [], slots := [], auq := [], vreps := [] },
    net := { msgs := [], acks := [], wins := [], winReps := [], drains := [], drainAcks := [] },
    work := { teams := [], grids := [], ctxs := [], accts := [], saves := [] },
    fe := { rect := [], cls := [], commit := [], walks := [], queues := [], lmsgs := [], greqs := [], patch := [], patchNext := none },
    sch := { evq := [], evReqs := [], adm := [], rsv := [] },
    seams := [],
    plat := { attempt := 1, failed := [], seamDeg := [], mhz := [], limit := [], slow := [], doe := [], dbg := 0, scan := false,
              steerRec := [], bad := [], seamRec := [], laneRep := [], sealed_ := [] },
    hp := { inq := [], svc := [], comp := [], d3 := [], aer := [] }, eth := [],
    regs := [], booted := false, faulted := [] }

end Sys2Proof.Machine
end

