-- ==== Sys2Proof/Machine/Ops.lean ====
section
/-! DEFINITION. The named operations over registers, identity, CSR state, traps and the homes of every piece of hart
state (04_hart_engine). Taking an exception is `takeTrap`; the returns are `mretHart` and `sretHart`. -/

namespace Sys2Proof.Machine

/-- A mask of all ones. -/
def allOnes : Mask := BitVec.allOnes 64

/-- Bit l of a mask. -/
def mbit (m : Mask) (l : Nat) : Bool := m.getLsbD l

/-- The mask with bit l alone. -/
def oneBit (l : Nat) : Mask := BitVec.ofNat 64 (1 <<< l)

/-- The lanes 0 to 63 that a mask enables, ascending. -/
def lanesOf (m : Mask) : List Nat := (List.range 64).filter fun l => mbit m l

/-- A mask from a test of each lane. -/
def maskOf (p : Nat → Bool) : Mask :=
  BitVec.ofNat 64 ((List.range 64).foldl (fun a l => a + (if p l then 2 ^ l else 0)) 0)

/-- The number of set bits. -/
def popcount (n w : Nat) : Nat := (List.range w).foldl (fun a k => a + b2n (n.testBit k)) 0

/-- x register r: x0 reads 0 (R103). -/
def rx (h : Hart) (r : XR) : Word := if r = 0 then 0 else h.x[r.toNat]'r.isLt

/-- x register r written: a write to x0 is discarded (R103). -/
def wx (h : Hart) (r : XR) (w : Word) : Hart := if r = 0 then h else { h with x := h.x.set r.toNat w r.isLt }

/-- The x register that an 8-bit field names (R69). -/
def xreg (f : BitVec 8) : XR := f.setWidth 5

/-- m register r: m0 reads all ones (R103). -/
def rm (h : Hart) (r : MR) : Mask := if r = 0 then allOnes else h.m[r.toNat]'r.isLt

/-- m register r written: a write to m0 is discarded (R103). -/
def wm (h : Hart) (r : MR) (w : Mask) : Hart := if r = 0 then h else { h with m := h.m.set r.toNat w r.isLt }

/-- Mask-stack entry i; entries from 32 up do not exist. -/
def stkAt (h : Hart) (i : Nat) : StkEntry := if p : i < 32 then h.stk[i] else ⟨0, 0⟩

/-- Mask-stack entry i written. -/
def setStk (h : Hart) (i : Nat) (e : StkEntry) : Hart := if p : i < 32 then { h with stk := h.stk.set i e } else h

/-- The top entry S[msdep - 1]. -/
def topStk (h : Hart) : StkEntry := stkAt h (h.dep - 1)

/-- A vector register of zeros. -/
def vzero : VReg := Vector.replicate 64 0

/-- Vector register n: v0 reads 0 (R103). -/
def vget (h : Hart) (n : Nat) : VReg := if n = 0 then vzero else tgetD h.v n vzero

/-- Lane l of vector register n. -/
def vlane (h : Hart) (n l : Nat) : Elem := if p : l < 64 then (vget h n)[l] else 0

/-- Lane l of vector register n written, with good parity: a write to v0 is discarded (R70). -/
def setLane (h : Hart) (n l : Nat) (e : Elem) : Hart :=
  if n = 0 then h
  else if p : l < 64 then
    { h with v := tput h.v n ((vget h n).set l e), vbad := h.vbad.filter fun q => q != (n, l) }
  else h

/-- Lane l of a pair read as 64 bits: the pair named v0 gives 0 (R70). -/
def vpair (h : Hart) (n l : Nat) : Word := if n = 0 then 0 else vlane h (n + 1) l ++ vlane h n l

/-- Lane l of a pair written: the pair named v0 discards the whole write (R70). -/
def setPair (h : Hart) (n l : Nat) (w : Word) : Hart :=
  if n = 0 then h else setLane (setLane h n l (w.setWidth 32)) (n + 1) l ((w >>> 32).setWidth 32)

/-- Lane l of the operand at register n, w bits wide, as a natural number (R178). -/
def velem (h : Hart) (n l w : Nat) : Nat :=
  if w = 64 then (vpair h n l).toNat else (vlane h n l).toNat % 2 ^ w

/-- A result of width w written in lane l: narrow results fill the lane element as given (R90). -/
def setElem (h : Hart) (n l w : Nat) (r : Nat) : Hart :=
  if w = 64 then setPair h n l (BitVec.ofNat 64 r) else setLane h n l (BitVec.ofNat 32 r)

/-- tm register r. -/
def rtm (h : Hart) (r : MR) : TMap := h.tm[r.toNat]'r.isLt

/-- tm register r written. -/
def wtm (h : Hart) (r : MR) (t : TMap) : Hart := { h with tm := h.tm.set r.toNat t r.isLt }

/-- The hart in a slot. -/
def hartAt (s : State) (k : Nat) : Option Hart := tget s.harts k

/-- The state with hart h in slot k. -/
def setHart (s : State) (k : Nat) (h : Hart) : State := { s with harts := tput s.harts k h }

/-- The hart of slot k changed by f. -/
def updHart (s : State) (k : Nat) (f : Hart → Hart) : State := { s with harts := tupd s.harts k f }

/-- The slot of the hart with a uid. -/
def slotOfUid (s : State) (uid : Nat) : Option Nat := (s.harts.find? fun p => p.2.id.uid == uid).map (·.1)

/-- The slot of a hart, resident or saved. -/
def slotAny (s : State) (uid : Nat) : Option Nat :=
  match slotOfUid s uid with
  | some k => some k
  | none => (tget s.work.saves uid).map (·.slot)

/-- The hart with a uid changed by f, resident or saved: what comes for a captured hart goes into its record (R139, R176). -/
def updUid (s : State) (uid : Nat) (f : Hart → Hart) : State :=
  { s with
    harts := s.harts.map fun p => if p.2.id.uid = uid then (p.1, f p.2) else p,
    work := { s.work with saves := tupd s.work.saves uid fun z => { z with hart := f z.hart } } }

/-- The hart with a uid, resident or saved. -/
def hartOfUid (s : State) (uid : Nat) : Option Hart :=
  match s.harts.find? fun p => p.2.id.uid == uid with
  | some p => some p.2
  | none => (tget s.work.saves uid).map fun z => z.hart

/-- Core, quadrant, slot within the quadrant, die, X and Y of a slot number (R13, R108). -/
def coreOfSlot (k : Nat) : Nat := k / 256
def quadOfSlot (k : Nat) : Nat := k / 64 % 4
def slotInQuad (k : Nat) : Nat := k % 64
def dieOfCore (c : Nat) : Nat := c / 48
def dieOfSlot (k : Nat) : Nat := dieOfCore (coreOfSlot k)
def xOfCore (c : Nat) : Nat := c % 6
def yOfCore (c : Nat) : Nat := c % 48 / 6

/-- The clk of a die's cores: one a tick at 1.8 GHz, fewer where the power controller has lowered its clock (R33, R441). -/
def dieClk (s : State) (d : Nat) : Nat := s.clock.clk - (tgetD s.plat.slow d (0, 0)).1
def coreClk (s : State) (c : Nat) : Nat := dieClk s (dieOfCore c)
def slotClk (s : State) (k : Nat) : Nat := dieClk s (dieOfSlot k)

/-- The linear core number of (die, x, y) (R13). -/
def coreNumber (die x y : Nat) : Nat := die * 48 + y * 6 + x

/-- hwhere of a slot (R105). -/
def hwhereOf (k : Nat) (handler : Bool) : Nat :=
  slotInQuad k + quadOfSlot k * 2 ^ 6 + coreOfSlot k * 2 ^ 8 + dieOfSlot k * 2 ^ 16 + xOfCore (coreOfSlot k) * 2 ^ 20
    + yOfCore (coreOfSlot k) * 2 ^ 24 + b2n handler * 2 ^ 27

/-- The slot that the SLOT, QUAD, DIE, X and Y fields of a hwhere layout name (R105). -/
def slotOfHwhere (w : Nat) : Nat :=
  coreNumber (bitsOf w 16 2) (bitsOf w 20 3) (bitsOf w 24 3) * 256 + bitsOf w 6 2 * 64 + bitsOf w 0 6

/-- The core that the DIE, X and Y fields of a hwhere layout name. -/
def coreOfHwhere (w : Nat) : Nat := coreNumber (bitsOf w 16 2) (bitsOf w 20 3) (bitsOf w 24 3)

/-- A core holding nothing. -/
def blankCore : Core :=
  { tstat := [], l1 := [], icache := [], dcache := [], monitors := [], mdq := [], keep := [], arrayPipe := [],
    port := none, arrayFree := 0, oryxFree := 0, copies := [], hq := [], away := [], winVac := [], winLoad := [], steering := [] }

/-- The code of the narrowest scope that covers two cores (R42, R56): team, die or device. -/
def coverScope (a b : Nat) : Nat := if a = b then 0 else if dieOfCore a = dieOfCore b then 1 else 2

/-- Core c. -/
def coreAt (s : State) (c : Nat) : Core := tgetD s.cores c blankCore

/-- The state with core c changed by f. -/
def updCore (s : State) (c : Nat) (f : Core → Core) : State := { s with cores := tput s.cores c (f (coreAt s c)) }

/-- Machine CSRs of a slot before boot: the read-only ones of R109, the rest 0 (log 5). -/
def mcsrReset : MCsr :=
  { mtvec := 0, mscratch := 0, mepc := 0, mcause := 0, mtval := 0, medeleg := 0xFF000000, mideleg := 0x3F0000,
    mcounteren := 0, menvcfg := 0, mcountinhibit := 0, mcycleOff := 0 }

/-- Machine CSRs of a slot after boot: the delegations that the firmware sets (R109), and the counters of Zicntr left to S-mode (log 5). -/
def mcsrBoot : MCsr := { mcsrReset with medeleg := 0xFF00B1FF, mideleg := 0x3F0002, mcounteren := 7 }

/-- Machine CSRs of a slot. -/
def mcsrOf (s : State) (k : Nat) : MCsr := tgetD s.mcsrs k (if s.booted then mcsrBoot else mcsrReset)

/-- A context; one that no write of satp has touched has satp 0 (log 5). -/
def ctxOf (s : State) (asid : Nat) : Ctx :=
  tgetD s.work.ctxs asid { satp := 0, hold := false }

/-- The state with a context changed by f. -/
def updCtx (s : State) (asid : Nat) (f : Ctx → Ctx) : State :=
  { s with work := { s.work with ctxs := tput s.work.ctxs asid (f (ctxOf s asid)) } }

/-- A team, a grid and an account changed by f. -/
def updTeam (s : State) (t : Nat) (f : Team → Team) : State :=
  { s with work := { s.work with teams := tupd s.work.teams t f } }
def updGrid (s : State) (g : Nat) (f : Grid → Grid) : State :=
  { s with work := { s.work with grids := tupd s.work.grids g f } }
def updAcct (s : State) (a : Nat) (f : Acct → Acct) : State :=
  { s with work := { s.work with accts := tupd s.work.accts a f } }

/-- The team of a hart; a handler hart has none. -/
def teamOf (s : State) (h : Hart) : Option Team := if h.id.handler then none else tget s.work.teams h.id.team

/-- The bits of mstatus (privileged architecture, R107). -/
def msSIE : Nat := 1
def msMIE : Nat := 3
def msSPIE : Nat := 5
def msMPIE : Nat := 7
def msSPP : Nat := 8
def msMPP : Nat := 11
def msMPRV : Nat := 17
def msSUM : Nat := 18
def msMXR : Nat := 19
def msTVM : Nat := 20
def msTSR : Nat := 22

/-- Bit n of a word. -/
def wbit (w : Word) (n : Nat) : Bool := w.getLsbD n

/-- The word with bit n set to b. -/
def setBit (w : Word) (n : Nat) (b : Bool) : Word :=
  if b then w ||| BitVec.ofNat 64 (1 <<< n) else w &&& ~~~ (BitVec.ofNat 64 (1 <<< n))

/-- The word with the two bits at n set to v. -/
def set2 (w : Word) (n v : Nat) : Word := setBit (setBit w n (v.testBit 0)) (n + 1) (v.testBit 1)

/-- The code of a mode in MPP. -/
def modeCode : Mode → Nat
  | .u => 0 | .s => 1 | .m => 3

/-- The mode of an MPP code; 2 is never held. -/
def modeOfCode (c : Nat) : Mode := if c = 0 then .u else if c = 1 then .s else .m

/-- mstatus after reset: UXL and SXL read 2, every other bit 0 (log 5). -/
def mstatusReset : Word := 0x0000000A00000000

/-- Where a trap vector sends a trap: base, plus 4 × cause for an interrupt in vectored mode (R107). -/
def vectorPc (tvec : Word) (cause : Nat) (interrupt : Bool) : Word :=
  let base := tvec &&& ~~~ 3
  if interrupt ∧ tvec &&& 3 = 1 then base + BitVec.ofNat 64 (4 * cause) else base

/-- xcause: the interrupt bit and the cause. -/
def causeWord (cause : Nat) (interrupt : Bool) : Word := setBit (BitVec.ofNat 64 cause) 63 interrupt

/-- A trap taken to S-mode: sepc, scause, stval, SPIE, SIE, SPP, mode and pc (R109, privileged architecture). -/
def trapToS (h : Hart) (cause : Nat) (interrupt : Bool) (tval epc : Word) : Hart :=
  let st := h.s.mstatus
  let st := setBit (setBit (setBit st msSPIE (wbit st msSIE)) msSIE false) msSPP (h.mode == .s)
  { h with
    s := { h.s with mstatus := st, sepc := epc, scause := causeWord cause interrupt, stval := tval },
    mode := .s, pc := vectorPc h.s.stvec cause interrupt }

/-- A trap taken to M-mode: the hart's half (mode, mstatus, pc). -/
def trapToM (h : Hart) (c : MCsr) (cause : Nat) (interrupt : Bool) : Hart :=
  let st := h.s.mstatus
  let st := set2 (setBit (setBit st msMPIE (wbit st msMIE)) msMIE false) msMPP (modeCode h.mode)
  { h with s := { h.s with mstatus := st }, mode := .m, pc := vectorPc c.mtvec cause interrupt }

/-- Taking any trap closes an open basting region; entries of the region lie outside it from then on (R162). -/
def closeRegion (h : Hart) : Hart :=
  { h with snap := none, ring := h.ring.map fun p => (p.1, { p.2 with region := false }) }

/-- The reservation of hart `uid` removed from the tables that hold reservations. -/
def delResv (s : State) (uid : Nat) : State :=
  { s with mem := { s.mem with
      resvHome := s.mem.resvHome.map (fun p => (p.1, p.2.filter fun r => r.uid != uid)),
      resvStore := s.mem.resvStore.map (fun p => (p.1, p.2.filter fun r => r.uid != uid)) } }

/-- The reservation of a hart: the table of its home or team store decides whether it still stands (R297). -/
def resvOf (s : State) (h : Hart) : Option (Nat × ResvAt) :=
  match h.resv with
  | none => none
  | some (line, at_) =>
    let tbl := match at_ with
      | .home md => tgetD s.mem.resvHome md []
      | .store core => tgetD s.mem.resvStore core []
    if tbl.any fun r => r.uid == h.id.uid && r.line == line then some (line, at_) else none

/-- A hart loses its reservation by anything but its own SC: the entry goes and a wake notice is sent (R297, R298). -/
def loseResv (s : State) (h : Hart) : State :=
  match resvOf s h with
  | none => s
  | some (line, _) =>
    let s := delResv s h.id.uid
    { s with mem := { s.mem with wakes := s.mem.wakes ++ [⟨h.id.uid, line⟩] } }

/-- The machine CSRs of a slot changed. -/
def updMcsr (s : State) (k : Nat) (f : MCsr → MCsr) : State := { s with mcsrs := tput s.mcsrs k (f (mcsrOf s k)) }

/-- What every trap ends in a hart: its wait, its basting region, its reservation, a load in pieces, and loads performed ahead. -/
def trapping (h : Hart) : Hart := { closeRegion h with wait := none, resv := none, parts := [], ahead := [] }

/-- The trap goes to S-mode: the hart is below M-mode and the slot delegates the cause (R109). -/
def goesToS (c : MCsr) (h : Hart) (cause : Nat) (interrupt : Bool) : Bool :=
  h.mode != .m && wbit (if interrupt then c.mideleg else c.medeleg) cause

/-- TAKING A TRAP (R109, R110, R162, R297): the destination mode by the delegation registers, the saved pc, cause, value
and status, the mode and the pc; the wait ends, the basting region closes, the reservation is lost. -/
def takeTrap (s : State) (k : Nat) (h : Hart) (cause : Nat) (interrupt : Bool) (tval epc : Word) : State :=
  let c := mcsrOf s k
  let s := loseResv s h
  if goesToS c h cause interrupt then setHart s k (trapToS (trapping h) cause interrupt tval epc)
  else updMcsr (setHart s k (trapToM (trapping h) c cause interrupt)) k fun c =>
    { c with mepc := epc, mcause := causeWord cause interrupt, mtval := tval }

/-- An exception of the instruction at pc (R110). -/
def trapAt (s : State) (k : Nat) (h : Hart) (cause : Nat) (tval : Word) : State :=
  takeTrap s k h cause false tval h.pc

/-- An illegal instruction: cause 2 with the instruction bits (R63). -/
def illegal (s : State) (k : Nat) (h : Hart) (i : Instr) : State := trapAt s k h 2 (instrBits i)

/-- MRET's effect on the hart (R109, privileged architecture). -/
def mretHart (h : Hart) (c : MCsr) : Hart :=
  let st := h.s.mstatus
  let to_ := modeOfCode (st.toNat / 2 ^ msMPP % 4)
  let st := set2 (setBit (setBit st msMIE (wbit st msMPIE)) msMPIE true) msMPP 0
  let st := if to_ = .m then st else setBit st msMPRV false
  { h with s := { h.s with mstatus := st }, mode := to_, pc := c.mepc }

/-- SRET's effect on the hart (R109, privileged architecture). -/
def sretHart (h : Hart) : Hart :=
  let st := h.s.mstatus
  let to_ : Mode := if wbit st msSPP then .s else .u
  let st := setBit (setBit (setBit st msSIE (wbit st msSPIE)) msSPIE true) msSPP false
  { h with s := { h.s with mstatus := setBit st msMPRV false }, mode := to_, pc := h.s.sepc }

/-- One more instruction retired, unless the counter is inhibited (R107). -/
def retire (s : State) (k : Nat) (h : Hart) : Hart :=
  if wbit (mcsrOf s k).mcountinhibit 2 then h else { h with s := { h.s with instret := h.s.instret + 1 } }

/-- The hart after an instruction of n bytes. -/
def adv (s : State) (k : Nat) (h : Hart) (n : Nat) : Hart := { retire s k h with pc := h.pc + BitVec.ofNat 64 n }

/-- The hart after an instruction that transfers control to pc t. -/
def jumpTo (s : State) (k : Nat) (h : Hart) (t : Word) : Hart := { retire s k h with pc := t }

/-- The pending interrupts: 16 is pending while EVENT is not 0 (R111, R284). -/
def effMip (h : Hart) : Word := setBit h.s.mip 16 (h.msg.event != 0)

/-- hstat.HELD: the ring holds an entry in state HELD (R105). -/
def anyHeld (h : Hart) : Bool := h.ring.any fun p => p.2.st == .held

/-- The ring holds an entry in state PARKED (R113). -/
def anyParked (h : Hart) : Bool := h.ring.any fun p => p.2.st == .parked

/-- The entry with sequence number q, if the slot still holds it (R133). -/
def entryAt (h : Hart) (q : Nat) : Option Entry :=
  match tget h.ring (q % 64) with
  | some e => if e.seq = q then some e else none
  | none => none

/-- The entry of sequence number q changed by f. -/
def updEntry (h : Hart) (q : Nat) (f : Entry → Entry) : Hart := { h with ring := tupd h.ring (q % 64) f }

/-- Entry a comes before entry b in the order of the hart's forwarded instructions; a replay by `frrep` stands where the `frrep` does
(R157). -/
def before (a b : Entry) : Bool := a.pos < b.pos

/-- The ring's entries, oldest first. -/
def ringOldest (h : Hart) : List Entry :=
  (List.range 64).filterMap fun j => entryAt h ((h.l.nseq + 65536 - 64 + j) % 65536)

/-- The outcome of a hart instruction in the slot `cur`: it needs a hart there. -/
def withHart (s : State) (f : Nat → Hart → State) : Host.Outcome State Fault Refusal :=
  match hartAt s s.cur with
  | none => .fault .noHart
  | some h => .next (f s.cur h)

/-- The outcome of a step of another agent. -/
def stepOf (s : State) : Host.Outcome State Fault Refusal := .next s

/-- A fresh name for a hart, a request or a message (log 3). -/
def freshUid (s : State) : Nat × State := (s.nextUid, { s with nextUid := s.nextUid + 1 })

/-- A rectangle field of TEN_RECT holds a core (R351). -/
def rectHas (rect core : Nat) : Bool :=
  let f := bitsOf rect (16 * dieOfCore core) 16
  f.testBit 12 && bitsOf f 0 3 ≤ xOfCore core && xOfCore core ≤ bitsOf f 3 3 && bitsOf f 6 3 ≤ yOfCore core && yOfCore core ≤ bitsOf f 9 3

/-- A core belongs to the sub-mesh in force of a tenant (R351). -/
def inTenant (s : State) (tenant core : Nat) : Bool := core < 192 && rectHas (tgetD s.fe.rect tenant 0) core

/-- A context has met an uncorrectable error; the management controller kills it. A second error adds nothing (R448). -/
def contextFault (s : State) (asid cause : Nat) : State :=
  if s.faulted.any fun p => p.1 == asid then s else { s with faulted := s.faulted ++ [(asid, cause)] }

end Sys2Proof.Machine
end

