-- ==== Sys2Proof/Machine/Hazard.lean ====
section
/-! DEFINITION. Which registers an instruction names, when a hart waits for an earlier forwarded instruction (R106, R117,
R135, R146, R151, R275), which registers an issued entry locks (R148, R250), and which instructions close a basting region
(R132). -/

namespace Sys2Proof.Machine

/-- The x registers a field of a 64-bit instruction names. -/
def xField (k : FieldKind) (ks : BitVec 2) (f : BitVec 8) : List XR :=
  match k with
  | .x => [xreg f]
  | .b => if ks = 1 then [xreg f] else []
  | _ => []

/-- The x registers of an integer operation. -/
def xOfInt : IntOp → List XR
  | .lui rd _ | .auipc rd _ | .jal rd _ => [rd]
  | .jalr rd a _ | .aluImm _ rd a _ | .shiftImm _ rd a _ | .addiw rd a _ | .shiftImmW _ rd a _ => [rd, a]
  | .branch _ a b _ => [a, b]
  | .alu _ rd a b | .aluW _ rd a b => [rd, a, b]

/-- The x registers that an instruction reads or writes; `bst` reads all of them for its snapshot (R117, R132). -/
def xUses (i : Instr) : List XR :=
  match i with
  | .bst => (List.range 31).map fun n => BitVec.ofNat 5 (n + 1)
  | .mrd d _ | .mcnt d _ | .mffs d _ | .mtop d => [d]
  | .mwr _ a | .hwtime a | .barSync a _ | .barArrive a _ | .frdrop a => [a]
  | .mspush _ b => [b]
  | .msrdm d a | .msrdp d a | .glaunch d a | .gwait d a | .frrd d a _ => [d, a]
  | .mswrm a b | .mswrp a b => [a, b]
  | .tmld _ a _ | .tmst _ a _ => [a]
  | .tmaddr d _ b => [d, b]
  | .scalarLoad _ rd a _ => [rd, a]
  | .scalarStore _ a b _ => [a, b]
  | .integerOp op => xOfInt op
  | .mul _ rd a b | .div _ rd a b => [rd, a, b]
  | .lr _ _ _ rd a => [rd, a]
  | .sc _ _ _ rd a b | .amo _ _ _ _ rd a b => [rd, a, b]
  | .csrAccess _ useImm _ rd a => if useImm then [rd] else [rd, a]
  | .steerWrite _ useImm rd a | .satpWrite _ useImm rd a => if useImm then [rd] else [rd, a]
  | .sfenceVma a b => [a, b]
  | .msend o => [xreg o.vd, xreg o.vs1, xreg o.vs3, xreg o.vs3 + 1]
  | .msendb o => [xreg o.vd, xreg o.vs1, xreg o.vs3, xreg o.vs3 + 1, xreg o.vs3 + 2, xreg o.vs3 + 3]
  | .msendr o => [xreg o.vs3, xreg o.vs3 + 1]
  | _ =>
    match engine? i with
    | some (sh, o) => xField sh.vd o.ks o.vd ++ xField sh.vs1 o.ks o.vs1 ++ xField sh.vs2 o.ks o.vs2 ++ xField sh.vs3 o.ks o.vs3
    | none => []

/-- The m registers that an instruction reads or writes at the hart, its predicate among them; `bst` reads all of them (R117, R132). -/
def mUses (i : Instr) : List MR :=
  match i with
  | .bst => (List.range 7).map fun n => BitVec.ofNat 3 (n + 1)
  | .mand d a b | .mor d a b | .mxor d a b | .mandn d a b => [d, a, b]
  | .mnot d a => [d, a]
  | .mrd _ a | .mcnt _ a | .mffs _ a | .mif a _ | .mwhile a _ | .mbrk a | .mspush a _ => [a]
  | .mwr d _ | .mspop d => [d]
  | _ =>
    match engine? i with
    | some (sh, o) => if sh.pred then [o.pm] else []
    | none => []

/-- The mask register that a forwarded instruction writes. -/
def mDest (i : Instr) : List MR :=
  match engine? i with
  | some (sh, o) => if sh.vd = .m then [o.vd.setWidth 3] else []
  | none => []

/-- The mask register that a lane instruction reads beside its predicate: the selector of `vsel`. -/
def mSource (i : Instr) : List MR :=
  match i with
  | .vsel o => [o.vs3.setWidth 3]
  | _ => []

/-- The entries whose work is not finished: INFLIGHT or PARKED. -/
def pendingEntries (h : Hart) : List Entry :=
  (h.ring.filter fun p => p.2.st == .inflight || p.2.st == .parked).map (·.2)

/-- An m register that a forwarded, uncompleted lane instruction is to write, or that one is still to read (R117, log 10). -/
def mBusy (h : Hart) (i : Instr) : Bool :=
  (pendingEntries h).any fun e => (mUses i).any fun r => r != 0 && ((mDest e.instr).contains r || (mSource e.instr).contains r)

/-- A lock of an x register that holds: its entry is not HELD (R157). -/
def xHeld (h : Hart) (q : Nat) : Bool := match entryAt h q with
  | some e => e.st != .held
  | none => true

/-- An x register that awaits a value of an engine (R117, R200, R246, R276). -/
def xBusy (h : Hart) (i : Instr) : Bool := (xUses i).any fun r => r != 0 && h.xlock.any fun p => p.1 == r.toNat && xHeld h p.2

/-- Accesses of memory, fences, barriers, sends and waits: what an `mrecv` that has not dequeued holds back (R275). -/
def waitsForRecv (i : Instr) : Bool :=
  match i with
  | .tmld _ _ _ | .tmst _ _ _ | .scalarLoad _ _ _ _ | .scalarStore _ _ _ _ | .lr _ _ _ _ _ | .sc _ _ _ _ _ _ | .amo _ _ _ _ _ _ _
  | .fence _ _ _ _ _ | .fenceI _ _ _ | .sfenceVma _ _ | .barSync _ _ | .barArrive _ _ | .barWait _ | .hwmsg | .hwtime _ | .hdrain _
  | .gwait _ _ | .glaunch _ _ | .wfi | .wrsNto | .wrsSto | .hexit | .hret | .msend _ | .msendb _ | .msendr _ => true
  | _ =>
    match engine? i with
    | some (sh, _) => sh.grp == 0 || sh.grp == 1 || sh.grp == 9 || sh.grp == 0x0A || sh.grp == 0x0B || sh.grp == 0x0D
    | none => false

/-- An `mrecv` of the hart has not dequeued yet. -/
def recvPending (h : Hart) : Bool :=
  h.ring.any fun p => p.2.st == .inflight && match p.2.instr with
    | .mrecv _ => true
    | _ => false

/-- The hart holds back an instruction behind an earlier forwarded one (R117, R275), or awaits a reply (R139). -/
def hazard (h : Hart) (i : Instr) : Bool := mBusy h i || xBusy h i || (recvPending h && waitsForRecv i) || h.pend.isSome

/-- An element instruction of the lane engine that accesses memory (R150): not `vpf`, not `vfence` (R174). -/
def isLaneMem (i : Instr) : Bool :=
  match engine? i with
  | some (sh, _) => sh.grp == 0 || (sh.grp == 1 && sh.opc < 0x10)
  | none => false

/-- The writers of R150, with `tst` (R251). -/
def isLaneWriter (i : Instr) : Bool :=
  match i with
  | .vst _ | .vsts _ | .vstg _ | .vstt _ | .vstf _ | .vcst _ | .vamo _ | .vamoAq _ | .vamoRl _ | .vamoAqrl _ | .tst _ => true
  | _ => false

/-- What R150 and R151 wait for: lane memory instructions, with `tst` and `tld` (R251). -/
def isOrderedMem (i : Instr) : Bool :=
  isLaneMem i || match i with
    | .tst _ | .tld _ => true
    | _ => false

/-- A forwarded copy that is not finished names a tm register, which it locks (R213). -/
def tmLocked (h : Hart) (d : MR) : Bool :=
  (pendingEntries h).any fun e => match e.instr with
    | .cpgs o | .cpsg o | .cpmc o => o.vs3.setWidth 3 == d
    | _ => false

/-- A lane store that has handed over every element: only acknowledgements of other cores' windows are to come (R150, R282). -/
def handedOver (e : Entry) : Bool := e.eng == .lane && e.st == .inflight && e.stage == .sent

/-- A lane memory instruction forwarded before is not past its fault points (R151). -/
def memPending (h : Hart) : Bool := (pendingEntries h).any fun e => isOrderedMem e.instr && !handedOver e

/-- The matrix instructions that write a tile: each counts as a store to the tile's bytes, which performs when it is DONE (R251). -/
def isTileWriter (i : Instr) : Bool :=
  match i with
  | .tzero _ | .mma _ | .mmasp _ | .mmabk _ | .tmovt _ | .tld _ => true
  | _ => false

/-- A tile write forwarded before is not done: loads through a tile export window wait (R45, R55, R251). -/
def tileWritePending (h : Hart) : Bool := (pendingEntries h).any fun e => isTileWriter e.instr

/-- A lane or matrix access forwarded before an entry has not performed; a tile drain that is sent does not count (R46, R172, R175). -/
def olderAccess (h : Hart) (e : Entry) : Bool :=
  (pendingEntries h).any fun f => before f e && (f.eng == .lane || f.eng == .matrix) && f.stage != .sent

/-- A lane writer forwarded before has not handed over its writes (R45). -/
def writerPending (h : Hart) : Bool := (pendingEntries h).any fun e => isLaneWriter e.instr && !handedOver e

/-- The lane queue is drained: no forwarded lane or matrix instruction is unfinished (R46); tile drains that are sent do
not count. -/
def laneDrained (h : Hart) : Bool :=
  !(pendingEntries h).any fun e => (e.eng == .lane || e.eng == .matrix) && e.stage != .sent

/-- The vector registers an entry locks once it has issued (R148, R250). Matrix sources are locked until the engine has
read them. -/
def lockSpans (e : Entry) : List RegSpan :=
  match engine? e.instr with
  | none => []
  | some (sh, o) =>
    if sh.grp = 0x0A then
      (match e.instr with
       | .tmovv _ => vdSpans sh o
       | _ => if e.stage = .dispatched then srcSpans sh o else [])
    else if isLaneMem e.instr then vdSpans sh o ++ srcSpans sh o
    else vdSpans sh o

/-- Every vector register an entry reads or writes. -/
def useSpans (e : Entry) : List RegSpan :=
  match engine? e.instr with
  | none => []
  | some (sh, o) => vdSpans sh o ++ srcSpans sh o

/-- Two register runs share a register. -/
def spansMeet (a b : RegSpan) : Bool := a.reg < b.reg + b.cnt && b.reg < a.reg + a.cnt

/-- The entry has not left its queue: it has not been taken up, or its refetch comes first (R145, R159). -/
def inQueue (e : Entry) : Bool := e.stage == .queued || e.stage == .refetch

/-- An issued, unfinished entry older than e locks a register that e uses: a vector register or a mask register. -/
def lockedFor (h : Hart) (e : Entry) : Bool :=
  h.ring.any fun p =>
    let f := p.2
    f.seq != e.seq && before f e && (f.st == .inflight || f.st == .parked) && !inQueue f &&
    ((lockSpans f).any (fun a => (useSpans e).any (spansMeet a)) ||
     (mDest f.instr).any fun r => r != 0 && ((mDest e.instr).contains r || (mSource e.instr).contains r))

/-- The instructions that close an open basting region before they have any effect (R132). -/
def closesRegion (i : Instr) : Bool :=
  match i with
  | .scalarStore _ _ _ _ | .amo _ _ _ _ _ _ _ | .sc _ _ _ _ _ _ | .tmst _ _ _ | .glaunch _ _ | .hexit | .hret | .hyield => true
  | .xamo _ | .xamoAq _ | .xamoRl _ | .xamoAqrl _ => true
  | .steerWrite _ _ _ _ | .satpWrite _ _ _ _ => true
  | .csrAccess op _ _ _ src => csrWrites op src
  | .vst _ | .vsts _ | .vstg _ | .vstt _ | .vstf _ | .vcst _ | .vamo _ | .vamoAq _ | .vamoRl _ | .vamoAqrl _ => true
  | .cpgs _ | .cpsg _ | .cpgg _ | .cpmc _ | .cpfill _ | .cpadd _ => true
  | .tst _ | .tdrain _ | .msend _ | .msendb _ | .msendr _ | .mrecv _ => true
  | .mma _ | .mmasp _ | .mmabk _ | .tzero _ | .tmovt _ | .tld _ => true
  | _ => false

/-- A steering write of the hart of a slot is waiting on its core for the datapaths of some quadrants to drain: they start nothing
(R143). -/
def steerStops (s : State) (k : Nat) : Bool :=
  (tgetD s.cores (coreOfSlot k) blankCore).steering.any fun w => w.quads.contains (quadOfSlot k) &&
    match hartAt s w.slot with
    | some h => h.id.uid == w.uid && h.pc == w.pc && h.mode == .m
    | none => false

/-- Every instruction forwarded in the open region has passed its parity checks: none still queued (R132). -/
def regionChecked (h : Hart) : Bool :=
  !(pendingEntries h).any fun e => e.region && inQueue e

/-- A pending interrupt that ends a wait: one whose enable bit is set (R121). -/
def wakePending (h : Hart) : Bool := (effMip h &&& h.s.mie) != 0

/-- An entry that a restore or `frrep` re-forwards has not been fetched again (R159): the hart does that before it fetches at its pc (R176). -/
def reforwarding (h : Hart) : Bool := h.ring.any fun p => p.2.st == .inflight && p.2.stage == .refetch

/-- A hart is ready for the scalar arbiter (R135), apart from the waits that its next instruction makes. -/
def ready (s : State) (k : Nat) (h : Hart) : Bool :=
  !h.halted && h.wait.isNone && h.pend.isNone && !anyParked h && !reforwarding h && !h.ending && h.notReady ≤ slotClk s k

end Sys2Proof.Machine
end

