-- ==== Sys2Proof/Machine/Arbiter.lean ====
section
/-! DEFINITION. The order in which every point of contention serves its candidates (R28, R228, R396, R397): Ibex by deadline, Kudu by
weighted levels, Oryx by level with its share of one pick in 64, and a rotating pointer among equals. -/

namespace Sys2Proof.Machine

/-- A candidate at a point: what it is known by there, its class, deadline and level. -/
structure Cand where
  key : Nat
  cls : Nat
  dline : Nat
  level : Nat
deriving DecidableEq, Repr

/-- The points (R396): the scalar arbiter and the lane arbiter of a quadrant, the offer of its matrix dispatch queue, the array and the tile
port of a core, its copy engine, its send service, its handler queue, placement, and the general thread of the front end. -/
inductive Point where
  | scalar (quad : Nat) | lane (quad : Nat) | offer (quad : Nat) | array (core : Nat) | port (core : Nat) | copy (core : Nat)
  | send (core : Nat) | handler (core : Nat) | placement | thread
deriving DecidableEq, Repr

/-- The number of a point in the table of arbiters. -/
def Point.num : Point → Nat
  | .scalar q => q | .lane q => 2 ^ 16 + q | .offer q => 2 * 2 ^ 16 + q | .array c => 3 * 2 ^ 16 + c | .port c => 4 * 2 ^ 16 + c
  | .copy c => 5 * 2 ^ 16 + c | .send c => 6 * 2 ^ 16 + c | .handler c => 7 * 2 ^ 16 + c | .placement => 8 * 2 ^ 16 | .thread => 9 * 2 ^ 16

/-- An arbiter that has picked nothing yet. -/
def freshArb : Arb := { lasts := [], place := 0, since := 0 }
def arbAt (s : State) (p : Point) : Arb := tgetD s.arbs p.num freshArb

/-- SCH_KW (R397, R422): the weight of a Kudu level. -/
def rSchKw : Nat := 0x190008
def kuduWeight (s : State) (lvl : Nat) : Nat := bitsOf (tgetD s.regs rSchKw 0x01020408) (8 * lvl) 8

/-- One place of the weighted sequence: every level gains its weight, and the level with the most, the lower on a tie, takes the place and
pays the sum (log 103). -/
def placeOne (w : List Nat) (c : List Int) : Nat × List Int :=
  let c := (c.zip w).map fun p => p.1 + (p.2 : Int)
  let k := (List.range c.length).foldl (fun b j => if c.getD j 0 > c.getD b 0 then j else b) 0
  (k, c.set k (c.getD k 0 - (w.foldl (· + ·) 0 : Nat)))

/-- n places of the sequence. -/
def placesFrom (w : List Nat) : Nat → List Int → List Nat
  | 0, _ => []
  | n + 1, c => let p := placeOne w c; p.1 :: placesFrom w n p.2

/-- The repeating sequence of Kudu levels: w_k places of each, spread evenly (R397). -/
def kuduPlaces (w : List Nat) : List Nat := placesFrom w (w.foldl (· + ·) 0) (w.map fun _ => 0)

/-- The least of a list of numbers, or d. -/
def leastOf (d : Nat) (l : List Nat) : Nat := match l with
  | [] => d
  | a :: l => l.foldl min a

/-- The group of a candidate, of which a pointer goes round: Ibex, a Kudu level, an Oryx level (R28, R134). -/
def Cand.group (c : Cand) : Nat := if c.cls == 0 then 0 else if c.cls == 1 then 8 + c.level else 16 + c.level

/-- The arbiter after a pick: the pointer of the candidate's group stands at it. A pointer that has not moved stands past every key. -/
def Arb.moved (a : Arb) (c : Cand) : Arb := { a with lasts := tput a.lasts c.group c.key }
def Arb.pointer (a : Arb) (group : Nat) : Nat := tgetD a.lasts group (2 ^ 40)

/-- The candidate with the first key after the last one picked, round the keys (R134). -/
def rotating (last : Nat) (cs : List Cand) : Option Cand :=
  let past := cs.filter fun c => c.key > last
  let from_ := if past.isEmpty then cs else past
  from_.find? fun c => c.key == leastOf 0 (from_.map (·.key))

/-- The Kudu level served next and the place after it: the next place of the sequence whose level has a candidate; levels of weight 0 only when
no other level has one, the lowest first (R397). -/
def kuduNext (w : List Nat) (place : Nat) (cs : List Cand) : Nat × Nat :=
  let seq := kuduPlaces w
  let has (l : Nat) : Bool := cs.any fun c => c.level == l
  let order := (List.range seq.length).map fun j => (place + j) % seq.length
  match order.find? fun j => has (seq.getD j 0) with
  | some j => (seq.getD j 0, (j + 1) % seq.length)
  | none => (leastOf 0 (cs.map (·.level)), place)

/-- THE PICK of an arbiter among its candidates, and the arbiter after it (R28, R134, R397). -/
def pickOf (w : List Nat) (a : Arb) (cs : List Cand) : Option (Cand × Arb) :=
  let ibex := cs.filter fun c => c.cls == 0
  let kudu := cs.filter fun c => c.cls == 1
  let oryx := cs.filter fun c => c.cls != 0 && c.cls != 1
  if !ibex.isEmpty then
    let d := leastOf 0 (ibex.map (·.dline))
    (rotating (a.pointer 0) (ibex.filter fun c => c.dline == d)).map fun c => (c, a.moved c)
  else if !oryx.isEmpty && (kudu.isEmpty || a.since ≥ 63) then
    let l := leastOf 0 (oryx.map (·.level))
    (rotating (a.pointer (16 + l)) (oryx.filter fun c => c.level == l)).map fun c => (c, { a.moved c with since := 0 })
  else
    let n := kuduNext w a.place kudu
    (rotating (a.pointer (8 + n.1)) (kudu.filter fun c => c.level == n.1)).map fun c => (c, { a.moved c with place := n.2, since := min 63 (a.since + 1) })

/-- The weights of the four Kudu levels. -/
def kuduWeights (s : State) : List Nat := (List.range 4).map (kuduWeight s)

/-- The point picks this candidate among the others that wait there. -/
def picks (s : State) (p : Point) (me : Cand) (others : List Cand) : Bool :=
  others.isEmpty || (match pickOf (kuduWeights s) (arbAt s p) (me :: others) with
    | some q => q.1.key == me.key
    | none => false)

/-- The point has picked this candidate. -/
def notePick (s : State) (p : Point) (me : Cand) (others : List Cand) : State :=
  match pickOf (kuduWeights s) (arbAt s p) (me :: others) with
  | some q => { s with arbs := tput s.arbs p.num q.2 }
  | none => s

/-- A point without a pointer, where equals go in order of their keys: the pick does not depend on the last one. -/
def picksInOrder (s : State) (p : Point) (me : Cand) (others : List Cand) : Bool :=
  others.isEmpty || (match pickOf (kuduWeights s) { arbAt s p with lasts := [] } (me :: others) with
    | some q => q.1.key == me.key
    | none => false)

/-- A hart as a candidate. -/
def hartCand (key : Nat) (h : Hart) : Cand := { key := key, cls := h.id.cls, dline := h.id.dline.toNat, level := h.id.level }

end Sys2Proof.Machine
end

