-- ==== Sys2Proof/Machine/Homes.lean ====
section
/-! DEFINITION. HBM as agents see it: homing (R38, R39), the copies that RDCs hold, what a read returns and when the home
answers it (R49, R289 to R291), a hart's own stores in flight (R37), and requests pushed to the homes. The home MSC and the
HBM behind it show one value, `mem.hbm`; which lines the MSC holds says which reads reach the stack (R306). -/

namespace Sys2Proof.Machine

/-- The first address past HBM (R38). -/
def hbmEnd : Nat := 0x6000000000

/-- The line of an address. -/
def lineOf (pa : Nat) : Nat := pa / 128

/-- The parity of the bits of n that the list names. -/
def parityOf (n : Nat) (l : List Nat) : Nat := (l.foldl (fun a b => a + b2n (n.testBit b)) 0) % 2

/-- The home memory die of an HBM address (R39). -/
def homeOf (pa : Nat) : Nat :=
  parityOf pa [11, 14, 17, 20, 23, 26, 29, 32, 35, 38] + 2 * parityOf pa [12, 15, 18, 21, 24, 27, 30, 33, 36]
    + 4 * parityOf pa [13, 16, 19, 22, 25, 28, 31, 34, 37]

/-- The offset of an HBM address in its stack (R39). -/
def stackOffset (pa : Nat) : Nat := bitsOf pa 14 25 * 2 ^ 11 + pa % 2 ^ 11

/-- The HBM address of a stack offset of a memory die: the inverse of R39. -/
def paOfStack (md off : Nat) : Nat :=
  let hi := off / 2 ^ 11 * 2 ^ 14
  let h := homeOf hi
  hi + (Nat.xor h md) * 2 ^ 11 + off % 2 ^ 11

/-- The key of a die's copy of a line. -/
def rdcKey (die line : Nat) : Nat := die * 2 ^ 40 + line

/-- A die's copy of a line. -/
def rdcAt (s : State) (die line : Nat) : Option RdcLine := tget s.mem.rdc (rdcKey die line)

/-- The memory system changed by f. -/
def updMem (s : State) (f : MemSys → MemSys) : State := { s with mem := f s.mem }

/-- The lines that the RDCs of a die (32 slices of 1.5 MiB), the MSC of a memory die, and the lane L1, the instruction cache and the hart data cache
of a core hold (R12, R19). -/
def rdcLines : Nat := 32 * 12288
def mscLines : Nat := 262144
def laneL1Lines : Nat := 2048
def icacheLines : Nat := 1024
def dcacheLines : Nat := 512

/-- A line enters the MSC of its memory die; a full one gives up its oldest line (log 102). -/
def touchMsc (m : MemSys) (line : Nat) : MemSys :=
  if m.msc.contains line then m
  else
    let mine := m.msc.filter fun l => homeOf (l * 128) == homeOf (line * 128)
    { m with msc := (if mine.length ≥ mscLines then m.msc.erase (mine.headD line) else m.msc) ++ [line] }

/-- Lines read or written by a scalar access enter the hart data cache of the core (R36); a full one gives up its oldest. -/
def noteDcache (s : State) (core : Nat) (lines : List Nat) : State :=
  updCore s core fun c => lines.foldl (fun c l =>
    if c.dcache.contains l then c else { c with dcache := (if c.dcache.length ≥ dcacheLines then c.dcache.drop 1 else c.dcache) ++ [l] }) c

/-- The hart data caches of a die give up a line: they are coherent (R36). -/
def dropDcache (s : State) (die line : Nat) : State :=
  { s with cores := s.cores.map fun p => if dieOfCore p.1 == die then (p.1, { p.2 with dcache := p.2.dcache.filter (· != line) }) else p }

/-- A line put in a cache of n lines; a full one gives up a line that the model picks (DESIGN CHOICE, log 102). -/
def putLine (n : Nat) (t : Tbl (List Byte)) (key : Nat) (bs : List Byte) : Tbl (List Byte) :=
  if (tget t key).isNone && t.length ≥ n then tput (t.drop 1) key bs else tput t key bs

/-- A line leaves the RDC of a die: a dirty one is written back (R36, R290). -/
def dropRdcLine (m : MemSys) (die line : Nat) : MemSys :=
  match tget m.rdc (rdcKey die line) with
  | none => m
  | some r =>
    let m := { m with rdc := tdel m.rdc (rdcKey die line) }
    match r.dirty with
    | none => m
    | some bs => { m with wbs := m.wbs ++ [⟨die, line, bs, r.late⟩] }

/-- Room for one more line in a die's RDC: a full one gives up the line the model picks (log 102). -/
def makeRoom (m : MemSys) (die : Nat) : MemSys :=
  let mine := m.rdc.filter fun p => p.1 / 2 ^ 40 == die
  if mine.length ≥ rdcLines then (match mine with
    | [] => m
    | p :: _ => dropRdcLine m die (p.1 % 2 ^ 40)) else m

/-- A die's copy of a line, set or dropped. -/
def setRdc (s : State) (die line : Nat) (r : Option RdcLine) : State :=
  match r with
  | some r => updMem s fun m =>
    let m := if (tget m.rdc (rdcKey die line)).isNone then makeRoom m die else m
    { m with rdc := tput m.rdc (rdcKey die line) r }
  | none => dropDcache (updMem s fun m => { m with rdc := tdel m.rdc (rdcKey die line) }) die line

/-- The bytes the home holds of a line. -/
def homeLine (s : State) (line : Nat) : List Byte := rdBytes s.mem.hbm (line * 128) 128

/-- Dirty data of a line on its way home in a snoop reply. -/
def repData (line : Nat) (r : SnoopRep) : Option (List Byte) :=
  match r.ans with
  | .data bs => if r.line = line then some bs else none
  | _ => none

/-- The bytes of a line that no RDC holds: what is on its way home, else what the home holds (R290). -/
def homeNow (s : State) (line : Nat) : List Byte :=
  match s.mem.sreps.findSome? (repData line), s.mem.wbs.find? fun w => w.line == line with
  | some bs, _ => bs
  | _, some w => w.data
  | _, _ => homeLine s line

/-- The dies, of four, that hold a copy of a line. -/
def holders (s : State) (line : Nat) : List Nat := (List.range 4).filter fun d => (rdcAt s d line).isSome

/-- The die that owns a line dirty (R289). -/
def dirtyOwner (s : State) (line : Nat) : Option Nat :=
  (List.range 4).find? fun d => match rdcAt s d line with
    | some r => r.dirty.isSome
    | none => false

/-- The dies with a write-back of a line in transit. -/
def wbDies (s : State) (line : Nat) : List Nat := (s.mem.wbs.filter fun w => w.line == line).map (·.die)

/-- The home answers no read of the line yet: it holds a request for it (R49, R289), or a write-back is on its way. -/
def homeBlocked (s : State) (line : Nat) : Bool :=
  (s.mem.busy.any fun b => lineOf b.req.pa == line) || (s.mem.wbs.any fun w => w.line == line)

/-- Other agents' reservations on a line are lost when a write to it completes at the home (R297), with a wake notice for
each (R298); monitor entries of the line on the writer's core wake as the write reaches it (R122). -/
def loseLine (s : State) (line : Nat) (writer : Nat) : State :=
  let md := homeOf (line * 128)
  let lost := ((tgetD s.mem.resvHome md []).filter fun r => r.line == line && r.uid != writer)
  let s := updMem s fun m => { m with
    resvHome := tput m.resvHome md ((tgetD m.resvHome md []).filter fun r => !(r.line == line && r.uid != writer)),
    wakes := m.wakes ++ lost.map fun r => ⟨r.uid, line⟩ }
  { s with harts := s.harts.map fun p =>
      if lost.any (fun r => r.uid == p.2.id.uid) then (p.1, { p.2 with resv := none }) else p }

/-- A write of all 128 bytes clears the line's entry in the lost-line table (R306). -/
def clearLost (s : State) (line : Nat) : State := updMem s fun m => { m with lost := m.lost.filter fun p => p.2 != line }

/-- A dirty line's data applied at the home, a write of all its bytes (R306): atomics that performed in the RDC reach the home with it
(R298). -/
def applyDirty (s : State) (line : Nat) (bs : List Byte) (late : List Nat) : State :=
  late.foldl (fun s u => loseLine s line u) (clearLost (updMem s fun m => { m with hbm := wrBytes m.hbm (line * 128) bs }) line)

/-- A dirty copy is read back into the home and stays as a clean one. -/
def recallLine (s : State) (line : Nat) : State :=
  match dirtyOwner s line with
  | none => s
  | some d =>
    match rdcAt s d line with
    | some ⟨some bs, late⟩ => setRdc (applyDirty s line bs late) d line (some ⟨none, []⟩)
    | _ => s

/-- The host may hold a line of an HDM window (R355). -/
def hostHolds (s : State) (line : Nat) : Bool := s.mem.hostHeld.any fun p => p.2 == line

/-- A line is readable by an agent: by die d < 4 through its RDC, or at the home (d = 4, the IOD, an AU, a walker). One that the host may
hold modified is read once the host has given it up (R355). -/
def lineReady (s : State) (die line : Nat) : Bool := !hostHolds s line && ((die < 4 && (rdcAt s die line).isSome) || !homeBlocked s line)

/-- The lines that n bytes from pa touch. -/
def linesOf (pa n : Nat) : List Nat := if n = 0 then [] else (List.range (lineOf (pa + n - 1) - lineOf pa + 1)).map (lineOf pa + ·)

/-- A line is among those that n bytes from pa touch. -/
def inLines (pa n line : Nat) : Bool := n != 0 && lineOf pa ≤ line && line ≤ lineOf (pa + n - 1)

/-- A read of a line by a die fills its RDC; a read at the home fills no RDC (R291). Either finds the line in the MSC or brings it there. A dirty
copy elsewhere is recalled. -/
def fillLine (s : State) (die line : Nat) : State :=
  if die < 4 then
    match rdcAt s die line with
    | some _ => s
    | none => setRdc (updMem (recallLine s line) fun m => touchMsc m line) die line (some ⟨none, []⟩)
  else updMem (recallLine s line) fun m => touchMsc m line

/-- The bytes of a line that a die sees. -/
def lineBytes (s : State) (die line : Nat) : List Byte :=
  match rdcAt s die line with
  | some ⟨some bs, _⟩ => bs
  | _ => homeNow s line

/-- n bytes from pa as a die sees them, line by line. -/
def bytesAt (s : State) (die pa : Nat) : Nat → List Byte
  | 0 => []
  | n + 1 => (lineBytes s die (lineOf pa)).getD (pa % 128) blank :: bytesAt s die (pa + 1) n

/-- Every line of the access is readable by the die. -/
def readyAll (s : State) (die pa n : Nat) : Bool := (linesOf pa n).all fun l => lineReady s die l

/-- Every line of the access filled. -/
def fillAll (s : State) (die pa n : Nat) : State := (linesOf pa n).foldl (fun s l => fillLine s die l) s

/-- Lines of the lost-line table of a memory die, by entry (R306). -/
def lostOf (s : State) (md : Nat) : List (Nat × Nat) := s.mem.lost.filter fun p => p.1 / 64 == md

/-- A line is in its die's lost-line table; an access touches such a line. -/
def isLost (s : State) (line : Nat) : Bool := (lostOf s (homeOf (line * 128))).any fun p => p.2 == line
def lostRead (s : State) (pa n : Nat) : Bool := s.mem.lost.any fun p => inLines pa n p.2 && isLost s p.2

/-- An access of a context that touches a lost line is an uncorrectable error of it (R306). -/
def lostFault (s : State) (asid pa n : Nat) : State := if lostRead s pa n then contextFault s asid 3 else s

/-- A request is a plain store. -/
def isStore (r : HomeReq) : Bool := r.kind == .store || r.kind == .homeWrite

/-- A hart's own stores that have not performed, oldest first: queued ones, after held ones not yet granted (R37, R45). -/
def ownStores (s : State) (uid : Nat) : List HomeReq :=
  ((s.mem.busy.filter fun b => b.req.uid == uid && isStore b.req && !b.granted).map (·.req)) ++
  (s.mem.homeq.filter fun r => r.uid == uid && isStore r)

/-- Bytes read, with the hart's own stores in flight laid over them. -/
def withOwn (s : State) (uid pa : Nat) (bs : List Byte) : List Byte :=
  (ownStores s uid).foldl (fun bs r => overlay pa bs r.pa r.data) bs

/-- Bytes that the hart's own stores in flight supply whole, so that no read of the home is needed. -/
def coveredByOwn (s : State) (uid pa n : Nat) : Bool :=
  (List.range n).all fun k => (ownStores s uid).any fun r => r.pa ≤ pa + k && pa + k < r.pa + r.data.length

/-- The requests whose early value (step 1 of R49) a read by the die sees: the granted stores of its own die. -/
def earlySeen (s : State) (die pa n : Nat) : List Nat :=
  (s.mem.busy.filter fun b => b.granted && b.req.die == die && (linesOf pa n).contains (lineOf b.req.pa)).map (·.req.id)

/-- n bytes of HBM read by a hart on a die: none while the home does not answer, and for a lost line. Cached reads fill the RDC;
uncached ones are made at the home, after the hart's own stores of their lines. -/
def readHbm (s : State) (die uid pa n : Nat) (cached : Bool) : Option (List Byte × List Nat × State) :=
  let d := if cached then die else 4
  if !cached && (ownStores s uid).any (fun r => (linesOf pa n).contains (lineOf r.pa)) then none
  else if cached && coveredByOwn s uid pa n then some (withOwn s uid pa (bytesAt s d pa n), [], s)
  else if readyAll s d pa n && !lostRead s pa n then
    let s' := fillAll s d pa n
    some (withOwn s' uid pa (bytesAt s' d pa n), earlySeen s' d pa n, s')
  else none

/-- n bytes of HBM read at the home by an agent of the IOD, a walker or an AU: none while the home does not answer, and for a lost
line. -/
def readHome (s : State) (pa n : Nat) : Option (List Byte × State) :=
  if readyAll s 4 pa n && !lostRead s pa n then
    let s' := fillAll s 4 pa n
    some (bytesAt s' 4 pa n, s')
  else none

/-- The agent that the device's own writes at the homes are made by. -/
def deviceUid : Nat := 2 ^ 62

/-- The home holds no earlier request of the lines, and the host none of them: an agent of the IOD may read them (R289, R355). A step whose
reading must wait for that leaves the state as it is. -/
def homeFree (s : State) (pa n : Nat) : Bool :=
  let at_ := inLines pa n
  !(s.mem.hostHeld.any fun p => at_ p.2) && !(s.mem.busy.any fun b => at_ (lineOf b.req.pa)) && !(s.mem.wbs.any fun w => at_ w.line) &&
  !(s.mem.homeq.any fun r => r.core == 255 && r.uid != deviceUid && at_ (lineOf r.pa))

/-- The bytes at the home, for a step that has found them free to read; the device's own writes that wait at the home count (R289, R355). -/
def peekHome (s : State) (pa n : Nat) : List Byte :=
  withOwn s deviceUid pa (bytesAt (fillAll s 4 pa n) 4 pa n)

/-- Every copy of the lines of an access dropped from every RDC, dirty data first going home (R291). -/
def invalidateAll (s : State) (pa n : Nat) : State :=
  (linesOf pa n).foldl (fun s l => (List.range 4).foldl (fun s d => setRdc s d l none) (recallLine s l)) s

/-- A write by a core drops the core's own copies of the line, whatever virtual line they stand under, no later than it becomes visible there
(R37). -/
def dropL1Line (s : State) (core line : Nat) : State := updCore s core fun c => { c with l1 := c.l1.filter fun p => p.1 % 2 ^ 40 != line }

/-- The key of a line in the lane L1, which is virtually tagged (R19): the address space, the virtual line and the line of HBM. -/
def l1Key (asid va line : Nat) : Nat := (asid * 2 ^ 57 + va / 128) * 2 ^ 40 + line

/-- What stands for the ASID in a request that no context makes: inbound traffic, a port's transmit ring, the scrubber. -/
def noAsid : Nat := 2 ^ 16

/-- A request pushed to its home. -/
def pushReq (s : State) (r : HomeReq) : State := updMem s fun m => { m with homeq := m.homeq ++ [r] }

/-- The bytes of an access cut at line boundaries: address and bytes of each part. -/
def splitLines (pa : Nat) (bs : List Byte) : List (Nat × List Byte) :=
  (linesOf pa bs.length).map fun l =>
    let lo := max pa (l * 128)
    let hi := min (pa + bs.length) (l * 128 + 128)
    (lo, (bs.drop (lo - pa)).take (hi - lo))

/-- Bytes laid over data of their lines that is on its way home, so that it does not undo a later write of the home (R289, R290). -/
def overTransit (m : MemSys) (pa : Nat) (bs : List Byte) : MemSys :=
  { m with
    wbs := m.wbs.map fun w => { w with data := overlay (w.line * 128) w.data pa bs },
    sreps := m.sreps.map fun r => match r.ans with
      | .data d => { r with ans := .data (overlay (r.line * 128) d pa bs) }
      | _ => r }

/-- Whole lines among n bytes from pa. -/
def wholeLines (pa n : Nat) : List Nat := (linesOf pa n).filter fun l => pa ≤ l * 128 && l * 128 + 128 ≤ pa + n

/-- A write that the home itself makes, as one step: every RDC copy goes first, then the write is visible to every agent (R291). -/
def writeAtHome (s : State) (uid pa : Nat) (bs : List Byte) : State :=
  let s := invalidateAll s pa bs.length
  let s := updMem s fun m => overTransit ((linesOf pa bs.length).foldl touchMsc { m with hbm := wrBytes m.hbm pa bs }) pa bs
  let s := (wholeLines pa bs.length).foldl clearLost s
  (linesOf pa bs.length).foldl (fun s l => loseLine s l uid) s

/-- A write of an agent must wait its turn at the home of a line: the home holds an earlier request of it (R289), the host may hold the line
(R355), or the device's own earlier writes of it wait. -/
def mustQueue (s : State) (line : Nat) : Bool :=
  hostHolds s line || homeBlocked s line || s.mem.homeq.any fun r => r.core == 255 && lineOf r.pa == line

/-- Bytes written by an agent of the IOD or an engine: the home makes the write at once, or takes it in its turn (R289, R291, R355). A write past
HBM is discarded (R364). -/
def homeWrite (s : State) (uid pa : Nat) (bs : List Byte) : State :=
  if pa + bs.length > hbmEnd then s
  else if (linesOf pa bs.length).any (mustQueue s) then
    (splitLines pa bs).foldl (fun s p =>
      let (id, s) := freshUid s
      pushReq s { id := id, die := 4, core := 255, uid := if uid = 0 then deviceUid else uid, asid := noAsid, pa := p.1, kind := .homeWrite,
                  data := p.2, reply := .none, sx := false, deps := [] }) s
  else writeAtHome s uid pa bs

/-- A write of the device on a context's behalf, in its area or its records: one of part of a lost line is an uncorrectable error of the context
and does nothing (R306). -/
def ctxWriteAs (uid : Nat) (s : State) (asid pa : Nat) (bs : List Byte) : State :=
  if (splitLines pa bs).any fun p => p.2.length < 128 && isLost s (lineOf p.1) then contextFault s asid 3 else homeWrite s uid pa bs

def ctxWrite (s : State) (asid pa : Nat) (bs : List Byte) : State := ctxWriteAs 0 s asid pa bs

/-- A hart's store handed to the memory system: one request a line (R49, R291). `deps` orders it after the requests that
a release has ordered before it (R47). -/
def pushStoreAs (lane : Bool) (s : State) (k : Nat) (h : Hart) (pa : Nat) (cached : Bool) (bs : List Byte) : State :=
  (splitLines pa bs).foldl (fun s p =>
    let (id, s) := freshUid s
    pushReq s { id := id, die := dieOfSlot k, core := coreOfSlot k, uid := h.id.uid, asid := h.id.asid, pa := p.1,
                kind := if cached then .store else .homeWrite, data := p.2, reply := .none, sx := false, deps := h.deps, lane := lane }) s

def pushStore (s : State) (k : Nat) (h : Hart) (pa : Nat) (cached : Bool) (bs : List Byte) : State := pushStoreAs false s k h pa cached bs

/-- A request is neither queued nor held. -/
def reqDone (s : State) (id : Nat) : Bool :=
  !(s.mem.homeq.any fun r => r.id == id) && !(s.mem.busy.any fun b => b.req.id == id)

/-- Every store of the hart has performed at a scope: at team or die scope when the home has granted it, at device or
system scope when it has completed (R49). -/
def storesDone (s : State) (uid : Nat) (scope : Scope) : Bool :=
  !(s.mem.homeq.any fun r => r.uid == uid) &&
  !(s.mem.busy.any fun b => b.req.uid == uid && (scope == .device || scope == .system || !b.granted)) &&
  !(s.net.wins.any fun w => w.uid == uid) && !(s.net.winReps.any fun w => w.acc.uid == uid)

/-- Every element that the hart's lane engine has handed over has performed at a scope (R175). -/
def laneStoresDone (s : State) (uid : Nat) (scope : Scope) : Bool :=
  let mine (r : HomeReq) : Bool := r.uid == uid && r.lane
  let ofLane (a : WinAcc) : Bool := a.uid == uid && match a.reply with
    | .lane _ _ _ => true
    | _ => false
  !(s.mem.homeq.any mine) && !(s.mem.busy.any fun b => mine b.req && (scope == .device || scope == .system || !b.granted)) &&
  !(s.net.wins.any ofLane) && !(s.net.winReps.any fun w => ofLane w.acc)

/-- Every store visible to the die's agents has reached step 2 of R49 (R50). -/
def dieStoresDone (s : State) (die : Nat) : Bool := !(s.mem.busy.any fun b => b.granted && b.req.die == die)

end Sys2Proof.Machine
end

