-- ==== Sys2Proof/Machine/Inbox.lean ====
section
/-! DEFINITION. Posting a message to a hart: the inbox of 16, the diversion buffer in the team record and its control
record (R272 to R274), reservations, and the EVENT bits (R284). -/

namespace Sys2Proof.Machine

/-- The diversion buffer of a team record (R138, R273). -/
def divBase (rec : Nat) : Nat := rec + 0x1000

/-- HEAD, TAIL and COUNT of a diversion buffer (R273). -/
def divHead (s : State) (rec : Nat) : Nat := leNat (peekHome s (divBase rec) 4)
def divTail (s : State) (rec : Nat) : Nat := leNat (peekHome s (divBase rec + 4) 4)
def divCount (s : State) (rec : Nat) : Nat := leNat (peekHome s (divBase rec + 8) 4)

/-- The control record of a diversion buffer may be read at its home (R289). -/
def divFree (s : State) (rec : Nat) : Bool := homeFree s (divBase rec) 32

/-- A diversion buffer of the context is not free to read: what might be diverted to it waits. -/
def divBlocked (s : State) (asid : Nat) : Bool :=
  s.work.teams.any fun p => p.2.asid == asid && p.2.stat != .ended && !divFree s p.2.recPa

/-- The context of a team. -/
def asidOfTeam (s : State) (team : Nat) : Nat := match tget s.work.teams team with
  | some t => t.asid
  | none => 0

/-- The next record number, wrapping from 2,047 to 1 (R274). -/
def divNext (n : Nat) : Nat := if n ≥ 2047 then 1 else n + 1

/-- A 32-byte record of the buffer (R273). -/
def divRecord (w0 w1 : Word) (hidx : Nat) (reserved : Bool) (scope src seq : Nat) : List Byte :=
  leBytes 8 w0.toNat ++ leBytes 8 w1.toNat ++ leBytes 1 hidx ++ leBytes 1 (1 + 2 * b2n reserved) ++ leBytes 1 scope ++
  leBytes 1 0 ++ leBytes 4 src ++ leBytes 2 seq ++ leBytes 6 0

/-- The reservations that the resident harts of a team hold. -/
def teamRsv (s : State) (team : Nat) : Nat :=
  s.harts.foldl (fun a p => if !p.2.id.handler && p.2.id.team == team then a + p.2.msg.rsv else a) 0

/-- RSV, DROP and EVENT of a captured hart follow it into its record (R285, R287). -/
def syncCounts (s : State) (uid : Nat) : State :=
  match tget s.work.saves uid with
  | none => s
  | some z =>
    let m := z.hart.msg
    let a := z.hart.id.asid
    ctxWrite (ctxWrite s a (z.pa + 0x1681) (leBytes 1 m.rsv)) a (z.pa + 0x1684) (leBytes 2 m.drop ++ leBytes 1 m.event)

/-- A hart of a team, resident or captured, changed in its counts (R272, R284); the record of a captured one follows. -/
def updCounts (s : State) (team hidx : Nat) (f : Hart → Hart) : State :=
  let hit (h : Hart) : Bool := !h.id.handler && h.id.team == team && h.id.hidx == hidx
  let s : State := { s with harts := s.harts.map fun p => (p.1, if hit p.2 then f p.2 else p.2) }
  (s.work.saves.filter fun p => hit p.2.hart).foldl (fun s p => syncCounts (updUid s p.1 f) p.1) s

/-- An EVENT bit set on the leader of a team, resident or saved (R284). -/
def leaderEvent (s : State) (team bit : Nat) : State :=
  updCounts s team 0 fun h =>
    { h with msg := { h.msg with event := Nat.lor h.msg.event (2 ^ bit) }, s := { h.s with mip := setBit h.s.mip 16 true } }

/-- A message written to a team's diversion buffer; none when it must be refused with DIVERT_FULL (R274). `rsv` is the
total of reservations held by the team's harts. A control record in a lost line is an uncorrectable error of the context (R306). -/
def divert (s : State) (team rec hidx : Nat) (m : InboxMsg) (src seq rsv : Nat) : Option State :=
  let count := divCount s rec
  let a := asidOfTeam s team
  if lostRead s (divBase rec) 32 then some (contextFault s a 3)
  else if !m.reserved && !(2047 - count > rsv) then none
  else
    let tail := max 1 (divTail s rec)
    let head := max 1 (divHead s rec)
    let s := ctxWrite s a (divBase rec + 32 * tail) (divRecord m.w0 m.w1 hidx m.reserved m.scope src seq)
    let s := ctxWrite s a (divBase rec) (leBytes 4 head ++ leBytes 4 (divNext tail) ++ leBytes 4 (count + 1))
    some (if count + 1 = 1537 then leaderEvent s team 1 else s)

/-- Posting to a resident kernel hart: to its inbox when it has room and the buffer holds no record of the hart, else to
the buffer (R274). A reservation the message fills is released as it is posted (R272). -/
def postHart (s : State) (k : Nat) (h : Hart) (m : InboxMsg) (src seq : Nat) : Option State :=
  let rel (h : Hart) : Hart := if m.reserved then { h with msg := { h.msg with rsv := h.msg.rsv - 1 } } else h
  if h.msg.inbox.length < 16 && h.msg.divRecs == 0 then
    some (setHart s k { rel h with msg := { (rel h).msg with inbox := h.msg.inbox ++ [m] } })
  else
    match tget s.work.teams h.id.team with
    | none => none
    | some t =>
      (divert s h.id.team t.recPa h.id.hidx m src seq (teamRsv s h.id.team)).map fun s =>
        updHart s k fun h => { rel h with msg := { (rel h).msg with divRecs := h.msg.divRecs + 1 } }

/-- A window store or drain of a hart was dropped: DROP counts it, EVENT bit 0 and interrupt 16 are set (R284). -/
def countDrop (h : Hart) (n : Nat) : Hart :=
  if n = 0 then h
  else { h with msg := { h.msg with drop := satAdd 65535 h.msg.drop n, event := Nat.lor h.msg.event 1 },
                s := { h.s with mip := setBit h.s.mip 16 true } }

/-- A sequence number comes before another of the hart's: fewer than 2^15 instructions lie between them. -/
def seqBefore (a b : Nat) : Bool := a != b && (b + 65536 - a) % 65536 < 32768

/-- The completion message of a copy (R224, R225). -/
def copyMessage (seq : Nat) (closed dropped : Bool) (mask bytes : Nat) (scope : Nat) : InboxMsg :=
  { w0 := BitVec.ofNat 64 (seq + 2 * 2 ^ 16 + b2n closed * 2 ^ 24 + b2n dropped * 2 ^ 25 + mask * 2 ^ 32),
    w1 := BitVec.ofNat 64 bytes, scope := scope, reserved := true }

/-- The send-queue entry that holds a message with a sequence number, freed (R266, R269). -/
def freeSend (h : Hart) (seq : Nat) : Hart :=
  { h with msg := { h.msg with sendq := h.msg.sendq.map fun q => if q.used && q.seq == seq then { q with used := false } else q } }

/-- The reservation that a drain's entry holds released (R272). -/
def releaseRsv (h : Hart) (seq : Nat) : Hart :=
  match entryAt h seq with
  | some e => if e.rsvd then { updEntry h seq (fun e => { e with rsvd := false }) with msg := { h.msg with rsv := h.msg.rsv - 1 } } else h
  | none => h

/-- A copy that `frdrop` has ended, with its message still to be posted in its turn (R224, R225). -/
def droppedJob (uid : Nat) (e : Entry) : CopyJob :=
  { uid := uid, seq := e.seq, teams := [], dropped := true, ready := false, fin := true, hostBuf := [], hostErr := none, writes := [],
    advance := 0, closed := e.closed, total := e.count }

/-- What `frdrop` ends beside the entry: a copy has its message with DROPPED to post, a send frees its queue entry and its
reservation, an instruction with an x result lets its waiters go (R225, R269, R272). -/
def dropEffect (s : State) (k : Nat) (h : Hart) (e : Entry) : State :=
  match e.instr with
  | .cpgs _ | .cpsg _ | .cpgg _ | .cpmc _ | .cpfill _ | .cpadd _ =>
    let s := setHart s k h
    if h.id.handler then s
    else updCore s (coreOfSlot k) fun c => { c with copies := c.copies ++ [droppedJob h.id.uid e] }
  | .msend _ | .msendb _ =>
    let h := freeSend h e.seq
    setHart s k (if wbit e.opa 61 then { h with msg := { h.msg with rsv := h.msg.rsv - 1 } } else h)
  | .msendr _ => setHart s k { h with msg := { h.msg with rplDue := true } }
  | .tdrain _ => setHart s k (releaseRsv h e.seq)
  | _ => setHart s k { h with xlock := h.xlock.filter fun p => p.2 != e.seq }

end Sys2Proof.Machine
end

