-- ==== Sys2Proof/Machine/Translate.lean ====
section
/-! DEFINITION. The device page table and its walk, the slices' translation caches, the checks of an access and the fault
codes (11_translation_engine R310 to R320, R323). -/

namespace Sys2Proof.Machine

/-- What an access needs of a leaf (R315). -/
inductive Acc where
  | fetch | load | store | amo
deriving DecidableEq, Repr

/-- What translating an address gives: a place, a fault code of R319 (or NONCANON 0x0003), or nothing yet. -/
inductive XRes where
  | ok (l : Loc) | fault (code : Nat) | wait
deriving DecidableEq, Repr

/-- Bits [63:47] of an address are all equal (R319). -/
def canonical (va : Word) : Bool := va.toNat / 2 ^ 47 == 0 || va.toNat / 2 ^ 47 == 2 ^ 17 - 1

/-- The slice of an address (R316). -/
def sliceOf (va : Word) : Nat :=
  (List.range 5).foldl (fun a i =>
    a + 2 ^ i * parityOf va.toNat ((List.range 7).filterMap fun j => if 16 + i + 5 * j ≤ 47 then some (16 + i + 5 * j) else none)) 0

/-- The virtual page number, VA[47:12]. -/
def vpnOf (va : Word) : Nat := va.toNat / 4096 % 2 ^ 36

/-- VPN[i] (R311). -/
def vpnIdx (vpn i : Nat) : Nat := vpn / 2 ^ (9 * i) % 512

/-- The bits of a PTE (R312). -/
def pteV (p : Nat) : Bool := p.testBit 0
def pteR (p : Nat) : Bool := p.testBit 1
def pteW (p : Nat) : Bool := p.testBit 2
def pteX (p : Nat) : Bool := p.testBit 3
def pteU (p : Nat) : Bool := p.testBit 4
def pteG (p : Nat) : Bool := p.testBit 5
def pteA (p : Nat) : Bool := p.testBit 6
def pteD (p : Nat) : Bool := p.testBit 7
def pteTgt (p : Nat) : Nat := bitsOf p 8 3
def pteC (p : Nat) : Bool := p.testBit 11
def ptePpn (p : Nat) : Nat := bitsOf p 12 40

/-- A leaf has R, W or X set (R312). -/
def pteLeaf (p : Nat) : Bool := pteR p || pteW p || pteX p

/-- RESERVED of R312 and R314 for a valid PTE of a level. -/
def pteReserved (level p : Nat) : Bool :=
  bitsOf p 52 12 != 0 || (pteW p && !pteR p) ||
  (!pteLeaf p && (pteU p || pteA p || pteD p || pteTgt p != 0 || pteC p)) ||
  (level == 0 && !pteLeaf p) ||
  (pteLeaf p && pteC p && !(level == 0 && (pteTgt p == 0 || pteTgt p == 1 || pteTgt p == 4)))

/-- SUPERPAGE of R312 for a leaf of a level. -/
def superpageBad (level p : Nat) : Bool :=
  level == 3 || (level == 2 && bitsOf p 12 18 != 0) || (level == 1 && bitsOf p 12 9 != 0)

/-- PAYLOAD of R313 for a leaf. -/
def payloadBad (level p : Nat) : Bool :=
  let t := pteTgt p
  (t == 2 || t == 3) &&
  (level != 0 || p.testBit 21 || bitsOf p 30 22 != 0 || bitsOf p 24 3 > 5 ||
   (t == 2 && bitsOf p 12 9 > 191) || (t == 3 && (bitsOf p 12 9 % 4 != 0 || bitsOf p 12 9 > 508)))

/-- The PA of a leaf at an offset, for the types that hold a PPN. -/
def leafPa (vpn level off p : Nat) : Nat := (ptePpn p + vpn % 2 ^ (9 * level)) * 4096 + off

/-- The first failure at a leaf, before its permissions: SUPERPAGE, TARGET_RSVD, PAYLOAD, PA_RANGE (R319). -/
def leafFault (vpn level off p : Nat) : Option Nat :=
  if superpageBad level p then some 0x0108
  else if pteTgt p = 6 ∨ pteTgt p = 7 then some 0x0109
  else if payloadBad level p then some 0x010B
  else if (pteTgt p = 0 ∨ pteTgt p = 1) ∧ leafPa vpn level off p ≥ hbmEnd then some 0x010A
  else none

/-- The first failing permission (R315, R319): USER, NO_READ, NO_WRITE, NOT_ACCESSED, NOT_DIRTY. -/
def permFault (p : Nat) (acc : Acc) (mode : Mode) (sum mxr : Bool) : Option Nat :=
  let userOk := match mode with
    | .u => pteU p
    | .s => !pteU p || (sum && acc != .fetch)
    | .m => true
  let readOk := match acc with
    | .fetch => pteX p
    | .load => pteR p || (pteX p && mxr)
    | .amo => pteR p
    | .store => true
  let write := acc == .store || acc == .amo
  if !userOk then some 0x0106
  else if !readOk then some 0x0105
  else if write && !pteW p then some 0x0104
  else if !pteA p then some 0x0102
  else if write && !pteD p then some 0x0103
  else none

/-- The XCT entry of an ASID: PRI enable and port (R320). -/
def xctAt (s : State) (asid : Nat) : Nat := tgetD s.regs 0x10000 0 + 16 * asid
def xctWord (s : State) (asid : Nat) : Nat := leNat (peekHome s (xctAt s asid) 4)
def xctPri (s : State) (asid : Nat) : Bool := (xctWord s asid).testBit 0
def xctPort (s : State) (asid : Nat) : Nat := b2n ((xctWord s asid).testBit 1)

/-- The place a leaf names for an offset within the 4 KiB page of vpn (R313); host pages still untranslated. -/
def leafLoc (s : State) (asid vpn level off p : Nat) : Loc :=
  match pteTgt p with
  | 0 => .hbm (leafPa vpn level off p) true
  | 1 => .hbm (leafPa vpn level off p) false
  | 2 => .win (coreNumber (bitsOf p 22 2) (bitsOf p 24 3) (bitsOf p 27 3)) (bitsOf p 12 9) off
  | 3 => .tile (coreNumber (bitsOf p 22 2) (bitsOf p 24 3) (bitsOf p 27 3)) (bitsOf p 12 9 + off / 1024) (off % 1024)
  | 4 => .host (xctPort s asid) asid (leafPa vpn level off p)
  | _ => .mmio (leafPa vpn level off p)

/-- A slice of a die. -/
def sliceAt (s : State) (die sl : Nat) : Slice := tgetD s.xl.slices (die * 32 + sl) ⟨[], []⟩

/-- The translation engine changed by f, and a slice set. -/
def updXl (s : State) (f : Xlate → Xlate) : State := { s with xl := f s.xl }
def setSlice (s : State) (die sl : Nat) (x : Slice) : State :=
  updXl s fun e => { e with slices := tput e.slices (die * 32 + sl) x }

/-- A cached leaf covers a page of an ASID. -/
def tlbHit (asid vpn : Nat) (e : TlbEntry) : Bool := e.asid == asid && e.vpn / 2 ^ (9 * e.level) == vpn / 2 ^ (9 * e.level)

/-- The PTE that translates a page of a 64 KiB group: any PTE of the group that has C set may, as though its mapping extended over the whole
group, also where the page's own PTE has no C or is not valid; `Config.contig` chooses one of the group, and the page's own PTE stands when
that one has no C (R314). A group that keeps R314's conditions gives the same translation whichever is chosen. -/
def contigPte (s : State) (asid vpn table p : Nat) : Nat :=
  let k := Config.contig asid (vpn / 16) % 16
  let q := leNat (peekHome s (table + 8 * (vpnIdx vpn 0 / 16 * 16 + k)) 8)
  if pteV q && pteLeaf q && pteC q && !pteReserved 0 q then setBits q 12 40 (ptePpn q + 2 ^ 40 + vpn % 16 - k) else p

/-- What reading one level of a walk gives: the next table with the pointer PTE read, a leaf, a fault, or no answer of the home yet
(R311). -/
inductive PteStep where
  | next (table : Nat) (read : List WalkEntry) | leaf (pte : Nat) | fault (code : Nat) | wait
deriving DecidableEq, Repr

/-- One level of a walk, from the walk cache or by one read at the home (R311, R312, R314, R317). -/
def pteStep (s : State) (die sl asid vpn level table : Nat) : PteStep × State :=
  if table ≥ hbmEnd then (.fault 0x010A, s)
  else
    let x := sliceAt s die sl
    let hit := x.wc.find? fun w => w.asid == asid && w.level == level && w.vpn == vpn / 2 ^ (9 * level)
    let got : Option (Nat × State) := match hit with
      | some w => some (w.pte, s)
      | none => (readHome s (table + 8 * vpnIdx vpn level) 8).map fun r => (leNat r.1, r.2)
    match got with
    | none => (.wait, lostFault s asid (table + 8 * vpnIdx vpn level) 8)
    | some (p, s) =>
      let p := if level = 0 then contigPte s asid vpn table p else p
      if !pteV p then (.fault 0x0101, s)
      else if pteReserved level p then (.fault 0x0107, s)
      else if pteLeaf p then (.leaf p, s)
      else (.next (ptePpn p * 4096) (if hit.isSome then [] else [⟨asid, level, vpn / 2 ^ (9 * level), p⟩]), s)

/-- A walk from a level down (R311): the leaf, its level and the pointer PTEs read. -/
def walkFrom (s : State) (die sl asid vpn table : Nat) (read : List WalkEntry) :
    Nat → (Except Nat (Nat × Nat × List WalkEntry) × Bool) × State
  | 0 =>
    match pteStep s die sl asid vpn 0 table with
    | (.leaf p, s) => ((.ok (p, 0, read), false), s)
    | (.fault c, s) => ((.error c, false), s)
    | (.wait, s) => ((.error 0, true), s)
    | (.next _ _, s) => ((.error 0x0107, false), s)
  | level + 1 =>
    match pteStep s die sl asid vpn (level + 1) table with
    | (.leaf p, s) => ((.ok (p, level + 1, read), false), s)
    | (.fault c, s) => ((.error c, false), s)
    | (.wait, s) => ((.error 0, true), s)
    | (.next t w, s) => walkFrom s die sl asid vpn t (w ++ read) level

/-- The walks under way in a slice; with four of them no walker is free (R317). -/
def slicesWalks (s : State) (die sl : Nat) : List Walk := s.xl.walks.filter fun w => w.die == die && w.slice == sl

/-- The leaf of a page, with the pointer PTEs that its walk read: from the translation cache, or by a walk that a fault or a blocked home cuts
short (R317). A page whose walk is already under way is joined, and a miss waits for a free walker, so nothing is answered yet. -/
def leafOf (s : State) (die asid : Nat) (satp va : Word) : (Except Nat (Nat × Nat × List WalkEntry) × Bool × Bool) × State :=
  let sl := sliceOf va
  let vpn := vpnOf va
  match (sliceAt s die sl).tlb.find? (tlbHit asid vpn) with
  | some e => ((.ok (e.pte, e.level, []), false, true), s)
  | none =>
    if satp.toNat / 2 ^ 60 ≠ 15 then ((.error 0x0110, false, false), s)
    else if (slicesWalks s die sl).any (fun w => w.asid == asid && w.vpn == vpn) || (slicesWalks s die sl).length ≥ 4 then
      ((.error 0, true, false), s)
    else
      match walkFrom s die sl asid vpn (satp.toNat % 2 ^ 44 * 4096) [] 3 with
      | ((.ok r, _), s) => ((.ok r, false, false), s)
      | ((.error c, w), s) => ((.error c, w, false), s)

/-- A walk that ended without a fault enters its leaf translation and the pointer PTEs that it read in its slice (R317); a full cache gives up
the entry entered longest ago (DESIGN CHOICE, log 102). -/
def cacheLeaf (s : State) (die asid : Nat) (va : Word) (p level : Nat) (read : List WalkEntry) : State :=
  let sl := sliceOf va
  let x := sliceAt s die sl
  setSlice s die sl ⟨(⟨asid, vpnOf va, level, p⟩ :: x.tlb).take 4096, (read ++ x.wc).take 64⟩

/-- A Translation Request (R323, R372), unless the same one is outstanding. -/
def atsAsk (s : State) (r : AtsReq) : State :=
  if s.xl.atsReqs.contains r then s else updXl s fun x => { x with atsReqs := x.atsReqs ++ [r] }

/-- The entries of a port's address translation cache for a page, asked for with the same privilege. -/
def atcFor (r : AtsReq) (e : AtcEntry) : Bool := e.asid == r.asid && e.page == r.page && e.priv == r.priv

/-- The ATS step of a type-100 access (R323, R372): no answer while the host's completion is awaited; a refusal, or a grant of
less than the access needs, gives ATS_DENIED. It answers one access only: a later access asks again, and every element of one ring entry,
named by its hart and its position, is one access. -/
def atsStep (s : State) (asid : Nat) (acc : Acc) (priv : Bool) (who : Option (Nat × Nat)) (port addr : Nat) : XRes × State :=
  let r : AtsReq := ⟨port, asid, addr / 4096, priv⟩
  match (tgetD s.xl.atc port []).find? (atcFor r) with
  | none => (.wait, atsAsk s r)
  | some e =>
    let okR := acc == .store || e.r
    let okW := acc == .load || acc == .fetch || e.w
    let rest := (tgetD s.xl.atc port []).filter fun f => !atcFor r f
    if okR && okW then (.ok (.host port asid (e.hpage * 4096 + addr % 4096)), s)
    else if e.told.isSome && e.told != who then (.wait, atsAsk (updXl s fun x => { x with atc := tput x.atc port rest }) r)
    else (.fault 0x010C, updXl s fun x => { x with
            atc := tput x.atc port (if who.isSome then { e with told := who } :: rest else rest) })

/-- Translating an address for an access (R310 to R319, R323): the canonical check, NO_TABLE, the walk or the cache, the
leaf, the permissions, and ATS; the XCT entry is read at its home in turn (R289, R320). `who` names the ring entry whose access it is. -/
def xlate (s : State) (die asid : Nat) (satp va : Word) (acc : Acc) (mode : Mode) (sum mxr : Bool) (who : Option (Nat × Nat)) :
    XRes × State :=
  if !canonical va then (.fault 0x0003, s)
  else if satp.toNat / 2 ^ 60 ≠ 15 then (.fault 0x0110, s)
  else
    match leafOf s die asid satp va with
    | ((.error c, w, _), s) => (if w then .wait else .fault c, s)
    | ((.ok (p, level, read), _, hit), s) =>
      let vpn := vpnOf va
      let off := va.toNat % 4096
      match leafFault vpn level off p with
      | some c => (.fault c, s)
      | none =>
        match permFault p acc mode sum mxr with
        | some c => (.fault c, s)
        | none =>
          let s := if hit then s else cacheLeaf s die asid va p level read
          if acc == .fetch && pteTgt p > 1 then (.ok (leafLoc s asid vpn level off p), s)
          else if pteTgt p == 4 && (!homeFree s (xctAt s asid) 4 || lostRead s (xctAt s asid) 4) then (.wait, lostFault s asid (xctAt s asid) 4)
          else match leafLoc s asid vpn level off p with
            | .host port _ addr => atsStep s asid acc (mode == .s) who port addr
            | l => (.ok l, s)

/-- The precise cause of a translation fault of a scalar access (R319): PA_RANGE is an access fault, the rest page
faults. -/
def causeOf (acc : Acc) (code : Nat) : Nat :=
  match acc with
  | .fetch => if code = 0x010A then 1 else 12
  | .load => if code = 0x010A then 5 else 13
  | _ => if code = 0x010A then 7 else 15

/-- Codes that may park (R319). -/
def mayPark (code : Nat) : Bool := [0x0101, 0x0102, 0x0103, 0x0104, 0x010C].contains code

/-- The mode data accesses of a hart translate in: mstatus.MPRV in M-mode gives MPP (R310). -/
def dataMode (h : Hart) : Mode :=
  if h.mode = .m ∧ wbit h.s.mstatus msMPRV then modeOfCode (h.s.mstatus.toNat / 2 ^ msMPP % 4) else h.mode

/-- An untranslated address of M-mode: HBM below its end, the device register space of R356, else an access fault
(log 9). -/
def mmodeLoc (va : Word) : Option Loc :=
  if va.toNat < hbmEnd then some (.hbm va.toNat true)
  else if 0x8000000000 ≤ va.toNat ∧ va.toNat < 0x8002400000 then some (.mmio va.toNat)
  else none

/-- A hart's own translation of a data address. -/
def xlateHart (s : State) (k : Nat) (h : Hart) (va : Word) (acc : Acc) : XRes × State :=
  match dataMode h with
  | .m => (match mmodeLoc va with
           | some l => .ok l
           | none => .fault 0x010A, s)
  | md => xlate s (dieOfSlot k) h.id.asid (ctxOf s h.id.asid).satp va acc md (wbit h.s.mstatus msSUM) (wbit h.s.mstatus msMXR)
      none

/-- The translation of an address for a ring entry's work: the mode held in the entry (R315). The entry holds no SUM and no MXR: what the hart's
status says at the translation counts (DESIGN CHOICE, log 121). -/
def xlateEntry (s : State) (k : Nat) (h : Hart) (e : Entry) (va : Word) (acc : Acc) : XRes × State :=
  xlate s (dieOfSlot k) h.id.asid (ctxOf s h.id.asid).satp va acc e.mode (wbit h.s.mstatus msSUM) (wbit h.s.mstatus msMXR)
    (some (h.id.uid, e.pos))

end Sys2Proof.Machine
end

