-- ==== Sys2Proof/Machine/Access.lean ====
section
/-! DEFINITION. Accesses at the place a translation names: team-store windows and tiles at their holding core (R52, R282,
R283), atomics (R172, R293, R294), host ports (R53, R365 to R368), the lane L1 (R36, R37, R51), and what releases and
acquires do (R46, R47). -/

namespace Sys2Proof.Machine

/-- Address of a byte of a window in the team stores. -/
def winKey (core win off : Nat) : Nat := core * 2 ^ 20 + win * 4096 + off

/-- The window number under which a tile of another core travels in a window access (R52). -/
def tileBase : Nat := 2 ^ 16

/-- Address of a byte of a tile in the tile stores. -/
def tileKey (core tile off : Nat) : Nat := core * 2 ^ 20 + tile * 1024 + off

/-- The name under which a window's 128-byte line is held in reservation and monitor tables, apart from HBM lines. -/
def winLine (core win off : Nat) : Nat := 2 ^ 50 + winKey core win off / 128

/-- What the holding core finds of a window (R283). -/
inductive WinSt where
  | open_ | closed | moved | loading
deriving DecidableEq, Repr

/-- The team stands on its core: it has started, and is neither saved nor ended (R52). -/
def teamPresent (t : Team) : Bool := t.stat != .placed && t.stat != .saved && t.stat != .ended

/-- The check of R283 for an access of an ASID. A window that a save has copied has moved (R416); a window whose contents a restore has not yet loaded answers later (R419). -/
def winState (s : State) (core win asid : Nat) : WinSt :=
  match s.work.teams.find? fun p => p.2.core == core && teamPresent p.2 && p.2.stat != .saving && p.2.wins.contains win with
  | some p => if p.2.asid ≠ asid then .closed else if (coreAt s core).winLoad.contains win then .loading else .open_
  | none =>
    match tget (coreAt s core).winVac win with
    | some (t, _) => (match tget s.work.teams t with
        | some tm => if tm.asid = asid then .moved else .closed
        | none => .closed)
    | none => .closed

/-- A tile is held by a team of the ASID that stands on the core (R52). The spec gives MOVED and loading for team-store windows only: a tile of a saved
team is closed, and one of a team that is being restored is read at once (DESIGN CHOICE, log 120). -/
def tileOpen (s : State) (core tile asid : Nat) : Bool :=
  s.work.teams.any fun p => p.2.core == core && teamPresent p.2 && p.2.asid == asid && p.2.tiles.contains tile

/-- An access goes to the holding core's check as a message: the window is another core's, or one of the issuing core that a saved team has
left or that is still loading, where it is told so, or waits (R282, R283, R419). -/
def viaMessage (s : State) (core win asid own : Nat) : Bool :=
  core != own || winState s core win asid == .moved || winState s core win asid == .loading

/-- The tiles of an access to a tile export window are held by teams of the ASID (R52). -/
def tilesOpen (s : State) (core tile off n asid : Nat) : Bool :=
  tileOpen s core tile asid && tileOpen s core (tile + (off + n - 1) / 1024) asid

/-- What the holding core finds of a window access: of a window, or of a tile (R52, R283). -/
def accState (s : State) (a : WinAcc) : WinSt :=
  if a.win ≥ tileBase then (if tilesOpen s a.core (a.win - tileBase) a.off a.size a.asid then .open_ else .closed)
  else winState s a.core a.win a.asid

/-- Bytes of a window and of a tile. -/
def readWin (s : State) (core win off n : Nat) : List Byte := rdBytes s.tstore (winKey core win off) n
def readTile (s : State) (core tile off n : Nat) : List Byte := rdBytes s.tiles (tileKey core tile off) n

/-- Other agents' reservations on a team-store line are lost when a write to it performs (R297), with a wake notice each. -/
def loseStoreLine (s : State) (core line writer : Nat) : State :=
  let all := tgetD s.mem.resvStore core []
  let lost := all.filter fun r => r.line == line && r.uid != writer
  let s := updMem s fun m => { m with
    resvStore := tput m.resvStore core (all.filter fun r => !(r.line == line && r.uid != writer)),
    wakes := m.wakes ++ lost.map fun r => ⟨r.uid, line⟩ }
  { s with harts := s.harts.map fun p =>
      if lost.any (fun r => r.uid == p.2.id.uid) then (p.1, { p.2 with resv := none }) else p }

/-- Monitor entries of the core on a line wake when another agent's write reaches the core (R122): each hart's wait ends
and its entry is freed. -/
def wakeMonitors (s : State) (core line writer : Nat) : State :=
  let woken := (coreAt s core).monitors.filter fun m => m.line == line && m.uid != writer
  if woken.isEmpty then s
  else
    let s := updCore s core fun c => { c with monitors := c.monitors.filter fun m => !(m.line == line && m.uid != writer) }
    { s with harts := s.harts.map fun p =>
        if woken.any (fun m => m.uid == p.2.id.uid) then (p.1, endWait s p.1 p.2) else p }
where
  /-- A WRS that wakes completes: the pc follows it (R121, R122). -/
  endWait (s : State) (k : Nat) (h : Hart) : Hart := match h.wait with
    | some (.wrs _ _) => adv s k { h with wait := none } 4
    | _ => h

/-- Bytes written in a window by an agent. -/
def writeWin (s : State) (core win off writer : Nat) (bs : List Byte) : State :=
  let s := { s with tstore := wrBytes s.tstore (winKey core win off) bs }
  let l := winLine core win off
  wakeMonitors (loseStoreLine s core l writer) core l writer

/-- The new value of an atomic: R172 codes 0 swap, 1 add, 2 and, 3 or, 4 xor, 5 min, 6 max, 7 cas, on n bytes. -/
def amoNew (op : Nat) (signed : Bool) (n old v cmp : Nat) : Nat :=
  let w := 8 * n
  let val (x : Nat) : Int := if signed && x.testBit (w - 1) then (x : Int) - 2 ^ w else x
  match op with
  | 0 => v
  | 1 => (old + v) % 2 ^ w
  | 2 => Nat.land old v
  | 3 => Nat.lor old v
  | 4 => Nat.xor old v
  | 5 => if val old ≤ val v then old else v
  | 6 => if val old ≥ val v then old else v
  | _ => if old = cmp then v else old

/-- LR'S RESERVATION (R297): the hart's previous one goes; the table of the home (1,024 entries) or of the team store (64) takes the
new one; a full table evicts its oldest entry when that is at least 256 clk old, and else makes no reservation. -/
def reserve (s : State) (uid line : Nat) (at_ : ResvAt) : State :=
  let s := match hartOfUid s uid with
    | some h => updUid (loseResv s h) uid fun h => { h with resv := none }
    | none => s
  let now := match at_ with
    | .home _ => s.clock.clk
    | .store core => coreClk s core
  let add (size : Nat) (l : List Resv) : Option (Option Resv × List Resv) :=
    let r : Resv := { uid := uid, line := line, clk := now }
    if l.length < size then some (none, l ++ [r])
    else match l with
      | [] => none
      | old :: rest => if old.clk + 256 ≤ now then some (some old, rest ++ [r]) else none
  let evicted (s : State) (o : Option Resv) : State := match o with
    | none => s
    | some o =>
      updMem (updUid s o.uid fun h => { h with resv := none }) fun m => { m with wakes := m.wakes ++ [⟨o.uid, o.line⟩] }
  let got (s : State) : State := updUid s uid fun h => { h with resv := some (line, at_) }
  match at_ with
  | .home md => (match add 1024 (tgetD s.mem.resvHome md []) with
      | none => s
      | some (o, l) => got (evicted (updMem s fun m => { m with resvHome := tput m.resvHome md l }) o))
  | .store core => (match add 64 (tgetD s.mem.resvStore core []) with
      | none => s
      | some (o, l) => got (evicted (updMem s fun m => { m with resvStore := tput m.resvStore core l }) o))

/-- The reservations on windows of a core go when the windows' team ends or is saved, with a wake notice each (R297, R298). -/
def dropWinResv (s : State) (core : Nat) (wins : List Nat) : State :=
  let mine (r : Resv) : Bool := wins.any fun w => winLine core w 0 ≤ r.line && r.line < winLine core w 0 + 32
  let all := tgetD s.mem.resvStore core []
  updMem s fun m => { m with
    resvStore := tput m.resvStore core (all.filter fun r => !mine r),
    wakes := m.wakes ++ (all.filter mine).map fun r => ⟨r.uid, r.line⟩ }

/-- An atomic on bytes of a window: the old value. -/
def amoWin (s : State) (core win off writer n op : Nat) (signed : Bool) (v cmp : Nat) : Nat × State :=
  let old := leNat (readWin s core win off n)
  (old, writeWin s core win off writer (leBytes n (amoNew op signed n old v cmp)))

/-- Base of a host port's register block in BAR0 (R357). -/
def hpBase (port : Nat) : Nat := 0x30000 + 0x1000 * port

/-- HP_STAT of a port: bits 16 ATS enabled, 17 PRI enabled, 18 AtomicOp Requester Enable, 19 Bus Master Enable (R359). -/
def hpStat (s : State) (port : Nat) : Nat := tgetD s.regs (hpBase port) 0

/-- An outbound access may be sent: Bus Master Enable set and ATS enabled (R366, HOST_BLOCKED otherwise). -/
def hostOpen (s : State) (port : Nat) : Bool := (hpStat s port).testBit 19 && (hpStat s port).testBit 16

/-- An atomic can be sent to the port (R173, R295, R368): swap, add or cas, with AtomicOps enabled. -/
def hostAtomicOk (s : State) (port op : Nat) : Bool := (hpStat s port).testBit 18 && (op == 0 || op == 1 || op == 7)

/-- A posted write to host memory: acknowledged, and in the device's view performed, when sent (R53, R365; log 13). -/
def hostWrite (s : State) (addr : Nat) (bs : List Byte) : State := updMem s fun m => { m with host := wrBytes m.host addr bs }

/-- A read or AtomicOp sent to the host. -/
def hostSend (s : State) (port asid uid addr size : Nat) (atomic : Option (Nat × Nat × Nat)) (sx : Bool) (r : ReplyTo) : State :=
  let (id, s) := freshUid s
  let o : OutReq := { id := id, port := port, asid := asid, uid := uid, addr := addr, size := size, atomic := atomic, sx := sx,
                      reply := r, clk := s.clock.clk }
  updMem s fun m => { m with out := m.out ++ [o] }

/-- The hart waits for host answers (R53). -/
def hostPending (s : State) (uid : Nat) : Bool := s.mem.out.any fun o => o.uid == uid

/-- The whole lane L1 of a core invalidated (R51). -/
def clearL1 (s : State) (core : Nat) : State := updCore s core fun c => { c with l1 := [] }

/-- An acquire that orders later loads: at die scope or wider it invalidates the lane L1 of the core (R51). -/
def acquireL1 (s : State) (core : Nat) (sc : Scope) : State := if sc = .team then s else clearL1 s core

/-- Dispatch entries that a release orders and that have not performed at device scope: what the hart has seen early
(R47, R49). -/
def liveSeen (s : State) (h : Hart) : List Nat := (h.seen ++ h.deps).filter fun id => !reqDone s id

/-- A release by the hart: its later stores perform after every write it has observed is visible to every agent (R47). -/
def releaseDeps (s : State) (h : Hart) (sc : Scope) : Hart :=
  if sc = .device ∨ sc = .system then { h with deps := liveSeen s h, seen := [] } else h

/-- A release of the hart's lane accesses for its later lane accesses (R175): what they follow, its scalar accesses need not. -/
def releaseLane (s : State) (h : Hart) (sc : Scope) : Hart :=
  if sc = .device ∨ sc = .system then { h with ldeps := (liveSeen s h ++ h.ldeps.filter fun id => !reqDone s id).eraseDups } else h

/-- The hart as its lane accesses see it: they follow what either kind of release has ordered before them. -/
def laneSide (h : Hart) : Hart := { h with deps := h.deps ++ h.ldeps }

/-- A write may leave for a place: what a release has ordered before it must be visible first (R47); requests to homes carry
that with them. -/
def mayLeave (s : State) (h : Hart) (l : Loc) : Bool :=
  match l with
  | .hbm _ _ => true
  | _ => h.deps.all (reqDone s)

/-- Early values a read has returned, remembered for releases (R47, R50). -/
def sawEarly (h : Hart) (ids : List Nat) : Hart := if ids.isEmpty then h else { h with seen := (h.seen ++ ids).eraseDups }

/-- A hart that completes an acquire has observed what the releasing agents of its die had written and observed: every store that is in
step 1 of R49 on its die counts (R47; DEDUCED, log 100). Off the die a release has waited for step 2. -/
def sawDie (s : State) (k : Nat) : State :=
  updHart s k fun h => sawEarly h ((s.mem.busy.filter fun b => b.granted && b.req.die == dieOfSlot k).map (·.req.id))

/-- An acquire that orders scalar loads: besides, no load that the hart has performed ahead of it keeps its value (R45 to R47). -/
def observeDie (s : State) (k : Nat) : State := updHart (sawDie s k) k fun h => { h with ahead := [] }

/-- An acquire of the hart in slot k at a scope: what it has observed (R47), and the lane L1 at die scope or wider (R51). -/
def acquireAt (s : State) (k : Nat) (sc : Scope) : State := acquireL1 (observeDie s k) (coreOfSlot k) sc

/-- An acquire for the hart's later lane accesses (R175). -/
def acquireLane (s : State) (k : Nat) (sc : Scope) : State := acquireL1 (sawDie s k) (coreOfSlot k) sc

/-- Every lane access of the hart that has been handed over has performed at a scope (R175). -/
def lanePerformed (s : State) (h : Hart) (sc : Scope) : Bool :=
  laneStoresDone s h.id.uid sc && (sc != .system || !(s.mem.out.any fun o => o.uid == h.id.uid && match o.reply with
    | .lane _ _ _ => true
    | _ => false))

/-- Every earlier access of the hart has performed at a scope: stores, and at system scope host accesses (R46, R53). -/
def performedAt (s : State) (h : Hart) (sc : Scope) : Bool :=
  storesDone s h.id.uid sc && (sc != .system || !hostPending s h.id.uid)

/-- A lane read of one line's bytes, cached in the lane L1 of the core (R36, R51): a line held there under its virtual line may be returned stale;
`fresh` makes the slice answer instead. -/
def laneReadLine (s : State) (k : Nat) (h : Hart) (va : Word) (pa n : Nat) (fresh : Bool) : Option (List Byte × State) :=
  let core := coreOfSlot k
  let die := dieOfSlot k
  let line := lineOf pa
  let uid := h.id.uid
  let key := l1Key h.id.asid va.toNat line
  let own (bs : List Byte) : List Byte := withOwn s uid pa ((bs.drop (pa % 128)).take n)
  let note (s : State) : State := updHart s k fun h => sawEarly h (earlySeen s die pa n)
  match tget (coreAt s core).l1 key with
  | some bs =>
    if !fresh then some (own bs, note s)
    else if lineReady s die line && !isLost s line then
      let s' := fillLine s die line
      let bs := lineBytes s' die line
      some (own bs, note (updCore s' core fun c => { c with l1 := putLine laneL1Lines c.l1 key bs }))
    else none
  | none =>
    if coveredByOwn s uid pa n then some (withOwn s uid pa (bytesAt s die pa n), s)
    else if lineReady s die line && !isLost s line then
      let s' := fillLine s die line
      let bs := lineBytes s' die line
      some (own bs, note (updCore s' core fun c => { c with l1 := putLine laneL1Lines c.l1 key bs }))
    else none

/-- A window access sent to the holding core (R282). -/
def sendWin (s : State) (h : Hart) (va : Word) (mode : Mode) (core win off size : Nat) (op : WinOp) (data : List Byte) (sx : Bool)
    (r : ReplyTo) : State :=
  let (id, s) := freshUid s
  let a : WinAcc := { id := id, uid := h.id.uid, asid := h.id.asid, va := va, mode := mode, core := core, win := win, off := off,
                      size := size, tenant := h.id.tenant, op := op, data := data, sx := sx, reply := r }
  { s with net := { s.net with wins := s.net.wins ++ [a] } }

/-- A request of a hart to a home, with an answer (R294, R297). -/
def pushAtomic (s : State) (k : Nat) (h : Hart) (pa : Nat) (kind : ReqKind) (sx : Bool) (r : ReplyTo) : State :=
  let (id, s) := freshUid s
  let lane := match r with
    | .lane _ _ _ => true
    | _ => false
  pushReq s { id := id, die := dieOfSlot k, core := coreOfSlot k, uid := h.id.uid, asid := h.id.asid, pa := pa, kind := kind,
              data := [], reply := r, sx := sx, deps := h.deps, lane := lane }

/-- Where an atomic to HBM performs (R294): in the die's RDC at team and die scope when cached, else at the home AU. -/
def hbmAtomicKind (cached : Bool) (sc : Scope) (op size : Nat) (signed : Bool) (v cmp : Nat) : ReqKind :=
  if cached ∧ (sc = .team ∨ sc = .die) then .dieAtomic op size signed v cmp else .auAtomic op size signed v cmp

/-- A scope from its code (R42). -/
def scopeOf (c : BitVec 2) : Scope := match c.toNat with
  | 0 => .team | 1 => .die | 2 => .device | _ => .system

end Sys2Proof.Machine
end

