-- ==== Sys2Proof/Machine/Fetch.lean ====
section
/-! DEFINITION. Fetching instruction bytes: translation for fetch, the instruction cache of the core, which may hold a line
that memory no longer holds until FENCE.I or a shoot-down (R87, R107), and the two halves of a 64-bit instruction. -/

namespace Sys2Proof.Machine

/-- What a fetch gives: bytes, a precise trap, or nothing yet. -/
inductive Fetched where
  | ok (bs : List Byte) | fault (cause : Nat) (tval : Word) | wait
deriving DecidableEq, Repr

/-- The key of an instruction-cache line: its ASID and the line (R107, R326). -/
def icKey (asid line : Nat) : Nat := asid * 2 ^ 40 + line

/-- Four bytes of an HBM line through the instruction cache of the core. -/
def fetchLine (s : State) (k asid pa : Nat) : Option (List Byte × State) :=
  let core := coreOfSlot k
  let line := lineOf pa
  match tget (coreAt s core).icache (icKey asid line) with
  | some bs => some ((bs.drop (pa % 128)).take 4, s)
  | none =>
    if lineReady s (dieOfSlot k) line && !isLost s line then
      let s' := fillLine s (dieOfSlot k) line
      let bs := lineBytes s' (dieOfSlot k) line
      some ((bs.drop (pa % 128)).take 4, updCore s' core fun c => { c with icache := putLine icacheLines c.icache (icKey asid line) bs })
    else none

/-- Four instruction bytes at a virtual address: a fetch from a target other than HBM raises cause 1 (R110), and one
from an address that is not canonical raises cause 12 in every mode (R103, R319). -/
def fetch4 (s : State) (k asid : Nat) (satp : Word) (mode : Mode) (pc : Word) : Fetched × State :=
  let hbm (s : State) (pa : Nat) : Fetched × State :=
    match fetchLine s k asid pa with
    | some (bs, s) => (.ok bs, s)
    | none => (.wait, lostFault s asid pa 4)
  if pc &&& 3 ≠ 0 then (.fault 0 pc, s)
  else if mode = .m then (if !canonical pc then (.fault 12 pc, s) else if pc.toNat < hbmEnd then hbm s pc.toNat else (.fault 1 pc, s))
  else
    match xlate s (dieOfSlot k) asid satp pc .fetch mode false false none with
    | (.ok (.hbm pa _), s) => hbm s pa
    | (.ok _, s) => (.fault 1 pc, s)
    | (.fault c, s) => (.fault (causeOf .fetch c) pc, s)
    | (.wait, s) => (.wait, s)

/-- The bytes of the instruction at a pc: four, or eight for a 64-bit form (R60). -/
def fetchInstr (s : State) (k asid : Nat) (satp : Word) (mode : Mode) (pc : Word) : Fetched × State :=
  match fetch4 s k asid satp mode pc with
  | (.ok (b0 :: b1 :: bs), s) =>
    if lengthOf (b1 ++ b0) = 8 then
      (match fetch4 s k asid satp mode (pc + 4) with
       | (.ok cs, s) => (.ok (b0 :: b1 :: bs ++ cs), s)
       | r => r)
    else (.ok (b0 :: b1 :: bs), s)
  | r => r

/-- The instruction of a fetch for a hart. -/
def fetchFor (s : State) (k : Nat) (h : Hart) : Fetched × State :=
  fetchInstr s k h.id.asid (ctxOf s h.id.asid).satp h.mode h.pc

end Sys2Proof.Machine
end

