-- ==== Sys2Proof/Machine/Flags.lean ====
section
/-! DEFINITION. The sticky flags of `lflags` (R95): NX bit 0, UF 1, OF 2, DZ 3, NV 4, SI 5. -/

namespace Sys2Proof.Machine

/-- A set of flags. -/
abbrev Fl := BitVec 6

def flNX : Fl := 1
def flUF : Fl := 2
def flOF : Fl := 4
def flDZ : Fl := 8
def flNV : Fl := 16
def flSI : Fl := 32

/-- A flag when a condition holds. -/
def flIf (b : Bool) (f : Fl) : Fl := if b then f else 0

/-- The flags accumulate into `lflags` (R95). -/
def orFlags (h : Hart) (f : Fl) : Hart := { h with l := { h.l with lflags := h.l.lflags ||| f } }

/-- A forwarded, uncompleted instruction can set a flag: a read or write of `lflags` waits for it (R95). -/
def flagPending (h : Hart) : Bool :=
  h.ring.any fun p => (p.2.st == .inflight || p.2.st == .parked) && match engine? p.2.instr with
    | some (sh, _) => 2 ≤ sh.grp && sh.grp ≤ 9
    | none => false

end Sys2Proof.Machine
end

