-- ==== Sys2Proof/Machine/Float.lean ====
section
/-! DEFINITION. Floating-point arithmetic, exact and then rounded once (R88 to R97, R190 to R194, R197, R202): every
format of R88, the five rounding modes of R93, tininess after rounding, canonical NaNs. -/

namespace Sys2Proof.Machine

/-- A floating format (R88): exponent and mantissa bits, bias, whether it has infinities and IEEE NaNs, its largest finite
code and its canonical NaN. -/
structure FFmt where
  eb : Nat
  mb : Nat
  bias : Nat
  ieee : Bool
  maxFin : Nat
  nan : Nat
  mx : Bool
deriving DecidableEq, Repr

def f64 : FFmt := ⟨11, 52, 1023, true, 0x7FEFFFFFFFFFFFFF, 0x7FF8000000000000, false⟩
def f32 : FFmt := ⟨8, 23, 127, true, 0x7F7FFFFF, 0x7FC00000, false⟩
def f16 : FFmt := ⟨5, 10, 15, true, 0x7BFF, 0x7E00, false⟩
def bf16 : FFmt := ⟨8, 7, 127, true, 0x7F7F, 0x7FC0, false⟩
def e4m3 : FFmt := ⟨4, 3, 7, false, 0x7E, 0x7F, true⟩
def e5m2 : FFmt := ⟨5, 2, 15, true, 0x7B, 0x7E, true⟩
def e2m1 : FFmt := ⟨2, 1, 1, false, 0x7, 0x7, true⟩

/-- The format of an F code (R72). -/
def fOfCode (c : Nat) : FFmt :=
  match c with
  | 0 => f32 | 1 => f64 | 2 => f16 | 3 => bf16 | 4 => e4m3 | 5 => e5m2 | _ => e2m1

/-- The format of a floating X code (R72). -/
def fOfX (c : Nat) : FFmt :=
  match c with
  | 0 => e4m3 | 1 => e5m2 | 2 => e2m1 | 3 => f16 | _ => bf16

/-- Width in bits. -/
def FFmt.width (f : FFmt) : Nat := f.eb + f.mb + 1

/-- The exponent of the smallest unit: emin - mb. -/
def FFmt.qmin (f : FFmt) : Int := 1 - (f.bias : Int) - (f.mb : Int)

/-- The code of +infinity in an IEEE format. -/
def FFmt.infCode (f : FFmt) : Nat := (2 ^ f.eb - 1) * 2 ^ f.mb

/-- A value: NaN (signalling or not), infinity, or (-1)^s × m × 2^e. -/
inductive FVal where
  | nan (sig : Bool) | inf (s : Bool) | fin (s : Bool) (m : Nat) (e : Int)
deriving DecidableEq, Repr

/-- The value of a code (R88, R89). -/
def unpackF (f : FFmt) (b : Nat) : FVal :=
  let s := b.testBit (f.width - 1)
  let mag := b % 2 ^ (f.width - 1)
  let x := mag / 2 ^ f.mb
  let m := mag % 2 ^ f.mb
  if f.ieee && x == 2 ^ f.eb - 1 then
    (if m = 0 then .inf s else .nan (!f.mx && !m.testBit (f.mb - 1)))
  else if f.eb == 4 && mag == 0x7F then .nan false
  else if x = 0 then .fin s m f.qmin
  else .fin s (2 ^ f.mb + m) (f.qmin + (x : Int) - 1)

/-- The sign bit set on a magnitude code. -/
def withSign (f : FFmt) (s : Bool) (mag : Nat) : Nat := mag + b2n s * 2 ^ (f.width - 1)

/-- A subnormal code of a format. -/
def isSubnormal (f : FFmt) (b : Nat) : Bool :=
  let mag := b % 2 ^ (f.width - 1)
  mag / 2 ^ f.mb == 0 && mag != 0

/-- A subnormal input read as a zero of its sign (R92). -/
def flushIn (ftz : Bool) (f : FFmt) (b : Nat) : Nat :=
  if ftz && isSubnormal f b then withSign f (b.testBit (f.width - 1)) 0 else b

/-- Whether a magnitude is rounded up: the kept part, the dropped part and half of the unit, in a mode (R93). -/
def roundsUp (mode : Nat) (s : Bool) (kept lo half : Nat) : Bool :=
  match mode with
  | 0 => lo > half || (lo == half && kept % 2 == 1)
  | 1 => false
  | 2 => s && lo != 0
  | 3 => !s && lo != 0
  | _ => lo ≥ half && lo != 0

/-- m × 2^e in units of 2^q, rounded: the integer and whether it is inexact. -/
def roundUnits (mode : Nat) (s : Bool) (m : Nat) (e q : Int) : Nat × Bool :=
  if q ≤ e then (m * 2 ^ (e - q).toNat, false)
  else
    let sh := (q - e).toNat
    let kept := m / 2 ^ sh
    let lo := m % 2 ^ sh
    (if roundsUp mode s kept lo (2 ^ (sh - 1)) then kept + 1 else kept, lo != 0)

/-- The exact value (-1)^s × m × 2^e rounded to a format, with flags: overflow by the mode in IEEE formats and to the
largest finite in the MX formats (R96); tininess after rounding (R93); FTZ (R92). -/
def roundF (f : FFmt) (mode : Nat) (ftz : Bool) (s : Bool) (m : Nat) (e : Int) : Nat × Fl :=
  if m = 0 then (withSign f s 0, 0)
  else
    let top : Int := e + (Nat.log2 m : Int)
    let qn := top - (f.mb : Int)
    let q := if qn < f.qmin then f.qmin else qn
    let (r, nx) := roundUnits mode s m e q
    let mag := (q - f.qmin).toNat * 2 ^ f.mb + r
    let (ru, _) := roundUnits mode s m e qn
    let tiny := if qn < f.qmin then ru * 2 < 2 ^ (f.mb + 1 + (f.qmin - qn).toNat) else false
    if mag > f.maxFin then
      let toInf := !f.mx && (mode == 0 || mode == 4 || (mode == 2 && s) || (mode == 3 && !s))
      (withSign f s (if toInf then f.infCode else f.maxFin), flOF ||| flNX)
    else if ftz && isSubnormal f mag then (withSign f s 0, flUF ||| flNX)
    else (withSign f s mag, flIf nx flNX ||| flIf (tiny && nx) flUF)

/-- The canonical NaN, with NV when asked; .e2m1 has none and gives +6 with NV (R89). -/
def nanF (f : FFmt) (nv : Bool) : Nat × Fl := (f.nan, flIf (nv || (f.mx && f.eb == 2)) flNV)

/-- An infinity as a result: ±448 and ±6 with NV in the MX formats without one (R96). -/
def infF (f : FFmt) (s : Bool) : Nat × Fl := if f.ieee then (withSign f s f.infCode, 0) else (withSign f s f.maxFin, flNV)

/-- A NaN operand that signals. -/
def sigNaN (v : FVal) : Bool := match v with
  | .nan sig => sig
  | _ => false
def isNaN (v : FVal) : Bool := match v with
  | .nan _ => true
  | _ => false
def isInf (v : FVal) : Bool := match v with
  | .inf _ => true
  | _ => false
def isZero (v : FVal) : Bool := match v with
  | .fin _ m _ => m == 0
  | _ => false

/-- The sign of a value. -/
def signOf (v : FVal) : Bool := match v with
  | .inf s => s
  | .fin s _ _ => s
  | .nan _ => false

/-- A value negated. -/
def negV (v : FVal) : FVal := match v with
  | .inf s => .inf (!s)
  | .fin s m e => .fin (!s) m e
  | v => v

/-- The signed mantissa of a finite value in units of 2^q, q at or below its exponent. -/
def inUnits (s : Bool) (m : Nat) (e q : Int) : Int := if s then -((m * 2 ^ (e - q).toNat : Nat) : Int) else ((m * 2 ^ (e - q).toNat : Nat) : Int)

/-- The smaller of two exponents. -/
def minE (a b : Int) : Int := if a ≤ b then a else b

/-- The sign of an exact zero sum of two terms: theirs when equal, else +0, or -0 in RDN (R190). -/
def zeroSumSign (mode : Nat) (s1 s2 : Bool) : Bool := if s1 = s2 then s1 else mode == 2

/-- A sum of two values rounded once. -/
def addV (f : FFmt) (mode : Nat) (ftz : Bool) (a b : FVal) : Nat × Fl :=
  match a, b with
  | .nan _, _ => nanF f (sigNaN a || sigNaN b)
  | _, .nan _ => nanF f (sigNaN a || sigNaN b)
  | .inf s, .inf t => if s = t then infF f s else nanF f true
  | .inf s, _ => infF f s
  | _, .inf t => infF f t
  | .fin s m e, .fin t n d =>
    let q := minE e d
    let z := inUnits s m e q + inUnits t n d q
    if z = 0 then (withSign f (zeroSumSign mode s t) 0, 0)
    else roundF f mode ftz (z < 0) z.natAbs q

/-- A product as a value: none for infinity times zero. NaNs are dealt with before. -/
def mulV (a b : FVal) : Option FVal :=
  match a, b with
  | .fin s m e, .fin t n d => some (.fin (s != t) (m * n) (e + d))
  | .inf s, .fin t n _ => if n = 0 then none else some (.inf (s != t))
  | .fin s m _, .inf t => if m = 0 then none else some (.inf (s != t))
  | .inf s, .inf t => some (.inf (s != t))
  | _, _ => none

/-- a × b rounded once. -/
def mulF (f : FFmt) (mode : Nat) (ftz : Bool) (a b : FVal) : Nat × Fl :=
  if isNaN a || isNaN b then nanF f (sigNaN a || sigNaN b)
  else match mulV a b with
    | none => nanF f true
    | some (.inf s) => infF f s
    | some (.fin s m e) => roundF f mode ftz s m e
    | some (.nan _) => nanF f true

/-- a × b + c rounded once: infinity times zero gives NaN and NV whatever c holds (R190). -/
def fmaF (f : FFmt) (mode : Nat) (ftz : Bool) (a b c : FVal) : Nat × Fl :=
  if isNaN a || isNaN b then nanF f (sigNaN a || sigNaN b || sigNaN c)
  else match mulV a b with
    | none => nanF f true
    | some p => addV f mode ftz p c

/-- a ÷ b rounded once, from a quotient of enough bits with the remainder as a last sticky bit. -/
def divF (f : FFmt) (mode : Nat) (ftz : Bool) (a b : FVal) : Nat × Fl :=
  match a, b with
  | .nan _, _ => nanF f (sigNaN a || sigNaN b)
  | _, .nan _ => nanF f (sigNaN a || sigNaN b)
  | .inf _, .inf _ => nanF f true
  | .inf s, .fin t _ _ => infF f (s != t)
  | .fin s _ _, .inf t => (withSign f (s != t) 0, 0)
  | .fin s m e, .fin t n d =>
    if n = 0 then
      (if m = 0 then nanF f true else ((infF f (s != t)).1, flDZ))
    else
      let k := f.mb + 4 + Nat.log2 n
      let q := m * 2 ^ k / n
      let sticky := m * 2 ^ k % n != 0
      roundF f mode ftz (s != t) (2 * q + b2n sticky) (e - d - (k : Int) - 1)

/-- √a rounded once: the integer root of enough bits, with a sticky bit. -/
def sqrtF (f : FFmt) (mode : Nat) (ftz : Bool) (a : FVal) : Nat × Fl :=
  match a with
  | .nan _ => nanF f (sigNaN a)
  | .inf s => if s then nanF f true else infF f false
  | .fin s m e =>
    if m = 0 then (withSign f s 0, 0)
    else if s then nanF f true
    else
      let k := 2 * (f.mb + 4)
      let k := if (e - (k : Int)) % 2 = 0 then k else k + 1
      let z := m * 2 ^ k
      let r := Nat.sqrt z
      roundF f mode ftz false (2 * r + b2n (r * r != z)) ((e - (k : Int)) / 2 - 1)

/-- Comparison of two values that are no NaN: less, and equal with -0 = +0 (R187). -/
def cmpKey (v : FVal) (q : Int) : Int := match v with
  | .fin s m e => inUnits s m e q
  | _ => 0
def expOf (v : FVal) : Int := match v with
  | .fin _ _ e => e
  | _ => 0
def ltV (a b : FVal) : Bool :=
  match a, b with
  | .inf s, .inf t => s && !t
  | .inf s, _ => s
  | _, .inf t => !t
  | _, _ => let q := minE (expOf a) (expOf b); decide (cmpKey a q < cmpKey b q)
def eqV (a b : FVal) : Bool :=
  match a, b with
  | .inf s, .inf t => s == t
  | .inf _, _ => false
  | _, .inf _ => false
  | _, _ => let q := minE (expOf a) (expOf b); cmpKey a q == cmpKey b q

/-- The relations of `vfcmp` with the flag (R187). -/
def fcmp (rel : Nat) (a b : FVal) : Bool × Fl :=
  let un := isNaN a || isNaN b
  let sig := sigNaN a || sigNaN b
  match rel with
  | 0 => (!un && eqV a b, flIf sig flNV)
  | 1 => (un || !eqV a b, flIf sig flNV)
  | 2 => (!un && ltV a b, flIf un flNV)
  | 3 => (!un && (ltV a b || eqV a b), flIf un flNV)
  | 4 => (!un && ltV b a, flIf un flNV)
  | 5 => (!un && (ltV b a || eqV a b), flIf un flNV)
  | 6 => (un, flIf sig flNV)
  | _ => (!un, flIf sig flNV)

/-- minimumNumber and maximumNumber, -0 below +0 (R191): bits of a, b and their values. -/
def minMaxF (f : FFmt) (isMax : Bool) (x y : Nat) : Nat × Fl :=
  let a := unpackF f x
  let b := unpackF f y
  let nv := flIf (sigNaN a || sigNaN b) flNV
  if isNaN a && isNaN b then (f.nan, nv)
  else if isNaN a then (y, nv)
  else if isNaN b then (x, nv)
  else
    let less := ltV a b || (eqV a b && signOf a && !signOf b)
    (if less != isMax then x else y, 0)

/-- The class word (R191). -/
def classF (f : FFmt) (b : Nat) : Nat :=
  match unpackF f b with
  | .nan sig => if sig then 2 ^ 8 else 2 ^ 9
  | .inf s => if s then 2 ^ 0 else 2 ^ 7
  | .fin s m _ =>
    if m = 0 then (if s then 2 ^ 3 else 2 ^ 4)
    else if m < 2 ^ f.mb then (if s then 2 ^ 2 else 2 ^ 5)
    else (if s then 2 ^ 1 else 2 ^ 6)

/-- Conversion between floating formats (R194, R96). -/
def cvtF (src dst : FFmt) (mode : Nat) (ftz : Bool) (b : Nat) : Nat × Fl :=
  let v := unpackF src (flushIn ftz src b)
  match v with
  | .nan _ => nanF dst (sigNaN v)
  | .inf s => infF dst s
  | .fin s m e => roundF dst mode ftz s m e

/-- Conversion to an n-bit integer (R97): the bits, and NV out of range or NX inexact. -/
def cvtToInt (n : Nat) (signed : Bool) (mode : Nat) (v : FVal) : Nat × Fl :=
  let hi : Int := if signed then 2 ^ (n - 1) - 1 else 2 ^ n - 1
  let lo : Int := if signed then -(2 ^ (n - 1)) else 0
  let bits (z : Int) : Nat := (z % (2 ^ n : Int)).toNat
  match v with
  | .nan _ => (bits hi, flNV)
  | .inf s => (bits (if s then lo else hi), flNV)
  | .fin s m e =>
    let (r, nx) := roundUnits mode s m e 0
    let z : Int := if s then -(r : Int) else r
    if z > hi then (bits hi, flNV) else if z < lo then (bits lo, flNV) else (bits z, flIf nx flNX)

/-- Conversion of an integer to a floating format (R194). -/
def cvtFromInt (f : FFmt) (mode : Nat) (z : Int) : Nat × Fl := roundF f mode false (z < 0) z.natAbs 0

/-- A sum of terms rounded once to .f32 (R197): `terms` are the products and c. Any NaN, an infinity times zero or opposite
infinities give NaN; an exact zero has the sign that R197 gives it. -/
def sumF (f : FFmt) (mode : Nat) (terms : List FVal) (bad : Bool) : Nat × Fl :=
  if bad then (f.nan, flNV)
  else
    let infs := terms.filter isInf
    if infs.any (fun v => signOf v) && infs.any (fun v => !signOf v) then (f.nan, flNV)
    else match infs with
      | v :: _ => infF f (signOf v)
      | [] =>
        let q := terms.foldl (fun a v => match v with
          | .fin _ _ e => minE a e
          | _ => a) 0
        let z : Int := terms.foldl (fun a v => match v with
          | .fin s m e => a + inUnits s m e q
          | _ => a) 0
        if z = 0 then
          let allNeg := terms.all fun v => isZero v && signOf v
          let allPos := terms.all fun v => isZero v && !signOf v
          (withSign f (allNeg || (mode == 2 && !allPos)) 0, 0)
        else roundF f mode false (z < 0) z.natAbs q

/-- The magnitude code of an exact value rounded towards zero, as a lower neighbour. -/
def magBelow (f : FFmt) (m : Nat) (e : Int) : Nat := (roundF f 1 false false m e).1

/-- The magnitude code of an exact value rounded away from zero, as an upper neighbour. -/
def magAbove (f : FFmt) (m : Nat) (e : Int) : Nat :=
  let r := roundF f 1 false false m e
  if r.2 &&& flNX = 0 then r.1 else r.1 + 1

/-- floor(log2) of a positive value. -/
def log2Floor (m : Nat) (e : Int) : Int := e + (Nat.log2 m : Int)

/-- A power of two, ±2^k exactly. -/
def isPow2 (m : Nat) : Bool := m != 0 && m == 2 ^ Nat.log2 m

/-- The special values of R193 that are the same at every choice, else none: result and flags. -/
def sfuSpecial (f : FFmt) (fn : Nat) (v : FVal) : Option (Nat × Fl) :=
  let one := (roundF f 0 false false 1 0).1
  match v with
  | .nan sig => some (f.nan, flIf sig flNV)
  | .inf s =>
    match fn with
    | 0 => some (withSign f s 0, 0)
    | 1 => some (if s then (f.nan, flNV) else (0, 0))
    | 2 => some (if s then 0 else f.infCode, 0)
    | 3 => some (if s then (f.nan, flNV) else (f.infCode, 0))
    | 6 => some (withSign f s one, 0)
    | _ => some (f.nan, flNV)
  | .fin s m _ =>
    if m = 0 then
      match fn with
      | 0 => some (withSign f s f.infCode, flDZ)
      | 1 => some (withSign f s f.infCode, flDZ)
      | 2 => some (one, 0)
      | 3 => some (withSign f true f.infCode, flDZ)
      | 5 => some (one, 0)
      | _ => some (withSign f s 0, 0)
    else if s && (fn == 1 || fn == 3) then some (f.nan, flNV)
    else none

/-! ### Values of the special functions to 200 bits, from which the bounds of R192 are taken -/

/-- ln 2 and π/2 in units of 2^-200. -/
def sfuLn2 : Nat := 0xb17217f7d1cf79abc9e3b39803f2f6af40f343267298b62d8a
def sfuHalfPi : Nat := 0x1921fb54442d18469898cc51701b839a252049c1114cf98e804

/-- A value m × 2^e in units of 2^-200, rounded down. -/
def fix200 (m : Nat) (e : Int) : Nat := if e + 200 ≥ 0 then m * 2 ^ (e + 200).toNat else m / 2 ^ (-(e + 200)).toNat

/-- e^x for x from 0 to 1 by its series: n terms from the k-th on. -/
def expSeries (x : Nat) : Nat → Nat → Nat → Nat
  | 0, _, _ => 0
  | n + 1, k, t => t + expSeries x n (k + 1) (t * x / 2 ^ 200 / k)
def exp200 (x : Nat) : Nat := expSeries x 64 1 (2 ^ 200)

/-- e^x for x from 0 up, by e^x = 2^k × e^r. -/
def expUp (x : Nat) : Nat := exp200 (x % sfuLn2) * 2 ^ (x / sfuLn2)

/-- sin x and cos x for x from 0 to π/2 by their series: the terms of one parity. -/
def trigSeries (xx : Nat) : Nat → Nat → Nat → Int
  | 0, _, _ => 0
  | n + 1, k, t => (t : Int) - trigSeries xx n (k + 2) (t * xx / 2 ^ 200 / (k * (k + 1)))
def sin200 (x : Nat) : Int := trigSeries (x * x / 2 ^ 200) 40 2 x
def cos200 (x : Nat) : Int := trigSeries (x * x / 2 ^ 200) 40 1 (2 ^ 200)

/-- sin (fn 4) or cos (fn 5) of a value in units of 2^-200. -/
def trig200 (fn : Nat) (s : Bool) (x : Nat) : Int :=
  let q := (x / sfuHalfPi + (if fn = 5 then 1 else 0)) % 4
  let r := x % sfuHalfPi
  let v := if q % 2 = 0 then sin200 r else cos200 r
  let v := if q < 2 then v else -v
  if s && fn == 4 then -v else v

/-- ln u for u from 1 to 2: twice the series of artanh((u-1)/(u+1)). -/
def atanhSeries (zz : Nat) : Nat → Nat → Nat → Nat
  | 0, _, _ => 0
  | n + 1, k, t => t / k + atanhSeries zz n (k + 2) (t * zz / 2 ^ 200)
def ln200 (u : Nat) : Nat :=
  let z := (u - 2 ^ 200) * 2 ^ 200 / (u + 2 ^ 200)
  2 * atanhSeries (z * z / 2 ^ 200) 70 1 z

/-! ### A choice within a bound -/

/-- The magnitude, counted with its sign, of the least code not below a value, and of the greatest not above it. -/
def codeUp (f : FFmt) (v : Int) (e : Int) : Int := if v ≥ 0 then (magAbove f v.toNat e : Int) else -(magBelow f (-v).toNat e : Int)
def codeDown (f : FFmt) (v : Int) (e : Int) : Int := if v ≥ 0 then (magBelow f v.toNat e : Int) else -(magAbove f (-v).toNat e : Int)

/-- A result among the codes that the signed magnitudes lo to hi count, by the free choice; its flags (R193). -/
def pickBetween (f : FFmt) (lo hi : Int) (choice : Nat) : Nat × Fl :=
  let n := (hi - lo + 1).toNat
  let k : Int := lo + (choice % n : Nat)
  let mag := min k.natAbs f.maxFin
  (withSign f (k < 0 || (k == 0 && choice / n % 2 == 1)) mag, flNX ||| flIf (mag < 2 ^ f.mb) flUF)

/-- A value that is not representable, v × 2^e to 100 bits and more: some result within the bound b × 2^e of it. -/
def sfuWithin (f : FFmt) (v : Int) (e : Int) (b : Nat) (choice : Nat) : Nat × Fl :=
  pickBetween f (codeUp f (v - b) e) (codeDown f (v + b) e) choice

/-- The distance of the two representable values that enclose m × 2^e, in units of 2^e (R192). -/
def ulpOf (f : FFmt) (m : Nat) (e : Int) : Nat :=
  match unpackF f (magBelow f m e) with
  | .fin _ _ q => 2 ^ (q - e).toNat
  | _ => 0

/-- A result whose exact value is not representable and lies below the normal range: the spec leaves it open (R192), some
subnormal, a zero or the least normal value, of its sign (log 34). -/
def sfuTiny (f : FFmt) (s : Bool) (choice : Nat) : Nat × Fl :=
  let c := choice % (2 ^ f.mb + 1)
  (withSign f s c, flNX ||| flIf (c < 2 ^ f.mb) flUF)

/-- A result within n ulp of a value that is not representable (R192). -/
def sfuNear (f : FFmt) (s : Bool) (m : Nat) (e : Int) (n choice : Nat) : Nat × Fl :=
  if magBelow f m e < 2 ^ f.mb then sfuTiny f s choice
  else sfuWithin f (if s then -(m : Int) else m) e (n * ulpOf f m e) choice

/-- The bound of .f32, else that of .f16 (R192). -/
def sfuBound (f : FFmt) (a b : Nat) : Nat := if f.mb = 23 then a else b

/-- UF and NX for an exact result that is subnormal or zero, no flag for another (R193). -/
def tinyFlags (f : FFmt) (mag : Nat) : Fl := flIf (mag % 2 ^ (f.width - 1) < 2 ^ f.mb) (flUF ||| flNX)

/-- The reciprocal of a finite non-zero value: exact for powers of two; else within 1 ulp. -/
def sfuRcp (f : FFmt) (choice : Nat) (s : Bool) (m : Nat) (e : Int) : Nat × Fl :=
  let r := divF f 1 false (.fin false 1 0) (.fin false m e)
  if r.2 &&& flOF ≠ 0 then (withSign f s f.infCode, flOF ||| flNX)
  else if r.2 &&& flNX = 0 then (withSign f s r.1, tinyFlags f r.1)
  else
    let k := 200 + Nat.log2 m
    sfuNear f s (2 ^ k / m) (-(e + (k : Int))) 1 choice

/-- 1/√a of a positive value: exact for 4^k; else within 2 ulp in .f32 and 1 ulp in .f16. -/
def sfuRsqrt (f : FFmt) (choice : Nat) (m : Nat) (e : Int) : Nat × Fl :=
  let k := 400 + Nat.log2 m
  let k := if (e + (k : Int)) % 2 = 0 then k else k + 1
  let r := Nat.sqrt (2 ^ k / m)
  let q := (-(e + (k : Int))) / 2
  if r * r * m == 2 ^ k && (roundF f 1 false false r q).2 == 0 then (magBelow f r q, 0)
  else sfuNear f false r q (sfuBound f 2 1) choice

/-- 2^a of a finite non-zero value: exact for integers whose result is representable; else within 2 ulp in .f32 and 1 ulp in .f16. -/
def sfuExp2 (f : FFmt) (choice : Nat) (s : Bool) (m : Nat) (e : Int) : Nat × Fl :=
  let big : Bool := log2Floor m e ≥ 12
  let x : Int := if s then -(fix200 m e : Int) else fix200 m e
  let fl : Int := if big then (if s then -8192 else 8192) else x / 2 ^ 200
  let fr := if big then 0 else (x % 2 ^ 200).toNat
  let r := roundF f 0 false false 1 fl
  if r.2 &&& flOF ≠ 0 then (f.infCode, flOF ||| flNX)
  else if big || (fr = 0 && r.2 ≠ 0) then sfuTiny f false choice
  else if fr = 0 then (r.1, tinyFlags f r.1)
  else sfuNear f false (exp200 (fr * sfuLn2 / 2 ^ 200)) (fl - 200) (sfuBound f 2 1) choice

/-- log2 of a positive value: exact for 2^k; else within 2 ulp in .f32 and 1 ulp in .f16 outside [0.5, 2], and within 2^-22 or
2^-11 inside. -/
def sfuLog2 (f : FFmt) (choice : Nat) (m : Nat) (e : Int) : Nat × Fl :=
  let fl := log2Floor m e
  if isPow2 m then ((cvtFromInt f 0 fl).1, 0)
  else
    let v : Int := fl * 2 ^ 200 + (ln200 (fix200 m (-(Nat.log2 m : Int))) * 2 ^ 200 / sfuLn2 : Nat)
    if fl = 0 || fl = -1 then sfuWithin f v (-200) (2 ^ (200 - sfuBound f 22 11)) choice
    else sfuNear f (v < 0) v.natAbs (-200) (sfuBound f 2 1) choice

/-- sin and cos of a finite non-zero value: within 2^-21 in .f32 and 2^-11 in .f16 to a magnitude of 1,024; beyond it some value in
[-1, 1] in .f32, some finite value in .f16. -/
def sfuTrig (f : FFmt) (fn choice : Nat) (s : Bool) (m : Nat) (e : Int) : Nat × Fl :=
  let x := fix200 m e
  let one : Int := (roundF f 0 false false 1 0).1
  let far : Int := if f.mb = 23 then one else f.maxFin
  if log2Floor m e ≥ 10 && x != 1024 * 2 ^ 200 then pickBetween f (-far) far choice
  else sfuWithin f (trig200 fn s x) (-200) (2 ^ (200 - sfuBound f 21 11)) choice

/-- tanh of a finite non-zero value: within 3 ulp, or 2^-24 below a magnitude of 2^-12, in .f32; within 1 ulp in .f16. -/
def sfuTanh (f : FFmt) (choice : Nat) (s : Bool) (m : Nat) (e : Int) : Nat × Fl :=
  let x := if log2Floor m e ≥ 6 then 64 * 2 ^ 200 else fix200 m e
  let ex := expUp (2 * x)
  let v : Nat := (ex - 2 ^ 200) * 2 ^ 200 / (ex + 2 ^ 200)
  if f.mb = 23 && log2Floor m e < -12 then sfuWithin f (if s then -(v : Int) else v) (-200) (2 ^ 176) choice
  else sfuNear f s v (-200) (sfuBound f 3 1) choice

/-- A special function of a code (R192, R193): FTZ reads subnormals as zeros and writes subnormal results as zeros (R92). -/
def sfu (fn fc : Nat) (ftz : Bool) (b : Nat) : Nat × Fl :=
  let f := fOfCode fc
  let b := flushIn ftz f b
  let v := unpackF f b
  let choice := Config.sfu fn fc b
  let r := match sfuSpecial f fn v with
    | some r => r
    | none =>
      match v with
      | .fin s m e =>
        match fn with
        | 0 => sfuRcp f choice s m e
        | 1 => sfuRsqrt f choice m e
        | 2 => sfuExp2 f choice s m e
        | 3 => sfuLog2 f choice m e
        | 6 => sfuTanh f choice s m e
        | _ => sfuTrig f fn choice s m e
      | _ => (f.nan, 0)
  if ftz && isSubnormal f r.1 then (withSign f (r.1.testBit (f.width - 1)) 0, flUF ||| flNX) else r

end Sys2Proof.Machine
end

