-- ==== Sys2Proof/Machine/HartMask.lean ====
section
/-! DEFINITION. The mask, mask-stack, basting and fault-ring instructions (R115 to R119, R131 `tmaddr`, R132, R133). -/

namespace Sys2Proof.Machine

/-- A hart instruction: it waits behind the values it needs (R117, R275), and it closes an open basting region first when
R132 lists it, once the region's instructions have passed their parity checks. -/
def onHart (s : State) (i : Instr) (f : Nat → Hart → State) : Host.Outcome State Fault Refusal :=
  withHart s fun k h =>
    if hazard h i then s
    else if closesRegion i && h.snap.isSome then
      (if regionChecked h then f k (closeRegion h) else s)
    else f k h

/-- The sign-extended 12-bit immediate. -/
def sext12 (imm : BitVec 12) : Word := imm.signExtend 64

/-- The branch target of a HI form: pc + 4 × imm12 (R118). -/
def maskTarget (h : Hart) (imm : BitVec 12) : Word := h.pc + sext12 imm * 4

/-- The index of the lowest set bit, or 64 (R116). -/
def lowestBit (m : Mask) : Nat := firstBelow 64 (mbit m)

def execMand (d a b : MR) (s : State) : Host.Outcome State Fault Refusal :=
  onHart s (.mand d a b) fun k h => setHart s k (adv s k (wm h d (rm h a &&& rm h b)) 4)

def execMor (d a b : MR) (s : State) : Host.Outcome State Fault Refusal :=
  onHart s (.mor d a b) fun k h => setHart s k (adv s k (wm h d (rm h a ||| rm h b)) 4)

def execMxor (d a b : MR) (s : State) : Host.Outcome State Fault Refusal :=
  onHart s (.mxor d a b) fun k h => setHart s k (adv s k (wm h d (rm h a ^^^ rm h b)) 4)

def execMandn (d a b : MR) (s : State) : Host.Outcome State Fault Refusal :=
  onHart s (.mandn d a b) fun k h => setHart s k (adv s k (wm h d (rm h a &&& ~~~ rm h b)) 4)

def execMnot (d a : MR) (s : State) : Host.Outcome State Fault Refusal :=
  onHart s (.mnot d a) fun k h => setHart s k (adv s k (wm h d (~~~ rm h a)) 4)

def execMrd (d : XR) (a : MR) (s : State) : Host.Outcome State Fault Refusal :=
  onHart s (.mrd d a) fun k h => setHart s k (adv s k (wx h d (rm h a)) 4)

def execMwr (d : MR) (a : XR) (s : State) : Host.Outcome State Fault Refusal :=
  onHart s (.mwr d a) fun k h => setHart s k (adv s k (wm h d (rx h a)) 4)

def execMcnt (d : XR) (a : MR) (s : State) : Host.Outcome State Fault Refusal :=
  onHart s (.mcnt d a) fun k h => setHart s k (adv s k (wx h d (BitVec.ofNat 64 (popcount (rm h a).toNat 64))) 4)

def execMffs (d : XR) (a : MR) (s : State) : Host.Outcome State Fault Refusal :=
  onHart s (.mffs d a) fun k h => setHart s k (adv s k (wx h d (BitVec.ofNat 64 (lowestBit (rm h a)))) 4)

def execMtop (d : XR) (s : State) : Host.Outcome State Fault Refusal :=
  onHart s (.mtop d) fun k h => setHart s k (adv s k (wx h d (topStk h).mask) 4)

/-- A mask and reconvergence pc pushed (R118, R119). -/
def pushStk (h : Hart) (mask : Mask) (rpc : BitVec 48) : Hart := { setStk h h.dep ⟨mask, rpc⟩ with dep := h.dep + 1 }

/-- R118: push the top mask narrowed by M[a], rpc the label; go to the label when it is empty. -/
def execMif (a : MR) (imm : BitVec 12) (s : State) : Host.Outcome State Fault Refusal :=
  onHart s (.mif a imm) fun k h =>
    if h.dep = 32 then trapAt s k h 25 (instrBits (.mif a imm))
    else
      let t := (topStk h).mask &&& rm h a
      let l := maskTarget h imm
      let h' := pushStk h t (l.setWidth 48)
      setHart s k (if t = 0 then jumpTo s k h' l else adv s k h' 4)

/-- R118: the lanes of the entry below that the top entry lacks, rpc the label. -/
def execMelse (imm : BitVec 12) (s : State) : Host.Outcome State Fault Refusal :=
  onHart s (.melse imm) fun k h =>
    if h.dep = 1 then trapAt s k h 26 (instrBits (.melse imm))
    else
      let t := (stkAt h (h.dep - 2)).mask &&& ~~~ (topStk h).mask
      let l := maskTarget h imm
      let h' := setStk h (h.dep - 1) ⟨t, l.setWidth 48⟩
      setHart s k (if t = 0 then jumpTo s k h' l else adv s k h' 4)

/-- R118: narrow the top mask by M[a]; loop while a lane remains. -/
def execMwhile (a : MR) (imm : BitVec 12) (s : State) : Host.Outcome State Fault Refusal :=
  onHart s (.mwhile a imm) fun k h =>
    if h.dep = 1 then trapAt s k h 26 (instrBits (.mwhile a imm))
    else
      let t := (topStk h).mask &&& rm h a
      let h' := setStk h (h.dep - 1) ⟨t, (topStk h).rpc⟩
      setHart s k (if t = 0 then adv s k h' 4 else jumpTo s k h' (maskTarget h imm))

def execMend (s : State) : Host.Outcome State Fault Refusal :=
  onHart s .mend fun k h =>
    if h.dep = 1 then trapAt s k h 26 (instrBits .mend)
    else setHart s k (adv s k { h with dep := h.dep - 1 } 4)

/-- R118: retire lanes from a loop; when none remain go to the entry's rpc, which must be aligned. The mask is written
before the misaligned target traps, as the rule's statements stand in order (log 11). -/
def execMbrk (a : MR) (s : State) : Host.Outcome State Fault Refusal :=
  onHart s (.mbrk a) fun k h =>
    if h.dep = 1 then trapAt s k h 26 (instrBits (.mbrk a))
    else
      let t := (topStk h).mask &&& ~~~ rm h a
      let h' := setStk h (h.dep - 1) ⟨t, (topStk h).rpc⟩
      let l : Word := (topStk h).rpc.signExtend 64
      if t = 0 then
        (if l &&& 3 ≠ 0 then trapAt s k h' 0 l else setHart s k (jumpTo s k h' l))
      else setHart s k (adv s k h' 4)

def execMspush (a : MR) (b : XR) (s : State) : Host.Outcome State Fault Refusal :=
  onHart s (.mspush a b) fun k h =>
    if h.dep = 32 then trapAt s k h 25 (instrBits (.mspush a b))
    else setHart s k (adv s k (pushStk h (rm h a) ((rx h b).setWidth 48)) 4)

def execMspop (d : MR) (s : State) : Host.Outcome State Fault Refusal :=
  onHart s (.mspop d) fun k h =>
    if h.dep = 1 then trapAt s k h 26 (instrBits (.mspop d))
    else setHart s k (adv s k (wm { h with dep := h.dep - 1 } d (topStk h).mask) 4)

def execMsrdm (d a : XR) (s : State) : Host.Outcome State Fault Refusal :=
  onHart s (.msrdm d a) fun k h =>
    let i := (rx h a).toNat
    setHart s k (adv s k (wx h d (if i < h.dep then (stkAt h i).mask else 0)) 4)

def execMsrdp (d a : XR) (s : State) : Host.Outcome State Fault Refusal :=
  onHart s (.msrdp d a) fun k h =>
    let i := (rx h a).toNat
    setHart s k (adv s k (wx h d (if i < h.dep then (stkAt h i).rpc.signExtend 64 else 0)) 4)

def execMswrm (a b : XR) (s : State) : Host.Outcome State Fault Refusal :=
  onHart s (.mswrm a b) fun k h =>
    let i := (rx h a).toNat
    if i ≥ h.dep then trapAt s k h 26 (instrBits (.mswrm a b))
    else setHart s k (adv s k (setStk h i ⟨rx h b, (stkAt h i).rpc⟩) 4)

def execMswrp (a b : XR) (s : State) : Host.Outcome State Fault Refusal :=
  onHart s (.mswrp a b) fun k h =>
    let i := (rx h a).toNat
    if i ≥ h.dep then trapAt s k h 26 (instrBits (.mswrp a b))
    else setHart s k (adv s k (setStk h i ⟨(stkAt h i).mask, (rx h b).setWidth 48⟩) 4)

/-- Bits [8 × off + 8 × n - 1 : 8 × off] of a tensor map: n bytes at byte offset off (R211). -/
def tmBytes (t : TMap) (off n : Nat) : Nat := t.toNat / 2 ^ (8 * off) % 2 ^ (8 * n)

/-- The fields of a descriptor (R211). -/
def tmBase (t : TMap) : Nat := tmBytes t 0 8
def tmEsizeCode (t : TMap) : Nat := tmBytes t 9 1
def tmEsize (t : TMap) : Nat := 2 ^ tmEsizeCode t
def tmRank (t : TMap) : Nat := tmBytes t 0x0A 1
def tmSize (t : TMap) (i : Nat) : Nat := tmBytes t (0x10 + 4 * i) 4
def tmStride (t : TMap) (i : Nat) : Nat := if i = 0 then tmEsize t else tmBytes t (0x28 + 8 * (i - 1)) 8
def tmBox (t : TMap) (i : Nat) : Nat := tmBytes t (0x48 + 2 * i) 2

/-- A valid descriptor: every field keeps its limits (R211). -/
def tmValid (t : TMap) : Bool :=
  let e := tmEsize t
  let r := tmRank t
  tmBytes t 8 1 == 0xD1 && tmEsizeCode t ≤ 3 && 1 ≤ r && r ≤ 5 &&
  canonicalNat (tmBase t) && tmBase t % e == 0 && tmBytes t 0x0B 5 == 0 && tmBytes t 0x24 4 == 0 && tmBytes t 0x52 46 == 0 &&
  ((List.range 5).all fun i => if i < r then 1 ≤ tmSize t i && tmSize t i ≤ 65536 else tmSize t i == 0) &&
  ((List.range 5).all fun i => i == 0 || (if i < r then tmStride t i % e == 0 && tmStride t i < 2 ^ 40 else tmBytes t (0x28 + 8 * (i - 1)) 8 == 0)) &&
  ((List.range 5).all fun i => if i < r then 1 ≤ tmBox t i && tmBox t i ≤ 4096 else tmBox t i == 0)
where
  canonicalNat (n : Nat) : Bool := n / 2 ^ 47 == 0 || n / 2 ^ 47 == 2 ^ 17 - 1

/-- Coordinate i of a coordinate word: 16 bits each for i = 0 to 3, 0 for the fifth (R131, R212). -/
def coordOf (w : Word) (i : Nat) : Nat := if i < 4 then bitsOf w.toNat (16 * i) 16 else 0

/-- R131: the address of the coordinates in X[b], or TMAP_FAULT. -/
def execTmaddr (d : XR) (a : MR) (b : XR) (s : State) : Host.Outcome State Fault Refusal :=
  onHart s (.tmaddr d a b) fun k h =>
    let t := rtm h a
    let c := coordOf (rx h b)
    let r := min (tmRank t) 4
    if !tmValid t || (List.range r).any (fun i => c i ≥ tmSize t i) ||
        (List.range 4).any (fun i => i ≥ tmRank t && c i != 0) then trapAt s k h 30 (rx h b)
    else
      let off := (List.range r).foldl (fun z i => z + c i * tmStride t i) 0
      setHart s k (adv s k (wx h d (BitVec.ofNat 64 (tmBase t + off))) 4)

/-- R132: close any open region, take the snapshot, set bstpc and BACT. -/
def execBst (s : State) : Host.Outcome State Fault Refusal :=
  onHart s .bst fun k h =>
    if h.snap.isSome && !regionChecked h then s
    else
      let h := closeRegion h
      let h := { h with snap := some ⟨h.x, h.m, h.stk, h.dep⟩, l := { h.l with bstpc := h.pc + 4 } }
      setHart s k (adv s k h 4)

/-- R132: close the open region once its instructions have passed their parity checks; nothing without one. -/
def execBend (s : State) : Host.Outcome State Fault Refusal :=
  onHart s .bend fun k h =>
    if h.snap.isSome && !regionChecked h then s
    else setHart s k (adv s k (if h.snap.isSome then closeRegion h else h) 4)

/-- Codes of R153. -/
def stateCode : EState → Nat
  | .done => 0 | .inflight => 1 | .parked => 2 | .held => 3
def engineCode : Engine → Nat
  | .lane => 0 | .matrix => 1 | .copy => 2 | .message => 3

/-- Word k of a ring entry (R153). -/
def ringWord (e : Entry) (k : Nat) : Word :=
  match k with
  | 0 => BitVec.ofNat 64 (e.seq + stateCode e.st * 2 ^ 16 + engineCode e.eng * 2 ^ 18 + b2n (e.mode == .s) * 2 ^ 21 +
          b2n e.started * 2 ^ 22 + b2n e.part * 2 ^ 23 + b2n e.sq * 2 ^ 24 + b2n e.await * 2 ^ 25 + b2n e.repl * 2 ^ 26 +
          e.frm.toNat * 2 ^ 27 + b2n e.dlv * 2 ^ 30 + b2n e.ftz * 2 ^ 31 + e.opb.toNat * 2 ^ 32)
  | 1 => BitVec.ofNat 64 (e.pc.toNat + e.code * 2 ^ 48)
  | 2 => e.lmask
  | _ => e.opa

/-- An operand of a ring instruction that names an entry among the last 64 forwarded (R133). -/
def ringNamed (h : Hart) (q : Word) : Option Entry := if q.toNat < 65536 then entryAt h q.toNat else none

def execFrrd (d a : XR) (kk : BitVec 2) (s : State) : Host.Outcome State Fault Refusal :=
  onHart s (.frrd d a kk) fun k h =>
    match ringNamed h (rx h a) with
    | none => trapAt s k h 29 (rx h a)
    | some e => setHart s k (adv s k (wx h d (ringWord e kk.toNat)) 4)

/-- An entry made INFLIGHT again as a replay (R159): the mask still to perform is LMASK; the report fields are clear. -/
def replayEntry (e : Entry) : Entry :=
  { e with st := .inflight, repl := true, sq := false, dlv := false, code := 0, flt := [], pages := [], resolved := false,
           stage := .queued, await := false }

/-- A HELD entry re-forwarded at the place of the `frrep` (R157); its bits are fetched again before it goes on (R159). The lane queue
takes a lane or matrix entry at its end (R133); it may then hold more than the 16 of R103, since the spec does not say how more HELD ones are taken
(DESIGN CHOICE, log 122). -/
def requeue (h : Hart) (e : Entry) : Hart :=
  let h := { updEntry h e.seq (fun e => { replayEntry e with stage := .refetch, pos := h.npos }) with npos := h.npos + 1 }
  if e.eng == .lane || e.eng == .matrix then { h with laneQ := h.laneQ ++ [e.seq] } else h

/-- R133: re-forward every HELD entry as a replay, in sequence order. -/
def execFrrep (s : State) : Host.Outcome State Fault Refusal :=
  onHart s .frrep fun k h =>
    if h.mode ≠ .s then illegal s k h .frrep
    else
      let h' := ((ringOldest h).filter fun e => e.st == .held).foldl requeue h
      setHart s k (adv s k h' 4)

/-- R133: a HELD entry becomes DONE; faulted lanes take no effect, completed lanes stay. -/
def execFrdrop (a : XR) (s : State) : Host.Outcome State Fault Refusal :=
  onHart s (.frdrop a) fun k h =>
    if h.mode ≠ .s then illegal s k h (.frdrop a)
    else
      match ringNamed h (rx h a) with
      | none => trapAt s k h 29 (rx h a)
      | some e =>
        if e.st ≠ .held then trapAt s k h 29 (rx h a)
        else dropEffect s k (adv s k (updEntry h e.seq fun e => { e with st := .done, await := false }) 4) e

end Sys2Proof.Machine
end

