-- ==== Sys2Proof/Machine/Forward.lean ====
section
/-! DEFINITION. Forwarding (R145, R146): every 64-bit instruction outside group AT takes a sequence number and a ring
entry, with its operands read and its mask, rounding mode and FTZ captured, and enters its engine's queue. One meaning an
instruction of groups LM, LX, LI, LC, LF, LS, LV, LD, LP, LB, MX, CP and MS; the engines' steps give their effects. -/

namespace Sys2Proof.Machine

/-- The execution mask at forwarding: the top mask and the predicate (R73, R117). -/
def execMask (h : Hart) (o : Eops) : Mask :=
  (topStk h).mask &&& (if o.pi = 1 then ~~~ rm h o.pm else rm h o.pm)

/-- The element size in bytes that a W code gives (R72, R163). -/
def wSize (fmt : BitVec 3) : Nat := fmtWidth .w fmt.toNat / 8

/-- The instructions that read `lctl.FTZ` (R92). A `vcvt` does when both formats are among .f32, .f64, .f16 and .bf16. -/
def readsFtz (i : Instr) : Bool :=
  match i with
  | .vcvtFF src o => src.toNat < 4 && o.fmt.toNat < 4
  | .vfscan _ | .vfgred _ => true
  | _ => match engine? i with
    | some (sh, _) => sh.grp == 4 || sh.grp == 5
    | none => false

/-- A rounding mode taken from `lfrm` (R94). -/
def dynRounds (sh : Shape) (o : Eops) : Bool := sh.rnd == .mode && o.rnd == 7

/-- What an instruction gives its ring entry: an exception instead, a wait, or OPA, OPB, word 2 and the hart with what
else forwarding changes. -/
inductive Fwd where
  | trap (cause : Nat) (tval : Word)
  | wait
  | go (opa : Word) (opb : BitVec 32) (w2 : Word) (h : Hart)

/-- The x registers that an engine will write (R117, R200, R206, R246, R275, R276). -/
def xDests (i : Instr) : List XR :=
  match i with
  | .vmvx o | .vredOpen o | .vredFlush o | .twait o | .mackrd o => [xreg o.vd]
  | .mrecv o => [xreg o.vd, xreg o.vs1]
  | _ => []

/-- The whole register whose low half OPB keeps, for the operand check of a copy (R216). -/
def fullOperand (h : Hart) (i : Instr) : Word :=
  match i with
  | .cpgs o | .cpsg o | .cpmc o => rx h (xreg o.vd)
  | .cpgg o | .cpadd o | .cpfill o => rx h (xreg o.vs3)
  | _ => 0

/-- The ring entry of a forwarded instruction (R145, R153). -/
def newEntry (h : Hart) (i : Instr) (sh : Shape) (o : Eops) (opa : Word) (opb : BitVec 32) (w2 : Word) : Entry :=
  { seq := h.l.nseq, st := .inflight, eng := engineOf sh.grp, mode := h.mode, started := false, part := false, sq := false,
    await := false, repl := false, dlv := false, ftz := readsFtz i && h.l.ftz,
    frm := if dynRounds sh o then h.l.lfrm else 0, opb := opb, pc := h.pc.setWidth 48, code := 0, lmask := w2, opa := opa,
    instr := i, stage := .queued, fltLanes := 0, fltAddr := 0, flt := [], pages := [], resolved := false,
    region := h.snap.isSome, ptw := fullOperand h i, count := 0, fmask := w2, closed := 0, rsvd := false, pos := h.npos }

/-- The hart cannot forward yet (R146): a full lane queue, a ring slot in use, a parked entry. -/
def forwardBlocked (h : Hart) (sh : Shape) : Bool :=
  ((sh.grp < 0x0B) && h.laneQ.length ≥ 16) || anyParked h ||
  (match tget h.ring (h.l.nseq % 64) with
   | some e => e.st != .done
   | none => false)

/-- The hart after forwarding (R145). -/
def forwarded (s : State) (k : Nat) (h : Hart) (e : Entry) (i : Instr) : Hart :=
  let h := { h with
    ring := tput h.ring (e.seq % 64) e,
    l := { h.l with nseq := (h.l.nseq + 1) % 65536 },
    npos := h.npos + 1,
    laneQ := if e.eng == .lane || e.eng == .matrix then h.laneQ ++ [e.seq] else h.laneQ,
    xlock := h.xlock ++ ((xDests i).filter (· != 0)).map fun r => (r.toNat, e.seq) }
  adv s k h 8

/-- FORWARDING: out-of-allocation registers and an illegal `lfrm` raise cause 2 before the instruction enters any queue
(R63, R69, R94); then the instruction's own checks; then R146; then the entry. -/
def forward (s : State) (i : Instr) (plan : Nat → Hart → Fwd) : Host.Outcome State Fault Refusal :=
  onHart s i fun k h =>
    match engine? i with
    | none => s
    | some (sh, o) =>
      if !allocOk h.id.nv h.id.nt i || (dynRounds sh o && h.l.lfrm.toNat > 4) then illegal s k h i
      else
        match plan k h with
        | .trap c t => trapAt s k h c t
        | .wait => s
        | .go opa opb w2 h' =>
          if forwardBlocked h sh then s
          else setHart s k (forwarded s k h' { newEntry h i sh o opa opb w2 with rsvd := sh.grp == 0x0A && h'.msg.rsv != h.msg.rsv } i)

/-- A lane compute instruction: OPA is the x operand when ks is 01 (R153). -/
def planCompute (i : Instr) (h : Hart) : Fwd :=
  match engine? i with
  | some (sh, o) => .go (if sh.vs2 = .b ∧ o.ks = 1 then rx h (xreg o.vs2) else 0) 0 (execMask h o) h
  | none => .wait

def forwardCompute (i : Instr) (s : State) : Host.Outcome State Fault Refusal := forward s i fun _ h => planCompute i h

/-- X[a] with an 8-bit displacement in units (R165). -/
def baseDisp (h : Hart) (o : Eops) (unit : Nat) : Word := rx h (xreg o.vs1) + o.vs3.signExtend 64 * BitVec.ofNat 64 unit

/-- The stride of the strided forms: the low 32 bits of the x register, or the imm8 (R165). -/
def strideOf (h : Hart) (o : Eops) : BitVec 32 := if o.ks = 1 then (rx h (xreg o.vs2)).setWidth 32 else o.vs3.signExtend 32

/-- A lane memory instruction with OPA the base (R165). -/
def forwardMem (i : Instr) (o : Eops) (opa : Hart → Word) (opb : Hart → BitVec 32) (s : State) : Host.Outcome State Fault Refusal :=
  forward s i fun _ h => .go (opa h) (opb h) (execMask h o) h

/-- The key of `vred.add` and `vred.flush`: the 48-bit result address and the B code (R203). -/
def redKey (h : Hart) (o : Eops) : Nat × Nat := ((rx h (xreg o.vs1)).toNat % 2 ^ 48, o.fmt.toNat)

/-- A copy takes an inbox reservation at forwarding, but in a handler hart (R272, R281). -/
def planCopy (h : Hart) (opa : Word) (opb : BitVec 32) (w2 : Word) : Fwd :=
  if h.id.handler then .go opa opb w2 h
  else if h.msg.rsv ≥ 16 then .wait
  else .go opa opb w2 { h with msg := { h.msg with rsv := h.msg.rsv + 1 } }

/-- Lowest free send-queue entry, or 8. -/
def freeSendIdx (h : Hart) : Nat := firstBelow 8 fun j => if p : j < 8 then !h.msg.sendq[j].used else false

/-- R266, R281: `msend` and `msendb`. -/
def planSend (i : Instr) (o : Eops) (n : Nat) (k : Nat) (h : Hart) : Fwd :=
  let t := rx h (xreg o.vd)
  let rpl := wbit t 61
  let q := freeSendIdx h
  let _ := k
  if h.id.handler && rpl then .trap 2 (instrBits i)
  else if rpl && h.msg.rsv ≥ 16 then .wait
  else if q ≥ 8 then .trap 27 t
  else
    let p := (List.range n).map fun j => rx h (xreg o.vs3 + BitVec.ofNat 5 j)
    let se : SendEntry := { used := true, seq := h.l.nseq, target := t, handler := rx h (xreg o.vs1), p := p, sent := false }
    let h' := { h with msg := { h.msg with
      sendq := if pf : q < 8 then h.msg.sendq.set q se else h.msg.sendq,
      rsv := if rpl then h.msg.rsv + 1 else h.msg.rsv } }
    .go t (BitVec.ofNat 32 q) (rx h (xreg o.vs1)) h'


def execVld (o : Eops) (s : State) : Host.Outcome State Fault Refusal :=
  forwardMem (.vld o) o (fun h => baseDisp h o (64 * wSize o.fmt)) (fun _ => 0) s

def execVst (o : Eops) (s : State) : Host.Outcome State Fault Refusal :=
  forwardMem (.vst o) o (fun h => baseDisp h o (64 * wSize o.fmt)) (fun _ => 0) s

def execVlds (o : Eops) (s : State) : Host.Outcome State Fault Refusal :=
  forwardMem (.vlds o) o (fun h => rx h (xreg o.vs1)) (fun h => strideOf h o) s

def execVsts (o : Eops) (s : State) : Host.Outcome State Fault Refusal :=
  forwardMem (.vsts o) o (fun h => rx h (xreg o.vs1)) (fun h => strideOf h o) s

def execVldg (o : Eops) (s : State) : Host.Outcome State Fault Refusal :=
  forwardMem (.vldg o) o (fun h => rx h (xreg o.vs1)) (fun _ => 0) s

def execVstg (o : Eops) (s : State) : Host.Outcome State Fault Refusal :=
  forwardMem (.vstg o) o (fun h => rx h (xreg o.vs1)) (fun _ => 0) s

def execVldt (o : Eops) (s : State) : Host.Outcome State Fault Refusal :=
  forwardMem (.vldt o) o (fun h => baseDisp h o (wSize o.fmt)) (fun _ => 0) s

def execVstt (o : Eops) (s : State) : Host.Outcome State Fault Refusal :=
  forwardMem (.vstt o) o (fun h => baseDisp h o (wSize o.fmt)) (fun _ => 0) s

def execVldf (o : Eops) (s : State) : Host.Outcome State Fault Refusal :=
  forwardMem (.vldf o) o (fun h => rx h (xreg o.vs1)) (fun h => (rx h (xreg o.vs3)).setWidth 32) s

def execVstf (o : Eops) (s : State) : Host.Outcome State Fault Refusal :=
  forwardMem (.vstf o) o (fun h => rx h (xreg o.vs1)) (fun h => (rx h (xreg o.vs3)).setWidth 32) s

def execVcst (o : Eops) (s : State) : Host.Outcome State Fault Refusal :=
  forwardMem (.vcst o) o (fun h => baseDisp h o (wSize o.fmt)) (fun _ => 0) s

def execVxld (o : Eops) (s : State) : Host.Outcome State Fault Refusal :=
  forwardMem (.vxld o) o (fun h => baseDisp h o (wSize o.fmt)) (fun _ => 0) s

def execVamo (o : Eops) (s : State) : Host.Outcome State Fault Refusal :=
  forwardMem (.vamo o) o (fun h => rx h (xreg o.vs1)) (fun _ => 0) s

def execVamoAq (o : Eops) (s : State) : Host.Outcome State Fault Refusal :=
  forwardMem (.vamoAq o) o (fun h => rx h (xreg o.vs1)) (fun _ => 0) s

def execVamoRl (o : Eops) (s : State) : Host.Outcome State Fault Refusal :=
  forwardMem (.vamoRl o) o (fun h => rx h (xreg o.vs1)) (fun _ => 0) s

def execVamoAqrl (o : Eops) (s : State) : Host.Outcome State Fault Refusal :=
  forwardMem (.vamoAqrl o) o (fun h => rx h (xreg o.vs1)) (fun _ => 0) s

def execVpf (o : Eops) (s : State) : Host.Outcome State Fault Refusal :=
  forwardMem (.vpf o) o (fun h => rx h (xreg o.vs1)) (fun _ => 0) s

def execVfence (o : Eops) (s : State) : Host.Outcome State Fault Refusal :=
  forwardMem (.vfence o) o (fun _ => 0) (fun _ => 0) s

def execVaddI (o : Eops) (s : State) : Host.Outcome State Fault Refusal := forwardCompute (.vaddI o) s

def execVsubI (o : Eops) (s : State) : Host.Outcome State Fault Refusal := forwardCompute (.vsubI o) s

def execVmulI (o : Eops) (s : State) : Host.Outcome State Fault Refusal := forwardCompute (.vmulI o) s

def execVmulh (o : Eops) (s : State) : Host.Outcome State Fault Refusal := forwardCompute (.vmulh o) s

def execVdivI (o : Eops) (s : State) : Host.Outcome State Fault Refusal := forwardCompute (.vdivI o) s

def execVrem (o : Eops) (s : State) : Host.Outcome State Fault Refusal := forwardCompute (.vrem o) s

def execVminI (o : Eops) (s : State) : Host.Outcome State Fault Refusal := forwardCompute (.vminI o) s

def execVmaxI (o : Eops) (s : State) : Host.Outcome State Fault Refusal := forwardCompute (.vmaxI o) s

def execVadds (o : Eops) (s : State) : Host.Outcome State Fault Refusal := forwardCompute (.vadds o) s

def execVsubs (o : Eops) (s : State) : Host.Outcome State Fault Refusal := forwardCompute (.vsubs o) s

def execVabsI (o : Eops) (s : State) : Host.Outcome State Fault Refusal := forwardCompute (.vabsI o) s

def execVnegI (o : Eops) (s : State) : Host.Outcome State Fault Refusal := forwardCompute (.vnegI o) s

def execVmad (o : Eops) (s : State) : Host.Outcome State Fault Refusal := forwardCompute (.vmad o) s

def execVand (o : Eops) (s : State) : Host.Outcome State Fault Refusal := forwardCompute (.vand o) s

def execVor (o : Eops) (s : State) : Host.Outcome State Fault Refusal := forwardCompute (.vor o) s

def execVxor (o : Eops) (s : State) : Host.Outcome State Fault Refusal := forwardCompute (.vxor o) s

def execVnot (o : Eops) (s : State) : Host.Outcome State Fault Refusal := forwardCompute (.vnot o) s

def execVsll (o : Eops) (s : State) : Host.Outcome State Fault Refusal := forwardCompute (.vsll o) s

def execVsrl (o : Eops) (s : State) : Host.Outcome State Fault Refusal := forwardCompute (.vsrl o) s

def execVsra (o : Eops) (s : State) : Host.Outcome State Fault Refusal := forwardCompute (.vsra o) s

def execVmov (o : Eops) (s : State) : Host.Outcome State Fault Refusal := forwardCompute (.vmov o) s

def execVli (o : Eops) (s : State) : Host.Outcome State Fault Refusal := forwardCompute (.vli o) s

def execVcmp (o : Eops) (s : State) : Host.Outcome State Fault Refusal := forwardCompute (.vcmp o) s

def execVfcmp (o : Eops) (s : State) : Host.Outcome State Fault Refusal := forwardCompute (.vfcmp o) s

def execVsel (o : Eops) (s : State) : Host.Outcome State Fault Refusal := forwardCompute (.vsel o) s

def execVpopc (o : Eops) (s : State) : Host.Outcome State Fault Refusal := forwardCompute (.vpopc o) s

def execVclz (o : Eops) (s : State) : Host.Outcome State Fault Refusal := forwardCompute (.vclz o) s

def execVctz (o : Eops) (s : State) : Host.Outcome State Fault Refusal := forwardCompute (.vctz o) s

def execVbrev (o : Eops) (s : State) : Host.Outcome State Fault Refusal := forwardCompute (.vbrev o) s

def execVaddF (o : Eops) (s : State) : Host.Outcome State Fault Refusal := forwardCompute (.vaddF o) s

def execVsubF (o : Eops) (s : State) : Host.Outcome State Fault Refusal := forwardCompute (.vsubF o) s

def execVmulF (o : Eops) (s : State) : Host.Outcome State Fault Refusal := forwardCompute (.vmulF o) s

def execVdivF (o : Eops) (s : State) : Host.Outcome State Fault Refusal := forwardCompute (.vdivF o) s

def execVsqrt (o : Eops) (s : State) : Host.Outcome State Fault Refusal := forwardCompute (.vsqrt o) s

def execVminF (o : Eops) (s : State) : Host.Outcome State Fault Refusal := forwardCompute (.vminF o) s

def execVmaxF (o : Eops) (s : State) : Host.Outcome State Fault Refusal := forwardCompute (.vmaxF o) s

def execVabsF (o : Eops) (s : State) : Host.Outcome State Fault Refusal := forwardCompute (.vabsF o) s

def execVnegF (o : Eops) (s : State) : Host.Outcome State Fault Refusal := forwardCompute (.vnegF o) s

def execVfma (o : Eops) (s : State) : Host.Outcome State Fault Refusal := forwardCompute (.vfma o) s

def execVfms (o : Eops) (s : State) : Host.Outcome State Fault Refusal := forwardCompute (.vfms o) s

def execVfnma (o : Eops) (s : State) : Host.Outcome State Fault Refusal := forwardCompute (.vfnma o) s

def execVclass (o : Eops) (s : State) : Host.Outcome State Fault Refusal := forwardCompute (.vclass o) s

def execVrcp (o : Eops) (s : State) : Host.Outcome State Fault Refusal := forwardCompute (.vrcp o) s

def execVrsqrt (o : Eops) (s : State) : Host.Outcome State Fault Refusal := forwardCompute (.vrsqrt o) s

def execVexp2 (o : Eops) (s : State) : Host.Outcome State Fault Refusal := forwardCompute (.vexp2 o) s

def execVlog2 (o : Eops) (s : State) : Host.Outcome State Fault Refusal := forwardCompute (.vlog2 o) s

def execVsin (o : Eops) (s : State) : Host.Outcome State Fault Refusal := forwardCompute (.vsin o) s

def execVcos (o : Eops) (s : State) : Host.Outcome State Fault Refusal := forwardCompute (.vcos o) s

def execVtanh (o : Eops) (s : State) : Host.Outcome State Fault Refusal := forwardCompute (.vtanh o) s

def execVcvtFF (src : BitVec 3) (o : Eops) (s : State) : Host.Outcome State Fault Refusal := forwardCompute (.vcvtFF src o) s

def execVcvtFI (src : BitVec 3) (o : Eops) (s : State) : Host.Outcome State Fault Refusal := forwardCompute (.vcvtFI src o) s

def execVcvtIF (src : BitVec 3) (o : Eops) (s : State) : Host.Outcome State Fault Refusal := forwardCompute (.vcvtIF src o) s

def execVpk (o : Eops) (s : State) : Host.Outcome State Fault Refusal := forwardCompute (.vpk o) s

def execVupk (o : Eops) (s : State) : Host.Outcome State Fault Refusal := forwardCompute (.vupk o) s

def execVdot (o : Eops) (s : State) : Host.Outcome State Fault Refusal := forwardCompute (.vdot o) s

def execVfdot (o : Eops) (s : State) : Host.Outcome State Fault Refusal := forwardCompute (.vfdot o) s

def execVlid (o : Eops) (s : State) : Host.Outcome State Fault Refusal := forwardCompute (.vlid o) s

def execVballot (o : Eops) (s : State) : Host.Outcome State Fault Refusal := forwardCompute (.vballot o) s

def execVshfl (o : Eops) (s : State) : Host.Outcome State Fault Refusal := forwardCompute (.vshfl o) s

def execVshup (o : Eops) (s : State) : Host.Outcome State Fault Refusal := forwardCompute (.vshup o) s

def execVshdn (o : Eops) (s : State) : Host.Outcome State Fault Refusal := forwardCompute (.vshdn o) s

def execVxorl (o : Eops) (s : State) : Host.Outcome State Fault Refusal := forwardCompute (.vxorl o) s

def execVbcast (o : Eops) (s : State) : Host.Outcome State Fault Refusal := forwardCompute (.vbcast o) s

def execVscan (o : Eops) (s : State) : Host.Outcome State Fault Refusal := forwardCompute (.vscan o) s

def execVscanx (o : Eops) (s : State) : Host.Outcome State Fault Refusal := forwardCompute (.vscanx o) s

def execVgred (o : Eops) (s : State) : Host.Outcome State Fault Refusal := forwardCompute (.vgred o) s

def execVmvx (o : Eops) (s : State) : Host.Outcome State Fault Refusal := forwardCompute (.vmvx o) s

def execVfscan (o : Eops) (s : State) : Host.Outcome State Fault Refusal := forwardCompute (.vfscan o) s

def execVfgred (o : Eops) (s : State) : Host.Outcome State Fault Refusal := forwardCompute (.vfgred o) s

/-- `vred.open` (R204): OPA is X[a] and OPB is X[b], which the 32 bits of OPB hold saturated; the spec does not say what
they hold (DESIGN CHOICE, log 107). -/
def execVredOpen (o : Eops) (s : State) : Host.Outcome State Fault Refusal :=
  forward s (.vredOpen o) fun _ h =>
    if h.snap.isSome then .trap 2 (instrBits (.vredOpen o))
    else .go (rx h (xreg o.vs1)) (BitVec.ofNat 32 (min (rx h (xreg o.vs3)).toNat (2 ^ 32 - 1))) (topStk h).mask h

/-- The copy of the key that the forwarding logic keeps (R203, R205): that of the hart's buffer entry, as the `vred.add` and `vred.flush` that
it has forwarded and that are not done will leave it. A `vred.add` with LMASK 0 adds nothing and claims no key; R205 speaks of every `vred.add`, R152
of the buffer not at all (DESIGN CHOICE, log 124). -/
def openKey (s : State) (k : Nat) (h : Hart) : Option (Nat × Nat) :=
  (ringOldest h).foldl (fun key e =>
    if e.st != .inflight && e.st != .parked then key
    else match e.instr with
      | .vredAdd o => if key.isNone && e.lmask != 0 then some (e.opa.toNat % 2 ^ 48, o.fmt.toNat) else key
      | .vredFlush o => if key = some (e.opa.toNat % 2 ^ 48, o.fmt.toNat) && e.stage != .sent then none else key
      | _ => key) ((tget s.reds.buf k).map fun r => (r.va, r.fmt))

/-- `vred.add` (R205): a key other than the open one, or than that of a lost fragment, raises cause 2. -/
def execVredAdd (o : Eops) (s : State) : Host.Outcome State Fault Refusal :=
  forward s (.vredAdd o) fun k h =>
    let key := redKey h o
    let second := ((openKey s k h).any (· != key)) || h.frag.any (· != key)
    if h.snap.isSome || second then .trap 2 (instrBits (.vredAdd o))
    else .go (rx h (xreg o.vs1)) 0 (execMask h o) h

def execVredFlush (o : Eops) (s : State) : Host.Outcome State Fault Refusal :=
  forward s (.vredFlush o) fun _ h =>
    if h.snap.isSome then .trap 2 (instrBits (.vredFlush o))
    else .go (rx h (xreg o.vs1)) 0 (topStk h).mask h

def execMma (o : Eops) (s : State) : Host.Outcome State Fault Refusal :=
  forward s (.mma o) fun _ h => if h.id.arev = 0 then .trap 2 (instrBits (.mma o)) else .go 0 0 0 h

def execMmasp (o : Eops) (s : State) : Host.Outcome State Fault Refusal :=
  forward s (.mmasp o) fun _ h => if h.id.arev = 0 then .trap 2 (instrBits (.mmasp o)) else .go 0 0 0 h

def execMmabk (o : Eops) (s : State) : Host.Outcome State Fault Refusal :=
  forward s (.mmabk o) fun _ h => if h.id.arev = 0 then .trap 2 (instrBits (.mmabk o)) else .go 0 0 0 h

def execTzero (o : Eops) (s : State) : Host.Outcome State Fault Refusal :=
  forward s (.tzero o) fun _ h => .go 0 0 0 h

def execTmovv (o : Eops) (s : State) : Host.Outcome State Fault Refusal :=
  forward s (.tmovv o) fun _ h => .go 0 0 0 h

def execTmovt (o : Eops) (s : State) : Host.Outcome State Fault Refusal :=
  forward s (.tmovt o) fun _ h => .go 0 0 0 h

def execTst (o : Eops) (s : State) : Host.Outcome State Fault Refusal :=
  forward s (.tst o) fun _ h => .go (rx h (xreg o.vs1)) 0 0 h

def execTld (o : Eops) (s : State) : Host.Outcome State Fault Refusal :=
  forward s (.tld o) fun _ h => .go (rx h (xreg o.vs1)) 0 0 h

def execTdrain (o : Eops) (s : State) : Host.Outcome State Fault Refusal :=
  forward s (.tdrain o) fun k h =>
    let xc := rx h (xreg o.vs1)
    let xo := rx h (xreg o.vs3)
    let self := slotOfHwhere xc.toNat == k
    if self && h.msg.rsv ≥ 16 then .wait
    else .go xc (xo.setWidth 32) xo (if self then { h with msg := { h.msg with rsv := h.msg.rsv + 1 } } else h)

def execTwait (o : Eops) (s : State) : Host.Outcome State Fault Refusal :=
  forward s (.twait o) fun _ h => .go 0 0 0 h

def execCpgs (o : Eops) (s : State) : Host.Outcome State Fault Refusal :=
  forward s (.cpgs o) fun _ h => planCopy h (rx h (xreg o.vs1)) ((rx h (xreg o.vd)).setWidth 32) 0

def execCpsg (o : Eops) (s : State) : Host.Outcome State Fault Refusal :=
  forward s (.cpsg o) fun _ h => planCopy h (rx h (xreg o.vs1)) ((rx h (xreg o.vd)).setWidth 32) 0

def execCpgg (o : Eops) (s : State) : Host.Outcome State Fault Refusal :=
  forward s (.cpgg o) fun _ h => planCopy h (rx h (xreg o.vd)) ((rx h (xreg o.vs3)).setWidth 32) (rx h (xreg o.vs1))

def execCpmc (o : Eops) (s : State) : Host.Outcome State Fault Refusal :=
  forward s (.cpmc o) fun _ h =>
    planCopy h (rx h (xreg o.vs1)) ((rx h (xreg o.vd)).setWidth 32) (BitVec.ofNat 64 (bitsOf (rx h (xreg o.vd)).toNat 32 16 * 2 ^ 16))

def execCpfill (o : Eops) (s : State) : Host.Outcome State Fault Refusal :=
  forward s (.cpfill o) fun _ h => planCopy h (rx h (xreg o.vd)) ((rx h (xreg o.vs3)).setWidth 32) (rx h (xreg o.vs1))

def execCpadd (o : Eops) (s : State) : Host.Outcome State Fault Refusal :=
  forward s (.cpadd o) fun _ h => planCopy h (rx h (xreg o.vd)) ((rx h (xreg o.vs3)).setWidth 32) (rx h (xreg o.vs1))

def execMsend (o : Eops) (s : State) : Host.Outcome State Fault Refusal :=
  forward s (.msend o) fun k h => planSend (.msend o) o 2 k h

def execMsendb (o : Eops) (s : State) : Host.Outcome State Fault Refusal :=
  forward s (.msendb o) fun k h => planSend (.msendb o) o 4 k h

def execMsendr (o : Eops) (s : State) : Host.Outcome State Fault Refusal :=
  forward s (.msendr o) fun _ h =>
    if !h.id.handler || !h.msg.rplAsked || !h.msg.rplDue then .trap 2 (instrBits (.msendr o))
    else .go (rx h (xreg o.vs3)) 0 (rx h (xreg o.vs3 + 1)) { h with msg := { h.msg with rplDue := false } }

def execMrecv (o : Eops) (s : State) : Host.Outcome State Fault Refusal :=
  forward s (.mrecv o) fun _ h =>
    if h.id.handler then .trap 2 (instrBits (.mrecv o)) else .go 0 0 0 h

def execMackrd (o : Eops) (s : State) : Host.Outcome State Fault Refusal :=
  forward s (.mackrd o) fun _ h =>
    if o.vs3 = 6 ∧ h.mode ≠ .s then .trap 2 (instrBits (.mackrd o)) else .go 0 0 0 h

end Sys2Proof.Machine
end

