-- ==== Sys2Proof/Machine/Operands.lean ====
section
/-! DEFINITION. Operand forms of the lane engine (R71, R165, R178): the second operand of a compute instruction, integer
readings, and the address of each lane's element. -/

namespace Sys2Proof.Machine

/-- The reading of a w-bit operand: two's complement for .i codes, natural for .n codes (R184). -/
def valOf (sg : Bool) (w x : Nat) : Int := if sg && x.testBit (w - 1) then (x : Int) - 2 ^ w else x

/-- An integer modulo 2^w. -/
def wrapTo (w : Nat) (z : Int) : Nat := (z % (2 ^ w : Int)).toNat

/-- An .i code (R72). -/
def iSigned (fmt : BitVec 3) : Bool := fmt.toNat < 4

/-- The width of an I code. -/
def iWidth (fmt : BitVec 3) : Nat := fmtWidth .i fmt.toNat

/-- A narrow integer result in its lane element: sign-extended for .i codes, zero-extended for .n codes (R90). -/
def widen (sg : Bool) (w r : Nat) : Nat := if w < 32 ∧ sg then wrapTo 32 (valOf true w r) else r

/-- imm8, sign-extended to w bits whatever the type (R71). -/
def immTo (imm : BitVec 8) (w : Nat) : Nat := wrapTo w (valOf true 8 imm.toNat)

/-- The second operand of lane l chosen by ks (R71): vs2, the broadcast x register kept in OPA, or imm8. -/
def bOperand (h : Hart) (e : Entry) (o : Eops) (l w : Nat) : Nat :=
  if o.ks = 0 then velem h o.vs2.toNat l w
  else if o.ks = 1 then e.opa.toNat % 2 ^ w
  else immTo o.vs3 w

/-- The sign-extended 32-bit offset of lane l (R165). -/
def laneOffset (h : Hart) (r : BitVec 8) (l : Nat) : Word := (vlane h r.toNat l).signExtend 64

/-- What a lane's element is: an address with a size, or an offset in the team store (R165, R170). -/
inductive ElemAt where
  | mem (va : Word) (size : Nat)
  | tstore (off : Nat) (size : Nat)
deriving DecidableEq, Repr

/-- The element of lane l of a lane memory instruction; k is the running index of `vcst` and `vxld` (R165, R168 to R172). -/
def elemAt (h : Hart) (e : Entry) (l k : Nat) : ElemAt :=
  let at_ (o : Eops) (off : Word) : ElemAt := .mem (e.opa + off) (wSize o.fmt)
  match e.instr with
  | .vld o | .vst o => at_ o (BitVec.ofNat 64 (l * wSize o.fmt))
  | .vlds o | .vsts o => at_ o (BitVec.ofNat 64 l * e.opb.signExtend 64)
  | .vldg o | .vstg o => at_ o (laneOffset h o.vs2 l)
  | .vldt o | .vstt o => .tstore (e.opa + (vlane h o.vs2.toNat l).setWidth 64).toNat (wSize o.fmt)
  | .vcst o | .vxld o => at_ o (BitVec.ofNat 64 (k * wSize o.fmt))
  | .vldf _ | .vstf _ =>
    .mem (e.opa + BitVec.ofNat 64 (l % 16) * e.opb.signExtend 64 + BitVec.ofNat 64 (128 * (l / 16))) 128
  | .vamo o | .vamoAq o | .vamoRl o | .vamoAqrl o => .mem (e.opa + laneOffset h o.vs2 l) (iWidth o.fmt / 8)
  | .vpf o => .mem (e.opa + laneOffset h o.vs2 l) 1
  | _ => .mem e.opa 8

end Sys2Proof.Machine
end

