-- ==== Sys2Proof/Machine/LaneCompute.lean ====
section
/-! DEFINITION. What the lane compute instructions compute (06_lane_engine_compute R178 to R202, R205): each reads its
sources in every enabled lane, then writes its destination; and the step LANE_COMPUTE_DONE that writes the results. -/

namespace Sys2Proof.Machine

/-- Clamping to the range of a w-bit type, with SI when it clamps (R98). -/
def satInt (sg : Bool) (w : Nat) (t : Int) : Nat × Fl :=
  let hi : Int := if sg then 2 ^ (w - 1) - 1 else 2 ^ w - 1
  let lo : Int := if sg then -(2 ^ (w - 1)) else 0
  if t > hi then (wrapTo w hi, flSI) else if t < lo then (wrapTo w lo, flSI) else (wrapTo w t, 0)

/-- The LI instructions (R184): a, b, c are w-bit operands. -/
def intOp (i : Instr) (sg : Bool) (w a b c : Nat) : Nat × Fl :=
  let m := 2 ^ w
  let va := valOf sg w a
  let vb := valOf sg w b
  let ovf : Bool := sg && a == 2 ^ (w - 1) && b == m - 1
  match i with
  | .vaddI _ => ((a + b) % m, 0)
  | .vsubI _ => ((a + m - b) % m, 0)
  | .vmulI _ => (a * b % m, 0)
  | .vmulh _ => (wrapTo w (va * vb / (m : Int)), 0)
  | .vdivI _ => (if b = 0 then m - 1 else if ovf then a else wrapTo w (Int.tdiv va vb), 0)
  | .vrem _ => (if b = 0 then a else if ovf then 0 else wrapTo w (va - vb * Int.tdiv va vb), 0)
  | .vminI _ => (if va ≤ vb then a else b, 0)
  | .vmaxI _ => (if va ≥ vb then a else b, 0)
  | .vadds _ => satInt sg w (va + vb)
  | .vsubs _ => satInt sg w (va - vb)
  | .vabsI _ => (wrapTo w (if va < 0 then -va else va), 0)
  | .vnegI _ => (wrapTo w (-va), 0)
  | .vmad _ => ((a * b + c) % m, 0)
  | .vand _ => (Nat.land a b, 0)
  | .vor _ => (Nat.lor a b, 0)
  | .vxor _ => (Nat.xor a b, 0)
  | .vnot _ => (m - 1 - a, 0)
  | .vsll _ => (a <<< (b % w) % m, 0)
  | .vsrl _ => (a >>> (b % w), 0)
  | .vsra _ => (wrapTo w (valOf true w a / (2 ^ (b % w) : Int)), 0)
  | .vmov _ => (b, 0)
  | _ => (0, 0)

/-- The relations of `vcmp` (R186). -/
def icmp (rel : Nat) (x y : Int) : Bool :=
  match rel with
  | 0 => x == y | 1 => x != y | 2 => x < y | 3 => x ≤ y | 4 => x > y | _ => x ≥ y

/-- Zero bits above the highest set bit of w bits (R189). -/
def clz (w a : Nat) : Nat := firstBelow w fun k => a.testBit (w - 1 - k)

/-- Zero bits below the lowest set bit of w bits (R189). -/
def ctz (w a : Nat) : Nat := firstBelow w fun k => a.testBit k

/-- w bits in reverse order (R189). -/
def brev (w a : Nat) : Nat := (List.range w).foldl (fun r k => r + b2n (a.testBit k) * 2 ^ (w - 1 - k)) 0

/-- The rounding mode of an entry: its field, or the mode captured from `lfrm` (R93, R94). -/
def roundMode (e : Entry) (o : Eops) : Nat := if o.rnd = 7 then e.frm.toNat else o.rnd.toNat

/-- The LF instructions that round (R190). -/
def floatOp (i : Instr) (f : FFmt) (mode : Nat) (ftz : Bool) (a b c : Nat) : Nat × Fl :=
  let va := unpackF f (flushIn ftz f a)
  let vb := unpackF f (flushIn ftz f b)
  let vc := unpackF f (flushIn ftz f c)
  match i with
  | .vaddF _ => addV f mode ftz va vb
  | .vsubF _ => addV f mode ftz va (negV vb)
  | .vmulF _ => mulF f mode ftz va vb
  | .vdivF _ => divF f mode ftz va vb
  | .vsqrt _ => sqrtF f mode ftz va
  | .vfma _ => fmaF f mode ftz va vb vc
  | .vfms _ => fmaF f mode ftz va vb (negV vc)
  | .vfnma _ => fmaF f mode ftz (negV va) vb vc
  | .vminF _ => minMaxF f false (flushIn ftz f a) (flushIn ftz f b)
  | .vmaxF _ => minMaxF f true (flushIn ftz f a) (flushIn ftz f b)
  | .vabsF _ => if isNaN va then (f.nan, 0) else (flushIn ftz f a % 2 ^ (f.width - 1), 0)
  | .vnegF _ =>
    if isNaN va then (withSign f true f.nan, 0)
    else (Nat.xor (flushIn ftz f a) (2 ^ (f.width - 1)), 0)
  | _ => (0, 0)

/-- The sources S and formats of `vcvt` between floating types use FTZ only among the four IEEE formats (R92, R194). -/
def cvtFtz (e : Entry) (src dst : BitVec 3) : Bool := e.ftz && src.toNat < 4 && dst.toNat < 4

/-- An element of a packed lane element (R90). -/
def packed (x w i : Nat) : Nat := x / 2 ^ (w * i) % 2 ^ w

/-- `vdot` (R196). -/
def dotInt (sg : Bool) (w a b c : Nat) : Nat :=
  wrapTo 32 ((List.range (32 / w)).foldl (fun s i => s + valOf sg w (packed a w i) * valOf sg w (packed b w i)) (c : Int))

/-- `vfdot` (R197). -/
def dotFloat (f : FFmt) (mode a b c : Nat) : Nat × Fl :=
  let xs := (List.range (32 / f.width)).map fun i => (unpackF f (packed a f.width i), unpackF f (packed b f.width i))
  let vc := unpackF f32 c
  let anyNaN := isNaN vc || xs.any fun p => isNaN p.1 || isNaN p.2
  let sig := sigNaN vc || xs.any fun p => sigNaN p.1 || sigNaN p.2
  let prods := xs.filterMap fun p => mulV p.1 p.2
  let infZero := xs.any fun p => !isNaN p.1 && !isNaN p.2 && (mulV p.1 p.2).isNone
  let terms := prods ++ [vc]
  let infs := terms.filter isInf
  let meet := (infs.any fun v => signOf v) && infs.any fun v => !signOf v
  if anyNaN || infZero || meet then (f32.nan, flIf (sig || infZero || meet) flNV)
  else sumF f32 mode terms false

/-- The source lane of a shuffle: n is the second operand; none outside 0 to 63 (R199). -/
def shuffleSrc (i : Instr) (l n : Nat) : Option Nat :=
  let s : Int := match i with
    | .vshup _ => (l : Int) - n
    | .vshdn _ => (l : Int) + n
    | .vxorl _ => (Nat.xor l (n % 64) : Nat)
    | _ => (n : Int)
  if 0 ≤ s ∧ s < 64 then some s.toNat else none

/-- Segment size of a scan (R201). -/
def segSize (n : Nat) : Nat := 2 ^ min n 6

/-- The enabled lanes of lane l's segment of size z, ascending (R201). -/
def segLanes (m : Mask) (l z : Nat) : List Nat := (lanesOf m).filter fun j => j / z == l / z

/-- The operations of scans and reductions with their identities (R201). -/
def scanOp (op : Nat) (sg : Bool) (w : Nat) (x y : Nat) : Nat :=
  match op with
  | 0 => (x + y) % 2 ^ w
  | 1 => if valOf sg w x ≤ valOf sg w y then x else y
  | 2 => if valOf sg w x ≥ valOf sg w y then x else y
  | 3 => Nat.land x y
  | 4 => Nat.lor x y
  | _ => Nat.xor x y
def scanIdentity (op : Nat) (sg : Bool) (w : Nat) : Nat :=
  match op with
  | 1 => if sg then 2 ^ (w - 1) - 1 else 2 ^ w - 1
  | 2 => if sg then 2 ^ (w - 1) else 0
  | 3 => 2 ^ w - 1
  | _ => 0

/-- One sum of `vfscan` and `vfgred` (R202). -/
def fsum (f : FFmt) (mode : Nat) (ftz : Bool) (x y : Nat) : Nat × Fl :=
  addV f mode ftz (unpackF f (flushIn ftz f x)) (unpackF f (flushIn ftz f y))

/-- Pairs of a tree level added (R202). -/
def fpairs (f : FFmt) (mode : Nat) (ftz : Bool) : List Nat → List Nat × Fl
  | x :: y :: t =>
    let r := fsum f mode ftz x y
    let q := fpairs f mode ftz t
    (r.1 :: q.1, r.2 ||| q.2)
  | l => (l, 0)

/-- What `vfgred` writes of a sum: a NaN is canonical (R89), and a subnormal element that no sum has read counts as a zero of its sign
under FTZ (R92). In a segment of one lane nothing is rounded, so no flag is set (log 104). -/
def canonF (f : FFmt) (ftz : Bool) (b : Nat) : Nat := if isNaN (unpackF f b) then f.nan else flushIn ftz f b

/-- The tree of `vfgred` over n levels (R202). -/
def ftree (f : FFmt) (mode : Nat) (ftz : Bool) : Nat → List Nat → Nat × Fl
  | 0, l => (canonF f ftz (l.headD 0), 0)
  | n + 1, l =>
    let q := fpairs f mode ftz l
    let r := ftree f mode ftz n q.1
    (r.1, q.2 ||| r.2)

/-- A lane's result of a compute instruction with a vector destination: the width it is written with (32 or 64), its bits,
and flags. Every source is read from the hart as it stood (R178). -/
def laneResult (h : Hart) (e : Entry) (l : Nat) : Nat × Nat × Fl :=
  let a (o : Eops) (w : Nat) : Nat := velem h o.vs1.toNat l w
  let c (o : Eops) (w : Nat) : Nat := velem h o.vs3.toNat l w
  let iRes (o : Eops) (r : Nat × Fl) : Nat × Nat × Fl :=
    let w := iWidth o.fmt
    (max 32 w, widen (iSigned o.fmt) w r.1, r.2)
  let fRes (w : Nat) (r : Nat × Fl) : Nat × Nat × Fl := (max 32 w, r.1, r.2)
  let floatI (o : Eops) : Nat × Nat × Fl :=
    let f := fOfCode o.fmt.toNat
    fRes f.width (floatOp e.instr f (roundMode e o) e.ftz (a o f.width) (bOperand h e o l f.width) (c o f.width))
  let count (o : Eops) (g : Nat → Nat → Nat) : Nat × Nat × Fl := let w := iWidth o.fmt; (max 32 w, g w (a o w), 0)
  let special (o : Eops) (fn : Nat) : Nat × Nat × Fl :=
    let f := fOfCode o.fmt.toNat
    fRes f.width (sfu fn o.fmt.toNat e.ftz (a o f.width))
  let shuffle (o : Eops) : Nat × Nat × Fl :=
    let w := iWidth o.fmt
    let src := match shuffleSrc e.instr l (bOperand h e o l w) with
      | some j => if mbit e.lmask j then j else l
      | none => l
    (w, velem h o.vs1.toNat src w, 0)
  let scan (o : Eops) (keep : Nat → Bool) : Nat × Nat × Fl :=
    let w := iWidth o.fmt
    let z := segSize (bOperand h e o l w)
    let op := o.rnd.toNat
    let sg := iSigned o.fmt
    let r := ((segLanes e.lmask l z).filter keep).foldl (fun s j => scanOp op sg w s (velem h o.vs1.toNat j w)) (scanIdentity op sg w)
    iRes o (r, 0)
  match e.instr with
  | .vaddI o | .vsubI o | .vmulI o | .vmulh o | .vdivI o | .vrem o | .vminI o | .vmaxI o | .vadds o | .vsubs o | .vand o
  | .vor o | .vxor o | .vsll o | .vsrl o | .vsra o | .vmov o | .vabsI o | .vnegI o | .vnot o | .vmad o =>
    let w := iWidth o.fmt
    iRes o (intOp e.instr (iSigned o.fmt) w (a o w) (bOperand h e o l w) (c o w))
  | .vli o => (32, o.vs1.toNat + o.vs2.toNat * 2 ^ 8 + o.vs3.toNat * 2 ^ 16 + bitsOf (vliHigh o) 0 8 * 2 ^ 24, 0)
  | .vsel o =>
    let w := iWidth o.fmt
    (w, if mbit (rm h (o.vs3.setWidth 3)) l then a o w else bOperand h e o l w, 0)
  | .vpopc o => count o (fun w x => popcount x w)
  | .vclz o => count o clz
  | .vctz o => count o ctz
  | .vbrev o => count o brev
  | .vaddF o | .vsubF o | .vmulF o | .vdivF o | .vsqrt o | .vminF o | .vmaxF o | .vabsF o | .vnegF o | .vfma o | .vfms o
  | .vfnma o => floatI o
  | .vclass o =>
    let f := fOfCode o.fmt.toNat
    (32, classF f (flushIn e.ftz f (a o f.width)), 0)
  | .vrcp o => special o 0
  | .vrsqrt o => special o 1
  | .vexp2 o => special o 2
  | .vlog2 o => special o 3
  | .vsin o => special o 4
  | .vcos o => special o 5
  | .vtanh o => special o 6
  | .vcvtFF src o =>
    let f := fOfCode src.toNat
    let d := fOfCode o.fmt.toNat
    fRes d.width (cvtF f d (roundMode e o) (cvtFtz e src o.fmt) (a o f.width))
  | .vcvtFI src o =>
    let f := fOfCode src.toNat
    iRes o (cvtToInt (iWidth o.fmt) (iSigned o.fmt) (roundMode e o) (unpackF f (a o f.width)))
  | .vcvtIF src o =>
    let w := iWidth src
    let d := fOfCode o.fmt.toNat
    fRes d.width (cvtFromInt d (roundMode e o) (valOf (iSigned src) w (a o w)))
  | .vpk o =>
    let d := fOfCode o.fmt.toNat
    let rs := (List.range (packGroupSize o.fmt.toNat)).map fun i => cvtF f32 d 0 false (vlane h (o.vs1.toNat + i) l).toNat
    (32, (rs.foldl (fun p r => (p.1 + 1, p.2 + r.1 * 2 ^ (d.width * p.1))) (0, 0)).2, rs.foldl (fun z r => z ||| r.2) 0)
  | .vdot o => (32, dotInt (iSigned o.fmt) (iWidth o.fmt) (a o 32) (bOperand h e o l 32) (c o 32), 0)
  | .vfdot o => fRes 32 (dotFloat (fOfCode o.fmt.toNat) (roundMode e o) (a o 32) (bOperand h e o l 32) (c o 32))
  | .vlid o => (iWidth o.fmt, l, 0)
  | .vballot o =>
    if iWidth o.fmt = 64 then (64, e.lmask.toNat, 0) else (32, popcount (e.lmask.toNat % 2 ^ l) 64, 0)
  | .vshfl o | .vshup o | .vshdn o | .vxorl o | .vbcast o => shuffle o
  | .vscan o => scan o (fun j => j ≤ l)
  | .vscanx o => scan o (fun j => j < l)
  | .vgred o => scan o (fun _ => true)
  | .vfscan o =>
    let f := fOfCode o.fmt.toNat
    let z := segSize (bOperand h e o l f.width)
    let js := (segLanes e.lmask l z).filter (· ≤ l)
    let r := js.foldl (fun (s : Nat × Fl) j =>
      let q := fsum f (roundMode e o) e.ftz s.1 (velem h o.vs1.toNat j f.width); (q.1, s.2 ||| q.2)) (withSign f true 0, 0)
    fRes f.width r
  | .vfgred o =>
    let f := fOfCode o.fmt.toNat
    let z := segSize (bOperand h e o l f.width)
    let base := l / z * z
    let ys := (List.range z).map fun i =>
      if mbit e.lmask (base + i) then velem h o.vs1.toNat (base + i) f.width else withSign f true 0
    fRes f.width (ftree f (roundMode e o) e.ftz (Nat.log2 z) ys)
  | _ => (32, 0, 0)
where
  /-- The top byte of a `vli` immediate, from the bits above pm and pi (R68). -/
  vliHigh (o : Eops) : Nat := o.fmt.toNat + o.rnd.toNat * 2 ^ 3 + o.ks.toNat * 2 ^ 6

/-- `vupk`: element i of a in register vd + i, as .f32 (R195). -/
def unpackLane (h : Hart) (o : Eops) (src : Nat) (l : Nat) : Hart :=
  let f := fOfCode o.fmt.toNat
  (List.range (packGroupSize o.fmt.toNat)).foldl (fun h i =>
    setLane h (o.vd.toNat + i) l (BitVec.ofNat 32 (match unpackF f (packed src f.width i) with
      | .nan _ => 0x7FC00000
      | v => (cvtVal v).1))) h
where
  cvtVal (v : FVal) : Nat × Fl := match v with
    | .inf s => infF f32 s
    | .fin s m e => roundF f32 0 false s m e
    | .nan _ => (0x7FC00000, 0)

/-- The destination mask of `vcmp` and `vfcmp` (R186, R187): bit and flag of lane l. -/
def laneTest (h : Hart) (e : Entry) (l : Nat) : Bool × Fl :=
  match e.instr with
  | .vcmp o =>
    let w := iWidth o.fmt
    let sg := iSigned o.fmt
    (icmp o.rnd.toNat (valOf sg w (velem h o.vs1.toNat l w)) (valOf sg w (bOperand h e o l w)), 0)
  | .vfcmp o =>
    let f := fOfCode o.fmt.toNat
    fcmp o.rnd.toNat (unpackF f (velem h o.vs1.toNat l f.width)) (unpackF f (bOperand h e o l f.width))
  | _ => (false, 0)

/-- The mask destination written in the enabled lanes; a write to m0 is discarded (R186). -/
def writeTests (h : Hart) (e : Entry) (d : MR) : Hart :=
  let old := rm h d
  let fl := (lanesOf e.lmask).foldl (fun z l => z ||| (laneTest h e l).2) 0
  orFlags (wm h d (maskOf fun l => if mbit e.lmask l then (laneTest h e l).1 else mbit old l)) fl

/-- The vector destination written in the enabled lanes, every source read first, and the flags (R178 to R180). -/
def writeResults (h : Hart) (e : Entry) (vd : Nat) : Hart :=
  let rs := (lanesOf e.lmask).map fun l => (l, laneResult h e l)
  orFlags (rs.foldl (fun h r => setElem h vd r.1 r.2.1 r.2.2.1) h) (rs.foldl (fun z r => z ||| r.2.2.2) 0)

/-- The value of `vmvx` (R200). -/
def vmvxValue (h : Hart) (e : Entry) (o : Eops) : Word :=
  let n := bOperand h e o 0 (iWidth o.fmt)
  if n < 64 ∧ mbit e.lmask n then
    (if iWidth o.fmt = 64 then vpair h o.vs1.toNat n else (vlane h o.vs1.toNat n).signExtend 64)
  else 0

/-- An x register that awaited this entry receives its value and is no longer locked (R117, R200). -/
def deliverX (h : Hart) (q : Nat) (r : XR) (w : Word) : Hart :=
  { wx h r w with xlock := h.xlock.filter fun p => p.2 != q }

/-- An entry done: word 2 reads 0 for lane work (R154, R159). -/
def doneEntry (h : Hart) (q : Nat) : Hart :=
  updEntry h q fun e => { e with st := .done, await := false, stage := .sent, lmask := if e.eng == .lane then 0 else e.lmask }

/-- What a compute instruction does to its hart (R184 to R202). -/
def computeHart (h : Hart) (e : Entry) : Hart :=
  match e.instr with
  | .vcmp o | .vfcmp o => writeTests h e (o.vd.setWidth 3)
  | .vupk o => (lanesOf e.lmask).foldl (fun h' l => unpackLane h' o (vlane h o.vs1.toNat l).toNat l) h
  | .vmvx o => deliverX h e.seq (xreg o.vd) (vmvxValue h e o)
  | _ =>
    match engine? e.instr with
    | some (_, o) => writeResults h e o.vd.toNat
    | none => h

/-- The number of partials of a B code (R203). -/
def redParts (fmt : Nat) : Nat := if fmt = 0 ∨ fmt = 2 then 32 else 16

/-- The identity of a B code: -0 for floats (R205). -/
def redIdentity (fmt : Nat) : Nat := if fmt = 0 then 2 ^ 31 else if fmt = 1 then 2 ^ 63 else 0

/-- One addition of a reduction (R205, R207): RNE, no FTZ, or modulo 2^w. -/
def redAdd (fmt a b : Nat) : Nat × Fl :=
  match fmt with
  | 0 => fsum f32 0 false a b
  | 1 => fsum f64 0 false a b
  | 2 => ((a + b) % 2 ^ 32, 0)
  | _ => ((a + b) % 2 ^ 64, 0)

/-- `vred.add` (R205): the buffer entry of the hart's slot, started at the identity when the hart holds none, and the
flags of float additions. An entry of another key, which only a `vred.flush` dropped by `frdrop` can have left, is unchanged (R209, log 105). -/
def vredAddEffect (s : State) (k : Nat) (h : Hart) (e : Entry) (o : Eops) : State :=
  let fmt := o.fmt.toNat
  let p := redParts fmt
  let start : RedEntry := { va := e.opa.toNat % 2 ^ 48, fmt := fmt, parts := List.replicate p (redIdentity fmt), order := 0 }
  let cur := (tget s.reds.buf k).getD start
  let mine : Bool := cur.va == start.va && cur.fmt == fmt
  let w := fmtWidth .b fmt
  let step (a : List Nat × Fl) (l : Nat) : List Nat × Fl :=
    let r := redAdd fmt (a.1.getD (l % p) 0) (velem h o.vs2.toNat l w)
    (a.1.set (l % p) r.1, a.2 ||| r.2)
  let res := (lanesOf e.lmask).foldl step (cur.parts, 0)
  let s := if e.lmask = 0 || !mine then s else { s with reds := { s.reds with buf := tput s.reds.buf k { cur with parts := res.1 } } }
  setHart s k (doneEntry (orFlags h (if mine then res.2 else 0)) e.seq)

/-- A lane compute instruction: groups LI to LP, and `vred.add` (R147). -/
def isCompute (i : Instr) : Bool :=
  match i with
  | .vredAdd _ => true
  | _ => match engine? i with
    | some (sh, _) => 2 ≤ sh.grp && sh.grp ≤ 8
    | none => false

/-- An older compute entry of the hart has issued and not finished. Compute entries finish in order, and before any later
element access, so that each reads its sources as they stood when it issued (log 12). -/
def olderCompute (h : Hart) (e : Entry) : Bool :=
  (pendingEntries h).any fun f => isCompute f.instr && f.stage == .issued && before f e

/-- A `vred.flush` of the hart that has not sent its contribution yet: a later `vred.add` does not start before it (R205, R206). -/
def olderFlush (h : Hart) (e : Entry) : Bool :=
  (pendingEntries h).any fun f => before f e && f.stage != .sent && match f.instr with
    | .vredFlush _ => true
    | _ => false

/-- The effect of a compute entry that has issued. -/
def finishCompute (s : State) (k : Nat) (h : Hart) (e : Entry) : State :=
  match e.instr with
  | .vredAdd o => vredAddEffect s k h e o
  | _ => setHart s k (doneEntry (computeHart h e) e.seq)

/-- LANE_COMPUTE_DONE: the results of an issued compute entry are written and it is DONE (R147). -/
def execLaneComputeDone (h seq : Nat) (s : State) : Host.Outcome State Fault Refusal :=
  stepOf <| match hartAt s h with
    | none => s
    | some hh =>
      match entryAt hh seq with
      | none => s
      | some e =>
        if e.st == .inflight && e.stage == .issued && isCompute e.instr && !olderCompute hh e then finishCompute s h hh e
        else s

end Sys2Proof.Machine
end

