-- ==== Sys2Proof/Machine/Late.lean ====
section
/-! DEFINITION. Late faults of ring entries (R154 to R162, R319, R321): recording, parking, holding, squashing, replay, and
the rollback of a basting region (R132). Every engine uses these. -/

namespace Sys2Proof.Machine

/-- Registers of the translation block (R329) in BAR0. -/
def rXct : Nat := 0x10000
def rPriAllow (port : Nat) : Nat := 0x10008 + 8 * port
def rPriOut (port : Nat) : Nat := 0x10018 + 8 * port
def rPriStat : Nat := 0x10028
def rPrgSent : Nat := 0x10038
def rPrgBad : Nat := 0x10040

/-- A register of the device register space, and it written. -/
def reg (s : State) (off : Nat) : Nat := tgetD s.regs off 0
def setReg (s : State) (off v : Nat) : State := { s with regs := tput s.regs off v }

/-- PF_DBG (R449): debug is enabled for an ASID; its context's break-halt bit (R141, R450). -/
def pfDbg : Nat := 0x180020
def dbgFor (s : State) (asid : Nat) : Bool := (reg s pfDbg).testBit 17 && reg s pfDbg % 2 ^ 16 == asid
def breakHalt (s : State) (asid : Nat) : Bool := dbgFor s asid && (reg s pfDbg).testBit 16

/-- The port may issue page requests (R322): PRI Enable, an allowance, and no stop by a Response Failure. -/
def portCanPark (s : State) (port : Nat) : Bool :=
  (hpStat s port).testBit 17 && reg s (rPriAllow port) != 0 && !(reg s rPriStat).testBit port

/-- Resolvable faults of the ASID park (R319). -/
def canPark (s : State) (asid : Nat) : Bool := xctPri s asid && portCanPark s (xctPort s asid)

/-- PRI_OFF stands for a resolvable code that cannot be resolved (R319). -/
def settleCode (s : State) (asid code : Nat) : Nat := if mayPark code && !canPark s asid then 0x010F else code

/-- The record of a page in a slice's pending table (R321). -/
def isRec (die sl asid vpn : Nat) (r : SliceRec) : Bool := r.die == die && r.slice == sl && r.asid == asid && r.vpn == vpn

/-- A page can be recorded: it has a record, or its slice's table of 32 has room for it (R321). -/
def roomForPage (s : State) (die asid : Nat) (a : Word) : Bool :=
  s.xl.recs.any (isRec die (sliceOf a) asid (vpnOf a)) || (s.xl.recs.filter fun r => r.die == die && r.slice == sliceOf a).length < 32

/-- A fault merged into its slice's pending table (R321). -/
def recordPage (s : State) (die core asid : Nat) (a : Word) (r w priv : Bool) : State :=
  let sl := sliceOf a
  let vpn := vpnOf a
  updXl s fun x =>
    if x.recs.any (isRec die sl asid vpn) then
      { x with recs := updFirst x.recs (isRec die sl asid vpn) fun e =>
          { e with r := e.r || r, w := e.w || w, priv := e.priv || priv, cores := if e.cores.contains core then e.cores else e.cores ++ [core] } }
    else { x with recs := x.recs ++ [⟨die, sl, asid, vpn, r, w, priv, [core], false⟩] }

/-- Every later entry of the hart, on any engine, that has not STARTED becomes HELD with SQ and code 0x0001 (R156): INFLIGHT ones, and
PARKED ones too, which R156 includes and the table of R154 does not (DEDUCED, log 99). A copy that has begun no chunk leaves its engine. -/
def squashAfter (h : Hart) (e : Entry) : Hart :=
  let hit (f : Entry) : Bool := before e f && (f.st == .inflight || f.st == .parked) && !f.started
  { h with
    laneQ := h.laneQ.filter fun q => match entryAt h q with
      | some f => !hit f
      | none => true,
    ring := h.ring.map fun p => (p.1, if hit p.2 then { p.2 with st := .held, sq := true, code := 1, flt := [], stage := .sent } else p.2) }

/-- The matrix dispatch queues of a core hold only entries that are INFLIGHT in their rings. -/
def pruneMdq (s : State) (k : Nat) : State :=
  updCore s (coreOfSlot k) fun c => { c with mdq := c.mdq.map fun p => (p.1, p.2.filter fun m =>
    m.slot != k || match hartAt s k with
      | some h => (match entryAt h m.seq with
          | some e => e.st == .inflight
          | none => false)
      | none => false) }

/-- The host and window reads of an abandoned chunk or body read: what comes for them is discarded (R230, R231, R287). -/
def dropCopyReads (s : State) (uid seq : Nat) : State :=
  let of_ (r : ReplyTo) : Bool := match r with
    | .copy u q _ => u == uid && q == seq
    | _ => false
  let s := { s with net := { s.net with wins := s.net.wins.filter fun a => !of_ a.reply, winReps := s.net.winReps.filter fun r => !of_ r.acc.reply } }
  updMem s fun m => { m with out := m.out.map fun o => if of_ o.reply then { o with reply := .none } else o }

/-- What a squash ends beside the entries (R156, R231): a copy with no chunk written leaves its engine, with the reads of its phase A; the
read of a body is abandoned when its message is not INFLIGHT any more. -/
def pruneReads (s : State) (k : Nat) : State :=
  match hartAt s k with
  | none => s
  | some h =>
    let held := (h.ring.filter fun p => p.2.st == .held && (p.2.eng == .copy || p.2.eng == .message)).map fun p => p.2.seq
    let reads := h.ring.any fun p => p.2.st == .inflight && p.2.eng == .message && p.2.stage == .queued
    let s := held.foldl (fun s q => dropCopyReads s h.id.uid q) s
    let s := updCore s (coreOfSlot k) fun c => { c with copies := c.copies.filter fun j => j.uid != h.id.uid || j.fin || !held.contains j.seq }
    if reads then s else updHart s k fun h => { h with msg := { h.msg with body := [], bodyErr := none } }

/-- An entry becomes HELD with a code, the faulting lanes and address of the report (R155), and R156 squashes. -/
def holdEntry (s : State) (k : Nat) (h : Hart) (e : Entry) (code : Nat) (lanes : Mask) (addr : Word) : State :=
  let e' := { e with st := .held, code := code, fltLanes := lanes, fltAddr := addr, flt := [], pages := [], resolved := false, stage := .sent }
  let h := { h with laneQ := h.laneQ.filter (· != e.seq) }
  pruneReads (pruneMdq (setHart s k (squashAfter (updEntry h e.seq fun _ => e') e')) k) k

/-- The lowest-numbered faulting lane's fault. -/
def lowestFault (l : List (Nat × Nat × Word)) : Nat × Nat × Word :=
  l.foldl (fun a b => if b.1 < a.1 then b else a) (l.headD (0, 0, 0))

/-- RECORDING FAULTS (R155, R319, R321): the entry parks when every fault is resolvable, else it is held and the report
names the faults that cannot be resolved. `laneful` says that lflanes names lanes. The faulting pages are asked for with R
or W, as `rw` says of each address. A page that finds its slice's table full is not recorded: the entry stays INFLIGHT and tries again. -/
def recordFaultsBy (s : State) (k : Nat) (h : Hart) (e : Entry) (laneful : Bool) (rw : Word → Bool × Bool) : State :=
  let flt := e.flt.map fun f => (f.1, settleCode s h.id.asid f.2.1, f.2.2)
  let hard := flt.filter fun f => !mayPark f.2.1
  if hard.isEmpty then
    let addrs := flt.map fun f => f.2.2
    let die := dieOfSlot k
    let s := addrs.foldl (fun s a =>
      if roomForPage s die h.id.asid a then recordPage s die (coreOfSlot k) h.id.asid a (rw a).1 (rw a).2 (e.mode == .s) else s) s
    if addrs.all fun a => s.xl.recs.any (isRec die (sliceOf a) h.id.asid (vpnOf a)) then
      let e' := { e with st := .parked, code := (lowestFault flt).2.1, flt := flt, pages := (addrs.map vpnOf).eraseDups, resolved := false }
      setHart s k (updEntry h e.seq fun _ => e')
    else setHart s k (updEntry h e.seq fun _ => { e with flt := [] })
  else
    let low := lowestFault hard
    holdEntry s k h e low.2.1 (if laneful then maskOf fun l => hard.any fun f => f.1 == l else 0) low.2.2

/-- Faults whose pages are all asked for alike. -/
def recordFaults (s : State) (k : Nat) (h : Hart) (e : Entry) (laneful r w : Bool) : State := recordFaultsBy s k h e laneful fun _ => (r, w)

/-- One fault of work without lanes: lflanes is 0 (R204, R267). -/
def recordOne (s : State) (k : Nat) (h : Hart) (e : Entry) (code : Nat) (addr : Word) (r w : Bool) : State :=
  recordFaults s k h { e with flt := [(0, code, addr)] } false r w

/-- The source words that a lane instruction reads in its enabled lanes, checked for parity (R161). -/
def parityBad (h : Hart) (e : Entry) : Bool :=
  match engine? e.instr with
  | none => false
  | some (sh, o) =>
    let spans := srcSpans sh o ++ (if readsDest e.instr then vdSpans sh o else [])
    h.vbad.any fun q => q.1 != 0 && spans.any (fun r => r.reg ≤ q.1 && q.1 < r.reg + r.cnt) &&
      (if sh.grp = 0x0A then true else mbit e.lmask q.2)
where
  /-- Stores read their vd field as data, and `vamo.cas` as the compare value (R164). -/
  readsDest (i : Instr) : Bool :=
    match i with
    | .vst _ | .vsts _ | .vstg _ | .vstt _ | .vstf _ | .vcst _ => true
    | .vamo o | .vamoAq o | .vamoRl o | .vamoAqrl o => o.rnd == 7
    | _ => false

/-- BASTING ROLLBACK (R132): entries forwarded within the region go, the snapshot is restored, the pc is bstpc, and the
region stays open. -/
def rollback (h : Hart) : Hart :=
  match h.snap with
  | none => h
  | some z =>
    let gone (q : Nat) : Bool := match entryAt h q with
      | some e => e.region
      | none => false
    { h with
      x := z.x, m := z.m, stk := z.stk, dep := z.dep, pc := h.l.bstpc, wait := none, pend := none, parts := [],
      laneQ := h.laneQ.filter fun q => !gone q,
      xlock := h.xlock.filter fun p => !gone p.2,
      ring := h.ring.filter fun p => !p.2.region }

/-- A parity error of an instruction (R132, R161): rollback when its region is open, else an uncorrectable error of the
context; the entry then stays as it is until the context is killed. -/
def parityError (s : State) (k : Nat) (h : Hart) (e : Entry) : State :=
  if e.region && h.snap.isSome then pruneMdq (setHart s k (rollback h)) k
  else contextFault (setHart s k (updEntry { h with laneQ := h.laneQ.filter (· != e.seq) } e.seq fun e => { e with stage := .sent })) h.id.asid 1

/-- The refetch of a replay (R159) in the entry's mode: nothing yet, a fault, or the bytes. -/
def refetch (s : State) (k : Nat) (h : Hart) (e : Entry) : Fetched × State :=
  fetchInstr s k h.id.asid (ctxOf s h.id.asid).satp e.mode (e.pc.signExtend 64)

/-- The stage at which a replay resumes (R157, R159): a lane entry is issued already, copies and messages go to their
engines again, a matrix entry to the dispatch queue. -/
def replayStage (e : Entry) : Stage := match e.eng with
  | .lane => .issued | .matrix => .dispatched | _ => .queued

/-- A parked entry replayed at its place (R154, R159). -/
def replayNow (s : State) (k : Nat) (h : Hart) (e : Entry) : State :=
  let e' := { replayEntry e with stage := replayStage e }
  let s := setHart s k (updEntry h e.seq fun _ => e')
  if e.eng == .matrix then
    updCore s (coreOfSlot k) fun c => { c with mdq := tput c.mdq (quadOfSlot k) (⟨k, e.seq⟩ :: tgetD c.mdq (quadOfSlot k) []) }
  else s

/-- A replay whose bits have been fetched again goes on: a parked entry at its place, one that `frrep` or a restore has re-forwarded to
its queue (R154, R159). -/
def replayFetched (s : State) (k : Nat) (h : Hart) (e : Entry) : State :=
  if e.st == .inflight then setHart s k (updEntry h e.seq fun e => { e with stage := .queued })
  else if e.eng == .lane && parityBad h e then parityError s k h e
  else replayNow s k h e

/-- The entry is a replay that is due its refetch (R159): a parked one whose resolution has come, or the first of the hart's re-forwarded
ones. -/
def refetchDue (h : Hart) (e : Entry) : Bool :=
  (e.st == .parked && e.resolved) ||
  (e.st == .inflight && e.stage == .refetch && !(pendingEntries h).any fun f => before f e && f.st == .inflight && f.stage == .refetch)

/-- ENTRY_REPLAY: a replay's bits are fetched again and it goes on; a fetch that faults holds it with REFETCH (R154, R159). -/
def execEntryReplay (h seq : Nat) (s : State) : Host.Outcome State Fault Refusal :=
  stepOf <| match hartAt s h with
    | none => s
    | some hh =>
      match entryAt hh seq with
      | none => s
      | some e =>
        if refetchDue hh e && hh.capture.isNone then
          match refetch s h hh e with
          | (.ok _, s) => replayFetched s h hh e
          | (.fault _ _, s) => holdEntry s h hh e 0x0006 0 (e.pc.signExtend 64)
          | (.wait, s) => s
        else s

end Sys2Proof.Machine
end

