-- ==== Sys2Proof/Machine/Device.lean ====
section
/-! DEFINITION. Registers of the device register space (R357) and what many engines raise: MSI-X vectors (R373), device
events (R359), RAS_NOTICE (R111), fatal errors and context faults (R447). Plain registers stand in `regs`, by BAR0 offset;
keys from 2^32 up are the host's configuration-space enables of each port. -/

namespace Sys2Proof.Machine

/-- A register with a reset value. -/
def regD (s : State) (off d : Nat) : Nat := tgetD s.regs off d

/-- A saturating field [lo + len - 1 : lo] of a register increased by n. -/
def bumpField (s : State) (off lo len n : Nat) : State :=
  let r := reg s off
  setReg s off (setBits r lo len (satAdd (2 ^ len - 1) (bitsOf r lo len) n))

/-- A whole register increased by n, saturating at 2^len - 1. -/
def bumpReg (s : State) (off len n : Nat) : State := setReg s off (satAdd (2 ^ len - 1) (reg s off) n)

/-- Configuration-space enables of a port that the registers do not hold: 4 the request allocation, 5 MSI-X Enable, 6 MSI-X
Function Mask. -/
def cfgKey (port k : Nat) : Nat := 2 ^ 32 + 16 * port + k

/-- Word k (0 address, 1 data and vector control) of an MSI-X table entry: vectors are masked at reset (R373). -/
def msixOff (port v k : Nat) : Nat := 0x40000 + 0x10000 * port + 16 * v + 8 * k
def msixWord (s : State) (port v k : Nat) : Nat := regD s (msixOff port v k) (if k = 1 then 2 ^ 32 else 0)

/-- The word of the pending-bit array that holds a vector's bit. -/
def pbaOff (port v : Nat) : Nat := 0x48000 + 0x10000 * port + 8 * (v / 64)

/-- A vector of a port cannot be sent: masked, the function masked, MSI-X or bus mastering off. -/
def vecMasked (s : State) (port v : Nat) : Bool :=
  (msixWord s port v 1).testBit 32 || !(reg s (cfgKey port 5)).testBit 0 || (reg s (cfgKey port 6)).testBit 0 || !(hpStat s port).testBit 19

/-- The message of a vector: a posted write of its data (R373, R374). -/
def sendMsix (s : State) (port v : Nat) : State :=
  hostWrite s (msixWord s port v 0) (leBytes 4 (msixWord s port v 1))

/-- An event on a vector: sent, or pending while masked (R373). -/
def raiseVec (s : State) (port v : Nat) : State :=
  if v ≥ 2048 then s
  else if vecMasked s port v then setReg s (pbaOff port v) (Nat.lor (reg s (pbaOff port v)) (2 ^ (v % 64)))
  else sendMsix s port v

/-- HP_CFG of a port: the configuration record's value until written (R359). -/
def hpCfg (s : State) (port : Nat) : Nat := regD s (hpBase port + 0x8) (Config.hpCfg port % 4)

/-- DEVV of a port raised (R359), and of every port whose link is up (R436). -/
def raiseDevv (s : State) (port : Nat) : State := raiseVec s port (bitsOf (reg s (hpBase port + 0x60)) 16 11)
def portUp (s : State) (port : Nat) : Bool := hpStat s port % 4 != 0
def raiseDevvAll (s : State) : State :=
  [0, 1].foldl (fun s p => if portUp s p then raiseDevv s p else s) s

/-- An interrupt becomes pending on the harts that satisfy p, resident or saved. -/
def raiseIrq (s : State) (n : Nat) (p : Hart → Bool) : State :=
  let f (h : Hart) : Hart := if p h then { h with s := { h.s with mip := setBit h.s.mip n true } } else h
  { s with
    harts := s.harts.map fun q => (q.1, f q.2),
    work := { s.work with saves := s.work.saves.map fun q => (q.1, { q.2 with hart := f q.2.hart }) } }

/-- RAS_NOTICE on every resident hart: the spec names no contexts (log 20). -/
def rasNotice (s : State) : State := raiseIrq s 21 fun _ => true

/-- The platform registers (R449). -/
def pfBase : Nat := 0x180000
def pfStat : Nat := pfBase + 0x8
def pfKill : Nat := pfBase + 0x10
def pfCe : Nat := pfBase + 0x18

/-- Every context that has work on the device. -/
def liveAsids (s : State) : List Nat :=
  ((s.harts.map fun p => p.2.id.asid) ++ (s.work.teams.map fun p => p.2.asid) ++ (s.work.grids.map fun p => p.2.asid) ++
   (s.work.saves.map fun p => p.2.hart.id.asid)).eraseDups

/-- A FATAL ERROR (R447, R449): FATAL and the first FCAUSE are set, DEVV is raised, and every context is to be killed. -/
def fatal (s : State) (cause : Nat) : State :=
  let r := reg s pfStat
  let s := if r.testBit 0 then s else setReg s pfStat (setBits (Nat.lor r 1) 8 4 cause)
  let s := { s with faulted := s.faulted ++ (liveAsids s).map fun a => (a, 0) }
  raiseDevvAll s

/-- The device has met a fatal error. -/
def isFatal (s : State) : Bool := (reg s pfStat).testBit 0

/-- The context waits to be killed, or all do. -/
def ctxDead (s : State) (asid : Nat) : Bool := isFatal s || s.faulted.any fun p => p.1 == asid

/-- The state of a compute die (R437): 0 online, 1 going offline, 2 offline, 3 coming online. -/
def dieStatOff (d : Nat) : Nat := 0x1A0008 + 8 * d
def dieState (s : State) (d : Nat) : Nat := reg s (dieStatOff d) % 4
def dieOnline (s : State) (d : Nat) : Bool := dieState s d == 0

/-- Device time, ns (R5). -/
def timeNow (s : State) : Nat := s.clock.time

end Sys2Proof.Machine
end

