-- ==== Sys2Proof/Machine/Account.lean ====
section
/-! DEFINITION. Budget accounts (R404 to R406) and events for the event ring (R423). -/

namespace Sys2Proof.Machine

/-- Registers of the scheduler block (R422). -/
def schBase : Nat := 0x190000
def cntEvict : Nat := schBase + 0x80
def cntCoop : Nat := schBase + 0x88
def cntOvr : Nat := schBase + 0x90
def cntMiss : Nat := schBase + 0x98

/-- An event waits to be written (R423). -/
def pushEvent (s : State) (e : EvtRec) : State := { s with sch := { s.sch with evq := s.sch.evq ++ [e] } }

/-- The core a team's event names: 0xFF when it is not resident. -/
def evtCore (t : Team) : Nat := if t.stat = .saved ∨ t.stat = .ended then 0xFF else t.core

/-- An event about a team. -/
def teamEvent (s : State) (type : Nat) (tk : Nat) : State :=
  match tget s.work.teams tk with
  | none => s
  | some t =>
    let g := match tget s.work.grids t.grid with
      | some g => g.num
      | none => 0
    pushEvent s { type := type, asid := t.asid, grid := g, pa := t.recPa, team := t.idx, core := evtCore t }

/-- An account reaches 0 (R406): interrupt 17 on the harts charged to it, the grace of 2,048 clk, the count and the OVERRUN
record; the grids that draw on it have overrun (R409). -/
def overrun (s : State) (a : Nat) (ac : Acct) : State :=
  let s := updAcct s a fun ac => { ac with units := 0, graceEnd := some (s.clock.clk + 2048) }
  let s := raiseIrq s 17 fun h => h.id.acct == a
  let owner := match ac.team with
    | some tk => (tget s.work.teams tk).map fun t => t.grid
    | none => none
  let f (p : Nat × Grid) : Nat × Grid := if some p.1 = owner ∨ p.2.acct = a then (p.1, { p.2 with overrun := true }) else p
  let s := { s with work := { s.work with grids := s.work.grids.map f } }
  let s := bumpReg s cntOvr 63 1
  match ac.team with
  | some tk => teamEvent s 5 tk
  | none => pushEvent s { type := 5, asid := ac.asid, grid := 0, pa := 0, team := 0, core := 0xFF }

/-- The account stands at 0 and its grace has not begun (R406). -/
def atZero (ac : Acct) : Bool := ac.units == 0 && !ac.unlimited && !ac.closed && ac.graceEnd.isNone

/-- A grid's deadline has come before it retired, and its miss is not counted yet (R408). -/
def missDue (s : State) (g : Grid) : Bool := !g.missed && !g.retired && g.dline < 2 ^ 64 - 1 && g.dline ≤ timeNow s

/-- A charge of n units (R405): none to no account, to an unlimited one, during the grace, or to a closed one. The grace begins as the account
reaches 0 (R406). -/
def charge (s : State) (a n : Nat) : State :=
  match tget s.work.accts a with
  | none => s
  | some ac =>
    if a = 0 ∨ n = 0 ∨ ac.unlimited ∨ ac.closed ∨ ac.graceEnd.isSome then s
    else
      let s := updAcct s a fun ac => { ac with units := ac.units - n }
      if ac.units ≤ n then overrun s a { ac with units := 0 } else s

/-- Bytes of a copy charged at 1 unit for 256, the remainder carried in the account (R229). -/
def chargeBytes (s : State) (a n : Nat) : State :=
  match tget s.work.accts a with
  | none => s
  | some ac =>
    let all := ac.carry + n
    charge (updAcct s a fun ac => { ac with carry := all % 256 }) a (all / 256)

end Sys2Proof.Machine
end

