-- ==== Sys2Proof/Machine/Csr.lean ====
section
/-! DEFINITION. Control and status registers (R105 to R109, R111, R143, R310): what each reads, what a write keeps, who may
access it, and the instructions CSR_ACCESS, STEER_WRITE and SATP_WRITE. -/

namespace Sys2Proof.Machine

/-- The rank of a mode. -/
def modeRank : Mode → Nat
  | .u => 0 | .s => 1 | .m => 3

/-- The bits of mstatus that sstatus shows. -/
def sstatusMask : Word := 0x00000003000C0122

/-- The bits of mstatus that a write may set: SIE, MIE, SPIE, MPIE, SPP, MPP, MPRV, SUM, MXR, TVM, TSR. TW is read-only 0
(R107). -/
def mstatusWritable : Word := 0x00000000005E19AA

/-- The interrupt bits the device raises: 1, 11 and 16 to 21 (R111). -/
def mieWritable : Word := 0x3F0802

/-- x with the bits of mask taken from y. -/
def merge (x y mask : Word) : Word := (x &&& ~~~ mask) ||| (y &&& mask)

/-- mstatus after a write: MPP holds a legal mode (code 2 leaves it). -/
def mstatusWrite (old new : Word) : Word :=
  let r := merge old new mstatusWritable
  if (new >>> msMPP) &&& 3 = 2 then merge r old 0x1800 else r

/-- A write of pending bits: SSIP is written; bits 16 to 21 are cleared by 0 and ignore 1 (R111). How a pending MEI (bit 11) is cleared, the spec does
not say; no write clears it (DESIGN CHOICE, log 123). -/
def mipWrite (old new mask : Word) : Word := merge (old &&& (new ||| ~~~ (0x3F0000 &&& mask))) new (2 &&& mask)

/-- A trap vector as a write leaves it: modes 0 and 1 (R107). -/
def tvecWrite (w : Word) : Word := w &&& ~~~ 2

/-- Copies outstanding, tile drains outstanding, and messages not acknowledged, as ostc shows them (R105, R269). -/
def ostcOf (h : Hart) : Word :=
  let open_ (p : Instr → Bool) : Nat := (h.ring.filter fun q => q.2.st != .done && p q.2.instr).length
  let cp := (h.ring.filter fun q => q.2.st != .done && q.2.eng == .copy).length
  let mx := open_ fun i => match i with
    | .tdrain _ => true
    | _ => false
  let ack := (h.msg.sendq.toList.filter fun q => q.used && q.sent).length
  BitVec.ofNat 64 (min 31 h.laneQ.length + min 127 (h.ring.filter fun q => q.2.st != .done).length * 2 ^ 6 + min 255 cp * 2 ^ 16 +
    min 255 mx * 2 ^ 24 + min 65535 ack * 2 ^ 32)

/-- Units left in the account a hart is charged to (R410). -/
def bleftOf (s : State) (h : Hart) : Nat :=
  match tget s.work.accts h.id.acct with
  | some a => if (a.closed && h.id.handler) || a.unlimited then 0xFFFFFFFFFF else min a.units 0xFFFFFFFFFF
  | none => 0xFFFFFFFFFF

/-- hstat (R105). -/
def hstatOf (h : Hart) : Word :=
  BitVec.ofNat 64 (b2n h.l.wrsFull + 2 * b2n h.snap.isSome + 4 * b2n h.l.yreq + 8 * b2n (anyHeld h))

/-- `cycle` of the core the hart occupies, with the machine's offset (R107). -/
def mcycleOf (s : State) (k : Nat) (c : MCsr) : Word :=
  if wbit c.mcountinhibit 0 then c.mcycleOff else BitVec.ofNat 64 (slotClk s k) + c.mcycleOff

/-- The steer field of a core: as written, else from the configuration record (R105, R143). -/
def steerOf (s : State) (core : Nat) : Nat := tgetD s.steerCfg core (Nat.land (Config.steer core) 0x3F3F3F3F)

/-- What a read of a CSR returns; none for a number that raises cause 2 (R105 to R108). -/
def csrRead (s : State) (k : Nat) (h : Hart) (n : Nat) : Option Word :=
  let c := mcsrOf s k
  let id := h.id
  match n with
  | 0x800 => some (h.l.lfrm.setWidth 64)
  | 0x801 => some (h.l.lflags.setWidth 64)
  | 0x802 => some (BitVec.ofNat 64 (b2n h.l.ftz))
  | 0x803 => some (hstatOf h)
  | 0xCC0 => some (topStk h).mask
  | 0xCC1 => some (BitVec.ofNat 64 h.dep)
  | 0xCC2 => some (BitVec.ofNat 64 (hwhereOf k id.handler))
  | 0xCC3 => some (BitVec.ofNat 64 (id.hidx % 64 + id.size % 128 * 2 ^ 8 + id.teamNo % 2 ^ 32 * 2 ^ 32))
  | 0xCC4 => some (BitVec.ofNat 64 (id.grid % 2 ^ 32 + id.depth % 16 * 2 ^ 32 + id.teams % 2 ^ 24 * 2 ^ 40))
  | 0xCC5 => some (BitVec.ofNat 64 (id.asid % 2 ^ 16 + id.tenant % 16 * 2 ^ 16))
  | 0xCC6 => some (BitVec.ofNat 64 (h.l.fseq % 2 ^ 16 + h.l.nseq % 2 ^ 16 * 2 ^ 16))
  | 0xCC7 => some (BitVec.ofNat 64 (h.l.lfcode % 2 ^ 16 + h.l.lfengine % 8 * 2 ^ 16))
  | 0xCC8 => some h.l.lfaddr
  | 0xCC9 => some h.l.lflanes
  | 0xCCA => some (ostcOf h)
  | 0xCCB => some id.dline
  | 0xCCC => some (BitVec.ofNat 64 (bleftOf s h))
  | 0xCCD => some (BitVec.ofNat 64 (id.cls % 4 + id.level % 4 * 4))
  | 0xCCE => some h.l.bstpc
  | 0x7C0 => some (BitVec.ofNat 64 (steerOf s (coreOfSlot k)))
  | 0xC00 => some (mcycleOf s k c)
  | 0xC01 => some (BitVec.ofNat 64 s.clock.time)
  | 0xC02 => some h.s.instret
  | 0x100 => some (h.s.mstatus &&& sstatusMask)
  | 0x104 => some (h.s.mie &&& c.mideleg)
  | 0x105 => some h.s.stvec
  | 0x106 => some h.s.scounteren
  | 0x10A => some h.s.senvcfg
  | 0x140 => some h.s.sscratch
  | 0x141 => some h.s.sepc
  | 0x142 => some h.s.scause
  | 0x143 => some h.s.stval
  | 0x144 => some (effMip h &&& c.mideleg)
  | 0x180 => some (ctxOf s id.asid).satp
  | 0xF11 => some 0
  | 0xF12 => some 0x4E4C
  | 0xF13 => some (BitVec.ofNat 64 (Config.stepping % 256))
  | 0xF14 => some (BitVec.ofNat 64 k)
  | 0xF15 => some 0
  | 0x300 => some h.s.mstatus
  | 0x301 => some 0x8000000000941101
  | 0x302 => some c.medeleg
  | 0x303 => some c.mideleg
  | 0x304 => some h.s.mie
  | 0x305 => some c.mtvec
  | 0x306 => some c.mcounteren
  | 0x30A => some c.menvcfg
  | 0x320 => some c.mcountinhibit
  | 0x340 => some c.mscratch
  | 0x341 => some c.mepc
  | 0x342 => some c.mcause
  | 0x343 => some c.mtval
  | 0x344 => some (effMip h)
  | 0xB00 => some (mcycleOf s k c)
  | 0xB02 => some h.s.instret
  | n =>
    if 0xB03 ≤ n ∧ n ≤ 0xB1F then some 0
    else if 0x323 ≤ n ∧ n ≤ 0x33F then some 0
    else if 0x3A0 ≤ n ∧ n ≤ 0x3AF then (if n % 2 = 0 then some 0 else none)
    else if 0x3B0 ≤ n ∧ n ≤ 0x3EF then some 0
    else none

/-- A counter of Zicntr readable in the hart's mode: mcounteren below M-mode, and scounteren in U-mode. -/
def counterOk (s : State) (k : Nat) (h : Hart) (n : Nat) : Bool :=
  n < 0xC00 || n > 0xC02 || h.mode == .m ||
  (wbit (mcsrOf s k).mcounteren (n - 0xC00) && (h.mode == .s || wbit h.s.scounteren (n - 0xC00)))

/-- The hart may access the CSR: its mode, a read-only number that would be written, TVM for satp, the counter enables
(R105, R107, privileged architecture). -/
def csrAllowed (s : State) (k : Nat) (h : Hart) (n : Nat) (write : Bool) : Bool :=
  modeRank h.mode ≥ n / 256 % 4 && !(write && n / 1024 = 3) && !(n == 0x180 && h.mode == .s && wbit h.s.mstatus msTVM) &&
  counterOk s k h n && (csrRead s k h n).isSome

/-- A satp write keeps MODE 0 and 15 only; it is the context's (R107, R310). -/
def satpSet (s : State) (asid : Nat) (w : Word) : State :=
  if w.toNat / 2 ^ 60 = 0 ∨ w.toNat / 2 ^ 60 = 15 then updCtx s asid fun c => { c with satp := satpKeep w asid } else s
where
  /-- The fields kept: MODE, the ASID of the context, and the table's page (R310). -/
  satpKeep (w : Word) (asid : Nat) : Word := BitVec.ofNat 64 (setBits w.toNat 44 16 asid)

/-- The state after a CSR takes value w: each register keeps what its rule lets it hold (R105, R107, R109, R111). -/
def csrWrite (s : State) (k : Nat) (h : Hart) (n : Nat) (w : Word) : State :=
  let c := mcsrOf s k
  let set (f : Hart → Hart) : State := setHart s k (f h)
  let setS (f : SCsr → SCsr) : State := setHart s k { h with s := f h.s }
  let setL (f : LCsr → LCsr) : State := setHart s k { h with l := f h.l }
  let s0 := setHart s k h
  let setM (f : MCsr → MCsr) : State := updMcsr s0 k f
  match n with
  | 0x800 => setL fun l => { l with lfrm := w.setWidth 3 }
  | 0x801 => setL fun l => { l with lflags := w.setWidth 6 }
  | 0x802 => setL fun l => { l with ftz := wbit w 0 }
  | 0x803 => setL fun l => { l with wrsFull := l.wrsFull && !wbit w 0 }
  | 0x100 => setS fun r => { r with mstatus := merge r.mstatus (mstatusWrite r.mstatus w) (sstatusMask &&& mstatusWritable) }
  | 0x104 => setS fun r => { r with mie := merge r.mie w (mieWritable &&& c.mideleg) }
  | 0x105 => setS fun r => { r with stvec := tvecWrite w }
  | 0x106 => setS fun r => { r with scounteren := w &&& 7 }
  | 0x10A => setS fun r => { r with senvcfg := w &&& 1 }
  | 0x140 => setS fun r => { r with sscratch := w }
  | 0x141 => setS fun r => { r with sepc := w &&& ~~~ 3 }
  | 0x142 => setS fun r => { r with scause := w }
  | 0x143 => setS fun r => { r with stval := w }
  | 0x144 => setS fun r => { r with mip := mipWrite r.mip w c.mideleg }
  | 0x300 => setS fun r => { r with mstatus := mstatusWrite r.mstatus w }
  | 0x302 => setM fun m => { m with medeleg := (w &&& 0xB3FF) ||| 0xFF000000 }
  | 0x303 => setM fun m => { m with mideleg := (w &&& 0x222) ||| 0x3F0000 }
  | 0x304 => setS fun r => { r with mie := merge r.mie w mieWritable }
  | 0x305 => setM fun m => { m with mtvec := tvecWrite w }
  | 0x306 => setM fun m => { m with mcounteren := w &&& 7 }
  | 0x30A => setM fun m => { m with menvcfg := w &&& 1 }
  | 0x320 => setM fun m => inhibit s k m w
  | 0x340 => setM fun m => { m with mscratch := w }
  | 0x341 => setM fun m => { m with mepc := w &&& ~~~ 3 }
  | 0x342 => setM fun m => { m with mcause := w }
  | 0x343 => setM fun m => { m with mtval := w }
  | 0x344 => setS fun r => { r with mip := mipWrite r.mip w (BitVec.allOnes 64) }
  | 0xB00 => setM fun m => { m with mcycleOff := if wbit m.mcountinhibit 0 then w else w - BitVec.ofNat 64 (slotClk s k) }
  | 0xB02 => setS fun r => { r with instret := w }
  | _ => set id
where
  /-- mcountinhibit: a cycle counter that stops keeps its value, and one that starts goes on from it. -/
  inhibit (s : State) (k : Nat) (m : MCsr) (w : Word) : MCsr :=
    let v := mcycleOf s k m
    { m with mcountinhibit := w &&& 5, mcycleOff := if wbit w 0 then v else v - BitVec.ofNat 64 (slotClk s k) }

/-- The source operand of a CSR instruction. -/
def csrSource (h : Hart) (useImm : Bool) (src : XR) : Word := if useImm then src.setWidth 64 else rx h src

/-- The value a CSR instruction writes. -/
def csrNew (op : CsrKind) (old v : Word) : Word :=
  match op with
  | .rw => v | .rs => old ||| v | .rc => old &&& ~~~ v

/-- The instruction writes the CSR (Zicsr). -/
def csrWritesAt (op : CsrKind) (src : XR) : Bool := csrWrites op src

/-- CSR_ACCESS: Zicsr on every register of the device (R105 to R108). `lflags` and `hstat` wait for instructions that can set
a flag (R95, R106). A write of instret keeps the value written: the instruction's own retirement does not add to it. -/
def execCsrAccess (op : CsrKind) (useImm : Bool) (csr : BitVec 12) (rd src : XR) (s : State) :
    Host.Outcome State Fault Refusal :=
  let i : Instr := .csrAccess op useImm csr rd src
  onHart s i fun k h =>
    let n := csr.toNat
    let wr := csrWritesAt op src
    if !csrAllowed s k h n wr then illegal s k h i
    else if (n == 0x801 || n == 0x803) && flagPending h then s
    else
      let old := (csrRead s k h n).getD 0
      let v := csrNew op old (csrSource h useImm src)
      let h' := adv s k (wx h rd old) 4
      if wr then csrWrite s k h' n v else setHart s k h'

/-- The quadrants whose steer fields a write changes (R143). -/
def steerQuads (old v : Nat) : List Nat := (List.range 4).filter fun q => bitsOf old (8 * q) 6 != bitsOf v (8 * q) 6

/-- The datapath of a quadrant holds a compute instruction that has started (R143). -/
def datapathBusy (s : State) (core q : Nat) : Bool :=
  s.harts.any fun p => coreOfSlot p.1 == core && quadOfSlot p.1 == q &&
    p.2.ring.any fun r => r.2.st == .inflight && isCompute r.2.instr && r.2.stage == .issued

/-- STEER_WRITE (R105, R143): an M-mode write of `steer` stops the affected quadrants' lane issue, and applies once their datapaths have
drained; bits outside the four fields are ignored. The new setting is kept for the next boot (R144). -/
def execSteerWrite (op : CsrKind) (useImm : Bool) (rd src : XR) (s : State) : Host.Outcome State Fault Refusal :=
  let i : Instr := .steerWrite op useImm rd src
  onHart s i fun k h =>
    let core := coreOfSlot k
    let old := steerOf s core
    let v := Nat.land (csrNew op (BitVec.ofNat 64 old) (csrSource h useImm src)).toNat 0x3F3F3F3F
    let quads := steerQuads old v
    let rest (c : Core) : List SteerWait := c.steering.filter fun w => w.uid != h.id.uid
    if h.mode ≠ .m then illegal s k h i
    else if quads.any (datapathBusy s core) then
      updCore s core fun c => { c with steering := rest c ++ [{ slot := k, uid := h.id.uid, pc := h.pc, quads := quads }] }
    else
      let s := setHart s k (adv s k (wx h rd (BitVec.ofNat 64 old)) 4)
      let s := if v = old then s else { s with plat := { s.plat with steerRec := tput s.plat.steerRec core v } }
      updCore { s with steerCfg := tput s.steerCfg core v } core fun c => { c with steering := rest c }

/-- An earlier access of the hart may still have to be translated (R310): lane and tile memory work, reductions, copies and
sends that have not finished. -/
def untranslated (h : Hart) : Bool :=
  (pendingEntries h).any fun e => isOrderedMem e.instr || e.eng == .copy || match e.instr with
    | .vredOpen _ | .vredFlush _ | .msend _ | .msendb _ => true
    | _ => false

/-- SATP_WRITE (R107, R310): S-mode, unless TVM, and M-mode, once the hart's earlier accesses have been translated. -/
def execSatpWrite (op : CsrKind) (useImm : Bool) (rd src : XR) (s : State) : Host.Outcome State Fault Refusal :=
  let i : Instr := .satpWrite op useImm rd src
  onHart s i fun k h =>
    if !csrAllowed s k h 0x180 true then illegal s k h i
    else if untranslated h then s
    else
      let old := (ctxOf s h.id.asid).satp
      let v := csrNew op old (csrSource h useImm src)
      satpSet (setHart s k (adv s k (wx h rd old) 4)) h.id.asid v

end Sys2Proof.Machine
end

