-- ==== Sys2Proof/Machine/HartRecord.lean ====
section
/-! DEFINITION. The hart record of a save (R137, R285): its bytes, and how an answer that comes for a captured hart reaches it (R139, R176,
R208, R254, R287). -/

namespace Sys2Proof.Machine

/-- Words in memory order. -/
def words (l : List Word) : List Byte := l.flatMap fun w => leBytes 8 w.toNat

/-- S[0..31]: a mask and an rpc each. -/
def stkBytes (v : Vector StkEntry 32) : List Byte := v.toList.flatMap fun e => leBytes 8 e.mask.toNat ++ leBytes 8 e.rpc.toNat

/-- The status word of a hart record (R137). -/
def recStatus (h : Hart) : Nat :=
  let ticket (f : Ticket → Bool) : Nat := (List.range 16).foldl (fun a i => if p : i < 16 then a + b2n (f h.tickets[i]) * 2 ^ i else a) 0
  (match h.pend with
   | some p => p.reg.toNat + 32
   | none => 0) +
  modeCode h.mode * 2 ^ 6 + h.dep * 2 ^ 8 + b2n h.snap.isSome * 2 ^ 14 + b2n h.syncw * 2 ^ 15 + ticket (·.valid) * 2 ^ 16 +
  ticket (·.phase) * 2 ^ 32 + b2n h.halted * 2 ^ 48 + b2n (anyParked h) * 2 ^ 49 + b2n h.frag.isSome * 2 ^ 50

/-- The CSRs of a hart record, in its order (R137). -/
def recCsrs : List Nat :=
  [0x800, 0x801, 0x802, 0x803, 0xCCE, 0xCC6, 0xCC7, 0xCC8, 0xCC9, 0x100, 0x104, 0x144, 0x105, 0x140, 0x141, 0x142, 0x143, 0x106, 0xC02]

/-- The basting snapshot of a hart record. -/
def recSnap (h : Hart) : List Byte :=
  match h.snap with
  | none => List.replicate 832 0
  | some z => leBytes 8 z.dep ++ words (z.x.toList.drop 1) ++ words (z.m.toList.drop 1) ++ List.replicate 8 0 ++ stkBytes z.stk

/-- A ring slot of a hart record (R153). -/
def recRing (h : Hart) (j : Nat) : List Byte :=
  match tget h.ring j with
  | none => List.replicate 32 0
  | some e => words ((List.range 4).map fun i => ringWord e i)

/-- A send-queue entry of a hart record (R285): STATE, AWAIT and the code of a refusal stand in the ring entry too. -/
def recSend (h : Hart) (q : SendEntry) : List Byte :=
  if !q.used then List.replicate 64 0
  else
    let e := entryAt h q.seq
    let held : Bool := match e with
      | some e => e.st == .held && !e.sq
      | none => false
    let code := match e with
      | some e => e.code
      | none => 0
    leBytes 8 q.target.toNat ++ leBytes 8 q.handler.toNat ++ words ((List.range 4).map fun i => q.p.getD i 0) ++ leBytes 2 q.seq ++
    leBytes 1 (if q.sent then 2 else if held then 3 else 1) ++ leBytes 1 (b2n q.sent) ++ leBytes 2 (if held then code else 0) ++
    List.replicate 10 0

/-- The send-queue block of a hart record (R285). -/
def recMsg (h : Hart) : List Byte :=
  let m := h.msg
  let inbox := (m.inbox.flatMap fun q => words [q.w0, q.w1])
  let orig := if h.id.handler then m.origin.toNat % 2 ^ 27 + m.bodyLen * 2 ^ 32 + b2n m.rplAsked * 2 ^ 62 + b2n m.rplDue * 2 ^ 63 else 0
  (m.sendq.toList.flatMap (recSend h)) ++ inbox ++ List.replicate (256 - inbox.length) 0 ++
  leBytes 1 m.inbox.length ++ leBytes 1 m.rsv ++ leBytes 1 (m.sendq.toList.filter fun q => q.used && q.sent).length ++ leBytes 1 0 ++
  leBytes 2 m.drop ++ leBytes 1 m.event ++ leBytes 1 0 ++ leBytes 8 orig ++ List.replicate 240 0

/-- A vector register's 256 bytes. -/
def vregBytes (h : Hart) (n : Nat) : List Byte := (vget h n).toList.flatMap fun e => leBytes 4 e.toNat

/-- A HART RECORD (R137): 6,144 + 256 × vregs bytes. -/
def hartRecord (s : State) (k : Nat) (h : Hart) : List Byte :=
  leBytes 8 h.pc.toNat ++ words (h.x.toList.drop 1) ++ leBytes 8 (recStatus h) ++ words (h.m.toList.drop 1) ++ stkBytes h.stk ++
  words (recCsrs.map fun n => (csrRead s k h n).getD 0) ++
  leBytes 8 (match h.frag with
    | some (va, fmt) => va % 2 ^ 48 + fmt * 2 ^ 48
    | none => 0) ++
  List.replicate 96 0 ++ recSnap h ++ (h.tm.toList.flatMap fun t => leBytes 128 t.toNat) ++ ((List.range 64).flatMap (recRing h)) ++
  recMsg h ++ List.replicate 128 0 ++ ((List.range h.id.nv).flatMap (vregBytes h))

/-- The record of a captured hart follows the hart: every word that its change to h changes is written at its place (R139, R176, R208,
R254, R287). -/
def syncRecord (s : State) (z : SavedHart) (h : Hart) : State :=
  let old := hartRecord s z.slot z.hart
  let new := hartRecord s z.slot h
  let word (bs : List Byte) (w : Nat) : List Byte := (bs.drop (8 * w)).take 8
  (List.range (new.length / 8)).foldl (fun s w => if word new w = word old w then s else ctxWrite s z.hart.id.asid (z.pa + 8 * w) (word new w)) s

/-- AN ANSWER CHANGES A HART: a resident hart alone, a captured hart and its record (R139, R176, R208, R254, R287). -/
def answerHart (s : State) (uid : Nat) (f : Hart → Hart) : State :=
  match tget s.work.saves uid with
  | some z => syncRecord (updUid s uid f) z (f z.hart)
  | none => updUid s uid f

end Sys2Proof.Machine
end

