-- ==== Sys2Proof/Machine/LaneMem.lean ====
section
/-! DEFINITION. The lane engine's issue and memory work (05_lane_engine_memory): LANE_ISSUE and LANE_ELEMENT_RESPONSE.
Element work of one entry moves on in steps: each step takes some of its lanes as far as translation and data allow. -/

namespace Sys2Proof.Machine

/-- One lane of a `vpf` (R174): its line is brought to the level named by op, 0 the lane L1, 1 the RDC, 2 the MSC; the line must be readable as
such, R (R315), and where the lane would fault or wait it is dropped. Uncached memory fills the MSC alone (R177). The spec lets any request be dropped: a free value says whether this one is
(log 101). -/
def prefetchLane (k seq : Nat) (o : Eops) (s : State) (l : Nat) : State :=
  let keep := (Config.freeValue s.free).getLsbD 0
  let s := { s with free := s.free + 1 }
  match hartAt s k with
  | none => s
  | some h =>
    match entryAt h seq with
    | none => s
    | some e =>
      match elemAt h e l 0 with
      | .tstore _ _ => s
      | .mem va _ =>
        if !keep || !canonical va then s
        else match xlate s (dieOfSlot k) h.id.asid (ctxOf s h.id.asid).satp va .load e.mode (wbit h.s.mstatus msSUM) false (some (h.id.uid, e.pos)) with
          | (.ok (.hbm pa cached), s) =>
            let line := lineOf pa
            if !lineReady s (dieOfSlot k) line || isLost s line then s
            else if o.rnd = 2 then updMem s fun m => touchMsc m line
            else if !cached then s
            else if o.rnd = 0 then
              let s := fillLine s (dieOfSlot k) line
              let bs := lineBytes s (dieOfSlot k) line
              let key := l1Key h.id.asid va.toNat line
              updCore s (coreOfSlot k) fun c => if (tget c.l1 key).isSome then c else { c with l1 := putLine laneL1Lines c.l1 key bs }
            else fillLine s (dieOfSlot k) line
          | (_, s) => s

/-- LANE_ISSUE (R134, R147, R148, R152, R161, R174): the head of the hart's lane queue issues when no lock blocks it and the arbiter picks it. A parity error
stops it; an empty mask completes it unless its result goes to an x register; `vpf` asks for its lines and completes; a matrix instruction leaves
by MATRIX_DISPATCH instead. -/
def laneIssue (s : State) (k : Nat) (h : Hart) (e : Entry) : State :=
  let out : Hart := { h with laneQ := h.laneQ.drop 1 }
  let toX := match e.instr with
    | .vmvx _ | .vredOpen _ | .vredFlush _ => true
    | _ => false
  if parityBad h e then parityError s k h e
  else if e.lmask = 0 && !toX then setHart s k (doneEntry out e.seq)
  else match e.instr with
    | .vpf o => updHart ((lanesOf e.lmask).foldl (prefetchLane k e.seq o) s) k fun h => doneEntry { h with laneQ := h.laneQ.drop 1 } e.seq
    | _ => setHart s k (updEntry out e.seq fun e => { e with stage := .issued, started := e.started || isCompute e.instr })

/-- A `vred.add`. -/
def isRedAdd (i : Instr) : Bool := match i with
  | .vredAdd _ => true
  | _ => false

/-- The head of a hart's lane queue that the lane arbiter may start: no lock blocks it, no steering write stops its quadrant, and no earlier
`vred.flush` has still to send the entry that a `vred.add` would start anew (R134, R143, R147, R206). -/
def laneHead (s : State) (k : Nat) (h : Hart) : Option Entry :=
  match h.laneQ with
  | [] => none
  | q :: _ => match entryAt h q with
    | some e =>
      if e.st == .inflight && e.stage == .queued && e.eng == .lane && h.capture.isNone && !lockedFor h e && !steerStops s k && !(isRedAdd e.instr && olderFlush h e) then some e else none
    | none => none

/-- The other harts of a slot's quadrant whose heads wait for the lane arbiter. -/
def laneRivals (s : State) (k : Nat) : List Cand :=
  (s.harts.filter fun p => p.1 != k && p.1 / 64 == k / 64 && (laneHead s p.1 p.2).isSome).map fun p => hartCand p.1 p.2

def execLaneIssue (h : Nat) (s : State) : Host.Outcome State Fault Refusal :=
  stepOf <| match hartAt s h with
    | none => s
    | some hh =>
      match hh.laneQ with
      | [] => s
      | q :: _ =>
        match entryAt hh q with
        | some _ => (match laneHead s h hh with
            | some e =>
              if picks s (.lane (h / 64)) (hartCand h hh) (laneRivals s h) then
                laneIssue (notePick s (.lane (h / 64)) (hartCand h hh) (laneRivals s h)) h hh e
              else s
            | none => s)
        | none => setHart s h { hh with laneQ := hh.laneQ.drop 1 }

/-- An older entry of the hart that satisfies p, and is neither finished nor a store that has handed over every element. -/
def olderEntry (h : Hart) (e : Entry) (p : Instr → Bool) : Bool :=
  (pendingEntries h).any fun f => before f e && p f.instr && !handedOver f

/-- A `vfence`. -/
def isVfence (i : Instr) : Bool := match i with
  | .vfence _ => true
  | _ => false

/-- What an entry waits for before its elements perform (R150, R175, log 12): writers for every earlier lane memory
instruction, loads for every earlier writer, all for an earlier `vfence` and for earlier compute results. -/
def laneWaits (h : Hart) (e : Entry) : Bool :=
  olderCompute h e || olderEntry h e isVfence ||
  (if isLaneWriter e.instr then olderEntry h e isOrderedMem else olderEntry h e isLaneWriter)

/-- A reply of a lane is still to come: at a home, at a host, or in a window message (R172, R173, R282). -/
def laneOut (s : State) (uid seq l : Nat) : Bool :=
  let r : ReplyTo := .lane uid seq l
  (s.mem.homeq.any fun q => q.reply == r) || (s.mem.busy.any fun b => b.req.reply == r) || (s.mem.out.any fun o => o.reply == r) ||
  (s.net.wins.any fun w => w.reply == r) || (s.net.winReps.any fun w => w.acc.reply == r)

/-- Any lane of an entry has a reply to come or one waiting to be taken. -/
def entryOut (s : State) (uid seq : Nat) : Bool :=
  (List.range 64).any fun l => laneOut s uid seq l || s.mem.replies.any fun r => r.to_ == .lane uid seq l

/-- What an element's check gives: where it goes, a code of R160, or nothing yet. -/
inductive ElemRes where
  | at_ (l : Loc) | fault (code : Nat) | wait
deriving DecidableEq, Repr

/-- The windows that `vldt` and `vstt` reach by offset: the team's in order, or a handler's landing window (R170, R277). -/
def windowsOf (s : State) (h : Hart) : List Nat :=
  if h.id.handler then [h.id.land]
  else match tget s.work.teams h.id.team with
    | some t => t.wins
    | none => []

/-- The checks of one element in the order of R160, and the target's own refusals known before sending (R163, R261, R366). A
lane atomic that its target refuses is refused only when it is sent (R150). -/
def checkElem (s : State) (k : Nat) (h : Hart) (e : Entry) (ea : ElemAt) (acc : Acc) : ElemRes × State :=
  match ea with
  | .tstore off size =>
    if off % size ≠ 0 then (.fault 2, s)
    else
      let ws := windowsOf s h
      if off + size > 4096 * ws.length then (.fault 5, s)
      else (.at_ (.win (coreOfSlot k) (ws.getD (off / 4096) 0) (off % 4096)), s)
  | .mem va size =>
    let frag := size == 128
    if !canonical va then (.fault 3, s)
    else if (if frag then e.opa.toNat % 128 != 0 || e.opb.toNat % 128 != 0 else va.toNat % size != 0) then (.fault 2, s)
    else
      match xlateEntry s k h e va acc with
      | (.wait, s) => (.wait, s)
      | (.fault c, s) => (.fault c, s)
      | (.ok l, s) =>
        let store := acc != .load
        match l with
        | .mmio _ => (.fault 4, s)
        | .tile core t _ =>
          if store then (.fault 4, s)
          else if core ≠ coreOfSlot k then (if inTenant s h.id.tenant core then .at_ l else .fault 0x0203, s)
          else if tileOpen s core t h.id.asid then (.at_ l, s) else (.fault 0x0201, s)
        | .win core w _ =>
          if acc == .amo then (.at_ l, s)
          else if core ≠ coreOfSlot k && !inTenant s h.id.tenant core then (.fault 0x0203, s)
          else if core = coreOfSlot k && acc == .load && winState s core w h.id.asid == .closed then (.fault 0x0201, s)
          else (.at_ l, s)
        | .host p _ _ => if acc != .amo && !hostOpen s p then (.fault 0x0504, s) else (.at_ l, s)
        | .hbm _ _ => (.at_ l, s)

/-- A hart's entry changed in the state. -/
def updE (s : State) (k seq : Nat) (f : Entry → Entry) : State := updHart s k fun h => updEntry h seq f

/-- Lane l of an entry's mask cleared: it has performed (R155). -/
def clearLane (e : Entry) (l : Nat) : Entry := { e with lmask := e.lmask &&& ~~~ oneBit l, started := true }

/-- Element i of 128 bytes of row r, segment q in the fragment registers (R171, R235): word 32q + i of row r lies in
register vd + i at lane 16q + r. -/
def fragPut (h : Hart) (vd l : Nat) (bs : List Byte) : Hart :=
  (List.range 32).foldl (fun h i => setLane h (vd + i) (16 * (l / 16) + l % 16) (BitVec.ofNat 32 (leNat ((bs.drop (4 * i)).take 4)))) h

/-- The 128 bytes that lane l stores from the fragment registers. -/
def fragGet (h : Hart) (vd l : Nat) : List Byte :=
  (List.range 32).flatMap fun i => leBytes 4 (vlane h (vd + i) (16 * (l / 16) + l % 16)).toNat

/-- A loaded element written in its lane: extension by the W code, a pair for 8 bytes (R163, R166). -/
def loadPut (h : Hart) (i : Instr) (l : Nat) (bs : List Byte) : Hart :=
  let v := leNat bs
  match i with
  | .vldf o => fragPut h o.vd.toNat l bs
  | _ =>
    match engine? i with
    | some (_, o) =>
      let w := fmtWidth .w o.fmt.toNat
      setElem h o.vd.toNat l (max 32 w) (widen (o.fmt.toNat < 4) w v)
    | none => h

/-- The bytes that lane l of a store writes (R167). -/
def storeBytes (h : Hart) (i : Instr) (l : Nat) : List Byte :=
  match i with
  | .vstf o => fragGet h o.vd.toNat l
  | _ =>
    match engine? i with
    | some (_, o) => let w := fmtWidth .w o.fmt.toNat; leBytes (w / 8) (velem h o.vd.toNat l w)
    | none => []


/-- Lanes of an entry not yet taken up: enabled, not faulted, with no reply to come or waiting. -/
def openLanes (s : State) (h : Hart) (e : Entry) : List Nat :=
  (lanesOf e.lmask).filter fun l => !(e.flt.any fun f => f.1 == l) && !laneOut s h.id.uid e.seq l &&
    !(s.mem.replies.any fun r => r.to_ == .lane h.id.uid e.seq l)

/-- A lane's access of the host has its turn: the entry's lower lanes have been taken up, and so has every lane of the hart's earlier lane
accesses: a hart's accesses of one port go in program order, a lane instruction's in ascending order of lane (R53, R365). -/
def hostTurn (s : State) (h : Hart) (e : Entry) (l : Nat) : Bool :=
  !((openLanes s h e).any fun j => j < l) &&
  !((pendingEntries h).any fun f => before f e && isLaneMem f.instr && !(openLanes s h f).isEmpty)

/-- A tile write of the hart before the entry is not done (R251). -/
def olderTileWrite (h : Hart) (e : Entry) : Bool := olderEntry h e isTileWriter

/-- The element lies in the hart's own windows by its offset (R170). -/
def isByOffset (h : Hart) (e : Entry) (l : Nat) : Bool := match elemAt h e l 0 with
  | .tstore _ _ => true
  | _ => false

/-- One load element performed at its place, or sent: the bytes when they are there at once (R163). Elements to another
core's window or to the host are sent and answered later. -/
def loadAt (s : State) (k : Nat) (h : Hart) (e : Entry) (va : Word) (size l : Nat) (loc : Loc) (fresh : Bool) :
    Option (Option (List Byte)) × State :=
  match loc with
  | .hbm pa true => (match laneReadLine s k h va pa size fresh with
      | some (bs, s) => (some (some bs), s)
      | none => (none, lostFault s h.id.asid pa size))
  | .hbm pa false => (match readHbm s (dieOfSlot k) h.id.uid pa size false with
      | some (bs, _, s) => (some (some bs), s)
      | none => (none, lostFault s h.id.asid pa size))
  | .win core w off =>
    if isByOffset h e l || !viaMessage s core w h.id.asid (coreOfSlot k) then (some (some (readWin s core w off size)), s)
    else (some none, sendWin s h va e.mode core w off size .load [] false (.lane h.id.uid e.seq l))
  | .tile core t off =>
    if core ≠ coreOfSlot k then (some none, sendWin s h va e.mode core (tileBase + t) off size .load [] false (.lane h.id.uid e.seq l))
    else (if olderTileWrite h e then none else some (some (readTile s core t off size)), s)
  | .host p asid addr => if !hostTurn s h e l then (none, s) else (some none, hostSend s p asid h.id.uid addr size none false (.lane h.id.uid e.seq l))
  | .mmio _ => (none, s)

/-- The entry of a hart as the state now has it. -/
def entryNow (s : State) (k seq : Nat) : Option (Hart × Entry) :=
  match hartAt s k with
  | some h => (entryAt h seq).map fun e => (h, e)
  | none => none

/-- PART is set when LMASK is smaller than at forwarding (R155). -/
def markPart (e : Entry) : Entry := { e with part := e.part || e.lmask != e.fmask }

/-- One lane of a load taken as far as it goes (R166). -/
def loadLane (k seq : Nat) (fresh : Bool) (s : State) (l : Nat) : State :=
  match entryNow s k seq with
  | none => s
  | some (h, e) =>
    match elemAt h e l 0 with
    | ea =>
      match checkElem s k h e ea .load with
      | (.wait, s) => s
      | (.fault c, s) => updE s k seq fun e => { e with flt := e.flt ++ [(l, c, addrOf ea)] }
      | (.at_ loc, s) =>
        match loadAt s k h e (addrOf ea) (sizeOf ea) l loc fresh with
        | (none, s) => s
        | (some none, s) => updE s k seq fun e => { e with started := true, await := e.await }
        | (some (some bs), s) => updHart s k fun h => updEntry (loadPut h e.instr l bs) seq fun e => clearLane e l
where
  addrOf (ea : ElemAt) : Word := match ea with
    | .mem va _ => va
    | .tstore off _ => BitVec.ofNat 64 off
  sizeOf (ea : ElemAt) : Nat := match ea with
    | .mem _ n => n
    | .tstore _ n => n

/-- Data for a lane of a load, from another core's window or the host (R166): written when the entry still waits for it. -/
def laneData (s : State) (uid seq l : Nat) (bs : List Byte) : State :=
  updUid s uid fun h => match entryAt h seq with
    | some e => if e.st == .inflight && mbit e.lmask l then updEntry (loadPut h e.instr l bs) seq fun e => seqNext (clearLane e l) else h
    | none => h
where
  /-- A `vxld` moves RIDX on (R169). -/
  seqNext (e : Entry) : Entry := match e.instr with
    | .vxld _ => { e with opb := e.opb + 1 }
    | _ => e

/-- A late fault for a lane of an entry (R160). -/
def laneFault (s : State) (uid seq l code : Nat) : State :=
  updUid s uid fun h => match entryAt h seq with
    | some e =>
      if e.st == .inflight then
        updEntry h seq fun e' => { e' with flt := e'.flt ++ [(l, code, (match elemAt h e l (bitsOf e.opb.toNat 0 7) with
          | .mem va _ => va
          | .tstore off _ => BitVec.ofNat 64 off))] }
      else h
    | none => h

/-- Old values that have come for the lanes of an atomic are written to their lanes; a refusal is a fault of the lane
(R172, R173). -/
def takeReplies (s : State) (seq uid : Nat) : State :=
  let mine := s.mem.replies.filter fun r => match r.to_ with
    | .lane u q _ => u == uid && q == seq
    | _ => false
  let s := updMem s fun m => { m with replies := m.replies.filter fun r => match r.to_ with
    | .lane u q _ => !(u == uid && q == seq)
    | _ => true }
  mine.foldl (fun s r => match r.to_ with
    | .lane _ _ l =>
      if r.unsup then laneFault s uid seq l r.value.toNat
      else updUid s uid fun h => match entryAt h seq with
          | some e =>
            (match e.instr with
             | .vamo o | .vamoAq o | .vamoRl o | .vamoAqrl o =>
               updEntry (setElem h o.vd.toNat l (iWidth o.fmt) (r.value.toNat % 2 ^ iWidth o.fmt)) seq fun e => clearLane e l
             | _ => h)
          | none => h
    | _ => s) s

/-- The end of a step of a load: DONE when every lane is written, faults recorded when every other lane is. -/
def settleLoad (s : State) (k seq : Nat) : State :=
  match entryNow s k seq with
  | none => s
  | some (h, e) =>
    if e.lmask = 0 then setHart s k (doneEntry h seq)
    else if e.flt.isEmpty || (lanesOf e.lmask).any (fun l => !(e.flt.any fun f => f.1 == l)) then s
    else recordFaults s k h (markPart e) true true false

/-- A load: the given lanes, ascending (R166). -/
def stepLoad (s : State) (k seq : Nat) (lanes : Mask) (fresh : Bool) : State :=
  match entryNow s k seq with
  | none => s
  | some (h, e) =>
    let ls := (openLanes s h e).filter (mbit lanes)
    settleLoad (ls.foldl (loadLane k seq fresh) s) k seq

/-- Performing one store element at its place: HBM through the homes, an own window directly, another core's window by a
message, the host by a posted write (R163, R167, R282 to R284). A window that is closed drops the element. A lane whose element is in a
message stays in LMASK until it is acknowledged, redirected or dropped (R283). -/
def storeAt (s : State) (k seq : Nat) (va : Word) (l : Nat) (loc : Loc) (bs : List Byte) : State :=
  match entryNow s k seq with
  | none => s
  | some (h, e) =>
    let done (s : State) : State := updE s k seq fun e => clearLane e l
    match loc with
    | .hbm pa c => done (pushStoreAs true s k (laneSide h) pa c bs)
    | .win core w off =>
      if isByOffset h e l then done (writeWin s core w off h.id.uid bs)
      else if viaMessage s core w h.id.asid (coreOfSlot k) then
        updE (sendWin s h va e.mode core w off bs.length .store bs false (.lane h.id.uid seq l)) k seq fun e => { e with started := true }
      else if winState s core w h.id.asid = .open_ then done (writeWin s core w off h.id.uid bs)
      else done (updHart s k fun h => countDrop h 1)
    | .host _ _ addr => done (hostWrite s addr bs)
    | _ => s

/-- The checks of every lane of a list: addresses with places, faults, or a wait. -/
def checkAll (s : State) (k : Nat) (h : Hart) (e : Entry) (acc : Acc) :
    List Nat → (Bool × List (Nat × Word × Loc) × List (Nat × Nat × Word)) × State
  | [] => ((false, [], []), s)
  | l :: ls =>
    let ea := elemAt h e l 0
    let va := loadLane.addrOf ea
    match checkElem s k h e ea acc with
    | (.wait, s) => ((true, [], []), s)
    | (.fault c, s) =>
      let r := checkAll s k h e acc ls
      ((r.1.1, r.1.2.1, (l, c, va) :: r.1.2.2), r.2)
    | (.at_ loc, s) =>
      let r := checkAll s k h e acc ls
      ((r.1.1, (l, va, loc) :: r.1.2.1, r.1.2.2), r.2)

/-- The elements of a store that go in this step: all but those that host elements before them keep back, of which `lanes` says how far
they go: a lane instruction's accesses of a port are sent in ascending order of lane (R365). -/
def goesNow (lanes : Mask) (ok : List (Nat × Word × Loc)) : List (Nat × Word × Loc) :=
  let host (p : Nat × Word × Loc) : Bool := match p.2.2 with
    | .host _ _ _ => true
    | _ => false
  ok.filter (fun p => !host p) ++ (ok.filter host).takeWhile fun p => mbit lanes p.1

/-- The end of a step of a store: DONE when every element has performed or been dropped; handed over when only acknowledgements are to come. -/
def settleStore (s : State) (k seq : Nat) : State :=
  match entryNow s k seq with
  | none => s
  | some (h, e) =>
    if e.lmask = 0 then setHart s k (doneEntry h seq)
    else if (openLanes s h e).isEmpty then updE s k seq fun e => { e with stage := .sent }
    else s

/-- A store: every enabled lane passes its fault point, or none performs (R150, R167). One that has begun sends what is left; an element that
its port will not take any more faults, and the entry is held with the lanes left (R376). -/
def stepStore (s : State) (k : Nat) (h : Hart) (e : Entry) (lanes : Mask) : State :=
  let begun := e.stage == .running
  match checkAll s k h e .store (if begun then openLanes s h e else lanesOf e.lmask) with
  | ((true, _, _), s) => s
  | ((false, ok, []), s) =>
    if ok.any fun p => !mayLeave s (laneSide h) p.2.2 then s else
    let s := updE s k e.seq fun e => { e with stage := .running }
    settleStore ((goesNow lanes ok).foldl (fun s p => storeAt s k e.seq p.2.1 p.1 p.2.2 (storeBytes h e.instr p.1)) s) k e.seq
  | ((false, _, f), s) =>
    if begun && entryOut s h.id.uid e.seq then s
    else recordFaults s k h (markBegun { e with flt := f }) true false true
where
  /-- PART for a store of which elements have been sent (R153, R155). -/
  markBegun (e : Entry) : Entry := if e.stage == .running then { markPart e with stage := .issued } else e

/-- A store element's answer (R282 to R284): performed, or dropped and counted, it leaves LMASK; the last completes the entry, and RIDX of a
`vcst` moves on. -/
def laneStored (h : Hart) (seq l : Nat) (dropped : Bool) : Hart :=
  let h := countDrop h (b2n dropped)
  match entryAt h seq with
  | none => h
  | some e =>
    if e.st != .inflight || !mbit e.lmask l then h
    else
      let h := updEntry h seq fun e => match e.instr with
        | .vcst _ => { clearLane e l with opb := e.opb + 1 }
        | _ => clearLane e l
      if e.lmask &&& ~~~ oneBit l = 0 then doneEntry h seq else h

/-- The running index of `vcst` and `vxld`, held in OPB (R153). -/
def ridx (e : Entry) : Nat := bitsOf e.opb.toNat 0 7

/-- One element of `vcst` or `vxld`; false stops the sequence (R168, R169). -/
def seqLane (k seq : Nat) (store fresh : Bool) (p : Bool × State) (l : Nat) : Bool × State :=
  if !p.1 then p
  else match entryNow p.2 k seq with
    | none => (false, p.2)
    | some (h, e) =>
      let i := ridx e
      let ea := elemAt h e l i
      let va := loadLane.addrOf ea
      match checkElem p.2 k h e ea (if store then .store else .load) with
      | (.wait, s) => (false, s)
      | (.fault c, s) => (false, updE s k seq fun e => { e with flt := [(l, c, va)] })
      | (.at_ loc, s) =>
        let bump (s : State) : State := updE s k seq fun e => { e with opb := BitVec.ofNat 32 (i + 1) }
        if store && !mayLeave s (laneSide h) loc then (false, s)
        else if store then
          let s := storeAt s k seq va l loc (storeBytes h e.instr l)
          match entryNow s k seq with
          | some (_, e') => if mbit e'.lmask l then (false, s) else (true, bump s)
          | none => (false, s)
        else
          match loadAt s k h e va (loadLane.sizeOf ea) l loc fresh with
          | (none, s) => (false, s)
          | (some none, s) => (false, updE s k seq fun e => { e with started := true })
          | (some (some bs), s) => (true, bump (updHart s k fun h => updEntry (loadPut h e.instr l bs) seq fun e => clearLane e l))

/-- `vcst` and `vxld`: each element is checked and performed before the next, from RIDX on (R168, R169). -/
def stepSeq (s : State) (k seq uid : Nat) (store fresh : Bool) : State :=
  match entryNow s k seq with
  | none => s
  | some (_, e) =>
    if entryOut s uid seq then s
    else
      let s := if e.flt.isEmpty then ((lanesOf e.lmask).foldl (seqLane k seq store fresh) (true, s)).2 else s
      match entryNow s k seq with
      | none => s
      | some (h, e) =>
        if e.lmask = 0 then setHart s k (doneEntry h seq)
        else if e.flt.isEmpty then s
        else recordFaults s k h (markPart e) true (!store) store

/-- The ordering bits of a lane atomic (R172): acquire, release. -/
def amoOrder (i : Instr) : Bool × Bool := match i with
  | .vamoAq _ => (true, false)
  | .vamoRl _ => (false, true)
  | .vamoAqrl _ => (true, true)
  | _ => (false, false)

/-- One atomic element sent or performed (R163, R172, R173, R294). -/
def amoLane (k seq : Nat) (o : Eops) (s : State) (p : Nat × Word × Loc) : State :=
  match entryNow s k seq with
  | none => s
  | some (h, e) =>
    let l := p.1
    let n := iWidth o.fmt / 8
    let op := o.rnd.toNat
    let sg := iSigned o.fmt
    let v := velem h o.vs3.toNat l (8 * n)
    let cmp := velem h o.vd.toNat l (8 * n)
    let r : ReplyTo := .lane h.id.uid seq l
    let sent (s : State) : State := updE s k seq fun e => { e with started := true, await := true }
    let bad (c : Nat) : State := updE s k seq fun e => { e with flt := e.flt ++ [(l, c, p.2.1)] }
    match p.2.2 with
    | .hbm pa c => sent (pushAtomic s k (laneSide h) pa (hbmAtomicKind c (scopeOf o.ks) op n sg v cmp) false r)
    | .win core w off =>
      if core ≠ coreOfSlot k && !inTenant s h.id.tenant core then bad 0x0203
      else if core = coreOfSlot k && winState s core w h.id.asid == .closed then bad 0x0201
      else if !viaMessage s core w h.id.asid (coreOfSlot k) then
        let q := amoWin s core w off h.id.uid n op sg v cmp
        updHart q.2 k fun h => updEntry (setElem h o.vd.toNat l (8 * n) q.1) seq fun e => clearLane e l
      else sent (sendWin s h p.2.1 e.mode core w off n (.amo op sg v cmp) [] false r)
    | .host port asid addr =>
      if !hostAtomicOk s port op then bad 0x0501
      else if !hostOpen s port then bad 0x0504
      else sent (hostSend s port asid h.id.uid addr n (some (op, v, cmp)) false r)
    | _ => s

/-- `vamo` (R150, R172, R173): every element passes the checks before any performs; then HBM, window and host elements go
their ways; old values are written as they return. An acquire at die scope or wider clears the lane L1 when all have. -/
def stepAmo (s : State) (k seq uid : Nat) (o : Eops) : State :=
  let s := takeReplies s seq uid
  match entryNow s k seq with
  | none => s
  | some (h, e) =>
    let sc := scopeOf o.ks
    let ls := openLanes s h e
    let s :=
      if ls.isEmpty then s
      else if (amoOrder e.instr).2 && (olderAccess h e || !performedAt s h sc) then s
      else match checkAll s k h e .amo ls with
        | ((true, _, _), s) => s
        | ((false, ok, []), s) =>
          let h' := if (amoOrder e.instr).2 then releaseDeps s h sc else h
          let s := setHart s k h'
          if ok.any fun p => !mayLeave s (laneSide h') p.2.2 then s else ok.foldl (amoLane k seq o) s
        | ((false, _, f), s) => updE s k seq fun e => { e with flt := e.flt ++ f }
    match entryNow s k seq with
    | none => s
    | some (h, e) =>
      if e.lmask = 0 then
        let s := if (amoOrder e.instr).1 then acquireAt s k sc else s
        updHart s k fun h => doneEntry h seq
      else if e.flt.isEmpty || entryOut s uid seq then s
      else recordFaults s k h { markPart e with await := false } true true true

/-- `vfence` (R175): it completes when every earlier lane and matrix access of the hart has performed at its scope; it orders no scalar access. -/
def stepVfence (s : State) (k : Nat) (h : Hart) (e : Entry) (o : Eops) : State :=
  let sc := scopeOf o.ks
  if olderAccess h e || !lanePerformed s h sc then s
  else acquireLane (setHart s k (doneEntry (releaseLane s h sc) e.seq)) k sc

/-- The address check of `vred.open` and `vred.flush` as a lane element of the B width (R204, R206). -/
def checkRed (s : State) (k : Nat) (h : Hart) (e : Entry) (o : Eops) : ElemRes × State :=
  if !canonical e.opa then (.fault 3, s)
  else if e.opa.toNat % (fmtWidth .b o.fmt.toNat / 8) ≠ 0 then (.fault 2, s)
  else match xlateEntry s k h e e.opa .amo with
    | (.wait, s) => (.wait, s)
    | (.fault c, s) => (.fault c, s)
    | (.ok l, s) => (.at_ l, s)

/-- The status of an LB instruction known without the AU: written to X[d], and the entry is DONE (R204, R206). -/
def redStatus (s : State) (k : Nat) (e : Entry) (o : Eops) (st : Nat) : State :=
  updHart s k fun h => doneEntry (deliverX h e.seq (xreg o.vd) (BitVec.ofNat 64 st)) e.seq

/-- `vred.open` (R204): checked, then sent to the AU that homes the result. TARGET is tested before COUNT; the spec gives no order of the two
(DESIGN CHOICE, log 107). -/
def stepOpen (s : State) (k : Nat) (h : Hart) (e : Entry) (o : Eops) : State :=
  match checkRed s k h e o with
  | (.wait, s) => s
  | (.at_ (.hbm pa _), s) =>
    if e.opb = 0 || e.opb.toNat > 49152 then redStatus s k e o 3
    else
      let s := { s with reds := { s.reds with auq := s.reds.auq ++ [.openReq h.id.uid e.seq h.id.asid pa o.fmt.toNat e.opb.toNat] } }
      updE s k e.seq fun e => { e with started := true, await := true, stage := .sent }
  | (.at_ _, s) => redStatus s k e o 4
  | (.fault c, s) => recordOne s k h e c e.opa true true

/-- `vred.flush` (R206, R210): once the hart's earlier `vred.add` have been added, its earlier lane and tile accesses have performed, and what it has written and observed is visible to every
agent, so that the AU's write of the result is a release of it (R57, R304), the contribution of the hart's entry for the key, or an empty one, is sent and the entry is
freed; a lost fragment makes it status 8. -/
def stepFlush (s : State) (k : Nat) (h : Hart) (e : Entry) (o : Eops) : State :=
  let fmt := o.fmt.toNat
  let key := (e.opa.toNat % 2 ^ 48, fmt)
  let mine (r : RedEntry) : Bool := r.va == key.1 && r.fmt == key.2
  let freed (s : State) : State := match tget s.reds.buf k with
    | some r => if mine r then { s with reds := { s.reds with buf := tdel s.reds.buf k } } else s
    | none => s
  if olderCompute h e || olderAccess h e || !performedAt s h .device || !(liveSeen s h).isEmpty then s
  else if h.frag = some key then redStatus (updHart (freed s) k fun h => { h with frag := none }) k e o 8
  else match checkRed s k h e o with
    | (.wait, s) => s
    | (.at_ (.hbm pa _), s) =>
      let parts := match tget s.reds.buf k with
        | some r => if mine r then r.parts else List.replicate (redParts fmt) (redIdentity fmt)
        | none => List.replicate (redParts fmt) (redIdentity fmt)
      let (ord, s) := freshUid s
      let c : Contrib := { core := coreOfSlot k, quad := quadOfSlot k, slot := slotInQuad k, order := ord, fin := true, parts := parts, line := 0 }
      let s := freed s
      let s := { s with reds := { s.reds with auq := s.reds.auq ++ [.contribution h.id.uid e.seq h.id.asid pa fmt c] } }
      updE s k e.seq fun e => { e with started := true, await := true, stage := .sent }
    | (.at_ _, s) => redStatus (freed s) k e o 4
    | (.fault c, s) => recordOne s k h e c e.opa true true

/-- LANE_ELEMENT_RESPONSE: translations, data, acknowledgements and old values move an issued lane entry on (R149 to R157,
R163 to R175, R204, R206); a store that has begun goes on under a capture too (R176). `lanes` are the lanes of a load, or the host elements of
a store, that move, `fresh` makes their data come past the lane L1. -/
def laneRespond (s : State) (k : Nat) (h : Hart) (e : Entry) (lanes : Mask) (fresh : Bool) : State :=
  if isLaneMem e.instr && laneWaits h e then s
  else match e.instr with
    | .vld _ | .vlds _ | .vldg _ | .vldt _ | .vldf _ => stepLoad s k e.seq lanes fresh
    | .vst _ | .vsts _ | .vstg _ | .vstt _ | .vstf _ => stepStore s k h e lanes
    | .vcst _ => stepSeq s k e.seq h.id.uid true fresh
    | .vxld _ => stepSeq s k e.seq h.id.uid false fresh
    | .vamo o | .vamoAq o | .vamoRl o | .vamoAqrl o => stepAmo s k e.seq h.id.uid o
    | .vfence o => stepVfence s k h e o
    | .vredOpen o => stepOpen s k h e o
    | .vredFlush o => stepFlush s k h e o
    | _ => s

def execLaneElementResponse (h seq : Nat) (lanes : Mask) (fresh : Bool) (s : State) : Host.Outcome State Fault Refusal :=
  stepOf <| match hartAt s h with
    | none => s
    | some hh =>
      match entryAt hh seq with
      | none => s
      | some e =>
        if e.st == .inflight && ((e.stage == .issued && hh.capture.isNone) || e.stage == .running) && e.eng == .lane then laneRespond s h hh e lanes fresh
        else s

end Sys2Proof.Machine
end

