-- ==== Sys2Proof/Machine/MemSide.lean ====
section
/-! DEFINITION. The memory-side engines (10_memory_side_engines): the home and its snoops, the atomic units with their counter
cells, the deterministic reductions, ECC and scrubbing, and their registers. -/

namespace Sys2Proof.Machine

/-- The register block of a memory die (R307). -/
def mdBase (md : Nat) : Nat := 0x20000 + 0x1000 * md

/-- ECC found in a read of the stack (R306): 1 a corrected error, counted towards the threshold; 2 an uncorrectable one, which
enters the line in the table or, with the table full, is fatal. Any other value: none. -/
def eccEvent (s : State) (line err : Nat) : State :=
  let md := homeOf (line * 128)
  let b := mdBase md
  if err = 1 then
    let s := bumpReg (bumpReg s (b + 0x48) 32 1) pfCe 63 1
    let thr := regD s (b + 0x60) 1024
    if thr ≠ 0 ∧ reg s (b + 0x48) = thr then rasNotice s else s
  else if err = 2 then
    let s := bumpReg s (b + 0x50) 32 1
    if isLost s line then s
    else
      let n := firstBelow 64 fun j => (tget s.mem.lost (64 * md + j)).isNone
      if n ≥ 64 then fatal s 2 else updMem s fun m => { m with lost := tput m.lost (64 * md + n) line }
  else s

/-- The request writes its whole line without reading it. -/
def wholeLine (r : HomeReq) : Bool := isStore r && r.data.length == 128

/-- Two requests that one agent of a core sends along one route, to homes of one memory die, on one VC (R428, R430). -/
def sameRoute (q r : HomeReq) : Bool := q.core != 255 && q.core == r.core && q.uid == r.uid && homeOf q.pa == homeOf r.pa

/-- A request may be taken by the home: the earliest of its line, the line not held for another, the requests it must follow
all visible (R47, R289), and accepted after those that its agent sent before it along the same route (R430). -/
def canTake (s : State) (i : Nat) (r : HomeReq) : Bool :=
  let line := lineOf r.pa
  !((s.mem.homeq.take i).any fun q => lineOf q.pa == line) && !(s.mem.busy.any fun b => lineOf b.req.pa == line) &&
  r.deps.all (reqDone s) && !((s.mem.homeq.take i).any fun q => sameRoute q r && q.deps.all (reqDone s))

/-- The agents that must give up a line for a request of die d: other holders, every die with a write-back in transit, and the
host of an HDM window (R289, R290, R355). -/
def toSnoop (s : State) (line d : Nat) : List Nat :=
  ((List.range 4).filter fun e => (e != d && (rdcAt s e line).isSome) || (wbDies s line).contains e) ++
  (s.mem.hostHeld.filter fun p => p.2 == line).map fun p => 4 + p.1

/-- Snoops sent: the host's is a BISnp, answered by BISNP_ANSWER. -/
def sendSnoops (s : State) (line : Nat) (ds : List Nat) : State :=
  updMem s fun m => { m with snoops := m.snoops ++ ((ds.filter (· < 4)).map fun d => (⟨d, line⟩ : SnoopMsg)) }

/-- A value as a reply delivers it: sign-extended from its size, or zero-extended (R293, R297). -/
def replyWord (sx : Bool) (n v : Nat) : Word :=
  if sx then (if n = 4 then (BitVec.ofNat 32 v).signExtend 64 else BitVec.ofNat 64 v) else BitVec.ofNat 64 (v % 2 ^ (8 * n))

/-- An answer sent; nothing is sent to nobody. -/
def answer (s : State) (to_ : ReplyTo) (v : Word) : State :=
  if to_ = .none then s else updMem s fun m => { m with replies := m.replies ++ [⟨to_, v, false⟩] }

/-- A refusal sent to whoever waits for an answer. -/
def refuse (s : State) (to_ : ReplyTo) : State :=
  if to_ = .none then s else updMem s fun m => { m with replies := m.replies ++ [⟨to_, 0, true⟩] }

/-- A counter cell used: the least recently used of 4,096 goes back to the MSC, which shows nothing (R299). -/
def touchCell (s : State) (pa : Nat) : State :=
  let md := homeOf pa
  let w := pa / 8
  updMem s fun m => { m with cells := tput m.cells md ((w :: (tgetD m.cells md []).filter (· != w)).take 4096) }

/-- A store granted to the writer's RDC: step 1 of R49. The core's own lane L1 drops the line (R37), and its monitors wake. -/
def grantStore (s : State) (r : HomeReq) : State :=
  let line := lineOf r.pa
  let late := match rdcAt s r.die line with
    | some l => l.late
    | none => []
  let bs := overlay (line * 128) (lineBytes s r.die line) r.pa r.data
  let s := setRdc s r.die line (some ⟨some bs, late⟩)
  let s := if wholeLine r then clearLost s line else s
  wakeMonitors (dropL1Line s r.core line) r.core line r.uid

/-- An atomic of team or die scope in the issuing die's RDC, which owns the line (R294). -/
def grantAtomic (s : State) (r : HomeReq) (op n : Nat) (sg : Bool) (v cmp : Nat) : State :=
  let line := lineOf r.pa
  let old := leNat (bytesAt s r.die r.pa n)
  let bs := overlay (line * 128) (lineBytes s r.die line) r.pa (leBytes n (amoNew op sg n old v cmp))
  let late := match rdcAt s r.die line with
    | some l => l.late
    | none => []
  let s := setRdc s r.die line (some ⟨some bs, if late.contains r.uid then late else late ++ [r.uid]⟩)
  let s := wakeMonitors (dropL1Line s r.core line) r.core line r.uid
  answer s r.reply (replyWord r.sx n old)

/-- An AU operation on a cell (R294, R299): the old value comes back. -/
def auOp (s : State) (r : HomeReq) (n : Nat) (f : Nat → Nat) : State :=
  let old := leNat (bytesAt s 4 r.pa n)
  let s := writeAtHome (touchCell s r.pa) r.uid r.pa (leBytes n (f old))
  answer (dropL1Line s r.core (lineOf r.pa)) r.reply (replyWord r.sx n old)

/-- A store-conditional at the home (R297): it writes when the reservation is held, and the hart's entry goes. -/
def performSc (s : State) (r : HomeReq) : State :=
  let md := homeOf r.pa
  let ok := (tgetD s.mem.resvHome md []).any fun v => v.uid == r.uid && v.line == lineOf r.pa
  let s := updUid (delResv s r.uid) r.uid fun h => { h with resv := none }
  if ok then answer (dropL1Line (writeAtHome s r.uid r.pa r.data) r.core (lineOf r.pa)) r.reply 0 else answer s r.reply 1

/-- The element size and the sum of a `cpadd` of the F codes 0 .f32, 2 .f16, 3 .bf16 (R214, R223): RNE, subnormals kept. -/
def floatAddSize (fmt : Nat) : Nat := if fmt = 0 then 4 else 2
def floatAdd (fmt a b : Nat) : Nat := (fsum (if fmt = 0 then f32 else if fmt = 2 then f16 else bf16) 0 false a b).1

/-- A request that the home performs itself, once no copy is left (R291). -/
def performHome (s : State) (r : HomeReq) : State :=
  match r.kind with
  | .store => s
  | .homeWrite =>
    let s := writeAtHome s r.uid r.pa r.data
    answer (dropL1Line s r.core (lineOf r.pa)) r.reply 0
  | .dieAtomic op n sg v cmp => grantAtomic s r op n sg v cmp
  | .auAtomic op n sg v cmp => auOp s r n fun old => amoNew op sg n old v cmp
  | .auFloatAdd fmt v => auOp s r (floatAddSize fmt) fun old => floatAdd fmt old v
  | .sc => performSc s r
  | .scrub =>
    let b := mdBase (homeOf r.pa)
    let s := eccEvent s (lineOf r.pa) ((r.data.headD 0).toNat)
    setReg s (b + 0x70) ((stackOffset r.pa + 128) % 0xC00000000)

/-- Completion of a store at the home: step 2 of R49. Other harts' reservations are lost (R297). -/
def completeStore (s : State) (r : HomeReq) : State := loseLine s (lineOf r.pa) r.uid

/-- A held request goes on when nobody is left to answer and no write-back is awaited (R49, R290). -/
def advanceBusy (s : State) (line : Nat) : State :=
  match s.mem.busy.find? fun b => lineOf b.req.pa == line with
  | none => s
  | some b =>
    if b.waitFor.isEmpty && b.waitWb.isEmpty then
      let s := updMem s fun m => { m with busy := m.busy.filter fun c => lineOf c.req.pa != line }
      match b.req.kind with
      | .store => if b.granted then completeStore s b.req else completeStore (grantStore s b.req) b.req
      | _ => if b.granted then s else performHome s b.req
    else s

/-- The home takes a request (R289, R291, R49): what it may grant at once is granted, and the others are snooped; else it waits
for their answers first. -/
def takeReq (s : State) (r : HomeReq) : State :=
  let line := lineOf r.pa
  let owned := match r.kind with
    | .store | .dieAtomic _ _ _ _ _ => true
    | _ => false
  if r.kind = .scrub then performHome s r
  else
    let others := toSnoop s line (if owned then r.die else 9)
    if others.isEmpty then
      match r.kind with
      | .store => completeStore (grantStore s r) r
      | _ => performHome s r
    else
      let s := sendSnoops s line others
      let clean := (dirtyOwner s line).all (· == r.die) && (wbDies s line).isEmpty && !(hostHolds s line)
      if owned && clean then
        let s := updMem s fun m => { m with busy := m.busy ++ [⟨r, others, [], true⟩] }
        match r.kind with
        | .store => grantStore s r
        | _ => performHome s r
      else updMem s fun m => { m with busy := m.busy ++ [⟨r, others, [], false⟩] }

/-- Requests that an atomic unit performs (R294). -/
def isAu (r : HomeReq) : Bool := match r.kind with
  | .auAtomic _ _ _ _ _ | .auFloatAdd _ _ => true
  | _ => false

/-- A request leaves the queue and is taken; an access to a lost line, other than a write of the whole line, is an uncorrectable
error of its context and does nothing (R306); an inbound request is told that the line is lost (R364). ECC checks what is read of the stack: a line
that the MSC does not hold. -/
def takeAt (s : State) (i err : Nat) (r : HomeReq) : State :=
  if !canTake s i r then s
  else
    let line := lineOf r.pa
    let s := updMem s fun m => { m with homeq := dropAt m.homeq i }
    let s := if wholeLine r || r.kind == .scrub || s.mem.msc.contains line then s else eccEvent s line err
    let s := if r.kind == .scrub then s else updMem s fun m => touchMsc m line
    if isLost s line && !wholeLine r && r.kind != .scrub then
      (if r.asid = noAsid then refuse s r.reply else contextFault s r.asid 3)
    else takeReq s r

/-- HOME_REQUEST: the home takes the next request of a line (R289). `err` is what ECC finds in the stack. -/
def execHomeRequest (i err : Nat) (s : State) : Host.Outcome State Fault Refusal :=
  stepOf <| match s.mem.homeq[i]? with
    | none => s
    | some r => if isAu r then s else takeAt s i err r

/-- AU_ATOMIC: an atomic performs at the home AU, in a counter cell (R294, R299). -/
def execAuAtomic (i err : Nat) (s : State) : Host.Outcome State Fault Refusal :=
  stepOf <| match s.mem.homeq[i]? with
    | none => s
    | some r => if isAu r then takeAt s i err r else s

/-- SNOOP: a slice answers a snoop with its dirty data, WB_PENDING or MISS, and gives the line up (R290). -/
def execSnoop (i : Nat) (s : State) : Host.Outcome State Fault Refusal :=
  stepOf <| match s.mem.snoops[i]? with
    | none => s
    | some q =>
      let (a, late) : SnoopAns × List Nat := match rdcAt s q.die q.line with
        | some ⟨some bs, late⟩ => (.data bs, late)
        | _ => (if (wbDies s q.line).contains q.die then .wbPending else .miss, [])
      let s := setRdc s q.die q.line none
      updMem s fun m => { m with snoops := dropAt m.snoops i, sreps := m.sreps ++ [⟨q.die, q.line, a, late⟩] }

/-- The held request of a line no longer waits for an agent; it waits for its write-back when that is still on its way. -/
def answered (s : State) (line die : Nat) (wb : Bool) : State :=
  let f (b : Busy) : Busy :=
    if lineOf b.req.pa == line then
      { b with waitFor := b.waitFor.filter (· != die), waitWb := if wb then b.waitWb ++ [die] else b.waitWb }
    else b
  updMem s fun m => { m with busy := m.busy.map f }

/-- SNOOP_REPLY: an answer reaches the home (R49, R290). -/
def execSnoopReply (i : Nat) (s : State) : Host.Outcome State Fault Refusal :=
  stepOf <| match s.mem.sreps[i]? with
    | none => s
    | some r =>
      let s := updMem s fun m => { m with sreps := dropAt m.sreps i }
      let s := match r.ans with
        | .data bs => applyDirty s r.line bs r.late
        | _ => s
      let wb := r.ans == .wbPending && (wbDies s r.line).contains r.die
      advanceBusy (answered s r.line r.die wb) r.line

/-- WRITE_BACK: a write-back reaches the home and is applied, once (R290). -/
def execWriteBack (i : Nat) (s : State) : Host.Outcome State Fault Refusal :=
  stepOf <| match s.mem.wbs[i]? with
    | none => s
    | some w =>
      let s := updMem s fun m => { m with wbs := dropAt m.wbs i }
      let s := applyDirty s w.line w.data w.late
      let f (b : Busy) : Busy := if lineOf b.req.pa == w.line then { b with waitWb := b.waitWb.filter (· != w.die) } else b
      let s := updMem s fun m => { m with busy := m.busy.map f }
      advanceBusy s w.line

/-- BISNP_ANSWER: the host answers a back-invalidation: it gives a line of an HDM window up, with its data when it had modified
it (R355). -/
def execBisnpAnswer (port line : Nat) (data : List Byte) (s : State) : Host.Outcome State Fault Refusal :=
  stepOf <|
    if s.mem.hostHeld.contains (port, line) then
      let s := updMem s fun m => { m with hostHeld := m.hostHeld.filter (· != (port, line)) }
      let s := if data.length = 128 then applyDirty s line data [] else s
      advanceBusy (answered s line (4 + port) false) line
    else s

/-- PATROL_SCRUB: with SCRUB_CTL.EN set, the controller asks for the scrub of the next line, one home request; what ECC finds counts when the home
takes it, after what the home already holds of the line (R306, R309). -/
def execPatrolScrub (md err : Nat) (s : State) : Host.Outcome State Fault Refusal :=
  stepOf <|
    if md ≥ 8 || !(regD s (mdBase md + 0x68) 0x1801).testBit 0 then s
    else
      let pa := paOfStack md (reg s (mdBase md + 0x70))
      if s.mem.homeq.any (fun r => r.kind == .scrub && homeOf r.pa == md) then s
      else
        let (id, s) := freshUid s
        pushReq s { id := id, die := 4, core := 0, uid := 0, asid := noAsid, pa := pa, kind := .scrub, data := leBytes 1 (if err ≤ 2 then err else 0), reply := .none, sx := false, deps := [] }

/-- The reduction slots of an AU. -/
def slotsOf (s : State) (md : Nat) : List (Nat × RedSlot) := s.reds.slots.filter fun p => p.1 / 1024 == md

/-- Lines of the contribution area not reserved and not holding a fragment (R301, R307). -/
def csFree (s : State) (md : Nat) : Nat :=
  let total := bitsOf (reg s (mdBase md + 0x10)) 0 12 * 16384
  let used := (slotsOf s md).foldl (fun a p => a + p.2.declared + (p.2.contribs.filter fun c => !c.fin).length) 0
  total - used

/-- The slot that holds a result address: its key. -/
def slotFor (s : State) (pa : Nat) : Option (Nat × RedSlot) := (slotsOf s (homeOf pa)).find? fun p => p.2.pa == pa && p.2.st != .free

/-- A status on its way back to the hart (R204, R206). -/
def redReply (s : State) (uid seq st : Nat) : State :=
  { s with reds := { s.reds with vreps := s.reds.vreps ++ [⟨uid, seq, st⟩] } }

/-- Message i of the reduction traffic removed. -/
def dropAu (s : State) (i : Nat) : State := { s with reds := { s.reds with auq := dropAt s.reds.auq i } }

/-- Earlier messages of the same hart to the same address go first: they keep their order (R207). -/
def auFirst (s : State) (i : Nat) (uid pa : Nat) : Bool :=
  !((s.reds.auq.take i).any fun m => match m with
    | .openReq u _ _ p _ _ => u == uid && p == pa
    | .contribution u _ _ p _ _ => u == uid && p == pa
    | .fragment u _ p _ _ => u == uid && p == pa)

/-- VRED_OPEN_REQUEST: the AU opens a slot, or answers BUSY or FULL (R204, R302). -/
def execVredOpenRequest (i : Nat) (s : State) : Host.Outcome State Fault Refusal :=
  stepOf <| match s.reds.auq[i]? with
    | some (.openReq uid seq asid pa fmt count) =>
      if !auFirst s i uid pa then s
      else
        let s := dropAu s i
        let md := homeOf pa
        let n := firstBelow 1024 fun j => (tget s.reds.slots (1024 * md + j)).isNone
        if (slotFor s pa).isSome then redReply s uid seq 2
        else if n ≥ 1024 || csFree s md < count then redReply s uid seq 1
        else
          let z : RedSlot := { st := .open_, pa := pa, asid := asid, fmt := fmt, declared := count, finals := 0, contribs := [] }
          redReply { s with reds := { s.reds with slots := tput s.reds.slots (1024 * md + n) z } } uid seq 0
    | _ => s

/-- The status of a contribution for a slot (R303): 5 NOT_OPEN, 6 FORMAT, 7 SURPLUS, 0 ACCEPTED. -/
def contribStatus (s : State) (asid pa fmt : Nat) : Nat :=
  match slotFor s pa with
  | none => 5
  | some (_, z) => if z.asid ≠ asid then 5 else if z.fmt ≠ fmt then 6 else if z.st = .applying then 7 else 0

/-- The PA of line j of an AU's contribution area (R301, R307), and the lines that hold contributions. -/
def areaLine (s : State) (md j : Nat) : Nat := paOfStack md (bitsOf (reg s (mdBase md + 8)) 21 15 * 2 ^ 21 + 128 * j)
def areaUsed (s : State) (md : Nat) : List Nat := (slotsOf s md).flatMap fun p => p.2.contribs.map (·.line)

/-- A contribution stored in a line of the area, the lowest free one (DESIGN CHOICE, log 45). The slot whose declared finals have all come
enters APPLYING (R301, R303, R304). -/
def storeContrib (s : State) (pa : Nat) (c : Contrib) : State :=
  match slotFor s pa with
  | none => s
  | some (k, z) =>
    let md := homeOf pa
    let used := areaUsed s md
    let c := { c with line := firstBelow (used.length + 1) fun j => !used.contains j }
    let s := homeWrite s 0 (areaLine s md c.line) (c.parts.flatMap (leBytes (128 / redParts z.fmt)))
    let f := z.finals + b2n c.fin
    let z := { z with contribs := z.contribs ++ [c], finals := f, st := if f = z.declared then .applying else z.st }
    { s with reds := { s.reds with slots := tput s.reds.slots k z } }

/-- CONTRIBUTION_ARRIVAL (R206, R303). -/
def execContributionArrival (i : Nat) (s : State) : Host.Outcome State Fault Refusal :=
  stepOf <| match s.reds.auq[i]? with
    | some (.contribution uid seq asid pa fmt c) =>
      if !auFirst s i uid pa then s
      else
        let s := dropAu s i
        let st := contribStatus s asid pa fmt
        redReply (if st = 0 then storeContrib s pa c else s) uid seq st
    | _ => s

/-- FRAGMENT_ARRIVAL (R210, R303): stored without being counted, or discarded with no answer; with no free line it waits. -/
def execFragmentArrival (i : Nat) (s : State) : Host.Outcome State Fault Refusal :=
  stepOf <| match s.reds.auq[i]? with
    | some (.fragment _ asid pa fmt c) =>
      if contribStatus s asid pa fmt ≠ 0 then dropAu s i
      else if csFree s (homeOf pa) = 0 then s
      else storeContrib (dropAu s i) pa c
    | _ => s

/-- The key order of R207: core, quadrant, slot, order of sending. -/
def contribKey (c : Contrib) : Nat := ((c.core * 4 + c.quad) * 64 + c.slot) * 2 ^ 64 + c.order

/-- A contribution put into a list in key order. -/
def insContrib (c : Contrib) : List Contrib → List Contrib
  | [] => [c]
  | d :: l => if contribKey c < contribKey d then c :: d :: l else d :: insContrib c l

/-- The sum of a slot's contributions (R207). -/
def slotSum (z : RedSlot) : Nat :=
  let sorted := z.contribs.foldl (fun l c => insContrib c l) []
  sorted.foldl (fun a c => c.parts.foldl (fun a p => (redAdd z.fmt a p).1) a) (redIdentity z.fmt)

/-- SLOT_APPLY (R57, R207, R304, R306): the sum is written once as a home write and the slot is FREE again; a result or a contribution in a lost line is an
uncorrectable error of the slot's context. -/
def execSlotApply (md slot : Nat) (s : State) : Host.Outcome State Fault Refusal :=
  stepOf <| match tget s.reds.slots (1024 * md + slot) with
    | none => s
    | some z =>
      if z.st ≠ .applying || slot ≥ 1024 then s
      else
        let n := if z.fmt = 0 ∨ z.fmt = 2 then 4 else 8
        if lostRead s z.pa n || z.contribs.any (fun c => isLost s (lineOf (areaLine s md c.line))) then contextFault s z.asid 3
        else if !readyAll s 4 z.pa n then s
        else
          let s := homeWrite s 0 z.pa (leBytes n (slotSum z))
          { s with reds := { s.reds with slots := tdel s.reds.slots (1024 * md + slot) } }

/-- VRED_REPLY (R204, R206, R208): the status goes to X[d] and the entry is DONE; for a captured hart in its record too. -/
def execVredReply (i : Nat) (s : State) : Host.Outcome State Fault Refusal :=
  stepOf <| match s.reds.vreps[i]? with
    | none => s
    | some r =>
      let s := { s with reds := { s.reds with vreps := dropAt s.reds.vreps i } }
      answerHart s r.uid fun h => match entryAt h r.seq with
        | some e =>
          (match e.instr with
           | .vredOpen o | .vredFlush o =>
             if e.st == .inflight && e.await then doneEntry (deliverX h r.seq (xreg o.vd) (BitVec.ofNat 64 r.status)) r.seq else h
           | _ => h)
        | none => h

/-- Slots released: what they hold is discarded and nothing is written (R305). -/
def releaseSlots (s : State) (p : Nat → RedSlot → Bool) : State :=
  { s with reds := { s.reds with slots := s.reds.slots.filter fun q => !p q.1 q.2 } }

/-- SLOT_REL (R305, R307): the selected slot of a memory die is released. -/
def execSlotRel (md : Nat) (s : State) : Host.Outcome State Fault Refusal :=
  stepOf (releaseSlots s fun k _ => k == 1024 * md + bitsOf (reg s (mdBase md + 0x20)) 0 10)

/-- SLOT_RELASID (R305, R307): every slot of an ASID in a memory die's AU. -/
def execSlotRelasid (md asid : Nat) (s : State) : Host.Outcome State Fault Refusal :=
  stepOf (releaseSlots s fun k z => k / 1024 == md && z.asid == asid)

/-- ECC_CLR (R307). -/
def execEccClrCe (md : Nat) (s : State) : Host.Outcome State Fault Refusal :=
  stepOf (if md < 8 then setReg s (mdBase md + 0x48) 0 else s)

def execEccClrUe (md : Nat) (s : State) : Host.Outcome State Fault Refusal :=
  stepOf (if md < 8 then setReg s (mdBase md + 0x50) 0 else s)

/-- SLOT_INFO of the selected slot (R307). -/
def slotInfo (s : State) (md : Nat) : Nat :=
  match tget s.reds.slots (1024 * md + bitsOf (reg s (mdBase md + 0x20)) 0 10) with
  | none => 0
  | some z =>
    let st := match z.st with
      | .free => 0 | .open_ => 1 | .applying => 2
    st + z.fmt * 2 ^ 2 + z.asid * 2 ^ 4 + z.declared * 2 ^ 20 + z.finals * 2 ^ 36 +
      min 4095 (z.contribs.filter fun c => !c.fin).length * 2 ^ 52

/-- A read of a memory die's block (R307). -/
def mdRead (s : State) (md off : Nat) : Nat :=
  let b := mdBase md
  if off = 0x00 then md
  else if off = 0x08 ∨ off = 0x10 ∨ off = 0x20 ∨ off = 0x48 ∨ off = 0x50 ∨ off = 0x70 then reg s (b + off)
  else if off = 0x18 then csFree s md
  else if off = 0x28 then slotInfo s md
  else if off = 0x30 then (match tget s.reds.slots (1024 * md + bitsOf (reg s (b + 0x20)) 0 10) with
    | some z => z.pa
    | none => 0)
  else if off = 0x60 then regD s (b + 0x60) 1024
  else if off = 0x68 then regD s (b + 0x68) 0x1801
  else if off = 0x78 then (lostOf s md).length
  else if 0x100 ≤ off ∧ off ≤ 0x2F8 then (match tget s.mem.lost (64 * md + (off - 0x100) / 8) with
    | some line => line * 128 + 1
    | none => 0)
  else 0

/-- A write of a memory die's block (R307). -/
def mdWrite (s : State) (md off v : Nat) : State :=
  let b := mdBase md
  let idle := (slotsOf s md).isEmpty
  if off = 0x08 then (if idle then setReg s (b + 0x08) (bitsOf v 21 15 * 2 ^ 21) else s)
  else if off = 0x10 then (if idle && bitsOf v 0 12 ≤ 2048 then setReg s (b + 0x10) (bitsOf v 0 12) else s)
  else if off = 0x20 then setReg s (b + 0x20) (bitsOf v 0 10)
  else if off = 0x60 then setReg s (b + 0x60) (bitsOf v 0 32)
  else if off = 0x68 then
    let p := bitsOf v 8 8
    let old := bitsOf (regD s (b + 0x68) 0x1801) 8 8
    setReg s (b + 0x68) (bitsOf v 0 1 + (if p = 0 ∨ p > 168 then old else p) * 2 ^ 8)
  else s

end Sys2Proof.Machine
end

