-- ==== Sys2Proof/Machine/Copy.lean ====
section
/-! DEFINITION. The copy engine (07_copy_engine): COPY_START takes a copy's next chunk into phase A, COPY_PHASE_A_DONE ends its
checks and reads, COPY_PHASE_B_DONE hands its writes over and moves the progress on, COPY_COMPLETION posts the message. -/

namespace Sys2Proof.Machine

/-- The name under which a copy engine's accesses for a hart are known to the memory system: an agent of its own (R42, R54). -/
def copyUid (uid : Nat) : Nat := 2 ^ 60 + uid

/-- What a piece of a chunk reads (R219 to R223): zeros, an address, a place in the team's windows, or given bytes. -/
inductive CSrc where
  | zero | va (a : Word) | tstore (off : Nat) | bytes (bs : List Byte)
deriving DecidableEq, Repr

/-- Where a piece is written: an address, a place in the team's windows, the windows of the teams of MASK, or nowhere. -/
inductive CDst where
  | va (a : Word) | tstore (off : Nat) | mc (off : Nat) | skip
deriving DecidableEq, Repr

/-- A piece of a chunk. -/
structure Piece where
  src : CSrc
  dst : CDst
  size : Nat
deriving DecidableEq, Repr

/-- The form of a copy. -/
inductive CForm where
  | gs | sg | mc | gg | fill (n : Nat) | add (n ty : Nat)
deriving DecidableEq, Repr

/-- The tm register and the form of a copy instruction (R214). The type of a `cpadd`: 8 for integers, else the F code. -/
def copyForm (i : Instr) : Option (CForm × MR) :=
  match i with
  | .cpgs o => some (.gs, o.vs3.setWidth 3)
  | .cpsg o => some (.sg, o.vs3.setWidth 3)
  | .cpmc o => some (.mc, o.vs3.setWidth 3)
  | .cpgg _ => some (.gg, 0)
  | .cpfill o => some (.fill (2 ^ o.fmt.toNat), 0)
  | .cpadd o => some (if o.rnd = 0 then .add (if o.fmt.toNat % 2 = 0 then 4 else 8) 8 else .add (if o.fmt = 0 then 4 else 2) o.fmt.toNat, 0)
  | _ => none

/-- A tensor form. -/
def isTensor (f : CForm) : Bool := match f with
  | .gs | .sg | .mc => true
  | _ => false

/-- The elements of a box and its image's bytes (R212). -/
def boxCount (t : TMap) : Nat := (List.range 5).foldl (fun a i => if i < tmRank t then a * tmBox t i else a) 1
def boxBytes (t : TMap) : Nat := boxCount t * tmEsize t

/-- The index of element q in dimension i of the box, dimension 0 fastest (R212). -/
def boxIdx (t : TMap) (q i : Nat) : Nat :=
  q / ((List.range i).foldl (fun a j => a * tmBox t j) 1) % (if i < tmRank t then tmBox t i else 1)

/-- The address of element q and whether it is in bounds (R212). -/
def boxAddr (t : TMap) (c : Word) (q : Nat) : Word × Bool :=
  let e (i : Nat) : Nat := coordOf c i + boxIdx t q i
  (BitVec.ofNat 64 ((List.range (tmRank t)).foldl (fun a i => a + e i * tmStride t i) (tmBase t)),
   (List.range (tmRank t)).all fun i => e i < tmSize t i)

/-- PROG and MASK of a tensor copy's word 2 (R215). -/
def copyProg (e : Entry) : Nat := bitsOf e.lmask.toNat 0 16
def copyMask (e : Entry) : Nat := bitsOf e.lmask.toNat 16 16

/-- The bytes of the next chunk of a flat copy (R218). -/
def flatLen (e : Entry) : Nat := min e.opb.toNat (4096 - e.opa.toNat % 4096)

/-- A range of n bytes from a source address cut at 1,024-byte boundaries, so that each part lies in one place: offsets and
lengths. -/
def cutRange (a n : Nat) : List (Nat × Nat) :=
  (List.range (n / 1024 + 2)).filterMap fun i =>
    let lo := max a ((a / 1024 + i) * 1024)
    let hi := min (a + n) ((a / 1024 + i + 1) * 1024)
    if lo < hi then some (lo - a, hi - lo) else none

/-- The pieces of a copy's next chunk (R218 to R223). -/
def chunkPieces (h : Hart) (e : Entry) : List Piece :=
  match copyForm e.instr with
  | none => []
  | some (f, r) =>
    let t := rtm h r
    let es := tmEsize t
    let per := 4096 / es
    let els := (List.range (min per (boxCount t - copyProg e * per))).map (copyProg e * per + ·)
    let n := flatLen e
    match f with
    | .gs => els.map fun q => ⟨if (boxAddr t e.opa q).2 then .va (boxAddr t e.opa q).1 else .zero, .tstore (e.opb.toNat + q * es), es⟩
    | .mc => els.map fun q => ⟨if (boxAddr t e.opa q).2 then .va (boxAddr t e.opa q).1 else .zero, .mc (e.opb.toNat + q * es), es⟩
    | .sg => els.map fun q => ⟨.tstore (e.opb.toNat + q * es), if (boxAddr t e.opa q).2 then .va (boxAddr t e.opa q).1 else .skip, es⟩
    | .gg => (cutRange e.lmask.toNat n).map fun c => ⟨.va (e.lmask + BitVec.ofNat 64 c.1), .va (e.opa + BitVec.ofNat 64 c.1), c.2⟩
    | .fill w => [⟨.bytes ((List.range (n / w)).flatMap fun _ => leBytes w e.lmask.toNat), .va e.opa, n⟩]
    | .add w _ => (List.range (n / w)).map fun j => ⟨.va (e.lmask + BitVec.ofNat 64 (j * w)), .va (e.opa + BitVec.ofNat 64 (j * w)), w⟩

/-- The chunks of a tensor copy, and whether any work is left (R218). -/
def chunksLeft (h : Hart) (e : Entry) : Bool :=
  match copyForm e.instr with
  | none => false
  | some (f, r) => if isTensor f then copyProg e * 4096 < boxBytes (rtm h r) else e.opb != 0

/-- The checks of R216 in order: a code and the address its report names. -/
def copyCheck (s : State) (h : Hart) (e : Entry) : Option (Nat × Word) :=
  match copyForm e.instr with
  | none => none
  | some (f, r) =>
    let t := rtm h r
    let x := e.ptw.toNat
    let opnd := match f with
      | .gs | .sg => x / 2 ^ 20 != 0
      | .mc => x / 2 ^ 48 != 0 || bitsOf x 20 12 != 0
      | _ => x / 2 ^ 32 != 0
    let es := match f with
      | .fill w => w
      | .add w _ => w
      | _ => 1
    let off := e.opb.toNat
    let d := e.opa.toNat
    let sr := e.lmask.toNat
    let n := e.opb.toNat
    if opnd then some (0x0305, 0)
    else if isTensor f && !tmValid t then some (0x0301, 0)
    else if isTensor f && (List.range 4).any (fun i => i ≥ tmRank t && coordOf e.opa i != 0) then some (0x0302, 0)
    else if !isTensor f && n % es ≠ 0 then some (0x0303, 0)
    else if isTensor f && off % 128 ≠ 0 then some (2, BitVec.ofNat 64 off)
    else if !isTensor f && d % es ≠ 0 then some (2, e.opa)
    else if (match f with
        | .add _ _ => sr % es != 0
        | _ => false) then some (2, e.lmask)
    else if isTensor f && off + boxBytes t > 4096 * (windowsOf s h).length then some (5, BitVec.ofNat 64 off)
    else if (match f with
        | .gg | .add _ _ => n != 0 && sr < d + n && d < sr + n
        | _ => false) then some (0x0304, e.opa)
    else none

/-- The teams of the issuing grid that the bits of MASK name: those placed and not ended (R220). -/
def mcTeam (s : State) (h : Hart) (bit : Nat) : Option (Nat × Team) :=
  match tget s.work.teams h.id.team with
  | none => none
  | some t => s.work.teams.find? fun p => p.2.grid == t.grid && p.2.idx == t.idx / 16 * 16 + bit && p.2.stat != .ended

/-- The placement that the engine reads at a chunk's start: each named team's bit and key (R220). -/
def mcTeams (s : State) (h : Hart) (e : Entry) : List (Nat × Nat) :=
  (List.range 16).filterMap fun i => if (copyMask e).testBit i then (mcTeam s h i).map fun p => (i, p.1) else none

/-- Chunks of a copy have been written: PROG or the length is not as forwarded (R215, R218). -/
def copyShrunk (e : Entry) : Bool :=
  match copyForm e.instr with
  | some (f, _) => if isTensor f then copyProg e != 0 else e.opb != e.ptw.setWidth 32
  | none => false

/-- The jobs of a core changed for a copy. -/
def isJob (uid seq : Nat) (j : CopyJob) : Bool := j.uid == uid && j.seq == seq
def updJob (s : State) (core uid seq : Nat) (f : CopyJob → CopyJob) : State :=
  updCore s core fun c => { c with copies := updFirst c.copies (isJob uid seq) f }
def dropJob (s : State) (core uid seq : Nat) : State :=
  updCore s core fun c => { c with copies := delFirst c.copies (isJob uid seq) }

/-- A copy may begin (R54, R226): earlier lane, team-store and tile accesses and stores of the hart have performed, earlier copies have
finished. -/
def copyMayBegin (s : State) (_k : Nat) (h : Hart) (e : Entry) : Bool :=
  e.started ||
  (!olderEntry h e (fun i => isOrderedMem i || isTileWriter i) && storesDone s h.id.uid .team && h.pend.isNone &&
   !(s.cores.any fun c => c.2.copies.any fun j => j.uid == h.id.uid && seqBefore j.seq e.seq) &&
   !((pendingEntries h).any fun f => before f e && f.eng == .copy))

/-- The copy of a hart whose next chunk could enter phase A. -/
def copyWaiting (s : State) (k : Nat) (h : Hart) : Bool :=
  h.capture.isNone && h.ring.any fun q => q.2.eng == .copy && q.2.st == .inflight && q.2.stage == .queued && copyMayBegin s k h q.2

/-- The other harts of the core whose copies wait for the engine (R228). -/
def copyRivals (s : State) (k : Nat) : List Cand :=
  (s.harts.filter fun p => p.1 != k && coreOfSlot p.1 == coreOfSlot k && copyWaiting s p.1 p.2).map fun p => hartCand p.1 p.2

/-- The engine picks another hart's chunk: Ibex by deadline, Kudu by weighted levels, Oryx by level, a rotating pointer over hart slots among
equals (R28, R228, R397). -/
def outrankedCopy (s : State) (k : Nat) (h : Hart) : Bool := !picks s (.copy (coreOfSlot k)) (hartCand k h) (copyRivals s k)

/-- A copy that has passed its last chunk: a kernel hart's entry is DONE, and the message waits for its writes (R224, R230). -/
def copyEnd (s : State) (k : Nat) (h : Hart) (e : Entry) : State :=
  let c := coreOfSlot k
  let s := updJob s c h.id.uid e.seq fun j => { j with fin := true, ready := false, writes := [], total := e.count, closed := e.closed }
  if h.id.handler then updE s k e.seq fun e => { e with stage := .sent } else updHart s k fun h => doneEntry h e.seq

/-- COPY_START (R211, R213, R216, R218, R226, R228): the copy's next chunk enters phase A. The checks of R216 come before; between
chunks they can fail only where a replay reads a tm register that software has changed. -/
def copyStart (s : State) (k : Nat) (h : Hart) (e : Entry) : State :=
  let c := coreOfSlot k
  if !copyMayBegin s k h e || outrankedCopy s k h || (coreAt s c).copies.any (fun j => !j.ready && !j.fin) then s
  else match copyCheck s h e with
    | some (code, a) => recordOne s k h { e with part := e.part || copyShrunk e } code a true true
    | none =>
      let j : CopyJob := { uid := h.id.uid, seq := e.seq, teams := mcTeams s h e, dropped := false, ready := false, fin := false, hostBuf := [], hostErr := none, writes := [],
                           advance := 0, closed := 0, total := 0 }
      let s := { s with arbs := (notePick s (.copy c) (hartCand k h) (copyRivals s k)).arbs }
      let s := updE (updCore s c fun c => { c with copies := c.copies ++ [j] }) k e.seq fun e => { e with stage := .running }
      if chunksLeft h e then s else copyEnd s k h e

/-- The entry of a copy in a stage. -/
def onCopy (s : State) (k seq : Nat) (st : Stage) (f : Hart → Entry → State) : Host.Outcome State Fault Refusal :=
  stepOf <| match entryNow s k seq with
    | none => s
    | some (h, e) => if e.eng == .copy && e.st == .inflight && e.stage == st && !ctxDead s h.id.asid then f h e else s

def execCopyStart (h seq : Nat) (s : State) : Host.Outcome State Fault Refusal :=
  onCopy s h seq .queued fun hh e => if hh.capture.isSome then s else copyStart s h hh e

/-- What a check of one side of a piece gives. -/
inductive CRes where
  | ok (l : Option Loc) | fault (code : Nat) (a : Word) | wait

/-- The check of a source (R160, R216, R217, R261); another core's window or tile is refused only by its holding core (R52, R283). -/
def checkSrc (s : State) (k : Nat) (h : Hart) (e : Entry) (p : Piece) : CRes × State :=
  match p.src with
  | .va a =>
    match xlateEntry s k h e a .load with
    | (.wait, s) => (.wait, s)
    | (.fault c, s) => (.fault c a, s)
    | (.ok l, s) =>
      match l with
      | .mmio _ => (.fault 4 a, s)
      | .tile core t _ =>
        if !inTenant s h.id.tenant core then (.fault 0x0203 a, s)
        else if core ≠ coreOfSlot k || tileOpen s core t h.id.asid then (.ok (some l), s) else (.fault 0x0201 a, s)
      | .win core w _ =>
        if !inTenant s h.id.tenant core then (.fault 0x0203 a, s)
        else if core = coreOfSlot k && winState s core w h.id.asid == .closed then (.fault 0x0201 a, s)
        else (.ok (some l), s)
      | .host port _ _ => if hostOpen s port then (.ok (some l), s) else (.fault 0x0504 a, s)
      | .hbm _ _ => (.ok (some l), s)
  | _ => (.ok none, s)

/-- The check of a destination (R160, R217, R261). -/
def checkDst (s : State) (k : Nat) (h : Hart) (e : Entry) (add : Bool) (p : Piece) : CRes × State :=
  match p.dst with
  | .va a =>
    match xlateEntry s k h e a (if add then .amo else .store) with
    | (.wait, s) => (.wait, s)
    | (.fault c, s) => (.fault c a, s)
    | (.ok l, s) =>
      match l with
      | .mmio _ => (.fault 4 a, s)
      | .tile _ _ _ => (.fault 4 a, s)
      | .win core _ _ => if inTenant s h.id.tenant core then (.ok (some l), s) else (.fault 0x0203 a, s)
      | .host port _ _ => if add then (.fault 4 a, s) else if hostOpen s port then (.ok (some l), s) else (.fault 0x0504 a, s)
      | _ => (.ok (some l), s)
  | _ => (.ok none, s)

/-- The checks of a chunk's pieces: a wait, or the places and the faults in order. Where the source and the destination of one piece both
fault, the source's is recorded; the spec gives no order of the two (DESIGN CHOICE, log 109). -/
def checkPieces (s : State) (k : Nat) (h : Hart) (e : Entry) (add : Bool) :
    List Piece → Nat → (Bool × List (Piece × Option Loc × Option Loc) × List (Nat × Nat × Word)) × State
  | [], _ => ((false, [], []), s)
  | p :: ps, n =>
    match checkSrc s k h e p with
    | (.wait, s) => ((true, [], []), s)
    | (a, s) =>
      match checkDst s k h e add p with
      | (.wait, s) => ((true, [], []), s)
      | (b, s) =>
        let r := checkPieces s k h e add ps (n + 1)
        match a, b with
        | .fault c x, _ => ((r.1.1, r.1.2.1, (n, c, x) :: r.1.2.2), r.2)
        | _, .fault c x => ((r.1.1, r.1.2.1, (n, c, x) :: r.1.2.2), r.2)
        | .ok la, .ok lb => ((r.1.1, (p, la, lb) :: r.1.2.1, r.1.2.2), r.2)
        | _, _ => r

/-- A window access of the copy engine, an agent of its own, as a message (R282). -/
def copyWin (s : State) (h : Hart) (va : Word) (mode : Mode) (core win off size : Nat) (op : WinOp) (data : List Byte) (r : ReplyTo) : State :=
  sendWin s { h with id := { h.id with uid := copyUid h.id.uid } } va mode core win off size op data false r

/-- An answer for a piece is still to come. -/
def pieceOut (s : State) (r : ReplyTo) : Bool :=
  s.mem.out.any (fun o => o.reply == r) || s.net.wins.any (fun a => a.reply == r) || s.net.winReps.any fun w => w.acc.reply == r

/-- The bytes of a piece's source, when they are there: data of the host and of other cores' windows is asked for and awaited. -/
def readPiece (s : State) (k : Nat) (h : Hart) (seq idx : Nat) (j : CopyJob) (p : Piece) (l : Option Loc) : Option (List Byte) × State :=
  match p.src, l with
  | .bytes bs, _ => (some bs, s)
  | .zero, _ => (some (List.replicate p.size 0), s)
  | .tstore off, _ =>
    let ws := windowsOf s h
    (some ((List.range p.size).map fun i => (readWin s (coreOfSlot k) (ws.getD ((off + i) / 4096) 0) ((off + i) % 4096) 1).headD 0), s)
  | .va _, some (.hbm pa c) =>
    (match readHbm s (dieOfSlot k) (copyUid h.id.uid) pa p.size c with
     | some (bs, _, s) => (some bs, s)
     | none => (none, lostFault s h.id.asid pa p.size))
  | .va a, some (.win core w off) =>
    (match j.hostBuf.find? fun b => b.1 == idx with
     | some b => (some b.2, s)
     | none =>
       let r : ReplyTo := .copy h.id.uid seq idx
       if !viaMessage s core w h.id.asid (coreOfSlot k) then (some (readWin s core w off p.size), s)
       else if pieceOut s r then (none, s)
       else (none, copyWin s h a ((entryAt h seq).elim h.mode (·.mode)) core w off p.size .load [] r))
  | .va a, some (.tile core t off) =>
    (match j.hostBuf.find? fun b => b.1 == idx with
     | some b => (some b.2, s)
     | none =>
       let r : ReplyTo := .copy h.id.uid seq idx
       if core = coreOfSlot k then (some (readTile s core t off p.size), s)
       else if pieceOut s r then (none, s)
       else (none, copyWin s h a ((entryAt h seq).elim h.mode (·.mode)) core (tileBase + t) off p.size .load [] r))
  | .va _, some (.host port asid addr) =>
    (match j.hostBuf.find? fun b => b.1 == idx with
     | some b => (some b.2, s)
     | none =>
       let r : ReplyTo := .copy h.id.uid seq idx
       if pieceOut s r then (none, s)
       else (none, hostSend s port asid (copyUid h.id.uid) addr p.size none false r))
  | .va _, _ => (none, s)

/-- Every piece read, or none while data is still to come. -/
def readPieces (s : State) (k : Nat) (h : Hart) (seq : Nat) (j : CopyJob) :
    List (Piece × Option Loc × Option Loc) → Nat → Option (List CopyWrite) × State
  | [], _ => (some [], s)
  | (p, la, lb) :: ps, n =>
    match readPiece s k h seq n j p la with
    | (got, s) =>
      match readPieces s k h seq j ps (n + 1) with
      | (rest, s) =>
        match got, rest with
        | some bs, some ws =>
          let add := match copyForm (match entryNow s k seq with
              | some (_, e) => e.instr
              | none => .nop 0) with
            | some (.add w ty, _) => some (w, ty)
            | _ => none
          (match p.dst, lb with
           | .va a, some l => some (⟨a, l, bs, add, 0, 0⟩ :: ws)
           | .tstore off, _ => some (⟨0, .win (coreOfSlot k) ((windowsOf s h).getD (off / 4096) 0) (off % 4096), bs, none, 0, 0⟩ :: ws)
           | .mc off, _ => some (((List.range 16).filterMap fun i => match entryNow s k seq with
               | some (_, e) => if (copyMask e).testBit i then some ⟨0, .win 0 0 0, bs, none, i + 1, off⟩ else none
               | none => none) ++ ws)
           | _, _ => some ws, s)
        | _, _ => (none, s)

/-- COPY_PHASE_A_DONE (R218): a chunk whose accesses are all checked and read passes its fault point; a fault is recorded, with
PART when chunks have been written, and nothing of the chunk is written. -/
def phaseADone (s : State) (k : Nat) (h : Hart) (e : Entry) (j : CopyJob) : State :=
  let c := coreOfSlot k
  let add := match copyForm e.instr with
    | some (.add _ _, _) => true
    | _ => false
  let back (s : State) : State := updE (dropJob (dropCopyReads s h.id.uid e.seq) c h.id.uid e.seq) k e.seq fun e => { e with part := e.part || copyShrunk e }
  let ps := chunkPieces h e
  match checkPieces s k h e add ps 0 with
  | ((true, _, _), s) => s
  | ((false, oks, []), s) =>
    (match j.hostErr with
     | some (code, idx) =>
       let s := back s
       (match entryNow s k e.seq with
        | some (h, e) => holdEntry s k h e code 0 (match (ps.getD idx ⟨.zero, .skip, 0⟩).src with
            | .va a => a
            | _ => 0)
        | none => s)
     | none =>
       match readPieces s k h e.seq j oks 0 with
       | (none, s) => s
       | (some ws, s) =>
         let n := if isTensor ((copyForm e.instr).getD (.gg, 0)).1 then 1 else flatLen e
         updJob s c h.id.uid e.seq fun j => { j with ready := true, writes := ws, advance := n, hostBuf := [] })
  | ((false, _, f), s) =>
    let s := back s
    match entryNow s k e.seq with
    | some (h, e) =>
      let src (a : Word) : Bool := ps.any fun p => p.src == .va a
      let dst (a : Word) : Bool := ps.any fun p => p.dst == .va a
      recordFaultsBy s k h { e with flt := f, stage := .queued } false fun a => (src a || (add && dst a), dst a)
    | none => s

def execCopyPhaseADone (h seq : Nat) (s : State) : Host.Outcome State Fault Refusal :=
  onCopy s h seq .running fun hh e =>
    match (coreAt s (coreOfSlot h)).copies.find? (isJob hh.id.uid seq) with
    | some j => if j.ready || j.fin then s else phaseADone s h hh e j
    | none => s

/-- A write of a copy handed to the homes, one request a line. -/
def pushCopy (s : State) (k : Nat) (h : Hart) (pa : Nat) (cached : Bool) (bs : List Byte) : State :=
  (splitLines pa bs).foldl (fun s p =>
    let (id, s) := freshUid s
    pushReq s { id := id, die := dieOfSlot k, core := coreOfSlot k, uid := copyUid h.id.uid, asid := h.id.asid, pa := p.1,
                kind := if cached then .store else .homeWrite, data := p.2, reply := .none, sx := false, deps := [] }) s

/-- Where a `cpmc` write for a named team goes: to its windows, to their image in its record while it is saved, or nowhere (R220). -/
inductive WDest where
  | win (core w off : Nat) | image (pa : Nat) | closed

/-- The destination of a write at an offset of a team's windows (R220). -/
def mcDest (t : Option Team) (off : Nat) : WDest :=
  match t with
  | none => .closed
  | some t =>
    if t.stat = .ended then .closed
    else if t.stat = .saved ∨ t.stat = .saving then .image (t.recPa + 0x11000 + off)
    else .win t.core (t.wins.getD (off / 4096) 0) (off % 4096)

/-- Bytes of a copy that have been written: charged and counted for its message (R224, R229). -/
structure Wrote where
  s : State
  n : Nat
  closed : Nat

/-- CLOSED and the MASK bit of a write that was dropped (R224). -/
def closedBits (mcBit : Nat) : Nat := 2 ^ 16 + (if mcBit = 0 then 0 else 2 ^ (mcBit - 1))

/-- A write of a copy to a window: in the issuing core's directly, in another core's by a message, which its holding core answers (R217,
R220, R282, R283). -/
def copyToWin (k : Nat) (h : Hart) (e : Entry) (a : Wrote) (w : CopyWrite) (core win off : Nat) : Wrote :=
  let len := w.bytes.length
  let s := a.s
  let own := coreOfSlot k
  let land : Bool := h.id.handler && core == own && win == h.id.land
  if land || (core == own && winState s core win h.id.asid == .open_) then
    let new := match w.add with
      | none => w.bytes
      | some (sz, ty) =>
        let old := leNat (readWin s core win off len)
        if ty = 8 then leBytes sz (old + leNat w.bytes) else leBytes sz (floatAdd ty old (leNat w.bytes))
    { a with s := writeWin s core win off (copyUid h.id.uid) new, n := a.n + len }
  else if core / 48 ≥ 4 || (core == own && winState s core win h.id.asid == .closed) then
    { a with closed := Nat.lor a.closed (closedBits w.mcBit) }
  else
    let op : WinOp := match w.add with
      | none => .store
      | some (_, ty) => if ty = 8 then .amo 1 false (leNat w.bytes) 0 else .floatAdd ty (leNat w.bytes)
    { a with s := copyWin s h w.va e.mode core win off len op w.bytes (.copyWrite h.id.uid e.seq w.mcBit w.off) }

/-- A write of a copy in the image of a saved team's windows (R220): under the copy engine's name, so that the completion waits for it (R224); the
writing core's own copies of its lines go (R37). -/
def imageWrite (s : State) (core uid asid pa : Nat) (bs : List Byte) : State :=
  (linesOf pa bs.length).foldl (fun s l => dropL1Line s core l) (ctxWriteAs (copyUid uid) s asid pa bs)

/-- One write of phase B handed over: the state, the bytes that count at once and the closed bits (R217, R220, R223, R224, R229). -/
def copyWrite (k : Nat) (h : Hart) (e : Entry) (j : CopyJob) (a : Wrote) (w : CopyWrite) : Wrote :=
  let len := w.bytes.length
  match w.loc with
  | .hbm pa c =>
    (match w.add with
     | none => { a with s := pushCopy a.s k h pa c w.bytes, n := a.n + len }
     | some (sz, ty) =>
       let (id, s) := freshUid a.s
       let kind : ReqKind := if ty = 8 then .auAtomic 1 sz false (leNat w.bytes) 0 else .auFloatAdd ty (leNat w.bytes)
       { a with s := pushReq s { id := id, die := dieOfSlot k, core := coreOfSlot k, uid := copyUid h.id.uid, asid := h.id.asid, pa := pa,
                                 kind := kind, data := [], reply := .none, sx := false, deps := [] }, n := a.n + len })
  | .host _ _ addr => { a with s := hostWrite a.s addr w.bytes, n := a.n + len }
  | .win core win off =>
    if w.mcBit = 0 then copyToWin k h e a w core win off
    else
      let t := (j.teams.find? fun p => p.1 == w.mcBit - 1).bind fun p => tget a.s.work.teams p.2
      (match mcDest t w.off with
       | .closed => { a with closed := Nat.lor a.closed (closedBits w.mcBit) }
       | .image pa => { a with s := imageWrite a.s (coreOfSlot k) h.id.uid h.id.asid pa w.bytes, n := a.n + len }
       | .win core win off => copyToWin k h e a w core win off)
  | _ => a

/-- The progress of an entry after a chunk (R215, R218). -/
def advanceCopy (e : Entry) (n : Nat) : Entry :=
  match copyForm e.instr with
  | some (.gg, _) | some (.add _ _, _) =>
    { e with opa := e.opa + BitVec.ofNat 64 n, opb := e.opb - BitVec.ofNat 32 n, lmask := e.lmask + BitVec.ofNat 64 n }
  | some (.fill _, _) => { e with opa := e.opa + BitVec.ofNat 64 n, opb := e.opb - BitVec.ofNat 32 n }
  | _ => { e with lmask := e.lmask + 1 }

/-- COPY_PHASE_B_DONE (R218, R220 to R224, R229): the chunk's writes are handed over, the bytes written are charged, and the progress moves
on; after the last chunk the copy has only its message left. Bytes that other cores' windows are to take count when they answer. -/
def phaseBDone (s : State) (k : Nat) (h : Hart) (e : Entry) (j : CopyJob) : State :=
  let r := j.writes.foldl (copyWrite k h e j) ⟨s, 0, e.closed⟩
  let s := chargeBytes r.s h.id.acct r.n
  let s := updE s k e.seq fun e => { advanceCopy e j.advance with started := true, count := e.count + r.n, closed := r.closed }
  match entryNow s k e.seq with
  | none => s
  | some (h, e) =>
    if chunksLeft h e then updE (dropJob s (coreOfSlot k) h.id.uid e.seq) k e.seq fun e => { e with stage := .queued }
    else copyEnd s k h e

def execCopyPhaseBDone (h seq : Nat) (s : State) : Host.Outcome State Fault Refusal :=
  onCopy s h seq .running fun hh e =>
    match (coreAt s (coreOfSlot h)).copies.find? (isJob hh.id.uid seq) with
    | some j => if j.ready then phaseBDone s h hh e j else s
    | none => s

/-- The answer of another core's window to a write of a copy: written and charged, or dropped, with CLOSED (R217, R224, R229, R282). -/
def copyWrote (s : State) (uid seq mcBit n : Nat) (ok : Bool) : State :=
  let s := match ok, hartOfUid s uid with
    | true, some h => chargeBytes s h.id.acct n
    | _, _ => s
  let cl (c : Nat) : Nat := if ok then c else Nat.lor c (closedBits mcBit)
  let m := if ok then n else 0
  let fin (j : CopyJob) : Bool := isJob uid seq j && j.fin
  if s.cores.any fun p => p.2.copies.any fin then
    { s with cores := s.cores.map fun p =>
        (p.1, { p.2 with copies := updFirst p.2.copies fin fun j => { j with total := j.total + m, closed := cl j.closed } }) }
  else answerHart s uid fun h => updEntry h seq fun e => if e.eng == .copy then { e with count := e.count + m, closed := cl e.closed } else e

/-- A copy's or a message body's piece that has come from the host or from another core's window, or has been refused (R217, R218, R267). -/
def pieceCame (s : State) (uid seq idx code : Nat) (bs : List Byte) : State :=
  let mine (j : CopyJob) : Bool := isJob uid seq j && !j.fin
  if s.cores.any fun p => p.2.copies.any mine then
    let f (j : CopyJob) : CopyJob := if code = 0 then { j with hostBuf := j.hostBuf ++ [(idx, bs)] } else { j with hostErr := some (code, idx) }
    { s with cores := s.cores.map fun p => (p.1, { p.2 with copies := updFirst p.2.copies mine f }) }
  else updUid s uid fun h =>
    { h with msg := if code = 0 then { h.msg with body := h.msg.body ++ [(idx, bs)] } else { h.msg with bodyErr := some (code, idx) } }

/-- The harts, resident in a slot or saved from it. -/
def hartOfSlot (s : State) (k : Nat) : List Hart :=
  (match hartAt s k with
   | some h => [h]
   | none => []) ++ (s.work.saves.filter fun p => p.2.slot == k).map fun p => p.2.hart

/-- Posting to a hart wherever it is: resident, or, its team saved, in the diversion buffer of its record (R274). -/
def postAnywhere (s : State) (h : Hart) (m : InboxMsg) (src seq : Nat) : State :=
  match slotOfUid s h.id.uid with
  | some k => (postHart s k h m src seq).getD s
  | none =>
    match tget s.work.teams h.id.team with
    | none => s
    | some t =>
      let s := if m.reserved then updCounts s h.id.team h.id.hidx fun h => { h with msg := { h.msg with rsv := h.msg.rsv - 1 } } else s
      (divert s h.id.team t.recPa h.id.hidx m src seq 0).getD s

/-- An earlier copy of a hart has not posted its message: messages of one hart's copies are posted in sequence order (R224). -/
def earlierCopy (s : State) (h : Hart) (seq : Nat) : Bool :=
  (s.cores.any fun p => p.2.copies.any fun j => j.uid == h.id.uid && j.fin && seqBefore j.seq seq) ||
  h.ring.any fun p => p.2.eng == .copy && p.2.st != .done && seqBefore p.2.seq seq

/-- COPY_COMPLETION (R224, R225): every write has performed, every earlier copy of the hart has finished, and the message is posted; a handler's
copy only becomes DONE (R281). The harts of a slot that has been left are looked for among the saved ones (R230). -/
def execCopyCompletion (h seq : Nat) (s : State) : Host.Outcome State Fault Refusal :=
  stepOf <|
    let core := coreOfSlot h
    match (hartOfSlot s h).findSome? fun hh => ((coreAt s core).copies.find? fun j => isJob hh.id.uid seq j && j.fin).map fun j => (hh, j) with
    | none => s
    | some (hh, j) =>
      if !storesDone s (copyUid hh.id.uid) .device || earlierCopy s hh seq || divBlocked s hh.id.asid then s
      else
        let s := dropJob s core hh.id.uid seq
        if hh.id.handler then updUid s hh.id.uid fun h => match entryAt h seq with
          | some e => if e.eng == .copy && e.st == .inflight then doneEntry h seq else h
          | none => h
        else
          let msg := copyMessage seq (j.closed.testBit 16) j.dropped (j.closed % 2 ^ 16) j.total 2
          postAnywhere s hh msg (hwhereOf h false) seq

end Sys2Proof.Machine
end

