-- ==== Sys2Proof/Machine/Tenant.lean ====
section
/-! DEFINITION. Tenants (R261, R351) and the pools of each core (R20, R277, R398, R399): which cores are a tenant's, and which
slots and windows of a core form its handler pool and its Ibex reserve. -/

namespace Sys2Proof.Machine

/-- The tenant a core belongs to. -/
def tenantOfCore (s : State) (core : Nat) : Option Nat := (List.range 16).find? fun t => inTenant s t core

/-- A tenant has cores on a die: its field of TEN_RECT in force is enabled (R351). -/
def tenantOnDie (s : State) (tenant die : Nat) : Bool := (tgetD s.fe.rect tenant 0).testBit (16 * die + 12)

/-- The membership bit of a tenant at a die's edge and seam stations: it has cores on the die, or on both of its ring neighbours (R351). -/
def stationBit (s : State) (tenant die : Nat) : Bool :=
  tenantOnDie s tenant die || (tenantOnDie s tenant ((die + 1) % 4) && tenantOnDie s tenant ((die + 3) % 4))

/-- The compute dies whose stations a message passes from die a to die b: opposite dies by way of the next one round the ring, or the other
way when that one is offline (R15, R16). -/
def routeDies (s : State) (a b : Nat) : List Nat :=
  if a = b then []
  else if b = (a + 2) % 4 then [a, if dieOnline s ((a + 1) % 4) then (a + 1) % 4 else (a + 3) % 4, b] else [a, b]

/-- A message of a tenant passes the membership checks of its routers and stations, from a core, or from the IOD, to a core (R261, R351). -/
def routersPass (s : State) (tenant : Nat) (src : Option Nat) (core : Nat) : Bool :=
  inTenant s tenant core && (match src with
    | some a => (routeDies s (dieOfCore a) (dieOfCore core)).all (stationBit s tenant)
    | none => stationBit s tenant (dieOfCore core))

/-- The cores of a tenant's sub-mesh. -/
def tenantCores (s : State) (tenant : Nat) : List Nat := (List.range 192).filter fun c => inTenant s tenant c

/-- RSV_CFG at reset (R422), and the value in force for a core (R398). -/
def rsvReset : Nat := 0x0000204020100408
def rsvOf (s : State) (core : Nat) : Nat :=
  match tenantOfCore s core with
  | some t => tgetD s.sch.rsv t rsvReset
  | none => rsvReset

/-- The fields of RSV_CFG (R422). R20 and R422 let SLOTS be 0 to 32, which the bits [4:0] that R422 names cannot say: the model reads [5:0], so that
32 can be set; more than 32 is refused with SHAPE (DEDUCED, log 113). -/
def rsvSlots (r : Nat) : Nat := bitsOf r 0 6
def rsvHslots (r : Nat) : Nat := bitsOf r 8 5
def rsvVgr (r : Nat) : Nat := bitsOf r 16 8
def rsvWin (r : Nat) : Nat := bitsOf r 24 8
def rsvTiles (r : Nat) : Nat := bitsOf r 32 10
def rsvSeats (r : Nat) : Nat := bitsOf r 42 6

/-- The three pools of slots. -/
inductive Pool where
  | general | reserve | handler
deriving DecidableEq, Repr

/-- The pool of a slot: the spec gives counts; the model puts the general slots first in each quadrant, then the Ibex
reserve, then the handler pool. -/
def poolOf (s : State) (k : Nat) : Pool :=
  let r := rsvOf s (coreOfSlot k)
  if slotInQuad k < 64 - rsvHslots r - rsvSlots r then .general
  else if slotInQuad k < 64 - rsvHslots r then .reserve else .handler

/-- The landing window of a handler slot: 191 less its number in quadrant and slot order (R277). -/
def landingWin (s : State) (k : Nat) : Nat :=
  let n := rsvHslots (rsvOf s (coreOfSlot k))
  191 - (quadOfSlot k * n + (slotInQuad k + n - 64))

/-- A slot that no hart holds, no team has claimed for harts still to start, and no hart being saved has still to free (R416). -/
def slotFree (s : State) (k : Nat) : Bool :=
  (hartAt s k).isNone &&
  !(s.work.teams.any fun p => (p.2.stat == .placed || p.2.stat == .restoring) && p.2.slots.contains k) &&
  !(s.work.saves.any fun p => p.2.slot == k && (!p.2.freed || p.2.claimed))

end Sys2Proof.Machine
end

