-- ==== Sys2Proof/Machine/Matrix.lean ====
section
/-! DEFINITION. The matrix engine (08_matrix_engine): the dispatch queues, the array with the order of arev 1 (R100 to R102), the
tile port, and tile drains with their wake-ups (R244, R245). -/

namespace Sys2Proof.Machine

/-- The quadrant's dispatch queue. -/
def mdqOf (s : State) (k : Nat) : List MdqEntry := tgetD (coreAt s (coreOfSlot k)).mdq (quadOfSlot k) []

/-- An Ibex hart stands in a slot. -/
def isIbexSlot (s : State) (k : Nat) : Bool := match hartAt s k with
  | some h => h.id.cls == 0
  | none => false

/-- MATRIX_DISPATCH (R247, R250): the matrix instruction at the head of a lane queue enters the quadrant's queue of eight, of
which two take only Ibex entries, when no earlier entry locks a register it reads. -/
def execMatrixDispatch (h : Nat) (s : State) : Host.Outcome State Fault Refusal :=
  stepOf <| match hartAt s h with
    | none => s
    | some hh =>
      match hh.laneQ with
      | [] => s
      | q :: _ =>
        match entryAt hh q with
        | none => s
        | some e =>
          let qs := mdqOf s h
          let room := qs.length < 8 && (hh.id.cls == 0 || (qs.filter fun m => !isIbexSlot s m.slot).length < 6)
          if e.eng == .matrix && e.st == .inflight && e.stage == .queued && hh.capture.isNone && room && !lockedFor hh e then
            let s := setHart s h (updEntry { hh with laneQ := hh.laneQ.drop 1 } q fun e => { e with stage := .dispatched })
            updCore s (coreOfSlot h) fun c => { c with mdq := tput c.mdq (quadOfSlot h) (qs ++ [⟨h, q⟩]) }
          else s

/-- The array runs the three multiplies; the tile port runs the rest (R248). -/
def isArrayOp (i : Instr) : Bool := match i with
  | .mma _ | .mmasp _ | .mmabk _ => true
  | _ => false

/-- A hart's oldest entry in its quadrant's queue (R247). -/
def mxOldest (s : State) (k : Nat) : Option (Hart × Entry) :=
  match (mdqOf s k).find? fun m => m.slot == k with
  | none => none
  | some m => entryNow s k m.seq

/-- A `vfence`, or an atomic with aq, of the hart before an entry is not done: no later access performs before it (R172, R175, R251). -/
def olderOrder (h : Hart) (e : Entry) : Bool := olderEntry h e fun i => isVfence i || (amoOrder i).1

/-- `twait` waits for nothing but the hart's earlier matrix instructions (R246). -/
def isTwait (i : Instr) : Bool := match i with
  | .twait _ => true
  | _ => false

/-- Oryx matrix issue is limited on the hart's die (R441). -/
def oryxLimited (s : State) (k : Nat) (h : Hart) : Bool := h.id.cls == 2 && (tget s.plat.limit (dieOfSlot k)).isSome

/-- The tile that a matrix instruction writes (R251). -/
def tileWritten (h : Hart) (i : Instr) : Option Nat :=
  match i with
  | .tzero o | .mma o | .mmasp o | .mmabk o | .tmovt o | .tld o => some (h.id.tile0.getD o.vd.toNat 0)
  | _ => none

/-- An earlier lane load of the hart may still read a tile through its export window: a write of the tile waits for it (R45, R55, R251). -/
def tileReadPending (s : State) (k : Nat) (h : Hart) (e : Entry) : Bool :=
  match tileWritten h e.instr with
  | none => false
  | some t => (pendingEntries h).any fun f => before f e && isLaneMem f.instr && !isLaneWriter f.instr &&
    (lanesOf f.lmask).any fun l => (List.range (match f.instr with
      | .vxld _ => 64
      | _ => 1)).any fun j => match elemAt h f l j with
      | .tstore _ _ => false
      | .mem va _ => (match (xlateEntry s k h f va .load).1 with
          | .ok (.tile core u _) => core == coreOfSlot k && u == t
          | .wait => true
          | _ => false)

/-- An operation may start: the hart's earlier operations have left the other path (R247), its accesses of tiles and of the team store have
their turn (R175, R251), and `tmovv` writes no register that an issued compute instruction is still to read (R147, R250). -/
def mxReady (s : State) (k : Nat) (h : Hart) (e : Entry) : Bool :=
  let c := coreAt s (coreOfSlot k)
  let inPort := match c.port with
    | some m => m.uid == h.id.uid
    | none => false
  h.capture.isNone && e.st == .inflight && e.stage == .dispatched && !ctxDead s h.id.asid && !inPort &&
  (isArrayOp e.instr || !(c.arrayPipe.any fun m => m.uid == h.id.uid)) && (isTwait e.instr || !olderOrder h e) && !tileReadPending s k h e &&
  !(isArrayOp e.instr && oryxLimited s k h && slotClk s k < c.oryxFree) &&
  (match e.instr with
   | .tst _ | .tld _ => !laneWaits h e
   | .tmovv _ => !olderCompute h e
   | _ => true)

/-- The harts of a slot's quadrant, but it, whose oldest entries could start: what the quadrant may offer instead (R247). -/
def offerRivals (s : State) (k : Nat) : List Cand :=
  (s.harts.filter fun p => p.1 != k && p.1 / 64 == k / 64 && match mxOldest s p.1 with
    | some (h, e) => mxReady s p.1 h e
    | none => false).map fun p => hartCand p.1 p.2

/-- A hart whose oldest entry its quadrant offers (R247): by class, deadline and level, with a rotating pointer. -/
def isOffered (s : State) (k : Nat) (h : Hart) : Bool := picks s (.offer (k / 64)) (hartCand k h) (offerRivals s k)

/-- The candidate that a quadrant offers (R247): its slot, hart and entry. -/
def offerOf (s : State) (quad : Nat) : Option (Nat × Hart × Entry) :=
  (s.harts.filter fun p => p.1 / 64 == quad).findSome? fun p => match mxOldest s p.1 with
    | some (h, e) => if mxReady s p.1 h e && isOffered s p.1 h then some (p.1, h, e) else none
    | none => none

/-- A hart's candidate at a path: known by its quadrant (R248). -/
def pathCand (k : Nat) (h : Hart) : Cand := hartCand (quadOfSlot k) h

/-- The candidates that the other quadrants of the core offer to a path (R248). -/
def pathRivals (s : State) (k : Nat) (array : Bool) : List Cand :=
  ((List.range 4).map (coreOfSlot k * 4 + ·)).filterMap fun q =>
    if q = k / 64 then none else match offerOf s q with
      | some (k', h, e) => if isArrayOp e.instr == array then some (pathCand k' h) else none
      | none => none

/-- The path that an operation uses (R248). -/
def pathOf (k : Nat) (array : Bool) : Point := if array then .array (coreOfSlot k) else .port (coreOfSlot k)

/-- The quadrant offers another hart's entry, or the path picks another quadrant's (R28, R247, R248, R397). -/
def mxOutranked (s : State) (k : Nat) (h : Hart) (array : Bool) : Bool :=
  !(isOffered s k h && picks s (pathOf k array) (pathCand k h) (pathRivals s k array))

/-- The quadrant and the path have picked the hart's entry. -/
def noteMx (s : State) (k : Nat) (h : Hart) (array : Bool) : State :=
  let t := notePick s (pathOf k array) (pathCand k h) (pathRivals s k array)
  notePick t (.offer (k / 64)) (hartCand k h) (offerRivals s k)

/-- The clk an operation of the tile port takes (R248); a refused wake-up sent again moves no tile. -/
def portClks (e : Entry) : Nat := match e.instr with
  | .tzero _ => 2
  | .twait _ => 1
  | .tdrain _ => if e.part then 1 else 8
  | _ => 8

/-- A quadrant's candidate of this clk has started (R247, R248). -/
def offerTaken (s : State) (quad : Nat) : Bool :=
  let c := quad / 4
  let ofQuad (uid : Nat) : Bool := match slotOfUid s uid with
    | some k => k / 64 == quad
    | none => false
  ((coreAt s c).arrayPipe.any fun m => ofQuad m.uid && m.fin == coreClk s c + 14) ||
  (coreAt s c).port.any fun m => ofQuad m.uid && match slotOfUid s m.uid with
    | some k => (match entryNow s k m.seq with
        | some (_, e) => m.fin == coreClk s c + portClks e
        | none => false)
    | none => false

/-- A clk passes: each quadrant's pointer stands at the slot it has offered, started or not (R247). -/
def noteOffer (s : State) (quad : Nat) : State :=
  if offerTaken s quad then s else match offerOf s quad with
  | some (k, h, _) => notePick s (.offer quad) (hartCand k h) (offerRivals s k)
  | none => s

def noteOffers (s : State) : State :=
  (s.cores.flatMap fun p => (p.2.mdq.filter fun q => !q.2.isEmpty).map fun q => p.1 * 4 + q.1).foldl noteOffer s

/-- An entry leaves the dispatch queue. -/
def leaveMdq (s : State) (k seq : Nat) : State :=
  updCore s (coreOfSlot k) fun c => { c with mdq := tput c.mdq (quadOfSlot k) ((tgetD c.mdq (quadOfSlot k) []).filter fun m => !(m.slot == k && m.seq == seq)) }

/-- Word w of row r of the block at register vb (R235). -/
def blockWord (h : Hart) (vb r w : Nat) : Nat := (vlane h (vb + w % 32) (16 * (w / 32) + r)).toNat

/-- Element k, of some bits, of row r of a block (R90, R235). -/
def blockElem (h : Hart) (vb bits r k : Nat) : Nat := packed (blockWord h vb r (k / (32 / bits))) bits (k % (32 / bits))

/-- Bits of an element of a matrix format (R72). -/
def xBits (fmt : Nat) : Nat := if fmt = 2 ∨ fmt = 6 then 4 else if fmt = 3 ∨ fmt = 4 then 16 else 8

/-- The elements of a row. -/
def denseRow (h : Hart) (vb bits r : Nat) : List Nat := (List.range (4096 / bits)).map (blockElem h vb bits r)

/-- The elements of a compressed row, expanded (R238). -/
def sparseRow (h : Hart) (vb bits r : Nat) : List Nat :=
  let meta_ (n : Nat) : Nat := b2n ((blockWord h vb r (64 + n / 32)).testBit (n % 32))
  (List.range (4096 / bits)).map fun p =>
    let g := p / 4
    let i0 := meta_ (4 * g) + 2 * meta_ (4 * g + 1)
    let i1 := meta_ (4 * g + 2) + 2 * meta_ (4 * g + 3)
    if p % 4 = i1 then blockElem h vb bits r (2 * g + 1)
    else if p % 4 = i0 then blockElem h vb bits r (2 * g)
    else 0

/-- Byte n of the scales at register vs; 127 when there are none (R236). -/
def scaleByte (h : Hart) (vs n : Nat) : Nat :=
  if vs = 0 then 127 else packed (vlane h (vs + n / 256) (n % 256 / 4)).toNat 8 (n % 4)

/-- One block's sum, rounded once (R100, R101). -/
def blockSum (f : FFmt) (ab : List (Nat × Nat)) (sa sb : Nat) : Nat :=
  let vs := ab.map fun p => (unpackF f p.1, unpackF f p.2)
  let sh : Int := (sa : Int) - 127 + ((sb : Int) - 127)
  let bad := sa == 255 || sb == 255 || vs.any fun p => isNaN p.1 || isNaN p.2 || (mulV p.1 p.2).isNone
  let scale (v : FVal) : FVal := match v with
    | .fin s m e => .fin s m (e + sh)
    | v => v
  (sumF f32 0 (vs.filterMap fun p => (mulV p.1 p.2).map scale) bad).1

/-- A list cut into pieces of n. -/
def chunksOf (n : Nat) : Nat → List (Nat × Nat) → List (List (Nat × Nat))
  | 0, _ => []
  | k + 1, l => l.take n :: chunksOf n k (l.drop n)

/-- Element (i, j) without the accumulator: g[0] of R100, or the exact integer sum (R102). -/
def mxElem (h : Hart) (fmt vs : Nat) (a b : List Nat) (i j : Nat) : Int :=
  let ab := a.zip b
  if fmt ≥ 5 then
    let w := xBits fmt
    ab.foldl (fun z p => z + valOf true w p.1 * valOf true w p.2) 0
  else
    let nb := ab.length / 32
    let gs := ((chunksOf 32 nb ab).zip (List.range nb)).map fun q =>
      blockSum (fOfX fmt) q.1 (scaleByte h vs (nb * i + q.2)) (scaleByte h vs (16 * nb + nb * j + q.2))
    ((ftree f32 0 false (Nat.log2 nb) gs).1 : Nat)

/-- What the array reads at an operation's start, as the sums of its 256 elements (R234, R238). -/
def mxProducts (h : Hart) (sparse : Bool) (fmt va vb vs : Nat) : List Int :=
  let bits := xBits fmt
  let as := (List.range 16).map fun i => if sparse then sparseRow h va bits i else denseRow h va bits i
  let bs := (List.range 16).map fun j => denseRow h vb bits j
  (List.range 256).map fun n => mxElem h fmt vs (as.getD (n / 16) []) (bs.getD (n % 16) []) (n / 16) (n % 16)

/-- ARRAY_START (R234, R242, R248, R249, R253): the candidate of the hart reads its operands and starts, at most once in 4 clk,
2 after an `mmasp`, 8 for an Oryx hart on a die whose matrix issue is limited (R441); its account is charged 4 units. A parity error of its operands ends in a context fault (R252). -/
def arrayStart (s : State) (k : Nat) (h : Hart) (e : Entry) (o : Eops) : State :=
  let c := coreOfSlot k
  let sparse := match e.instr with
    | .mmasp _ => true
    | _ => false
  if parityBad h e then leaveMdq (parityError s k h e) k e.seq
  else
    let op : MxOp := { uid := h.id.uid, seq := e.seq, fin := slotClk s k + 14,
                       vals := mxProducts h sparse o.fmt.toNat o.vs1.toNat o.vs2.toNat o.vs3.toNat }
    let s := leaveMdq s k e.seq
    let limited := oryxLimited s k h
    let keep : KeepBuf := { uid := h.id.uid, vb := o.vs2.toNat, vs := o.vs3.toNat, fmt := o.fmt.toNat }
    let s := updCore s c fun x => { x with
      arrayPipe := x.arrayPipe ++ [op], arrayFree := slotClk s k + (if sparse then 2 else 4), oryxFree := if limited then slotClk s k + 8 else x.oryxFree,
      keep := if sparse then x.keep else tput x.keep (quadOfSlot k) keep }
    let s := updE s k e.seq fun e => { e with stage := .running, started := true }
    charge s h.id.acct 4

def execArrayStart (h : Nat) (s : State) : Host.Outcome State Fault Refusal :=
  stepOf <| match mxOldest s h with
    | none => s
    | some (hh, e) =>
      if !isArrayOp e.instr || !mxReady s h hh e || slotClk s h < (coreAt s (coreOfSlot h)).arrayFree || mxOutranked s h hh true then s
      else match e.instr with
        | .mma o | .mmasp o | .mmabk o => arrayStart (noteMx s h hh true) h hh e o
        | _ => s

/-- Elements of a tile as numbers, and bytes of a tile from elements (R232). -/
def tileElems (s : State) (core tile : Nat) : List Nat :=
  let bs := readTile s core tile 0 1024
  (List.range 256).map fun n => leNat ((bs.drop (4 * n)).take 4)
def putTile (s : State) (core tile : Nat) (vs : List Nat) : State :=
  { s with tiles := wrBytes s.tiles (tileKey core tile 0) (vs.flatMap fun v => leBytes 4 v) }

/-- The status byte of a tile (R233). -/
def tileStatus (s : State) (core tile : Nat) : Nat := tgetD (coreAt s core).tstat tile 0
def setTileStatus (s : State) (core tile v : Nat) : State := updCore s core fun c => { c with tstat := tput c.tstat tile v }

/-- The tile of the core that a hart names t (R22, R232). -/
def tileOf (h : Hart) (t : Nat) : Nat := h.id.tile0.getD t 0

/-- The new element and the status bits it sets (R100 to R102, R233). -/
def mxResult (fmt : Nat) (c : Nat) (g : Int) : Nat × Nat :=
  if fmt ≥ 5 then
    let t := valOf true 32 c + g
    (wrapTo 32 t, b2n (t < -(2 ^ 31) || t > 2 ^ 31 - 1))
  else
    let r := (addV f32 0 false (unpackF f32 g.toNat) (unpackF f32 c)).1
    (r, 2 * b2n (isNaN (unpackF f32 r)) + 4 * b2n (isInf (unpackF f32 r)))

/-- A multiply's result written: tile and status as one (R234). -/
def mxWrite (s : State) (core tile fmt : Nat) (vals : List Int) : State :=
  let rs := ((tileElems s core tile).zip vals).map fun p => mxResult fmt p.1 p.2
  setTileStatus (putTile s core tile (rs.map (·.1))) core tile (rs.foldl (fun a r => Nat.lor a r.2) (tileStatus s core tile))

/-- ARRAY_WRITEBACK: 14 clk after its start the oldest operation of the array writes its tile and its entry is DONE (R234,
R242, R248). -/
def execArrayWriteback (core : Nat) (s : State) : Host.Outcome State Fault Refusal :=
  stepOf <| match (coreAt s core).arrayPipe with
    | [] => s
    | op :: rest =>
      if coreClk s core < op.fin then s
      else
        let s := updCore s core fun c => { c with arrayPipe := rest }
        match slotOfUid s op.uid with
        | none => s
        | some k =>
          match entryNow s k op.seq with
          | none => s
          | some (h, e) =>
            match e.instr with
            | .mma o | .mmasp o | .mmabk o =>
              let s := mxWrite s core (tileOf h o.vd.toNat) o.fmt.toNat op.vals
              updHart s k fun h => doneEntry h e.seq
            | _ => s

/-- The check of a drain's operands (R244): a code, or none. -/
def drainCheck (e : Entry) : Option Nat :=
  let c := e.opa.toNat
  let fields := 0x3F + 0xC0 + 0x30000 + 0x700000 + 0x7000000
  if Nat.lor c fields ≠ fields || bitsOf c 20 3 > 5 || e.lmask.toNat / 2 ^ 20 ≠ 0 then some 0x0402
  else if e.lmask.toNat % 128 ≠ 0 then some 2
  else none

/-- The check of a team-store offset (R243). -/
def tileOffCheck (s : State) (h : Hart) (e : Entry) : Option Nat :=
  if e.opa.toNat % 128 ≠ 0 then some 2
  else if e.opa.toNat + 1024 > 4096 * (windowsOf s h).length then some 5
  else none

/-- The 256 elements in the registers of `tmovt` and `tmovv` (R237). -/
def fragElems (h : Hart) (v : Nat) : List Nat := (List.range 256).map fun n => (vlane h (v + n / 64) (n % 64)).toNat

/-- TILE_PORT_START (R243, R244, R246, R248): the candidate's checks, then it occupies the tile port; `tmovt` reads its registers. -/
def portStart (s : State) (k : Nat) (h : Hart) (e : Entry) : State :=
  let start (s : State) (vals : List Int) : State :=
    let s := leaveMdq s k e.seq
    let s := updCore s (coreOfSlot k) fun c => { c with port := some { uid := h.id.uid, seq := e.seq, fin := slotClk s k + portClks e, vals := vals } }
    updE s k e.seq fun e => { e with stage := .running, started := e.started || (match e.instr with
      | .twait _ => false
      | _ => true) }
  match e.instr with
  | .tmovt o =>
    if parityBad h e then leaveMdq (parityError s k h e) k e.seq
    else start s ((fragElems h o.vs1.toNat).map Int.ofNat)
  | .tst _ | .tld _ =>
    (match tileOffCheck s h e with
     | some c => recordOne (leaveMdq s k e.seq) k h e c e.opa true true
     | none => start s [])
  | .tdrain _ =>
    (match (if e.part then none else drainCheck e) with
     | some c => recordOne (leaveMdq s k e.seq) k h e c e.lmask true true
     | none => start s [])
  | _ => start s []

def execTilePortStart (h : Nat) (s : State) : Host.Outcome State Fault Refusal :=
  stepOf <| match mxOldest s h with
    | none => s
    | some (hh, e) =>
      if isArrayOp e.instr || !mxReady s h hh e || (coreAt s (coreOfSlot h)).port.isSome || mxOutranked s h hh false then s
      else portStart (noteMx s h hh false) h hh e

/-- Bytes of a run of offsets in the windows of a list, read and written in lines of 128 bytes (R170). -/
def readWins (s : State) (core : Nat) (ws : List Nat) (off n : Nat) : List Byte :=
  (List.range (n / 128)).flatMap fun i => readWin s core (ws.getD ((off + 128 * i) / 4096) 0) ((off + 128 * i) % 4096) 128
def writeWins (s : State) (core : Nat) (ws : List Nat) (off writer : Nat) (bs : List Byte) : State :=
  (List.range (bs.length / 128)).foldl (fun s i =>
    writeWin s core (ws.getD ((off + 128 * i) / 4096) 0) ((off + 128 * i) % 4096) writer ((bs.drop (128 * i)).take 128)) s

/-- What an operation of the tile port does (R243, R244, R246). -/
def portDone (s : State) (k : Nat) (h : Hart) (e : Entry) (op : MxOp) : State :=
  let c := coreOfSlot k
  let fin (s : State) : State := updHart s k fun h => doneEntry h e.seq
  match e.instr with
  | .tzero o => fin (setTileStatus (putTile s c (tileOf h o.vd.toNat) (List.replicate 256 0)) c (tileOf h o.vd.toNat) 0)
  | .tmovv o =>
    let vs := (tileElems s c (tileOf h o.vs1.toNat)).zip (List.range 256)
    fin (setHart s k (vs.foldl (fun h p => setLane h (o.vd.toNat + p.2 / 64) (p.2 % 64) (BitVec.ofNat 32 p.1)) h))
  | .tmovt o =>
    fin (setTileStatus (putTile s c (tileOf h o.vd.toNat) (op.vals.map Int.toNat)) c (tileOf h o.vd.toNat) 0)
  | .tst o => fin (writeWins s c (windowsOf s h) e.opa.toNat h.id.uid (readTile s c (tileOf h o.vd.toNat) 0 1024))
  | .tld o =>
    let bs := readWins s c (windowsOf s h) e.opa.toNat 1024
    fin (setTileStatus { s with tiles := wrBytes s.tiles (tileKey c (tileOf h o.vd.toNat) 0) bs } c (tileOf h o.vd.toNat) 0)
  | .tdrain o =>
    let d : DrainMsg := { uid := h.id.uid, seq := e.seq, asid := h.id.asid, tenant := h.id.tenant, cls := h.id.cls,
                          src := if e.part then e.ptw.toNat else hwhereOf k false, dst := e.opa.toNat, off := e.lmask.toNat,
                          data := if e.part then [] else readTile s c (tileOf h o.vd.toNat) 0 1024, wakeOnly := e.part,
                          acct := h.id.acct, reserved := e.rsvd }
    let s := { s with net := { s.net with drains := s.net.drains ++ [d] } }
    updE s k e.seq fun e => { e with stage := .sent, await := true, ptw := BitVec.ofNat 64 d.src }
  | .twait o => setHart s k (doneEntry (deliverX h e.seq (xreg o.vd) (BitVec.ofNat 64 (tileStatus s c (tileOf h o.vs1.toNat)))) e.seq)
  | _ => s

/-- TILE_PORT_DONE: the operation in the tile port ends (R248). -/
def execTilePortDone (core : Nat) (s : State) : Host.Outcome State Fault Refusal :=
  stepOf <| match (coreAt s core).port with
    | none => s
    | some op =>
      if coreClk s core < op.fin then s
      else
        let s := updCore s core fun c => { c with port := none }
        match slotOfUid s op.uid with
        | none => s
        | some k =>
          match entryNow s k op.seq with
          | some (h, e) => portDone s k h e op
          | none => s

/-- The wake-up message of a drain to hart h (R245): its payload words, the scope that covers both cores, reserved when the
drain names the issuer itself (R272). -/
def wakeMsg (d : DrainMsg) (h : Hart) : InboxMsg :=
  { w0 := BitVec.ofNat 64 (d.seq + 1 * 2 ^ 16 + d.off % 2 ^ 32 * 2 ^ 32), w1 := BitVec.ofNat 64 d.src,
    scope := coverScope (coreOfHwhere d.src) (coreOfHwhere d.dst), reserved := d.reserved && h.id.uid == d.uid }

/-- A drain's outcome goes back to its issuer. -/
def ackDrain (s : State) (d : DrainMsg) (code : Nat) (dropped : Bool) : State :=
  { s with net := { s.net with drainAcks := s.net.drainAcks ++ [{ uid := d.uid, seq := d.seq, code := code, dropped := dropped }] } }

/-- The wake-up of a drain posted to the hart of a slot, with its charge; a full diversion buffer refuses it (R244, R245, R253). A refused wake-up
counts as sent: it is charged, and once more when a replay sends it again; the spec does not say (DESIGN CHOICE, log 127). -/
def postWake (s : State) (d : DrainMsg) (k : Nat) : State :=
  let s := charge s d.acct 1
  match hartAt s k with
  | none => s
  | some h =>
    match postHart s k h (wakeMsg d h) d.src d.seq with
    | some s =>
      let s := if d.reserved && h.id.uid == d.uid then updUid s d.uid fun h => updEntry h d.seq fun e => { e with rsvd := false } else s
      ackDrain s d 0 false
    | none => ackDrain s d 0x0205 false

/-- What the named core makes of a drain (R244): DRAIN_TARGET, WINDOW_CLOSED, TSTORE_RANGE, or the writes and the wake-up. The spec names no check for a
wake-up that is sent again alone: one whose hart or team has gone is dropped and counted as a closed window's drain is (DESIGN CHOICE, log 126). -/
def drainArrive (s : State) (d : DrainMsg) : State :=
  let core := coreOfHwhere d.dst
  let k := slotOfHwhere d.dst
  let target := match hartAt s k with
    | some h => if !h.id.handler && h.id.asid == d.asid then (teamOf s h).map fun t => (h, t) else none
    | none => none
  if !inTenant s d.tenant core then ackDrain s d 0x0401 false
  else match target with
    | none => ackDrain s d 0 true
    | some (_, t) =>
      if t.stat == .ended then ackDrain s d 0 true
      else if d.wakeOnly then postWake s d k
      else if d.off + 1024 > 4096 * t.wins.length then ackDrain s d 5 false
      else postWake (writeWins s core t.wins d.off d.uid d.data) d k

/-- DRAIN_IMAGE_ARRIVAL: a drain reaches the named core; drains of one hart to one hart arrive in their order (R245). -/
def execDrainImageArrival (i : Nat) (s : State) : Host.Outcome State Fault Refusal :=
  stepOf <| match s.net.drains[i]? with
    | none => s
    | some d =>
      if ((s.net.drains.take i).any fun x => x.uid == d.uid && x.dst == d.dst) || divBlocked s d.asid then s
      else drainArrive { s with net := { s.net with drains := dropAt s.net.drains i } } d

/-- DRAIN_ACK (R244, R284): the entry is DONE, with a drop counted, or HELD with the refusal; a refused wake-up sets PART. A hart
that has been saved finds the outcome in its record (R254). -/
def execDrainAck (i : Nat) (s : State) : Host.Outcome State Fault Refusal :=
  stepOf <| match s.net.drainAcks[i]? with
    | none => s
    | some a =>
      let s := { s with net := { s.net with drainAcks := dropAt s.net.drainAcks i } }
      match hartOfUid s a.uid with
      | none => s
      | some h =>
        match entryAt h a.seq with
        | none => s
        | some e =>
          if e.eng != .matrix || e.st != .inflight then s
          else if a.code = 0 then answerHart s a.uid fun h => countDrop (releaseRsv (doneEntry h a.seq) a.seq) (b2n a.dropped)
          else
            let part := a.code == 0x0205
            match slotOfUid s a.uid with
            | some k =>
              holdEntry s k h { e with part := e.part || part, await := false } a.code 0 e.lmask
            | none =>
              answerHart s a.uid fun h =>
                let e' := { e with st := .held, code := a.code, fltLanes := 0, fltAddr := e.lmask, part := e.part || part, await := false }
                squashAfter (updEntry h a.seq fun _ => e') e'

end Sys2Proof.Machine
end

