-- ==== Sys2Proof/Machine/Start.lean ====
section
/-! DEFINITION. The state in which a hart starts (R104, R105, R279). -/

namespace Sys2Proof.Machine

/-- The message state of a hart at its start. -/
def freshMsg : MsgState :=
  { inbox := [], rsv := 0,
    sendq := Vector.replicate 8 { used := false, seq := 0, target := 0, handler := 0, p := [], sent := false },
    drop := 0, event := 0, origin := 0, bodyLen := 0, rplAsked := false, rplDue := false, originUid := 0, originRec := 0, divRecs := 0,
    body := [], bodyErr := none }

/-- The supervisor CSRs at hart start (log 5). -/
def freshSCsr : SCsr :=
  { mstatus := mstatusReset, mie := 0, mip := 0, stvec := 0, sscratch := 0, sepc := 0, scause := 0, stval := 0, scounteren := 0,
    senvcfg := 0, instret := 0 }

/-- The custom CSRs at hart start (R104, R105). -/
def freshLCsr : LCsr :=
  { lfrm := 0, lflags := 0, ftz := false, wrsFull := false, yreq := false, fseq := 0, nseq := 0, lfcode := 0, lfengine := 0,
    lfaddr := 0, lflanes := 0, bstpc := 0 }

/-- A hart at its start (R104): pc, two payload words, an all-ones base mask, everything else 0, U-mode. -/
def freshHart (id : Ident) (pc p0 p1 : Word) : Hart :=
  { pc := pc, x := ((Vector.replicate 32 (0 : Word)).set 10 p0).set 11 p1, m := Vector.replicate 8 0,
    stk := (Vector.replicate 32 (⟨0, 0⟩ : StkEntry)).set 0 ⟨allOnes, 0⟩, dep := 1, v := [], vbad := [],
    tm := Vector.replicate 8 0, mode := .u, l := freshLCsr, s := freshSCsr, id := id, snap := none, ring := [], laneQ := [],
    tickets := Vector.replicate 16 ⟨false, false⟩, syncw := false, resv := none, wait := none, pend := none, parts := [], xlock := [],
    msg := freshMsg, frag := none, halted := false, stepping := none, notReady := 0, ending := false,
    capture := none, seen := [], deps := [], ldeps := [], npos := 0, ahead := [] }

/-- A hart that comes to a slot finds the lane failures that have been reported for its quadrant while no hart stood there (R144). -/
def giveReport (s : State) (k : Nat) : State :=
  let q := k / 64
  if s.plat.laneRep.contains q then
    updHart { s with plat := { s.plat with laneRep := s.plat.laneRep.filter (· != q) } } k fun h => { h with s := { h.s with mip := setBit h.s.mip 11 true } }
  else s

end Sys2Proof.Machine
end

