-- ==== Sys2Proof/Machine/Message.lean ====
section
/-! DEFINITION. The message engine (09_message_engine): serving sends, replies, `mrecv` and `mackrd`; messages reaching inboxes,
diversion buffers and handler queues; the start of handlers; accesses to other cores' windows. -/

namespace Sys2Proof.Machine

/-- An older entry of the message engine has not been served: the engine takes a hart's entries in order (R35, R267). -/
def olderMessage (h : Hart) (e : Entry) : Bool :=
  (pendingEntries h).any fun f => before f e && f.eng == .message && (inQueue f || f.st == .parked)

/-- The send-queue entry of a message. -/
def sendEntryOf (h : Hart) (seq : Nat) : Option SendEntry := h.msg.sendq.toList.find? fun q => q.used && q.seq == seq

/-- The body descriptor of `msendb` is bad for a kind of target (R267). -/
def bodyBad (d : Nat) (handler : Bool) : Bool :=
  let len := bitsOf d 0 16
  let off := bitsOf d 32 16
  len < 8 || len > 2048 || len % 8 != 0 || off % 8 != 0 || (handler && off != 0) || bitsOf d 16 16 != 0 || bitsOf d 48 16 != 0

/-- MSG_OPERAND of R265: bits outside the layout, coordinates outside the mesh, a bad X[h]. -/
def targetBad (t h : Nat) : Bool :=
  let kind := bitsOf t 62 2
  let coords := 0x30000 + 0x700000 + 0x7000000
  let allowed := 2 ^ 61 + kind * 2 ^ 62 +
    (if kind = 0 then coords + 0xFF + 0xFFFFFF * 2 ^ 32 else if kind = 1 then coords else 2 ^ 48 - 1)
  kind = 3 || Nat.lor t allowed != allowed || (kind < 2 && bitsOf t 20 3 > 5) ||
  (if kind = 0 then h != 0 else h % 128 != 0 || !canonical (BitVec.ofNat 64 h))

/-- The core that R40 chooses for an HBM address over a context's cores: none when the tenant has none online. -/
def homedCore (s : State) (tenant pa : Nat) : Option Nat :=
  let cores := (tenantCores s tenant).filter fun c => dieOnline s (dieOfCore c)
  let k := homeOf pa
  let near := cores.filter fun c => dieOfCore c == k / 2 || dieOfCore c == (k / 2 + 1) % 4
  let cand := if near.isEmpty then cores else near
  if cand.isEmpty then none else cand[bitsOf pa 14 25 % cand.length]?

/-- What finding the target core of a send gives. -/
inductive TargetRes where
  | core (c : Nat) | fault (code : Nat) (addr : Word) | wait

/-- Step 2 of R267. -/
def sendTarget (s : State) (k : Nat) (h : Hart) (e : Entry) : TargetRes × State :=
  let t := e.opa.toNat
  if bitsOf t 62 2 < 2 then (.core (coreOfHwhere t), s)
  else
    let va : Word := (e.opa.setWidth 48).signExtend 64
    if t % 8 ≠ 0 then (.fault 2 va, s)
    else match xlateEntry s k h e va .load with
      | (.wait, s) => (.wait, s)
      | (.fault c, s) => (.fault c va, s)
      | (.ok (.win c _ _), s) => (.core c, s)
      | (.ok (.hbm pa _), s) => (match homedCore s h.id.tenant pa with
          | some c => .core c
          | none => .fault 0x0203 e.opa, s)
      | (.ok _, s) => (.fault 4 va, s)

/-- The scope of a code (R42). -/
def scopeNat (c : Nat) : Scope := scopeOf (BitVec.ofNat 2 c)

/-- Step 4 of R267: the hart's earlier accesses have performed at the scope, and at device scope so has what it has seen. -/
def sendReleased (s : State) (h : Hart) (e : Entry) (scope : Nat) : Bool :=
  !olderEntry h e (fun i => isOrderedMem i || isTileWriter i) && h.pend.isNone && performedAt s h (scopeNat scope) && (scope < 2 || (liveSeen s h).isEmpty)

/-- What reading a body gives. -/
inductive BodyRes where
  | ok (bs : List Byte) | fault (code : Nat) (addr : Word) | wait

/-- Step 5 of R267: the body's bytes, checked as the source of a `cpgg`. -/
def readBody (s : State) (k : Nat) (h : Hart) (e : Entry) (a : Word) (len : Nat) : BodyRes × State :=
  let ps := (cutRange a.toNat len).map fun c => (⟨.va (a + BitVec.ofNat 64 c.1), .skip, c.2⟩ : Piece)
  match checkPieces s k h e false ps 0 with
  | ((true, _, _), s) => (.wait, s)
  | ((false, _, f :: _), s) => (.fault f.2.1 f.2.2, s)
  | ((false, oks, []), s) =>
    match h.msg.bodyErr with
    | some (code, i) => (.fault code (a + BitVec.ofNat 64 ((cutRange a.toNat len).getD i (0, 0)).1),
        updHart s k fun h => { h with msg := { h.msg with body := [], bodyErr := none } })
    | none =>
      let j : CopyJob := { uid := h.id.uid, seq := e.seq, teams := [], dropped := false, ready := false, fin := false, hostBuf := h.msg.body, hostErr := none,
                           writes := [], advance := 0, closed := 0, total := 0 }
      let step (a : Option (List Byte) × State × Nat) (p : Piece × Option Loc × Option Loc) : Option (List Byte) × State × Nat :=
        let r := readPiece a.2.1 k h e.seq a.2.2 j p.1 p.2.1
        (match a.1, r.1 with
         | some x, some y => some (x ++ y)
         | _, _ => none, r.2, a.2.2 + 1)
      let r := oks.foldl step (some [], s, 0)
      (match r.1 with
       | some bs => .ok bs
       | none => .wait, r.2.1)

/-- The message of a send (R257). -/
def sendMessage (s : State) (k : Nat) (h : Hart) (e : Entry) (core scope : Nat) (q : SendEntry) (body : List Byte) (off : Nat) : Msg :=
  let t := e.opa.toNat
  let inbox := bitsOf t 62 2 == 0
  let c := core
  let dst := if inbox then t % 2 ^ 27 else dieOfCore c * 2 ^ 16 + xOfCore c * 2 ^ 20 + yOfCore c * 2 ^ 24
  { kind := if inbox then .inbox else .handler, net := 2, tenant := h.id.tenant, asid := h.id.asid, cls := h.id.cls,
    level := h.id.level, scope := scope, seq := e.seq, rpl := wbit e.opa 61, src := hwhereOf k h.id.handler, dst := dst,
    entry := e.lmask, teamNo := bitsOf t 32 24, off := off, body := body,
    dline := if h.id.cls = 0 then h.id.dline else BitVec.allOnes 64,
    orec := match teamOf s h with
      | some tm => tm.recPa
      | none => 0,
    srcTeam := h.id.teamNo, srcIdx := h.id.hidx, p0 := q.p.getD 0 0, p1 := q.p.getD 1 0, uid := h.id.uid, sq := some e.seq,
    reserved := false, drain := false, acct := h.id.acct, forUid := 0 }

/-- A message enters the network (R267 step 6, R286): the entry is STARTED and sent, and the account is charged 1 unit. -/
def inject (s : State) (k seq : Nat) (m : Msg) : State :=
  let s := { s with net := { s.net with msgs := s.net.msgs ++ [m] } }
  let s := updHart s k fun h =>
    let h := updEntry h seq fun e => { e with stage := .sent, started := true, await := true }
    { h with msg := { h.msg with body := [],
                                 sendq := h.msg.sendq.map fun q => if q.used && q.seq == seq then { q with sent := true } else q } }
  charge s m.acct 1

/-- `msend` and `msendb` served (R267): operands, target, tenant, release, body, injection. -/
def serveSend (s : State) (k : Nat) (h : Hart) (e : Entry) (withBody : Bool) : State :=
  match sendEntryOf h e.seq with
  | none => s
  | some q =>
    let d := (q.p.getD 3 0).toNat
    if targetBad e.opa.toNat e.lmask.toNat || (withBody && bodyBad d (bitsOf e.opa.toNat 62 2 != 0)) then
      recordOne s k h e 0x0202 e.opa true false
    else match sendTarget s k h e with
      | (.wait, s) => s
      | (.fault c a, s) => recordOne s k h e c a true false
      | (.core core, s) =>
        if !inTenant s h.id.tenant core then recordOne s k h e 0x0203 e.opa true false
        else
          let scope := coverScope (coreOfSlot k) core
          if !sendReleased s h e scope then s
          else if withBody then
            match readBody s k h e (q.p.getD 2 0) (bitsOf d 0 16) with
            | (.wait, s) => s
            | (.fault c a, s) => recordOne s k h e c a true false
            | (.ok bs, s) => inject s k e.seq (sendMessage s k h e core scope q bs (bitsOf d 32 16))
          else inject s k e.seq (sendMessage s k h e core scope q [] 0)

/-- The reply of a handler (R270): to the origin hart's inbox, on the reply network, in its reservation. -/
def replyMessage (k : Nat) (h : Hart) (seq : Nat) (w0 w1 : Word) : Msg :=
  let o := h.msg.origin.toNat
  { kind := .inbox, net := 1, tenant := h.id.tenant, asid := h.id.asid, cls := h.id.cls, level := h.id.level,
    scope := coverScope (coreOfSlot k) (coreOfHwhere o), seq := seq, rpl := false, src := hwhereOf k true, dst := o % 2 ^ 27,
    entry := 0, teamNo := bitsOf o 32 24, off := 0, body := [], dline := if h.id.cls = 0 then h.id.dline else BitVec.allOnes 64,
    orec := h.msg.originRec.toNat, srcTeam := 0, srcIdx := bitsOf o 56 6, p0 := w0, p1 := w1, uid := h.id.uid, sq := none,
    reserved := true, drain := false, acct := h.id.acct, forUid := h.msg.originUid }

/-- A reply sent, with its charge (R286); for one that no `msendr` made, `seq` is the handler's NSEQ (DESIGN CHOICE, log 111). -/
def sendReply (s : State) (k : Nat) (h : Hart) (seq : Nat) (w0 w1 : Word) : State :=
  charge { s with net := { s.net with msgs := s.net.msgs ++ [replyMessage k h seq w0 w1] } } h.id.acct 1

/-- `mrecv` (R275): the oldest message leaves the inbox, both registers are written, and the dequeue is an acquire at the
message's scope. -/
def serveRecv (s : State) (k : Nat) (h : Hart) (e : Entry) (o : Eops) : State :=
  match h.msg.inbox with
  | [] => s
  | m :: rest =>
    let h := { h with msg := { h.msg with inbox := rest } }
    let h := deliverX (wx h (xreg o.vd) m.w0) e.seq (xreg o.vs1) m.w1
    acquireAt (setHart s k (doneEntry h e.seq)) k (scopeNat m.scope)

/-- The value of `mackrd` (R276, R281). -/
def ackValue (h : Hart) (n : Nat) : Nat :=
  let used := (h.msg.sendq.toList.filter (·.used)).length
  match n with
  | 0 => (h.msg.sendq.toList.filter fun q => q.used && q.sent).length
  | 1 => if h.id.handler then 0 else h.msg.inbox.length + h.msg.divRecs
  | 2 => 8 - used
  | 3 => if h.id.handler then 0 else h.msg.rsv
  | 4 => if h.id.handler then h.msg.origin.toNat % 2 ^ 27 + b2n h.msg.rplDue * 2 ^ 63 else 0
  | 5 => h.msg.drop
  | 6 => h.msg.event
  | _ => if h.id.handler then h.msg.bodyLen else 0

/-- `mackrd` (R276): read once every earlier MS, copy and matrix instruction has entered its engine; k = 6 clears EVENT. -/
def serveAck (s : State) (k : Nat) (h : Hart) (e : Entry) (o : Eops) : State :=
  if (pendingEntries h).any fun f => before f e && f.eng == .matrix && inQueue f then s
  else
    let v := ackValue h o.vs3.toNat
    let h := if o.vs3 = 6 then { h with msg := { h.msg with event := 0 } } else h
    setHart s k (doneEntry (deliverX h e.seq (xreg o.vd) (BitVec.ofNat 64 v)) e.seq)

/-- The message engine's work for an entry of a hart (R267, R270, R275, R276). -/
def serveEntry (s : State) (k : Nat) (h : Hart) (e : Entry) : State :=
  match e.instr with
  | .msend _ => serveSend s k h e false
  | .msendb _ => serveSend s k h e true
  | .msendr _ =>
    let scope := coverScope (coreOfSlot k) (coreOfHwhere h.msg.origin.toNat)
    if !sendReleased s h e scope then s
    else sendReply (updHart s k fun h => doneEntry h e.seq) k h e.seq e.opa e.lmask
  | .mrecv o => serveRecv s k h e o
  | .mackrd o => serveAck s k h e o
  | _ => s

/-- An entry that the engine may serve: the hart's first (R35). -/
def servable (s : State) (h : Hart) (e : Entry) : Bool :=
  e.eng == .message && e.st == .inflight && e.stage == .queued && h.capture.isNone && !olderMessage h e && !ctxDead s h.id.asid

/-- A hart waits for the message engine: serving its entry would move it on. -/
def sendWaiting (s : State) (k : Nat) (h : Hart) : Bool :=
  h.ring.any fun p => servable s h p.2 && entryNow (serveEntry s k h p.2) k p.2.seq != some (h, p.2)

/-- The other harts of the core that wait for the message engine. -/
def sendRivals (s : State) (k : Nat) : List Cand :=
  (s.harts.filter fun p => p.1 != k && coreOfSlot p.1 == coreOfSlot k && sendWaiting s p.1 p.2).map fun p => hartCand p.1 p.2

/-- SEND_SERVICE: the message engine serves an entry of a hart, in the hart's order, harts in the class order of R28 (R35, R259, R267, R270,
R275, R276, R396). -/
def execSendService (h q : Nat) (s : State) : Host.Outcome State Fault Refusal :=
  stepOf <| match entryNow s h q with
    | none => s
    | some (hh, e) =>
      if !servable s hh e || !picks s (.send (coreOfSlot h)) (hartCand h hh) (sendRivals s h) then s
      else
        let t := serveEntry s h hh e
        if entryNow t h q != some (hh, e) then
          { t with arbs := (notePick s (.send (coreOfSlot h)) (hartCand h hh) (sendRivals s h)).arbs }
        else t

/-- MESSAGE_ACK (R269): an accepted send is DONE and its queue entry free; a refused one is HELD with the refusal's code, and
keeps its entry and its reservation. A hart that has been saved finds the outcome in its record (R287). -/
def execMessageAck (i : Nat) (s : State) : Host.Outcome State Fault Refusal :=
  stepOf <| match s.net.acks[i]? with
    | none => s
    | some a =>
      let s := { s with net := { s.net with acks := dropAt s.net.acks i } }
      match hartOfUid s a.uid with
      | none => s
      | some h =>
        match entryAt h a.seq with
        | none => s
        | some e =>
          if e.eng != .message || e.st != .inflight then s
          else if a.code = 0 then answerHart s a.uid fun h => freeSend (doneEntry h a.seq) a.seq
          else
            let unsent (h : Hart) : Hart := { h with msg := { h.msg with
              sendq := h.msg.sendq.map fun q => if q.used && q.seq == a.seq then { q with sent := false } else q } }
            match slotOfUid s a.uid with
            | some k => holdEntry s k (unsent h) { e with await := false } a.code 0 e.opa
            | none =>
              answerHart s a.uid fun h =>
                let e' := { e with st := .held, code := a.code, fltLanes := 0, fltAddr := e.opa, await := false }
                squashAfter (updEntry (unsent h) a.seq fun _ => e') e'

/-- The destination acknowledges a send (R269). -/
def ackMsg (s : State) (m : Msg) (code : Nat) : State :=
  match m.sq with
  | none => s
  | some q => { s with net := { s.net with acks := s.net.acks ++ [{ uid := m.uid, seq := q, sq := some q, code := code }] } }

/-- An entry of an away directory (R274): the context block of an ASID and the word pair of a slot (R332). -/
def ctxBlock (s : State) (asid : Nat) : Nat := reg s 0x10 + 64 * asid
def cbWord (s : State) (asid off : Nat) : Nat := leNat (peekHome s (ctxBlock s asid + off) 8)

/-- A context's block and its away directory may be read at their homes (R289). -/
def ctxFree (s : State) (asid : Nat) : Bool := homeFree s (ctxBlock s asid) 64
def awayBase (s : State) (asid : Nat) : Nat := bitsOf (cbWord s asid 0x20) 20 32 * 2 ^ 20
def awayDir (s : State) (asid slot : Nat) : Option Away :=
  let a := awayBase s asid + 16 * slot
  let w := leNat (peekHome s a 8)
  if w.testBit 31 then
    some { asid := asid, teamNo := bitsOf w 0 24, hidx := bitsOf w 24 6, run := w.testBit 30, whereTo := leNat (peekHome s (a + 8) 8) }
  else none

/-- What is remembered of a slot that matches an ASID and a team: the slot's away entry, or else the directory's (R268). -/
def awayFor (s : State) (slot asid teamNo : Nat) : Option Away :=
  let hit (a : Away) : Bool := a.asid == asid && a.teamNo == teamNo
  match (tget (coreAt s (coreOfSlot slot)).away slot).filter hit with
  | some a => some a
  | none => (awayDir s asid slot).filter hit

/-- The team whose record lies at a PA. -/
def teamOfRec (s : State) (pa : Nat) : Option (Nat × Team) := s.work.teams.find? fun p => p.2.recPa == pa && p.2.stat != .ended

/-- The payload of an arriving message as an inbox entry. -/
def inboxOf (m : Msg) : InboxMsg := { w0 := m.p0, w1 := m.p1, scope := m.scope, reserved := m.reserved }

/-- The reservation that a reserved message fills, of hart hidx of a team, released (R272). -/
def releaseOf (s : State) (team hidx : Nat) : State := updCounts s team hidx fun h => { h with msg := { h.msg with rsv := h.msg.rsv - 1 } }

/-- The reservations that the saved harts of a team hold. -/
def savedRsv (s : State) (team : Nat) : Nat :=
  s.work.saves.foldl (fun a p => if !p.2.hart.id.handler && p.2.hart.id.team == team then a + p.2.hart.msg.rsv else a) 0

/-- A message diverted to the record of a team for one of its harts; none when it is refused (R274). -/
def divertTo (s : State) (tk : Nat) (t : Team) (hidx : Nat) (m : Msg) : Option State :=
  let s' := if m.reserved then releaseOf s tk hidx else s
  (divert s' tk t.recPa hidx (inboxOf m) m.src m.seq (teamRsv s tk + savedRsv s tk)).map fun s =>
    { s with harts := s.harts.map fun p =>
        if !p.2.id.handler && p.2.id.team == tk && p.2.id.hidx == hidx then
          (p.1, { p.2 with msg := { p.2.msg with divRecs := p.2.msg.divRecs + 1 } }) else p }

/-- A body written in a team's windows, or in the image of them in its record (R268). -/
def writeBody (s : State) (t : Team) (off uid : Nat) (body : List Byte) (image : Bool) : State :=
  if image then (if body.isEmpty then s else ctxWrite s t.asid (t.recPa + 0x11000 + off) body)
  else (List.range (body.length / 8)).foldl (fun s i =>
    let o := off + 8 * i
    writeWin s t.core (t.wins.getD (o / 4096) 0) (o % 4096) uid ((body.drop (8 * i)).take 8)) s

/-- A message for a hart that is remembered as away (R268, R274). -/
def arriveAway (s : State) (m : Msg) (a : Away) : State :=
  if a.run then { s with net := { s.net with msgs := s.net.msgs ++ [{ m with dst := a.whereTo % 2 ^ 27 }] } }
  else match teamOfRec s a.whereTo with
    | none => ackMsg s m 0x0204
    | some (tk, t) =>
      if m.off + m.body.length > 4096 * t.wins.length then ackMsg s m 0x0206
      else match divertTo s tk t a.hidx m with
        | none => ackMsg s m 0x0205
        | some s => ackMsg (writeBody s t m.off m.uid m.body true) m 0

/-- A reply that finds its origin's slot forgotten goes to the record that header word 4 names, unless the hart has ended
(R270). -/
def arriveLost (s : State) (m : Msg) : State :=
  if !m.reserved then ackMsg s m 0x0204
  else match teamOfRec s m.orec with
    | none => s
    | some (tk, t) =>
      let alive := (s.harts.any fun p => !p.2.id.handler && p.2.id.team == tk && p.2.id.hidx == m.srcIdx) ||
        (s.work.saves.any fun p => !p.2.hart.id.handler && p.2.hart.id.team == tk && p.2.hart.id.hidx == m.srcIdx)
      if t.asid = m.asid && alive then (divertTo s tk t m.srcIdx m).getD s else s

/-- What is remembered of the slot of a message: for a reply, of the origin hart only (R270). -/
def awayOf (s : State) (k : Nat) (m : Msg) : Option Away :=
  (awayFor s k m.asid m.teamNo).filter fun a => !m.reserved || a.hidx == m.srcIdx

/-- What the target core makes of an inbox message (R268): a reply to a hart that has ended is discarded (R270). -/
def arriveInbox (s : State) (m : Msg) : State :=
  let k := slotOfHwhere m.dst
  if m.reserved && (hartOfUid s m.forUid).isNone then s
  else match hartAt s k with
  | some h =>
    if !h.id.handler && h.id.asid == m.asid && h.id.teamNo % 2 ^ 24 == m.teamNo && (!m.reserved || h.id.uid == m.forUid) then
      match teamOf s h with
      | none => s
      | some t =>
        if m.off + m.body.length > 4096 * t.wins.length then ackMsg s m 0x0206
        else match postHart s k h (inboxOf m) m.src m.seq with
          | none => ackMsg s m 0x0205
          | some s => ackMsg (writeBody s t m.off m.uid m.body false) m 0
    else (match awayOf s k m with
      | some a => arriveAway s m a
      | none => arriveLost s m)
  | none => (match awayOf s k m with
      | some a => arriveAway s m a
      | none => arriveLost s m)

/-- An earlier message of the same sender, network and class to the same destination goes first (R262). A hart's message engine, its lanes and its
matrix engine are agents of their own (R42), so that window accesses and drains keep their own orders (DEDUCED, log 119). -/
def outOfOrder (s : State) (i : Nat) (m : Msg) : Bool :=
  (s.net.msgs.take i).any fun x => x.uid == m.uid && x.net == m.net && x.cls == m.cls && x.kind == m.kind && x.dst == m.dst

/-- The router's membership check failed: the message is gone and its sender's context meets a tenant violation (R261). -/
def tenantViolation (s : State) (m : Msg) : State := contextFault s m.asid 4

/-- The core that a message comes from; the network ports' come from the IOD. -/
def srcCore (m : Msg) : Option Nat := if m.src = 0x7FFFFFF then none else some (coreOfHwhere m.src)

/-- INBOX_MESSAGE_ARRIVAL (R261, R262, R268, R270, R274): what is read of the context's records is read at its home in turn (R289). -/
def execInboxMessageArrival (i : Nat) (s : State) : Host.Outcome State Fault Refusal :=
  stepOf <| match s.net.msgs[i]? with
    | none => s
    | some m =>
      if m.kind != .inbox || outOfOrder s i m || divBlocked s m.asid || !ctxFree s m.asid ||
        !homeFree s (awayBase s m.asid + 16 * slotOfHwhere m.dst) 16 then s
      else
        let s := { s with net := { s.net with msgs := dropAt s.net.msgs i } }
        if !routersPass s m.tenant (srcCore m) (coreOfHwhere m.dst) then tenantViolation s m
        else arriveInbox s m

/-- DIVERSION_REFILL (R274): the hart's oldest record moves to its inbox; HEAD and COUNT pass the records that are cleared. -/
def refill (s : State) (k : Nat) (h : Hart) (rec : Nat) : State :=
  let count := divCount s rec
  let head := max 1 (divHead s rec)
  let at_ (j : Nat) : Nat := divBase rec + 32 * ((head - 1 + j) % 2047 + 1)
  let valid (s : State) (j : Nat) : Bool := (leNat (peekHome s (at_ j + 0x11) 1)).testBit 0
  let mine (j : Nat) : Bool := valid s j && leNat (peekHome s (at_ j + 0x10) 1) == h.id.hidx
  let j := firstBelow count mine
  if j ≥ count then s
  else
    let m : InboxMsg := { w0 := BitVec.ofNat 64 (leNat (peekHome s (at_ j) 8)), w1 := BitVec.ofNat 64 (leNat (peekHome s (at_ j + 8) 8)),
                          scope := leNat (peekHome s (at_ j + 0x12) 1), reserved := false }
    let a := h.id.asid
    let s := ctxWrite s a (at_ j + 0x11) [0]
    let n := firstBelow count (valid s)
    let s := ctxWrite s a (divBase rec) (leBytes 4 ((head - 1 + n) % 2047 + 1))
    let s := ctxWrite s a (divBase rec + 8) (leBytes 4 (count - n))
    updHart s k fun h => { h with msg := { h.msg with inbox := h.msg.inbox ++ [m], divRecs := h.msg.divRecs - 1 } }

def execDiversionRefill (h : Nat) (s : State) : Host.Outcome State Fault Refusal :=
  stepOf <| match hartAt s h with
    | none => s
    | some hh =>
      match teamOf s hh with
      | none => s
      | some t =>
        if hh.msg.inbox.length < 16 && hh.msg.divRecs > 0 && hh.capture.isNone && homeFree s (divBase t.recPa) 0x10000 then
          (if lostRead s (divBase t.recPa) 0x10000 then contextFault s t.asid 3 else refill s h hh t.recPa)
        else s

/-- HANDLER_MESSAGE_ARRIVAL (R261, R262, R278): the queue of 64 keeps four entries for the system network; a message that finds
no entry waits in the network. -/
def execHandlerMessageArrival (i : Nat) (s : State) : Host.Outcome State Fault Refusal :=
  stepOf <| match s.net.msgs[i]? with
    | none => s
    | some m =>
      let core := coreOfHwhere m.dst
      let hq := (coreAt s core).hq
      if m.kind != .handler || outOfOrder s i m then s
      else if !routersPass s m.tenant (srcCore m) core then
        tenantViolation { s with net := { s.net with msgs := dropAt s.net.msgs i } } m
      else if hq.length ≥ 64 || (m.net != 0 && (hq.filter fun q => q.msg.net != 0).length ≥ 60) then s
      else
        let s := { s with net := { s.net with msgs := dropAt s.net.msgs i } }
        ackMsg (updCore s core fun c => { c with hq := c.hq ++ [{ msg := m, clk := coreClk s core }] }) m 0

/-- A message of a handler queue as a candidate: messages of one class, deadline and level start in arrival order (R278). -/
def msgCand (i : Nat) (m : Msg) : Cand := { key := i, cls := m.cls, dline := m.dline.toNat, level := m.level }

/-- The messages of a handler queue beside message i that may start: their contexts are not held (R421). -/
def handlerRivals (s : State) (hq : List HqEntry) (i : Nat) : List Cand :=
  ((List.range hq.length).filter (· != i)).filterMap fun j => match hq[j]? with
    | some q => if (ctxOf s q.msg.asid).hold then none else some (msgCand j q.msg)
    | none => none

/-- Message i is the one that starts next: Ibex by deadline, Kudu by weighted levels, Oryx by level (R28, R278, R397). -/
def handlerTurn (s : State) (core i : Nat) (m : Msg) : Bool :=
  picksInOrder s (.handler core) (msgCand i m) (handlerRivals s (coreAt s core).hq i)

/-- A captured handler of the core that is still to be restored goes before a message of Kudu or Oryx (R278, R420), unless its context is held or
dead, so that it cannot return. -/
def savedHandlerFirst (s : State) (core : Nat) (m : Msg) : Bool :=
  m.cls != 0 && s.work.saves.any fun p => p.2.hart.id.handler && coreOfSlot p.2.slot == core && !(ctxOf s p.2.hart.id.asid).hold &&
    !ctxDead s p.2.hart.id.asid

/-- The Ibex messages that wait for a slot of the core's handler pool (R278). -/
def ibexWaiting (s : State) (core : Nat) : Nat := ((coreAt s core).hq.filter fun q => q.msg.cls == 0 && !(ctxOf s q.msg.asid).hold).length

/-- The free slots of a core's handler pool, in quadrant and slot order. -/
def freeHandlerSlots (s : State) (core : Nat) : List Nat :=
  ((List.range 256).map (core * 256 + ·)).filter fun k => poolOf s k == .handler && slotFree s k

/-- A handler hart for a message (R27, R279). -/
def handlerHart (uid win : Nat) (m : Msg) : Hart :=
  let id : Ident := { uid := uid, asid := m.asid, tenant := m.tenant, team := 0, grid := 0, hidx := 0, size := 1, teamNo := 0,
                      depth := 0, teams := 0, handler := true, dline := m.dline, cls := m.cls, level := m.level, acct := m.acct,
                      nv := 32, nt := 0, tile0 := [], arev := 0, land := win }
  let h := freshHart id m.entry m.p0 m.p1
  { h with msg := { h.msg with
      origin := BitVec.ofNat 64 (m.src + m.srcTeam * 2 ^ 32 + m.srcIdx * 2 ^ 56), bodyLen := m.body.length, rplAsked := m.rpl,
      rplDue := m.rpl, originRec := BitVec.ofNat 64 m.orec, originUid := m.uid } }

/-- HANDLER_START (R27, R56, R278, R279): a waiting message starts on a free slot: its body fills the landing window, and the
start is an acquire at the message's scope. -/
def startHandler (s : State) (core i k : Nat) (m : Msg) : State :=
  let win := landingWin s k
  let s := updCore s core fun c => { c with hq := dropAt c.hq i, away := tdel c.away k }
  let (uid, s) := freshUid s
  let s := { s with tstore := wrBytes s.tstore (winKey core win 0) (m.body ++ List.replicate (4096 - m.body.length) 0) }
  acquireAt (giveReport (setHart s k (handlerHart uid win m)) k) k (scopeNat m.scope)

def execHandlerStart (core i : Nat) (s : State) : Host.Outcome State Fault Refusal :=
  stepOf <| match (coreAt s core).hq[i]? with
    | none => s
    | some q =>
      match freeHandlerSlots s core with
      | [] => s
      | k :: _ =>
        if ctxDead s q.msg.asid then updCore s core fun c => { c with hq := dropAt c.hq i }
        else if !handlerTurn s core i q.msg || savedHandlerFirst s core q.msg || (ctxOf s q.msg.asid).hold then s
        else
          let arbs := (notePick s (.handler core) (msgCand i q.msg) (handlerRivals s (coreAt s core).hq i)).arbs
          startHandler { s with arbs := arbs } core i k q.msg

/-- HANDLER_CAPTURE_TIMEOUT (R278): an Ibex message that has found every slot of the pool held by lower-class handlers for 256 clk
captures the most recently started of them. -/
def execHandlerCaptureTimeout (core : Nat) (s : State) : Host.Outcome State Fault Refusal :=
  stepOf <|
    let pool := s.harts.filter fun p => coreOfSlot p.1 == core && p.2.id.handler
    let waits := (coreAt s core).hq.any fun q => q.msg.cls == 0 && q.clk + 256 ≤ coreClk s core
    let last := pool.foldl (fun a p => max a p.2.id.uid) 0
    if !waits || !(freeHandlerSlots s core).isEmpty || pool.any (fun p => p.2.id.cls == 0 || p.2.capture.isSome) then s
    else updUid s last fun h => { h with capture := some s.clock.clk }

/-- A store-conditional that cannot perform (R283, R297): it writes nothing, and the hart's reservation goes. -/
def failSc (s : State) (a : WinAcc) : List Byte × State :=
  (leBytes a.size 1, updUid (delResv s a.uid) a.uid fun h => { h with resv := none })

/-- What a window access does at its holding core (R282): the answer's bytes. A tile is only read (R52). -/
def performWin (s : State) (a : WinAcc) : List Byte × State :=
  match a.op with
  | .load => (if a.win ≥ tileBase then readTile s a.core (a.win - tileBase) a.off a.size else readWin s a.core a.win a.off a.size, s)
  | .store => ([], writeWin s a.core a.win a.off a.uid a.data)
  | .amo op sg v cmp =>
    let r := amoWin s a.core a.win a.off a.uid a.size op sg v cmp
    (leBytes a.size r.1, r.2)
  | .floatAdd fmt v =>
    let old := leNat (readWin s a.core a.win a.off a.size)
    (leBytes a.size old, writeWin s a.core a.win a.off a.uid (leBytes a.size (floatAdd fmt old v)))
  | .lr => (readWin s a.core a.win a.off a.size, reserve s a.uid (winLine a.core a.win a.off) (.store a.core))
  | .sc =>
    let line := winLine a.core a.win a.off
    let held := (tgetD s.mem.resvStore a.core []).any fun r => r.uid == a.uid && r.line == line
    let s := updUid (delResv s a.uid) a.uid fun h => { h with resv := none }
    let s := if held then writeWin s a.core a.win a.off a.uid a.data else s
    (leBytes a.size (b2n (!held)), s)

/-- WINDOW_ACCESS_ARRIVAL (R261, R262, R282, R283): a router whose membership check fails discards the access and its context meets a tenant
violation; the holding core performs the access, refuses it, or says that the window has moved;
an SC that cannot perform fails. An access to a window that is loading waits. -/
def execWindowAccessArrival (i : Nat) (s : State) : Host.Outcome State Fault Refusal :=
  stepOf <| match s.net.wins[i]? with
    | none => s
    | some a =>
      if (s.net.wins.take i).any fun x => x.uid == a.uid && x.core == a.core then s
      else if !routersPass s a.tenant (some (match slotAny s (a.uid % 2 ^ 60) with
          | some k => coreOfSlot k
          | none => a.core)) a.core then
        contextFault { s with net := { s.net with wins := dropAt s.net.wins i } } a.asid 4
      else
        let answer (s : State) (r : WinAns) : State :=
          { s with net := { s.net with wins := dropAt s.net.wins i, winReps := s.net.winReps ++ [⟨a, r⟩] } }
        let refused (r : WinAns) : State := if a.op = .sc then answer (failSc s a).2 (.data (failSc s a).1) else answer s r
        match accState s a with
        | .open_ => let r := performWin s a; answer r.2 (.data r.1)
        | .loading => s
        | .closed => refused .closed
        | .moved => refused .moved

/-- A register a reply fills: an x register, or from 32 up a tm register. -/
def putDest (h : Hart) (dest : Nat) (bs : List Byte) (sx : Bool) : Hart :=
  if dest < 32 then wx h (BitVec.ofNat 5 dest) (BitVec.ofNat 64 (widen64 sx bs.length (leNat bs)))
  else wtm h (BitVec.ofNat 3 (dest - 32)) (BitVec.ofNat 1024 (leNat bs))
where
  /-- Sign extension of n bytes to 64 bits. -/
  widen64 (sx : Bool) (n v : Nat) : Nat := if sx then wrapTo 64 (valOf true (8 * n) v) else v

/-- The acquire that an answer completes, if it does (R47, R51). -/
def acqIf (s : State) (k : Nat) (acq : Option Scope) : State := match acq with
  | some sc => acquireAt s k sc
  | none => s

/-- Data for a scalar access of a hart: a load that waits completes, an atomic's register is written, and the instruction is counted
in instret (R107); for a saved hart the register
is its record's also (R139, R282). -/
def scalarData (s : State) (uid id : Nat) (bs : List Byte) (sx : Bool) : State :=
  match slotOfUid s uid with
  | some k =>
    (match hartAt s k with
     | none => s
     | some h =>
       match h.wait, h.pend with
       | some (.window w dest), _ =>
         if w = id then acqIf (setHart s k (adv s k (putDest { h with wait := none } (dest % 64) bs sx) 4)) k (if dest ≥ 64 then some .device else none) else s
       | _, some p => if p.id = id then acqIf (setHart s k { putDest (retire s k h) p.reg.toNat bs sx with pend := none, parts := [] }) k p.acq else s
       | _, _ => s)
  | none => match tget s.work.saves uid with
    | none => s
    | some z => match z.hart.pend with
      | none => s
      | some p =>
        if p.id ≠ id then s
        else answerHart s uid fun h => { putDest (retire s z.slot h) p.reg.toNat bs sx with pend := none, parts := [] }

/-- A scalar access refused: the precise exception at its instruction (R282, R283, R295). A saved hart runs it again. -/
def scalarRefused (s : State) (uid id cause : Nat) (va : Word) : State :=
  match slotOfUid s uid with
  | some k =>
    (match hartAt s k with
     | none => s
     | some h =>
       match h.wait, h.pend with
       | some (.window w _), _ => if w = id then trapAt s k { h with wait := none } cause va else s
       | _, some p => if p.id = id then trapAt s k { h with pend := none, pc := p.pc } cause va else s
       | _, _ => s)
  | none => match tget s.work.saves uid with
    | none => s
    | some z => match z.hart.pend with
      | none => s
      | some p =>
        if p.id ≠ id then s
        else answerHart s uid fun h => { h with pend := none, parts := [], pc := p.pc }

/-- lfcause of a scalar access that the host failed: CODE set, ENGINE 0 (R366). -/
def setLfCode (s : State) (uid code : Nat) : State := updUid s uid fun h => { h with l := { h.l with lfcode := code, lfengine := 0 } }

/-- Every part of a load whose reply is outstanding has come (R136, R139): the register is written, or the first part that failed makes it
trap. -/
def partsAnswer (s : State) (uid : Nat) (sx : Bool) : State :=
  match hartOfUid s uid with
  | none => s
  | some h =>
    match h.pend with
    | none => s
    | some p =>
      if h.parts.isEmpty || h.parts.any (fun q => q.got.isNone) then s
      else match h.parts.find? fun q => q.got.any fun g => g.1 != 0 with
        | some q =>
          let code := (q.got.map (·.1)).getD 0
          scalarRefused (if (slotOfUid s uid).isSome && code != 0x0201 then setLfCode s uid code else s) uid p.id 5 (BitVec.ofNat 64 q.va)
        | none => scalarData s uid p.id (h.parts.flatMap fun q => (q.got.map (·.2)).getD []) sx

/-- A copy's or a message body's piece that has come, or failed (R217, R218, R267); from sequence number 2^16 on, the part
of a scalar access that a request was for. -/
def pieceAnswer (s : State) (uid seq idx code : Nat) (bs : List Byte) : State :=
  if seq ≥ 2 ^ 16 then
    partsAnswer (updUid s uid fun h => { h with parts := h.parts.map fun p => if p.id = idx then { p with got := some (code, bs) } else p }) uid (seq % 2 == 1)
  else pieceCame s uid seq idx code bs

/-- An answer delivered (R139, R166, R172, R217, R282). -/
def deliverWin (s : State) (a : WinAcc) (bs : List Byte) : State :=
  match a.reply with
  | .xreg uid id => scalarData s uid id bs a.sx
  | .copy uid seq idx => pieceAnswer s uid seq idx 0 bs
  | .copyWrite uid seq bit _ => copyWrote s uid seq bit a.size true
  | .lane uid seq l =>
    (match a.op with
     | .load => laneData s uid seq l bs
     | .store => answerHart s uid fun h => laneStored h seq l false
     | _ => updMem s fun m => { m with replies := m.replies ++ [⟨a.reply, BitVec.ofNat 64 (leNat bs), false⟩] })
  | _ => s

/-- A refusal delivered (R217, R283, R284). -/
def refuseWin (s : State) (a : WinAcc) : State :=
  match a.reply with
  | .xreg uid id => scalarRefused s uid id (match a.op with
      | .load | .lr => 5
      | _ => 7) a.va
  | .copy uid seq idx => pieceAnswer s uid seq idx 0x0201 []
  | .copyWrite uid seq bit _ => copyWrote s uid seq bit a.size false
  | .lane uid seq l =>
    (match a.op with
     | .load => laneFault s uid seq l 0x0201
     | .store => answerHart s uid fun h => laneStored h seq l true
     | _ => updMem s fun m => { m with replies := m.replies ++ [⟨a.reply, 0x0201, true⟩] })
  | _ => if a.op = .store then answerHart s a.uid fun h => countDrop h 1 else s

/-- A redirected access made in HBM, in the image of the window (R283): a store as a request a line, an LR with its reservation at the home (R297). -/
def movedHbm (s : State) (a : WinAcc) (k pa : Nat) (cached : Bool) : Option State :=
  let req (s : State) (pa : Nat) (kind : ReqKind) (data : List Byte) (r : ReplyTo) : State :=
    let (id, s) := freshUid s
    pushReq s { id := id, die := dieOfSlot k, core := coreOfSlot k, uid := a.uid, asid := a.asid, pa := pa, kind := kind,
                data := data, reply := r, sx := a.sx, deps := [] }
  match a.op with
  | .load => (readHbm s (dieOfSlot k) a.uid pa a.size cached).map fun r => deliverWin r.2.2 a r.1
  | .lr => (readHome s pa a.size).map fun r => deliverWin (reserve r.2 a.uid (lineOf pa) (.home (homeOf pa))) a r.1
  | .store => some (deliverWin ((splitLines pa a.data).foldl (fun s p => req s p.1 (if cached then .store else .homeWrite) p.2 .none) s) a [])
  | .amo op sg v cmp => (match a.reply with
      | .copyWrite _ _ _ _ => some (deliverWin (req s pa (.auAtomic op a.size sg v cmp) [] .none) a [])
      | r => some (req s pa (.auAtomic op a.size sg v cmp) [] r))
  | .floatAdd fmt v => some (deliverWin (req s pa (.auFloatAdd fmt v) [] .none) a [])
  | .sc => some (deliverWin s a (leBytes a.size 1))

/-- Accesses of one issuer that met MOVED at a core are sent again in the order in which they met it: lanes in ascending order, instructions in program
order (R45, R167, R172). -/
def movedFirst (s : State) (i : Nat) (a : WinAcc) : Bool :=
  (s.net.winReps.take i).any fun r => r.acc.uid == a.uid && r.acc.core == a.core && r.ans == .moved

/-- MOVED (R283): the address is translated again and the access goes where the new translation names; a fault then kills the
context. -/
def redirect (s : State) (i : Nat) (a : WinAcc) : State :=
  let uid := a.uid % 2 ^ 60
  match slotAny s uid with
  | none => { s with net := { s.net with winReps := dropAt s.net.winReps i } }
  | some k =>
    let h := hartOfUid s uid
    let st := match h with
      | some h => h.s.mstatus
      | none => 0
    let acc : Acc := match a.op with
      | .load | .lr => .load
      | .store | .sc => .store
      | _ => .amo
    let out (s : State) : State := { s with net := { s.net with winReps := dropAt s.net.winReps i } }
    match xlate s (dieOfSlot k) a.asid (ctxOf s a.asid).satp a.va acc a.mode (wbit st msSUM) (wbit st msMXR) none with
    | (.wait, s) => s
    | (.fault _, s) => contextFault (out s) a.asid 7
    | (.ok (.hbm pa c), s) => (match movedHbm (out s) a k pa c with
        | some s => s
        | none => lostFault s a.asid pa a.size)
    | (.ok (.win core w off), s) =>
      let s := out s
      { s with net := { s.net with wins := s.net.wins ++ [{ a with core := core, win := w, off := off }] } }
    | (.ok _, s) => contextFault (out s) a.asid 7

/-- A `cpmc` write whose team has moved goes where the team now lies: its record while it is saved, its new windows after (R220, R283). -/
def redirectMc (s : State) (i : Nat) (a : WinAcc) (uid seq bit off : Nat) : State :=
  let out : State := { s with net := { s.net with winReps := dropAt s.net.winReps i } }
  match mcDest ((hartOfUid s uid).bind fun h => (mcTeam s h (bit - 1)).map (·.2)) off with
  | .closed => copyWrote out uid seq bit a.size false
  | .image pa => copyWrote (imageWrite out (match slotAny s uid with
      | some k => coreOfSlot k
      | none => 0) uid a.asid pa a.data) uid seq bit a.size true
  | .win core w off => { out with net := { out.net with wins := out.net.wins ++ [{ a with core := core, win := w, off := off }] } }

/-- WINDOW_REPLY (R282 to R284): data, an acknowledgement, a refusal, or a redirection reaches the issuing engine. -/
def execWindowReply (i : Nat) (s : State) : Host.Outcome State Fault Refusal :=
  stepOf <| match s.net.winReps[i]? with
    | none => s
    | some r =>
      let out (s : State) : State := { s with net := { s.net with winReps := dropAt s.net.winReps i } }
      match r.ans with
      | .data bs => deliverWin (out s) r.acc bs
      | .ok => out s
      | .closed => refuseWin (out s) r.acc
      | .moved => if movedFirst s i r.acc then s else (match r.acc.reply with
          | .copyWrite uid seq bit off => if bit = 0 then redirect s i r.acc else redirectMc s i r.acc uid seq bit off
          | _ => redirect s i r.acc)

end Sys2Proof.Machine
end

