-- ==== Sys2Proof/Machine/Place.lean ====
section
/-! DEFINITION. Placement (R20 to R24, R40, R350, R399): whether a team fits a core, what it claims there, its record in the
context's save area, its account, and its launch message. -/

namespace Sys2Proof.Machine

/-- A team holds resources of its core. -/
def holdsCore (t : Team) : Bool := t.stat != .saved && t.stat != .ended

/-- A team holds slots in which no hart stands: it has claimed them, or its harts are being saved. -/
def claimedOnly (t : Team) : Bool := t.stat == .placed || t.stat == .restoring || t.stat == .saving

/-- The grid of a team. -/
def gridOf (s : State) (t : Team) : Option Grid := tget s.work.grids t.grid

/-- The teams that hold resources of a core, with their grids. -/
def teamsOn (s : State) (core : Nat) : List (Team × Grid) :=
  s.work.teams.filterMap fun p => if p.2.core = core ∧ holdsCore p.2 then (gridOf s p.2).map fun g => (p.2, g) else none

/-- Vector registers in use in a quadrant by Ibex teams, or by the others (R22, R398). -/
def regsUsed (s : State) (core quad : Nat) (ibex : Bool) : Nat :=
  (s.harts.foldl (fun a p =>
    if coreOfSlot p.1 = core ∧ quadOfSlot p.1 = quad ∧ !p.2.id.handler ∧ (p.2.id.cls == 0) == ibex then a + p.2.id.nv else a) 0) +
  ((teamsOn s core).foldl (fun a p =>
    if claimedOnly p.1 ∧ (p.2.cls == 0) == ibex then a + (p.1.slots.filter fun k => quadOfSlot k == quad).length * p.2.spec.vregs else a) 0)

/-- The class of the team that vacated a window is Ibex. -/
def vacIbex (s : State) (tk : Nat) : Bool :=
  match tget s.work.teams tk with
  | some t => (match gridOf s t with
      | some g => g.cls == 0
      | none => false)
  | none => false

/-- Windows and tiles in use on a core by Ibex teams, or by the others; a vacated window still counts (R419). -/
def winsUsed (s : State) (core : Nat) (ibex : Bool) : Nat :=
  ((teamsOn s core).foldl (fun a p => if (p.2.cls == 0) == ibex then a + p.1.wins.length else a) 0) +
  ((coreAt s core).winVac.filter fun v => vacIbex s v.2.1 == ibex).length
def tilesUsed (s : State) (core : Nat) (ibex : Bool) : Nat :=
  (teamsOn s core).foldl (fun a p => if (p.2.cls == 0) == ibex then a + p.1.tiles.length else a) 0

/-- A need fits a resource of which Ibex work alone may use the reserve (R20, R399). -/
def roomFor (total reserve usedI usedG need : Nat) (ibex : Bool) : Bool :=
  if ibex then usedI + usedG + need ≤ total else usedG + (usedI - reserve) + need ≤ total - reserve

/-- The n lowest numbers below a bound that are free; none when there are not as many. -/
def lowestFree (bound n : Nat) (free : Nat → Bool) : Option (List Nat) :=
  let l := ((List.range bound).filter free).take n
  if l.length = n then some l else none

/-- The away directory of the context does not keep a slot for another team (R22, R274). -/
def awayAllows (s : State) (asid slot : Nat) (own : Option Team) : Bool :=
  match awayDir s asid slot with
  | none => true
  | some a => (match own with
      | some t => a.teamNo == t.idx && (a.run || a.whereTo == t.recPa)
      | none => false)

/-- Slots for hart indexes, in their quadrants: for Ibex the reserve first, then the general pool (R22, R399). -/
def chooseSlots (s : State) (core asid : Nat) (ibex : Bool) (own : Option Team) : List Nat → List Nat → Option (List Nat)
  | [], acc => some acc
  | i :: is, acc =>
    let base := core * 256 + i % 4 * 64
    let ok (pool : Pool) (k : Nat) : Bool := poolOf s k == pool && slotFree s k && !acc.contains k && awayAllows s asid k own
    let pick (pool : Pool) : Option Nat := ((List.range 64).map (base + ·)).find? (ok pool)
    match (if ibex then (pick .reserve).or (pick .general) else pick .general) with
    | none => none
    | some k => chooseSlots s core asid ibex own is (acc ++ [k])

/-- What a team claims on a core: slots, windows and tiles. -/
structure Claim where
  core : Nat
  slots : List Nat
  wins : List Nat
  tiles : List Nat
deriving DecidableEq, Repr

/-- The fit of R22 and R399 for the harts idxs of a team of grid g, and what it would claim. -/
def planTeam (s : State) (core : Nat) (g : Grid) (idxs : List Nat) (own : Option Team) : Option Claim :=
  let r := rsvOf s core
  let ibex := g.cls == 0
  let hs := rsvHslots r
  let quadOk := (List.range 4).all fun q =>
    roomFor (2048 - 32 * hs) (16 * rsvVgr r) (regsUsed s core q true) (regsUsed s core q false)
      ((idxs.filter fun i => i % 4 == q).length * g.spec.vregs) ibex
  let nTiles := g.spec.tiles * g.spec.harts
  let seats := ((teamsOn s core).filter fun p => p.2.cls == 0).length
  let held := teamsOn s core
  if !inTenant s g.tenant core || !dieOnline s (dieOfCore core) || !quadOk || (ibex && seats ≥ rsvSeats r) ||
     !roomFor (192 - 4 * hs) (rsvWin r) (winsUsed s core true) (winsUsed s core false) g.spec.windows ibex ||
     !roomFor 512 (rsvTiles r) (tilesUsed s core true) (tilesUsed s core false) nTiles ibex then none
  else
    match chooseSlots s core g.asid ibex own idxs [],
      lowestFree (192 - 4 * hs) g.spec.windows (fun w => !(held.any fun p => p.1.wins.contains w) && (tget (coreAt s core).winVac w).isNone),
      lowestFree 512 nTiles (fun t => !(held.any fun p => p.1.tiles.contains t)) with
    | some ss, some ws, some ts => some { core := core, slots := ss, wins := ws, tiles := ts }
    | _, _, _ => none

/-- Free slots of a core in the pools that a class may use (R23). -/
def freeSlots (s : State) (core : Nat) (ibex : Bool) : Nat :=
  (((List.range 256).map (core * 256 + ·)).filter fun k => slotFree s k && (poolOf s k == .general || (ibex && poolOf s k == .reserve))).length

/-- The cores that teams of a grid occupy now (R23). -/
def gridCores (s : State) (gk : Nat) : List Nat :=
  ((s.work.teams.filter fun p => p.2.grid == gk && holdsCore p.2).map fun p => p.2.core).eraseDups

/-- The cores on which a team of a grid may be placed: one for a data address, else those of the tenant within the core
limit (R23). -/
def anyCores (s : State) (gk : Nat) (g : Grid) (home : Option Nat) : List Nat :=
  match home with
  | some c => [c]
  | none =>
    let used := gridCores s gk
    if g.spec.cores ≠ 0 ∧ used.length ≥ g.spec.cores then used else tenantCores s g.tenant

/-- The best claim of a team among some cores: the fitting core with the most free slots, then the lowest number (R23). -/
def bestClaimIn (s : State) (g : Grid) (cores : List Nat) (idxs : List Nat) (own : Option Team) : Option Claim :=
  (cores.foldl (fun (b : Option (Claim × Nat)) c =>
    match planTeam s c g idxs own with
    | none => b
    | some cl =>
      let n := freeSlots s c (g.cls == 0)
      match b with
      | some (cl', n') => if n > n' || (n = n' && c < cl'.core) then some (cl, n) else b
      | none => some (cl, n)) none).map (·.1)

/-- Bytes of a team record (R137, R138). -/
def tileRegion (tiles : Nat) : Nat := if tiles = 0 then 0 else (1025 * tiles + 127) / 128 * 128
def recBytes (sp : TeamSpec) : Nat :=
  0x11000 + 4096 * sp.windows + tileRegion (sp.tiles * sp.harts) + sp.harts * (6144 + 256 * sp.vregs)
def recUnits (sp : TeamSpec) : Nat := (recBytes sp + 65535) / 65536

/-- The save area of a context (R332). -/
def saveBase (s : State) (asid : Nat) : Nat := bitsOf (cbWord s asid 0x08) 16 36 * 65536
def saveUnits (s : State) (asid : Nat) : Nat := cbWord s asid 0x10 % 2 ^ 24

/-- The runs of units in use in a context's save area: records of its teams, and of captured handlers (R350, R420). -/
def usedUnits (s : State) (asid : Nat) : List (Nat × Nat) :=
  let base := saveBase s asid
  (s.work.teams.filterMap fun p =>
    if p.2.asid = asid ∧ p.2.stat ≠ .ended then (gridOf s p.2).map fun g => ((p.2.recPa - base) / 65536, recUnits g.spec) else none) ++
  (s.work.saves.filterMap fun p => if p.2.hart.id.handler ∧ p.2.hart.id.asid = asid then some ((p.2.pa - base) / 65536, 1) else none)

/-- First fit from SAVE_BASE: the PA of a run of n free units (R350). -/
def allocRec (s : State) (asid n : Nat) : Option Nat :=
  let used := usedUnits s asid
  let total := saveUnits s asid
  let ok (u : Nat) : Bool := u + n ≤ total && !(used.any fun r => r.1 < u + n && u < r.1 + r.2)
  let starts := 0 :: used.map fun r => r.1 + r.2
  let best := starts.foldl (fun (b : Option Nat) u => if ok u then (match b with
    | some v => some (min u v)
    | none => some u) else b) none
  best.map fun u => saveBase s asid + 65536 * u

/-- The header of a team record with its lists of windows and tiles (R138); reserved bytes are 0 (R137). -/
def recHeader (g : Grid) (t : Team) (core : Nat) : List Byte :=
  leBytes 4 t.idx ++ leBytes 1 g.spec.harts ++ leBytes 1 g.spec.tiles ++ leBytes 2 g.spec.vregs ++ leBytes 2 g.spec.windows ++
  List.replicate 6 0 ++ leBytes 4 g.num ++ leBytes 1 g.depth ++ List.replicate 3 0 ++ leBytes 1 core ++ List.replicate 231 0
def winList (t : Team) : List Byte := (t.wins.flatMap fun w => leBytes 1 w) ++ List.replicate (192 - t.wins.length) 0xFF ++ List.replicate 64 0
def tileList (t : Team) : List Byte := (t.tiles.flatMap fun w => leBytes 2 w) ++ List.replicate (1024 - 2 * t.tiles.length) 0xFF ++
  List.replicate 2304 0
def writeHeader (s : State) (g : Grid) (t : Team) (core : Nat) : State :=
  let s := ctxWrite s t.asid t.recPa (recHeader g t core)
  ctxWrite (ctxWrite s t.asid (t.recPa + 0x200) (winList t)) t.asid (t.recPa + 0x300) (tileList t)

/-- Barriers at a claim. -/
def freshBars : Vector Barrier 16 := Vector.replicate 16 { e := 0, count := 0, p := false, arrived := 0 }

/-- The next grid number of a context, which skips 0 and the numbers of its unretired grids (R350), and NEXTGRID after it. -/
def bumpGrid (s : State) (asid n : Nat) : Nat → Nat
  | 0 => n
  | f + 1 =>
    let n' := (n + 1) % 2 ^ 32
    if n' = 0 || s.work.grids.any (fun p => p.2.asid == asid && !p.2.retired && p.2.num == n') then bumpGrid s asid n' f else n'
def takeGridNum (s : State) (gk : Nat) (g : Grid) : State :=
  if g.num ≠ 0 then s
  else
    let n := cbWord s g.asid 0x18 % 2 ^ 32
    let s := updGrid s gk fun g => { g with num := n }
    ctxWrite s g.asid (ctxBlock s g.asid + 0x18) (leBytes 8 (bumpGrid s g.asid n (s.work.grids.length + 2)))

/-- A team's account (R404): a fresh one for a queue launch, the parent's for a child. -/
def openAcct (s : State) (tk : Nat) (g : Grid) : Nat × State :=
  match g.origin with
  | .team _ => (g.acct, s)
  | .queue _ _ =>
    let (a, s) := freshUid s
    let ac : Acct := { asid := g.asid, team := some tk, units := g.budget, unlimited := g.cls != 0 && g.budget == 2 ^ 40 - 1, carry := 0,
                       graceEnd := none, closed := false }
    (a, { s with work := { s.work with accts := tput s.work.accts a ac } })

/-- A team claims its core (R22, R350): record, number, account, header, and the launch message. -/
def claimTeam (s : State) (gk : Nat) (g : Grid) (cl : Claim) (rec : Nat) : State :=
  let s := takeGridNum s gk g
  let (tk, s) := freshUid s
  let (acct, s) := openAcct s tk g
  let t : Team := { grid := gk, idx := g.nextTeam, asid := g.asid, core := cl.core, slots := cl.slots, wins := cl.wins, tiles := cl.tiles,
                    bars := freshBars, recPa := rec, acct := acct, stat := .placed, hartsLeft := g.spec.harts, order := tk,
                    handOver := false, yieldEnd := none, told := 0, aways := [] }
  let s := { s with work := { s.work with teams := tput s.work.teams tk t }, fe := { s.fe with lmsgs := s.fe.lmsgs ++ [tk] } }
  let s := updGrid s gk fun g => { g with nextTeam := g.nextTeam + 1, liveTeams := g.liveTeams + 1,
                                          placed := g.nextTeam + 1 ≥ g.spec.teams }
  let s := updCore s cl.core fun c => { c with away := c.away.filter fun p => !cl.slots.contains p.1 }
  let s := match tget s.work.grids gk with
    | some g => writeHeader s g t cl.core
    | none => s
  ctxWrite s g.asid (divBase rec) (leBytes 4 1 ++ leBytes 4 1 ++ List.replicate 24 0)

/-- The slice and rights with which the front end translates (R342): the lowest online die, S-mode, SUM set. -/
def feDie (s : State) : Nat := ((List.range 4).find? (dieOnline s)).getD 0
def feXlate (s : State) (asid : Nat) (va : Word) (acc : Acc) : XRes × State :=
  xlate s (feDie s) asid (ctxOf s asid).satp va acc .s true false none

/-- Where a grid's data address sends its teams (R23, R40). -/
inductive HomeRes where
  | any | core (c : Nat) | bad | wait

def dataHome (s : State) (g : Grid) : HomeRes × State :=
  if !g.spec.dataOk then (.any, s)
  else match feXlate s g.asid g.spec.data .load with
    | (.wait, s) => (.wait, s)
    | (.ok (.win c _ _), s) => (if inTenant s g.tenant c then .core c else .bad, s)
    | (.ok (.hbm pa _), s) => (match homedCore s g.tenant pa with
        | some c => .core c
        | none => .bad, s)
    | (_, s) => (.bad, s)

/-- Placement of a grid ends early with a status (R40, R350). -/
def endPlacement (s : State) (gk code : Nat) : State := updGrid s gk fun g => { g with failCode := code, placed := true }

/-- The grid may be placed now: released, its tenant has no commit pending, its context is neither held nor dead, and its block may be read. -/
def mayPlace (s : State) (g : Grid) : Bool :=
  !g.placed && ctxFree s g.asid && !g.retired && !g.killed && g.release == 0 && !(ctxOf s g.asid).hold && !ctxDead s g.asid &&
  s.fe.commit.all fun c => c.1 != g.tenant

/-- The home of a grid as a core, when it is one. -/
def homeCore? : HomeRes → Option Nat
  | .core c => some c
  | _ => none

/-- The indexes of the harts of a saved team. -/
def savedIdxs (s : State) (tk : Nat) : List Nat :=
  (s.work.saves.filter fun p => !p.2.hart.id.handler && p.2.hart.id.team == tk).map fun p => p.2.hart.id.hidx

/-- The claim of a returning team: the core it left, or the best of its tenant, but none of the cores `held` (R417). -/
def returnClaimIn (s : State) (held : List Nat) (tk : Nat) (t : Team) (g : Grid) : Option Claim :=
  let idxs := savedIdxs s tk
  match if held.contains t.core then none else planTeam s t.core g idxs (some t) with
  | some c => some c
  | none => bestClaimIn s g ((anyCores s t.grid g none).filter fun c => !held.contains c) idxs (some t)

/-- The teams that return with a saved team: its gang, or itself (R418). -/
def returnsWith (s : State) (tk : Nat) (t : Team) (g : Grid) : List Nat :=
  if g.spec.gang then (s.work.teams.filter fun p => p.2.grid == t.grid && p.2.stat != .ended).map (·.1) else [tk]

/-- Saved teams all fit now, each beside the claims of those before it (R24, R417, R418). -/
def fitsBack (held : List Nat) (s : State) : List Nat → Bool
  | [] => true
  | tk :: rest =>
    match tget s.work.teams tk with
    | none => false
    | some t => t.stat == .saved && match gridOf s t with
      | none => false
      | some g => match returnClaimIn s held tk t g with
        | none => false
        | some cl =>
          let back (t : Team) : Team := { t with core := cl.core, slots := cl.slots, wins := cl.wins, tiles := cl.tiles, stat := .restoring }
          fitsBack held { s with work := { s.work with teams := tupd s.work.teams tk back } } rest

/-- A claim held on a state, for counting what more would fit. -/
def pretend (s : State) (gk : Nat) (g : Grid) (cl : Claim) : State :=
  let (tk, s) := freshUid s
  let t : Team := { grid := gk, idx := 0, asid := g.asid, core := cl.core, slots := cl.slots, wins := cl.wins, tiles := cl.tiles, bars := freshBars,
                    recPa := 0, acct := 0, stat := .placed, hartsLeft := 0, order := 0, handOver := false, yieldEnd := none, told := 0, aways := [] }
  { s with work := { s.work with teams := tput s.work.teams tk t } }

/-- How many of n more teams of a grid a core takes now. -/
def roomNow (gk : Nat) (g : Grid) (core : Nat) : Nat → State → Nat
  | 0, _ => 0
  | n + 1, s => match planTeam s core g (List.range g.spec.harts) none with
    | some cl => roomNow gk g core n (pretend s gk g cl) + 1
    | none => 0

/-- Cores with their room, the most first, the lower number first among equals. -/
def insertRoom (p : Nat × Nat) : List (Nat × Nat) → List (Nat × Nat)
  | [] => [p]
  | q :: l => if p.1 > q.1 || (p.1 == q.1 && p.2 < q.2) then p :: q :: l else q :: insertRoom p l

/-- The cores that a gang claims: those it may use, or under a limit on cores the ones that take the most of its teams, so that it is placed
whenever some choice of cores takes it whole (R23, R24). -/
def gangCoresIn (s : State) (gk : Nat) (g : Grid) (cs : List Nat) : List Nat :=
  if g.spec.cores = 0 then cs
  else ((cs.foldl (fun l c => insertRoom (roomNow gk g c g.spec.teams s, c) l) []).take g.spec.cores).map (·.2)

/-- Placing n teams of a gang one after another on some cores, on one state; none when one does not fit. -/
def placeTeams (gk : Nat) (cores : List Nat) : Nat → State → Option State
  | 0, s => some s
  | n + 1, s =>
    match tget s.work.grids gk with
    | none => none
    | some g =>
      match bestClaimIn s g cores (List.range g.spec.harts) none, allocRec s g.asid (recUnits g.spec) with
      | some cl, some rec => placeTeams gk cores n (claimTeam s gk g cl rec)
      | _, _ => none

/-- The state as it would be without some teams and with every vacated window returned: the test of R415. -/
def without (s : State) (ts : List Nat) : State :=
  { s with
    harts := s.harts.filter fun p => p.2.id.handler || !ts.contains p.2.id.team,
    cores := s.cores.map fun p => (p.1, { p.2 with winVac := [] }),
    work := { s.work with
      saves := s.work.saves.filter fun p => p.2.hart.id.handler || !ts.contains p.2.hart.id.team,
      teams := s.work.teams.map fun p => if ts.contains p.1 then (p.1, { p.2 with stat := .ended, slots := [] }) else p } }

/-- Teams that are leaving already, and the Kudu and Oryx teams that hold a core. -/
def isLeaving (t : Team) : Bool := t.stat == .capturing || t.stat == .saving || t.yieldEnd.isSome
def leaving (s : State) : List Nat := (s.work.teams.filter fun p => isLeaving p.2).map (·.1)
def lowerTeams (s : State) : List Nat :=
  (s.work.teams.filter fun p => holdsCore p.2 && match gridOf s p.2 with
    | some g => g.cls != 0
    | none => false).map (·.1)

/-- A grid's next team, or its whole gang, fits on some of the cores. -/
def fitsOn (s : State) (gk : Nat) (g : Grid) (cs : List Nat) : Bool :=
  if g.spec.gang then (placeTeams gk (gangCoresIn s gk g cs) g.spec.teams s).isSome
  else (bestClaimIn s g cs (List.range g.spec.harts) none).isSome

/-- Of the cores that Ibex work waits for, those that lower-class teams are leaving, or all before any has been asked to leave. -/
def roomMaking (s : State) (cs : List Nat) : List Nat :=
  let out := cs.filter fun c => s.work.teams.any fun p => p.2.core == c && isLeaving p.2
  if out.isEmpty then cs else out

/-- The cores that an Ibex grid waits for: it fits none, and would with the lower-class teams gone (R415). -/
def gridNeeds (s : State) (gk : Nat) (g : Grid) : List Nat :=
  if g.cls ≠ 0 || !mayPlace s g then [] else
  match (dataHome s g).1 with
  | .wait | .bad => []
  | r =>
    let cs := anyCores s gk g (homeCore? r)
    if fitsOn s gk g cs || !fitsOn (without s (lowerTeams s)) gk g cs then [] else roomMaking s cs

/-- The same for a saved Ibex team that is to return, or its gang. -/
def savedNeeds (s : State) (tk : Nat) (t : Team) (g : Grid) : List Nat :=
  let ts := returnsWith s tk t g
  if g.cls ≠ 0 || t.stat != .saved || (ctxOf s t.asid).hold || fitsBack [] s ts || !fitsBack [] (without s (lowerTeams s)) ts then []
  else roomMaking s (anyCores s t.grid g none)

/-- A grid as a candidate for placement: its queue number decides between Ibex grids of one deadline (R32, R396); a child has none. -/
def gridCand (gk : Nat) (g : Grid) : Cand :=
  { key := match g.origin with
      | .queue q _ => q
      | .team _ => 2 ^ 20 + gk,
    cls := g.cls, dline := g.dline, level := g.level }

/-- An Ibex grid goes before another grid: before any of a lower class, and before an Ibex grid by deadline and queue number (R396). -/
def goesBefore (wk : Nat) (w : Grid) (gk : Nat) (g : Grid) : Bool :=
  w.cls == 0 && (g.cls != 0 || w.dline < g.dline || (w.dline == g.dline && (gridCand wk w).key < (gridCand gk g).key))

/-- The cores that are held for Ibex work which goes before a grid and waits for room on them: the grid takes none of these, but may take another
(R396, R415, R424). -/
def heldCores (s : State) (gk : Nat) (g : Grid) : List Nat :=
  (s.work.grids.flatMap fun p => if p.1 ≠ gk ∧ goesBefore p.1 p.2 gk g then gridNeeds s p.1 p.2 else []) ++
  s.work.teams.flatMap fun p => match gridOf s p.2 with
    | some w => if p.2.grid ≠ gk ∧ goesBefore p.2.grid w gk g then savedNeeds s p.1 p.2 w else []
    | none => []

/-- The cores that a grid may use now. -/
def candidates (s : State) (gk : Nat) (g : Grid) (home : Option Nat) : List Nat :=
  let held := heldCores s gk g
  (anyCores s gk g home).filter fun c => !held.contains c

/-- The best claim of a team on the cores that its grid may use. -/
def bestClaim (s : State) (gk : Nat) (g : Grid) (home : Option Nat) (idxs : List Nat) (own : Option Team) : Option Claim :=
  bestClaimIn s g (candidates s gk g home) idxs own

/-- The claim of a returning team. -/
def returnClaim (s : State) (tk : Nat) (t : Team) (g : Grid) : Option Claim := returnClaimIn s (heldCores s t.grid g) tk t g

/-- A saved team, with its gang, fits now, and its context runs. -/
def couldReturn (s : State) (tk : Nat) (t : Team) (g : Grid) : Bool :=
  t.stat == .saved && !(ctxOf s t.asid).hold && fitsBack (heldCores s t.grid g) s (returnsWith s tk t g)

/-- A saved team of the same class and level, or its whole gang, fits now: it goes first (R417). Ibex work, which R415 never saves, goes by its
deadline alone (R396). -/
def savedFirst (s : State) (g : Grid) : Bool :=
  g.cls != 0 && s.work.teams.any fun p => match gridOf s p.2 with
    | some g' => g'.cls == g.cls && g'.level == g.level && couldReturn s p.1 p.2 g'
    | none => false

/-- The cores that a gang claims now. -/
def gangCores (s : State) (gk : Nat) (g : Grid) (home : Option Nat) : List Nat := gangCoresIn s gk g (candidates s gk g home)

/-- Every team of a gang placed at once, or none (R24). -/
def placeGang (gk : Nat) (home : Option Nat) (n : Nat) (s : State) : Option State :=
  match tget s.work.grids gk with
  | none => none
  | some g => placeTeams gk (gangCores s gk g home) n s

/-- The grid's next team, or its whole gang, fits now. -/
def fitsNow (s : State) (gk : Nat) (g : Grid) : Bool :=
  let home := homeCore? (dataHome s g).1
  if g.spec.gang then (placeGang gk home g.spec.teams s).isSome else (bestClaim s gk g home (List.range g.spec.harts) none).isSome

/-- What waits for placement beside a grid and fits now: other grids, gangs among them, and saved teams (R32, R396, R417). -/
def placeRivals (s : State) (gk : Nat) : List Cand :=
  (s.work.grids.filter fun p => p.1 != gk && mayPlace s p.2 && fitsNow s p.1 p.2).map (fun p => gridCand p.1 p.2) ++
  s.work.teams.filterMap fun p =>
    match gridOf s p.2 with
    | some g => if p.2.grid != gk && couldReturn s p.1 p.2 g then some (gridCand p.2.grid g) else none
    | none => none

/-- Another piece of work is placed before this grid: Ibex by deadline and queue number, Kudu by weighted levels, Oryx by level; grids of one
level go in any order (R32, R396, R397). -/
def outrankedGrid (s : State) (gk : Nat) (g : Grid) : Bool :=
  let me := gridCand gk g
  let rivals := placeRivals s gk
  !rivals.isEmpty && (match pickOf (kuduWeights s) { arbAt s .placement with lasts := [] } (me :: rivals) with
    | some q => !(q.1.cls == me.cls && (if me.cls = 0 then q.1.key == me.key else q.1.level == me.level))
    | none => false)

/-- Placement has served this grid. -/
def notePlaced (s : State) (gk : Nat) (g : Grid) : State := notePick s .placement (gridCand gk g) (placeRivals s gk)

/-- TEAM_PLACEMENT (R23, R40, R350): the next team of a released grid claims the best core, when it fits one. -/
def placeTeam (s : State) (gk : Nat) (g : Grid) : State :=
  match dataHome s g with
  | (.wait, s) => s
  | (.bad, s) => endPlacement s gk 0x15
  | (r, s) =>
    if recUnits g.spec > saveUnits s g.asid then endPlacement s gk 0x16
    else match bestClaim s gk g (homeCore? r) (List.range g.spec.harts) none, allocRec s g.asid (recUnits g.spec) with
      | some cl, some rec => claimTeam (notePlaced s gk g) gk g cl rec
      | _, _ => s

def execTeamPlacement (g : Nat) (s : State) : Host.Outcome State Fault Refusal :=
  stepOf <| match tget s.work.grids g with
    | none => s
    | some gr => if !mayPlace s gr || gr.spec.gang || outrankedGrid s g gr || savedFirst s gr then s else placeTeam s g gr

/-- How many teams of a grid an empty core takes (R24). -/
def coreCapacity (s : State) (core : Nat) (g : Grid) : Nat :=
  let r := rsvOf s core
  let ibex := g.cls == 0
  let hs := rsvHslots r
  let slots := if ibex then 64 - hs else 64 - hs - rsvSlots r
  let regs := 2048 - 32 * hs - (if ibex then 0 else 16 * rsvVgr r)
  let wins := 192 - 4 * hs - (if ibex then 0 else rsvWin r)
  let tiles := 512 - (if ibex then 0 else rsvTiles r)
  let per (a n : Nat) : Nat := if n = 0 then 2 ^ 24 else a / n
  let quads := (List.range 4).map fun q =>
    let n := ((List.range g.spec.harts).filter fun i => i % 4 == q).length
    min (per slots n) (per regs (n * g.spec.vregs))
  let c := (quads ++ [per wins g.spec.windows, per tiles (g.spec.tiles * g.spec.harts)]).foldl min (2 ^ 24)
  if ibex then min c (rsvSeats r) else c

/-- The capacities of the requested cores, the largest first. -/
def insertDesc (n : Nat) : List Nat → List Nat
  | [] => [n]
  | m :: l => if n ≥ m then n :: m :: l else m :: insertDesc n l

/-- The test of R24: all teams of the gang fit the requested cores with no work resident. -/
def gangFits (s : State) (g : Grid) (home : Option Nat) : Bool :=
  let cores := match home with
    | some c => [c]
    | none => (tenantCores s g.tenant).filter fun c => dieOnline s (dieOfCore c)
  let caps := (cores.map fun c => coreCapacity s c g).foldl (fun l n => insertDesc n l) []
  let n := if g.spec.cores = 0 then caps.length else g.spec.cores
  (caps.take n).foldl (· + ·) 0 ≥ g.spec.teams

/-- The core that a gang's data address names now, when it can be told without waiting (R23). -/
def gangHome (s : State) (g : Grid) : Option Nat := homeCore? (dataHome s g).1

/-- The core that a gang's data address names is not known yet: its launch waits for it before it is tested (R24, R349). -/
def gangHomeWaits (s : State) (g : Grid) : Bool :=
  g.spec.gang && (match (dataHome s g).1 with
    | .wait => true
    | _ => false)

/-- The gang cannot fit the cores it asks for (R24): with a data address, the core that the address names; one that names no core is refused at
placement (R40). -/
def gangUnfit (s : State) (g : Grid) : Bool :=
  g.spec.gang && (if g.spec.dataOk then (match gangHome s g with
    | some c => !gangFits s g (some c)
    | none => false) else !gangFits s g none)

/-- GANG_RETEST (R24): a waiting gang claims every team in one step when all fit at once. -/
def execGangRetest (g : Nat) (s : State) : Host.Outcome State Fault Refusal :=
  stepOf <| match tget s.work.grids g with
    | none => s
    | some gr =>
      if !mayPlace s gr || !gr.spec.gang || outrankedGrid s g gr || savedFirst s gr then s
      else match dataHome s gr with
        | (.wait, s) => s
        | (.bad, s) => endPlacement s g 0x15
        | (r, s) =>
          if recUnits gr.spec > saveUnits s gr.asid then endPlacement s g 0x16
          else ((placeGang g (homeCore? r) gr.spec.teams s).map fun t => { t with arbs := (notePlaced s g gr).arbs }).getD s

/-- The names a hart of a team starts with (R104, R105). -/
def hartIdent (uid : Nat) (g : Grid) (tk : Nat) (t : Team) (i : Nat) : Ident :=
  let nt := g.spec.tiles
  { uid := uid, asid := g.asid, tenant := g.tenant, team := tk, grid := g.num, hidx := i, size := g.spec.harts, teamNo := t.idx,
    depth := g.depth, teams := g.spec.teams, handler := false, dline := BitVec.ofNat 64 g.dline, cls := g.cls, level := g.level,
    acct := t.acct, nv := g.spec.vregs, nt := nt, tile0 := (t.tiles.drop (i * nt)).take nt, arev := g.spec.arev, land := 0 }

/-- Tiles blanked with their status (R104). -/
def clearTiles (s : State) (core : Nat) (ts : List Nat) : State :=
  ts.foldl (fun s t => setTileStatus { s with tiles := wrBytes s.tiles (tileKey core t 0) (List.replicate 1024 0) } core t 0) s

/-- The message of a placed team starts its harts (R104, R350). -/
def startTeam (s : State) (tk : Nat) (t : Team) (g : Grid) : State :=
  let s := clearTiles s t.core t.tiles
  let s := (t.slots.zip (List.range t.slots.length)).foldl (fun s p =>
    let (uid, s) := freshUid s
    giveReport (setHart s p.1 (freshHart (hartIdent uid g tk t p.2) g.spec.entry g.spec.p0 g.spec.p1)) p.1) s
  updTeam s tk fun t => { t with stat := .live }

/-- The placed teams that start with a team: its gang's (R24). -/
def startsWith (s : State) (tk : Nat) (t : Team) (g : Grid) : Tbl Team :=
  if g.spec.gang then s.work.teams.filter fun p => p.2.grid == t.grid && p.2.stat == .placed else [(tk, t)]

/-- LAUNCH_MESSAGE: the teams of a gang start together (R24), so that no member runs while another is still to start (R220). -/
def execLaunchMessage (i : Nat) (s : State) : Host.Outcome State Fault Refusal :=
  stepOf <| match s.fe.lmsgs[i]? with
    | none => s
    | some tk =>
      let s := { s with fe := { s.fe with lmsgs := dropAt s.fe.lmsgs i } }
      match tget s.work.teams tk with
      | none => s
      | some t =>
        match gridOf s t with
        | some g => if t.stat == .placed then (startsWith s tk t g).foldl (fun s p => startTeam s p.1 p.2 g) s else s
        | none => s

end Sys2Proof.Machine
end

