-- ==== Sys2Proof/Machine/FrontEnd.lean ====
section
/-! DEFINITION. The command front end (12_command_front_end): queue control blocks, doorbells, commands, indirect buffers,
completion records. HEAD, TAIL, DONE, CRHEAD, STATE and ERRIDX stand in the QCB in memory; the rest is `fe.queues`. -/

namespace Sys2Proof.Machine

/-- The QCB of a queue, when its table entry is VALID (R332). -/
def qcbOf (s : State) (q : Nat) : Option Nat :=
  let e := leNat (peekHome s (reg s 0x8 + 8 * q) 8)
  if q < 1024 ∧ e.testBit 0 then some (bitsOf e 8 44 * 256) else none

/-- A word of a QCB, and it written (R336), on behalf of the context that CFG names. -/
def qW (s : State) (qcb off : Nat) : Nat := leNat (peekHome s (qcb + off) 8)
def setQW (s : State) (qcb off v : Nat) : State := ctxWrite s (bitsOf (qW s qcb 0x10) 18 16) (qcb + off) (leBytes 8 v)

/-- A queue's table entry and QCB may be read at their homes (R289, R355). A step of the queue waits until they may. -/
def qFree (s : State) (q : Nat) : Bool :=
  homeFree s (reg s 0x8 + 8 * q) 8 && (match qcbOf s q with
    | some qcb => homeFree s qcb 256
    | none => true)

/-- The fields of CFG (R336). -/
def qSize (cfg : Nat) : Nat := 2 ^ (bitsOf cfg 0 4 + 4)
def qCls (cfg : Nat) : Nat := bitsOf cfg 4 2
def qLevel (cfg : Nat) : Nat := bitsOf cfg 6 2
def qAsid (cfg : Nat) : Nat := bitsOf cfg 18 16
def qCrSize (cfg : Nat) : Nat := 2 ^ (bitsOf cfg 34 4 + 4)
def qPort (cfg : Nat) : Nat := bitsOf cfg 39 1
def qVecDone (cfg : Nat) : Nat := bitsOf cfg 40 11
def qVecErr (cfg : Nat) : Nat := bitsOf cfg 51 11

/-- The state of a queue (R339): 0 DISABLED, 1 IDLE, 2 READY, 3 HOLD, 4 OVERRUN, 5 ERROR. -/
def qState (s : State) (qcb : Nat) : Nat := qW s qcb 0x40 % 8

/-- The working state of a queue. -/
def blankWait : FeWait := { page := none, noted := none, asks := [], buf := [], err := none, stalled := false }
def blankQueue : FeQueue :=
  { recs := [], cmds := [], ibs := [], placing := none, waiting := false, hd := blankWait, cp := blankWait, lastDl := 0, disabling := false,
    held := false, writing := none }
def queueAt (s : State) (q : Nat) : FeQueue := tgetD s.fe.queues q blankQueue
def updFe (s : State) (f : FrontEnd → FrontEnd) : State := { s with fe := f s.fe }
def updQueue (s : State) (q : Nat) (f : FeQueue → FeQueue) : State :=
  updFe s fun x => { x with queues := tput x.queues q (f (tgetD x.queues q blankQueue)) }

/-- What the head command of a queue, or its running COPY, waits for; and it changed. -/
def waitAt (x : FeQueue) (cp : Bool) : FeWait := if cp then x.cp else x.hd
def updWait (s : State) (q : Nat) (cp : Bool) (f : FeWait → FeWait) : State :=
  updQueue s q fun x => if cp then { x with cp := f x.cp } else { x with hd := f x.hd }

/-- STATE written: the state with the IB level of the head command, and REASON on an error (R336). -/
def setQState (s : State) (q qcb st reason : Nat) : State :=
  setQW s qcb 0x40 (st + reason * 2 ^ 8 + (queueAt s q).ibs.length * 2 ^ 16)

/-- DBDROP and OVR of FE_STAT (R331). -/
def feStat : Nat := 0x140
def dbDrop (s : State) : State := bumpField s feStat 0 16 1

/-- A dispatched command has finished (R341). -/
def cmdDone (s : State) (c : FeCmd) : Bool :=
  match c.run with
  | .done => true
  | .reqs ids => ids.all (reqDone s)
  | .host _ => false
  | .copy _ _ _ _ => false
  | .grid g => match tget s.work.grids g with
    | some gr => gr.retired
    | none => true

/-- The status of a finished command: a grid's own (R409). -/
def cmdStatus (s : State) (c : FeCmd) : Nat :=
  match c.run with
  | .grid g => (match tget s.work.grids g with
    | some gr => gr.status
    | none => c.status)
  | _ => c.status

/-- A finished command that did not complete with COMPLETE. -/
def cmdFailed (s : State) (c : FeCmd) : Bool := cmdDone s c && cmdStatus s c != 0

/-- The open buffers of a queue that fetches nothing more are left (R334, R343). Their ring command gets no record, unless one of its
commands has failed, whose status it then takes (DEDUCED, log 68). -/
def cutChain (s : State) (q : Nat) : State :=
  updQueue s q fun x =>
    if x.ibs.isEmpty then x
    else
      let bad := match x.recs.getLast? with
        | some r => x.cmds.any fun c => c.ring == r.1 && cmdFailed s c
        | none => false
      { x with ibs := [], recs := if bad then x.recs else x.recs.dropLast }

/-- A TAIL doorbell (R333, R334). One that fails the test while the queue is in ERROR gives OVERRUN as R334 states it, though R339 lists only RESET as
leaving ERROR (DEDUCED, log 130). -/
def doorbellTail (s : State) (q v : Nat) : State :=
  match qcbOf s q with
  | none => dbDrop s
  | some qcb =>
    let st := qState s qcb
    let cfg := qW s qcb 0x10
    let m := 2 ^ 64
    if st = 0 ∨ st = 4 then dbDrop s
    else if (v + m - qW s qcb 0x20) % m > qSize cfg ∨ (v + m - qW s qcb 0x28) % m > qSize cfg then
      let s := setQState (cutChain s q) q qcb 4 0
      let s := bumpField (setQW s qcb 0x48 v) feStat 16 16 1
      raiseVec s (qPort cfg) (qVecErr cfg)
    else
      let s := setQW s qcb 0x28 v
      if st = 1 ∧ v ≠ qW s qcb 0x20 then setQState s q qcb 2 0 else s

/-- A CR_HEAD doorbell (R333). -/
def doorbellCrHead (s : State) (q v : Nat) : State :=
  match qcbOf s q with
  | none => dbDrop s
  | some qcb => if qState s qcb = 0 then dbDrop s else setQW s qcb 0x38 v

/-- The port's earlier posted writes have been acknowledged: what the ordering point waits for before a doorbell (R58, R333).
Ports from 2 up stand for device harts. -/
def pieceOf (port : Nat) (r : ReplyTo) : Bool := match r with
  | .piece p _ => p == port
  | _ => false
def posted (r : InReq) : Bool := match r.kind with
  | .piece _ | .mmio _ _ => true
  | _ => false
def portDrained (s : State) (port : Nat) : Bool :=
  !(s.hp.inq.any fun r => r.port == port && posted r) &&
  !(s.mem.homeq.any fun r => pieceOf port r.reply) && !(s.mem.busy.any fun b => pieceOf port b.req.reply) &&
  !(s.mem.replies.any fun r => pieceOf port r.to_)

/-- DOORBELL_TAIL and DOORBELL_CR_HEAD: a doorbell of a requester performs (R333, R334); after a fatal error none is accepted
(R447). -/
def execDoorbellTail (port q v : Nat) (s : State) : Host.Outcome State Fault Refusal :=
  stepOf (if portDrained s port && !isFatal s && qFree s q then doorbellTail s q (v % 2 ^ 64) else s)
def execDoorbellCrHead (port q v : Nat) (s : State) : Host.Outcome State Fault Refusal :=
  stepOf (if portDrained s port && !isFatal s && qFree s q then doorbellCrHead s q (v % 2 ^ 64) else s)

/-- QSTAT written (R331). -/
def qstat (s : State) (v : Nat) : State := setReg s 0x28 v

/-- A QCB keeps the limits of R336. -/
def qcbOk (s : State) (q qcb : Nat) : Bool :=
  let cfg := qW s qcb 0x10
  let next := qW s qcb 0
  let ring := qW s qcb 8
  let cr := qW s qcb 0x18
  let crHost := cfg.testBit 38
  next % 256 == 0 && next / 2 ^ 52 == 0 && ring % 4096 == 0 && ring + 64 * qSize cfg ≤ hbmEnd && qcb + 256 ≤ hbmEnd && bitsOf cfg 0 4 ≤ 12 && qCls cfg < 3 &&
  (qCls cfg != 0 || qLevel cfg == 0) && bitsOf cfg 8 10 == q && (cbWord s (qAsid cfg) 0).testBit 4 && bitsOf cfg 34 4 ≤ 12 &&
  bitsOf cfg 62 2 == 0 && cr % 4096 == 0 && (crHost || cr + 32 * qCrSize cfg ≤ hbmEnd)

/-- QCTL_ENABLE (R335). -/
def execQctlEnable (q : Nat) (s : State) : Host.Outcome State Fault Refusal :=
  stepOf <| if !qFree s q then s else match qcbOf s q with
    | none => qstat s 1
    | some qcb =>
      if qState s qcb ≠ 0 then qstat s 3
      else if !qcbOk s q qcb then qstat s 2
      else
        let s := updQueue s q fun _ => blankQueue
        qstat (setQState s q qcb (if qW s qcb 0x28 = qW s qcb 0x20 then 1 else 2) 0) 0

/-- ADM_STAT (R402, R422). -/
def admStat : Nat := schBase + 0x18
def setAdmUsed (s : State) : State := setReg s admStat (setBits (reg s admStat) 0 9 s.sch.adm.length)

/-- A launch that is dropped before it is wholly placed: nothing more of it is placed (R335). -/
def dropLaunch (s : State) (gk : Nat) : State :=
  match tget s.work.grids gk with
  | none => s
  | some g =>
    let s := updGrid s gk fun g => { g with placed := true, spec := { g.spec with teams := g.nextTeam } }
    if g.nextTeam = 0 then
      setAdmUsed { s with work := { s.work with grids := tdel s.work.grids gk }, sch := { s.sch with adm := s.sch.adm.filter fun e => e.grid != gk } }
    else s

/-- The head command of a queue holds it, or a chain of buffers is open. -/
def headOpen (x : FeQueue) : Bool := !x.ibs.isEmpty || x.placing.isSome || x.waiting || x.hd.page.isSome

/-- A COPY of a queue that still moves bytes. -/
def copying (c : FeCmd) : Bool := match c.run with
  | .copy _ _ _ _ => true
  | _ => false

/-- The command is the launch of a grid. -/
def launches (gk : Nat) (c : FeCmd) : Bool := match c.run with
  | .grid g => g == gk
  | _ => false

/-- The head moves past a dispatched command: a buffer's next, or the ring's; buffers that are run out close (R344). In OVERRUN and in ERROR
HEAD and STATE stay (R334, R339, R343). -/
def closeIbs : List (Nat × Nat × Nat) → List (Nat × Nat × Nat)
  | [] => []
  | (a, n, c) :: l => if n + 1 < c then (a, n + 1, c) :: l else closeIbs l

/-- The state that the end of a queue's wait leaves (R339): HOLD while its COPY waits for a page, READY, or IDLE with nothing more to fetch. -/
def freeState (s : State) (q qcb : Nat) : Nat :=
  if (queueAt s q).cp.page.isSome then 3 else if (queueAt s q).ibs.isEmpty && qW s qcb 0x20 == qW s qcb 0x28 then 1 else 2

def advanceHead (s : State) (q qcb : Nat) : State :=
  let x := queueAt s q
  let rest := closeIbs x.ibs
  let s := updQueue s q fun x => { x with ibs := rest, placing := none, waiting := false, hd := blankWait, held := false }
  if qState s qcb = 4 ∨ qState s qcb = 5 then s
  else
    let s := if rest.isEmpty then setQW s qcb 0x20 (qW s qcb 0x20 + 1) else s
    setQState s q qcb (freeState s q qcb) 0

/-- A launch that has been placed lets its queue go on (R24, R345); its command then shows the grid's number. -/
def passPlaced (s : State) (q qcb gk : Nat) (g : Grid) : State :=
  advanceHead (updQueue s q fun x => { x with cmds := x.cmds.map fun c => if launches gk c then { c with info := g.num } else c }) q qcb

/-- A launch at the head that has been wholly placed no longer waits (R335). -/
def settlePlaced (s : State) (q qcb : Nat) : State :=
  match (queueAt s q).placing with
  | none => s
  | some gk => match tget s.work.grids gk with
    | some g => if g.placed then passPlaced s q qcb gk g else s
    | none => s

/-- A queue is disabled (R335): fetching stops; the command that holds the queue is dropped with no record: the head command with its
chain of buffers, and a running COPY that waits for a page. A launch that has been wholly placed holds the queue no more and is kept. HEAD stays at a
head command that is dropped, so that a later ENABLE fetches it again (DESIGN CHOICE, log 128). -/
def disableQueue (s : State) (q qcb : Nat) : State :=
  let s := settlePlaced s q qcb
  let x := queueAt s q
  let s := match x.placing with
    | some g => dropLaunch s g
    | none => s
  let held : Option Nat := if x.cp.page.isSome then (x.cmds.find? copying).map (·.ring) else none
  let head := qW s qcb 0x20
  updQueue s q fun x => { x with
    recs := x.recs.filter fun r => some r.1 != held && !(headOpen x && r.1 == head),
    cmds := x.cmds.filter fun c => !(x.cp.page.isSome && copying c) && !(x.placing.any fun g => launches g c),
    ibs := [], placing := none, waiting := false, hd := blankWait, cp := if x.cp.page.isSome then blankWait else x.cp, disabling := true,
    held := false }

/-- QCTL_DISABLE (R335). -/
def execQctlDisable (q : Nat) (s : State) : Host.Outcome State Fault Refusal :=
  stepOf <| if !qFree s q then s else match qcbOf s q with
    | none => qstat s 3
    | some qcb => if qState s qcb = 0 then qstat s 3 else qstat (disableQueue s q qcb) 0

/-- No command of a queue is outstanding (R335). -/
def noneOutstanding (s : State) (x : FeQueue) : Bool := x.recs.isEmpty && x.cmds.all (cmdDone s)

/-- DISABLE_DONE (R335): every dispatched command has its record. -/
def execDisableDone (q : Nat) (s : State) : Host.Outcome State Fault Refusal :=
  stepOf <| if !qFree s q then s else match qcbOf s q with
    | none => s
    | some qcb =>
      let x := queueAt s q
      if x.disabling && noneOutstanding s x then setQState (updQueue s q fun _ => blankQueue) q qcb 0 0 else s

/-- QCTL_RESET (R335). -/
def execQctlReset (q : Nat) (s : State) : Host.Outcome State Fault Refusal :=
  stepOf <| if !qFree s q then s else match qcbOf s q with
    | none => qstat s 3
    | some qcb =>
      let st := qState s qcb
      if (st = 0 ∨ st = 4 ∨ st = 5) ∧ noneOutstanding s (queueAt s q) then
        let n := reg s 0x18
        let s := setQW (setQW (setQW (setQW s qcb 0x20 n) qcb 0x28 n) qcb 0x30 n) qcb 0x38 n
        qstat (setQState (updQueue s q fun _ => blankQueue) q qcb 0 0) 0
      else qstat s 3

/-- The run list of a class and level (R331). -/
def runList (cfg : Nat) : Nat := if qCls cfg = 0 then 0 else if qCls cfg = 1 then 1 + qLevel cfg else 5 + qLevel cfg

/-- A QCB is reached from a run list's head (R337). -/
def linked (s : State) (qcb : Nat) : Nat → Nat → Bool
  | 0, _ => false
  | f + 1, at_ => at_ != 0 && (at_ == qcb || linked s qcb f (bitsOf (qW s at_ 0) 8 44 * 256))

/-- RL_HEAD and RL_PASS of a run list (R331): a pass is counted. -/
def rlHead (s : State) (l : Nat) : Nat := reg s (0x40 + 8 * l)
def bumpPass (s : State) (l : Nat) : State := setReg s (0xC0 + 8 * l) ((reg s (0xC0 + 8 * l) + 1) % 2 ^ 32)

/-- The QCB of a run list that the walker holds, 0 for none, and since when; and it set (R337). -/
def walkAt (s : State) (l : Nat) : Nat × Nat := tgetD s.fe.walks l (0, 0)
def setWalk (s : State) (l qcb : Nat) : State := updFe s fun x => { x with walks := tput x.walks l (qcb, timeNow s) }

/-- The walker goes on from the QCB that it holds: to NEXT, one read at the home, or out of the list with a pass counted (R337). -/
def walkOn (s : State) (l : Nat) : State :=
  let next := bitsOf (qW s (walkAt s l).1 0) 8 44 * 256
  setWalk (if next = 0 then bumpPass s l else s) l next

/-- A READY queue from which a thread may take the head command (R337): fetching, and held by nothing. One whose last attempt waits for an
answer holds no other up. -/
def takable (s : State) (q qcb : Nat) : Bool :=
  let x := queueAt s q
  let asid := qAsid (qW s qcb 0x10)
  qState s qcb == 2 && !x.disabling && x.placing.isNone && !x.waiting && x.hd.page.isNone && x.cp.page.isNone &&
  !(ctxOf s asid).hold && !ctxDead s asid

/-- A takable queue of the run list at the QCB. -/
def servedAt (s : State) (l qcb : Nat) : Bool :=
  qcb != 0 && s.fe.queues.any fun p => qcbOf s p.1 == some qcb && runList (qW s qcb 0x10) == l && takable s p.1 qcb && !p.2.hd.stalled

/-- RL_PASS_TICK (R337): the walker of run list l enters the list, or goes on from a QCB that has nothing to take; it counts each time it
leaves the list at its end, and each 1 µs in which it holds no QCB of the list. The Ibex thread takes no list order. -/
def execRlPassTick (l : Nat) (s : State) : Host.Outcome State Fault Refusal :=
  stepOf <|
    let w := walkAt s l
    if l ≥ 9 || (w.1 != 0 && !homeFree s w.1 8) then s
    else if w.1 = 0 then
      let due : Bool := timeNow s ≥ w.2 + 1000
      let s := if due then updFe (bumpPass s l) fun x => { x with walks := tput x.walks l (0, w.2 + 1000) } else s
      if rlHead s l = 0 then s else setWalk s l (rlHead s l)
    else if l ≠ 0 && servedAt s l w.1 then s
    else walkOn s l

/-- What a read by the front end gives. -/
inductive FeRead where
  | ok (bs : List Byte) | fault (code : Nat) | wait

/-- An address translated for the head command of a queue or its running COPY (R342): the failure of the page request that it made comes
first, once. -/
def feAccess (s : State) (q : Nat) (cp : Bool) (asid : Nat) (va : Word) (acc : Acc) : XRes × State :=
  match (waitAt (queueAt s q) cp).noted with
  | some n => if n.1 = vpnOf va then (.fault n.2, updWait s q cp fun x => { x with noted := none }) else feXlate s asid va acc
  | none => feXlate s asid va acc

/-- n bytes read for a queue at a virtual address (R342): in HBM at the home, or through a port, whose answers stand until the command or the
chunk that asked for them is done. -/
def feRead (s : State) (q : Nat) (cp : Bool) (asid : Nat) (va : Word) (n : Nat) : FeRead × State :=
  match feAccess s q cp asid va .load with
  | (.wait, s) => (.wait, s)
  | (.fault c, s) => (.fault c, s)
  | (.ok (.hbm pa _), s) =>
    if lostRead s pa n then (.wait, lostFault s asid pa n)
    else if homeFree s pa n then (.ok (peekHome s pa n), fillAll s 4 pa n) else (.wait, s)
  | (.ok (.host port a addr), s) =>
    let x := waitAt (queueAt s q) cp
    (match x.err.filter (·.1 == va.toNat), x.buf.find? fun b => b.1 == va.toNat with
     | some c, _ => (.fault c.2, updWait s q cp fun x => { x with err := none, asks := [] })
     | none, some b => (.ok b.2, s)
     | none, none =>
       if x.asks.any fun k => k.2 == va.toNat then (.wait, s)
       else if !hostOpen s port then (.fault 0x0504, s)
       else
         let (id, s) := freshUid s
         let s := hostSend s port a 0 addr n none false (.fe id)
         (.wait, updWait s q cp fun x => { x with asks := x.asks ++ [(id, va.toNat)] }))
  | (.ok _, s) => (.fault 4, s)

/-- A wait for a page ends with the answer that the page has had: its code is kept when it failed. -/
def noteWait (notes : List (Nat × Nat × Nat)) (asid : Nat) (w : FeWait) : FeWait :=
  match w.page with
  | none => w
  | some vpn => match notes.find? fun n => n.1 == asid && n.2.1 == vpn with
    | some n => { w with page := none, noted := if n.2.2 = 0 then none else some (vpn, n.2.2) }
    | none => w

/-- Answers that pages have had reach a queue that waits for them: it leaves HOLD when nothing else holds it, its head command among them (R339,
R342). -/
def takeNote (notes : List (Nat × Nat × Nat)) (s : State) (q : Nat) : State :=
  match qcbOf s q with
  | none => s
  | some qcb =>
    let x := queueAt s q
    let asid := qAsid (qW s qcb 0x10)
    let y := { x with hd := noteWait notes asid x.hd, cp := noteWait notes asid x.cp }
    if y = x then s
    else
      let s := updQueue s q fun _ => y
      if qState s qcb = 3 && y.placing.isNone && !y.waiting && !y.held && y.hd.page.isNone && y.cp.page.isNone then
        setQState s q qcb (freeState s q qcb) 0
      else s
def takeNotes (s : State) : State :=
  if s.fe.queues.any fun p => !qFree s p.1 then s else (s.fe.queues.map (·.1)).foldl (takeNote s.xl.feNotes) (updXl s fun x => { x with feNotes := [] })

/-- A fault of the front end's access (R342): a resolvable one holds the queue, unless OVERRUN or ERROR already does (R339), and asks for the
page; none when it is not one. -/
def feFault (s : State) (q : Nat) (cp : Bool) (qcb asid code : Nat) (va : Word) (r w : Bool) : Option State :=
  if mayPark code && canPark s asid then
    if roomForPage s (feDie s) asid va then
      let s := recordPage s (feDie s) 255 asid va r w true
      let s := updQueue (updWait s q cp fun x => { x with page := some (vpnOf va) }) q fun x => { x with held := cp && x.held }
      some (if qState s qcb = 1 ∨ qState s qcb = 2 then setQState s q qcb 3 0 else s)
    else some s
  else none

/-- The ring command at the head: its index and the index of the command now at the head of a buffer. -/
def ringHead (s : State) (qcb : Nat) : Nat := qW s qcb 0x20

/-- A ring command takes its place among those that await records. -/
def openRec (s : State) (q idx w0 : Nat) : State :=
  updQueue s q fun x => if x.ibs.isEmpty && !(x.recs.any fun r => r.1 == idx) then { x with recs := x.recs ++ [(idx, w0)] } else x

/-- A command dispatched, with what completes it. -/
def dispatchCmd (s : State) (q qcb w0 : Nat) (c : FeCmd) : State :=
  let s := openRec s q c.ring w0
  advanceHead (updQueue s q fun x => { x with cmds := x.cmds ++ [{ c with stop := w0.testBit 9 }] }) q qcb

/-- A command that is complete with a status at once. -/
def finished (idx op status info fcode : Nat) : FeCmd :=
  { ring := idx, op := op, stop := false, run := .done, status := status, reject := 0, info := info, fcode := fcode }

/-- The chain of open buffers is abandoned with a status (R344). -/
def abandonChain (s : State) (q qcb idx status fcode : Nat) : State :=
  let s := updQueue s q fun x => { x with ibs := x.ibs.drop (x.ibs.length - 1) }
  let s := updQueue s q fun x => { x with ibs := x.ibs.map fun b => (b.1, b.2.2, b.2.2), cmds := x.cmds ++ [finished idx 6 status 0 fcode] }
  advanceHead s q qcb

/-- Word k of a command. -/
def cw (bs : List Byte) (k : Nat) : Nat := leNat ((bs.drop (8 * k)).take 8)

/-- A command breaks the limits of R340. -/
def cmdBad (bs : List Byte) : Bool :=
  let w := cw bs
  let op := w 0 % 256
  let zero (k : Nat) : Bool := (List.range (8 - k)).all fun j => w (k + j) == 0
  bitsOf (w 0) 11 21 != 0 ||
  match op with
  | 0 => !zero 1
  | 1 => w 1 % 64 != 0 || w 4 / 2 ^ 40 != 0 || !zero 5
  | 2 => w 1 % 64 != 0 || w 4 / 2 ^ 40 != 0 || !zero 5
  | 3 => w 3 > 2 ^ 40 || !zero 4
  | 4 => w 1 % 8 != 0 || w 3 > 1 || !zero 4
  | 5 => w 1 % 8 != 0 || w 4 > 3 || !zero 5
  | 6 => w 1 % 64 != 0 || w 2 == 0 || w 2 > 65536 || !zero 3
  | 7 => w 1 % 8 != 0 || !zero 2
  | 8 => !zero 1
  | _ => true

/-- A ring command's outcome when it is complete: the status of the first of its commands that did not complete with
COMPLETE, but an abandoned chain's own status (R344). A launch that waits for placement and an open chain are not. -/
def ringDone (s : State) (qcb : Nat) (x : FeQueue) (idx : Nat) : Option FeCmd :=
  let mine := x.cmds.filter fun c => c.ring == idx
  let open_ := idx == ringHead s qcb && (x.placing.isSome || !x.ibs.isEmpty)
  if open_ || !(mine.all (cmdDone s)) then none
  else
    let st (c : FeCmd) : FeCmd := { c with status := cmdStatus s c }
    let done := mine.map st
    match done.find? (fun c => c.op == 6 && c.status != 0 && c.status != 0x11), done.find? (fun c => c.status != 0) with
    | some c, _ => some c
    | _, some c => some c
    | _, none => some (done.headD (finished idx 0 0 0 0))

/-- A complete command with a bad status and STOP, in the ring or in a buffer, or with IB_DEPTH: the queue goes to ERROR, with the ring
command's index and the status (R343, R344). VEC_ERR is raised once that command's record is written (R346, R374). -/
def stopHit (s : State) (q qcb : Nat) : Option (Nat × Nat) :=
  let x := queueAt s q
  match x.recs.findSome? fun r => match ringDone s qcb x r.1 with
    | some c => if c.status ≠ 0 ∧ (r.2.testBit 9 ∨ c.status = 0x14) then some (r.1, c.status) else none
    | none => none with
  | some r => some r
  | none => (x.cmds.find? fun c => c.stop && cmdFailed s c).map fun c => (c.ring, cmdStatus s c)
def enterError (s : State) (q qcb idx status : Nat) : State :=
  setQW (setQState (cutChain s q) q qcb 5 status) qcb 0x48 idx

/-- The queue's HOLD, for its head command (R339). -/
def holdQueue (s : State) (q qcb : Nat) : State :=
  let s := updQueue s q fun x => { x with held := true }
  if qState s qcb = 3 then s else setQState s q qcb 3 0

/-- The read of the command at the head of a queue: in its ring, or in the innermost open buffer (R337, R344). -/
def headRead (s : State) (q qcb : Nat) : FeRead × State :=
  match (queueAt s q).ibs with
  | [] =>
    let pa := qW s qcb 8 + 64 * (ringHead s qcb % qSize (qW s qcb 0x10))
    if lostRead s pa 64 then (.wait, lostFault s (qAsid (qW s qcb 0x10)) pa 64)
    else if homeFree s pa 64 then (.ok (peekHome s pa 64), s) else (.wait, s)
  | (a, n, _) :: _ => feRead s q false (qAsid (qW s qcb 0x10)) (BitVec.ofNat 64 (a + 64 * n)) 64

/-- The deadline by which the Ibex thread ranks a queue (R337): a launch's own at the head, else the queue's last launch's. -/
def headDl (s : State) (q qcb : Nat) : Nat :=
  match (headRead s q qcb).1 with
  | .ok bs => if (cw bs 0 % 256 = 1 ∨ cw bs 0 % 256 = 2) ∧ !cmdBad bs then cw bs 3 else (queueAt s q).lastDl
  | _ => (queueAt s q).lastDl

/-- A queue is linked into the run list of its class and level, or the walker holds its QCB (R337, R338). -/
def walked (s : State) (qcb : Nat) : Bool :=
  let l := runList (qW s qcb 0x10)
  linked s qcb 1025 (rlHead s l) || (walkAt s l).1 == qcb

/-- The Ibex thread takes queue q: no other READY Ibex queue's head has an earlier deadline, or the same one and a lower number (R32, R337). -/
def ibexFirst (s : State) (q qcb : Nat) : Bool :=
  let d := headDl s q qcb
  walked s qcb && s.fe.queues.all fun p => match qcbOf s p.1 with
    | none => true
    | some b => p.1 == q || qCls (qW s b 0x10) != 0 || !takable s p.1 b || p.2.hd.stalled || !walked s b ||
        d < headDl s p.1 b || (d == headDl s p.1 b && q < p.1)

/-- A run list of Kudu or Oryx as a candidate of the general thread, and the other lists at whose QCBs the walker finds something to take. -/
def listCand (l : Nat) : Cand := { key := l, cls := if l < 5 then 1 else 2, dline := 0, level := (l - 1) % 4 }
def listRivals (s : State) (l : Nat) : List Cand :=
  ((List.range 9).filter fun j => j != 0 && j != l && servedAt s j (walkAt s j).1).map listCand

/-- THE TURN OF A READY QUEUE (R28, R337): the Ibex thread ranks by deadline; the general thread takes the QCB that the walker holds, of the
level that the weights choose. -/
def hasTurn (s : State) (q qcb : Nat) : Bool :=
  let l := runList (qW s qcb 0x10)
  if l = 0 then ibexFirst s q qcb
  else (walkAt s l).1 == qcb && picks s .thread (listCand l) (listRivals s l)

/-- The turn is taken: the pick is noted and the walker goes on (R337). -/
def takeTurn (s : State) (qcb : Nat) : State :=
  let l := runList (qW s qcb 0x10)
  if qState s qcb ≠ 2 ∨ l = 0 then s else walkOn (notePick s .thread (listCand l) (listRivals s l)) l

/-- The attempt waits for an answer, and the thread goes on to other queues. -/
def stall (s : State) (q : Nat) : State := updWait s q false fun x => { x with stalled := true }

/-- The front end may take the head command of a queue now: in HOLD, it tries its command again; READY, it needs its turn. -/
def mayTake (s : State) (q qcb : Nat) : Bool :=
  let x := queueAt s q
  let asid := qAsid (qW s qcb 0x10)
  (qState s qcb == 3 || (qState s qcb == 2 && hasTurn s q qcb)) && !x.disabling && x.placing.isNone && !x.waiting && x.hd.page.isNone &&
  x.cp.page.isNone && !(ctxOf s asid).hold && !ctxDead s asid

/-- THE HEAD COMMAND OF A QUEUE (R337 to R345): the queue must be READY with its turn, or in HOLD, and not held by an earlier command, with its QCB
free to read at its home and not lost (R289, R306); room must stand in the completion ring; the command is fetched; AFTER waits. Then a command of opcode op is handed to f with
its ring index, its bytes, its QCB and its ASID. -/
def withHead (q op : Nat) (s : State) (f : State → Nat → List Byte → Nat → Nat → State) : Host.Outcome State Fault Refusal :=
  stepOf <| if !qFree s q then s else match qcbOf s q with
    | none => s
    | some qcb =>
      let s := lostFault (takeNotes s) (qAsid (qW s qcb 0x10)) qcb 256
      let cfg := qW s qcb 0x10
      let asid := qAsid cfg
      let x := queueAt s q
      let idx := ringHead s qcb
      if !mayTake s q qcb then s
      else match stopHit s q qcb with
        | some (i, r) => enterError s q qcb i r
        | none =>
          if x.ibs.isEmpty ∧ idx = qW s qcb 0x28 then s
          else if (idx + 2 ^ 64 - qW s qcb 0x38) % 2 ^ 64 ≥ qCrSize cfg then holdQueue (takeTurn s qcb) q qcb
          else
            match headRead s q qcb with
            | (.wait, s) => stall (takeTurn s qcb) q
            | (.fault c, s) =>
              let c := settleCode s asid c
              let s := takeTurn s qcb
              (match x.ibs with
               | (a, n, _) :: _ => (match feFault s q false qcb asid c (BitVec.ofNat 64 (a + 64 * n)) true false with
                  | some s => s
                  | none => abandonChain s q qcb idx 0x13 c)
               | [] => s)
            | (.ok bs, s') =>
              let w0 := cw bs 0
              if w0 % 256 ≠ op ∧ !(op = 0 ∧ w0 % 256 > 8) then s
              else
                let s := takeTurn s' qcb
                if cmdBad bs then dispatchCmd s q qcb w0 (finished idx (w0 % 256) 0x11 0 0)
                else if w0.testBit 10 ∧ !(x.cmds.all (cmdDone s)) then holdQueue s q qcb
                else f s idx bs qcb asid

/-- NOP: complete at dispatch (R341). -/
def execNop (q : Nat) (s : State) : Host.Outcome State Fault Refusal :=
  withHead q 0 s fun s idx bs qcb _ => dispatchCmd s q qcb (cw bs 0) (finished idx 0 0 0 0)

/-- FRONT_END_FENCE: dispatched once every earlier command has completed with its writes visible (R341). -/
def execFrontEndFence (q : Nat) (s : State) : Host.Outcome State Fault Refusal :=
  withHead q 8 s fun s idx bs qcb _ =>
    if (queueAt s q).cmds.all (cmdDone s) then dispatchCmd s q qcb (cw bs 0) (finished idx 8 0 0 0) else holdQueue s q qcb

/-- IB (R344): the buffer's commands take the IB's place; a buffer that would stand at level 5 fails with IB_DEPTH, and the queue is in ERROR at
once (R343). -/
def execIb (q : Nat) (s : State) : Host.Outcome State Fault Refusal :=
  withHead q 6 s fun s idx bs qcb _ =>
    let x := queueAt s q
    if x.ibs.length ≥ 4 then enterError (abandonChain s q qcb idx 0x14 0) q qcb idx 0x14
    else
      let s := openRec s q idx (cw bs 0)
      let s := updQueue s q fun x => { x with ibs := (cw bs 1, 0, cw bs 2) :: x.ibs, hd := blankWait }
      setQState s q qcb 2 0

/-- Where a command's access goes after translation, or how it fails (R342): resolvable faults hold the queue. -/
inductive FeLoc where
  | at_ (l : Loc) | failed (s : State) | fault (code : Nat)

def feLocate (s : State) (q qcb asid : Nat) (va : Word) (acc : Acc) : FeLoc × State :=
  match feAccess s q false asid va acc with
  | (.wait, s) => (.failed (stall s q), s)
  | (.ok l, s) => (.at_ l, s)
  | (.fault c, s) =>
    let c := settleCode s asid c
    match feFault s q false qcb asid c va (acc != .store) (acc != .load) with
    | some s => (.failed s, s)
    | none => (.fault c, s)

/-- A write of the front end at the home, with the requests that stand for it; what lies past HBM is discarded (R364). -/
def feStore (s : State) (asid pa : Nat) (bs : List Byte) : List Nat × State :=
  ((splitLines pa bs).filter fun p => p.1 < hbmEnd).foldl (fun a p =>
    let (id, s) := freshUid a.2
    (a.1 ++ [id], pushReq s { id := id, die := 4, core := 255, uid := 0, asid := asid, pa := p.1, kind := .homeWrite, data := p.2,
                              reply := .none, sx := false, deps := [] })) ([], s)

/-- A command that waits for requests. -/
def reqCmd (idx op : Nat) (ids : List Nat) : FeCmd := { finished idx op 0 0 0 with run := .reqs ids }

/-- An 8-byte store of SIGNAL or TIMESTAMP (R341, R342). -/
def feWord (s : State) (q qcb asid idx w0 op : Nat) (va : Word) (v : Nat) : State :=
  match feLocate s q qcb asid va .store with
  | (.failed s', _) => s'
  | (.fault c, s) => dispatchCmd s q qcb w0 (finished idx op 0x13 0 c)
  | (.at_ (.hbm pa _), s) => let r := feStore s asid pa (leBytes 8 v); dispatchCmd r.2 q qcb w0 (reqCmd idx op r.1)
  | (.at_ (.host port _ addr), s) =>
    if hostOpen s port then dispatchCmd (hostWrite s addr (leBytes 8 v)) q qcb w0 (finished idx op 0 0 0)
    else dispatchCmd s q qcb w0 (finished idx op 0x13 0 0x0504)
  | (.at_ _, s) => dispatchCmd s q qcb w0 (finished idx op 0x13 0 4)

/-- TIMESTAMP: `time` at dispatch (R341). -/
def execTimestamp (q : Nat) (s : State) : Host.Outcome State Fault Refusal :=
  withHead q 7 s fun s idx bs qcb asid => feWord s q qcb asid idx (cw bs 0) 7 (BitVec.ofNat 64 (cw bs 1)) (timeNow s % 2 ^ 64)

/-- SIGNAL: a store, or an atomic add at the home AU or at the host (R341, R342). -/
def execSignal (q : Nat) (s : State) : Host.Outcome State Fault Refusal :=
  withHead q 4 s fun s idx bs qcb asid =>
    let va : Word := BitVec.ofNat 64 (cw bs 1)
    if cw bs 3 = 0 then feWord s q qcb asid idx (cw bs 0) 4 va (cw bs 2)
    else match feLocate s q qcb asid va .amo with
      | (.failed s', _) => s'
      | (.fault c, s) => dispatchCmd s q qcb (cw bs 0) (finished idx 4 0x13 0 c)
      | (.at_ (.hbm pa _), s) =>
        let (id, s) := freshUid s
        let s := pushReq s { id := id, die := 4, core := 255, uid := 0, asid := asid, pa := pa, kind := .auAtomic 1 8 false (cw bs 2) 0,
                             data := [], reply := .none, sx := false, deps := [] }
        dispatchCmd s q qcb (cw bs 0) (reqCmd idx 4 [id])
      | (.at_ (.host port a addr), s) =>
        if !hostAtomicOk s port 1 then dispatchCmd s q qcb (cw bs 0) (finished idx 4 0x13 0 0x0501)
        else if !hostOpen s port then dispatchCmd s q qcb (cw bs 0) (finished idx 4 0x13 0 0x0504)
        else
          let (id, s) := freshUid s
          let s := hostSend s port a 0 addr 8 (some (1, cw bs 2, 0)) false (.fe id)
          dispatchCmd s q qcb (cw bs 0) { finished idx 4 0 0 0 with run := .host id }
      | (.at_ _, s) => dispatchCmd s q qcb (cw bs 0) (finished idx 4 0x13 0 4)

/-- The condition of a WAIT (R340, R341). -/
def waitHolds (cond m v mask : Nat) : Bool :=
  let x := Nat.land m mask
  match cond with
  | 0 => x == v
  | 1 => x != v
  | 2 => x ≥ v
  | _ => x < v

/-- A read of a WAIT: it completes, or holds the queue (R341). -/
def tryWait (s : State) (q qcb asid idx : Nat) (bs : List Byte) : State :=
  match feRead s q false asid (BitVec.ofNat 64 (cw bs 1)) 8 with
  | (.wait, s) => holdQueue (updQueue s q fun x => { x with waiting := true }) q qcb
  | (.ok d, s) =>
    if waitHolds (cw bs 4) (leNat d) (cw bs 2) (cw bs 3) then dispatchCmd s q qcb (cw bs 0) (finished idx 5 0 0 0)
    else holdQueue (updQueue s q fun x => { x with waiting := true, hd := { x.hd with buf := [] } }) q qcb
  | (.fault c, s) =>
    let c := settleCode s asid c
    match feFault s q false qcb asid c (BitVec.ofNat 64 (cw bs 1)) true false with
    | some s => updQueue s q fun x => { x with waiting := false }
    | none => dispatchCmd s q qcb (cw bs 0) (finished idx 5 0x13 0 c)

/-- WAIT (R341). -/
def execWaitCmd (q : Nat) (s : State) : Host.Outcome State Fault Refusal :=
  withHead q 5 s fun s idx bs qcb asid => tryWait s q qcb asid idx bs

/-- WAIT_POLL: a WAIT that holds its queue reads again (R341). -/
def execWaitPoll (q : Nat) (s : State) : Host.Outcome State Fault Refusal :=
  let clear := updQueue s q fun x => { x with waiting := false }
  if (queueAt s q).waiting && qFree s q && ((qcbOf s q).any (mayTake clear q)) then
    withHead q 5 clear fun s idx bs qcb asid => tryWait s q qcb asid idx bs
  else stepOf s

/-- The bytes of the next chunk of a COPY: to the end of a 4 KiB page of the destination (R218, R221, R341). -/
def feChunk (dst left : Nat) : Nat := min left (4096 - dst % 4096)

/-- A running COPY ends with FAULT, its chunks kept (R342). -/
def failCopy (s : State) (q : Nat) (code : Nat) : State :=
  updQueue s q fun x => { x with cp := blankWait, cmds := updFirst x.cmds copying fun c =>
    { c with run := (match c.run with
        | .copy _ _ _ ids => .reqs ids
        | r => r), status := 0x13, fcode := code } }

/-- The bytes of a piece of a chunk's source: HBM at the home, a window or a tile at its core, or through a port (R217, R342). -/
def feSource (s : State) (q asid : Nat) (va : Word) (n : Nat) : FeRead × State :=
  match feAccess s q true asid va .load with
  | (.ok (.win core w off), s) => (match winState s core w asid with
      | .open_ => .ok (readWin s core w off n)
      | .closed => .fault 0x0201
      | _ => .wait, s)
  | (.ok (.tile core t off), s) => (if tileOpen s core t asid then .ok (readTile s core t off n) else .fault 0x0201, s)
  | (.fault c, s) => (.fault c, s)
  | (_, s) => feRead s q true asid va n

/-- The source of a chunk, read piece by piece to the ends of its 1 KiB units: the first failing piece with its address, else a wait for
answers that are all asked for, else the bytes (R218). -/
def feGather (s : State) (q asid : Nat) (va n : Nat) : Nat → FeRead × Word × State
  | 0 => (.ok [], 0, s)
  | f + 1 =>
    if n = 0 then (.ok [], 0, s)
    else
      let m := min n (1024 - va % 1024)
      match feSource s q asid (BitVec.ofNat 64 va) m with
      | (.fault c, s) => (.fault c, BitVec.ofNat 64 va, s)
      | (r, s) =>
        match r, feGather s q asid (va + m) (n - m) f with
        | .ok a, (.ok b, v, s) => (.ok (a ++ b), v, s)
        | _, (.ok _, v, s) => (.wait, v, s)
        | _, r => r

/-- One chunk of a running COPY: its whole source is read and its destination checked before its writes are handed over (R217, R218, R221,
R341). -/
def copyChunk (s : State) (q qcb asid src dst left : Nat) (ids : List Nat) : State :=
  let n := feChunk dst left
  let dva : Word := BitVec.ofNat 64 dst
  let bad (s : State) (c : Nat) (va : Word) (w : Bool) : State :=
    let c := settleCode s asid c
    match feFault s q true qcb asid c va (!w) w with
    | some s => s
    | none => failCopy s q c
  let move (s : State) (more : List Nat) : State :=
    updQueue s q fun x => { x with cp := blankWait, cmds := updFirst x.cmds copying fun c =>
      { c with run := if n = left then .reqs (ids ++ more) else .copy (src + n) (dst + n) (left - n) (ids ++ more) } }
  match feGather s q asid src n 5 with
  | (.wait, _, s) => s
  | (.fault c, va, s) => bad s c va false
  | (.ok bs, _, s) =>
    match feAccess s q true asid dva .store with
    | (.wait, s) => s
    | (.fault c, s) => bad s c dva true
    | (.ok (.hbm pa _), s) => let r := feStore s asid pa bs; move r.2 r.1
    | (.ok (.host port _ addr), s) => if hostOpen s port then move (hostWrite s addr bs) [] else failCopy s q 0x0504
    | (.ok (.win core w off), s) => (match winState s core w asid with
        | .open_ => move (writeWin s core w off 0 bs) []
        | .closed => move s []
        | _ => s)
    | (.ok _, s) => failCopy s q 4

/-- COPY: the copy unit takes the next chunk of the queue's running COPY, or dispatches the head COPY; its checks are those of the
flat forms, OVERLAP over the whole length (R216, R341). -/
def execCopy (q : Nat) (s : State) : Host.Outcome State Fault Refusal :=
  match (queueAt s q).cmds.find? copying, qcbOf s q with
  | some c, some qcb =>
    stepOf <| if !qFree s q then s else
    let s := takeNotes s
    let asid := qAsid (qW s qcb 0x10)
    (match c.run with
      | .copy src dst left ids => if (queueAt s q).cp.page.isSome || ctxDead s asid then s else copyChunk s q qcb asid src dst left ids
      | _ => s)
  | _, _ =>
    withHead q 3 s fun s idx bs qcb _ =>
      let src := cw bs 1
      let dst := cw bs 2
      let n := cw bs 3
      if n ≠ 0 ∧ src < dst + n ∧ dst < src + n then dispatchCmd s q qcb (cw bs 0) (finished idx 3 0x13 0 0x0304)
      else dispatchCmd s q qcb (cw bs 0) { finished idx 3 0 0 0 with run := if n = 0 then .done else .copy src dst n [] }

/-- Limits of a launch descriptor (R128): the offset of the first bad field. `queue` adds the limits of R348. -/
def descBad (d : List Byte) (queue : Option Bool) : Option Nat :=
  let f (o n : Nat) : Nat := leNat ((d.drop o).take n)
  let flags := f 0xE 2
  if f 0 8 % 128 ≠ 0 then some 0
  else if f 8 1 = 0 ∨ f 8 1 > 64 then some 8
  else if f 9 1 > 16 then some 9
  else if f 0xA 2 < 16 ∨ f 0xA 2 > 256 ∨ f 0xA 2 % 16 ≠ 0 then some 0xA
  else if f 0xC 2 > 192 then some 0xC
  else if (flags / 4 != 0) || (match queue with
    | some g => flags.testBit 0 != g
    | none => false) then some 0xE
  else if f 0x10 4 = 0 ∨ f 0x10 4 ≥ 2 ^ 24 then some 0x10
  else if f 0x14 4 > 192 then some 0x14
  else if queue.isSome ∧ f 0x18 8 ≠ 0 then some 0x18
  else if !flags.testBit 1 ∧ f 0x20 8 ≠ 0 then some 0x20
  else if f 0x38 8 ≠ 0 then some 0x38
  else none

/-- What a descriptor asks for (R128). -/
def specOf (asid : Nat) (d : List Byte) : TeamSpec :=
  let f (o n : Nat) : Nat := leNat ((d.drop o).take n)
  { entry := BitVec.ofNat 64 (f 0 8), harts := f 8 1, tiles := f 9 1, vregs := f 0xA 2, windows := f 0xC 2, teams := f 0x10 4,
    cores := f 0x14 4, gang := (f 0xE 2).testBit 0, dataOk := (f 0xE 2).testBit 1, data := BitVec.ofNat 64 (f 0x20 8),
    p0 := BitVec.ofNat 64 (f 0x28 8), p1 := BitVec.ofNat 64 (f 0x30 8), arev := Config.arev asid (f 0 8) % 2 }

/-- The classes that a tenant may launch (R331, R351). -/
def tenCls (s : State) (t : Nat) : Nat := tgetD s.fe.cls t 7

/-- UCAP (R422). -/
def ucap (s : State) : Nat := regD s schBase 0xC0 % 256

/-- Units left in the accounts of an admission entry's grid, and its teams not yet placed (R401). -/
def admWork (s : State) (e : AdmEntry) : Nat :=
  let opened := match tget s.work.grids e.grid with
    | some g => g.nextTeam
    | none => 0
  let left := s.work.accts.foldl (fun a p => match p.2.team with
    | some tk => (match tget s.work.teams tk with
      | some t => if t.grid = e.grid then a + p.2.units else a
      | none => a)
    | none => a) 0
  (e.teams - opened) * e.b + left

/-- The admission test of R401: a rejection code, or none. -/
def admission (s : State) (tenant r d cores teams b : Nat) : Option Nat :=
  let now := timeNow s
  let res := (tenantCores s tenant).filter fun c => rsvSlots (rsvOf s c) != 0
  let k := res.length
  let seats := rsvSeats (tgetD s.sch.rsv tenant rsvReset)
  let n := if cores = 0 then k else cores
  if k = 0 ∨ k * seats = 0 ∨ n > k ∨ teams > n * seats then some 2
  else if s.sch.adm.length ≥ 256 then some 5
  else
    let sL := max r now
    let wL := teams * b
    let js : List (Nat × Nat × Nat) := (sL, d, wL) :: (s.sch.adm.filter fun e => e.tenant == tenant).map fun e => (max e.r now, e.d, admWork s e)
    let overlap (t1 t2 : Nat) : Bool :=
      (js.foldl (fun a j => if j.1 ≥ t1 ∧ j.2.1 ≤ t2 then a + j.2.2 else a) 0) > ucap s * (k * seats) * 9 * (t2 - t1) / 1280
    if wL > ucap s * n * seats * 9 * (d - sL) / 1280 then some 1
    else if js.any fun x => js.any fun y => y.2.1 > x.1 && overlap x.1 y.2.1 then some 1
    else none

/-- The checks of R349 in order: a rejection code, or none. -/
def launchReject (s : State) (tenant cls level release dl budget : Nat) (g : Grid) : Option Nat :=
  let _ := level
  if !(tenCls s tenant).testBit cls then some 8
  else if budget = 0 then some 4
  else if dl ≤ max (timeNow s) release then some 3
  else match (if cls = 0 then admission s tenant release dl g.spec.cores g.spec.teams budget else none) with
    | some c => some c
    | none => if gangUnfit s g then some 6 else none

/-- The grid that a launch command with a descriptor asks for (R128, R340, R350). -/
def queueGrid (s : State) (q idx qcb asid : Nat) (bs d : List Byte) : Grid :=
  let cfg := qW s qcb 0x10
  { num := 0, asid := asid, tenant := cbWord s asid 0 % 16, origin := .queue q idx, depth := 1, cls := qCls cfg, level := qLevel cfg,
    dline := cw bs 3, acct := 0, spec := specOf asid d, nextTeam := 0, liveTeams := 0, children := 0, overrun := false, missed := false,
    killed := false, failCode := 0, retired := false, status := 0, release := cw bs 2, budget := cw bs 4, placed := false }

/-- A launch accepted (R349, R350, R402): its grid and its command, for Ibex its admission entry, and the queue in HOLD until it has been
placed. -/
def acceptLaunch (s : State) (q idx qcb : Nat) (bs : List Byte) (g : Grid) : State :=
  let (gk, s) := freshUid s
  let s := { s with work := { s.work with grids := tput s.work.grids gk g } }
  let s := if g.cls = 0 then
      let e : AdmEntry := { tenant := g.tenant, r := g.release, d := g.dline, n := g.spec.cores, teams := g.spec.teams, b := g.budget,
                            placed := 0, grid := gk }
      setAdmUsed { s with sch := { s.sch with adm := s.sch.adm ++ [e] } }
    else s
  let w0 := cw bs 0
  let c : FeCmd := { finished idx (w0 % 256) 0 0 0 with run := .grid gk, stop := w0.testBit 9 }
  holdQueue (updQueue (openRec s q idx w0) q fun x => { x with placing := some gk, lastDl := g.dline, cmds := x.cmds ++ [c] }) q qcb

/-- LAUNCH and LAUNCH_GANG (R32, R341, R348 to R350, R400): the descriptor is read and checked, the launch tested, and the grid waits
for its release and its placement, which hold the queue. -/
def launchCmd (gang : Bool) (q : Nat) (s : State) (idx : Nat) (bs : List Byte) (qcb asid : Nat) : State :=
  let w0 := cw bs 0
  let va : Word := BitVec.ofNat 64 (cw bs 1)
  let done (s : State) (st info fc : Nat) : State := dispatchCmd s q qcb w0 (finished idx (w0 % 256) st info fc)
  match feRead s q false asid va 64 with
  | (.wait, s) => stall s q
  | (.fault c, s) =>
    let c := settleCode s asid c
    (match feFault s q false qcb asid c va true false with
     | some s => s
     | none => done s 0x13 0 c)
  | (.ok d, s) =>
    match descBad d (some gang) with
    | some o => done s 0x12 o 0
    | none =>
      let g := queueGrid s q idx qcb asid bs d
      if !ctxFree s asid || gangHomeWaits s g then stall (dataHome s g).2 q
      else if (tenantCores s g.tenant).isEmpty then done s 0x17 0 0
      else match launchReject s g.tenant g.cls g.level g.release g.dline g.budget g with
        | some code =>
          let s := setReg s admStat (setBits (reg s admStat) 16 8 code)
          dispatchCmd s q qcb w0 { finished idx (w0 % 256) 0x10 0 0 with reject := code }
        | none => acceptLaunch s q idx qcb bs g

def execLaunch (q : Nat) (s : State) : Host.Outcome State Fault Refusal := withHead q 1 s (launchCmd false q)
def execLaunchGang (q : Nat) (s : State) : Host.Outcome State Fault Refusal := withHead q 2 s (launchCmd true q)

/-- RELEASE_TIME: a launch held until its release is freed for placement (R32); a launch that has been placed lets its queue go
on (R24, R345), but in OVERRUN and in ERROR it stays where it is (R334, R343). -/
def execReleaseTime (q : Nat) (s : State) : Host.Outcome State Fault Refusal :=
  stepOf <| if !qFree s q then s else match (queueAt s q).placing, qcbOf s q with
    | some gk, some qcb =>
      (match tget s.work.grids gk with
       | none => s
       | some g =>
         if g.placed then passPlaced s q qcb gk g
         else if g.release ≤ timeNow s then updGrid s gk fun g => { g with release := 0 } else s)
    | _, _ => s

/-- COMPLETION_RECORD (R345, R346): the oldest ring command without a record is complete: its record is written, DONE advances,
its vectors are raised; an admission entry is released (R400). VEC_ERR follows the record of a command that puts its queue in ERROR (R343,
R346). An IB's record shows no grid number. -/
def recordBytes (s : State) (cfg idx w0 : Nat) (c : FeCmd) : List Byte :=
  let phase := (idx / qCrSize cfg + 1) % 2
  leBytes 4 (w0 / 2 ^ 32) ++ leBytes 1 (w0 % 256) ++ leBytes 1 c.status ++ leBytes 1 c.reject ++ leBytes 1 phase ++
    leBytes 8 idx ++ leBytes 4 (if w0 % 256 = 6 ∧ c.status ≠ 0x12 then 0 else c.info) ++ leBytes 2 c.fcode ++ leBytes 2 0 ++ leBytes 8 (timeNow s)

/-- What follows a record that is visible: DONE, the admission entry, the grid's end and the vectors. -/
def afterRecord (s0 : State) (q qcb idx w0 : Nat) (c : FeCmd) : State :=
  let s := s0
  let cfg := qW s qcb 0x10
  let s := setQW s qcb 0x30 (idx + 1)
  let mine := (queueAt s q).cmds.filter fun c => c.ring == idx
  let gks := mine.filterMap fun c => match c.run with
    | .grid g => some g
    | _ => none
  let s := setAdmUsed { s with sch := { s.sch with adm := s.sch.adm.filter fun e => !gks.contains e.grid },
                               work := { s.work with grids := gks.foldl (fun t g => tdel t g) s.work.grids,
                                                     teams := s.work.teams.filter fun p => !gks.contains p.2.grid } }
  let s := updQueue s q fun x => { x with recs := x.recs.drop 1, cmds := x.cmds.filter fun c => c.ring != idx, writing := none }
  let s := if w0.testBit 8 then raiseVec s (qPort cfg) (qVecDone cfg) else s
  if c.status ≠ 0 ∧ (w0.testBit 9 ∨ c.status = 0x14 ∨ mine.any fun c => c.stop && cmdFailed s0 c) then raiseVec s (qPort cfg) (qVecErr cfg) else s

/-- The record written: at once, or, when the home must make the write in its turn, as requests whose end the rest awaits (R289, R346, R355, R374). -/
def writeRecord (s : State) (q qcb idx w0 : Nat) (c : FeCmd) : State :=
  let cfg := qW s qcb 0x10
  let asid := qAsid cfg
  let bs := recordBytes s cfg idx w0 c
  let at_ := qW s qcb 0x18 + 32 * (idx % qCrSize cfg)
  match (queueAt s q).writing with
  | some ids => if ids.all (reqDone s) then afterRecord s q qcb idx w0 c else s
  | none =>
    if cfg.testBit 38 then afterRecord (hostWrite s at_ bs) q qcb idx w0 c
    else if (linesOf at_ 32).any (mustQueue s) then
      let r := feStore s asid at_ bs
      updQueue r.2 q fun x => { x with writing := some r.1 }
    else afterRecord (ctxWrite s asid at_ bs) q qcb idx w0 c

def execCompletionRecord (q : Nat) (s : State) : Host.Outcome State Fault Refusal :=
  stepOf <| if !qFree s q then s else match qcbOf s q with
    | none => s
    | some qcb =>
      match (queueAt s q).recs with
      | [] => s
      | (idx, w0) :: _ =>
        match ringDone s qcb (queueAt s q) idx with
        | none => s
        | some c =>
          let st := qState s qcb
          let s := match stopHit s q qcb with
            | some (i, r) => if st ≠ 5 ∧ st ≠ 4 ∧ st ≠ 0 then enterError s q qcb i r else s
            | none => s
          writeRecord s q qcb idx w0 c

/-- The grid that a child launch asks for (R25, R129). -/
def askedGrid (r : GReq) (t : Team) (p : Grid) : Grid :=
  let want := leNat ((r.desc.drop 0x18).take 8)
  { num := 0, asid := t.asid, tenant := p.tenant, origin := .team r.team, depth := p.depth + 1, cls := p.cls, level := p.level,
    dline := if want = 0 then p.dline else min want p.dline, acct := t.acct, spec := specOf t.asid r.desc, nextTeam := 0, liveTeams := 0,
    children := 0, overrun := false, missed := false, killed := false, failCode := 0, retired := false, status := 0, release := 0, budget := 0,
    placed := false }

/-- GLAUNCH_REQUEST (R24, R25, R129): the front end refuses a child, or gives it a number and a grid, once its context block may be read and the
core that a gang's data address names is known. -/
def childGrid (s : State) (r : GReq) (t : Team) (p : Grid) : State :=
  let g := askedGrid r t p
  let zero := match tget s.work.accts t.acct with
    | some a => a.units == 0 && !a.unlimited
    | none => false
  let code : Option Nat :=
    if p.depth ≥ 10 then some 7 else if zero then some 4 else if g.dline ≤ timeNow s then some 3
    else if gangUnfit s g then some 6 else none
  let reply (s : State) (v : Nat) : State :=
    updMem s fun m => { m with replies := m.replies ++ [⟨.xreg r.uid r.id, BitVec.ofNat 64 v, false⟩] }
  match code with
  | some c => reply s (2 ^ 63 + c)
  | none =>
    let (gk, s) := freshUid s
    let s := { s with work := { s.work with grids := tput s.work.grids gk g } }
    let s := takeGridNum s gk g
    let s := updGrid s t.grid fun g => { g with children := g.children + 1 }
    match tget s.work.grids gk with
    | some g => reply s g.num
    | none => s

def execGlaunchRequest (i : Nat) (s : State) : Host.Outcome State Fault Refusal :=
  stepOf <| match s.fe.greqs[i]? with
    | none => s
    | some r =>
      let out (s : State) : State := updFe s fun x => { x with greqs := dropAt x.greqs i }
      match tget s.work.teams r.team with
      | none => out s
      | some t =>
        match gridOf s t with
        | some p =>
          let g := askedGrid r t p
          if !ctxFree s t.asid then s else if gangHomeWaits s g then (dataHome s g).2 else childGrid (out s) r t p
        | none => out s

/-- A tenant's rectangle and reserve are well-formed (R351, R398). -/
def shapeOk (rect rsv : Nat) : Bool :=
  let f (d : Nat) : Nat := bitsOf rect (16 * d) 16
  let en (d : Nat) : Bool := (f d).testBit 12
  let dies := (List.range 4).filter en
  let ok (d : Nat) : Bool := !en d || (bitsOf (f d) 0 3 ≤ bitsOf (f d) 3 3 && bitsOf (f d) 6 3 ≤ bitsOf (f d) 9 3 && bitsOf (f d) 3 3 ≤ 5)
  let together := dies.length ≤ 1 || dies.length == 4 ||
    ((List.range 4).any fun a => (List.range 4).all fun i => en ((a + i) % 4) == decide (i < dies.length))
  (List.range 4).all ok && together &&
  rsvSlots rsv ≤ 32 && 1 ≤ rsvHslots rsv && rsvHslots rsv ≤ 8 && rsvVgr rsv ≤ 128 && rsvWin rsv ≤ 176 && rsvTiles rsv ≤ 512 &&
  1 ≤ rsvSeats rsv && rsvSeats rsv ≤ 32 && bitsOf rsv 6 2 == 0 && bitsOf rsv 13 3 == 0 && rsv / 2 ^ 48 == 0 &&
  rsvWin rsv + 4 * rsvHslots rsv ≤ 192 && 16 * rsvVgr rsv + 32 * rsvHslots rsv ≤ 2048

/-- The pending values of a tenant's registers (R331, R422). -/
def tenRectReg (t : Nat) : Nat := 0x200 + 8 * t
def tenClsReg (t : Nat) : Nat := 0x280 + 8 * t
def rsvReg (t : Nat) : Nat := schBase + 0x100 + 8 * t

/-- A core holds a resident hart or a claimed window of any context of a tenant (R351). -/
def coreBusyFor (s : State) (core tenant : Nat) : Bool :=
  (s.harts.any fun p => coreOfSlot p.1 == core && p.2.id.tenant == tenant) ||
  (teamsOn s core).any fun p => p.2.tenant == tenant && (!p.1.wins.isEmpty || claimedOnly p.1)

/-- TEN_STAT of a commit (R351, R398): 0 OK, 1 OVERLAP, 2 BUSY, 3 SHAPE. -/
def commitResult (s : State) (t : Nat) : Nat :=
  let rect := reg s (tenRectReg t)
  let rsv := regD s (rsvReg t) rsvReset
  let old := tenantCores s t
  let new := (List.range 192).filter (rectHas rect)
  if !shapeOk rect rsv then 3
  else if new.any fun c => (List.range 16).any fun u => u != t && inTenant s u c then 1
  else if old.any (fun c => !new.contains c && coreBusyFor s c t) ||
      (rsv != tgetD s.sch.rsv t rsvReset && old.any fun c => s.harts.any fun p => coreOfSlot p.1 == c) then 2
  else 0

/-- A core of the die holds an Ibex reserve (R399). -/
def dieReserved (s : State) (d : Nat) : Bool := (List.range 48).any fun c => rsvSlots (rsvOf s (48 * d + c)) != 0

/-- A die on which a core holds an Ibex reserve runs at 1.8 GHz (R33, R399). -/
def fullClock (s : State) : State := { s with plat := { s.plat with mhz := s.plat.mhz.filter fun p => !dieReserved s p.1 } }

/-- TENANT_COMMIT: a write of TEN_CTL (R351); PENDING stands while any commit is under way. -/
def execTenantCommit (v : Nat) (s : State) : Host.Outcome State Fault Refusal :=
  stepOf <|
    if !v.testBit 4 then s
    else
      let t := v % 16
      let r := commitResult s t
      if r ≠ 0 then setReg s 0x308 (r + if s.fe.commit.isEmpty then 0 else 4)
      else
        let s := updFe s fun x => { x with rect := tput x.rect t (reg s (tenRectReg t)), cls := tput x.cls t (regD s (tenClsReg t) 7 % 8),
                                           commit := s.fe.commit.filter (·.1 != t) ++ [(t, s.clock.time + 20000)] }
        let s : State := { s with sch := { s.sch with rsv := tput s.sch.rsv t (regD s (rsvReg t) rsvReset) } }
        setReg (fullClock s) 0x308 4

/-- TENANT_COMMIT_DONE: the oldest commit under way ends and its tenant's placement resumes; PENDING clears with the last (R351). -/
def execTenantCommitDone (s : State) : Host.Outcome State Fault Refusal :=
  stepOf <| match s.fe.commit with
    | [] => s
    | _ :: rest => setReg (updFe s fun x => { x with commit := rest }) 0x308 (setBits (reg s 0x308) 2 1 (if rest.isEmpty then 0 else 1))

/-- A patch image keeps its format (R347). -/
def patchOk (img : List Byte) : Bool :=
  let f (o n : Nat) : Nat := leNat ((img.drop o).take n)
  let words := f 8 2
  let ms := f 0xA 2
  f 0 4 == 0x4F524843 && 1 ≤ words && words ≤ 256 && ms ≤ 64 && f 0xC 4 == 0 &&
  ((List.range 64).all fun i => let e := f (0x10 + 4 * i) 4; bitsOf e 20 11 == 0 && (i < ms || !e.testBit 31)) &&
  ((List.range 256).all fun i => f (0x110 + 16 * i + 12) 4 == 0)

/-- PATCH_GO (R347): the image at PATCH_ADDR is checked. -/
def execPatchGo (v : Nat) (s : State) : Host.Outcome State Fault Refusal :=
  stepOf <|
    if v % 2 = 0 || reg s 0x190 = 1 then s
    else
      if !homeFree s (reg s 0x180) 0x1170 then s else
      let img := peekHome s (reg s 0x180) 0x1170
      let ver := leNat ((img.drop 4).take 4)
      if !Config.sigOk img then setReg s 0x190 2
      else if !patchOk img then setReg s 0x190 3
      else if ver ≤ reg s 0x198 then setReg s 0x190 4
      else updFe (setReg s 0x190 1) fun x => { x with patchNext := some (img.take 0x1110) }

/-- PATCH_SWAP: the banks change places at a step boundary (R347). -/
def execPatchSwap (s : State) : Host.Outcome State Fault Refusal :=
  stepOf <| match s.fe.patchNext with
    | none => s
    | some img => setReg (setReg (updFe s fun x => { x with patch := img, patchNext := none }) 0x190 5) 0x198 (leNat ((img.drop 4).take 4))

/-- FE_CLR (R331). -/
def execFeClrDbdrop (s : State) : Host.Outcome State Fault Refusal := stepOf (setReg s feStat (setBits (reg s feStat) 0 16 0))
def execFeClrOvr (s : State) : Host.Outcome State Fault Refusal := stepOf (setReg s feStat (setBits (reg s feStat) 16 16 0))

end Sys2Proof.Machine
end

