-- ==== Sys2Proof/Machine/HartScalar.lean ====
section
/-! DEFINITION. Integer computation and control transfer, multiply and divide, traps by instruction and returns, fences,
waits, and team barriers (R45, R46, R50, R61, R107, R109, R120 to R126, R296). -/

namespace Sys2Proof.Machine

/-- The low 32 bits of a result, sign-extended. -/
def sextW (w : Word) : Word := (w.setWidth 32).signExtend 64

/-- RV64I immediate operations. -/
def aluImmOp (k : ImmKind) (a b : Word) : Word :=
  match k with
  | .addi => a + b
  | .slti => if a.slt b then 1 else 0
  | .sltiu => if a < b then 1 else 0
  | .xori => a ^^^ b
  | .ori => a ||| b
  | .andi => a &&& b

/-- RV64I shifts. -/
def shiftOp (k : ShiftKind) (a : Word) (n : Nat) : Word :=
  match k with
  | .sll => a <<< n
  | .srl => a >>> n
  | .sra => a.sshiftRight n

/-- RV64I 32-bit shifts. -/
def shiftOpW (k : ShiftKind) (a : Word) (n : Nat) : Word :=
  let x : BitVec 32 := a.setWidth 32
  match k with
  | .sll => (x <<< n).signExtend 64
  | .srl => (x >>> n).signExtend 64
  | .sra => (x.sshiftRight n).signExtend 64

/-- RV64I register operations: shift amounts are the low 6 bits. -/
def aluOp (k : AluKind) (a b : Word) : Word :=
  let n := b.toNat % 64
  match k with
  | .add => a + b
  | .sub => a - b
  | .sll => a <<< n
  | .slt => if a.slt b then 1 else 0
  | .sltu => if a < b then 1 else 0
  | .xor => a ^^^ b
  | .srl => a >>> n
  | .sra => a.sshiftRight n
  | .or => a ||| b
  | .and => a &&& b

/-- RV64I 32-bit register operations: shift amounts are the low 5 bits. -/
def aluWOp (k : AluWKind) (a b : Word) : Word :=
  let n := b.toNat % 32
  match k with
  | .addw => sextW (a + b)
  | .subw => sextW (a - b)
  | .sllw => shiftOpW .sll a n
  | .srlw => shiftOpW .srl a n
  | .sraw => shiftOpW .sra a n

/-- Branch conditions. -/
def branchTaken (c : BranchKind) (a b : Word) : Bool :=
  match c with
  | .beq => a == b
  | .bne => a != b
  | .blt => a.slt b
  | .bge => !a.slt b
  | .bltu => a < b
  | .bgeu => !(a < b)

/-- A transfer of control: a target that is not a multiple of 4 raises cause 0 with the target, and nothing else changes
(R61). -/
def transfer (s : State) (k : Nat) (h : Hart) (link : Option (XR × Word)) (target : Word) : State :=
  if target &&& 3 ≠ 0 then trapAt s k h 0 target
  else setHart s k (jumpTo s k (match link with
    | some (rd, w) => wx h rd w
    | none => h) target)

/-- INTEGER_OP (R107): RV64I computation, branches and jumps. -/
def execIntegerOp (op : IntOp) (s : State) : Host.Outcome State Fault Refusal :=
  onHart s (.integerOp op) fun k h =>
    let put (rd : XR) (w : Word) : State := setHart s k (adv s k (wx h rd w) 4)
    match op with
    | .lui rd imm => put rd ((imm ++ (0 : BitVec 12)).signExtend 64)
    | .auipc rd imm => put rd (h.pc + (imm ++ (0 : BitVec 12)).signExtend 64)
    | .jal rd off => transfer s k h (some (rd, h.pc + 4)) (h.pc + off.signExtend 64 * 2)
    | .jalr rd rs1 imm => transfer s k h (some (rd, h.pc + 4)) ((rx h rs1 + imm.signExtend 64) &&& ~~~ 1)
    | .branch c rs1 rs2 off =>
      if branchTaken c (rx h rs1) (rx h rs2) then transfer s k h none (h.pc + off.signExtend 64 * 2)
      else setHart s k (adv s k h 4)
    | .aluImm kd rd rs1 imm => put rd (aluImmOp kd (rx h rs1) (imm.signExtend 64))
    | .shiftImm kd rd rs1 sh => put rd (shiftOp kd (rx h rs1) sh.toNat)
    | .addiw rd rs1 imm => put rd (sextW (rx h rs1 + imm.signExtend 64))
    | .shiftImmW kd rd rs1 sh => put rd (shiftOpW kd (rx h rs1) sh.toNat)
    | .alu kd rd rs1 rs2 => put rd (aluOp kd (rx h rs1) (rx h rs2))
    | .aluW kd rd rs1 rs2 => put rd (aluWOp kd (rx h rs1) (rx h rs2))

/-- The M-extension multiplies. -/
def mulOp (k : MulKind) (a b : Word) : Word :=
  match k with
  | .mul => a * b
  | .mulh => BitVec.ofInt 64 (a.toInt * b.toInt / 2 ^ 64)
  | .mulhsu => BitVec.ofInt 64 (a.toInt * (b.toNat : Int) / 2 ^ 64)
  | .mulhu => BitVec.ofNat 64 (a.toNat * b.toNat / 2 ^ 64)
  | .mulw => sextW (a * b)

/-- Signed quotient and remainder of the M extension for one width: division by zero and overflow as Volume I has them. -/
def sdiv {w : Nat} (a b : BitVec w) : BitVec w := if b = 0 then BitVec.allOnes w else BitVec.ofInt w (Int.tdiv a.toInt b.toInt)
def srem {w : Nat} (a b : BitVec w) : BitVec w := if b = 0 then a else BitVec.ofInt w (Int.tmod a.toInt b.toInt)
def udiv {w : Nat} (a b : BitVec w) : BitVec w := if b = 0 then BitVec.allOnes w else BitVec.ofNat w (a.toNat / b.toNat)
def urem {w : Nat} (a b : BitVec w) : BitVec w := if b = 0 then a else BitVec.ofNat w (a.toNat % b.toNat)

/-- The M-extension divides and remainders. -/
def divOp (k : DivKind) (a b : Word) : Word :=
  let a' : BitVec 32 := a.setWidth 32
  let b' : BitVec 32 := b.setWidth 32
  match k with
  | .div => sdiv a b
  | .divu => udiv a b
  | .rem => srem a b
  | .remu => urem a b
  | .divw => (sdiv a' b').signExtend 64
  | .divuw => (udiv a' b').signExtend 64
  | .remw => (srem a' b').signExtend 64
  | .remuw => (urem a' b').signExtend 64

def execMul (kd : MulKind) (rd rs1 rs2 : XR) (s : State) : Host.Outcome State Fault Refusal :=
  onHart s (.mul kd rd rs1 rs2) fun k h => setHart s k (adv s k (wx h rd (mulOp kd (rx h rs1) (rx h rs2))) 4)

def execDiv (kd : DivKind) (rd rs1 rs2 : XR) (s : State) : Host.Outcome State Fault Refusal :=
  onHart s (.div kd rd rs1 rs2) fun k h => setHart s k (adv s k (wx h rd (divOp kd (rx h rs1) (rx h rs2))) 4)

/-- ECALL: cause 8, 9 or 11 by the mode (R107, R110). -/
def execEcall (s : State) : Host.Outcome State Fault Refusal :=
  onHart s .ecall fun k h => trapAt s k h (match h.mode with
    | .u => 8 | .s => 9 | .m => 11) 0

/-- EBREAK: a debug halt with the pc at the EBREAK when the context's break-halt bit is set, else cause 3 (R107, R141). -/
def execEbreak (s : State) : Host.Outcome State Fault Refusal :=
  onHart s .ebreak fun k h =>
    if breakHalt s h.id.asid then setHart s k { h with halted := true } else trapAt s k h 3 h.pc

/-- MRET: illegal below M-mode (R109, privileged architecture). -/
def execMret (s : State) : Host.Outcome State Fault Refusal :=
  onHart s .mret fun k h =>
    if h.mode ≠ .m then illegal s k h .mret else setHart s k (mretHart (retire s k h) (mcsrOf s k))

/-- SRET: illegal in U-mode, and in S-mode while TSR is set (R109, privileged architecture). -/
def execSret (s : State) : Host.Outcome State Fault Refusal :=
  onHart s .sret fun k h =>
    if h.mode = .u ∨ (h.mode = .s ∧ wbit h.s.mstatus msTSR) then illegal s k h .sret
    else setHart s k (sretHart (retire s k h))

/-- WFI: illegal in U-mode; else it waits until any interrupt is pending (R107). -/
def execWfi (s : State) : Host.Outcome State Fault Refusal :=
  onHart s .wfi fun k h =>
    if h.mode = .u then illegal s k h .wfi
    else if effMip h ≠ 0 then setHart s k (adv s k h 4)
    else setHart s k { h with wait := some .wfi }

/-- PAUSE: the hart is not ready for 64 clk (R107). -/
def execPause (s : State) : Host.Outcome State Fault Refusal :=
  onHart s .pause fun k h => setHart s k { adv s k h 4 with notReady := slotClk s k + 64 }

/-- WRS (R122): no reservation completes it; a full monitor table is a spurious wake that sets WRSFULL; else an entry waits
on the reservation's line, until a clk for the short form. -/
def startWrs (s : State) (k : Nat) (h : Hart) (until_ : Option Nat) : State :=
  match resvOf s h with
  | none => setHart s k (adv s k h 4)
  | some (line, _) =>
    let core := coreOfSlot k
    if (coreAt s core).monitors.length ≥ 64 then setHart s k (adv s k { h with l := { h.l with wrsFull := true } } 4)
    else updCore (setHart s k { h with wait := some (.wrs line until_) }) core fun c => { c with monitors := c.monitors ++ [⟨h.id.uid, line⟩] }

def execWrsNto (s : State) : Host.Outcome State Fault Refusal :=
  onHart s .wrsNto fun k h => startWrs s k h none

def execWrsSto (s : State) : Host.Outcome State Fault Refusal :=
  onHart s .wrsSto fun k h => startWrs s k h (some (slotClk s k + 1800))

/-- A WRS ends: its monitor entry is freed and the pc follows it (R121, R122). -/
def endWrs (s : State) (k : Nat) (h : Hart) : State :=
  updCore (setHart s k (adv s k { h with wait := none } 4)) (coreOfSlot k) fun c =>
    { c with monitors := c.monitors.filter fun m => m.uid != h.id.uid }

/-- MONITOR_WAKE: a wake notice reaches the core of the hart; a WRS on that line ends (R122, R298). -/
def execMonitorWake (h : Nat) (s : State) : Host.Outcome State Fault Refusal :=
  stepOf <| match hartAt s h with
    | none => updMem s fun m => { m with wakes := m.wakes.filter fun w => (slotOfUid s w.uid).isSome }
    | some hh =>
      match s.mem.wakes.find? fun w => w.uid == hh.id.uid with
      | none => s
      | some w =>
        let s := updMem s fun m => { m with wakes := delFirst m.wakes (· == w) }
        match hh.wait with
        | some (.wrs line _) => if line = w.line then endWrs s h hh else s
        | _ => s

/-- WRS_TIMEOUT: 1,800 clk end a WRS.STO (R122). -/
def execWrsTimeout (h : Nat) (s : State) : Host.Outcome State Fault Refusal :=
  stepOf <| match hartAt s h with
    | none => s
    | some hh =>
      match hh.wait with
      | some (.wrs _ (some t)) => if t ≤ slotClk s h then endWrs s h hh else s
      | _ => s

/-- `hwmsg` waits for a message in the inbox; a handler raises cause 2 (R120, R280). -/
def execHwmsg (s : State) : Host.Outcome State Fault Refusal :=
  onHart s .hwmsg fun k h =>
    if h.id.handler then illegal s k h .hwmsg
    else if h.msg.inbox.isEmpty then s
    else setHart s k (adv s k h 4)

/-- `hwtime` waits for device time (R120). -/
def execHwtime (a : XR) (s : State) : Host.Outcome State Fault Refusal :=
  onHart s (.hwtime a) fun k h =>
    if s.clock.time ≥ (rx h a).toNat then setHart s k (adv s k h 4)
    else setHart s k { h with wait := some (.hwtime (rx h a).toNat) }

/-- HWTIME_EXPIRY: device time reaches the target of an `hwtime` (R120). -/
def execHwtimeExpiry (h : Nat) (s : State) : Host.Outcome State Fault Refusal :=
  stepOf <| match hartAt s h with
    | none => s
    | some hh =>
      match hh.wait with
      | some (.hwtime t) => if s.clock.time ≥ t then setHart s h (adv s h { hh with wait := none } 4) else s
      | _ => s

/-- The accesses of a predecessor or successor set of FENCE: bits 3 I, 2 O, 1 R, 0 W. FENCE.TSO and every reserved fm act as
FENCE rw,rw (R107). -/
def fenceSet (fm set : BitVec 4) : BitVec 4 := if fm = 0 then set else 3

/-- Lane and matrix work of the hart has performed: its queue is drained (R46). -/
def drained (h : Hart) : Bool := laneDrained h

/-- FIOM holds for the hart: menvcfg's below M-mode, senvcfg's in U-mode (privileged architecture, R3). -/
def fiom (s : State) (k : Nat) (h : Hart) : Bool :=
  (h.mode != .m && wbit (mcsrOf s k).menvcfg 0) || (h.mode == .u && wbit h.s.senvcfg 0)

/-- With FIOM, ordering device input orders reads too, and device output writes (privileged architecture). -/
def withFiom (on : Bool) (set : BitVec 4) : BitVec 4 := if on then set ||| (set >>> 2) else set

/-- FENCE (R3, R10, R46, R53, R107): device scope. It drains the lane queue; with W or O before it, earlier stores have performed;
with I or O, host answers have come. With W after it, it is a release; with R in both sets, an acquire that clears the lane
L1 (R51). -/
def execFence (fm pred succ : BitVec 4) (rd rs1 : XR) (s : State) : Host.Outcome State Fault Refusal :=
  onHart s (.fence fm pred succ rd rs1) fun k h =>
    let p := withFiom (fiom s k h) (fenceSet fm pred)
    let q := withFiom (fiom s k h) (fenceSet fm succ)
    let io := p &&& 0b1100 ≠ 0
    if !drained h || (p &&& 0b0101 ≠ 0 && !storesDone s h.id.uid .device) || (io && hostPending s h.id.uid) then s
    else
      let h := if q &&& 0b0101 ≠ 0 then releaseDeps s h .device else h
      let s := setHart s k (adv s k h 4)
      if p.getLsbD 1 && q &&& 0b0011 ≠ 0 then (if q.getLsbD 1 then acquireAt s k .device else observeDie s k) else s

/-- FENCE.I (R107): once earlier stores, those of the lane and matrix instructions forwarded before it among them (R46), have performed at device scope, every line of the core's instruction cache that holds
the hart's ASID goes. -/
def fenceICore (s : State) (core asid : Nat) : State :=
  updCore s core fun c => { c with icache := c.icache.filter fun p => p.1 / 2 ^ 40 != asid }

def execFenceI (imm : BitVec 12) (rd rs1 : XR) (s : State) : Host.Outcome State Fault Refusal :=
  onHart s (.fenceI imm rd rs1) fun k h =>
    if !drained h || !storesDone s h.id.uid .device then s
    else fenceICore (setHart s k (adv s k h 4)) (coreOfSlot k) h.id.asid

/-- A scoped fence (R296): acquire and release at its scope. -/
def scopedFence (s : State) (k : Nat) (h : Hart) (sc : Scope) : State :=
  if !drained h || !performedAt s h sc then s
  else acquireAt (setHart s k (adv s k (releaseDeps s h sc) 8)) k sc

def execXfence (o : Eops) (s : State) : Host.Outcome State Fault Refusal :=
  onHart s (.xfence o) fun k h => scopedFence s k h (scopeOf o.ks)

/-- `xfence.sc` at device or system scope also waits until every store visible to the hart has reached step 2 (R50). -/
def execXfenceSc (o : Eops) (s : State) : Host.Outcome State Fault Refusal :=
  onHart s (.xfenceSc o) fun k h =>
    let sc := scopeOf o.ks
    if (sc = .device ∨ sc = .system) && !dieStoresDone s (dieOfSlot k) then s else scopedFence s k h sc

/-- A barrier of a team, and it changed. -/
def barAt (t : Team) (n : BitVec 4) : Barrier := t.bars[n.toNat]'n.isLt
def setBar (t : Team) (n : BitVec 4) (b : Barrier) : Team := { t with bars := t.bars.set n.toNat b n.isLt }
def ticketAt (h : Hart) (n : BitVec 4) : Ticket := h.tickets[n.toNat]'n.isLt
def setTicket (h : Hart) (n : BitVec 4) (t : Ticket) : Hart := { h with tickets := h.tickets.set n.toNat t n.isLt }

/-- BARRIER_FAULT with the barrier number and the reason (R110, R125). -/
def barFault (s : State) (k : Nat) (h : Hart) (n : BitVec 4) (reason : Nat) : State :=
  trapAt s k h 28 (BitVec.ofNat 64 (n.toNat + 16 * reason))

/-- What arriving at a barrier gives (R124): a fault reason, a wait for the release at team scope, or the hart and team
after the arrival. -/
inductive ArriveRes where
  | bad (reason : Nat) | wait | done (h : Hart) (t : Team)

/-- arrive(c) of R124, a release at team scope. -/
def arrive (s : State) (h : Hart) (t : Team) (n : BitVec 4) (c : Word) : ArriveRes :=
  let b := barAt t n
  let tk := ticketAt h n
  if c = 0 ∨ c.toNat > h.id.size then .bad 1
  else if b.e ≠ 0 ∧ b.e ≠ c.toNat then .bad 2
  else if tk.valid ∧ tk.phase = b.p then .bad 3
  else if !drained h || !performedAt s h .team then .wait
  else
    let h := setTicket h n ⟨true, b.p⟩
    let b' : Barrier := if b.count + 1 = c.toNat then { e := 0, count := 0, p := !b.p, arrived := 0 }
      else { e := c.toNat, count := b.count + 1, p := b.p, arrived := Nat.lor b.arrived (2 ^ h.id.hidx) }
    .done h (setBar t n b')

/-- The wait of a barrier: over when its phase differs from the ticket's; an acquire at team scope (R124). -/
def barWaitDone (h : Hart) (t : Team) (n : BitVec 4) : Bool := (barAt t n).p != (ticketAt h n).phase

/-- A barrier instruction: a handler raises cause 2 (R123). -/
def onBarrier (s : State) (i : Instr) (f : Nat → Hart → Team → State) : Host.Outcome State Fault Refusal :=
  onHart s i fun k h =>
    if h.id.handler then illegal s k h i
    else match teamOf s h with
      | some t => f k h t
      | none => illegal s k h i

/-- The end of a barrier wait: the ticket is used up; an acquire at team scope (R47, R124). -/
def passBarrier (s : State) (k : Nat) (h : Hart) (n : BitVec 4) : State :=
  let h := setTicket { h with syncw := false, wait := none } n { ticketAt h n with valid := false }
  observeDie (setHart s k (adv s k h 4)) k

/-- The harts of a team that wait at barrier n, in slot order. -/
def barWaiters (s : State) (team : Nat) (n : BitVec 4) : List (Nat × Hart) :=
  s.harts.filter fun p => !p.2.id.handler && p.2.id.team == team && p.2.wait == some (.bar n)

/-- The team's barriers after an arrival; an arrival that completes the phase ends every wait on it in the same step, in slot order
(R124). -/
def arrived (s : State) (team : Nat) (t' : Team) (n : BitVec 4) : State :=
  let s := updTeam s team fun _ => t'
  if (barAt t' n).e = 0 then (barWaiters s team n).foldl (fun s p => passBarrier s p.1 p.2 n) s else s

/-- `bar.sync`: it arrives, then waits; in its waiting phase (SYNCW) only the wait is left (R124, R125). -/
def execBarSync (a : XR) (n : BitVec 4) (s : State) : Host.Outcome State Fault Refusal :=
  onBarrier s (.barSync a n) fun k h t =>
    if h.syncw then (if barWaitDone h t n then passBarrier s k h n else setHart s k { h with wait := some (.bar n) })
    else match arrive s h t n (rx h a) with
      | .bad r => barFault s k h n r
      | .wait => s
      | .done h' t' =>
        let s := arrived (setHart s k h') h.id.team t' n
        if barWaitDone h' t' n then passBarrier s k h' n else setHart s k { h' with syncw := true, wait := some (.bar n) }

def execBarArrive (a : XR) (n : BitVec 4) (s : State) : Host.Outcome State Fault Refusal :=
  onBarrier s (.barArrive a n) fun k h t =>
    match arrive s h t n (rx h a) with
    | .bad r => barFault s k h n r
    | .wait => s
    | .done h' t' => arrived (setHart s k (adv s k h' 4)) h.id.team t' n

def execBarWait (n : BitVec 4) (s : State) : Host.Outcome State Fault Refusal :=
  onBarrier s (.barWait n) fun k h t =>
    if !(ticketAt h n).valid then barFault s k h n 4
    else if barWaitDone h t n then passBarrier s k h n
    else setHart s k { h with wait := some (.bar n) }

/-- Entries of an engine that `hdrain` waits for: neither DONE nor HELD (R126, R157). -/
def enginePending (h : Hart) (p : Entry → Bool) : Bool := (pendingEntries h).any p

/-- A copy of the hart has passed its chunks and its message is not posted yet (R224); one that waits for an earlier HELD copy does not count, as
that one does not (R157). -/
def copyUnposted (s : State) (h : Hart) : Bool :=
  s.cores.any fun p => p.2.copies.any fun j => j.uid == h.id.uid &&
    !(h.ring.any fun q => q.2.eng == .copy && q.2.st == .held && seqBefore q.2.seq j.seq)

/-- The set e of `hdrain` has finished (R126): lane and matrix work completed, tile drains among it, and performed at system scope; copies with their messages;
tile drains with their wake-ups; messages acknowledged. In a handler drains are never due (R281). -/
def hdrainDone (s : State) (h : Hart) (e : BitVec 4) : Bool :=
  let isDrain (i : Instr) : Bool := match i with
    | .tdrain _ => true
    | _ => false
  (!e.getLsbD 0 || (!enginePending h (fun x => x.eng == .lane || x.eng == .matrix) && performedAt s h .system)) &&
  (!e.getLsbD 1 || (!enginePending h (fun x => x.eng == .copy) && !copyUnposted s h)) &&
  (!e.getLsbD 2 || h.id.handler || !enginePending h (fun x => isDrain x.instr)) &&
  (!e.getLsbD 3 || !enginePending h (fun x => match x.instr with
    | .msend _ | .msendb _ | .msendr _ => true
    | _ => false))

/-- `hdrain` (R126); in a handler hart, a set with bit 1 is an acquire of its copies (R281). -/
def execHdrain (e : BitVec 4) (s : State) : Host.Outcome State Fault Refusal :=
  onHart s (.hdrain e) fun k h =>
    if !hdrainDone s h e then s
    else
      let s := setHart s k (adv s k h 4)
      if h.id.handler && e.getLsbD 1 then acquireAt s k .system else s

/-- The interrupts in the order they are taken (R111). -/
def interruptOrder : List Nat := [18, 17, 20, 19, 21, 16, 11, 3, 7, 9, 1, 5]

/-- The interrupt is enabled for the hart's mode: one that goes to M-mode below M-mode or with MIE, one that goes to S-mode
below S-mode or in S-mode with SIE (R109, privileged architecture). -/
def interruptOpen (s : State) (k : Nat) (h : Hart) (n : Nat) : Bool :=
  wbit (effMip h &&& h.s.mie) n &&
  (if wbit (mcsrOf s k).mideleg n then h.mode == .u || (h.mode == .s && wbit h.s.mstatus msSIE)
   else h.mode != .m || wbit h.s.mstatus msMIE)

/-- The interrupt the hart takes next. -/
def nextInterrupt (s : State) (k : Nat) (h : Hart) : Option Nat := interruptOrder.find? (interruptOpen s k h)

/-- A wait that traps ends it, with its monitor entry freed (R121, R122). -/
def freeMonitor (s : State) (k : Nat) (h : Hart) : State :=
  match h.wait with
  | some (.wrs _ _) => updCore s (coreOfSlot k) fun c => { c with monitors := c.monitors.filter fun m => m.uid != h.id.uid }
  | _ => s

/-- The pc a trap that ends a wait saves: after a WRS or WFI, else the wait itself (R121). -/
def waitPc (h : Hart) : Word :=
  match h.wait with
  | some (.wrs _ _) => h.pc + 4
  | some .wfi => h.pc + 4
  | _ => h.pc

/-- TAKE_INTERRUPT: the highest pending enabled interrupt is taken at a boundary (R111, R114, R121, R162). -/
def execTakeInterrupt (h : Nat) (s : State) : Host.Outcome State Fault Refusal :=
  stepOf <| match hartAt s h with
    | none => s
    | some hh =>
      match nextInterrupt s h hh with
      | none => s
      | some n =>
        if hh.halted || hh.pend.isSome then s
        else takeTrap (freeMonitor s h hh) h hh n true 0 (waitPc hh)

/-- The entry whose late fault is delivered next (R113, R158): HELD, not squashed, not delivered, of the hart's mode, the
oldest. -/
def deliverable (h : Hart) : Option Entry :=
  (ringOldest h).find? fun e => e.st == .held && !e.sq && !e.dlv && e.mode == h.mode

/-- LATE_FAULT_DELIVERY (R113, R126, R158): the report CSRs are filled, DLV is set and cause 24 is taken, with the saved pc at a wait
that it ends (log 21). -/
def execLateFaultDelivery (h : Nat) (s : State) : Host.Outcome State Fault Refusal :=
  stepOf <| match hartAt s h with
    | none => s
    | some hh =>
      match deliverable hh with
      | none => s
      | some e =>
        if hh.halted || hh.pend.isSome then s
        else
          let h' := updEntry hh e.seq fun e => { e with dlv := true }
          let h' := { h' with l := { h'.l with fseq := e.seq, lfcode := e.code, lfengine := engineCode e.eng, lfaddr := e.fltAddr,
                                               lflanes := e.fltLanes } }
          trapAt (freeMonitor s h hh) h h' 24 e.fltAddr

end Sys2Proof.Machine
end

