-- ==== Sys2Proof/Machine/Ending.lean ====
section
/-! DEFINITION. The end of harts, teams and grids (R21, R26, R209, R274, R404, R407): what is freed and what is forgotten. -/

namespace Sys2Proof.Machine

/-- The engine state that a core holds for a hart goes (R407): entries waiting, copies, monitor entries, the keep buffer. -/
def forgetEngines (c : Core) (k uid : Nat) : Core :=
  { c with
    monitors := c.monitors.filter fun m => m.uid != uid,
    copies := c.copies.filter fun j => j.uid != uid,
    mdq := c.mdq.map fun p => (p.1, p.2.filter fun m => m.slot != k),
    arrayPipe := c.arrayPipe.filter fun o => o.uid != uid,
    port := c.port.filter fun o => o.uid != uid,
    keep := c.keep.filter fun p => p.2.uid != uid }

/-- A hart leaves its slot: its reservation, its reduction entry and what engines hold for it go with it (R209, R297). -/
def freeSlot (s : State) (k : Nat) (h : Hart) : State :=
  let s := delResv s h.id.uid
  let s := updCore s (coreOfSlot k) fun c => forgetEngines c k h.id.uid
  { s with harts := tdel s.harts k, reds := { s.reds with buf := tdel s.reds.buf k } }

/-- A saved hart discarded without restore (R407). -/
def dropSaved (s : State) (uid : Nat) (_ : SavedHart) : State :=
  let s : State := { s with cores := s.cores.map fun p => (p.1, { p.2 with copies := p.2.copies.filter fun j => j.uid != uid }) }
  { s with work := { s.work with saves := tdel s.work.saves uid } }

/-- Every entry of the away directory and of the slots that names a team is cleared (R274): those of the slots that it has not come back to, which the
directory keeps for it (R22). -/
def clearAways (s : State) (t : Team) : State :=
  t.aways.foldl (fun s k =>
    let mine (a : Away) : Bool := a.asid == t.asid && a.teamNo == t.idx % 2 ^ 24
    let s := ctxWrite s t.asid (awayBase s t.asid + 16 * k) (List.replicate 16 0)
    updCore s (coreOfSlot k) fun c => { c with away := c.away.filter fun p => !(p.1 == k && mine p.2) }) s

/-- A child grid that draws on the account has not retired. -/
def drawsOn (s : State) (a : Nat) : Bool :=
  s.work.grids.any fun p => p.2.acct == a && !p.2.retired && match p.2.origin with
    | .team _ => true
    | .queue _ _ => false

/-- An account closes when its owner has ended and every child grid that draws on it has retired (R404). One that a charge took to 0 just
before counts as overrun first (R406, R409). -/
def settleAcct (s : State) (a : Nat) : State :=
  match tget s.work.accts a with
  | none => s
  | some ac =>
    match ac.team with
    | none => s
    | some tk =>
      let ended := match tget s.work.teams tk with
        | some t => t.stat == .ended
        | none => true
      if ended && !drawsOn s a then updAcct (if atZero ac then overrun s a ac else s) a fun ac => { ac with closed := true } else s

/-- A TEAM ENDS (R26): windows, tiles, barriers and its record are free, its vacated windows too, and the grid has one live team
less. -/
def endTeam (s : State) (tk : Nat) : State :=
  match tget s.work.teams tk with
  | none => s
  | some t =>
    if t.stat == .ended then s
    else
      let s := dropWinResv (clearAways s t) t.core t.wins
      let s := { s with cores := s.cores.map fun p => (p.1, { p.2 with
        winVac := p.2.winVac.filter (fun v => v.2.1 != tk),
        winLoad := if p.1 = t.core then p.2.winLoad.filter (fun w => !t.wins.contains w) else p.2.winLoad }) }
      let s := updTeam s tk fun t => { t with stat := .ended, slots := [], bars := freshBars, hartsLeft := 0, handOver := false, yieldEnd := none, aways := [] }
      let s := updGrid s t.grid fun g => { g with liveTeams := g.liveTeams - 1 }
      settleAcct { s with fe := { s.fe with lmsgs := s.fe.lmsgs.filter (· != tk) } } t.acct

/-- Harts of a team, resident and saved. -/
def hartsOf (s : State) (tk : Nat) : Tbl Hart := s.harts.filter fun p => !p.2.id.handler && p.2.id.team == tk
def savesOf (s : State) (tk : Nat) : Tbl SavedHart := s.work.saves.filter fun p => !p.2.hart.id.handler && p.2.hart.id.team == tk

/-- A whole team is discarded, resident, claimed or saved (R407, R448). -/
def discardTeam (s : State) (tk : Nat) : State :=
  let s := (hartsOf s tk).foldl (fun s p => freeSlot s p.1 p.2) s
  let s := (savesOf s tk).foldl (fun s p => dropSaved s p.1 p.2) s
  endTeam s tk

/-- A handler is discarded; when it is ended for its budget its due reply is sent as `hret` would (R270, R407). -/
def discardHandlers (s : State) (p : Hart → Bool) (reply : Bool) : State :=
  let all := (s.harts.filter fun q => q.2.id.handler && p q.2)
  let saved := (s.work.saves.filter fun q => q.2.hart.id.handler && p q.2.hart)
  let due (s : State) (k : Nat) (h : Hart) : State :=
    if reply && h.msg.rplDue then sendReply s k h h.l.nseq (BitVec.allOnes 64) (BitVec.allOnes 64) else s
  let s := all.foldl (fun s q => freeSlot (due s q.1 q.2) q.1 q.2) s
  saved.foldl (fun s q => dropSaved (due s q.2.slot q.2.hart) q.1 q.2) s

/-- Placement of the grids that satisfy p goes no further. -/
def stopPlacing (s : State) (p : Nat → Grid → Bool) : State :=
  let f (q : Nat × Grid) : Nat × Grid := if p q.1 q.2 then (q.1, { q.2 with placed := true }) else q
  { s with work := { s.work with grids := s.work.grids.map f } }

/-- A grid descends from another through the teams that launched it. -/
def descends (s : State) (anc : Nat) : Nat → Nat → Bool
  | 0, g => g == anc
  | n + 1, g => g == anc || match tget s.work.grids g with
      | some gr => (match gr.origin with
          | .team tk => (match tget s.work.teams tk with
              | some t => descends s anc n t.grid
              | none => false)
          | .queue _ _ => false)
      | none => false

/-- A hart belongs to a grid or to one of its descendants (R408). -/
def hartUnder (s : State) (g : Nat) (h : Hart) : Bool :=
  !h.id.handler && match tget s.work.teams h.id.team with
    | some t => descends s g 10 t.grid
    | none => false

end Sys2Proof.Machine
end

