-- ==== Sys2Proof/Machine/Record.lean ====
section
/-! DEFINITION. The team record of a save (R138, R420), and the loading of records (R137, R138, R285, R417). -/

namespace Sys2Proof.Machine

/-- Bytes of a hart record. -/
def hartRecBytes (nv : Nat) : Nat := 6144 + 256 * nv

/-- The barriers of a team record (R138). -/
def barBytes (t : Team) : List Byte :=
  t.bars.toList.flatMap fun b => leBytes 1 b.e ++ leBytes 1 b.count ++ leBytes 1 (b2n b.p) ++ List.replicate 5 0 ++ leBytes 8 b.arrived

/-- The tile region of a team record (R138, R233). -/
def tileBytes (s : State) (core : Nat) (ts : List Nat) : List Byte :=
  (ts.flatMap fun t => rdBytes s.tiles (tileKey core t 0) 1024) ++ (ts.flatMap fun t => leBytes 1 (tileStatus s core t)) ++
  List.replicate (tileRegion ts.length - 1025 * ts.length) 0

/-- Where the parts of a team record lie (R138). -/
def recWin (rec w : Nat) : Nat := rec + 0x11000 + 4096 * w
def recTiles (g : Grid) (rec : Nat) : Nat := rec + 0x11000 + 4096 * g.spec.windows
def recHart (g : Grid) (rec i : Nat) : Nat :=
  recTiles g rec + tileRegion (g.spec.tiles * g.spec.harts) + i * hartRecBytes g.spec.vregs

/-- Step 3 of R416: header, barriers, windows, tiles and hart records written in the record. -/
def writeRecordOf (s : State) (g : Grid) (t : Team) (harts : Tbl Hart) : State :=
  let s := writeHeader s g t t.core
  let s := ctxWrite s t.asid (t.recPa + 0x100) (barBytes t)
  let s := (t.wins.zip (List.range t.wins.length)).foldl (fun s p => ctxWrite s t.asid (recWin t.recPa p.2) (readWin s t.core p.1 0 4096)) s
  let s := if t.tiles.isEmpty then s else ctxWrite s t.asid (recTiles g t.recPa) (tileBytes s t.core t.tiles)
  harts.foldl (fun s p => ctxWrite s t.asid (recHart g t.recPa p.2.id.hidx) (hartRecord s p.1 p.2)) s

/-! ## Loading a record (R137, R138, R417) -/

/-- n words in memory order. -/
def wordsOf : Nat → List Byte → List Word
  | 0, _ => []
  | n + 1, bs => BitVec.ofNat 64 (leNat (bs.take 8)) :: wordsOf n (bs.drop 8)

/-- n bytes of a record at an offset, as a number and as words. -/
def recNat (s : State) (rec off n : Nat) : Nat := leNat (peekHome s (rec + off) n)
def recWords (s : State) (rec off n : Nat) : List Word := wordsOf n (peekHome s (rec + off) (8 * n))

/-- The parts of a record as registers: x1 to x31, m1 to m7, the mask stack. -/
def xOf (old : Vector Word 32) (l : List Word) : Vector Word 32 :=
  Vector.ofFn fun i : Fin 32 => if i.val = 0 then old[0] else l.getD (i.val - 1) 0
def mOf (old : Vector Mask 8) (l : List Word) : Vector Mask 8 :=
  Vector.ofFn fun i : Fin 8 => if i.val = 0 then old[0] else l.getD (i.val - 1) 0
def stkOf (l : List Word) : Vector StkEntry 32 :=
  Vector.ofFn fun i : Fin 32 => ⟨l.getD (2 * i.val) 0, (l.getD (2 * i.val + 1) 0).setWidth 48⟩

/-- A stack depth that a record may hold, 1 to 32; any other leaves the old one. -/
def depOf (old n : Nat) : Nat := if 1 ≤ n ∧ n ≤ 32 then n else old

/-- The CSRs of a record (R137), each keeping what its own rule lets it hold (R105, R111); NSEQ goes with the ring. Interrupts that
became pending after the save are pending at the restore (R406, R408). -/
def loadCsrs (s : State) (k : Nat) (h : Hart) (c : List Word) : Hart :=
  let g (i : Nat) : Word := c.getD i 0
  { h with
    l := { h.l with
      lfrm := (g 0).setWidth 3, lflags := (g 1).setWidth 6, ftz := wbit (g 2) 0, wrsFull := wbit (g 3) 0, bstpc := g 4,
      fseq := (g 5).toNat % 2 ^ 16, lfcode := (g 6).toNat % 2 ^ 16, lfengine := (g 6).toNat / 2 ^ 16 % 8, lfaddr := g 7, lflanes := g 8 },
    s := { h.s with
      mstatus := merge h.s.mstatus (g 9) (sstatusMask &&& mstatusWritable),
      mie := merge h.s.mie (g 10) (mieWritable &&& (mcsrOf s k).mideleg), mip := h.s.mip ||| (g 11 &&& 0x3E0002),
      stvec := tvecWrite (g 12), sscratch := g 13, sepc := g 14 &&& ~~~ 3, scause := g 15, stval := g 16, scounteren := g 17 &&& 7,
      instret := g 18 } }

/-- The vector registers of a record; a register that holds what it held keeps its place. -/
def loadVregs (s : State) (rec : Nat) (h : Hart) : Hart :=
  ((List.range h.id.nv).drop 1).foldl (fun h n =>
    let bs := peekHome s (rec + 0x1800 + 256 * n) 256
    let v : VReg := Vector.ofFn fun l : Fin 64 => BitVec.ofNat 32 (leNat ((bs.drop (4 * l.val)).take 4))
    if v = vget h n then h else { h with v := tput h.v n v }) h

/-- A ring entry as its four words in a record say (R153); what the words do not hold stays. -/
def entryOfWords (e : Entry) (w : List Word) : Entry :=
  let w0 := (w.getD 0 0).toNat
  let w1 := (w.getD 1 0).toNat
  { e with
    st := (match bitsOf w0 16 2 with
      | 0 => .done | 1 => .inflight | 2 => .parked | _ => .held),
    mode := if e.mode = .m then .m else if w0.testBit 21 then .s else .u,
    started := w0.testBit 22, part := w0.testBit 23, sq := w0.testBit 24, await := w0.testBit 25, repl := w0.testBit 26,
    frm := BitVec.ofNat 3 (bitsOf w0 27 3), dlv := w0.testBit 30, ftz := w0.testBit 31, opb := BitVec.ofNat 32 (w0 / 2 ^ 32),
    pc := BitVec.ofNat 48 w1, code := w1 / 2 ^ 48, lmask := w.getD 2 0, opa := w.getD 3 0 }

/-- The dispatch ring of a record (R137, R153): a slot whose SEQ is that of the entry saved there is loaded (log 72). -/
def loadRing (s : State) (rec : Nat) (ring : Tbl Entry) : Tbl Entry :=
  ring.map fun p =>
    let w := recWords s rec (0xB80 + 32 * p.1) 4
    (p.1, if (w.getD 0 0).toNat % 2 ^ 16 = p.2.seq then entryOfWords p.2 w else p.2)

/-- Entry i of the send queue of a record (R285): STATE 0 is free, 2 injected. -/
def loadSend (s : State) (rec i : Nat) (old : SendEntry) : SendEntry :=
  let at_ := 0x1380 + 64 * i
  let st := recNat s rec (at_ + 0x32) 1
  let seq := recNat s rec (at_ + 0x30) 2
  { used := st != 0, seq := seq, target := BitVec.ofNat 64 (recNat s rec at_ 8), handler := BitVec.ofNat 64 (recNat s rec (at_ + 8) 8),
    p := (recWords s rec (at_ + 16) 4).take (if old.used && old.seq == seq then old.p.length else 4), sent := st == 2 }

/-- The send-queue block of a record (R285); the scope of an inbox message, and whether it fills a reservation, are not in it and stay. -/
def loadMsg (s : State) (rec : Nat) (h : Hart) : MsgState :=
  let m := h.msg
  let n := min 16 (recNat s rec 0x1680 1)
  let inbox := (List.range n).map fun i =>
    let old := m.inbox.getD i ⟨0, 0, 2, false⟩
    { old with w0 := BitVec.ofNat 64 (recNat s rec (0x1580 + 16 * i) 8), w1 := BitVec.ofNat 64 (recNat s rec (0x1588 + 16 * i) 8) }
  let o := recNat s rec 0x1688 8
  { m with
    sendq := Vector.ofFn fun i : Fin 8 => loadSend s rec i.val m.sendq[i],
    inbox := inbox, rsv := recNat s rec 0x1681 1, drop := recNat s rec 0x1684 2, event := recNat s rec 0x1686 1,
    origin := if h.id.handler then BitVec.ofNat 64 (setBits m.origin.toNat 0 27 o) else m.origin,
    bodyLen := if h.id.handler then bitsOf o 32 16 else m.bodyLen,
    rplAsked := if h.id.handler then o.testBit 62 else m.rplAsked, rplDue := if h.id.handler then o.testBit 63 else m.rplDue }

/-- A HART RECORD loaded (R137, R285, R417). What an outstanding reply names stays with the hart (R139). -/
def loadHart (s : State) (k rec : Nat) (h : Hart) : Hart :=
  let st := recNat s rec 0x100 8
  let old (i : Nat) : Ticket := if p : i < 16 then h.tickets[i] else ⟨false, false⟩
  let h := loadCsrs s k h (recWords s rec 0x340 19)
  let z := recWords s rec 0x440 104
  let snap : Snapshot :=
    { dep := (z.getD 0 1).toNat % 2 ^ 6, x := xOf h.x (z.drop 1), m := mOf h.m (z.drop 32), stk := stkOf (z.drop 40) }
  let key := recNat s rec 0x3D8 8
  let h := { h with
    pc := BitVec.ofNat 64 (recNat s rec 0 8),
    x := xOf h.x (recWords s rec 8 31), m := mOf h.m (recWords s rec 0x108 7), stk := stkOf (recWords s rec 0x140 64),
    dep := depOf h.dep (bitsOf st 8 6), mode := if h.mode = .m then .m else modeOfCode (bitsOf st 6 1), syncw := st.testBit 15,
    snap := if st.testBit 14 then some { snap with dep := depOf h.dep snap.dep } else none,
    tickets := Vector.ofFn fun i : Fin 16 => { old i.val with valid := st.testBit (16 + i.val), phase := st.testBit (32 + i.val) },
    halted := st.testBit 48, frag := if st.testBit 50 then some (key % 2 ^ 48, bitsOf key 48 2) else none,
    tm := Vector.ofFn fun i : Fin 8 => BitVec.ofNat 1024 (recNat s rec (0x780 + 128 * i.val) 128),
    ring := loadRing s rec h.ring, msg := loadMsg s rec h }
  loadVregs s rec h

/-- The barriers of a team record loaded (R138). -/
def loadBars (s : State) (rec : Nat) : Vector Barrier 16 :=
  Vector.ofFn fun i : Fin 16 =>
    let w := recNat s rec (0x100 + 16 * i.val) 8
    { e := w % 256, count := bitsOf w 8 8, p := w.testBit 16, arrived := recNat s rec (0x108 + 16 * i.val) 8 }

/-- A window filled from its image (R419). -/
def loadWin (s : State) (core win pa : Nat) : State :=
  { s with tstore := wrBytes s.tstore (winKey core win 0) (peekHome s pa 4096) }

/-- The tiles and their status bytes loaded from a record (R233). -/
def loadTiles (s : State) (g : Grid) (t : Team) : State :=
  let base := recTiles g t.recPa
  let n := t.tiles.length
  (t.tiles.zip (List.range n)).foldl (fun s p =>
    let s := { s with tiles := wrBytes s.tiles (tileKey t.core p.1 0) (peekHome s (base + 1024 * p.2) 1024) }
    setTileStatus s t.core p.1 (leNat (peekHome s (base + 1024 * n + p.2) 1))) s

end Sys2Proof.Machine
end

