-- ==== Sys2Proof/Machine/XlateEvents.lean ====
section
/-! DEFINITION. The steps of the translation engine (11_translation_engine): walks, the merging and resolution of faults, page
request groups, ATS, and shoot-down. -/

namespace Sys2Proof.Machine

/-- The core number under which the front end waits for pages (R342). -/
def feCore : Nat := 255

/-- TRANSLATION_REQUEST: a miss takes one of the slice's four walkers, or joins the walk of its page (R316, R317). -/
def execTranslationRequest (h : Nat) (va : Word) (write : Bool) (s : State) : Host.Outcome State Fault Refusal :=
  stepOf <| match hartAt s h with
    | none => s
    | some hh =>
      let die := dieOfSlot h
      let sl := sliceOf va
      let vpn := vpnOf va
      let satp := (ctxOf s hh.id.asid).satp
      let here := slicesWalks s die sl
      if dataMode hh = .m || !canonical va || satp.toNat / 2 ^ 60 ≠ 15 || ((sliceAt s die sl).tlb.any (tlbHit hh.id.asid vpn)) ||
          here.any (fun w => w.asid == hh.id.asid && w.vpn == vpn) || here.length ≥ 4 then s
      else updXl s fun x => { x with walks := x.walks ++ [⟨die, sl, hh.id.asid, vpn, 3, satp.toNat % 2 ^ 44 * 4096, [], write, dataMode hh,
        wbit hh.s.mstatus msSUM, wbit hh.s.mstatus msMXR⟩] }

/-- PTE_READ_RESPONSE: a walk reads one level (R311, R312, R317): it goes down, ends with a leaf that is cached with the pointer PTEs read, or
faults, at a table or at the leaf, and caches nothing. -/
def execPteReadResponse (i : Nat) (s : State) : Host.Outcome State Fault Refusal :=
  stepOf <| match s.xl.walks[i]? with
    | none => s
    | some w =>
      let drop (s : State) : State := updXl s fun x => { x with walks := dropAt x.walks i }
      match pteStep s w.die w.slice w.asid w.vpn w.level w.table with
      | (.wait, s) => s
      | (.fault _, s) => drop s
      | (.next t r, s) =>
        if w.level = 0 then drop s
        else updXl s fun x => { x with walks := updAt x.walks i fun w => { w with level := w.level - 1, table := t, ptrs := r ++ w.ptrs } }
      | (.leaf p, s) =>
        if (leafFault w.vpn w.level 0 p).isSome || (permFault p (if w.write then .store else .load) w.mode w.sum w.mxr).isSome then drop s
        else cacheLeaf (drop s) w.die w.asid (BitVec.ofNat 64 (w.vpn * 4096)) p w.level w.ptrs

/-- The port's allowance that is left (R322). -/
def allowanceLeft (s : State) (port : Nat) : Nat := reg s (rPriAllow port) - reg s (rPriOut port)

/-- Pages of the fault queue that wait for a port and stand in no group, in queue order. -/
def waitingPages (s : State) (port : Nat) : List FqRec := s.xl.fq.filter fun f => f.group.isNone && xctPort s f.asid == port

/-- The open group of a port takes the waiting pages of its ASID in queue order, up to 32 and to the allowance (R322). -/
def joinGroup (s : State) (port : Nat) : State :=
  match s.xl.groups.find? fun g => g.port == port && !g.sent with
  | none => s
  | some g =>
    let room := min 32 (allowanceLeft s port) - g.pages.length
    let new := ((waitingPages s port).filter fun f => f.asid == g.asid).take room
    let vpns := new.map fun f => f.vpn
    let mark (f : FqRec) : FqRec :=
      if f.group.isNone && f.asid == g.asid && vpns.contains f.vpn then { f with group := some (port, g.index) } else f
    updXl s fun x => { x with
      fq := x.fq.map mark,
      groups := updFirst x.groups (fun g => g.port == port && !g.sent) fun g => { g with pages := g.pages ++ vpns } }

/-- A group opens for the ASID of the port's oldest waiting page, when the port may ask and has room for one (R322). -/
def formGroup (s : State) (port : Nat) : State :=
  if s.xl.groups.any (fun g => g.port == port && !g.sent) then joinGroup s port
  else if !portCanPark s port || allowanceLeft s port = 0 then s
  else match waitingPages s port with
    | [] => s
    | f :: _ =>
      let idx := firstBelow 512 fun j => !(s.xl.groups.any fun g => g.port == port && g.index == j)
      if idx ≥ 512 then s
      else joinGroup (updXl s fun x => { x with groups := x.groups ++ [⟨port, idx, f.asid, false, s.clock.clk, [], false⟩] }) port

/-- Both ports form groups. -/
def formGroups (s : State) : State := formGroup (formGroup s 0) 1

/-- SLICE_FAULT_RECORD: a new record of a slice's pending table goes to the IOD, once; with the fault queue full it stays
unsent (R321). -/
def execSliceFaultRecord (i : Nat) (s : State) : Host.Outcome State Fault Refusal :=
  stepOf <| match s.xl.recs[i]? with
    | none => s
    | some r =>
      let known := s.xl.fq.any (fun f => f.asid == r.asid && f.vpn == r.vpn) || s.xl.fqIn.any fun f => f.asid == r.asid && f.vpn == r.vpn
      if r.sent || (!known && s.xl.fq.length + s.xl.fqIn.length ≥ 1024) then s
      else updXl s fun x => { x with recs := updAt x.recs i fun r => { r with sent := true }, fqIn := x.fqIn ++ [r] }

/-- Notices of a settled page to the waiting cores of its records, which go (R322); the replays ask for fresh host translations (R323). -/
def settlePage (s : State) (asid vpn code : Nat) : State :=
  let mine (r : SliceRec) : Bool := r.asid == asid && r.vpn == vpn
  let cores := (s.xl.recs.filter mine).flatMap fun r => r.cores
  updXl s fun x => { x with
    recs := x.recs.filter fun r => !mine r,
    fqIn := x.fqIn.filter fun r => !mine r,
    fq := x.fq.filter fun f => !(f.asid == asid && f.vpn == vpn),
    atc := x.atc.map fun p => (p.1, p.2.filter fun e => !(e.asid == asid && e.told.isSome)),
    notices := x.notices ++ cores.map fun c => ⟨c, asid, vpn, code⟩ }

/-- FAULT_QUEUE_RECORD: a record reaches the IOD and merges on (ASID, page) (R321). A page of a port that has been stopped is
settled with PRI_OFF (R322). -/
def execFaultQueueRecord (i : Nat) (s : State) : Host.Outcome State Fault Refusal :=
  stepOf <| match s.xl.fqIn[i]? with
    | none => s
    | some r =>
      let s := updXl s fun x => { x with fqIn := dropAt x.fqIn i }
      let same (f : FqRec) : Bool := f.asid == r.asid && f.vpn == r.vpn
      if (reg s rPriStat).testBit (xctPort s r.asid) then settlePage s r.asid r.vpn 0x010F
      else if s.xl.fq.any same then
        updXl s fun x => { x with fq := updFirst x.fq same fun f =>
          { f with r := f.r || r.r, w := f.w || r.w, priv := f.priv || r.priv, dies := if f.dies.contains r.die then f.dies else f.dies ++ [r.die] } }
      else formGroups (updXl s fun x => { x with fq := x.fq ++ [⟨r.asid, r.vpn, r.r, r.w, r.priv, [r.die], none⟩] })

/-- Pages of the open group beyond what the allowance has left go back to wait in the queue, when it has been lowered (R322). -/
def trimGroup (s : State) (port : Nat) : State :=
  match s.xl.groups.find? fun g => g.port == port && !g.sent with
  | none => s
  | some g =>
    let out := g.pages.drop (allowanceLeft s port)
    if out.isEmpty then s
    else updXl s fun x => { x with
      fq := x.fq.map fun f => if f.group == some (port, g.index) && f.asid == g.asid && out.contains f.vpn then { f with group := none } else f,
      groups := updFirst x.groups (· == g) fun g => { g with pages := g.pages.take (allowanceLeft s port) } }

/-- PRG_GROUP_SEND: the open group of a port that may issue requests is sent when it holds 32 pages or the allowance, or 460 clk after it
opened; its requests count against the allowance, which they never exceed (R322). -/
def execPrgGroupSend (port : Nat) (s : State) : Host.Outcome State Fault Refusal :=
  stepOf <|
    let s := trimGroup (formGroup s port) port
    if !portCanPark s port then s else
    match s.xl.groups.find? fun g => g.port == port && !g.sent with
    | none => s
    | some g =>
      let n := g.pages.length
      if n ≠ 0 && (n ≥ 32 || n ≥ allowanceLeft s port || s.clock.clk ≥ g.openClk + 460) then
        let s := updXl s fun x => { x with groups := updFirst x.groups (· == g) fun g => { g with sent := true } }
        formGroup (bumpReg (setReg s (rPriOut port) (reg s (rPriOut port) + n)) rPrgSent 32 1) port
      else s

/-- PRG_RESPONSE: the host answers a group: 0 Success, 1 Invalid Request, 15 Response Failure; an index that names no
outstanding group is discarded and counted (R322). The response to a group of a context that has been killed or reset only returns its
requests to the allowance (R324). Any other code counts as Response Failure (DESIGN CHOICE, log 110). -/
def execPrgResponse (port group code : Nat) (s : State) : Host.Outcome State Fault Refusal :=
  stepOf <| match s.xl.groups.find? fun g => g.port == port && g.sent && g.index == group with
    | none => bumpReg s rPrgBad 32 1
    | some g =>
      let s := updXl s fun x => { x with groups := delFirst x.groups (· == g) }
      let s := setReg s (rPriOut port) (reg s (rPriOut port) - g.pages.length)
      if g.dead then formGroups s else
      let s := if code = 0 then s else bumpReg s rPrgBad 32 1
      let note := if code = 0 then 0 else if code = 1 then 0x010D else 0x010E
      let live (vpn : Nat) : Bool := s.xl.fq.any fun f => f.asid == g.asid && f.vpn == vpn && f.group == some (port, group)
      let s := (g.pages.filter live).foldl (fun s v => settlePage s g.asid v note) s
      if code = 0 ∨ code = 1 then formGroups s
      else
        let s := setReg s rPriStat (Nat.lor (reg s rPriStat) (2 ^ port))
        let rest := s.xl.fq.filter fun f => xctPort s f.asid == port && !(match f.group with
          | some (_, idx) => s.xl.groups.any fun g => g.port == port && g.index == idx && g.sent
          | none => false)
        let s := rest.foldl (fun s f => settlePage s f.asid f.vpn 0x010F) s
        updXl s fun x => { x with groups := x.groups.filter fun g => !(g.port == port && !g.sent) }

/-- The lanes that a held entry's report names (R155): lane memory instructions have lanes; reductions, copies, messages and
matrix work have none. -/
def laneful (i : Instr) : Bool := isLaneMem i && (match i with
  | .vredOpen _ | .vredFlush _ => false
  | _ => true)

/-- The parked entries of a hart that wait on a page are settled: to be replayed, or held with a code (R322). -/
def settleEntries (s : State) (k vpn code : Nat) : State :=
  match hartAt s k with
  | none => s
  | some h =>
    ((ringOldest h).filter fun e => e.st == .parked && e.pages.contains vpn).foldl (fun s e =>
      if code = 0 then updHart s k fun h => updEntry h e.seq fun e => { e with resolved := true }
      else match hartAt s k with
        | none => s
        | some h =>
          let bad := e.flt.filter fun f => vpnOf f.2.2 == vpn
          holdEntry s k h e code (if laneful e.instr then maskOf fun l => bad.any fun f => f.1 == l else 0) (lowestFault bad).2.2) s

/-- FAULT_NOTICE: a notice reaches a core (R322); for a context that has left the core it finds no one (R324). The front end's
notices are kept until its queue tries again. -/
def execFaultNotice (i : Nat) (s : State) : Host.Outcome State Fault Refusal :=
  stepOf <| match s.xl.notices[i]? with
    | none => s
    | some n =>
      let s := updXl s fun x => { x with notices := dropAt x.notices i }
      if n.core = feCore then updXl s fun x => { x with feNotes := x.feNotes ++ [(n.asid, n.vpn, n.code)] }
      else
        ((s.harts.filter fun p => coreOfSlot p.1 == n.core && p.2.id.asid == n.asid).map (·.1)).foldl
          (fun s k => settleEntries s k n.vpn n.code) s

/-- ATS_COMPLETION: the host answers a translation request of a port: `pa` is the host page's address, `perm` grants read (bit
0) and write (bit 1) (R323). It answers the oldest request of the page; a full cache gives up the entry entered longest ago (DESIGN CHOICE,
log 102). -/
def execAtsCompletion (port : Nat) (va : Word) (asid pa perm : Nat) (s : State) : Host.Outcome State Fault Refusal :=
  stepOf <|
    let page := va.toNat / 4096
    match s.xl.atsReqs.find? fun r => r.port == port && r.asid == asid && r.page == page with
    | none => s
    | some r =>
      updXl s fun x => { x with
        atsReqs := x.atsReqs.filter (· != r),
        atc := tput x.atc port ((⟨asid, page, pa / 4096, perm.testBit 0, perm.testBit 1, r.priv, none⟩ ::
          (tgetD x.atc port []).filter fun e => !atcFor r e).take 4096) }

/-- Invalidations whose awaited requests have all been answered are complete (R328). -/
def settleInvs (s : State) : State :=
  updXl s fun x => { x with invs := x.invs.filter fun v => v.waits.any fun id => s.mem.out.any fun o => o.id == id }

/-- A copy's chunk in phase B holds posted writes to host pages of a port that some test picks out. -/
def postsLeft (s : State) (port : Nat) (hit : Nat → Nat → Bool) : Bool :=
  s.cores.any fun p => p.2.copies.any fun j => j.ready && j.writes.any fun w => match w.loc with
    | .host q a addr => q == port && hit a (addr / 4096)
    | _ => false

/-- ATS_INVALIDATE: matching entries of the port's cache go; the completion waits for the reads and AtomicOps that a removed
entry translated (R328). An `asid` of 2^16 or more is a Global Invalidate (R372). With 32 requests held it is held back, and until the posted
writes that such an entry has translated for a copy's chunk in phase B have been sent. -/
def execAtsInvalidate (port asid : Nat) (va : Word) (size : Nat) (s : State) : Host.Outcome State Fault Refusal :=
  stepOf <|
    if (s.xl.invs.filter fun v => v.port == port).length ≥ 32 then s
    else
      let hit (e : AtcEntry) : Bool := (asid ≥ 2 ^ 16 || e.asid == asid) && va.toNat / 4096 ≤ e.page && e.page * 4096 < va.toNat + size
      let gone := (tgetD s.xl.atc port []).filter hit
      if postsLeft s port fun a hp => gone.any fun e => e.asid == a && e.hpage == hp then s else
      let waits := (s.mem.out.filter fun o => o.port == port && gone.any fun e => e.asid == o.asid && e.hpage == o.addr / 4096).map fun o => o.id
      let s := updXl s fun x => { x with atc := tput x.atc port ((tgetD x.atc port []).filter fun e => !hit e) }
      if waits.isEmpty then s
      else updXl s fun x => { x with invs := x.invs ++ [⟨port, asid, va.toNat / 4096, size, waits⟩] }

/-- PRI_ENABLE: the host writes PRI Enable of a port; clearing and setting it ends a stop (R322). -/
def execPriEnable (port v : Nat) (s : State) : Host.Outcome State Fault Refusal :=
  stepOf <|
    if port ≥ 2 then s
    else
      let on := v % 2 = 1
      let was := (hpStat s port).testBit 17
      let s := setReg s (hpBase port) (setBits (hpStat s port) 17 1 (v % 2))
      let s := if on && !was then setReg s rPriStat (setBits (reg s rPriStat) port 1 0) else s
      formGroups s

/-- Every record of an ASID goes from the slices and the fault queue (R324). Its open group closes; a group that has been sent keeps its
allowance until its response comes, which is then discarded. -/
def dropRecords (s : State) (asid : Nat) : State :=
  updXl s fun x => { x with
    recs := x.recs.filter fun r => r.asid != asid,
    fqIn := x.fqIn.filter fun r => r.asid != asid,
    fq := x.fq.filter fun f => f.asid != asid,
    groups := (x.groups.filter fun g => g.sent || g.asid != asid).map fun g => if g.asid = asid then { g with dead := true } else g }

/-- PRI_RESET (R324, R329). -/
def execPriReset (asid : Nat) (s : State) : Host.Outcome State Fault Refusal := stepOf (formGroups (dropRecords s asid))

/-- XL_CLR (R329). -/
def execXlClrPrgSent (s : State) : Host.Outcome State Fault Refusal := stepOf (setReg s rPrgSent 0)
def execXlClrPrgBad (s : State) : Host.Outcome State Fault Refusal := stepOf (setReg s rPrgBad 0)

/-- A cached leaf is one that a shoot-down removes (R325). -/
def shootHits (va asid : Option Nat) (e : TlbEntry) : Bool :=
  (match va with
   | none => true
   | some v => e.vpn / 2 ^ (9 * e.level) == v / 2 ^ (9 * e.level)) &&
  (match asid with
   | none => true
   | some a => e.asid == a && !pteG e.pte)

/-- A pointer entry of the walk cache on the way to what a shoot-down removes. -/
def shootHitsWalk (va asid : Option Nat) (w : WalkEntry) : Bool :=
  (match va with
   | none => true
   | some v => w.vpn == v / 2 ^ (9 * w.level)) &&
  (match asid with
   | none => true
   | some a => w.asid == a)

/-- A walk that a shoot-down discards (R326): of the page, or one that has read a pointer PTE on the way to it, which must not come back into the
walk cache (R325). -/
def shootHitsPath (va asid : Option Nat) (w : Walk) : Bool :=
  (match va with
   | none => true
   | some v => w.vpn == v || (w.level ≤ 2 && w.vpn / 2 ^ 27 == v / 2 ^ 27)) &&
  (match asid with
   | none => true
   | some a => w.asid == a)

/-- The hart and the ASID of reduction traffic. -/
def auFrom : AuMsg → Nat × Nat
  | .openReq u _ a _ _ _ => (u, a)
  | .contribution u _ a _ _ _ => (u, a)
  | .fragment u a _ _ _ => (u, a)

/-- The harts' accesses on a die that passed their fault point have performed, whether the harts are resident or have been captured: at the homes and
the host, in other cores' windows, reductions on their way to the AUs, and lane stores that have begun; and no copy of the ASID is in phase B
there (R326). -/
def dieQuiet (s : State) (die : Nat) (asid : Option Nat) : Bool :=
  let of (a : Nat) : Bool := asid.all (· == a)
  let onDie (uid : Nat) : Bool := (slotAny s (uid % 2 ^ 60)).any fun k => dieOfSlot k == die
  !(s.mem.homeq.any fun r => r.uid != 0 && r.die == die && of r.asid) &&
  !(s.mem.busy.any fun b => b.req.uid != 0 && b.req.die == die && of b.req.asid && !b.granted) &&
  !(s.mem.out.any fun o => of o.asid && onDie o.uid) &&
  !(s.net.wins.any fun w => of w.asid && onDie w.uid && (accState s w == .open_ || accState s w == .loading)) &&
  !(s.reds.auq.any fun m => onDie (auFrom m).1 && of (auFrom m).2) &&
  !(s.harts.any fun p => dieOfSlot p.1 == die && of p.2.id.asid &&
      (((coreAt s (coreOfSlot p.1)).copies.any fun j => j.uid == p.2.id.uid && j.ready) ||
       (pendingEntries p.2).any fun e => e.eng == .lane && e.stage == .running))

/-- The translated accesses of the IOD's agents for the ASID have performed: the front end's and the RoCEv2 engine's at the homes, and theirs and
captured harts' at the host (R325). -/
def iodQuiet (s : State) (asid : Option Nat) : Bool :=
  let of (a : Nat) : Bool := a != noAsid && asid.all (· == a)
  !(s.mem.homeq.any fun r => r.die == 4 && of r.asid) && !(s.mem.busy.any fun b => b.req.die == 4 && of b.req.asid) &&
  !(s.mem.out.any fun o => of o.asid && o.uid < 2 ^ 60 && !(s.harts.any fun p => p.2.id.uid == o.uid))

/-- Copies of the ASID in phase A on a die are abandoned, with the data that was to come, and go back to run again (R218, R326). -/
def abandonCopies (s : State) (die : Nat) (asid : Option Nat) : State :=
  s.harts.foldl (fun s p =>
    if dieOfSlot p.1 == die && asid.all (· == p.2.id.asid) then
      let c := coreOfSlot p.1
      let mine (j : CopyJob) : Bool := j.uid == p.2.id.uid && !j.ready && !j.fin
      let seqs := ((coreAt s c).copies.filter mine).map fun j => j.seq
      let s := updCore s c fun c => { c with copies := c.copies.filter fun j => !mine j }
      seqs.foldl (fun s q => updE (dropCopyReads s p.2.id.uid q) p.1 q fun e => { e with stage := .queued }) s
    else s) s

/-- The dirty lines that a die's RDC owns. -/
def dirtyLines (s : State) (die : Nat) : List Nat :=
  (s.mem.rdc.filter fun p => p.1 / 2 ^ 40 == die && p.2.dirty.isSome).map fun p => p.1 % 2 ^ 40

/-- What a die removes for a shoot-down (R326): translations, walk-cache entries and walks; dirty RDC lines are written back; lane L1 lines and lines of the hart data caches go,
and instruction-cache lines of the ASID. A line may stand in a cache after the translation that brought it has been evicted, so the model
writes back and drops the lines of every page, which a cache may always do (log 48). -/
def shootDie (s : State) (die : Nat) (va asid : Option Nat) : State :=
  let mine (k : Nat) : Bool := k / 32 == die
  let s := (dirtyLines s die).foldl recallLine s
  let s := updXl s fun x => { x with
    slices := x.slices.map fun p => if mine p.1 then
      (p.1, ⟨p.2.tlb.filter fun e => !shootHits va asid e, p.2.wc.filter fun w => !shootHitsWalk va asid w⟩) else p,
    walks := x.walks.filter fun w => !(w.die == die && shootHitsPath va asid w) }
  let clean (c : Core) : Core :=
    { c with
      l1 := [],
      dcache := [],
      icache := c.icache.filter fun p => !(asid.all (· == p.1 / 2 ^ 40)) }
  abandonCopies { s with cores := s.cores.map fun p => if dieOfCore p.1 = die then (p.1, clean p.2) else p } die asid

/-- A shoot-down sent to the dies (R325); a die that is not online has nothing to remove and acknowledges at once (R326). -/
def sendShoot (s : State) (uid : Nat) (va asid : Option Nat) : Nat × State :=
  let (id, s) := freshUid s
  (id, updXl s fun x => { x with shoots := x.shoots ++ [⟨id, uid, va, asid, (List.range 4).filter fun d => dieState s d != 2⟩] })

/-- SHOOTDOWN_ARRIVAL: a die removes what the shoot-down names and acknowledges, once earlier accesses have performed (R326). -/
def execShootdownArrival (id die : Nat) (s : State) : Host.Outcome State Fault Refusal :=
  stepOf <| match s.xl.shoots.find? fun q => q.id == id with
    | none => s
    | some q =>
      if !q.dies.contains die then s
      else if !dieQuiet s die q.asid then s
      else
        let s := shootDie s die q.va q.asid
        updXl s fun x => { x with shoots := updFirst x.shoots (fun q => q.id == id) fun q => { q with dies := q.dies.filter (· != die) } }

/-- SCH_SHSTAT (R422). -/
def schShstat : Nat := 0x190068

/-- SHOOTDOWN_COMPLETE: every die has acknowledged, and the IOD's agents have no access left that a removed translation may have translated
(R325): the SFENCE.VMA that waits completes, or SCH_SHSTAT.BUSY clears. -/
def execShootdownComplete (id : Nat) (s : State) : Host.Outcome State Fault Refusal :=
  stepOf <| match s.xl.shoots.find? fun q => q.id == id with
    | none => s
    | some q =>
      if !q.dies.isEmpty || !iodQuiet s q.asid then s
      else
        let s := updXl s fun x => { x with shoots := delFirst x.shoots (· == q) }
        if q.uid = 0 then setReg s schShstat 0
        else match slotOfUid s q.uid with
          | none => s
          | some k => (match hartAt s k with
              | some h => if h.wait == some (.shoot id) then setHart s k (adv s k { h with wait := none } 4) else s
              | none => s)

/-- SFENCE.VMA (R325): illegal in U-mode, and in S-mode while TVM is set; once the hart's earlier stores, its lane stores among them, have
performed at device scope, a shoot-down is sent and the hart waits for it. -/
def execSfenceVma (rs1 rs2 : XR) (s : State) : Host.Outcome State Fault Refusal :=
  onHart s (.sfenceVma rs1 rs2) fun k h =>
    if h.mode = .u ∨ (h.mode = .s ∧ wbit h.s.mstatus msTVM) then illegal s k h (.sfenceVma rs1 rs2)
    else if writerPending h || !storesDone s h.id.uid .device then s
    else
      let va := if rs1 = 0 then none else some (vpnOf (rx h rs1))
      let asid := if rs2 = 0 then none else some ((rx h rs2).toNat % 2 ^ 16)
      let (id, s) := sendShoot s h.id.uid va asid
      setHart s k { h with wait := some (.shoot id) }

end Sys2Proof.Machine
end

