-- ==== Sys2Proof/Machine/Scheduler.lean ====
section
/-! DEFINITION. The deadline scheduler (15_deadline_scheduler): accounts that reach 0, deadlines, captures, saves and restores of
teams and handlers, window hand-overs, and the event ring. -/

namespace Sys2Proof.Machine

/-! ## Accounts and deadlines (R406 to R408) -/

/-- ACCOUNT_ZERO (R406): an account at 0 starts its grace. -/
def accountZero (s : State) (a : Nat) : State :=
  match tget s.work.accts a with
  | some ac => if atZero ac then overrun s a ac else s
  | none => s

def execAccountZero (a : Nat) (s : State) : Host.Outcome State Fault Refusal := stepOf (accountZero s a)

/-- A `vmvx` or a `twait`, which a capture saves as not begun (R208, R209, R254). -/
def savedUnbegun (i : Instr) : Bool := match i with
  | .vmvx _ | .twait _ => true
  | _ => false

/-- An operation in the tile port that a capture lets finish: any but a `twait` (R254). -/
def finishesIn (h : Hart) (o : MxOp) : Bool := o.uid == h.id.uid && match entryAt h o.seq with
  | some e => !savedUnbegun e.instr
  | none => false

/-- What a hart has begun has finished on every engine that finishes it (R412): the lane datapath, but for a `vmvx` (R208, R209), the
array, the tile port, but for a `twait` (R254), a chunk in phase B, the elements of a store that has begun (R176); a hart in M-mode has left it (R136), one that the debugger has halted
there too (DEDUCED, log 106). -/
def atBoundary (s : State) (k : Nat) (h : Hart) : Bool :=
  let c := coreAt s (coreOfSlot k)
  h.mode != .m && !((pendingEntries h).any fun e => isCompute e.instr && e.stage == .issued && !savedUnbegun e.instr) &&
  !(c.arrayPipe.any fun o => o.uid == h.id.uid) && !(c.port.any (finishesIn h)) &&
  !(c.copies.any fun j => j.uid == h.id.uid && j.ready && !j.fin) && !((pendingEntries h).any fun e => e.eng == .lane && e.stage == .running)

/-- The teams and handlers that an account pays for (R407). -/
def paidTeams (s : State) (a : Nat) : List Nat := (s.work.teams.filter fun p => p.2.acct == a && p.2.stat != .ended).map (·.1)

/-- GRACE_EXPIRY (R407): harts charged to the account stop forwarding; when each has reached a boundary, all are ended and their
resources are free. A team that is being saved is discarded once it is saved (R424). -/
def graceExpiry (s : State) (a : Nat) : State :=
  let mine := s.harts.filter fun p => p.2.id.acct == a
  if mine.any fun p => p.2.capture.isNone then
    { s with harts := s.harts.map fun p => if p.2.id.acct = a ∧ p.2.capture.isNone then (p.1, { p.2 with capture := some s.clock.clk }) else p }
  else if mine.any (fun p => !atBoundary s p.1 p.2) then s
  else
    let s := stopPlacing s fun _ g => g.acct == a && match g.origin with
      | .team _ => true
      | .queue _ _ => false
    let s := discardHandlers s (fun h => h.id.acct == a) true
    let live (s : State) (tk : Nat) : Bool := match tget s.work.teams tk with
      | some t => t.stat != .saving
      | none => false
    let s := ((paidTeams s a).filter (live s)).foldl discardTeam s
    if (paidTeams s a).isEmpty then updAcct s a fun ac => { ac with closed := true } else s

/-- An account whose grace is over: in that clk its harts forward nothing more, its engines begin nothing more, and its child grids place no team
(R407). -/
def graceTick (s : State) (a : Nat) : State :=
  match tget s.work.accts a with
  | none => s
  | some ac =>
    if ac.closed || !(ac.graceEnd.any fun e => e ≤ s.clock.clk) then s
    else
      let s : State := { s with harts := s.harts.map fun p =>
        if p.2.id.acct = a ∧ p.2.capture.isNone then (p.1, { p.2 with capture := some s.clock.clk }) else p }
      stopPlacing s fun _ g => g.acct == a && match g.origin with
        | .team _ => true
        | .queue _ _ => false

def execGraceExpiry (a : Nat) (s : State) : Host.Outcome State Fault Refusal :=
  stepOf <| match tget s.work.accts a with
    | some ac => (match ac.graceEnd with
        | some e => if e ≤ s.clock.clk ∧ !ac.closed then graceExpiry s a else s
        | none => s)
    | none => s

/-- DEADLINE_MISS (R408): a grid whose deadline device time has reached before it retired misses it, once, in that clk. -/
def deadlineMiss (s : State) (g : Nat) : State :=
  match tget s.work.grids g with
    | none => s
    | some gr =>
      if !missDue s gr then s
      else
        let s := raiseIrq s 20 (hartUnder s g)
        let s := updGrid s g fun g => { g with missed := true }
        pushEvent (bumpReg s cntMiss 63 1) { type := 6, asid := gr.asid, grid := gr.num, pa := 0, team := 0, core := 0xFF }

def execDeadlineMiss (g : Nat) (s : State) : Host.Outcome State Fault Refusal := stepOf (deadlineMiss s g)

/-! ## The event ring (R422, R423) -/

def evtBase : Nat := schBase + 0x20
def evtCfg : Nat := schBase + 0x28
def evtHead : Nat := schBase + 0x30
def evtTail : Nat := schBase + 0x38

/-- 2^(ELOG + 4) records. -/
def evtSize (s : State) : Nat := 2 ^ (bitsOf (reg s evtCfg) 0 4 + 4)

/-- A record about the team record at pa waits to be written: saves, restores and hand-overs of it stall (R423). -/
def evPending (s : State) (pa : Nat) : Bool := s.sch.evq.any fun e => e.pa == pa

/-- The window hand-over of a record that SCH_WINREL has named is done (R419), once its WINVAC or WINMAP record is written (R423) and, for a restore,
its images may be read: a save's windows may be reused; a restore's are filled from their images and open. -/
def finishHandOver (s : State) (tk : Nat) : State :=
  match tget s.work.teams tk with
  | none => s
  | some t =>
    let images : Bool := t.stat != .restoring || homeFree s (recWin t.recPa 0) (4096 * t.wins.length)
    if !t.handOver || !t.released || (s.sch.evq.any fun e => e.pa == t.recPa && (e.type == 2 || e.type == 3)) || !images then s
    else
      let s := updTeam s tk fun t => { t with handOver := false, released := false }
      if t.stat == .restoring then
        let s := (t.wins.zip (List.range t.wins.length)).foldl (fun s p => lostFault (loadWin s t.core p.1 (recWin t.recPa p.2)) t.asid (recWin t.recPa p.2) 4096) s
        updCore s t.core fun c => { c with winLoad := c.winLoad.filter fun w => !t.wins.contains w }
      else
        { s with cores := s.cores.map fun p => (p.1, { p.2 with winVac := p.2.winVac.filter fun x => x.2.1 != tk }) }

/-- What follows a record that is visible: TAIL advances, DEVV of port 0 is raised, and a hand-over that waited for the record goes on. -/
def afterEvent (s : State) (e : EvtRec) (rest : List EvtRec) : State :=
  let s := raiseDevv { setReg s evtTail (reg s evtTail + 1) with sch := { s.sch with evq := rest, evReqs := [] } } 0
  match teamOfRec s e.pa with
  | some (tk, _) => finishHandOver s tk
  | none => s

/-- EVENT_RECORD_WRITE (R423): the oldest waiting event is written while the ring has room, at once, or, when the home must make the write in its
turn, as a request that is awaited (R289, R355, R374). -/
def execEventRecordWrite (s : State) : Host.Outcome State Fault Refusal :=
  stepOf <| match s.sch.evq with
    | [] => s
    | e :: rest =>
      let n := reg s evtTail
      let size := evtSize s
      let at_ := reg s evtBase + 32 * (n % size)
      let bs := leBytes 1 e.type ++ leBytes 1 ((n / size + 1) % 2) ++ leBytes 2 e.asid ++ leBytes 4 e.grid ++ leBytes 8 e.pa ++
        leBytes 4 e.team ++ leBytes 1 e.core ++ List.replicate 3 0 ++ leBytes 8 (timeNow s)
      if !s.sch.evReqs.isEmpty then (if s.sch.evReqs.all (reqDone s) then afterEvent s e rest else s)
      else if !(reg s evtCfg).testBit 4 || n ≥ reg s evtHead + size then s
      else if (linesOf at_ 32).any (mustQueue s) then
        let r := feStore s noAsid at_ bs
        { r.2 with sch := { r.2.sch with evReqs := r.1 } }
      else afterEvent (homeWrite s 0 at_ bs) e rest

/-- EVT_HEAD_WRITE (R422). -/
def execEvtHeadWrite (v : Nat) (s : State) : Host.Outcome State Fault Refusal :=
  stepOf (if reg s evtHead ≤ v ∧ v ≤ reg s evtTail then setReg s evtHead v else s)

/-- EVT_CFG_WRITE (R422): while EN is 1 only EN changes; ELOG 9 to 15 is ignored; EN going from 0 to 1 clears the indexes. -/
def execEvtCfgWrite (v : Nat) (s : State) : Host.Outcome State Fault Refusal :=
  stepOf <|
    let old := reg s evtCfg
    let en := b2n (v.testBit 4)
    if old.testBit 4 then setReg s evtCfg (setBits old 4 1 en)
    else if v % 16 ≥ 9 then s
    else
      let s := setReg s evtCfg (v % 16 + 16 * en)
      if en = 1 then setReg (setReg s evtHead 0) evtTail 0 else s

/-- SCH_CNT_CLR (R422). -/
def execSchCntClr (s : State) : Host.Outcome State Fault Refusal :=
  stepOf ([cntEvict, cntCoop, cntOvr, cntMiss].foldl (fun s r => setReg s r 0) s)

/-- SCH_SHOOT (R422): a shoot-down as SFENCE.VMA makes one; ignored while one is BUSY. -/
def execSchShoot (v : Nat) (s : State) : Host.Outcome State Fault Refusal :=
  stepOf <|
    if !v.testBit 18 || (reg s schShstat).testBit 0 then s
    else
      let va := if v.testBit 17 then none else some (bitsOf (reg s (schBase + 0x58)) 12 36)
      let asid := if v.testBit 16 then none else some (v % 2 ^ 16)
      setReg (sendShoot s 0 va asid).2 schShstat 1

/-! ## Capture (R413, R415, R416, R418) -/

/-- SCH_YWAIT (R413, R422). -/
def ywaitLower (s : State) : Nat := bitsOf (reg s (schBase + 0x10)) 0 16
def ywaitIbex (s : State) : Nat := bitsOf (reg s (schBase + 0x10)) 16 16

/-- A capture is forced: each hart of the team stops at its next boundary. -/
def forceCapture (s : State) (tk : Nat) : State :=
  let hit (h : Hart) : Bool := !h.id.handler && h.id.team == tk
  let s := updTeam s tk fun t => { t with stat := .capturing, yieldEnd := none }
  { s with harts := s.harts.map fun p => if hit p.2 then (p.1, { p.2 with capture := some s.clock.clk }) else p }

/-- A cooperative window of w clk is offered (R413). -/
def offerYield (s : State) (tk w : Nat) : State :=
  let hit (h : Hart) : Bool := !h.id.handler && h.id.team == tk
  let s := raiseIrq s 18 hit
  let s := { s with harts := s.harts.map fun p => if hit p.2 then (p.1, { p.2 with l := { p.2.l with yreq := true } }) else p }
  updTeam s tk fun t => { t with yieldEnd := some (coreClk s t.core + w) }

/-- A capture of a team is requested: with no window, or of Ibex work, it is forced at once. -/
def requestCapture (s : State) (w tk : Nat) : State :=
  match tget s.work.teams tk with
  | none => s
  | some t =>
    if t.stat != .live || t.yieldEnd.isSome || t.handOver then s
    else
      let ibex : Bool := match gridOf s t with
        | some g => g.cls == 0
        | none => false
      if w = 0 || ibex then forceCapture s tk else offerYield s tk w

/-- The teams that leave with a team: all of its gang (R418). -/
def leavesWith (s : State) (tk : Nat) : List Nat :=
  match tget s.work.teams tk with
  | none => []
  | some t =>
    match gridOf s t with
    | some g => if g.spec.gang then (s.work.teams.filter fun p => p.2.grid == t.grid && p.2.stat == .live).map (·.1) else [tk]
    | none => [tk]

/-- Capture of a team, or of its gang, with a window. -/
def captureAll (s : State) (w tk : Nat) : State := (leavesWith s tk).foldl (fun s t => requestCapture s w t) s

/-- Lower-class teams of a core in the order in which they leave (R415): Oryx before Kudu, a higher-numbered level first, the most
recently placed first. -/
def victimOrder (s : State) (core : Nat) : List Nat :=
  let key (t : Team) (g : Grid) : Nat := (g.cls * 4 + g.level) * 2 ^ 64 + t.order
  let ins (n k : Nat) (l : List (Nat × Nat)) : List (Nat × Nat) := (l.filter fun q => q.1 > n) ++ [(n, k)] ++ (l.filter fun q => q.1 ≤ n)
  (s.work.teams.foldl (fun l p => match gridOf s p.2 with
    | some g => if p.2.core = core ∧ g.cls ≠ 0 ∧ p.2.stat = .live then ins (key p.2 g) p.1 l else l
    | none => l) []).map (·.2)

/-- The victims on a core for a team of a grid: the shortest run of the order that makes it fit, gangs whole; none when
even all do not suffice. -/
def victimsOn (s : State) (core : Nat) (g : Grid) (idxs : List Nat) (own : Option Team) : List Nat → List Nat → Option (List Nat)
  | rest, got =>
    if (planTeam (without s (leaving s ++ got)) core g idxs own).isSome then some got
    else match rest with
      | [] => none
      | t :: rest => victimsOn s core g idxs own rest (got ++ (leavesWith s t).filter fun x => !got.contains x)

/-- Bytes that saving teams writes (R416). -/
def saveBytes (s : State) (ts : List Nat) : Nat :=
  ts.foldl (fun a tk => match tget s.work.teams tk with
    | some t => (match gridOf s t with
        | some g => a + recBytes g.spec - 0x11000 + 512
        | none => a)
    | none => a) 0

/-- The core chosen by R415 of some cores, and its victims: the fewest teams, then the fewest bytes, then the lowest number. -/
def chooseVictims (s : State) (g : Grid) (cs idxs : List Nat) (own : Option Team) : Option (List Nat) :=
  (cs.foldl (fun (b : Option (Nat × Nat × Nat × List Nat)) c =>
    match victimsOn s c g idxs own (victimOrder s c) [] with
    | none => b
    | some v =>
      let n := v.length
      let m := saveBytes s v
      match b with
      | some (n', m', c', _) => if n < n' || (n = n' && (m < m' || (m = m' && c < c'))) then some (n, m, c, v) else b
      | none => some (n, m, c, v)) none).map fun x => x.2.2.2

/-- The claims that the first teams of a waiting gang would take, up to the team that fits no core; none when all fit (R24, R415). -/
def gangShort (gk : Nat) (g : Grid) (cores : List Nat) : Nat → State → Option State
  | 0, _ => none
  | n + 1, s => match bestClaimIn s g cores (List.range g.spec.harts) none with
    | some cl => gangShort gk g cores n (pretend s gk g cl)
    | none => some s

/-- The victims that make room for the next team of an Ibex grid, none when it fits; for a gang, which is placed at once, for the
first of its teams that does not fit beside the others (DEDUCED from R24 and R415, log 115). -/
def victimsFor (s : State) (gk : Nat) (g : Grid) (home : Option Nat) : Option (List Nat) :=
  if g.spec.gang then
    match gangShort gk g (gangCores s gk g home) g.spec.teams s with
    | none => none
    | some _ =>
      let s := without s (leaving s)
      match gangShort gk g (gangCores s gk g home) g.spec.teams s with
      | none => none
      | some s => chooseVictims s g (candidates s gk g home) (List.range g.spec.harts) none
  else if (bestClaim s gk g home (List.range g.spec.harts) none).isSome then none
  else chooseVictims s g (candidates s gk g home) (List.range g.spec.harts) none

/-- The claims of the teams that return together, up to the first that fits no core; none when all fit. -/
def backShort (held : List Nat) (s : State) : List Nat → Option (State × Nat)
  | [] => none
  | tk :: rest =>
    match tget s.work.teams tk with
    | none => none
    | some t => match gridOf s t with
      | none => none
      | some g => match returnClaimIn s held tk t g with
        | none => some (s, tk)
        | some cl =>
          let back (t : Team) : Team := { t with core := cl.core, slots := cl.slots, wins := cl.wins, tiles := cl.tiles, stat := .restoring }
          backShort held { s with work := { s.work with teams := tupd s.work.teams tk back } } rest

/-- The victims that make room for a saved Ibex team that is to return, or for the first team of its gang that does not fit (R415, R417). -/
def victimsBack (s : State) (tk : Nat) (t : Team) (g : Grid) : Option (List Nat) :=
  let ts := returnsWith s tk t g
  let held := heldCores s t.grid g
  match backShort held s ts with
  | none => none
  | some _ => match backShort held (without s (leaving s)) ts with
    | none => none
    | some (_, short) => match tget s.work.teams short with
      | none => none
      | some t' => chooseVictims s g ((anyCores s t'.grid g none).filter fun c => !held.contains c) (savedIdxs s short) (some t')

/-- A team whose context is evicted, or whose die is going offline, is to leave (R421, R440). -/
def mustLeave (s : State) (t : Team) : Bool := (ctxOf s t.asid).hold || dieState s (dieOfCore t.core) == 1

/-- A saved team may return: its hand-over is done, its record is written, its context runs. -/
def mayReturn (s : State) (t : Team) : Bool :=
  t.stat == .saved && !t.handOver && !evPending s t.recPa && !(ctxOf s t.asid).hold && !ctxDead s t.asid && ctxFree s t.asid

/-- CAPTURE_REQUEST (R413, R415, R417, R421): kind 0, the next team of the Ibex grid `grid` fits no core, and victims are chosen for it;
kind 2, the same for the saved Ibex team `team` that is to return; any other, team `team` must leave, for its context is evicted or its die goes
offline. -/
def execCaptureRequest (grid team kind : Nat) (s : State) : Host.Outcome State Fault Refusal :=
  stepOf <|
    if kind = 0 then
      match tget s.work.grids grid with
      | none => s
      | some g =>
        if !mayPlace s g || g.cls != 0 || outrankedGrid s grid g then s
        else match dataHome s g with
          | (.wait, s) => s
          | (.bad, _) => s
          | (r, s) =>
            match victimsFor s grid g (homeCore? r) with
            | some v => v.foldl (fun s t => requestCapture s (ywaitIbex s) t) s
            | none => s
    else if kind = 2 then
      match tget s.work.teams team with
      | none => s
      | some t => match gridOf s t with
        | none => s
        | some g =>
          if !mayReturn s t || g.cls != 0 || outrankedGrid s t.grid g then s
          else ((victimsBack s team t g).map fun v => v.foldl (fun s t => requestCapture s (ywaitIbex s) t) s).getD s
    else match tget s.work.teams team with
      | some t => if mustLeave s t then captureAll s (ywaitLower s) team else s
      | none => s

/-- A team's capture is forced, with its gang's in the same step (R418). -/
def forceAll (s : State) (tk : Nat) : State := (leavesWith s tk).foldl forceCapture s

/-- YIELD_WINDOW_EXPIRY (R413): in the clk after the window of a hart's team ends, the capture is forced. -/
def execYieldWindowExpiry (h : Nat) (s : State) : Host.Outcome State Fault Refusal :=
  stepOf <| match hartAt s h with
    | none => s
    | some hh =>
      match teamOf s hh with
      | none => s
      | some t => (match t.yieldEnd with
          | some e => if e < slotClk s h && t.stat == .live then forceAll s hh.id.team else s
          | none => s)

/-- A lane atomic. -/
def isVamo (i : Instr) : Bool := match i with
  | .vamo _ | .vamoAq _ | .vamoRl _ | .vamoAqrl _ => true
  | _ => false

/-- An entry as a capture saves it (R153, R176, R208, R209, R230, R254, R287): what awaits an answer stays, and LMASK of a lane atomic keeps
the lanes not sent, a store whose elements are all handed over is DONE, LMASK and RIDX of a `vcst` pass the element that is sent, `vpf` is dropped, other work that is INFLIGHT will run again, with PART for lane memory work of which some elements have
performed, and with STARTED = 0 for lane work left in the queue and for a `vmvx` or `twait` not complete, replays too; a park forgets its
resolution. -/
def captureEntry (s : State) (uid : Nat) (fin : Bool) (e : Entry) : Entry :=
  let part : Bool := e.part || (isLaneMem e.instr && e.lmask != e.fmask)
  match e.st with
  | .inflight =>
    (match e.instr with
     | .vpf _ => { e with st := .done, lmask := 0, stage := .sent }
     | .vcst _ =>
       let sent := (lanesOf e.lmask).filter (laneOut s uid e.seq)
       let left := maskOf fun l => mbit e.lmask l && !sent.contains l
       let e := { e with lmask := left, opb := e.opb + BitVec.ofNat 32 sent.length, flt := [], part := e.part || left != e.fmask, stage := .queued }
       if left = 0 then { e with st := .done, stage := .sent } else e
     | i =>
       if isVamo i && e.await then
         let sent (l : Nat) : Bool := laneOut s uid e.seq l || s.mem.replies.any fun r => r.to_ == .lane uid e.seq l
         let left := maskOf fun l => mbit e.lmask l && !sent l
         if entryOut s uid e.seq then { e with part := part || left != e.fmask, flt := [], lmask := left }
         else { e with stage := .queued, flt := [], part := part, await := false }
       else if handedOver e then { e with st := .done, lmask := 0 }
       else if fin then { e with st := .done, await := false, stage := .sent }
       else if e.await then e
       else { e with stage := .queued, flt := [], part := part, started := e.started && !savedUnbegun i && !(e.eng == .lane && (e.stage == .queued || e.stage == .refetch)) })
  | .parked => { e with resolved := false }
  | _ => e

/-- The page of an address has a cached leaf of type 100: host memory. -/
def hostLeaf (s : State) (die asid : Nat) (va : Word) : Bool :=
  (sliceAt s die (sliceOf va)).tlb.any fun e => tlbHit asid (vpnOf va) e && pteTgt e.pte == 4

/-- The reduction entry of a captured hart goes to its AU as a fragment, or is lost (R210); none while the walk of its page is under
way. Host memory is no target of it, so that no ATS answer is awaited. The address is checked in the hart's present mode and with its present SUM
and MXR (DESIGN CHOICE, log 125). -/
def sendFragment (s : State) (k : Nat) (h : Hart) : Option (Hart × State) :=
  match tget s.reds.buf k with
  | none => some (h, s)
  | some r =>
    let va : Word := (BitVec.ofNat 48 r.va).signExtend 64
    let freed (s : State) : State := { s with reds := { s.reds with buf := tdel s.reds.buf k } }
    let lost (s : State) : Option (Hart × State) := some ({ h with frag := some (r.va, r.fmt) }, freed s)
    match xlate s (dieOfSlot k) h.id.asid (ctxOf s h.id.asid).satp va .amo h.mode (wbit h.s.mstatus msSUM) (wbit h.s.mstatus msMXR) none with
    | (.wait, s') => if hostLeaf s' (dieOfSlot k) h.id.asid va then lost s else none
    | (.ok (.hbm pa _), s) =>
      let (ord, s) := freshUid s
      let c : Contrib := { core := coreOfSlot k, quad := quadOfSlot k, slot := slotInQuad k, order := ord, fin := false, parts := r.parts, line := 0 }
      let s := freed s
      some (h, { s with reds := { s.reds with auq := s.reds.auq ++ [.fragment h.id.uid h.id.asid pa r.fmt c] } })
    | (_, s) => lost s

/-- Data that loads and copies of a hart still wait for is discarded when it arrives (R136, R176, R230), but not the parts of a load whose
reply goes to PENDREG (R136, R139). -/
def cancelReads (s : State) (uid : Nat) (pend : Bool) : State :=
  let isRead (a : WinAcc) : Bool := a.uid % 2 ^ 60 == uid && (a.op == .load || a.op == .lr)
  let drop (o : OutReq) : OutReq := match o.reply with
    | .lane u _ _ => if u = uid ∧ o.atomic.isNone then { o with reply := .none } else o
    | .copy u q _ => if u = uid ∧ !(pend && q ≥ 2 ^ 16) then { o with reply := .none } else o
    | _ => o
  let s := { s with net := { s.net with wins := s.net.wins.filter fun a => !isRead a, winReps := s.net.winReps.filter fun r => !isRead r.acc } }
  updMem s fun m => { m with out := m.out.map drop }

/-- The pc of a hart whose wait ends early without a trap: after a WRS, which is a spurious wake, else the wait itself (R121). -/
def earlyPc (h : Hart) : Word :=
  match h.wait with
  | some (.wrs _ _) => h.pc + 4
  | _ => h.pc

/-- The state a capture saves (R136, R176, R308, R413): waits end at their instruction, the reservation is gone, YREQ and
interrupt 18 are clear, every copy not begun again goes back to its queue. -/
def captureHart (s : State) (k : Nat) (h : Hart) : Option (Hart × State) :=
  match sendFragment s k h with
  | none => none
  | some (h, s) =>
    let uid := h.id.uid
    let fins := (coreAt s (coreOfSlot k)).copies.filter fun j => j.uid == uid && j.fin
    let s := cancelReads (loseResv s h) uid h.pend.isSome
    let h := { h with
      pc := earlyPc h, resv := none, wait := none, ahead := [], parts := if h.pend.isSome then h.parts else [], laneQ := [], ending := false, notReady := 0, capture := none,
      l := { h.l with yreq := false }, s := { h.s with mip := setBit h.s.mip 18 false },
      ring := h.ring.map fun p => (p.1, captureEntry s uid (fins.any fun j => j.seq == p.2.seq) p.2),
      msg := { h.msg with body := [], bodyErr := none } }
    let s := updCore s (coreOfSlot k) fun c =>
      { c with
        monitors := c.monitors.filter fun m => m.uid != uid,
        copies := c.copies.filter fun j => j.uid != uid || j.fin,
        mdq := c.mdq.map fun p => (p.1, p.2.filter fun m => m.slot != k),
        port := c.port.filter fun o => o.uid != uid,
        keep := tdel c.keep (quadOfSlot k) }
    some (h, s)

/-- A hart moved from its slot to the saved ones. -/
def putSaved (s : State) (k : Nat) (h : Hart) (pa : Nat) : State :=
  { s with harts := tdel s.harts k,
           work := { s.work with saves := tput s.work.saves h.id.uid { hart := h, slot := k, pa := pa, freed := false, claimed := false } } }

/-- Every captured hart of a list, or none while one cannot be saved yet. -/
def captureList (s : State) : List (Nat × Hart) → List (Nat × Hart) → Option (List (Nat × Hart) × State)
  | [], acc => some (acc, s)
  | (k, h) :: rest, acc =>
    match captureHart s k h with
    | none => none
    | some (h, s) => captureList s rest (acc ++ [(k, h)])

/-- An away entry of a slot, at the core and in the context's directory (R274): RUN = 0 and the record's PA. -/
def setAway (s : State) (t : Team) (k hidx : Nat) : State :=
  let a : Away := { asid := t.asid, teamNo := t.idx % 2 ^ 24, hidx := hidx, run := false, whereTo := t.recPa }
  let s := updCore s (coreOfSlot k) fun c => { c with away := tput c.away k a }
  ctxWrite s t.asid (awayBase s t.asid + 16 * k) (leBytes 8 (a.teamNo + hidx * 2 ^ 24 + 2 ^ 31) ++ leBytes 8 t.recPa)

/-- CAPTURE_COMPLETE of a team (R416 steps 2 and 3, R137, R138, R274): every hart at its boundary, the record is written, the
windows have moved, and messages are diverted. A parity error of a register that the save reads is a context fault (R161). -/
def captureTeam (s : State) (tk : Nat) (t : Team) (g : Grid) : State :=
  let harts := hartsOf s tk
  if harts.any fun p => !atBoundary s p.1 p.2 then s
  else if harts.any fun p => !p.2.vbad.isEmpty then contextFault s t.asid 1
  else match captureList s harts [] with
    | none => s
    | some (saved, s) =>
      let s := writeRecordOf s g t saved
      let s := saved.foldl (fun s p => setAway (putSaved s p.1 p.2 (recHart g t.recPa p.2.id.hidx)) t p.1 p.2.id.hidx) s
      let vac := (t.wins.zip (List.range t.wins.length)).map fun p => (p.1, (tk, p.2))
      let s := updCore s t.core fun c => { c with winVac := vac.foldl (fun l v => tput l v.1 v.2) c.winVac }
      let s := dropWinResv s t.core t.wins
      let s := updTeam s tk fun t => { t with stat := .saving, slots := saved.map (·.1), told := 0, handOver := !t.wins.isEmpty,
                                              aways := (t.aways ++ saved.map (·.1)).eraseDups }
      if t.wins.isEmpty then s else updTeam (teamEvent s 2 tk) tk fun t => { t with told := 2 }

/-- CAPTURE_COMPLETE of a handler (R278, R420): its record and its landing window take one unit of the save area. -/
def captureHandler (s : State) (k : Nat) (h : Hart) : State :=
  if !atBoundary s k h then s
  else if !h.vbad.isEmpty then contextFault s h.id.asid 1
  else match allocRec s h.id.asid 1 with
    | none => s
    | some pa =>
      match captureHart s k h with
      | none => s
      | some (h, s) =>
        let s := ctxWrite s h.id.asid pa (hartRecord s k h ++ readWin s (coreOfSlot k) h.id.land 0 4096)
        putSaved s k h pa

/-- CAPTURE_COMPLETE of team i, or of the handler hart with uid i. -/
def execCaptureComplete (i : Nat) (s : State) : Host.Outcome State Fault Refusal :=
  stepOf <| match tget s.work.teams i with
    | some t =>
      (match gridOf s t with
       | some g => if t.stat == .capturing && !ctxDead s t.asid && ctxFree s t.asid then captureTeam s i t g else s
       | none => s)
    | none =>
      match slotOfUid s i with
      | some k => (match hartAt s k with
          | some h => if h.id.handler && h.capture.isSome && !ctxDead s h.id.asid && ctxFree s h.id.asid then captureHandler s k h else s
          | none => s)
      | none => s

/-- The earlier stores of a saved hart and of its copies have performed at device scope, and no copy is left but those whose message follows that of
an earlier copy, saved with the hart (R140, R224, R230). -/
def savePerformed (s : State) (z : SavedHart) : Bool :=
  let uid := z.hart.id.uid
  let behind (j : CopyJob) : Bool := z.hart.ring.any fun p => p.2.eng == .copy && p.2.st != .done && seqBefore p.2.seq j.seq
  storesDone s uid .device && storesDone s (copyUid uid) .device &&
    !(s.cores.any fun p => p.2.copies.any fun j => j.uid == uid && !behind j)

/-- Finished copies of a hart whose messages are still to be posted go with it to another core (R230). -/
def moveJobs (s : State) (uid core : Nat) : State :=
  let jobs := s.cores.flatMap fun p => p.2.copies.filter fun j => j.uid == uid
  if jobs.isEmpty then s
  else
    let s : State := { s with cores := s.cores.map fun p => (p.1, { p.2 with copies := p.2.copies.filter fun j => j.uid != uid }) }
    updCore s core fun c => { c with copies := c.copies ++ jobs }

/-- Step 5 of R416: slots, registers, tiles and barriers are free; the record's header names no core. CNT_EVICT counts teams saved
by R415 or R421, not those that an OFF command saves. -/
def finishSave (s : State) (tk : Nat) (t : Team) : State :=
  let s := { s with work := { s.work with saves := s.work.saves.map fun p =>
    if !p.2.hart.id.handler && p.2.hart.id.team == tk then (p.1, { p.2 with freed := true }) else p } }
  let (ord, s) := freshUid s
  let s := updTeam s tk fun t => { t with stat := .saved, order := ord, slots := [] }
  let s := ctxWrite s t.asid (t.recPa + 0x18) [0xFF]
  if dieState s (dieOfCore t.core) == 1 && !(ctxOf s t.asid).hold then s else bumpReg s cntEvict 63 1

/-- The account of a team has ended its grace: the team is discarded as soon as it is saved (R424). -/
def doomed (s : State) (t : Team) : Bool :=
  match tget s.work.accts t.acct with
  | some a => a.graceEnd.any fun e => e ≤ s.clock.clk
  | none => false

/-- SAVE_COMPLETE of team i, or of a handler with uid i (R416 steps 4 and 5, R423): the writes have performed, the SAVED record is
written, and the resources are free. -/
def execSaveComplete (i : Nat) (s : State) : Host.Outcome State Fault Refusal :=
  stepOf <| match tget s.work.teams i with
    | some t =>
      if t.stat != .saving || evPending s t.recPa || (savesOf s i).any (fun p => !savePerformed s p.2) then s
      else if t.told ≠ 1 then updTeam (teamEvent s 1 i) i fun t => { t with told := 1 }
      else
        let s := finishSave s i t
        if doomed s t then discardTeam s i else s
    | none =>
      match tget s.work.saves i with
      | some z =>
        if z.hart.id.handler && !z.freed && savePerformed s z then
          { s with work := { s.work with saves := tupd s.work.saves i fun z => { z with freed := true } } }
        else s
      | none => s

/-! ## Return (R417 to R420) -/

/-- The record of a team may be read at its homes (R289, R355). -/
def recFree (s : State) (t : Team) (g : Grid) : Bool := homeFree s t.recPa (recBytes g.spec)

/-- An earlier-saved team of the same class and level, or its whole gang, can return now and goes first (R417); Ibex teams go by deadline first
(R396). -/
def earlierReturn (s : State) (t : Team) (g : Grid) : Bool :=
  s.work.teams.any fun p => p.2.order < t.order && mayReturn s p.2 && match gridOf s p.2 with
    | some g' => g'.cls == g.cls && g'.level == g.level && (g.cls != 0 || g'.dline == g.dline) && !(g'.spec.gang && p.2.grid == t.grid) && couldReturn s p.1 p.2 g'
    | none => false

/-- The saved harts of a team take the slots claimed for them. -/
def claimSlots (s : State) (tk : Nat) (cl : Claim) : State :=
  let s := (savesOf s tk).foldl (fun s p => moveJobs s p.1 cl.core) s
  let slotFor (i : Nat) : Nat := cl.slots.getD ((savedIdxs s tk).idxOf i) 0
  { s with work := { s.work with saves := s.work.saves.map fun p =>
    if !p.2.hart.id.handler && p.2.hart.id.team == tk then (p.1, { p.2 with slot := slotFor p.2.hart.id.hidx, claimed := true }) else p } }

/-- TEAM_RESTORE of a team (R22, R138, R417, R419): it claims a core, its header is written, its barriers and tiles are
loaded, and a lost line among them is an uncorrectable error of its context (R306); with windows, a WINMAP record is written and they stay loading until the hand-over. Its hart records are loaded as it starts. -/
def restoreTeam (s : State) (tk : Nat) (t : Team) (g : Grid) (cl : Claim) : State :=
  let s := claimSlots s tk cl
  let (ord, s) := freshUid s
  let bars := loadBars s t.recPa
  let f (t : Team) : Team := { t with core := cl.core, slots := cl.slots, wins := cl.wins, tiles := cl.tiles, stat := .restoring, bars := bars,
                                      handOver := !cl.wins.isEmpty, told := 0, order := ord }
  let s := updTeam s tk f
  let s := updCore s cl.core fun c => { c with away := c.away.filter fun p => !cl.slots.contains p.1, winLoad := c.winLoad ++ cl.wins }
  let s := writeHeader s g (f t) cl.core
  let s := loadTiles s g (f t)
  let s := lostFault s t.asid (t.recPa + 0x100) 256
  let s := if t.tiles.isEmpty then s else lostFault s t.asid (recTiles g t.recPa) (tileRegion t.tiles.length)
  if cl.wins.isEmpty then s else updTeam (teamEvent s 3 tk) tk fun t => { t with told := 3 }

/-- A whole gang returns in one step, or nothing does (R418). -/
def restoreGang (s : State) : List Nat → Option State
  | [] => some s
  | tk :: rest =>
    match tget s.work.teams tk with
    | none => none
    | some t =>
      match gridOf s t with
      | none => none
      | some g =>
        if !mayReturn s t || !recFree s t g then none
        else match returnClaim s tk t g with
          | none => none
          | some cl => restoreGang (restoreTeam s tk t g cl) rest

/-- No commit of the tenant is pending. -/
def noCommit (s : State) (tenant : Nat) : Bool := s.fe.commit.all fun c => c.1 != tenant

/-- TEAM_RESTORE of a handler (R420): a slot of its core's pool that no waiting Ibex message takes before it (R278, R396), and its landing window,
filled from its record. -/
def restoreHandler (s : State) (uid : Nat) (z : SavedHart) : State :=
  let core := coreOfSlot z.slot
  let free := freeHandlerSlots { s with work := { s.work with saves := tdel s.work.saves uid } } core
  match free.drop (if z.hart.id.cls = 0 then 0 else ibexWaiting s core) with
  | [] => s
  | k :: _ =>
    let win := landingWin s k
    let s := loadWin s core win (z.pa + hartRecBytes z.hart.id.nv)
    let s := lostFault s z.hart.id.asid (z.pa + hartRecBytes z.hart.id.nv) 4096
    let z := { z with slot := k, claimed := true, hart := { z.hart with id := { z.hart.id with land := win } } }
    { s with work := { s.work with saves := tput s.work.saves uid z } }

def execTeamRestore (i : Nat) (s : State) : Host.Outcome State Fault Refusal :=
  stepOf <| match tget s.work.teams i with
    | some t =>
      (match gridOf s t with
       | none => s
       | some g =>
         if !mayReturn s t || !noCommit s g.tenant || outrankedGrid s t.grid g || earlierReturn s t g then s
         else if g.spec.gang then
           ((restoreGang s (returnsWith s i t g)).map fun u => { u with arbs := (notePlaced s t.grid g).arbs }).getD s
         else if !recFree s t g then s
         else match returnClaim s i t g with
           | some cl => restoreTeam (notePlaced s t.grid g) i t g cl
           | none => s)
    | none =>
      match tget s.work.saves i with
      | some z =>
        if z.hart.id.handler && z.freed && !z.claimed && !(ctxOf s z.hart.id.asid).hold && !ctxDead s z.hart.id.asid &&
            homeFree s z.pa 65536 then restoreHandler s i z else s
      | none => s

/-- Every AWAIT and PEND of a saved hart has cleared (R139, R176, R417). -/
def awaitsClear (h : Hart) : Bool :=
  h.pend.isNone && (ringOldest h).all fun e => !(e.st == .inflight && e.await)

/-- Re-forwarding at a restore (R159, R176, R177, R324): INFLIGHT and PARKED entries, in sequence order, as replays whose bits are fetched
again. -/
def reforward (h : Hart) (e : Entry) : Hart :=
  if e.st == .inflight || e.st == .parked then requeue h e
  else h

/-- The records of the diversion buffer that are for one hart. -/
def countDiv (s : State) (rec hidx : Nat) : Nat :=
  let head := max 1 (divHead s rec)
  ((List.range (divCount s rec)).filter fun j =>
    let a := divBase rec + 32 * ((head - 1 + j) % 2047 + 1)
    (leNat (peekHome s (a + 0x11) 1)).testBit 0 && leNat (peekHome s (a + 0x10) 1) == hidx).length

/-- The away entries of a hart that returns to slot k (R274): its own slot's entry is cleared, another gets RUN = 1 and the new
coordinates. -/
def returnAways (s : State) (tk : Nat) (t : Team) (k hidx : Nat) : State :=
  t.aways.foldl (fun s k0 =>
    match awayDir s t.asid k0 with
    | some a =>
      if a.teamNo = t.idx % 2 ^ 24 ∧ a.hidx = hidx ∧ !a.run then
        let at_ := awayBase s t.asid + 16 * k0
        if k0 = k then updTeam (ctxWrite s t.asid at_ (List.replicate 16 0)) tk fun t => { t with aways := t.aways.filter (· != k0) }
        else
          let a' : Away := { a with run := true, whereTo := hwhereOf k false }
          let s := ctxWrite s t.asid at_ (leBytes 8 (a.teamNo + hidx * 2 ^ 24 + 2 ^ 30 + 2 ^ 31) ++ leBytes 8 a'.whereTo)
          updCore s (coreOfSlot k0) fun c => { c with away := match tget c.away k0 with
            | some b => if b.asid = t.asid ∧ b.teamNo = a.teamNo then tput c.away k0 a' else c.away
            | none => c.away }
      else s
    | none => s) s

/-- A restored hart is loaded from its record and starts at its saved pc (R140, R285, R417): the implicit FENCE.I, an empty lane L1, as the hart's own acquires on another core ask for (R51), its diverted messages counted, its tiles renamed,
its entries re-forwarded. -/
def startSaved (s : State) (z : SavedHart) (tiles : List Nat) (divs : Nat) : State :=
  let h := loadHart s z.slot z.pa z.hart
  let h := { h with id := { h.id with tile0 := tiles }, msg := { h.msg with divRecs := divs } }
  let h := ((ringOldest h).filter fun e => e.st == .inflight || e.st == .parked).foldl reforward h
  let s := { s with work := { s.work with saves := tdel s.work.saves h.id.uid } }
  fenceICore (giveReport (setHart (clearL1 s (coreOfSlot z.slot)) z.slot h) z.slot) (coreOfSlot z.slot) h.id.asid

/-- A record read for a restore with a lost line in it is an uncorrectable error of the context, and nothing starts (R306). -/
def lostRecord (s : State) (z : SavedHart) : Bool := lostRead s z.pa (hartRecBytes z.hart.id.nv)

/-- A restoring team has all that its start needs: its hand-over is done, its events are written, nothing is awaited, and what is read of its record
and of the away directory stands free at the homes (R289, R417, R419, R423). -/
def startReady (s : State) (tk : Nat) (t : Team) (g : Grid) : Bool :=
  t.stat == .restoring && !t.handOver && !evPending s t.recPa && !ctxDead s t.asid && ctxFree s t.asid && recFree s t g &&
  t.aways.all (fun k => homeFree s (awayBase s t.asid + 16 * k) 16) && (savesOf s tk).all fun p => awaitsClear p.2.hart

/-- A restored team starts (R417). -/
def startTeamBack (s : State) (tk : Nat) (t : Team) : State :=
  let s := (savesOf s tk).foldl (fun s p =>
    let hidx := p.2.hart.id.hidx
    let nt := p.2.hart.id.nt
    startSaved (returnAways s tk t p.2.slot hidx) p.2 ((t.tiles.drop (hidx * nt)).take nt) (countDiv s t.recPa hidx)) s
  teamEvent (updTeam s tk fun t => { t with stat := .live, told := 4, yieldEnd := none }) 4 tk

/-- The teams that start again with a team: its gang's, together (R418). -/
def restartsWith (s : State) (tk : Nat) (t : Team) (g : Grid) : Tbl Team :=
  if g.spec.gang then s.work.teams.filter fun p => p.2.grid == t.grid && p.2.stat != .ended else [(tk, t)]

/-- RESTORE_START of team i with its gang, or of a handler with uid i (R139, R140, R417 to R419). -/
def execRestoreStart (i : Nat) (s : State) : Host.Outcome State Fault Refusal :=
  stepOf <| match tget s.work.teams i with
    | some t =>
      if t.stat == .restoring && t.handOver then finishHandOver s i else
      (match gridOf s t with
       | none => s
       | some g =>
         let all := restartsWith s i t g
         if all.any fun p => !startReady s p.1 p.2 g then s
         else if all.any fun p => (savesOf s p.1).any fun q => lostRecord s q.2 then contextFault s t.asid 3
         else all.foldl (fun s p => startTeamBack s p.1 p.2) s)
    | none =>
      match tget s.work.saves i with
      | none => s
      | some z =>
        if !z.hart.id.handler || !z.claimed || !awaitsClear z.hart || ctxDead s z.hart.id.asid || !homeFree s z.pa 65536 then s
        else if lostRecord s z then contextFault s z.hart.id.asid 3
        else startSaved s z [] 0

/-! ## Registers that act (R419, R421) -/

/-- SCH_EVICT (R418, R421): every team and handler hart of the ASID leaves, and its queues are held. -/
def execSchEvict (asid : Nat) (s : State) : Host.Outcome State Fault Refusal :=
  stepOf <|
    let s := updCtx s asid fun c => { c with hold := true }
    let ts := (s.work.teams.filter fun p => p.2.asid == asid).map (·.1)
    let s := ts.foldl (fun s t => captureAll s (ywaitLower s) t) s
    let hit (h : Hart) : Bool := h.id.handler && h.id.asid == asid && h.capture.isNone
    { s with harts := s.harts.map fun p => if hit p.2 then (p.1, { p.2 with capture := some s.clock.clk }) else p }

/-- SCH_RESUME (R421). -/
def execSchResume (asid : Nat) (s : State) : Host.Outcome State Fault Refusal :=
  stepOf (updCtx s asid fun c => { c with hold := false })

/-- SCH_WINREL (R419): the hand-over pending for the record is done, at once or as soon as its event record is written (R423). -/
def execSchWinrel (v : Nat) (s : State) : Host.Outcome State Fault Refusal :=
  stepOf <|
    if !v.testBit 0 then s
    else match teamOfRec s (bitsOf v 16 36 * 65536) with
      | none => s
      | some (tk, t) =>
        if !t.handOver then s else finishHandOver (updTeam s tk fun t => { t with released := true }) tk

end Sys2Proof.Machine
end

