-- ==== Sys2Proof/Machine/Seam.lean ====
section
/-! DEFINITION. Seam links (16_seam_links): flits, sequence numbers and replay, retrains, degradation, the registers of each
seam, and compute dies offline and online. -/

namespace Sys2Proof.Machine

/-! ## Registers (R431) -/

def smBase (n : Nat) : Nat := 0x100000 + 0x1000 * n
def smCtl (n : Nat) : Nat := smBase n + 0x8
def smStat (n : Nat) : Nat := smBase n + 0x10
def smWidth (n : Nat) : Nat := smBase n + 0x18
def smSpare (n : Nat) : Nat := smBase n + 0x20
def smCrc (n d : Nat) : Nat := smBase n + 0x28 + 8 * d
def smRpl (n d : Nat) : Nat := smBase n + 0x38 + 8 * d
def smRtCnt (n : Nat) : Nat := smBase n + 0x48
def smRtLast (n : Nat) : Nat := smBase n + 0x50
def smRtMax (n : Nat) : Nat := smBase n + 0x58
def smThr (n : Nat) : Nat := smBase n + 0x60
def smRetired (n m : Nat) : Nat := smBase n + 0x80 + 8 * m
def smEvt (n : Nat) : Nat := smBase n + 0xC0
def smPend (n : Nat) : Nat := smBase n + 0xC8

/-- The reset values of SM_WIDTH and RPL_THR. -/
def smWidthReset : Nat := 0x0180404040404040
def smThrReset : Nat := 0x00640010

/-- The dies at the ends of a seam: 0 to 3 compute dies, 4 to 11 memory dies, 12 the IOD (R14, R431). -/
def seamEnds (n : Nat) : Nat × Nat :=
  if n < 16 then (4 + n / 2, (n / 4 + n % 2) % 4)
  else if n < 20 then (n - 16, (n - 15) % 4)
  else (n - 20, 12)

/-- SM_ID. -/
def smId (n : Nat) : Nat := n + (seamEnds n).1 * 2 ^ 8 + (seamEnds n).2 * 2 ^ 12

/-- A seam of a compute die (R14). -/
def seamOf (c n : Nat) : Bool := (seamEnds n).1 == c || (seamEnds n).2 == c

/-- The seam's state in force: 0 down, 1 up, 2 retraining, 3 failed. -/
def smState (s : State) (n : Nat) : Nat := bitsOf (reg s (smStat n)) 2 2
def setSmState (s : State) (n v : Nat) : State := setReg s (smStat n) (setBits (reg s (smStat n)) 2 2 v)

/-- The rate in force, the rate asked for, PEND. -/
def smRate (s : State) (n : Nat) : Nat := bitsOf (reg s (smStat n)) 0 2
def setSmRate (s : State) (n v : Nat) : State := setReg s (smStat n) (setBits (reg s (smStat n)) 0 2 v)
def smAsked (s : State) (n : Nat) : Nat := bitsOf (reg s (smCtl n)) 0 2
def setSmAsked (s : State) (n v : Nat) : State := setReg s (smCtl n) (setBits (reg s (smCtl n)) 0 2 v)
def smPending (s : State) (n : Nat) : Bool := (reg s (smStat n)).testBit 4
def setSmPending (s : State) (n : Nat) (b : Bool) : State := setReg s (smStat n) (setBits (reg s (smStat n)) 4 1 (b2n b))

/-- The data lanes that a module carries: 64, 32 or 0 (R425). -/
def smLanes (s : State) (n m : Nat) : Nat := bitsOf (regD s (smWidth n) smWidthReset) (8 * m) 7

/-- A seam that nothing has used. -/
def blankDir : SeamDir :=
  { next := 0, base := 0, expect := 0, nak := false, progress := 0, replays := [], failedOn := [], delivered := 0, credits := [],
    buf := [], pos := 0, turn := 5, last := [] }
def blankSeam : Seam := { ab := blankDir, ba := blankDir, due := [], running := none, began := none, high := [], badSpares := [] }
def seamAt (s : State) (n : Nat) : Seam := tgetD s.seams n blankSeam
def updSeam (s : State) (n : Nat) (f : Seam → Seam) : State := { s with seams := tput s.seams n (f (seamAt s n)) }

/-- A direction of a seam: true from end A to end B. -/
def seamDir (x : Seam) (ab : Bool) : SeamDir := if ab then x.ab else x.ba
def updDir (s : State) (n : Nat) (ab : Bool) (f : SeamDir → SeamDir) : State :=
  updSeam s n fun x => if ab then { x with ab := f x.ab } else { x with ba := f x.ba }

/-- The place of a direction's counters. -/
def dirIx (ab : Bool) : Nat := if ab then 0 else 1

/-! ## Lane use (R425, R433 to R435) -/

/-- Lanes 0 to 31 and lanes 32 to 63. -/
def lowHalf : Nat := 2 ^ 32 - 1
def highHalf : Nat := (2 ^ 32 - 1) * 2 ^ 32
def allLanes : Nat := 2 ^ 64 - 1

/-- The lanes a width of 64, 32 or 0 uses. -/
def useMask (w : Nat) (high : Bool) : Nat := if w = 64 then allLanes else if w = 0 then 0 else if high then highHalf else lowHalf

/-- The lanes that a module uses now. -/
def laneUse (s : State) (n m : Nat) : Nat := useMask (smLanes s n m) ((seamAt s n).high.contains m)

/-- The spares of a module that work. -/
def goodSpares (bad : Nat) : Nat := 4 - popcount bad 4

/-- The spares that a use needs. -/
def needs (failing use : Nat) : Nat := popcount (Nat.land failing use) 64

/-- A lane use that the working spares cover. -/
def fits (failing bad use : Nat) : Bool := needs failing use ≤ goodSpares bad

/-- The half to keep: the one that needs fewer spares, the lower on a tie, of those that fit (R434). -/
def bestHalf (failing bad : Nat) : Option Bool :=
  let lo := fits failing bad lowHalf
  let hi := fits failing bad highHalf
  if lo && (!hi || needs failing lowHalf ≤ needs failing highHalf) then some false
  else if hi then some true else none

/-- The use of a module that starts from a width: the width itself when it fits, else half, else none (R434). -/
def narrow (failing bad w : Nat) (high : Bool) : Nat × Bool :=
  if w = 0 || fits failing bad (useMask w high) then (w, high)
  else if w = 64 then (match bestHalf failing bad with
    | some h => (32, h)
    | none => (0, false))
  else (0, false)

/-- The lanes of module m in a list of failing lanes (128 m + lane; 64 to 67 are the spares). -/
def foundIn (found : List Nat) (m : Nat) : Nat :=
  (List.range 64).foldl (fun a l => a + b2n (found.contains (128 * m + l)) * 2 ^ l) 0
def foundSpares (found : List Nat) (m : Nat) : Nat :=
  (List.range 4).foldl (fun a l => a + b2n (found.contains (128 * m + 64 + l)) * 2 ^ l) 0

/-- Lanes known to fail: those found on earlier tests and the test's own. -/
def failingNow (s : State) (n m : Nat) (found : List Nat) : Nat := Nat.lor (reg s (smRetired n m)) (foundIn found m)
def badNow (s : State) (n m : Nat) (found : List Nat) : Nat := Nat.lor (tgetD (seamAt s n).badSpares m 0) (foundSpares found m)

/-- A module's lane use and its failing lanes recorded: SM_WIDTH with its total, SM_SPARE and RETIRED. -/
def setUse (s : State) (n m failing bad w : Nat) (high : Bool) : State :=
  let ws := setBits (regD s (smWidth n) smWidthReset) (8 * m) 7 w
  let total := (List.range 6).foldl (fun a m => a + bitsOf ws (8 * m) 7) 0
  let s := setReg s (smWidth n) (setBits ws 48 16 total)
  let s := setReg s (smSpare n) (setBits (reg s (smSpare n)) (4 * m) 3 (needs failing (useMask w high)))
  let s := setReg s (smRetired n m) failing
  updSeam s n fun x =>
    { x with high := (x.high.filter (· != m)) ++ (if high && w == 32 then [m] else []), badSpares := tput x.badSpares m bad }

/-! ## Events (R431, R436) -/

/-- The event types of SM_EVT. -/
def evRetire : Nat := 1
def evHalve : Nat := 2
def evModOff : Nat := 3
def evRateDown : Nat := 4
def evRateUp : Nat := 5
def evRefused : Nat := 6
def evFail : Nat := 7

/-- An event: SM_EVT, SM_EVTPEND, DEVV of the ports that are up, the record for the next boot (R436), which names the
seams with a degradation (R444); for a degradation interrupt 19 on every hart resident on a compute die at either end (R436). -/
def seamEvent (s : State) (n type m : Nat) (degrade : Bool) : State :=
  let s := setReg s (smEvt n) (type + m * 8 + timeNow s % 2 ^ 56 * 256)
  let s := setReg s (smPend n) 1
  let s : State := { s with plat := { s.plat with seamRec := s.plat.seamRec ++ [(n, reg s (smEvt n))] } }
  let s := if degrade then { s with plat := { s.plat with seamDeg := (s.plat.seamDeg ++ [n]).eraseDups } } else s
  let mark (k : Nat) (h : Hart) : Hart :=
    if seamOf (dieOfSlot k) n then { h with s := { h.s with mip := setBit h.s.mip 19 true } } else h
  let s := if degrade then { s with harts := s.harts.map fun p => (p.1, mark p.1 p.2) } else s
  raiseDevvAll s

/-- The event of a module whose width went from w to w'. -/
def widthEvent (s : State) (n m w' : Nat) : State := seamEvent s n (if w' = 0 then evModOff else evHalve) m true

/-- A seam with no module left fails: a fatal error of the device (R434). -/
def failCheck (s : State) (n : Nat) : State :=
  if (List.range 6).any (fun m => smLanes s n m != 0) then s
  else fatal (seamEvent (setSmState s n 3) n evFail 0 true) 3

/-! ## Flits (R427 to R430) -/

/-- CRC-32 as IEEE 802.3 computes it (R427). -/
def crcBit (c : Nat) : Nat := if c % 2 = 1 then Nat.xor (c / 2) 0xEDB88320 else c / 2
def crcByte (c : Nat) (b : Byte) : Nat := iter 8 (fun _ c => crcBit c) (Nat.xor c b.toNat)
def crc32 (bs : List Byte) : Nat := Nat.xor (bs.foldl crcByte 0xFFFFFFFF) 0xFFFFFFFF

/-- Fields of a flit (R427). -/
def flitWord (f : List Byte) (at_ n : Nat) : Nat := leNat ((f.drop at_).take n)
def flitSeq (f : List Byte) : Nat := bitsOf (flitWord f 0 2) 0 12
def flitVc (f : List Byte) : Nat := bitsOf (flitWord f 0 2) 12 4
def flitKind (f : List Byte) : Nat := flitWord f 2 1 % 4
def flitAck (f : List Byte) : Nat := bitsOf (flitWord f 4 4) 0 12
def flitAckv (f : List Byte) : Bool := (flitWord f 4 4).testBit 12
def flitNak (f : List Byte) : Bool := (flitWord f 4 4).testBit 13
def flitCredits (f : List Byte) (vc : Nat) : Nat :=
  if vc < 6 then bitsOf (flitWord f 4 4) (14 + 3 * vc) 3 else bitsOf (flitWord f 248 4) (3 * (vc - 6)) 3
def flitGood (f : List Byte) : Bool := crc32 (f.take 252) == flitWord f 252 4

/-- What a flit carries: its length byte and its payload (R427). -/
def flitBody (f : List Byte) : List Byte := (f.drop 3).take 1 ++ (f.drop 8).take 240
def flitLen (f : List Byte) : Nat := flitWord f 3 1
def flitPayload (f : List Byte) : List Byte := (f.drop 8).take (flitLen f)

/-- A flit that is sent (R427, R428): kinds 0 to 2, reserved bits 0, a length up to 240, no sequence number on any but a data flit, and a data flit on VC
0 to 9, which on the VCs of the message networks, 0 to 4, holds a header of 64 bytes with up to 128 of body. -/
def flitFormed (f : List Byte) : Bool :=
  flitKind f < 3 && flitWord f 2 1 / 4 == 0 && flitLen f ≤ 240 && flitWord f 248 4 / 2 ^ 12 == 0 &&
  if flitKind f = 0 then flitVc f ≤ 9 && (flitVc f > 4 || 64 ≤ flitLen f && flitLen f ≤ 192) else flitSeq f == 0

/-- Flits sent and not acknowledged. -/
def buffered (d : SeamDir) : Nat := d.buf.length

/-- The module that carries the next flit: the next in rotation that has width (R426). -/
def nextModule (s : State) (n : Nat) (ab : Bool) : Option Nat :=
  ((List.range 6).map fun i => ((seamDir (seamAt s n) ab).turn + 1 + i) % 6).find? fun m => smLanes s n m != 0

/-- The transmitter holds a credit for a VC (R428). -/
def hasCredit (d : SeamDir) (vc : Nat) : Bool := 0 < (Config.seamCredits vc : Int) + tgetD d.credits vc 0

/-- A new data flit may be sent (R428, R429, R438): room in the replay buffer of 512, a credit for its VC, and a seam that takes new flits. -/
def maySend (s : State) (n : Nat) (d : SeamDir) (vc : Nat) : Bool :=
  buffered d < 512 && hasCredit d vc && !(s.plat.sealed_.any fun c => seamOf c n)

/-- A new data flit enters the replay buffer and uses a credit; what it holds, if it is known. -/
def enterFlit (s : State) (vc : Nat) (body : Option (List Byte)) (d : SeamDir) : SeamDir :=
  { d with
    next := (d.next + 1) % 4096, buf := d.buf ++ [(d.next, vc, body)], pos := d.pos + 1,
    progress := if d.buf.isEmpty then s.clock.clk else d.progress, credits := tput d.credits vc (tgetD d.credits vc 0 - 1) }

/-- The transmitter's side of a data flit that arrives whole (R429): the next of the flits that it sends again, as it was, or a new one in sequence;
any other flit is never sent. -/
def sendData (s : State) (n : Nat) (ab : Bool) (f : List Byte) : Option State :=
  let d := seamDir (seamAt s n) ab
  match d.buf[d.pos]? with
  | some (q, vc, body) =>
    if flitSeq f = q && flitVc f = vc && body.all (· == flitBody f) then
      some (updDir s n ab fun d => { d with pos := d.pos + 1, buf := updAt d.buf d.pos fun e => (e.1, e.2.1, some (flitBody f)) })
    else none
  | none =>
    if flitSeq f = d.next && maySend s n d (flitVc f) then some (updDir s n ab (enterFlit s (flitVc f) (some (flitBody f)))) else none

/-- The transmitter's side of a flit whose CRC fails: what it was, a data flit or not and on which VC, nobody knows at its arrival: a free value
(log 80). -/
def sendLost (s : State) (n : Nat) (ab : Bool) : State :=
  let d := seamDir (seamAt s n) ab
  let w := (Config.freeValue s.free).toNat
  let s := { s with free := s.free + 1 }
  let vcs := (List.range 10).filter (maySend s n d)
  if w % 2 = 0 then s
  else if d.pos < d.buf.length then updDir s n ab fun d => { d with pos := d.pos + 1 }
  else match vcs[w / 2 % vcs.length]? with
    | some vc => updDir s n ab (enterFlit s vc none)
    | none => s

/-- A replay of a direction starts from the flit at a place of its buffer (R429): it is counted, and R434 counts it by its time. -/
def startReplay (s : State) (n : Nat) (ab : Bool) (from_ : Nat) : State :=
  updDir (bumpReg s (smRpl n (dirIx ab)) 63 1) n ab fun d => { d with replays := d.replays ++ [s.clock.clk], pos := from_ }

/-- What a good flit tells the transmitter of the other direction (R429): the flits that were received in order are freed, credits come back, a NAK
starts a replay. -/
def applyAck (s : State) (n : Nat) (ab : Bool) (f : List Byte) : State :=
  let back := !ab
  let s := updDir s n back fun d => { d with credits := (List.range 10).foldl (fun t v =>
    if flitCredits f v = 0 then t else tput t v (tgetD t v 0 + flitCredits f v)) d.credits }
  let d := seamDir (seamAt s n) back
  let moved := (flitAck f + 4096 - d.base) % 4096
  let s := if flitAckv f && moved != 0 && moved ≤ (d.expect + 4096 - d.base) % 4096 then
      updDir s n back fun d => { d with base := flitAck f, progress := s.clock.clk, buf := d.buf.drop moved, pos := d.pos - moved }
    else s
  let d := seamDir (seamAt s n) back
  if flitNak f then startReplay s n back (min (buffered d) ((flitAck f + 4096 - d.base) % 4096)) else s

/-- The receiver asks for a replay unless it has (R429). -/
def askReplay (s : State) (n : Nat) (ab : Bool) : State := updDir s n ab fun d => { d with nak := true }

/-- The receiver's side of a data flit (R429): the expected one is delivered to its VC, once and in order (R430); a duplicate is discarded, and so is
one past a gap, which asks for a replay. -/
def receiveData (s : State) (n : Nat) (ab : Bool) (f : List Byte) : State :=
  let d := seamDir (seamAt s n) ab
  if flitSeq f = d.expect then
    updDir s n ab fun d => { d with
      expect := (d.expect + 1) % 4096, nak := false, delivered := d.delivered + 1, last := tput d.last (flitVc f) (flitPayload f) }
  else
    let behind := (d.expect + 4096 - flitSeq f) % 4096
    if 1 ≤ behind && behind ≤ 512 then s else askReplay s n ab

/-- FLIT_RECEIVE (R426, R429): a flit of direction ab arrives on module m, the one whose turn it is. A whole flit that no transmitter sends does not
arrive. -/
def execFlitReceive (n : Nat) (ab : Bool) (m : Nat) (flit : List Byte) (s : State) : Host.Outcome State Fault Refusal :=
  stepOf <|
    if n ≥ 24 || flit.length != 256 || smState s n != 1 || nextModule s n ab != some m then s
    else
      let t := updDir s n ab fun d => { d with turn := m }
      if !flitGood flit then
        let t := sendLost t n ab
        askReplay (updDir (bumpReg t (smCrc n (dirIx ab)) 63 1) n ab fun d => { d with failedOn := d.failedOn ++ [(m, s.clock.clk)] }) n ab
      else if !flitFormed flit then s
      else if flitKind flit ≠ 0 then applyAck t n ab flit
      else match sendData t n ab flit with
        | some t => receiveData (applyAck t n ab flit) n ab flit
        | none => s

/-- SEAM_ACK_TIMEOUT (R429): no acknowledgement progress for 1,800 clk with flits buffered. -/
def execSeamAckTimeout (n : Nat) (ab : Bool) (s : State) : Host.Outcome State Fault Refusal :=
  stepOf <|
    let d := seamDir (seamAt s n) ab
    if smState s n != 1 || buffered d = 0 || s.clock.clk < d.progress + 1800 then s
    else updDir (startReplay s n ab 0) n ab fun d => { d with progress := s.clock.clk }

/-! ## Retrains (R432 to R435) -/

/-- COUNT and WIN of RPL_THR: WIN in clk. -/
def thrCount (s : State) (n : Nat) : Nat := bitsOf (regD s (smThr n) smThrReset) 0 16
def thrWin (s : State) (n : Nat) : Nat := bitsOf (regD s (smThr n) smThrReset) 16 16 * 1800

/-- A direction's replays have grown by COUNT within WIN (R434). -/
def overThr (s : State) (n : Nat) (ab : Bool) : Bool :=
  thrCount s n != 0 && ((seamDir (seamAt s n) ab).replays.filter fun c => s.clock.clk < c + thrWin s n).length ≥ thrCount s n

/-- The module that carried the most of the flits that failed within WIN, the lower number on a tie (R434), of those that have width. -/
def blamed (s : State) (n : Nat) (ab : Bool) : Nat :=
  let l := (seamDir (seamAt s n) ab).failedOn.filter fun p => s.clock.clk < p.2 + thrWin s n
  let cnt (m : Nat) : Nat := (l.filter (·.1 == m)).length
  ((List.range 6).foldl (fun (b : Option Nat) m =>
    if smLanes s n m = 0 then b
    else match b with
      | some b' => if cnt b' < cnt m then some m else b
      | none => some m) none).getD 0

def isDegrade (r : Retrain) : Bool := match r with
  | .degrade _ => true
  | _ => false

/-- REPLAY_THRESHOLD (R434): a crossing makes a retrain of the blamed module due, unless one is due or under way (R439). -/
def execReplayThreshold (n : Nat) (s : State) : Host.Outcome State Fault Refusal :=
  stepOf <|
    let x := seamAt s n
    if smState s n != 1 || x.due.any isDegrade then s
    else if overThr s n true then updSeam s n fun x => { x with due := .degrade (blamed s n true) :: x.due }
    else if overThr s n false then updSeam s n fun x => { x with due := .degrade (blamed s n false) :: x.due }
    else s

/-- RETRAIN_START (R432, R439): a degradation goes before a rate request or a re-test; at most one retrain begins in any 10 µs. -/
def execRetrainStart (n : Nat) (s : State) : Host.Outcome State Fault Refusal :=
  stepOf <|
    let x := seamAt s n
    let early : Bool := match x.began with
      | some c => s.clock.clk < c + 18000
      | none => false
    match x.due.find? isDegrade, x.due with
    | none, [] => s
    | some r, _ => if smState s n != 1 || early then s else begin s n r
    | none, r :: _ => if smState s n != 1 || early then s else begin s n r
where
  /-- Both directions pause. -/
  begin (s : State) (n : Nat) (r : Retrain) : State :=
    setSmState (updSeam s n fun x => { x with due := x.due.filter (· != r), running := some r, began := some s.clock.clk }) n 2

/-- A degradation of module m after its lane test (R434). -/
def degradeModule (s : State) (n m : Nat) (found : List Nat) : State :=
  let w := smLanes s n m
  let high := (seamAt s n).high.contains m
  let failing := failingNow s n m found
  let bad := badNow s n m found
  if failing != reg s (smRetired n m) || bad != tgetD (seamAt s n).badSpares m 0 then
    let (w', high') := narrow failing bad w high
    let s := setUse s n m failing bad w' high'
    if w' = w then seamEvent s n evRetire m false else widthEvent s n m w'
  else if smRate s n > 0 then
    let s := setSmRate s n (smRate s n - 1)
    let s := if smPending s n then s else setSmAsked s n (smRate s n)
    seamEvent s n evRateDown 0 true
  else
    let w' := if w = 64 then 32 else 0
    widthEvent (setUse s n m failing bad w' false) n m w'

/-- A rate request (R433): a raise takes effect when every module's failing lanes fit its spares, and is refused otherwise; a
lowering always succeeds, and a module that no longer fits loses width, which makes it a degradation. The request is the last one written, also
while the retrain ran. -/
def changeRate (s : State) (n : Nat) (found : List Nat) : State :=
  let want := smAsked s n
  let s := updSeam (setSmPending s n false) n fun x => { x with due := x.due.filter (· != .rate) }
  if want = smRate s n then s
  else
    let ok (m : Nat) : Bool := fits (failingNow s n m found) (badNow s n m found) (laneUse s n m)
    let all := (List.range 6).all ok
    if want > smRate s n && !all then seamEvent (setSmAsked s n (smRate s n)) n evRefused 0 false
    else
      let type := if want > smRate s n then evRateUp else evRateDown
      let use (s : State) (m : Nat) : State :=
        let failing := failingNow s n m found
        let bad := badNow s n m found
        let (w, high) := narrow failing bad (smLanes s n m) ((seamAt s n).high.contains m)
        setUse s n m failing bad w high
      seamEvent (setSmRate ((List.range 6).foldl use s) n want) n type 0 (!all)

/-- A re-test of every lane and spare (R435): each module takes its widest use; one event for each module whose use changed. -/
def retest (s : State) (n : Nat) (found : List Nat) : State :=
  (List.range 6).foldl (fun s m =>
    let failing := foundIn found m
    let bad := foundSpares found m
    let old := laneUse s n m
    let w := smLanes s n m
    let oldF := Nat.land (reg s (smRetired n m)) old
    let (w', high') := narrow failing bad 64 false
    let s := setUse s n m failing bad w' high'
    if useMask w' high' = old && Nat.land failing old = oldF then s
    else if w' < w then widthEvent s n m w' else seamEvent s n evRetire m false) s

/-- RETRAIN_COMPLETE (R432): the outcome of the lane test `found`, the pause, at most 2 µs, in RT_LAST and RT_MAX, replay counting restarted; each direction
sends again from its oldest unacknowledged flit. -/
def execRetrainComplete (n : Nat) (found : List Nat) (s : State) : Host.Outcome State Fault Refusal :=
  stepOf <|
    let x := seamAt s n
    match x.running with
    | none => s
    | some r =>
      let ns := min 2000 ((s.clock.clk - x.began.getD s.clock.clk) * 5 / 9)
      let s := setReg (setReg (bumpReg s (smRtCnt n) 63 1) (smRtLast n) ns) (smRtMax n) (max ns (reg s (smRtMax n)))
      let again (d : SeamDir) : SeamDir := { d with replays := [], failedOn := [], progress := s.clock.clk, pos := 0 }
      let s := setSmState (updSeam s n fun x => { x with running := none, ab := again x.ab, ba := again x.ba }) n 1
      let s := match r with
        | .degrade m => degradeModule s n m found
        | .rate => changeRate s n found
        | .retest => retest s n found
      failCheck s n

/-- SM_CTL_RATE (R431, R433): a write of 3, or a locked seam, changes nothing; a rate other than the one in force is pending, and
replaces a pending request. -/
def smCtlRate (s : State) (n rate : Nat) : State :=
  if rate ≥ 3 || (reg s (smCtl n)).testBit 4 then s
  else
    let p := rate != smRate s n
    let s := setSmPending (setSmAsked s n rate) n p
    updSeam s n fun x => { x with due := x.due.filter (· != .rate) ++ if p then [.rate] else [] }

def execSmCtlRate (n rate : Nat) (s : State) : Host.Outcome State Fault Refusal := stepOf (if n < 24 then smCtlRate s n rate else s)

/-- SM_CTL_RETEST (R435). -/
def smCtlRetest (s : State) (n : Nat) : State :=
  updSeam s n fun x => { x with due := x.due.filter (· != .retest) ++ [.retest] }

def execSmCtlRetest (n : Nat) (s : State) : Host.Outcome State Fault Refusal := stepOf (if n < 24 then smCtlRetest s n else s)

/-- SM_CLR bit 0, SM_CLR bit 1 and SM_EVTPEND (R431). -/
def smClrCounters (s : State) (n : Nat) : State :=
  [smCrc n 0, smCrc n 1, smRpl n 0, smRpl n 1].foldl (fun s r => setReg s r 0) s
def execSmClrCounters (n : Nat) (s : State) : Host.Outcome State Fault Refusal := stepOf (if n < 24 then smClrCounters s n else s)
def execSmClrRtMax (n : Nat) (s : State) : Host.Outcome State Fault Refusal := stepOf (if n < 24 then setReg s (smRtMax n) 0 else s)
def execSmEvtpendClear (n : Nat) (s : State) : Host.Outcome State Fault Refusal := stepOf (if n < 24 then setReg s (smPend n) 0 else s)

/-- A register of a seam read (R431). -/
def seamRead (s : State) (n off : Nat) : Nat :=
  if n ≥ 24 then 0
  else if off = 0 then smId n
  else if off = 0x18 then regD s (smWidth n) smWidthReset
  else if off = 0x60 then regD s (smThr n) smThrReset
  else if off = 0xD0 then 0
  else reg s (smBase n + off)

/-- A register of a seam written (R431): the rest are read-only. -/
def seamWrite (s : State) (n off v : Nat) : State :=
  if n ≥ 24 then s
  else if off = 0x8 then
    let s := smCtlRate s n (v % 4)
    if v.testBit 8 then smCtlRetest s n else s
  else if off = 0x60 then
    let old := regD s (smThr n) smThrReset
    let win := if bitsOf v 16 16 = 0 then bitsOf old 16 16 else bitsOf v 16 16
    setReg s (smThr n) (v % 2 ^ 16 + win * 2 ^ 16)
  else if off = 0xC8 then (if v.testBit 0 then setReg s (smPend n) 0 else s)
  else if off = 0xD0 then
    let s := if v.testBit 0 then smClrCounters s n else s
    if v.testBit 1 then setReg s (smRtMax n) 0 else s
  else s

/-! ## Compute dies offline and online (R437, R438) -/

/-- REFUSED of DIE_STAT for the last command that named a die. -/
def setRefused (s : State) (c : Nat) (b : Bool) : State := setReg s (dieStatOff c) (setBits (reg s (dieStatOff c)) 8 1 (b2n b))
def setDieState (s : State) (c v : Nat) : State := setReg s (dieStatOff c) (setBits (reg s (dieStatOff c)) 0 2 v)

/-- Step 2 of R438: every team on the die leaves with its gang and no window, and every handler. -/
def leaveDie (s : State) (c : Nat) : State :=
  let here := (s.work.teams.filter fun p => p.2.stat == .live && dieOfCore p.2.core == c).map (·.1)
  let s := here.foldl (fun s tk => (leavesWith s tk).foldl forceCapture s) s
  let hit (k : Nat) (h : Hart) : Bool := h.id.handler && dieOfSlot k == c && h.capture.isNone
  { s with harts := s.harts.map fun p => if hit p.1 p.2 then (p.1, { p.2 with capture := some s.clock.clk }) else p }

/-- A message of the networks is on its way from or to a die: one that waits for room in a handler queue there is not (R278). -/
def dieTraffic (s : State) (c : Nat) : Bool :=
  let at_ (core : Nat) : Bool := dieOfCore core == c
  let waits (m : Msg) : Bool := m.kind == .handler && (coreAt s (coreOfHwhere m.dst)).hq.length ≥ 60
  (s.net.msgs.any fun m => ((srcCore m).any at_ || at_ (coreOfHwhere m.dst)) && !waits m) || (s.net.wins.any fun w => at_ w.core) ||
  (s.net.winReps.any fun r => at_ r.acc.core) || s.net.drains.any fun d => at_ (coreOfHwhere d.src) || at_ (coreOfHwhere d.dst)

/-- Nothing of a unit of work is left on the die, and no transaction of it or to it is on its way (R438 step 2). -/
def dieEmpty (s : State) (c : Nat) : Bool :=
  !(s.harts.any fun p => dieOfSlot p.1 == c) &&
  !(s.work.saves.any fun p => dieOfSlot p.2.slot == c && (!p.2.freed || p.2.claimed)) &&
  !(s.work.teams.any fun p => dieOfCore p.2.core == c && p.2.stat != .saved && p.2.stat != .ended) &&
  !(s.cores.any fun p => dieOfCore p.1 == c && (!p.2.winVac.isEmpty || !p.2.copies.isEmpty)) &&
  !(s.mem.homeq.any fun r => r.die == c) && !(s.mem.busy.any fun b => b.req.die == c || b.waitFor.contains c || b.waitWb.contains c) &&
  !(s.mem.wbs.any fun w => w.die == c) && !(s.mem.snoops.any fun w => w.die == c) && !(s.mem.sreps.any fun w => w.die == c) && !dieTraffic s c

/-- Every flit that the die's seams hold has been sent and acknowledged, and none of them retrains (R438 step 4, R439). -/
def seamsQuiet (s : State) (c : Nat) : Bool :=
  (List.range 24).all fun n => !seamOf c n || smState s n != 2 && buffered (seamAt s n).ab == 0 && buffered (seamAt s n).ba == 0

/-- Step 3 of R438: dirty lines go home, the die's caches and translations are dropped; from then on its seams take no new flit. -/
def sealDie (s : State) (c : Nat) : State :=
  let lines := (s.mem.rdc.filter fun p => p.1 / 2 ^ 40 == c).map fun p => p.1 % 2 ^ 40
  let wb (s : State) (line : Nat) : State := match rdcAt s c line with
    | some ⟨some bs, late⟩ => setRdc (applyDirty s line bs late) c line none
    | _ => setRdc s c line none
  let s := lines.foldl wb s
  let s : State := { s with
    cores := s.cores.map fun p => if dieOfCore p.1 = c then (p.1, { p.2 with l1 := [], icache := [], dcache := [] }) else p,
    xl := { s.xl with slices := s.xl.slices.filter (fun p => p.1 / 32 != c), walks := s.xl.walks.filter (fun w => w.die != c) } }
  { s with plat := { s.plat with sealed_ := s.plat.sealed_ ++ [c] } }

/-- Step 5 of R438: the die's seams are retired. -/
def retireDie (s : State) (c : Nat) : State :=
  let s := ((List.range 24).filter (seamOf c)).foldl (fun s n =>
    let s := setReg s (smWidth n) (setBits (regD s (smWidth n) smWidthReset) 48 16 0)
    setSmState (updSeam s n fun x => { x with running := none }) n 0) s
  raiseDevvAll (setDieState s c 2)

/-- An OFF command (R437): refused unless every die is online. -/
def dieOffCmd (s : State) (c : Nat) : State :=
  if (List.range 4).all (dieOnline s) then leaveDie (setRefused (setDieState s c 1) c false) c else setRefused s c true

/-- DIE_OFF: the command, and while the die goes offline the steps of R438, each when the one before it has completed. -/
def execDieOff (die : Nat) (s : State) : Host.Outcome State Fault Refusal :=
  stepOf <|
    if die ≥ 4 then s
    else if dieState s die = 1 then
      let s := leaveDie s die
      if s.plat.sealed_.contains die then (if seamsQuiet s die then retireDie s die else s)
      else if dieEmpty s die then sealDie s die else s
    else dieOffCmd s die

/-- An ON command (R437): refused unless the die is offline. Its seams train at the rates of SM_CTL. -/
def dieOnCmd (s : State) (c : Nat) : State :=
  if dieState s c = 2 then
    let s := setRefused (setDieState s c 3) c false
    ((List.range 24).filter (seamOf c)).foldl (fun s n =>
      updSeam (setSmPending (setSmRate s n (smAsked s n)) n false) n fun x => { x with due := [] }) s
  else setRefused s c true

/-- The die comes online (R438): its seams are up at the width that the re-test of every lane allows, with the events of R435, and DEVV
is raised. What was asked of a seam meanwhile is still due (R433). -/
def dieUp (s : State) (c : Nat) (found : List Nat) : State :=
  let s := ((List.range 24).filter (seamOf c)).foldl (fun s n =>
    let mine := (found.filter fun l => l / 1024 == n).map (· % 1024)
    let s := updSeam s n fun x => { blankSeam with high := x.high, badSpares := x.badSpares, due := x.due, began := x.began }
    failCheck (retest (setSmState s n 1) n mine) n) s
  let s : State := { s with plat := { s.plat with sealed_ := s.plat.sealed_.filter (· != c) } }
  setDieState (raiseDevvAll s) c 0

/-- DIE_ON: the command, and then the end of the die's start. `found` are the failing lanes, 1,024 n + 128 m + lane. -/
def execDieOn (die : Nat) (found : List Nat) (s : State) : Host.Outcome State Fault Refusal :=
  stepOf <|
    if die ≥ 4 then s
    else if dieState s die = 3 then dieUp s die found
    else dieOnCmd s die

end Sys2Proof.Machine
end

