-- ==== Sys2Proof/Machine/Platform.lean ====
section
/-! DEFINITION. The platform (17_platform): boot, power and temperature, fatal errors and killed contexts, lane failures (R144),
attestation, and the debug port (R141, R142, R450). -/

namespace Sys2Proof.Machine

/-- The management controller's state changed by f. -/
def updPlat (s : State) (f : Plat → Plat) : State := { s with plat := f s.plat }

/-! ## Boot (R442 to R444) -/

/-- PF_BOOT and the RECOVERY bit of PF_STAT (R449). -/
def pfBoot : Nat := pfBase
def inRecovery (s : State) : Bool := (reg s pfStat).testBit 1

/-- An attempt takes an alternative for a step that failed on an earlier attempt (R444). -/
def takesAlt (s : State) (step : Nat) : Bool := s.plat.attempt ≥ 2 && s.plat.failed.contains step

/-- The dies that fail their self-test, written as 16 + d. -/
def badDies (fail : List Nat) : List Nat := (List.range 4).filter fun d => fail.contains (16 + d)

/-- A step of this attempt fails (R442, R443): step 5 for two failing dies always, for one unless it may be left offline. -/
def stepFails (s : State) (fail : List Nat) (step : Nat) : Bool :=
  if step = 5 then fail.contains 5 || (badDies fail).length ≥ 2 || ((badDies fail).length = 1 && !takesAlt s 5)
  else fail.contains step

/-- ALT: the steps that this attempt runs by an alternative. -/
def altBits (s : State) : Nat := (List.range 9).foldl (fun a k => a + b2n (takesAlt s k) * 2 ^ k) 0

/-- PF_BOOT as an attempt leaves it: its number, the step that failed before, the alternatives. Step 8 has no bit in the field ALT: its
alternative is kept above it, where PF_BOOT reads 0. -/
def bootWord (s : State) (failed : Nat) : Nat := s.plat.attempt + failed * 2 ^ 4 + altBits s * 2 ^ 8

/-- An attempt fails (R442 to R444): steps 1 and 2 have no alternative, and a third failed attempt leaves the device in recovery. The boot
record names the dies that failed. -/
def bootFailed (s : State) (fail : List Nat) (step : Nat) : State :=
  let last := s.plat.attempt = 3 || step ≤ 2
  let s := setReg s pfBoot (bootWord s step)
  let s := if step = 5 then updPlat s fun p => { p with bad := (p.bad ++ badDies fail).eraseDups } else s
  if last then setReg s pfStat (Nat.lor (reg s pfStat) 2)
  else updPlat s fun p => { p with attempt := p.attempt + 1, failed := p.failed ++ [step] }

/-- Step 4: every seam at the record's rate, at 32 GT/s when a degradation of it is recorded, or all of them at 32 GT/s with LOCK,
and with every module at 32 lanes (R442, R444). -/
def trainSeams (s : State) : State :=
  (List.range 24).foldl (fun s n =>
    let locked := takesAlt s 4
    let rate := if locked || s.plat.seamDeg.contains n || Config.seamRate n ≥ 3 then 0 else Config.seamRate n
    let s := setReg s (smCtl n) (rate + 16 * b2n locked)
    let s := setReg s (smStat n) (rate + 4)
    if locked && s.plat.attempt = 3 then (List.range 6).foldl (fun s m => setUse s n m 0 0 32 false) s else s) s

/-- Step 5: a failing die is left offline (R437, R442). -/
def leaveOffline (s : State) (c : Nat) : State :=
  let s := ((List.range 24).filter (seamOf c)).foldl (fun s n =>
    setSmState (setReg s (smWidth n) (setBits (regD s (smWidth n) smWidthReset) 48 16 0)) n 0) s
  setDieState s c 2

/-- Step 6: HP_CFG from the record, CXL cleared by an alternative. -/
def loadHpCfg (s : State) : State :=
  [0, 1].foldl (fun s p => let v := Config.hpCfg p % 4
                           setReg s (hpBase p + 0x8) (if takesAlt s 6 then v - v % 2 else v)) s

/-- Step 7: the last applied patch is reloaded, unless Chearo starts without one (R347). -/
def loadPatch (s : State) : State :=
  if takesAlt s 7 || !patchOk Config.patch || Config.patch.isEmpty then s
  else setReg (updFe s fun x => { x with patch := Config.patch }) 0x198 (leNat ((Config.patch.drop 4).take 4))

/-- BOOT: one attempt (R442); steering that was set at run time is loaded again (R144). `fail` are the steps that fail on it, and 16 + d for a die that fails its self-test. -/
def execBoot (fail : List Nat) (s : State) : Host.Outcome State Fault Refusal :=
  stepOf <|
    if s.booted || inRecovery s then s
    else match ((List.range 9).drop 1).find? (stepFails s fail) with
      | some step => bootFailed s fail step
      | none =>
        let s := loadPatch (loadHpCfg (trainSeams s))
        let s := (badDies fail).foldl leaveOffline s
        let s := setReg s pfBoot (bootWord s (s.plat.failed.getLastD 0))
        { updPlat s fun p => { p with attempt := 1, failed := [], bad := [] } with booted := true, steerCfg := s.plat.steerRec }

/-! ## Temperature and power (R440, R441) -/

/-- THERMAL_TRIP (R440): 115 °C on a sensor of any die is a fatal error. -/
def execThermalTrip (die : Nat) (s : State) : Host.Outcome State Fault Refusal := stepOf (if die < 13 then fatal s 1 else s)

/-- POWER_LIMIT (R441): the clock of a die in steps of 100 MHz; where a core holds an Ibex reserve, Oryx matrix issue is limited
instead, and over 1 ms of it is reported. -/
def execPowerLimit (die mhz : Nat) (s : State) : Host.Outcome State Fault Refusal :=
  stepOf <|
    if die ≥ 4 || mhz < 1000 || mhz > 1800 || mhz % 100 != 0 then s
    else if mhz = 1800 then updPlat s fun p => { p with limit := tdel p.limit die, mhz := tdel p.mhz die }
    else if dieReserved s die then
      match tget s.plat.limit die with
      | none => updPlat s fun p => { p with limit := tput p.limit die (s.clock.clk, false) }
      | some (since, told) =>
        if !told && s.clock.clk > since + 1800000 then rasNotice (updPlat s fun p => { p with limit := tput p.limit die (since, true) }) else s
    else updPlat s fun p => { p with mhz := tput p.mhz die mhz }

/-! ## Killing a context (R448) -/

/-- A command that has not completed completes with KILLED; a grid does so once it is discarded. -/
def killCmd (s : State) (c : FeCmd) : FeCmd :=
  match c.run with
  | .grid _ => c
  | _ => if cmdDone s c then c else { c with run := .done, status := 3, reject := 0, info := 0, fcode := 0 }

/-- A queue of a killed context: its dispatched commands complete KILLED, with the command or the chain of buffers that holds its
head, and it enters ERROR. -/
def killQueue (s : State) (q qcb : Nat) : State :=
  let x := queueAt s q
  let st := qState s qcb
  let head := ringHead s qcb
  let heldRec := !x.ibs.isEmpty && x.recs.any fun r => r.1 == head
  let s := updQueue s q fun x => { x with
    cmds := x.cmds.map (killCmd s) ++ (if heldRec then [finished head 6 3 0 0] else []),
    ibs := [], placing := none, waiting := false, hd := blankWait, cp := blankWait, held := false }
  if st = 0 then s
  else
    let cfg := qW s qcb 0x10
    let s := setQState s q qcb 5 3
    raiseVec (setQW s qcb 0x48 head) (qPort cfg) (qVecErr cfg)

/-- The queues of a context. -/
def queuesOf (s : State) (asid : Nat) : List (Nat × Nat) :=
  (s.fe.queues.map (·.1)).filterMap fun q => match qcbOf s q with
    | some qcb => if qAsid (qW s qcb 0x10) = asid then some (q, qcb) else none
    | none => none

/-- Every grid of the context is killed: those of queues stay until their records are written, those of teams go with them. -/
def killGrids (s : State) (asid : Nat) : State :=
  let child (g : Grid) : Bool := match g.origin with
    | .team _ => true
    | .queue _ _ => false
  let f (g : Grid) : Grid := if g.asid = asid ∧ !g.retired then { g with killed := true, placed := true, liveTeams := 0, children := 0, retired := true, status := 3 } else g
  { s with work := { s.work with
      grids := (s.work.grids.filter fun p => !(p.2.asid == asid && child p.2)).map fun p => (p.1, f p.2),
      teams := s.work.teams.filter fun p => p.2.asid != asid,
      accts := s.work.accts.map fun p => if p.2.asid = asid then (p.1, { p.2 with closed := true }) else p } }

/-- A CONTEXT IS KILLED (R448), in one step. -/
def killContext (s : State) (asid cause : Nat) : State :=
  let s := ((s.work.teams.filter fun p => p.2.asid == asid && p.2.stat != .ended).map (·.1)).foldl discardTeam s
  let s := discardHandlers s (fun h => h.id.asid == asid) false
  let s := killGrids s asid
  let s := { s with fe := { s.fe with greqs := s.fe.greqs.filter fun r => (hartOfUid s r.uid).isSome } }
  let s := dropRecords (releaseSlots s fun _ z => z.asid == asid) asid
  let s := (queuesOf s asid).foldl (fun s q => killQueue s q.1 q.2) s
  let s := { s with faulted := s.faulted.filter fun p => p.1 != asid }
  let s := if cause = 0 then s else setReg s pfKill (asid + cause * 2 ^ 16)
  raiseDevvAll s

/-- CONTEXT_KILL: a context that met an uncorrectable error of that cause, or any context after a fatal error, which leaves PF_KILL
as it is (R447, R449). It waits while a home is busy with a queue's block. -/
def execContextKill (asid cause : Nat) (s : State) : Host.Outcome State Fault Refusal :=
  stepOf <|
    if s.fe.queues.any fun p => !qFree s p.1 then s
    else if isFatal s && cause = 0 then killContext s asid 0
    else if !isFatal s && s.faulted.contains (asid, cause) then killContext s asid cause
    else s

/-! ## Lane failures (R144) -/

/-- LANE_FAILURE_REPORT: each failure is reported by MEI on the harts of the quadrant, or with none there on the next that comes to it; when its reserve lane already carries another lane, it is
uncorrectable for every context there. -/
def execLaneFailureReport (core quad lane : Nat) (s : State) : Host.Outcome State Fault Refusal :=
  stepOf <|
    if core ≥ 192 || quad ≥ 4 || lane ≥ 32 then s
    else
      let f := bitsOf (steerOf s core) (8 * quad) 8
      let here (k : Nat) : Bool := coreOfSlot k == core && quadOfSlot k == quad
      let mark (h : Hart) : Hart := { h with s := { h.s with mip := setBit h.s.mip 11 true } }
      let q := core * 4 + quad
      let s : State := if s.harts.any fun p => here p.1 then { s with harts := s.harts.map fun p => if here p.1 then (p.1, mark p.2) else p }
        else { s with plat := { s.plat with laneRep := if s.plat.laneRep.contains q then s.plat.laneRep else s.plat.laneRep ++ [q] } }
      if f.testBit 5 && f % 32 != lane then
        ((s.harts.filter fun p => here p.1).map fun p => p.2.id.asid).eraseDups.foldl (fun s a => contextFault s a 6) s
      else s

/-! ## Attestation and debug -/

/-- SPDM_REQUEST (R446): the answer is in the mailbox. -/
def execSpdmRequest (req : List Byte) (s : State) : Host.Outcome State Fault Refusal :=
  stepOf (updPlat s fun p => { p with doe := Config.spdm req s.fe.patch p.attempt p.failed p.bad p.seamRec p.steerRec })

/-- A halt stops forwarding at the boundary and ends any wait (R121, R141). -/
def haltHart (s : State) (k : Nat) : State :=
  match hartAt s k with
  | none => s
  | some h =>
    if h.halted then s
    else setHart (freeMonitor s k h) k { h with pc := earlyPc h, wait := none, halted := true, stepping := none }

/-- DEBUG_HALT (R141, R450): kind 0 the hart of slot `id`, 1 the harts of team `id`, 2 of context `id`; only of the ASID in
PF_DBG while EN is 1. -/
def execDebugHalt (kind id : Nat) (s : State) : Host.Outcome State Fault Refusal :=
  stepOf <|
    let hit (k : Nat) (h : Hart) : Bool := dbgFor s h.id.asid &&
      (if kind = 0 then k == id else if kind = 1 then !h.id.handler && h.id.team == id else h.id.asid == id)
    ((s.harts.filter fun p => hit p.1 p.2).map (·.1)).foldl haltHart s

/-- A step under way: the clk of its start, the pc it started from, and whether its instruction has issued. -/
def stepCode (clk pc : Nat) : Nat := (clk * 2 ^ 64 + pc) * 2
def stepIssued (n : Nat) : Bool := n % 2 == 1
def stepPc (n : Nat) : Nat := n / 2 % 2 ^ 64
def stepClk (n : Nat) : Nat := n / 2 ^ 65

/-- A halted hart has reported so (R141): its lane queue is empty, and the late faults of what the lane and matrix engines have begun are
recorded. -/
def haltReported (h : Hart) : Bool :=
  h.halted && h.stepping.isNone && h.laneQ.isEmpty &&
  !h.ring.any fun p => p.2.st == .inflight && (p.2.eng == .lane || p.2.eng == .matrix) && p.2.stage != .sent

/-- A wait instruction (R121); a stepped `mrecv` is one until it has dequeued (R288). -/
def isWait (i : Instr) : Bool :=
  match i with
  | .mrecv _ | .hwmsg | .hwtime _ | .wrsNto | .wrsSto | .wfi | .barSync _ _ | .barWait _ | .gwait _ _ | .hdrain _ => true
  | _ => false

/-- The hart stands at a wait: in it, or about to execute it again (R121). -/
def atWait (s : State) (k : Nat) (h : Hart) : Bool :=
  h.wait.isSome || match (fetchFor s k h).1 with
    | .ok bs => (match decode bs with
        | .ok i _ => isWait i
        | _ => false)
    | _ => false

/-- DEBUG_STEP (R142): the hart, which has reported halted (R141), may issue one instruction. -/
def execDebugStep (h : Nat) (s : State) : Host.Outcome State Fault Refusal :=
  stepOf <| match hartAt s h with
    | none => s
    | some hh =>
      if haltReported hh && dbgFor s hh.id.asid then
        setHart s h { hh with stepping := some (stepCode (slotClk s h) hh.pc.toNat) }
      else s

/-- DEBUG_STEP_TIMEOUT (R142): a stepped wait that has not ended within 1,800 clk returns to halt with the pc unchanged. -/
def execDebugStepTimeout (h : Nat) (s : State) : Host.Outcome State Fault Refusal :=
  stepOf <| match hartAt s h with
    | none => s
    | some hh =>
      match hh.stepping with
      | none => s
      | some n =>
        if atWait s h hh && hh.pc.toNat == stepPc n && slotClk s h ≥ stepClk n + 1800 then
          setHart (freeMonitor s h hh) h { hh with wait := none, stepping := none }
        else s

/-- Where the debugger shows a lane (R142): at the pc in the top mask, else at the rpc of the highest entry above the base that holds it while
the next does not; a lane that no such entry holds has left. -/
def lanePosition (h : Hart) (l : Nat) : Option (BitVec 48) :=
  if mbit (topStk h).mask l then some (h.pc.setWidth 48)
  else (((List.range (h.dep - 1)).reverse.filter (· ≥ 1)).find? fun i => mbit (stkAt h i).mask l && !mbit (stkAt h (i + 1)).mask l).map
    fun i => (stkAt h i).rpc

/-- What a debugger's register number names: the pc, an x, m or tm register's word, a mask-stack entry's mask or rpc, a CSR, an
element of a vector register, or a lane's position, all ones where it is inactive (R141, R142; the numbers are the model's, log 79). -/
def dbgRead (s : State) (k : Nat) (h : Hart) (r : Nat) : Nat :=
  if r = 0 then h.pc.toNat
  else if r ≥ 0x10000 then (vlane h ((r - 0x10000) / 64) (r % 64)).toNat
  else if r ≥ 0x1000 then (match csrRead s k h (r - 0x1000) with
    | some w => w.toNat
    | none => 0)
  else if r ≥ 0x600 then (if r % 2 = 0 then (stkAt h ((r - 0x600) / 2)).mask.toNat else (stkAt h ((r - 0x600) / 2)).rpc.toNat)
  else if r ≥ 0x400 then bitsOf (rtm h (BitVec.ofNat 3 ((r - 0x400) / 16))).toNat (64 * (r % 16)) 64
  else if r ≥ 0x300 then (match lanePosition h (r % 64) with
    | some p => p.toNat
    | none => 2 ^ 64 - 1)
  else if r ≥ 0x200 then (rm h (BitVec.ofNat 3 (r - 0x200))).toNat
  else (rx h (BitVec.ofNat 5 (r - 0x100))).toNat

/-- A debugger's write (R141): satp and `steer` are written as the hart's own instructions write them; steering shows nothing that a program sees, so it
applies at once (R143). -/
def dbgWrite (s : State) (k : Nat) (h : Hart) (r v : Nat) : State :=
  let set (h : Hart) : State := setHart s k h
  let w : Word := BitVec.ofNat 64 v
  if r = 0 then set { h with pc := w }
  else if r ≥ 0x10000 then (if (r - 0x10000) / 64 < h.id.nv then set (setLane h ((r - 0x10000) / 64) (r % 64) (BitVec.ofNat 32 v)) else s)
  else if r = 0x1CC1 then (if 1 ≤ v ∧ v ≤ 32 then set { h with dep := v } else s)
  else if r = 0x1180 then satpSet s h.id.asid w
  else if r = 0x17C0 then
    let c := coreOfSlot k
    { s with steerCfg := tput s.steerCfg c (Nat.land v 0x3F3F3F3F), plat := { s.plat with steerRec := tput s.plat.steerRec c (Nat.land v 0x3F3F3F3F) } }
  else if r ≥ 0x1000 then (if (csrRead s k h (r - 0x1000)).isSome then csrWrite s k h (r - 0x1000) w else s)
  else if r ≥ 0x600 then
    let e := stkAt h ((r - 0x600) / 2)
    set (setStk h ((r - 0x600) / 2) (if r % 2 = 0 then { e with mask := w } else { e with rpc := BitVec.ofNat 48 v }))
  else if r ≥ 0x400 then
    let t := BitVec.ofNat 3 ((r - 0x400) / 16)
    set (wtm h t (BitVec.ofNat 1024 (setBits (rtm h t).toNat (64 * (r % 16)) 64 v)))
  else if r ≥ 0x300 then s
  else if r ≥ 0x200 then set (wm h (BitVec.ofNat 3 (r - 0x200)) w)
  else set (wx h (BitVec.ofNat 5 (r - 0x100)) w)

/-- DEBUG_REGISTER_ACCESS (R141): a hart's state, once it has reported halted, read or written. -/
def execDebugRegisterAccess (h reg : Nat) (write : Bool) (data : Nat) (s : State) : Host.Outcome State Fault Refusal :=
  stepOf <| match hartAt s h with
    | none => s
    | some hh =>
      if !(haltReported hh && dbgFor s hh.id.asid) then s
      else if write then dbgWrite s h hh reg data
      else updPlat s fun p => { p with dbg := dbgRead s h hh reg }

/-- BOUNDARY_SCAN (R450): refused while any context is resident. -/
def execBoundaryScan (s : State) : Host.Outcome State Fault Refusal :=
  stepOf (updPlat s fun p => { p with scan := s.harts.isEmpty && s.work.saves.isEmpty })

/-- A platform register written (R449): PF_DBG, with EN where the record allows debug. -/
def platWrite (s : State) (off v : Nat) : State :=
  if pfBase + off = pfDbg then setReg s pfDbg (v % 2 ^ 17 + (if Config.dbgAllowed then b2n (v.testBit 17) * 2 ^ 17 else 0)) else s

end Sys2Proof.Machine
end

