-- ==== Sys2Proof/Machine/HostPort.lean ====
section
/-! DEFINITION. The host ports (13_host_port): links, resets, MSI-X, the service queue, and what completes outbound requests. -/

namespace Sys2Proof.Machine

/-- The registers of a port (R359). -/
def hpCto (port : Nat) : Nat := hpBase port + 0x10
def hpErr (port : Nat) : Nat := hpBase port + 0x18
def hpInerr (port : Nat) : Nat := hpBase port + 0x20
def hdmWin (port : Nat) : Nat := hpBase port + 0x38
def svcStat (port : Nat) : Nat := hpBase port + 0x50
def evtVec (port : Nat) : Nat := hpBase port + 0x60

/-- The host ports' state changed by f. -/
def updHp (s : State) (f : HostPorts → HostPorts) : State := { s with hp := f s.hp }

/-- HP_STAT.MODE (R353). -/
def hpMode (s : State) (port : Nat) : Nat := hpStat s port % 4

/-! ## Link and resets (R353, R354, R375) -/

/-- LINK_TRAINING (R353, R442): CXL when it is offered and the partner can, at most x8 on a third boot attempt. -/
def execLinkTraining (port mode width rate : Nat) (s : State) : Host.Outcome State Fault Refusal :=
  stepOf <|
    let narrowed : Bool := (reg s pfBoot).testBit 14 && reg s pfBoot % 4 == 3
    let okWidth : Bool := [1, 2, 4, 8, 16].contains width && !(narrowed && width > 8)
    let okMode : Bool := (mode == 1 && [2, 5, 8, 16, 32, 64, 128].contains rate) ||
      (mode == 2 && rate == 64 && width ≥ 4 && (hpCfg s port).testBit 0)
    if port ≥ 2 || hpMode s port != 0 || !okWidth || !okMode || !s.booted then s
    else setReg s (hpBase port) (setBits (setBits (setBits (hpStat s port) 0 2 mode) 2 5 width) 8 8 rate)

/-- An error reported through AER (R354, R364). -/
def aerReport (s : State) (port : Nat) (e : AerErr) : State := updHp s fun h => { h with aer := h.aer ++ [(port, e)] }

/-- The place of an AER error in the port's status, and the status: the errors reported since they were cleared (R354; the places are the model's,
log 112). -/
def aerBit (e : AerErr) : Nat := match e with
  | .ur => 0 | .ca => 1 | .nonFatal => 2 | .malformed => 3 | .ecrc => 4
def aerStatus (s : State) (port : Nat) : Nat :=
  [AerErr.ur, .ca, .nonFatal, .malformed, .ecrc].foldl (fun a e => a + b2n (s.hp.aer.contains (port, e)) * 2 ^ aerBit e) 0
def aerClear (s : State) (port v : Nat) : State :=
  updHp s fun h => { h with aer := h.aer.filter fun p => !(p.1 == port && v.testBit (aerBit p.2)) }

/-- The programmed Max Payload Size of a port, 128 to 512 bytes, and its Read Completion Boundary (R354, R362). -/
def maxPayload (s : State) (port : Nat) : Nat := 128 * 2 ^ min 2 (reg s (cfgKey port 7))
def readBoundary (s : State) (port : Nat) : Nat := if (reg s (cfgKey port 8)).testBit 0 then 128 else 64

/-- Contexts with work or with a queue. -/
def knownAsids (s : State) : List Nat :=
  (liveAsids s ++ (s.fe.queues.map (·.1)).filterMap fun q => (qcbOf s q).map fun b => qAsid (qW s b 0x10)).eraseDups

/-- Every context whose translation-table entry names the port is to be killed (R375). -/
def killPort (s : State) (port : Nat) : State :=
  ((knownAsids s).filter fun a => xctPort s a == port).foldl (fun s a => contextFault s a 8) s

/-- LINK_DOWN (R375). -/
def execLinkDown (port : Nat) (s : State) : Host.Outcome State Fault Refusal :=
  stepOf <|
    if port ≥ 2 || hpMode s port = 0 then s
    else killPort (setReg s (hpBase port) (setBits (setBits (hpStat s port) 0 7 0) 8 8 0)) port

/-- The MSI-X state of a port at reset (R373): every vector masked, nothing pending, MSI-X and the function mask off. -/
def msixReset (s : State) (port : Nat) : State :=
  let mine (k : Nat) : Bool := msixOff port 0 0 ≤ k && k < msixOff port 0 0 + 0x10000 || k == cfgKey port 5 || k == cfgKey port 6
  { s with regs := s.regs.filter fun p => !mine p.1 }

/-- FUNCTION_LEVEL_RESET (R375): the port's address translation cache, service queue, error counts and MSI-X state return to reset;
its queues are disabled and its contexts killed. -/
def execFunctionLevelReset (port : Nat) (s : State) : Host.Outcome State Fault Refusal :=
  stepOf <|
    if port ≥ 2 || s.fe.queues.any fun p => !qFree s p.1 then s
    else
      let s := updXl s fun x => { x with atc := tput x.atc port [] }
      let s := updHp s fun h => { h with svc := tput h.svc port [] }
      let s := msixReset ([hpErr port, hpInerr port, svcStat port].foldl (fun s r => setReg s r 0) s) port
      let s := (s.fe.queues.map (·.1)).foldl (fun s q => match qcbOf s q with
        | some qcb => if qPort (qW s qcb 0x10) = port ∧ qState s qcb ≠ 0 then disableQueue s q qcb else s
        | none => s) s
      killPort s port

/-- D3HOT_REQUEST (R354): refused while any context is resident. -/
def execD3hotRequest (port : Nat) (enter : Bool) (s : State) : Host.Outcome State Fault Refusal :=
  stepOf <|
    let out := s.hp.d3.filter (· != port)
    if !enter then updHp s fun h => { h with d3 := out }
    else if (liveAsids s).isEmpty && port < 2 then updHp s fun h => { h with d3 := out ++ [port] }
    else s

/-! ## MSI-X (R373) -/

/-- A vector's pending message is sent when nothing masks it any more. -/
def firePending (s : State) (port v : Nat) : State :=
  let w := reg s (pbaOff port v)
  if w.testBit (v % 64) && !vecMasked s port v then sendMsix (setReg s (pbaOff port v) (w - 2 ^ (v % 64))) port v else s

/-- Every vector of a port tried again, after a mask of the whole function has changed. -/
def fireAll (s : State) (port : Nat) : State := (List.range 2048).foldl (fun s v => firePending s port v) s

/-- A word of the MSI-X table written. -/
def msixWrite (s : State) (port v k w : Nat) : State := firePending (setReg s (msixOff port v k) w) port v

/-- MSIX_UNMASK (R373): unmasking a vector sends its pending message. -/
def execMsixUnmask (port v : Nat) (s : State) : Host.Outcome State Fault Refusal :=
  stepOf (if port < 2 && v < 2048 then msixWrite s port v 1 (setBits (msixWord s port v 1) 32 1 0) else s)

/-! ## The service queue (R370) -/

def svcQueue (s : State) (port : Nat) : List Nat := tgetD s.hp.svc port []

/-- A push of h: into the queue of 256 with vector SVCV raised, or dropped and counted. -/
def svcPush (s : State) (port h : Nat) : State :=
  if (svcQueue s port).length ≥ 256 then bumpField s (svcStat port) 16 16 1
  else raiseVec (updHp s fun x => { x with svc := tput x.svc port (tgetD x.svc port [] ++ [h]) }) port (reg s (evtVec port) % 2 ^ 11)

def execSvcDb (port hart : Nat) (s : State) : Host.Outcome State Fault Refusal := stepOf (if port < 2 then svcPush s port (hart % 2 ^ 16) else s)

/-- A pop: the oldest entry with VALID, or 0. -/
def svcTake (s : State) (port : Nat) : Nat × State :=
  match svcQueue s port with
  | [] => (0, s)
  | h :: rest => (h + 2 ^ 31, updHp s fun x => { x with svc := tput x.svc port rest })

/-- SVC_POP: a read of the register by the host. -/
def execSvcPop (port : Nat) (s : State) : Host.Outcome State Fault Refusal :=
  stepOf <|
    let r := svcTake s port
    updHp r.2 fun h => { h with comp := [{ port := port, rid := 0, status := 0, data := leBytes 8 r.1 }] }

/-- SVC_CLR and HP_ERRCLR (R359). -/
def execSvcClr (port : Nat) (s : State) : Host.Outcome State Fault Refusal := stepOf (setReg s (svcStat port) 0)
def execHpErrclrErr (port : Nat) (s : State) : Host.Outcome State Fault Refusal := stepOf (setReg s (hpErr port) 0)
def execHpErrclrInerr (port : Nat) (s : State) : Host.Outcome State Fault Refusal := stepOf (setReg s (hpInerr port) 0)

/-! ## Completions of outbound requests (R53, R295, R365 to R368) -/

/-- A scalar access that the host answered with a failure (R366): the precise cause of the code, at the access. A captured hart
runs it again. -/
def scalarHostFail (s : State) (uid id code cause : Nat) : State :=
  match hartOfUid s uid with
  | some h => (match h.pend with
      | some p =>
        if p.id ≠ id then s
        else scalarRefused (if (slotOfUid s uid).isSome then setLfCode s uid code else s) uid id cause p.va
      | none => s)
  | none => s

/-- The command or the fetch of the front end that an answer is for (R342). -/
def feHostAnswer (s : State) (id : Nat) (code : Nat) (bs : List Byte) : State :=
  let run (c : FeCmd) : FeCmd :=
    if c.run = .host id then { c with run := .done, status := if code = 0 then c.status else 0x13, fcode := if code = 0 then c.fcode else code } else c
  let got (w : FeWait) : FeWait :=
    match w.asks.find? fun a => a.1 == id with
    | some a => if code = 0 then { w with asks := w.asks.filter (· != a), buf := w.buf ++ [(a.2, bs)], stalled := false }
                else { w with asks := w.asks.filter (· != a), err := some (a.2, code), stalled := false }
    | none => w
  let f (x : FeQueue) : FeQueue := { x with hd := got x.hd, cp := got x.cp, cmds := x.cmds.map run }
  updFe s fun x => { x with queues := x.queues.map fun p => (p.1, f p.2) }

/-- The answer delivered: the data, or the fault code of R366. -/
def hostAnswer (s : State) (o : OutReq) (code : Nat) (bs : List Byte) : State :=
  match o.reply with
  | .xreg uid id =>
    if code = 0 then scalarData s uid id bs o.sx else scalarHostFail s uid id code (if o.atomic.isSome then 7 else 5)
  | .lane uid seq l =>
    if o.atomic.isSome then
      updMem s fun m => { m with replies := m.replies ++ [⟨o.reply, BitVec.ofNat 64 (if code = 0 then leNat bs else code), code != 0⟩] }
    else if code = 0 then laneData s uid seq l bs else laneFault s uid seq l code
  | .copy uid seq idx => pieceAnswer s uid seq idx code bs
  | .fe id => feHostAnswer s id code bs
  | _ => s

/-- A port has 4,096 tags: later requests wait in it unsent (R354). -/
def outSent (s : State) (o : OutReq) : Bool := ((s.mem.out.filter fun p => p.port == o.port).take 4096).any fun p => p.id == o.id

/-- A request that is no longer outstanding: the port's first unsent one takes its tag and is sent; invalidations that waited for it go on
(R328, R354). -/
def dropOut (s : State) (o : OutReq) : State :=
  let next := ((s.mem.out.filter fun p => p.port == o.port)[4096]?).map (·.id)
  settleInvs (updMem s fun m => { m with
    out := (m.out.filter fun p => p.id != o.id).map fun p => if next = some p.id then { p with clk := s.clock.clk } else p })

/-- What an AtomicOp leaves in the device's view of host memory. -/
def hostView (s : State) (o : OutReq) (bs : List Byte) : State :=
  match o.atomic with
  | none => hostWrite s o.addr bs
  | some (op, v, cmp) => hostWrite s o.addr (leBytes o.size (amoNew op false o.size (leNat bs) v cmp))

/-- OUTBOUND_COMPLETION: the host answers request `i` of a port. `status` is 0 with its data (for an AtomicOp the old value), 1
Unsupported Request, 2 Completer Abort, 3 poisoned, which is an uncorrectable error of the context (R359, R366, R367). -/
def execOutboundCompletion (port i status : Nat) (data : List Byte) (s : State) : Host.Outcome State Fault Refusal :=
  stepOf <| match s.mem.out.find? fun o => o.id == i && o.port == port && outSent s o with
    | none => s
    | some o =>
      let at_ := o.atomic.isSome
      if status = 0 then
        if data.length = o.size then hostAnswer (hostView (dropOut s o) o data) o 0 data else s
      else if status = 1 then
        if at_ then hostAnswer (bumpField (dropOut s o) (hpErr port) 0 16 1) o 0x0501 []
        else hostAnswer (bumpField (dropOut s o) (hpErr port) 16 16 1) o 0x0502 []
      else if status = 2 then
        hostAnswer (if at_ then dropOut s o else bumpField (dropOut s o) (hpErr port) 16 16 1) o 0x0503 []
      else if status = 3 then contextFault (bumpField (dropOut s o) (hpErr port) 48 16 1) o.asid 5
      else s

/-- COMPLETION_TIMEOUT (R367): HP_CTO has passed without an answer. -/
def execCompletionTimeout (port i : Nat) (s : State) : Host.Outcome State Fault Refusal :=
  stepOf <| match s.mem.out.find? fun o => o.id == i && o.port == port && outSent s o with
    | none => s
    | some o =>
      if s.clock.clk < o.clk + regD s (hpCto port) 50000 * 1800 then s
      else contextFault (bumpField (dropOut s o) (hpErr port) 32 16 1) o.asid 5

/-! ## Registers of a port (R359) -/

/-- A request is a line piece of a posted write. -/
def isPiece (r : InReq) : Bool := match r.kind with
  | .piece _ => true
  | _ => false

/-- HP_ORD (R359): line pieces sent and not acknowledged, and inbound requests held. -/
def hpOrd (s : State) (port : Nat) : Nat :=
  let mine := s.hp.inq.filter fun r => r.port == port
  min 65535 (mine.filter fun r => r.sent && isPiece r).length +
    min 65535 (((mine.filter fun r => !r.sent).map (·.req)).eraseDups).length * 2 ^ 16

/-- A read; SVC_POP pops (R370). -/
def hpRead (s : State) (port off : Nat) : Nat × State :=
  if off = 0x08 then (hpCfg s port, s)
  else if off = 0x10 then (regD s (hpCto port) 50000, s)
  else if off = 0x30 then (hpOrd s port, s)
  else if off = 0x48 then svcTake s port
  else if off = 0x50 then (reg s (svcStat port) + (svcQueue s port).length, s)
  else if off ∈ [0x00, 0x18, 0x20, 0x38, 0x60] then (reg s (hpBase port + off), s)
  else (0, s)

def hpWrite (s : State) (port off v : Nat) : State :=
  if off = 0x08 then setReg s (hpBase port + 0x08) (v % 4)
  else if off = 0x10 then (if 10 ≤ v % 2 ^ 24 ∧ v % 2 ^ 24 ≤ 10000000 then setReg s (hpCto port) (v % 2 ^ 24) else s)
  else if off = 0x28 then
    let s := if v.testBit 0 then setReg s (hpErr port) 0 else s
    if v.testBit 1 then setReg s (hpInerr port) 0 else s
  else if off = 0x38 then
    let base := bitsOf v 8 11
    let size := bitsOf v 24 11
    if base + size > 1536 || hpMode s port = 2 then s else setReg s (hdmWin port) (v % 2 + base * 2 ^ 8 + size * 2 ^ 24)
  else if off = 0x40 then svcPush s port (v % 2 ^ 16)
  else if off = 0x58 then (if v.testBit 0 then setReg s (svcStat port) 0 else s)
  else if off = 0x60 then setReg s (evtVec port) (bitsOf v 0 11 + bitsOf v 16 11 * 2 ^ 16)
  else s

end Sys2Proof.Machine
end

