-- ==== Sys2Proof/Machine/Network.lean ====
section
/-! DEFINITION. The Ethernet ports (R377 to R388): clocks and device time, the transmit ring, ingress filters and rings, and the
messages and launches made from frames. -/

namespace Sys2Proof.Machine

/-- The register block of a port (R378). -/
def ethBase (e : Nat) : Nat := 0x120000 + 0x10000 * e
def ethReg (e off : Nat) : Nat := ethBase e + off

/-- Registers with a reset value: ETH_CFG and MAC_ADDR. -/
def ethCfg (s : State) (e : Nat) : Nat := regD s (ethReg e 8) 0x2400
def ethMac (s : State) (e : Nat) : Nat := regD s (ethReg e 0x10) (Config.mac e % 2 ^ 48)

/-- A counter of the port. -/
def ethCount (s : State) (e off : Nat) : State := bumpReg s (ethReg e off) 63 1

/-- A port that has done nothing; a port clock's value at reset, of which the spec says nothing, is 0 (log 131). -/
def blankEth : Eth :=
  { clock := 0, sampled := 0, rx := [], tx := none, sent := [], good := 0, qps := [], imms := [], rcAns := none }
def ethAt (s : State) (e : Nat) : Eth := tgetD s.eth e blankEth
def updEth (s : State) (e : Nat) (f : Eth → Eth) : State := { s with eth := tput s.eth e (f (ethAt s e)) }

/-- The port exists and its link is up. -/
def ethUp (s : State) (e : Nat) : Bool := e < 4 && (reg s (ethReg e 0)).testBit 0

/-! ## Clocks and device time (R379 to R381) -/

/-- A port clock's range, in units of 2⁻³² ns: 48 bits of seconds (R379). -/
def clockRange : Nat := 2 ^ 48 * 1000000000 * 2 ^ 32

/-- The clock's total ns, its seconds and nanoseconds. -/
def ethNs (s : State) (e : Nat) : Nat := (ethAt s e).clock / 2 ^ 32
def secOf (ns : Nat) : Nat := ns / 1000000000 % 2 ^ 48
def nsOf (ns : Nat) : Nat := ns % 1000000000

/-- PTP_ADJ as a signed number. -/
def ptpAdj (s : State) (e : Nat) : Int :=
  let v := reg s (ethReg e 0x40)
  if v.testBit 31 then (v : Int) - 2 ^ 32 else v

/-- The port clocks after n ns of the reference oscillator (R379). -/
def advanceClocks (s : State) (n : Nat) : State :=
  (List.range 4).foldl (fun s e => updEth s e fun x => { x with clock := (x.clock + (n * (2 ^ 32 + ptpAdj s e)).toNat) % clockRange }) s

/-- The signed error of port 0's clock against device time (R381). -/
def dtErr (s : State) : Int :=
  let off := reg s (ethReg 0 0x60)
  let soff : Int := if off.testBit 63 then (off : Int) - 2 ^ 64 else off
  (ethNs s 0 : Int) - soff - timeNow s

/-- A sample: XOFF (R380), and on port 0 while DT_CTL.SRC is 1 the error, LOCK and FAR (R381). -/
def ptpSample (s : State) (e : Nat) : State :=
  let xoff := (ethNs s e + 2 ^ 64 - timeNow s % 2 ^ 64) % 2 ^ 64
  let s := setReg s (ethReg e 0x50) xoff
  if e ≠ 0 || !(reg s (ethReg 0 0x58)).testBit 0 then s
  else
    let err := dtErr s
    let s := setReg s (ethReg 0 0x68) (err % 2 ^ 64).toNat
    let near := err.natAbs ≤ 100
    let s := updEth s 0 fun x => { x with good := if near then min 1000 (x.good + 1) else 0 }
    setReg s (ethReg 0 0x70) (b2n ((ethAt s 0).good == 1000) + 2 * b2n (decide (err.natAbs > 1000000)))

/-- What port 0 steers device time by over the next 1 µs: nothing while it runs free (R381). -/
def steerTime (s : State) : State :=
  { s with clock := { s.clock with steer := if (reg s (ethReg 0 0x58)).testBit 0 then max (-1) (min 1 (dtErr s)) else 0 } }

/-- PTP_SAMPLE (R380, R381): once in 1 µs; port 0's steers device time. -/
def execPtpSample (e : Nat) (s : State) : Host.Outcome State Fault Refusal :=
  stepOf <|
    if e ≥ 4 || s.clock.clk < (ethAt s e).sampled + 1800 then s
    else
      let t := updEth (ptpSample s e) e fun x => { x with sampled := s.clock.clk }
      if e = 0 then steerTime t else t

/-- PTP_STEP (R378, R380, R381): a signed number of ns; a result below 0 sets the clock to 0; a fresh sample is taken, and device time goes on
being steered by the samples of each 1 µs alone. -/
def ptpStep (s : State) (e v : Nat) : State :=
  let d : Int := if v.testBit 63 then (v % 2 ^ 64 : Int) - 2 ^ 64 else (v % 2 ^ 64 : Int)
  ptpSample (updEth s e fun x => { x with clock := (x.clock + d * 2 ^ 32).toNat % clockRange }) e
def execPtpStep (e v : Nat) (s : State) : Host.Outcome State Fault Refusal := stepOf (if e < 4 then ptpStep s e v else s)

/-- PTP_LATCH (R378). -/
def ptpLatch (s : State) (e : Nat) : State :=
  let ns := ethNs s e
  setReg (setReg (setReg s (ethReg e 0x28) (secOf ns)) (ethReg e 0x30) (nsOf ns)) (ethReg e 0x38) (timeNow s)
def execPtpLatch (e : Nat) (s : State) : Host.Outcome State Fault Refusal := stepOf (if e < 4 then ptpLatch s e else s)

/-- A stamp, within 4 ns of the clock (R379): where within them is a free value (log 2). -/
def takeStamp (s : State) (e : Nat) : Nat × State :=
  let off := (Config.freeValue s.free).toNat % 9
  ((ethNs s e + clockRange / 2 ^ 32 + off - 4) % (clockRange / 2 ^ 32), { s with free := s.free + 1 })

/-- The 10 bytes of a stamp, and its device time by the latest sample (R380). -/
def stampBytes (ns : Nat) : List Byte := leBytes 4 (nsOf ns) ++ leBytes 6 (secOf ns)
def dtsOf (s : State) (e ns : Nat) : Nat := (ns + 2 ^ 64 - reg s (ethReg e 0x50)) % 2 ^ 64

/-! ## Link and counters -/

/-- ETH_LINK_UP and ETH_LINK_LOSS (R378, R395, R442): a port that boot left down stays down. -/
def execEthLinkUp (e : Nat) (s : State) : Host.Outcome State Fault Refusal :=
  stepOf (if e ≥ 4 || !s.booted || (reg s pfBoot).testBit 16 then s else setReg s (ethReg e 0) 0x803)
def execEthLinkLoss (e : Nat) (s : State) : Host.Outcome State Fault Refusal :=
  stepOf (if e < 4 then setReg s (ethReg e 0) 0 else s)

/-- CNT_CLR (R378). -/
def ethClear (s : State) (e : Nat) : State := (List.range 11).foldl (fun s j => setReg s (ethReg e (0x100 + 8 * j)) 0) s
def execEthCntClr (e : Nat) (s : State) : Host.Outcome State Fault Refusal := stepOf (if e < 4 then ethClear s e else s)

/-! ## Transmit ring (R382) -/

def txSlots (s : State) (e : Nat) : Nat := 2 ^ (bitsOf (reg s (ethReg e 0x88)) 0 4 + 4)
def maxFr (s : State) (e : Nat) : Nat := ethCfg s e % 2 ^ 14

/-- TX_TAIL: never backwards, nor more than the ring ahead of TX_HEAD (R378). -/
def txTail (s : State) (e v : Nat) : State :=
  if reg s (ethReg e 0x90) ≤ v && v ≤ reg s (ethReg e 0x98) + txSlots s e then setReg s (ethReg e 0x90) v else s
def execTxTail (e v : Nat) (s : State) : Host.Outcome State Fault Refusal := stepOf (if e < 4 then txTail s e v else s)

/-- TX_CFG (R378). -/
def txCfg (s : State) (e v : Nat) : State :=
  let old := reg s (ethReg e 0x88)
  let en := b2n (v.testBit 4)
  if old.testBit 4 then setReg s (ethReg e 0x88) (setBits old 4 1 en)
  else if v % 16 ≥ 9 then s
  else
    let s := setReg s (ethReg e 0x88) (v % 16 + 16 * en)
    if en = 1 then setReg (setReg s (ethReg e 0x90) 0) (ethReg e 0x98) 0 else s
def execTxCfgWrite (e v : Nat) (s : State) : Host.Outcome State Fault Refusal := stepOf (if e < 4 then txCfg s e v else s)

/-- A frame as the wire carries it: padded to 64 bytes with its FCS (R382). -/
def wireFrame (bs : List Byte) : List Byte :=
  let bs := bs ++ List.replicate (60 - bs.length) 0
  bs ++ leBytes 4 (crc32 bs)

/-- FRAME_TRANSMIT: the descriptor at TX_HEAD is sent; one whose LEN is out of range sends nothing (R382). -/
def execFrameTransmit (e : Nat) (s : State) : Host.Outcome State Fault Refusal :=
  stepOf <|
    let i := reg s (ethReg e 0x98)
    let at_ := reg s (ethReg e 0x80) + 32 * (i % txSlots s e)
    if !ethUp s e || !(reg s (ethReg e 0x88)).testBit 4 || i ≥ reg s (ethReg e 0x90) || (ethAt s e).tx.isSome || !homeFree s at_ 32 then s
    else
      let d := peekHome s at_ 32
      let f (o n : Nat) : Nat := leNat ((d.drop o).take n)
      let len := f 8 2
      let ts := (f 0xA 1).testBit 0
      if len < 60 || len + 4 > maxFr s e then
        updEth s e fun x => { x with tx := some { idx := i, stamp := none, err := true, stage := 0, reqs := [] } }
      else if !homeFree s (f 0 8) len then s
      else
        let bs := peekHome s (f 0 8) len
        let (ns, s) := takeStamp s e
        let s := ethCount s e 0x130
        updEth s e fun x => { x with
          sent := wireFrame bs,
          tx := some { idx := i, stamp := if ts then some (nsOf ns, secOf ns) else none, err := false, stage := 0, reqs := [] } }

/-- TX_WRITEBACK (R382): the stamp, then the byte with DONE, then the advance of TX_HEAD, each after the one before it has been
acknowledged. -/
def execTxWriteback (e : Nat) (s : State) : Host.Outcome State Fault Refusal :=
  stepOf <| match (ethAt s e).tx with
    | none => s
    | some t =>
      let at_ := reg s (ethReg e 0x80) + 32 * (t.idx % txSlots s e)
      if !t.reqs.all (reqDone s) then s
      else if t.stage = 0 then
        match t.stamp with
        | some (ns, sec) =>
          let r := feStore s noAsid (at_ + 0x10) (leBytes 4 ns ++ leBytes 6 sec)
          updEth r.2 e fun x => { x with tx := some { t with stage := 1, reqs := r.1 } }
        | none => updEth s e fun x => { x with tx := some { t with stage := 1 } }
      else if t.stage = 1 && !homeFree s (at_ + 0xA) 1 then s
      else if t.stage = 1 then
        let old := leNat (peekHome s (at_ + 0xA) 1)
        let b := old % 2 + 2 + 4 * b2n t.err
        let r := feStore s noAsid (at_ + 0xA) (leBytes 1 b)
        updEth r.2 e fun x => { x with tx := some { t with stage := 2, reqs := r.1 } }
      else setReg (updEth s e fun x => { x with tx := none }) (ethReg e 0x98) (t.idx + 1)

/-! ## Frames received (R377, R383 to R386) -/

/-- A big-endian field of a frame. -/
def beNat (bs : List Byte) : Nat := leNat bs.reverse
def fld (f : List Byte) (o n : Nat) : Nat := beNat ((f.drop o).take n)

/-- The Internet checksum of bytes: their sum in 16-bit words, folded. -/
def sum16 : List Byte → Nat
  | a :: b :: r => a.toNat * 256 + b.toNat + sum16 r
  | [a] => a.toNat * 256
  | [] => 0
def fold16 (n : Nat) : Nat := let m := n % 65536 + n / 65536; m % 65536 + m / 65536

/-- A frame taken apart: whether it is tagged, its tag, the EtherType after at most one tag, and where the payload starts. -/
structure Parsed where
  tagged : Bool
  tci : Nat
  type : Nat
  at_ : Nat
deriving DecidableEq, Repr

def parseFrame (f : List Byte) : Parsed :=
  if fld f 12 2 = 0x8100 then { tagged := true, tci := fld f 14 2, type := fld f 16 2, at_ := 18 }
  else { tagged := false, tci := 0, type := fld f 12 2, at_ := 14 }

/-- An IPv4 or IPv6 UDP packet: version, where UDP starts, the destination address of IPv4. -/
structure Udp where
  v6 : Bool
  at_ : Nat
  dip : Nat
deriving DecidableEq, Repr

/-- The UDP header of a frame that holds one: IPv4 not fragmented, or IPv6 whose next header is UDP (R383). -/
def udpOf (f : List Byte) (p : Parsed) : Option Udp :=
  let ip := p.at_
  if p.type = 0x0800 then
    if fld f (ip + 9) 1 = 17 && fld f (ip + 6) 2 % 2 ^ 14 = 0 then some ⟨false, ip + 4 * (fld f ip 1 % 16), fld f (ip + 16) 4⟩ else none
  else if p.type = 0x86DD then (if fld f (ip + 6) 1 = 17 then some ⟨true, ip + 40, 0⟩ else none)
  else none

/-- The IPv4 header's checksum holds, and a UDP checksum that is not zero (R377). -/
def sumsOk (f : List Byte) (p : Parsed) : Bool :=
  let ip := p.at_
  let head : Bool := p.type != 0x0800 || fold16 (sum16 ((f.drop ip).take (4 * (fld f ip 1 % 16)))) == 0xFFFF
  head && match udpOf f p with
    | none => true
    | some u =>
      let len := fld f (u.at_ + 4) 2
      let addrs := if u.v6 then (f.drop (ip + 8)).take 32 else (f.drop (ip + 12)).take 8
      fld f (u.at_ + 6) 2 == 0 || fold16 (sum16 addrs + 17 + len + sum16 ((f.drop u.at_).take len)) == 0xFFFF

/-- The destination address is the station's, broadcast or multicast (R377). -/
def forUs (s : State) (e : Nat) (f : List Byte) : Bool := (fld f 0 1).testBit 0 || fld f 0 6 == ethMac s e

/-- The frame goes to the RoCEv2 engine (R383). -/
def isRoce (s : State) (e : Nat) (f : List Byte) (p : Parsed) : Bool :=
  (ethCfg s e).testBit 24 && match udpOf f p with
    | some u => !u.v6 && u.dip == reg s (ethReg e 0x18) % 2 ^ 32 && fld f (u.at_ + 2) 2 == 4791
    | none => false

/-- A filter takes the frame (R383). -/
def filterHits (s : State) (e n : Nat) (f : List Byte) (p : Parsed) : Bool :=
  let m := reg s (ethReg e (0x200 + 16 * n))
  let kind := bitsOf m 16 2
  let vlan : Bool := !m.testBit 30 || (p.tagged && p.tci % 4096 == bitsOf m 18 12)
  kind != 0 && vlan && match kind, udpOf f p with
    | 1, _ => p.type == m % 2 ^ 16
    | 2, some u => !u.v6 && fld f (u.at_ + 2) 2 == m % 2 ^ 16
    | 3, some u => u.v6 && fld f (u.at_ + 2) 2 == m % 2 ^ 16
    | _, _ => false

/-- The filter that takes a frame and its action, or the default ring: 0xFF with action 0. -/
def takeFilter (s : State) (e : Nat) (f : List Byte) (p : Parsed) : Option (Nat × Nat) :=
  match (List.range 32).find? fun n => filterHits s e n f p with
  | some n => some (n, reg s (ethReg e (0x208 + 16 * n)))
  | none => if (ethCfg s e).testBit 16 then some (0xFF, bitsOf (ethCfg s e) 20 4) else none

/-- The payload that an entry holds (R384). -/
def payloadOf (s : State) (e n : Nat) (f : List Byte) (p : Parsed) : List Byte :=
  let kind := if n = 0xFF then 1 else bitsOf (reg s (ethReg e (0x200 + 16 * n))) 16 2
  match kind, udpOf f p with
  | 2, some u | 3, some u => ((f.take (f.length - 4)).drop (u.at_ + 8)).take (fld f (u.at_ + 4) 2 - 8)
  | _, _ => (f.take (f.length - 4)).drop p.at_

/-- Ring registers and sizes (R378, R384). -/
def rgReg (e k off : Nat) : Nat := ethReg e (0x400 + 64 * k + off)
def rgSlots (s : State) (e k : Nat) : Nat := 2 ^ (bitsOf (reg s (rgReg e k 0x10)) 0 4 + 4)
def rgSlotSize (s : State) (e k : Nat) : Nat := 2 ^ (bitsOf (reg s (rgReg e k 0x10)) 4 3 + 8)
def rgAsid (s : State) (e k : Nat) : Nat := bitsOf (reg s (rgReg e k 0x10)) 8 16

/-- The place of entry i of a ring, from its base. -/
def rgOff (s : State) (e k i : Nat) : Nat := rgSlotSize s e k * (i % rgSlots s e k)

/-- An entry of its ring that is not whole yet: waiting for its turn (stage 4), its pieces on their way (0), its SEQ on its way (5). -/
def underWay (k : Nat) (j : RxJob) : Bool := j.ring == k && (j.stage == 4 || j.stage == 0 || j.stage == 5)

/-- The pieces of an entry are sent: the header bytes before SEQ, and the payload (R385). -/
def sendPieces (s : State) (e : Nat) (j : RxJob) : RxJob × State :=
  let at_ := reg s (rgReg e j.ring 0) + rgOff s e j.ring j.idx
  let a := feStore s (rgAsid s e j.ring) at_ (j.bytes.take 0x18)
  let b := feStore a.2 (rgAsid s e j.ring) (at_ + 0x20) (j.bytes.drop 0x18)
  ({ j with stage := 0, reqs := a.1 ++ b.1 }, b.2)

/-- A frame refused by its ring is counted (R385). -/
def ringDrop (s : State) (e k : Nat) : State := ethCount (bumpReg s (rgReg e k 0x28) 63 1) e 0x118

/-- A frame for its ring (R384, R385): its pieces are sent once no entry of the ring is under way, for a ring's entries are written one at a time; a full or
disabled ring drops it. -/
def ringWrite (s : State) (e n act : Nat) (f : List Byte) (p : Parsed) : State :=
  let k := act % 16
  let before := (ethAt s e).rx.filter (underWay k)
  let i := reg s (rgReg e k 0x20) + before.length
  if !(reg s (rgReg e k 0x10)).testBit 24 || i - reg s (rgReg e k 0x18) ≥ rgSlots s e k then ringDrop s e k
  else
    let (ns, s) := takeStamp s e
    let dts := dtsOf s e ns
    let body := payloadOf s e n f p
    let room := rgSlotSize s e k - 32
    let bs := body.take room
    let head := stampBytes ns ++ leBytes 2 bs.length ++ leBytes 1 n ++
      leBytes 1 (e + 4 * b2n (decide (body.length > room)) + 8 * b2n p.tagged) ++ leBytes 2 p.tci ++ leBytes 8 dts
    let j : RxJob := { ring := k, idx := i, stage := 4, reqs := [], act := act, dts := dts, bytes := head ++ bs }
    let (j, s) := if before.isEmpty then sendPieces s e j else (j, s)
    updEth s e fun x => { x with rx := x.rx ++ [j] }

/-- An untagged MAC Control frame with the opcode of PAUSE or PFC (R377). -/
def isPause (f : List Byte) (p : Parsed) : Bool := !p.tagged && p.type == 0x8808 && (fld f p.at_ 2 == 0x0001 || fld f p.at_ 2 == 0x0101)

/-- FRAME_RECEIVE (R377, R383): `frame` runs from the destination address to the FCS. A RoCEv2 packet goes to its engine, which
takes it in a ROCE step; its CE mark is counted (R389). -/
def execFrameReceive (e : Nat) (frame : List Byte) (s : State) : Host.Outcome State Fault Refusal :=
  stepOf <|
    let n := frame.length
    let fcs := crc32 (frame.take (n - 4)) == leNat (frame.drop (n - 4))
    let p := parseFrame frame
    if !ethUp s e then s
    else
      let s := if fcs then ethCount s e 0x100 else s
      if !fcs || n < 64 || n > maxFr s e || isPause frame p || !sumsOk frame p then ethCount s e 0x108
      else if !forUs s e frame then ethCount s e 0x110
      else if isRoce s e frame p then (if fld frame (p.at_ + 1) 1 % 4 = 3 then ethCount s e 0x148 else s)
      else match takeFilter s e frame p with
        | none => ethCount s e 0x110
        | some (k, act) => if bitsOf act 4 2 = 3 then s else ringWrite s e k act frame p

/-! ## Entries, messages and launches (R385, R387, R388) -/

/-- Job i of a port changed, or removed. -/
def updJobRx (s : State) (e i : Nat) (f : RxJob → RxJob) : State := updEth s e fun x => { x with rx := updAt x.rx i f }
def dropRx (s : State) (e i : Nat) : State := updEth s e fun x => { x with rx := dropAt x.rx i }

/-- Job i of a port at a stage, its requests acknowledged. -/
def rxAt (s : State) (e i stage : Nat) : Option RxJob :=
  match (ethAt s e).rx[i]? with
  | some j => if j.stage = stage && j.reqs.all (reqDone s) then some j else none
  | none => none

/-- The action of a job: 0 ring, 1 message, 2 launch. -/
def rxAct (j : RxJob) : Nat := bitsOf j.act 4 2

/-- A whole entry (R385): RG_TAIL advances past it, and what is left of its job is its message or launch. -/
def entryWhole (s : State) (e i : Nat) (j : RxJob) : State :=
  let s := setReg s (rgReg e j.ring 0x20) (j.idx + 1)
  if rxAct j = 0 then dropRx s e i else updJobRx s e i fun j => { j with stage := 1 }

/-- RING_SEQ_WRITE (R384, R385): the next of the steps of the entry that its ring writes: its pieces; once they have been acknowledged, SEQ; once that
has been acknowledged, the advance of RG_TAIL. -/
def execRingSeqWrite (e i : Nat) (s : State) : Host.Outcome State Fault Refusal :=
  stepOf <| match (ethAt s e).rx[i]? with
    | none => s
    | some j =>
      if ((ethAt s e).rx.take i).any (underWay j.ring) || !j.reqs.all (reqDone s) then s
      else if j.stage = 4 then
        let r := sendPieces s e j
        updJobRx r.2 e i fun _ => r.1
      else if j.stage = 0 then
        let r := feStore s (rgAsid s e j.ring) (reg s (rgReg e j.ring 0) + rgOff s e j.ring j.idx + 0x18) (leBytes 8 (j.idx + 1))
        updJobRx r.2 e i fun j => { j with stage := 5, reqs := r.1 }
      else if j.stage = 5 then entryWhole s e i j
      else s

/-- The VA of a job's entry (R385). -/
def entryVa (s : State) (e : Nat) (j : RxJob) : Nat := reg s (rgReg e j.ring 8) + rgOff s e j.ring j.idx

/-- The registers of a job's target (R378, R383). -/
def tgReg (s : State) (e : Nat) (j : RxJob) (off : Nat) : Nat := reg s (ethReg e (0x800 + 32 * bitsOf j.act 10 3 + off))

/-- The device time that a deadline of the network ends at. -/
def netDeadline (cls dts slack : Nat) : Word := if cls = 0 then BitVec.ofNat 64 (dts + slack) else BitVec.allOnes 64

/-- A handler message posted by a port on the system network, with a fresh account (R387, R394). A budget of 0 posts nothing; a target that is no
core (X 6 or 7, R13), or a core outside the tenant's sub-mesh, counts as RX_MSGDROP. -/
def postHandler (s : State) (e asid cls level dst budget : Nat) (entry dline p0 p1 : Word) : State :=
  let tenant := cbWord s asid 0 % 16
  if budget = 0 then ethCount s e 0x150
  else if bitsOf dst 20 3 ≥ 6 || !inTenant s tenant (coreOfHwhere dst) then ethCount s e 0x120
  else
    let (a, s) := freshUid s
    let ac : Acct := { asid := asid, team := none, units := budget, unlimited := cls != 0 && budget == 0xFFFFFFFFFF, carry := 0,
                       graceEnd := none, closed := false }
    let m : Msg :=
      { kind := .handler, net := 0, tenant := tenant, asid := asid, cls := cls, level := level, scope := 2, seq := 0, rpl := false,
        src := 0x7FFFFFF, dst := dst, entry := entry, teamNo := 0, off := 0, body := [], dline := dline, orec := 0, srcTeam := 0,
        srcIdx := 0, p0 := p0, p1 := p1, uid := 0, sq := none, reserved := false, drain := false, acct := a, forUid := 0 }
    { s with work := { s.work with accts := tput s.work.accts a ac }, net := { s.net with msgs := s.net.msgs ++ [m] } }

/-- The messages that stand in a port's ingress buffer among these entries and writes with Immediate: acknowledged, not injected (R387, R394). -/
def buffered64 (s : State) (rx : List RxJob) (imms : List ImmJob) : Nat :=
  (rx.filter fun j => j.stage == 1 && rxAct j == 1 && j.reqs.all (reqDone s)).length + (imms.filter fun j => j.reqs.all (reqDone s)).length

/-- INGRESS_MESSAGE (R387): after the SEQ write has been acknowledged, in frame order; a frame that finds 64 in the buffer is
counted and posts nothing. -/
def execIngressMessage (e i : Nat) (s : State) : Host.Outcome State Fault Refusal :=
  stepOf <| match rxAt s e i 1 with
    | none => s
    | some j =>
      if rxAct j ≠ 1 then s
      else if buffered64 s ((ethAt s e).rx.take i) (ethAt s e).imms ≥ 64 then ethCount (dropRx s e i) e 0x120
      else if (((ethAt s e).rx.take i).any fun q => rxAct q == 1) || !ctxFree s (rgAsid s e j.ring) then s
      else
        let cls := bitsOf j.act 6 2
        let s' := dropRx s e i
        postHandler s' e (rgAsid s e j.ring) cls (bitsOf j.act 8 2) (Nat.land (tgReg s e j 8) 0x7730000) (tgReg s e j 0x18 % 2 ^ 40)
          (BitVec.ofNat 64 (tgReg s e j 0)) (netDeadline cls j.dts (tgReg s e j 0x10 % 2 ^ 32)) (BitVec.ofNat 64 (entryVa s e j)) (BitVec.ofNat 64 j.dts)

/-- The queue of a launch action (R388). -/
def launchQid (s : State) (e : Nat) (j : RxJob) : Nat := tgReg s e j 8 % 2 ^ 10

/-- The queue of a launch action takes the command (R388): enabled, Ibex, of the ring's ASID, not full. -/
def launchQueue (s : State) (e : Nat) (j : RxJob) : Option (Nat × Nat) :=
  let q := launchQid s e j
  match qcbOf s q with
  | none => none
  | some qcb =>
    let cfg := qW s qcb 0x10
    let st := qState s qcb
    if (st = 1 || st = 2 || st = 3) && qCls cfg = 0 && qAsid cfg = rgAsid s e j.ring && qW s qcb 0x28 - qW s qcb 0x20 < qSize cfg
    then some (q, qcb) else none

/-- Every step after the descriptor's waits for earlier launches of the port (R388). -/
def earlierLaunch (s : State) (e i : Nat) : Bool := ((ethAt s e).rx.take i).any fun q => rxAct q == 2

/-- The place of a job's descriptor slot, from the ring's base (R388). -/
def descOff (s : State) (e : Nat) (j : RxJob) : Nat :=
  rgSlots s e j.ring * rgSlotSize s e j.ring + 64 * (j.idx % rgSlots s e j.ring)

/-- INGRESS_DESCRIPTOR_COPY (R388): the template with both payloads replaced; a queue that cannot take the launch counts it. -/
def execIngressDescriptorCopy (e i : Nat) (s : State) : Host.Outcome State Fault Refusal :=
  stepOf <| match rxAt s e i 1 with
    | none => s
    | some j =>
      if rxAct j ≠ 2 || earlierLaunch s e i || !qFree s (launchQid s e j) || !homeFree s (tgReg s e j 0) 64 then s
      else if (launchQueue s e j).isNone then ethCount (dropRx s e i) e 0x128
      else
        let d := peekHome s (tgReg s e j 0) 64
        let bs := d.take 0x28 ++ leBytes 8 (entryVa s e j) ++ leBytes 8 j.dts ++ d.drop 0x38
        let r := feStore s (rgAsid s e j.ring) (reg s (rgReg e j.ring 0) + descOff s e j) bs
        updJobRx r.2 e i fun j => { j with stage := 2, reqs := r.1 }

/-- INGRESS_LAUNCH_COMMAND (R388, R340). -/
def execIngressLaunchCommand (e i : Nat) (s : State) : Host.Outcome State Fault Refusal :=
  stepOf <| match rxAt s e i 2 with
    | none => s
    | some j =>
      if !qFree s (launchQid s e j) then s else match qcbOf s (launchQid s e j) with
      | none => ethCount (dropRx s e i) e 0x128
      | some qcb =>
        let bs := leBytes 8 (1 + j.idx % 2 ^ 32 * 2 ^ 32) ++ leBytes 8 (reg s (rgReg e j.ring 8) + descOff s e j) ++ leBytes 8 0 ++
          leBytes 8 (j.dts + tgReg s e j 0x10 % 2 ^ 32) ++ leBytes 8 (tgReg s e j 0x18 % 2 ^ 40) ++ List.replicate 24 0
        let at_ := qW s qcb 8 + 64 * (qW s qcb 0x28 % qSize (qW s qcb 0x10))
        let r := feStore s (rgAsid s e j.ring) at_ bs
        updJobRx r.2 e i fun j => { j with stage := 3, reqs := r.1 }

/-- INGRESS_TAIL_ADVANCE (R388, R395): a doorbell; a queue that is no longer enabled ignores it and the frame is counted. -/
def execIngressTailAdvance (e i : Nat) (s : State) : Host.Outcome State Fault Refusal :=
  stepOf <| match rxAt s e i 3 with
    | none => s
    | some j =>
      let q := launchQid s e j
      let s' := dropRx s e i
      if !qFree s q then s else match qcbOf s q with
      | none => ethCount (dbDrop s') e 0x128
      | some qcb =>
        let ok := launchQueue s e j
        let s' := doorbellTail s' q (qW s qcb 0x28 + 1)
        if ok.isSome then s' else ethCount s' e 0x128

/-- RG_HEAD (R378). -/
def rgHead (s : State) (e r v : Nat) : State :=
  if reg s (rgReg e r 0x18) ≤ v && v ≤ reg s (rgReg e r 0x20) then setReg s (rgReg e r 0x18) v else s
def execRgHeadWrite (e r v : Nat) (s : State) : Host.Outcome State Fault Refusal := stepOf (if e < 4 && r < 16 then rgHead s e r v else s)

/-- A ring that is switched off (R385): an entry whose SEQ has not been sent is dropped and counted, for writes to the ring are; one whose SEQ has been
sent stays written, and RG_TAIL advances past it. -/
def ringOff (s : State) (e k : Nat) : State :=
  let jobs := (ethAt s e).rx
  let lost (j : RxJob) : Bool := j.ring == k && (j.stage == 4 || j.stage == 0)
  let sent (j : RxJob) : Bool := j.ring == k && j.stage == 5
  let s := (jobs.filter lost).foldl (fun s _ => ringDrop s e k) s
  let s := (jobs.filter sent).foldl (fun s j => setReg s (rgReg e k 0x20) (j.idx + 1)) s
  updEth s e fun x => { x with
    rx := ((x.rx.filter fun j => !lost j).filter fun j => !(sent j && rxAct j == 0)).map fun j => if sent j then { j with stage := 1 } else j }

/-- RG_CFG (R378). -/
def rgCfg (s : State) (e r v : Nat) : State :=
  let old := reg s (rgReg e r 0x10)
  let en := b2n (v.testBit 24)
  if old.testBit 24 then setReg (if en = 0 then ringOff s e r else s) (rgReg e r 0x10) (setBits old 24 1 en)
  else
    let good : Bool := v % 16 ≤ 12 && bitsOf v 4 3 ≤ 6
    let on := if good then en else 0
    let s := setReg s (rgReg e r 0x10) (bitsOf v 0 7 + bitsOf v 8 16 * 2 ^ 8 + on * 2 ^ 24)
    if on = 1 then setReg (setReg s (rgReg e r 0x18) 0) (rgReg e r 0x20) 0 else s
def execRgCfgWrite (e r v : Nat) (s : State) : Host.Outcome State Fault Refusal := stepOf (if e < 4 && r < 16 then rgCfg s e r v else s)

end Sys2Proof.Machine
end

