-- ==== Sys2Proof/Machine/Roce.lean ====
section
/-! DEFINITION. The RoCEv2 engine (R389 to R394): queue pairs, work entries, the responder. A packet is what its headers say:
the spec gives no header layout, so a packet's fields are the arguments of its step. -/

namespace Sys2Proof.Machine

/-! ## Tables (R390, R391) -/

/-- The engine's own state of a queue pair. -/
def blankQp (e qp : Nat) : Qp :=
  { head := 0, tail := 0, cq := 0, psn := Config.firstPsn e qp % 2 ^ 24, retries := 0, since := 0, work := [],
    epsn := Config.firstPsn (4 + e) qp % 2 ^ 24, nakOut := false, wrs := [], acks := [], ent := [] }
def qpOf (s : State) (e qp : Nat) : Qp := tgetD (ethAt s e).qps qp (blankQp e qp)
def updQp (s : State) (e qp : Nat) (f : Qp → Qp) : State :=
  updEth s e fun x => { x with qps := tput x.qps qp (f (tgetD x.qps qp (blankQp e qp))) }

/-- A queue pair's table entry, and a field of the entry as the engine read it last, at a doorbell or a request (R391). -/
def qpAt (s : State) (e qp : Nat) : Nat := reg s (ethReg e 0xC00) + 64 * qp
def qpField (s : State) (e qp o n : Nat) : Nat := leNat (((qpOf s e qp).ent.drop o).take n)
def qpState (s : State) (e qp : Nat) : Nat := qpField s e qp 0 1
def qpMtu (s : State) (e qp : Nat) : Nat := 512 * 2 ^ qpField s e qp 1 1
def qpAsid (s : State) (e qp : Nat) : Nat := qpField s e qp 2 2

/-- An entry that breaks R391. -/
def qpBad (s : State) (e qp : Nat) : Bool :=
  let f := qpField s e qp
  qpState s e qp > 2 || f 1 1 = 0 || f 1 1 > 3 || f 0x14 1 > 12 || f 0x15 1 > 12 || f 0x16 1 % 4 = 3 ||
  f 7 1 != 0 || f 0x12 2 != 0 || f 0x16 1 / 16 != 0 || f 0x17 1 != 0 || f 0x38 8 / 2 ^ 40 != 0

/-- The pair has work that the engine goes on with: its entry is valid, in state ready or ERROR. -/
def qpLive (s : State) (e qp : Nat) : Bool := !qpBad s e qp && qpState s e qp != 0

/-- RC_ERRQP (R378): the pairs in state ERROR. -/
def errQps (s : State) (e : Nat) : Nat := ((List.range (reg s (ethReg e 0xC08))).filter fun q => peekHome s (qpAt s e q) 1 == [2]).length

/-- STATE 2 written by the port (R390), which knows it. -/
def setQpError (s : State) (e qp : Nat) : State :=
  updQp (homeWrite s 0 (qpAt s e qp) [2]) e qp fun x => { x with ent := 2 :: x.ent.drop 1 }

/-- A completion of work entry j (R390, R392). -/
def qpComplete (s : State) (e qp : Nat) (w : QpWork) : State :=
  if !w.signal && w.status = 0 then s
  else
    let n := 2 ^ (qpField s e qp 0x15 1 + 4)
    let c := (qpOf s e qp).cq
    let bs := leBytes 4 w.j ++ leBytes 1 w.status ++ leBytes 1 w.op ++ leBytes 1 ((c / n + 1) % 2) ++ leBytes 1 0 ++ leBytes 4 w.moved ++
      leBytes 4 qp ++ leBytes 8 (timeNow s) ++ leBytes 8 0
    updQp (homeWrite s 0 (qpField s e qp 0x20 8 + 32 * (c % n)) bs) e qp fun x => { x with cq := x.cq + 1 }

/-- Work entry j as the ring holds it. -/
def workAt (s : State) (e qp j : Nat) : Nat := qpField s e qp 0x18 8 + 64 * (j % 2 ^ (qpField s e qp 0x14 1 + 4))
def workBytes (s : State) (e qp j : Nat) : List Byte := peekHome s (workAt s e qp j) 64
def readWork (s : State) (e qp j : Nat) : QpWork :=
  let b := workBytes s e qp j
  let f (o n : Nat) : Nat := leNat ((b.drop o).take n)
  { j := j, op := f 0 1, signal := (f 1 1).testBit 0, first := 0, last := 0, lva := f 8 8, len := f 0x10 4, moved := 0, reqs := [],
    acked := false, status := 0 }

/-- A work entry breaks R390, R392. -/
def workBad (s : State) (e qp j : Nat) : Bool :=
  let b := workBytes s e qp j
  let f (o n : Nat) : Nat := leNat ((b.drop o).take n)
  f 0 1 > 2 || f 1 1 > 1 || f 2 2 != 0 || f 0x10 4 > 2 ^ 31 || (b.drop 0x20).any (· != 0)

/-- Entries that have finished complete in index order: a WRITE with its ACK, a READ when its local writes have been acknowledged, one that
failed or is flushed. -/
def retireWork (s : State) (e qp : Nat) : Nat → State
  | 0 => s
  | n + 1 => match (qpOf s e qp).work with
    | w :: rest =>
      if w.acked && w.reqs.all (reqDone s) then retireWork (qpComplete (updQp s e qp fun x => { x with work := rest }) e qp w) e qp n
      else s
    | [] => s
def retireQp (s : State) (e qp : Nat) : State := if qpLive s e qp then retireWork s e qp (qpOf s e qp).work.length else s

/-- A work entry that has ended with a status. -/
def endWork (status : Nat) (w : QpWork) : QpWork := { w with status := status, acked := true, reqs := [] }

/-- What an error at index j makes of an entry that has not failed yet (R392, R395): that entry gets its status; every later one, and a READ whose
responses have not all come, is FLUSHED; an earlier WRITE still waits for its ACK. -/
def brokenWork (j status : Nat) (v : QpWork) : QpWork :=
  if v.status ≠ 0 then v
  else if v.j = j then endWork status v
  else if v.j > j ∨ v.op = 2 ∧ !v.acked then endWork 6 v
  else v

/-- The pair goes to ERROR for entry j; entries that have not begun are flushed as WORK_ENTRY_RUN comes to them. -/
def breakQp (s : State) (e qp j status : Nat) : State :=
  retireQp (setQpError (updQp s e qp fun x => { x with work := x.work.map (brokenWork j status) }) e qp) e qp

/-- The engine reads the pair's entry (R391): an invalid one goes to ERROR with no completion. -/
inductive QpRead where
  | reset | ready | error | invalid

def readQp (s : State) (e qp : Nat) : QpRead × State :=
  let s := updQp s e qp fun x => { x with ent := peekHome s (qpAt s e qp) 64 }
  if qpBad s e qp then (.invalid, if qpState s e qp = 2 then s else homeWrite s 0 (qpAt s e qp) [2])
  else match qpState s e qp with
    | 0 => (.reset, s)
    | 1 => (.ready, s)
    | _ => (.error, s)

/-! ## Addresses (R392): U-mode rights through the path of R342 -/

def rcXlate (s : State) (asid va : Nat) (acc : Acc) : XRes × State :=
  xlate s (feDie s) asid (ctxOf s asid).satp (BitVec.ofNat 64 va) acc .u false false none

/-- A range cut at pages: where each part goes, or a fault. -/
inductive RcRange where
  | ok (l : List (Loc × Nat)) | fault | wait

/-- A place that refuses the access: a register, a port that takes no traffic, a tile that is not open or is written, a closed window that is
read (R217, R392). -/
def rcRefused (s : State) (asid : Nat) (l : Loc) (acc : Acc) : Bool := match l with
  | .mmio _ => true
  | .host port _ _ => !hostOpen s port
  | .tile c t _ => acc != .load || !tileOpen s c t asid
  | .win c w _ => acc == .load && winState s c w asid == .closed
  | .hbm _ _ => false

/-- A window that is loading, or whose team is saved, keeps the access waiting (R283), and so does a line to be read that its home is busy
with. -/
def rcHeld (s : State) (asid : Nat) (l : Loc) (acc : Acc) (n : Nat) : Bool := match l with
  | .hbm pa _ => acc == .load && !homeFree s pa n
  | .win c w _ => winState s c w asid == .loading || winState s c w asid == .moved
  | _ => false

/-- Parts of a range, at most to the end of a page and of a window's or tile's unit. -/
def rcRange (s : State) (asid va len : Nat) (acc : Acc) : Nat → RcRange × State
  | 0 => (.ok [], s)
  | fuel + 1 =>
    if len = 0 then (.ok [], s)
    else
      let n := min len (1024 - va % 1024)
      match rcXlate s asid va acc with
      | (.wait, s) => (.wait, s)
      | (.fault _, s) => (.fault, s)
      | (.ok l, s) =>
        if rcRefused s asid l acc then (.fault, s) else if rcHeld s asid l acc n then (.wait, s) else (match rcRange s asid (va + n) (len - n) acc fuel with
          | (.ok r, s) => (.ok ((l, n) :: r), s)
          | r => r)
def rcParts (s : State) (asid va len : Nat) (acc : Acc) : RcRange × State := rcRange s asid va len acc (len / 1024 + 2)

/-- The bytes of a range that goes out in packets; what lies in host memory is asked for and goes out as it comes. -/
def rcGather (s : State) (asid : Nat) (l : List (Loc × Nat)) : List Byte × State :=
  l.foldl (fun a p =>
    match p.1 with
    | .hbm pa _ => (a.1 ++ peekHome a.2 pa p.2, lostFault a.2 asid pa p.2)
    | .win c w off => (a.1 ++ readWin a.2 c w off p.2, a.2)
    | .tile c t off => (a.1 ++ readTile a.2 c t off p.2, a.2)
    | .host port _ addr => (a.1, hostSend a.2 port asid 0 addr p.2 none false .none)
    | .mmio _ => a) ([], s)

/-- Data written over the parts of a range, in order: at the homes, each piece applied after the earlier ones of the pair (R361, R393). -/
def rcScatter (s : State) (asid : Nat) (before : List Nat) (l : List (Loc × Nat)) (bs : List Byte) : List Nat × State :=
  let r := l.foldl (fun (a : List Nat × List Byte × State) p =>
    let d := a.2.1.take p.2
    let rest := a.2.1.drop p.2
    match p.1 with
    | .hbm pa _ =>
      let q := (splitLines pa d).foldl (fun (b : List Nat × State) x =>
        let (id, s) := freshUid b.2
        (b.1 ++ [id], pushReq s { id := id, die := 4, core := 255, uid := 0, asid := asid, pa := x.1, kind := .homeWrite, data := x.2,
                                  reply := .none, sx := false, deps := before ++ b.1 })) (a.1, a.2.2)
      (q.1, rest, q.2)
    | .host _ _ addr => (a.1, rest, hostWrite a.2.2 addr d)
    | .win c w off => (a.1, rest, if winState a.2.2 c w asid = .open_ then writeWin a.2.2 c w off 0 d else a.2.2)
    | _ => (a.1, rest, a.2.2)) ([], bs, s)
  (r.1, r.2.2)

/-! ## The requester (R392) -/

/-- RC_DB (R391, R392): the low 32 bits of the tail; one more than the queue's size ahead puts the pair in ERROR. -/
def rcDb (s : State) (e qp v : Nat) : State :=
  if qp ≥ reg s (ethReg e 0xC08) then homeWrite s 0 (qpAt s e qp) [2]
  else match readQp s e qp with
    | (.reset, s) => s
    | (.invalid, s) => s
    | (_, s) =>
      let x := qpOf s e qp
      let more := (v + 2 ^ 32 - x.tail % 2 ^ 32) % 2 ^ 32
      if x.tail + more - x.head > 2 ^ (qpField s e qp 0x14 1 + 4) then breakQp s e qp x.tail 6
      else updQp s e qp fun x => { x with tail := x.tail + more }

/-- RC_DB as an event: it waits while the home of the pair's entry is busy with it. -/
def execRcDb (e qp v : Nat) (s : State) : Host.Outcome State Fault Refusal :=
  stepOf (if e < 4 && homeFree s (qpAt s e qp) 64 then rcDb s e qp v else s)

/-- Packets sent count as frames (R378). -/
def sendPackets (s : State) (e n : Nat) : State := bumpReg s (ethReg e 0x130) 63 n

/-- Packets of a length at the pair's MTU. -/
def packets (s : State) (e qp len : Nat) : Nat := max 1 ((len + qpMtu s e qp - 1) / qpMtu s e qp)

/-- A work entry that has failed before it began, behind those under way. -/
def failWork (s : State) (e qp : Nat) (w : QpWork) (status : Nat) : State :=
  breakQp (updQp s e qp fun x => { x with work := x.work ++ [w] }) e qp w.j status

/-- The next work entry of a ready pair, its local range known: its packets are sent. -/
def startWork (s : State) (e qp : Nat) (w : QpWork) (l : List (Loc × Nat)) : State :=
  let n := packets s e qp w.len
  let first := (qpOf s e qp).psn
  let (bs, s) := if w.op = 2 then ([], s) else rcGather s (qpAsid s e qp) l
  let w := { w with first := first, last := (first + n - 1) % 2 ^ 24 }
  let s := sendPackets (updEth s e fun y => { y with sent := bs }) e (if w.op = 2 then 1 else n)
  updQp s e qp fun x => { x with
    psn := (x.psn + n) % 2 ^ 24, since := if x.work.all (·.acked) then s.clock.clk else x.since, work := x.work ++ [w] }

/-- WORK_ENTRY_RUN (R392): the next work entry, in index order; a READ waits for every earlier WRITE. In ERROR the entry is flushed. -/
def execWorkEntryRun (e qp : Nat) (s : State) : Host.Outcome State Fault Refusal :=
  stepOf <|
    let x := qpOf s e qp
    if e ≥ 4 || !qpLive s e qp || x.head ≥ x.tail || !homeFree s (workAt s e qp x.head) 64 then s
    else
      let w := readWork s e qp x.head
      let next (s : State) : State := updQp s e qp fun x => { x with head := x.head + 1 }
      if qpState s e qp = 2 then retireQp (updQp (next s) e qp fun x => { x with work := x.work ++ [endWork 6 w] }) e qp
      else if workBad s e qp x.head then failWork (next s) e qp w 1
      else if w.op = 2 && x.work.any (fun v => v.op != 2 && !v.acked) then s
      else match rcParts s (qpAsid s e qp) w.lva w.len (if w.op = 2 then .store else .load) with
        | (.wait, s) => s
        | (.fault, s) => failWork (next s) e qp w 2
        | (.ok l, s) => startWork (next s) e qp w l

/-- PSN a is at or after b (R389: 24 bits). -/
def psnAfter (a b : Nat) : Bool := (a + 2 ^ 24 - b) % 2 ^ 24 < 2 ^ 23

/-- A work entry's PSNs hold one. -/
def holdsPsn (w : QpWork) (psn : Nat) : Bool := psnAfter psn w.first && psnAfter w.last psn

/-- A READ response (R389, R392): the next bytes of the oldest READ, a whole MTU but in its last packet, written at their homes. -/
def readResponse (s : State) (e qp psn : Nat) (data : List Byte) : State :=
  match (qpOf s e qp).work.find? fun w => w.op == 2 && !w.acked with
  | none => s
  | some w =>
    if psn ≠ (w.first + w.moved / qpMtu s e qp) % 2 ^ 24 ∨ data.length ≠ min (qpMtu s e qp) (w.len - w.moved) then s
    else match rcParts s (qpAsid s e qp) (w.lva + w.moved) data.length .store with
      | (.wait, s) => s
      | (.fault, s) => breakQp s e qp w.j 2
      | (.ok l, s) =>
        let (ids, s) := rcScatter s (qpAsid s e qp) w.reqs l data
        let w' := { w with moved := w.moved + data.length, reqs := w.reqs ++ ids, acked := w.moved + data.length == w.len }
        updQp s e qp fun x => { x with since := s.clock.clk, retries := 0, work := x.work.map fun v => if v = w then w' else v }

/-- Go-back-N (R392, R393): one retransmission; the packets of every work entry without its ACK go out again, a READ's request among them. -/
def resend (s : State) (e qp : Nat) : State :=
  let again := (qpOf s e qp).work.filter fun w => !w.acked
  sendPackets (ethCount s e 0x140) e ((again.map fun w => if w.op = 2 then 1 else packets s e qp w.len).foldl (· + ·) 0)

/-- RoCEv2 packets reach the engine while ROCE_EN is 1 (R383). -/
def roceOn (s : State) (e : Nat) : Bool := (ethCfg s e).testBit 24

/-- An ACK reaches a WRITE under way: its bytes up to that packet have moved. -/
def ackWork (mtu psn : Nat) (w : QpWork) : QpWork :=
  if w.op = 2 ∨ w.acked ∨ !psnAfter psn w.first then w
  else if psnAfter psn w.last then { w with acked := true, moved := w.len }
  else { w with moved := max w.moved ((psn + 2 ^ 24 - w.first) % 2 ^ 24 * mtu + mtu) }

/-- A fatal NAK fails the entry that its packet belongs to (R392). -/
def fatalNak (s : State) (e qp psn status : Nat) : State :=
  match (qpOf s e qp).work.find? fun w => !w.acked && holdsPsn w psn with
  | some w => breakQp s e qp w.j status
  | none => s

/-- ROCE_RESPONSE_PACKET (R392): kind 0 ACK, 1 NAK Sequence Error, 2 NAK Remote Access Error, 3 NAK Invalid Request, 4 READ
response, which a pair in ERROR discards (R395). Every NAK received is counted (R378). -/
def execRoceResponsePacket (e qp psn kind : Nat) (data : List Byte) (s : State) : Host.Outcome State Fault Refusal :=
  stepOf <|
    if !ethUp s e || !roceOn s e then s
    else
      let s := if 1 ≤ kind && kind ≤ 3 then ethCount s e 0x138 else s
      if qp ≥ reg s (ethReg e 0xC08) || !qpLive s e qp then s
      else match kind with
        | 0 => retireQp (updQp s e qp fun x => { x with since := s.clock.clk, retries := 0, work := x.work.map (ackWork (qpMtu s e qp) psn) }) e qp
        | 1 => resend (updQp s e qp fun x => { x with since := s.clock.clk }) e qp
        | 2 => fatalNak s e qp psn 3
        | 3 => fatalNak s e qp psn 5
        | 4 => if qpState s e qp = 1 then retireQp (readResponse s e qp psn data) e qp else s
        | _ => s

/-- ROCE_RETRY_TIMEOUT (R392): 65 µs without an ACK retransmit; after 7 retransmissions the pair fails with RETRY_EXC. -/
def execRoceRetryTimeout (e qp : Nat) (s : State) : Host.Outcome State Fault Refusal :=
  stepOf <|
    let x := qpOf s e qp
    match x.work.find? fun w => !w.acked with
    | none => s
    | some w =>
      if e ≥ 4 || !qpLive s e qp || s.clock.clk < x.since + 117000 then s
      else if x.retries ≥ 7 then breakQp s e qp w.j 4
      else resend (updQp s e qp fun x => { x with retries := x.retries + 1, since := s.clock.clk }) e qp

/-! ## The responder (R393, R394) -/

/-- An answer is sent: 0 an ACK, 1 NAK Sequence Error, 2 NAK Remote Access Error, 3 NAK Invalid Request. -/
def rcAnswer (s : State) (e qp psn kind : Nat) : State :=
  let s := sendPackets (if kind = 0 then s else ethCount s e 0x138) e 1
  updEth s e fun x => { x with rcAns := some (qp, psn, kind) }

/-- ACKs whose pieces have all been acknowledged are sent, in order (R393); one after a WRITE with Immediate waits for its message
(R394). -/
def sendAcks (s : State) (e qp : Nat) : Nat → State
  | 0 => s
  | n + 1 => match (qpOf s e qp).acks with
    | (psn, ids) :: rest =>
      let held := (ethAt s e).imms.any fun j => j.qp == qp && psnAfter psn j.psn
      if ids.all (reqDone s) && !held then sendAcks (rcAnswer (updQp s e qp fun x => { x with acks := rest }) e qp psn 0) e qp n else s
    | [] => s
def acksOut (s : State) (e qp : Nat) : State := sendAcks s e qp (qpOf s e qp).acks.length

/-- What the reliable-connection engines do, in a turn of their own (log 1), once requests have been acknowledged: completions are written
(R392) and ACKs go out (R393). -/
def settleRoce (s : State) : State :=
  s.eth.foldl (fun s p => p.2.qps.foldl (fun s q => acksOut (retireQp s p.1 q.1) p.1 q.1) s) s

/-- The key checks of R393 for [va, va + len), but the translation. -/
def mrAt (s : State) (e rkey : Nat) : Nat := reg s (ethReg e 0xC10) + 32 * (rkey % 2 ^ 16)
def keyOk (s : State) (e qp rkey va len : Nat) (write : Bool) : Bool :=
  let f (o n : Nat) : Nat := leNat (peekHome s (mrAt s e rkey + o) n)
  let flags := f 0x12 1
  rkey % 2 ^ 16 < reg s (ethReg e 0xC18) && flags.testBit 2 && f 0x14 2 == rkey / 2 ^ 16 && f 0x10 2 == qpAsid s e qp &&
  flags.testBit (if write then 0 else 1) && f 0 8 ≤ va && va + len ≤ f 0 8 + f 8 8

/-- Bytes [off, off + n) of a range whose whole is checked and translated first (R393). -/
def rcPartsOf (s : State) (asid va len off n : Nat) (acc : Acc) : RcRange × State :=
  match rcParts s asid va len acc with
  | (.ok _, s) => rcParts s asid (va + off) n acc
  | r => r

/-- A packet of a WRITE: its data at its place in the write that it belongs to, the latest that starts at or before its PSN; a duplicate is
written again with the same bytes (R393). A First or Middle packet holds a whole MTU, no packet more (R389). -/
def writePacket (s : State) (e qp psn : Nat) (dup whole : Bool) (imm : Option Nat) (data : List Byte) : State :=
  let x := qpOf s e qp
  let nak (s : State) (k : Nat) : State := if dup then s else rcAnswer s e qp psn k
  match x.wrs.find? fun w => psnAfter psn w.1 with
  | none => nak s 2
  | some (p0, va, rkey, len) =>
      let off := (psn + 2 ^ 24 - p0) % 2 ^ 24 * qpMtu s e qp
      if data.length > qpMtu s e qp || whole && data.length != qpMtu s e qp then nak s 3
      else if !homeFree s (mrAt s e rkey) 32 then s
      else if off + data.length > len || !keyOk s e qp rkey va len true then nak s 2
      else match rcPartsOf s (qpAsid s e qp) va len off data.length .store with
        | (.wait, s) => s
        | (.fault, s) => nak s 2
        | (.ok l, s) =>
          let before := (x.acks.flatMap fun a => a.2) ++ ((ethAt s e).imms.filter fun j => j.qp == qp).flatMap fun j => j.reqs
          let (ids, s) := rcScatter s (qpAsid s e qp) before l data
          let s := if dup then s else updQp s e qp fun x => { x with epsn := (x.epsn + 1) % 2 ^ 24, nakOut := false }
          match imm with
          | some v =>
            if dup then updQp s e qp fun x => { x with acks := x.acks ++ [(psn, ids)] }
            else
              let (ns, s) := takeStamp s e
              let j : ImmJob := { qp := qp, psn := psn, imm := v, len := len, reqs := before ++ ids, dts := dtsOf s e ns }
              updEth s e fun y => { y with imms := y.imms ++ [j] }
          | none => updQp s e qp fun x => { x with acks := x.acks ++ [(psn, ids)] }

/-- A READ request: the range is read and its responses are sent; they take one PSN a packet. -/
def readRequest (s : State) (e qp psn : Nat) (dup : Bool) (va rkey len : Nat) : State :=
  if !homeFree s (mrAt s e rkey) 32 then s
  else if !keyOk s e qp rkey va len false then rcAnswer s e qp psn 2
  else match rcParts s (qpAsid s e qp) va len .load with
    | (.wait, s) => s
    | (.fault, s) => rcAnswer s e qp psn 2
    | (.ok l, s) =>
      let (bs, s) := rcGather s (qpAsid s e qp) l
      let s := sendPackets (updEth s e fun y => { y with sent := bs }) e (packets s e qp len)
      if dup then s else updQp s e qp fun x => { x with epsn := (x.epsn + packets s e qp len) % 2 ^ 24, nakOut := false }

/-- ROCE_REQUEST_PACKET (R389, R391, R393): op 0 WRITE First, 1 Middle, 2 Last, 3 Only, 4 Last with Immediate, 5 Only with
Immediate, 6 READ request; any other opcode is refused. `va`, `rkey` and `len` are those of a packet that carries them. -/
def execRoceRequestPacket (e qp psn op va rkey len imm : Nat) (data : List Byte) (s : State) : Host.Outcome State Fault Refusal :=
  stepOf <|
    if !ethUp s e || !roceOn s e then s
    else if qp ≥ reg s (ethReg e 0xC08) then rcAnswer s e qp psn 3
    else if !homeFree s (qpAt s e qp) 64 then s
    else match readQp s e qp with
      | (.ready, s) =>
        let s := acksOut s e qp
        let x := qpOf s e qp
        let psn := psn % 2 ^ 24
        let dup := psn != x.epsn && psnAfter x.epsn psn
        if psn != x.epsn && !dup then (if x.nakOut then s else rcAnswer (updQp s e qp fun x => { x with nakOut := true }) e qp x.epsn 1)
        else if op > 6 then rcAnswer s e qp psn 3
        else if op = 6 then readRequest s e qp psn dup va rkey len
        else
          let first := op = 0 || op = 3 || op = 5
          let s := if first && !dup then updQp s e qp fun x => { x with wrs := (psn, va, rkey, len) :: x.wrs } else s
          writePacket s e qp psn dup (op ≤ 1) (if op ≥ 4 then some imm else none) data
      | (_, s) => rcAnswer s e qp psn 3

/-- WRITE_IMM_HANDLER (R394): once the write's data and every earlier write's has been acknowledged, the handler message is posted
as R387 does, through the port's ingress buffer, and the ACK follows. -/
def execWriteImmHandler (e i : Nat) (s : State) : Host.Outcome State Fault Refusal :=
  stepOf <| match (ethAt s e).imms[i]? with
    | none => s
    | some j =>
      if !j.reqs.all (reqDone s) || ((ethAt s e).imms.take i).any (fun k => k.qp == j.qp) || !ctxFree s (qpAsid s e j.qp) then s
      else
        let f := qpField s e j.qp
        let cls := f 0x16 1 % 4
        let full := buffered64 s (ethAt s e).rx ((ethAt s e).imms.take i) ≥ 64
        let s := updEth (acksOut s e j.qp) e fun x => { x with imms := dropAt x.imms i }
        let s := if full then ethCount s e 0x120 else postHandler s e (qpAsid s e j.qp) cls (f 0x16 1 / 4 % 4) (Nat.land (f 0x30 4) 0x7730000) (f 0x38 5)
          (BitVec.ofNat 64 (f 0x28 8)) (netDeadline cls j.dts (f 0x34 4)) (BitVec.ofNat 64 (j.imm + j.qp * 2 ^ 32)) (BitVec.ofNat 64 j.len)
        acksOut (updQp s e j.qp fun x => { x with acks := (j.psn, []) :: x.acks }) e j.qp

/-! ## Registers of a port (R378) -/

def ethRead (s : State) (e off : Nat) : Nat :=
  let flt := 0x200 ≤ off && off < 0x400
  let ring := 0x400 ≤ off && off < 0x800 && off % 64 < 0x30
  let tg := 0x800 ≤ off && off < 0x900
  if off = 8 then ethCfg s e
  else if off = 0x10 then ethMac s e
  else if off = 0xC28 then errQps s e
  else if [0x20, 0x48, 0x180, 0xC20].contains off then 0
  else if off ≤ 0x18 || (0x28 ≤ off && off ≤ 0x70) || (0x80 ≤ off && off ≤ 0x98) || (0x100 ≤ off && off ≤ 0x150) || flt || ring || tg ||
          (0xC00 ≤ off && off ≤ 0xC18) then reg s (ethReg e off)
  else 0

/-- A filter action written: CLASS 3 is ignored, an Ibex filter has LEVEL 0 (R383). -/
def fltAct (s : State) (r v : Nat) : State :=
  let cls := bitsOf v 6 2
  if cls = 3 then s else setReg s r (bitsOf v 0 8 + (if cls = 0 then 0 else bitsOf v 8 2 * 2 ^ 8) + bitsOf v 10 3 * 2 ^ 10)

/-- PTP_ADJ: beyond the limits the nearer limit is stored (R378). -/
def adjWrite (v : Nat) : Nat :=
  let w : Nat := v % 2 ^ 32
  let x : Int := if w.testBit 31 then (w : Int) - 2 ^ 32 else w
  (max (-4294967) (min 4294967 x) % 2 ^ 32).toNat

def ethWrite (s : State) (e off v : Nat) : State :=
  let keep (lo n : Nat) : State := setReg s (ethReg e off) (bitsOf v lo n * 2 ^ lo)
  if off = 0x08 then
    let fr := v % 2 ^ 14
    let fr := if 1518 ≤ fr ∧ fr ≤ 9216 then fr else maxFr s e
    setReg s (ethReg e 8) (fr + bitsOf v 16 1 * 2 ^ 16 + bitsOf v 20 5 * 2 ^ 20)
  else if off = 0x10 then keep 0 48
  else if off = 0x18 then keep 0 32
  else if off = 0x20 then (if v.testBit 0 then ptpLatch s e else s)
  else if off = 0x40 then setReg s (ethReg e off) (adjWrite v)
  else if off = 0x48 then ptpStep s e v
  else if off = 0x58 then (if e = 0 then keep 0 1 else s)
  else if off = 0x60 then (if e = 0 then keep 0 64 else s)
  else if off = 0x80 then keep 12 40
  else if off = 0x88 then txCfg s e v
  else if off = 0x90 then txTail s e v
  else if off = 0x180 then (if v.testBit 0 then ethClear s e else s)
  else if 0x200 ≤ off && off < 0x400 then (if off % 16 = 0 then keep 0 31 else if off % 16 = 8 then fltAct s (ethReg e off) v else s)
  else if 0x400 ≤ off && off < 0x800 then
    let r := (off - 0x400) / 64
    (match off % 64 with
     | 0x00 => keep 12 40
     | 0x08 => keep 12 36
     | 0x10 => rgCfg s e r v
     | 0x18 => rgHead s e r v
     | _ => s)
  else if 0x800 ≤ off && off < 0x900 then
    (match off % 32 with
     | 0x00 => keep 0 64
     | 0x08 => setReg s (ethReg e off) (Nat.land v 0x77303FF)
     | 0x10 => keep 0 32
     | 0x18 => keep 0 40
     | _ => s)
  else if off = 0xC00 || off = 0xC10 then keep 12 40
  else if off = 0xC08 then (if v > 4096 then s else keep 0 13)
  else if off = 0xC18 then (if v > 65536 then s else keep 0 17)
  else if off = 0xC20 then rcDb s e (v % 2 ^ 12) (bitsOf v 32 32)
  else s

end Sys2Proof.Machine
end

