-- ==== Sys2Proof/Machine/Regs.lean ====
section
/-! DEFINITION. The device register space and the doorbell region (R331, R333, R356 to R358): one read and one write that every
agent uses. -/

namespace Sys2Proof.Machine

/-- The state that a step of another agent leaves. -/
def after (s : State) (o : Host.Outcome State Fault Refusal) : State :=
  match o with
  | .next t => t
  | _ => s

/-- The front end's block (R331). -/
def feRegRead (s : State) (off : Nat) : Nat :=
  if off = 0 then 1
  else if 0x280 ≤ off && off ≤ 0x2F8 then regD s off 7
  else if off = 0x20 || off = 0x148 || off = 0x188 || off = 0x300 then 0
  else if off ≤ 0x28 || (0x40 ≤ off && off ≤ 0x80) || (0xC0 ≤ off && off ≤ 0x100) || off = 0x140 || off = 0x180 || off = 0x190 ||
          off = 0x198 || (0x200 ≤ off && off ≤ 0x278) || off = 0x308 then reg s off
  else 0

/-- An HBM base register: a PA past HBM leaves it. -/
def baseWrite (s : State) (r lo n v : Nat) : State :=
  let pa := bitsOf v lo n * 2 ^ lo
  if pa ≥ hbmEnd then s else setReg s r pa

def feRegWrite (s : State) (off v : Nat) : State :=
  if off = 0x08 then baseWrite s off 13 39 v
  else if off = 0x10 then baseWrite s off 22 30 v
  else if off = 0x18 then setReg s off v
  else if off = 0x20 then
    let q := v % 2 ^ 10
    (match bitsOf v 10 2 with
     | 0 => after s (execQctlEnable q s)
     | 1 => after s (execQctlDisable q s)
     | 2 => after s (execQctlReset q s)
     | _ => s)
  else if 0x40 ≤ off && off ≤ 0x80 then setReg s off (bitsOf v 8 44 * 2 ^ 8)
  else if off = 0x148 then
    let s := if v.testBit 0 then after s (execFeClrDbdrop s) else s
    if v.testBit 1 then after s (execFeClrOvr s) else s
  else if off = 0x180 then setReg s off (bitsOf v 7 45 * 2 ^ 7)
  else if off = 0x188 then after s (execPatchGo v s)
  else if 0x200 ≤ off && off ≤ 0x278 then setReg s off (Nat.land v 0x1FFF1FFF1FFF1FFF)
  else if 0x280 ≤ off && off ≤ 0x2F8 then setReg s off (v % 8)
  else if off = 0x300 then after s (execTenantCommit v s)
  else s

/-- The translation block (R329). -/
def xlRegRead (s : State) (off : Nat) : Nat :=
  if off = 0x30 then s.xl.fq.length else if off ≤ 0x40 then reg s (0x10000 + off) else 0

def xlRegWrite (s : State) (off v : Nat) : State :=
  if off = 0 then baseWrite s 0x10000 20 32 v
  else if off = 0x48 then (if v.testBit 16 then after s (execPriReset (v % 2 ^ 16) s) else s)
  else if off = 0x50 then
    let s := if v.testBit 0 then after s (execXlClrPrgSent s) else s
    if v.testBit 1 then after s (execXlClrPrgBad s) else s
  else s

/-- A memory die's block written, with the registers that act (R307). -/
def mdRegWrite (s : State) (md off v : Nat) : State :=
  if off = 0x38 then (if v.testBit 0 then after s (execSlotRel md s) else s)
  else if off = 0x40 then after s (execSlotRelasid md (v % 2 ^ 16) s)
  else if off = 0x58 then
    let s := if v.testBit 0 then after s (execEccClrCe md s) else s
    if v.testBit 1 then after s (execEccClrUe md s) else s
  else mdWrite s md off v

/-- The MSI-X block of a port (R373). -/
def msixRead (s : State) (port off : Nat) : Nat :=
  if off < 0x8000 then msixWord s port (off / 16) (off / 8 % 2)
  else if off < 0x8100 then reg s (0x40000 + 0x10000 * port + off) else 0
def msixRegWrite (s : State) (port off v : Nat) : State :=
  if off < 0x8000 then msixWrite s port (off / 16) (off / 8 % 2) (if off / 8 % 2 = 1 then v % 2 ^ 33 else v) else s

/-- The named fields of RSV_CFG: SLOTS, HSLOTS, VGR, WIN, TILES, SEATS. The others read 0 (R6); what was written to them fails a commit's SHAPE
test (R398, R422). -/
def rsvNamed : Nat := 0xFFFFFFFF1F3F

/-- The scheduler's block (R422). -/
def schRead (s : State) (off : Nat) : Nat :=
  if off = 0 then regD s schBase 0xC0
  else if off = 0x08 then regD s (schBase + 8) 0x01020408
  else if off = 0x70 then b2n (!s.sch.evq.isEmpty && (decide (reg s evtTail ≥ reg s evtHead + evtSize s) || !(reg s evtCfg).testBit 4))
  else if 0x100 ≤ off && off ≤ 0x178 then Nat.land (regD s (schBase + off) rsvReset) rsvNamed
  else if off = 0x40 || off = 0x48 || off = 0x50 || off = 0x60 || off > 0x98 then 0
  else reg s (schBase + off)

def schWrite (s : State) (off v : Nat) : State :=
  let r := schBase + off
  if off = 0 then (if v % 2 ^ 8 = 0 then s else setReg s r (v % 2 ^ 8))
  else if off = 0x08 || off = 0x10 then setReg s r (v % 2 ^ 32)
  else if off = 0x20 then setReg s r (bitsOf v 12 40 * 2 ^ 12)
  else if off = 0x28 then after s (execEvtCfgWrite v s)
  else if off = 0x30 then after s (execEvtHeadWrite v s)
  else if off = 0x40 then (if v.testBit 16 then after s (execSchEvict (v % 2 ^ 16) s) else s)
  else if off = 0x48 then (if v.testBit 16 then after s (execSchResume (v % 2 ^ 16) s) else s)
  else if off = 0x50 then after s (execSchWinrel v s)
  else if off = 0x58 then setReg s r (bitsOf v 12 36 * 2 ^ 12)
  else if off = 0x60 then after s (execSchShoot v s)
  else if off = 0xA0 then (if v.testBit 0 then after s (execSchCntClr s) else s)
  else if 0x100 ≤ off && off ≤ 0x178 then setReg s r v
  else s

/-- DIE_CMD written (R437): nothing with both or neither of OFF and ON. -/
def dieCmd (s : State) (v : Nat) : State :=
  if v.testBit 8 == v.testBit 9 then s
  else if v.testBit 8 then dieOffCmd s (v % 4) else dieOnCmd s (v % 4)

/-- A register read at an 8-byte offset of BAR0 (R357): space outside the blocks reads 0. -/
def bar0Read (s : State) (off : Nat) : Nat × State :=
  let pure (n : Nat) : Nat × State := (n, s)
  if off < 0x10000 then pure (feRegRead s off)
  else if off < 0x20000 then pure (xlRegRead s (off - 0x10000))
  else if off < 0x28000 then pure (mdRead s ((off - 0x20000) / 0x1000) (off % 0x1000))
  else if off < 0x30000 then pure 0
  else if off < 0x32000 then hpRead s ((off - 0x30000) / 0x1000) (off % 0x1000)
  else if off < 0x40000 then pure 0
  else if off < 0x60000 then pure (msixRead s ((off - 0x40000) / 0x10000) (off % 0x10000))
  else if off < 0x100000 then pure 0
  else if off < 0x118000 then pure (seamRead s ((off - 0x100000) / 0x1000) (off % 0x1000))
  else if off < 0x120000 then pure 0
  else if off < 0x160000 then pure (ethRead s ((off - 0x120000) / 0x10000) (off % 0x10000))
  else if off < 0x180000 then pure 0
  else if off < 0x190000 then pure (if off = 0x180000 then reg s off % 2 ^ 16 else if off ≤ pfDbg then reg s off else 0)
  else if off < 0x1A0000 then pure (schRead s (off - 0x190000))
  else if 0x1A0008 ≤ off && off ≤ 0x1A0020 then pure (reg s off)
  else pure 0

/-- A register written at an 8-byte offset of BAR0 (R357). -/
def bar0Write (s : State) (off v : Nat) : State :=
  if off < 0x10000 then feRegWrite s off v
  else if off < 0x20000 then xlRegWrite s (off - 0x10000) v
  else if off < 0x28000 then mdRegWrite s ((off - 0x20000) / 0x1000) (off % 0x1000) v
  else if off < 0x30000 then s
  else if off < 0x32000 then hpWrite s ((off - 0x30000) / 0x1000) (off % 0x1000) v
  else if off < 0x40000 then s
  else if off < 0x60000 then msixRegWrite s ((off - 0x40000) / 0x10000) (off % 0x10000) v
  else if off < 0x100000 then s
  else if off < 0x118000 then seamWrite s ((off - 0x100000) / 0x1000) (off % 0x1000) v
  else if off < 0x120000 then s
  else if off < 0x160000 then ethWrite s ((off - 0x120000) / 0x10000) (off % 0x10000) v
  else if off < 0x180000 then s
  else if off < 0x190000 then platWrite s (off - 0x180000) v
  else if off < 0x1A0000 then schWrite s (off - 0x190000) v
  else if off = 0x1A0000 then dieCmd s v
  else s

/-! ## Doorbells (R333) -/

/-- A word of a doorbell page read: TAIL, CR_HEAD, HEAD, STATE. With a table entry that is not VALID it reads 0, where the spec gives only writes
(DESIGN CHOICE, log 129). -/
def doorbellRead (s : State) (off : Nat) : Nat :=
  match qcbOf s (off / 4096) with
  | none => 0
  | some qcb => match off % 4096 with
    | 0x00 => qW s qcb 0x28
    | 0x08 => qW s qcb 0x38
    | 0x10 => qW s qcb 0x20
    | 0x18 => qW s qcb 0x40
    | _ => 0

/-- A write of n bytes to a doorbell page; after a fatal error none is accepted (R447). -/
def doorbellWrite (s : State) (off n v : Nat) : State :=
  let q := off / 4096
  let o := off % 4096
  if isFatal s then s
  else if n ≠ 8 ∧ (o / 8 = 0 ∨ o / 8 = 1) then dbDrop s
  else if o = 0 then doorbellTail s q v
  else if o = 8 then doorbellCrHead s q v
  else match qcbOf s q with
    | none => dbDrop s
    | some qcb => if qState s qcb = 0 then dbDrop s else s

/-- An access to a register or a doorbell may be made now: what it reads of a queue, of a queue pair or of a patch image stands free at its home (R289, R355).
BAR numbers as in 13: 0 the register space, 2 the doorbells. -/
def mmioFree (s : State) (bar off v : Nat) : Bool :=
  if bar = 2 then qFree s (off / 4096)
  else if off = 0x20 then qFree s (v % 2 ^ 10)
  else if off = 0x188 then homeFree s (reg s 0x180) 0x1170
  else if 0x120000 ≤ off && off < 0x160000 && off % 0x10000 = 0xC20 then homeFree s (qpAt s ((off - 0x120000) / 0x10000) (v % 2 ^ 12)) 64
  else true

/-! ## Accesses by device PA (R356, R358) -/

/-- The start and end of the register space and of the doorbell region on the device side. -/
def mmioBase : Nat := 0x8000000000
def dbBase : Nat := 0x8002000000
def dbEnd : Nat := 0x8002400000

/-- The same for a hart's access. -/
def paFree (s : State) (pa v : Nat) : Bool := if pa < dbBase then mmioFree s 0 (pa - mmioBase) v else mmioFree s 2 (pa - dbBase) v

/-- A read of n bytes by a hart: none when the access raises cause 5. -/
def mmioLoad (s : State) (pa n : Nat) : Option (Nat × State) :=
  if mmioBase ≤ pa ∧ pa < dbBase then
    if n = 8 ∧ pa % 8 = 0 then some (bar0Read s (pa - mmioBase))
    else if n = 4 ∧ pa % 4 = 0 then
      let r := bar0Read s ((pa - mmioBase) / 8 * 8)
      some (bitsOf r.1 (8 * (pa % 8)) 32, r.2)
    else none
  else if dbBase ≤ pa ∧ pa < dbEnd then
    if pa % 8 + n ≤ 8 then some (bitsOf (doorbellRead s ((pa - dbBase) / 8 * 8)) (8 * (pa % 8)) (8 * n), s) else none
  else none

/-- A write by a hart: none when the access raises cause 7. -/
def mmioStore (s : State) (pa n v : Nat) : Option State :=
  if mmioBase ≤ pa ∧ pa < dbBase then (if n = 8 ∧ pa % 8 = 0 then some (bar0Write s (pa - mmioBase) v) else none)
  else if dbBase ≤ pa ∧ pa < dbEnd then some (doorbellWrite s (pa - dbBase) (if pa % 8 = 0 then n else 1) v)
  else none

/-! ## Configuration space -/

/-- What the host's configuration writes set, by port: 0 Bus Master, 1 ATS, 2 PRI, 3 AtomicOp Requester, 4 the page
request allocation, 5 MSI-X Enable, 6 MSI-X Function Mask, 7 Max Payload Size (0 128 bytes, 1 256, 2 512), 8 Read Completion Boundary (0 64 bytes,
1 128), 9 ECRC Generation Enable; 10 clears the AER errors whose bits are 1 (R320, R354, R359, R362, R372, R373; the numbers are the model's, log 112). -/
def cfgWrite (s : State) (port k v : Nat) : State :=
  let stat (b : Nat) : State := setReg s (hpBase port) (setBits (hpStat s port) b 1 (v % 2))
  if port ≥ 2 then s
  else match k with
    | 0 => fireAll (stat 19) port
    | 1 => stat 16
    | 2 => after s (execPriEnable port v s)
    | 3 => stat 18
    | 4 => setReg s (rPriAllow port) (v % 2 ^ 32)
    | 5 => fireAll (setReg s (cfgKey port 5) (v % 2)) port
    | 6 => fireAll (setReg s (cfgKey port 6) (v % 2)) port
    | 7 => if v ≤ 2 then setReg s (cfgKey port 7) v else s
    | 8 => setReg s (cfgKey port 8) (v % 2)
    | 9 => setReg s (cfgKey port 9) (v % 2)
    | 10 => aerClear s port v
    | _ => s

/-- What the host's configuration reads give: the settings of `cfgWrite` under their numbers; from 9 up what the capability structures show
(R354, R372): 9 the Interrupt Pin, 10 Max Payload Size supported, 11 Max Read Request Size in bytes, 12 14-bit tags, 13 AtomicOp completer and
requester of 32 and 64 bits, 14 the Invalidate Queue Depth, 15 Global Invalidate, 16 Page Aligned Request, 17 PASID width, 18 Privileged Mode,
19 Execute Permission, 20 PRG Response PASID Required, 21 AER with ECRC checking and generation, 22 one DOE mailbox, 23 the power state,
24 ECRC Generation Enable, 25 the AER errors reported and not cleared. Every
feature not listed is absent and reads 0 (log 112). -/
def cfgRead (s : State) (port k : Nat) : Nat :=
  let stat (b : Nat) : Nat := b2n ((hpStat s port).testBit b)
  match k with
  | 0 => stat 19 | 1 => stat 16 | 2 => stat 17 | 3 => stat 18
  | 4 => reg s (rPriAllow port)
  | 5 | 6 | 7 | 8 => reg s (cfgKey port k)
  | 9 => 0 | 10 => 2 | 11 => 4096 | 12 => 1 | 13 => 1 | 14 => 32 | 15 => 1 | 16 => 1 | 17 => 20 | 18 => 1 | 19 => 0 | 20 => 1 | 21 => 1 | 22 => 1
  | 23 => if s.hp.d3.contains port then 3 else 0
  | 24 => reg s (cfgKey port 9)
  | 25 => aerStatus s port
  | _ => 0

/-- REGISTER_WRITE: an aligned 8-byte write of a register (R357, R358); from 2^32 up, a write of a port's configuration space. -/
def execRegisterWrite (off v : Nat) (s : State) : Host.Outcome State Fault Refusal :=
  stepOf <|
    if off ≥ 2 ^ 32 then cfgWrite s ((off - 2 ^ 32) / 16) (off % 16) v
    else if off % 8 = 0 && off < 0x2000000 then bar0Write s off (v % 2 ^ 64)
    else s

end Sys2Proof.Machine
end

