-- ==== Sys2Proof/Machine/Inbound.lean ====
section
/-! DEFINITION. Inbound traffic of the host ports (R355, R358, R360 to R364): the ordering point, line pieces and their
acknowledgements, reads, AtomicOps, CXL.mem. BAR numbers: 0 the register space, 2 the doorbells, 4 the HBM aperture. -/

namespace Sys2Proof.Machine

/-- Inbound errors counted (R359): 0 BADADDR, 16 LOST, 32 BADSIZE. -/
def inErr (s : State) (port lo : Nat) : State := bumpField s (hpInerr port) lo 16 1

/-- A request, or a line piece of request `req`, reaches the ordering point. -/
def arriveIn (s : State) (req port rid : Nat) (ro : Bool) (addr : Nat) (k : InKind) : State :=
  let (id, s) := freshUid s
  updHp s fun h => { h with inq := h.inq ++ [{ id := id, req := req, port := port, rid := rid, ro := ro, addr := addr, kind := k, sent := false }] }

/-- The completions of a request go out: data above the Read Completion Boundary is split at 128-byte boundaries, in ascending address order
(R362). -/
def complete (s : State) (port rid status addr : Nat) (data : List Byte) : State :=
  let parts := if data.length > readBoundary s port then (splitLines addr data).map (·.2) else [data]
  updHp s fun h => { h with comp := parts.map fun d => { port := port, rid := rid, status := status, data := d } }

/-- A failed read or AtomicOp: 1 Unsupported Request with BADADDR, 2 Completer Abort with LOST, reported through AER (R363, R364). -/
def inFail (s : State) (port rid status : Nat) : State :=
  complete (aerReport (inErr s port (if status = 1 then 0 else 16)) port (if status = 1 then .ur else .ca)) port rid status 0 []

/-- A request whose ECRC is present and fails (R354). A Requester ID has 16 bits; bit 16 of the event's number says so. The request is dropped and reported
through AER (log 112). -/
def ecrcFails (rid : Nat) : Bool := rid.testBit 16

/-- INBOUND_WRITE (R354, R358, R360, R361, R364): a posted write, cut into line pieces in ascending order; one above the programmed Max Payload
Size is not accepted. -/
def execInboundWrite (port bar rid : Nat) (ro : Bool) (addr : Nat) (data : List Byte) (s : State) : Host.Outcome State Fault Refusal :=
  stepOf <|
    let r := freshUid s
    if port ≥ 2 || hpMode s port = 0 || data.isEmpty then s
    else if ecrcFails rid then aerReport s port .ecrc
    else if data.length > maxPayload s port then aerReport s port .malformed
    else if bar = 4 then
      if addr + data.length > hbmEnd then aerReport (inErr s port 0) port .ur
      else (splitLines addr data).foldl (fun s p => arriveIn s r.1 port rid ro p.1 (.piece p.2)) r.2
    else if bar = 0 then (if data.length = 8 && addr % 8 = 0 then arriveIn r.2 r.1 port rid ro addr (.mmio 0 data) else inErr s port 32)
    else if bar = 2 then arriveIn r.2 r.1 port rid ro addr (.mmio 2 data)
    else s

/-- INBOUND_READ: `len` bytes of a window; BAR number 255 stands for the configuration space (log 112). -/
def execInboundRead (port bar rid addr len : Nat) (s : State) : Host.Outcome State Fault Refusal :=
  stepOf <|
    let r := freshUid s
    if port ≥ 2 || hpMode s port = 0 then s else if ecrcFails rid then aerReport s port .ecrc else arriveIn r.2 r.1 port rid false addr (.read bar len)

/-- INBOUND_ATOMICOP (R363): op 0 Swap, 1 FetchAdd, 7 CAS of `len` bytes; only of 4 and 8 bytes in the HBM aperture. -/
def execInboundAtomicop (port bar rid addr op len : Nat) (a b : Word) (s : State) : Host.Outcome State Fault Refusal :=
  stepOf <|
    let r := freshUid s
    if port ≥ 2 || hpMode s port = 0 then s
    else if ecrcFails rid then aerReport s port .ecrc
    else if bar ≠ 4 || !([0, 1, 7].contains op) || !([4, 8].contains len) then inFail s port rid 1
    else arriveIn r.2 r.1 port rid false addr (.atomic op len a.toNat b.toNat)

/-- The home that a request is bound for: a memory die, or the one of the register space and the doorbells. -/
def inHome (r : InReq) : Nat := match r.kind with
  | .mmio _ _ => 8
  | _ => homeOf r.addr

/-- The rule of R361 lets request i go. -/
def mayGo (s : State) (i : Nat) (r : InReq) : Bool :=
  let earlier := (s.hp.inq.take i).filter fun q => q.port == r.port && q.rid == r.rid && posted q
  if posted r then r.ro || earlier.all fun q => inHome q == inHome r && q.sent
  else earlier.isEmpty

/-- The posted pieces of a request's requester that stand before it at the ordering point and have been sent. -/
def inBefore (s : State) (r : InReq) : List Nat :=
  ((s.hp.inq.takeWhile fun q => q.id != r.id).filter fun q => q.port == r.port && q.rid == r.rid && posted q && q.sent).map (·.id)

/-- A request of the ordering point removed, or marked as sent. -/
def inDone (s : State) (r : InReq) : State := updHp s fun h => { h with inq := h.inq.filter fun q => q.id != r.id }
def inSent (s : State) (r : InReq) : State :=
  updHp s fun h => { h with inq := h.inq.map fun q => if q.id = r.id then { q with sent := true } else q }

/-- A line of the access is in a lost-line table (R306, R364). -/
def anyLost (s : State) (pa n : Nat) : Bool := (linesOf pa n).any (isLost s)

/-- A read of the register space or the doorbells (R358): 8 aligned bytes, or 4 of them; else zeros; or of the port's configuration space. -/
def mmioRead (s : State) (port bar addr len : Nat) : List Byte × State :=
  if bar = 255 then (leBytes len (cfgRead s port addr), s)
  else if bar = 0 then
    if len = 8 && addr % 8 = 0 then let r := bar0Read s addr; (leBytes 8 r.1, r.2)
    else if len = 4 && addr % 4 = 0 then
      let r := bar0Read s (addr / 8 * 8)
      (leBytes 4 (bitsOf r.1 (8 * (addr % 8)) 32), r.2)
    else (List.replicate len 0, s)
  else (leBytes len (doorbellRead s (addr / 8 * 8) >>> (8 * (addr % 8))), s)

/-- A write of the register space or of a doorbell. -/
def mmioWrite (s : State) (bar addr : Nat) (bs : List Byte) : State :=
  if bar = 0 then bar0Write s addr (leNat bs) else doorbellWrite s addr (if addr % 8 = 0 then bs.length else 1) (leNat bs)

/-- A request of an inbound agent to a home. A posted piece with Relaxed Ordering clear is applied after the earlier pieces of its requester that
are bound for the same home (R361). -/
def pushIn (s : State) (r : InReq) (kind : ReqKind) (data : List Byte) : State :=
  pushReq (inSent s r) { id := r.id, die := 4, core := 255, uid := 0, asid := noAsid, pa := r.addr, kind := kind, data := data,
                         reply := .piece r.port r.id, sx := false,
                         deps := if posted r && !r.ro then inBefore s r else [] }

/-- A write of less than a whole lost line is discarded, counted, and an uncorrectable non-fatal error (R364). -/
def lostWrite (s : State) (port : Nat) : State := aerReport (inErr s port 16) port .nonFatal

/-- PIECE_SEND (R361 to R364): request i leaves the ordering point. -/
def execPieceSend (i : Nat) (s : State) : Host.Outcome State Fault Refusal :=
  stepOf <| match s.hp.inq[i]? with
    | none => s
    | some r =>
      if r.sent || !mayGo s i r then s
      else match r.kind with
        | .piece bs =>
          if bs.length < 128 && anyLost s r.addr bs.length then lostWrite (inDone s r) r.port else pushIn s r .homeWrite bs
        | .mmio bar bs => if mmioFree s bar r.addr (leNat bs) then mmioWrite (inDone s r) bar r.addr bs else s
        | .read bar len =>
          if bar ≠ 4 then
            if bar < 4 && !mmioFree s bar r.addr 0 then s else
            let q := mmioRead (inDone s r) r.port bar r.addr len
            complete q.2 r.port r.rid 0 r.addr q.1
          else if r.addr + len > hbmEnd then inFail (inDone s r) r.port r.rid 1
          else if anyLost s r.addr len then inFail (inDone s r) r.port r.rid 2
          else (match readHome s r.addr len with
            | some (bs, s) => complete (inDone s r) r.port r.rid 0 r.addr bs
            | none => s)
        | .atomic op n a b =>
          if r.addr + n > hbmEnd || r.addr % n ≠ 0 then inFail (inDone s r) r.port r.rid 1
          else if anyLost s r.addr n then inFail (inDone s r) r.port r.rid 2
          else pushIn s r (.auAtomic op n false (a % 2 ^ (8 * n)) (b % 2 ^ (8 * n))) []

/-- PIECE_ACK (R362, R364): a home acknowledges a piece, visible to every agent, or answers an AtomicOp with the old value; or the line has been
lost meanwhile. -/
def execPieceAck (i : Nat) (s : State) : Host.Outcome State Fault Refusal :=
  stepOf <| match s.hp.inq[i]? with
    | none => s
    | some r =>
      let mine (q : Reply) : Bool := q.to_ == .piece r.port r.id
      match s.mem.replies.find? mine with
      | none => s
      | some q =>
        let s := inDone (updMem s fun m => { m with replies := m.replies.filter fun p => !mine p }) r
        match r.kind with
        | .atomic _ n _ _ => if q.unsup then inFail s r.port r.rid 2 else complete s r.port r.rid 0 0 (leBytes n q.value.toNat)
        | _ => if q.unsup then lostWrite s r.port else s

/-- An address of the port's HDM window (R355). -/
def inHdm (s : State) (port addr : Nat) : Bool :=
  let w := reg s (hdmWin port)
  w.testBit 0 && bitsOf w 8 11 * 2 ^ 28 ≤ addr && addr < (bitsOf w 8 11 + bitsOf w 24 11) * 2 ^ 28

/-- CXL_MEM_ACCESS (R355): MemRd and MemWr of the host to its HDM window; the host then holds the line that it reads. -/
def execCxlMemAccess (port addr : Nat) (write : Bool) (data : List Byte) (s : State) : Host.Outcome State Fault Refusal :=
  stepOf <|
    if port ≥ 2 || hpMode s port ≠ 2 then s
    else if !inHdm s port addr || addr % 64 ≠ 0 then complete (inErr s port 0) port 0 0 0 []
    else
      let line := lineOf addr
      let own := updMem s fun m => { m with hostHeld := m.hostHeld.filter (· != (port, line)) }
      if isLost s line then (if write then lostWrite s port else inFail s port 0 2)
      else if write then (if data.length = 64 then (feStore own noAsid addr data).2 else s)
      else match readHome own addr 64 with
        | none => s
        | some (bs, s) => complete (updMem s fun m => { m with hostHeld := m.hostHeld ++ [(port, line)] }) port 0 0 addr bs

end Sys2Proof.Machine
end

