-- ==== Sys2Proof/Machine/HartMem.lean ====
section
/-! DEFINITION. Scalar accesses of a hart (R44 to R48, R53, R107, R110, R131, R139, R151, R293 to R297, R366, R368): loads, stores,
LR and SC, AMOs and scoped atomics, tensor-map moves, and the replies that end them. -/

namespace Sys2Proof.Machine

/-- Bytes and sign of the RV64I loads. -/
def loadSize : LoadKind → Nat × Bool
  | .lb => (1, true) | .lh => (2, true) | .lw => (4, true) | .ld => (8, false)
  | .lbu => (1, false) | .lhu => (2, false) | .lwu => (4, false)

/-- Bytes of the RV64I stores. -/
def storeSize : StoreKind → Nat
  | .sb => 1 | .sh => 2 | .sw => 4 | .sd => 8

/-- An access cut at a page end (R107): address and bytes of each part. -/
def cutPages (a : Word) (n : Nat) : List (Word × Nat) :=
  let room := 4096 - a.toNat % 4096
  if n ≤ room then [(a, n)] else [(a, room), (a + BitVec.ofNat 64 room, n - room)]

/-- The places of an access's parts, the first fault with its address, or no answer yet. -/
inductive Places where
  | ok (l : List (Word × Nat × Loc)) | fault (code : Nat) (va : Word) | wait

/-- Every part translated before any is performed (R107). -/
def placeParts (s : State) (k : Nat) (h : Hart) (acc : Acc) : List (Word × Nat) → Places × State
  | [] => (.ok [], s)
  | (va, n) :: rest =>
    match xlateHart s k h va acc with
    | (.wait, s) => (.wait, s)
    | (.fault c, s) => (.fault c va, s)
    | (.ok l, s) =>
      match placeParts s k h acc rest with
      | (.ok ls, s) => (.ok ((va, n, l) :: ls), s)
      | r => r

/-- The precise exception of a scalar access; a host-port code also sets lfcause with ENGINE 0 (R366). -/
def accTrap (s : State) (k : Nat) (h : Hart) (cause : Nat) (va : Word) (code : Nat) : State :=
  trapAt s k (if code = 0 then h else { h with l := { h.l with lfcode := code, lfengine := 0 } }) cause va

/-- n bytes as a register value. -/
def extend (sx : Bool) (bs : List Byte) : Word := BitVec.ofNat 64 (putDest.widen64 sx bs.length (leNat bs))

/-! ## Loads -/

/-- What a part that is read at once gives: bytes with the early values seen, a wait, or a refusal with its code. -/
inductive Got where
  | data (bs : List Byte) (ids : List Nat) | wait | refused (code : Nat) (va : Word)

/-- What a refused part reports: a window or tile that is closed gives no host-port code (R283, R366). -/
def partCode (c : Nat) : Nat := if c = 0x0201 then 0 else c

/-- A part that is asked for and answered later: of the host, or of a window or a tile of another core, or of a window that has moved or is loading
(R52, R282). -/
def isFar (s : State) (k : Nat) (h : Hart) (l : Loc) : Bool :=
  match l with
  | .host _ _ _ => true
  | .win core w _ => viaMessage s core w h.id.asid (coreOfSlot k)
  | .tile core _ _ => core != coreOfSlot k
  | _ => false

/-- A part read: one asked for has its answer or waits for it; one of a tile waits for the hart's tile writes (R251). -/
def readLoc (s : State) (k : Nat) (h : Hart) (va : Word) (n : Nat) (l : Loc) : Got × State :=
  match h.parts.find? fun p => p.va == va.toNat with
  | some ⟨_, _, some (0, bs)⟩ => (.data bs [], s)
  | some ⟨_, _, some (c, _)⟩ => (.refused (partCode c) va, s)
  | some ⟨_, _, none⟩ => (.wait, s)
  | none =>
  match l with
  | .hbm pa c => (match readHbm s (dieOfSlot k) h.id.uid pa n c with
      | some (bs, ids, s) => (.data bs ids, if c then noteDcache s (coreOfSlot k) (linesOf pa n) else s)
      | none => (.wait, lostFault s h.id.asid pa n))
  | .win core w off => (match winState s core w h.id.asid with
      | .open_ => (.data (readWin s core w off n) [], s)
      | .closed => (.refused 0 va, s)
      | _ => (.wait, s))
  | .tile core t off =>
    (if !tilesOpen s core t off n h.id.asid then .refused 0 va else if tileWritePending h then .wait else .data (readTile s core t off n) [], s)
  | .host _ _ _ => (.wait, s)
  | .mmio _ => (.refused 0 va, s)

/-- All parts read, in ascending order. -/
def readLocs (s : State) (k : Nat) (h : Hart) : List (Word × Nat × Loc) → Got × State
  | [] => (.data [] [], s)
  | (va, n, l) :: rest =>
    match readLoc s k h va n l with
    | (.data bs ids, s) => (match readLocs s k h rest with
        | (.data cs js, s) => (.data (bs ++ cs) (ids ++ js), s)
        | r => r)
    | r => r

/-- A far part that the access has not asked for yet. -/
def unasked (s : State) (k : Nat) (h : Hart) (p : Word × Nat × Loc) : Bool :=
  isFar s k h p.2.2 && !(h.parts.any fun q => q.va == p.1.toNat)

/-- The network interface of the hart's core sends nothing to a core outside its tenant (R261); a scalar access is then refused by the cause
of an access fault (log 108). -/
def inReach (s : State) (k : Nat) (h : Hart) (core : Nat) : Bool := core == coreOfSlot k || inTenant s h.id.tenant core

/-- A part that is refused where it would be sent: a host port that sends nothing (R366), a core outside the tenant (R261). The code is that of lfcause,
0 for none. -/
def blockedPart (s : State) (k : Nat) (h : Hart) (l : Loc) : Option Nat :=
  match l with
  | .host port _ _ => if hostOpen s port then none else some 0x0504
  | .win core _ _ | .tile core _ _ => if inReach s k h core then none else some 0
  | _ => none

/-- The first part that is refused, with its code. -/
def blockedOf (s : State) (k : Nat) (h : Hart) (ps : List (Word × Nat × Loc)) : Option (Word × Nat) :=
  ps.findSome? fun p => (blockedPart s k h p.2.2).map fun c => (p.1, c)

/-- A far part asked for; `tag` is 2^16, or one more for a load that is sign-extended. -/
def askPart (tag : Nat) (s : State) (h : Hart) (p : Word × Nat × Loc) : Hart × State :=
  match p.2.2 with
  | .host port asid addr =>
    let (id, s) := freshUid s
    ({ h with parts := h.parts ++ [⟨p.1.toNat, id, none⟩] }, hostSend s port asid h.id.uid addr p.2.1 none false (.copy h.id.uid tag id))
  | .win core w off =>
    let (id, s) := freshUid s
    ({ h with parts := h.parts ++ [⟨p.1.toNat, id, none⟩] }, sendWin s h p.1 (dataMode h) core w off p.2.1 .load [] false (.copy h.id.uid tag id))
  | .tile core t off =>
    let (id, s) := freshUid s
    ({ h with parts := h.parts ++ [⟨p.1.toNat, id, none⟩] }, sendWin s h p.1 (dataMode h) core (tileBase + t) off p.2.1 .load [] false (.copy h.id.uid tag id))
  | _ => (h, s)

/-- A load of several parts, or of more than 8 bytes: the far parts are asked for first, then all are read. -/
def gather (s : State) (k : Nat) (h : Hart) (ps : List (Word × Nat × Loc)) (fin : State → List Byte → State) : State :=
  match blockedOf s k h (ps.filter (unasked s k h)) with
  | some p => accTrap s k h 5 p.1 p.2
  | none =>
    if ps.any (unasked s k h) then
      let r := (ps.filter (unasked s k h)).foldl (fun (r : Hart × State) p => askPart (2 ^ 16) r.2 r.1 p) (h, s)
      setHart r.2 k r.1
    else match readLocs s k h ps with
      | (.wait, s) => s
      | (.refused c va, s) => accTrap s k h 5 va c
      | (.data bs ids, s) => fin (updHart s k fun h => { sawEarly h ids with parts := [] }) bs

/-- The hart goes on with its reply outstanding (R136, R139); the instruction counts as retired when the answer comes (R107). -/
def goPending (s : State) (k : Nat) (h : Hart) (bytes : Nat) (reg : XR) (id : Nat) (va : Word) (acq : Option Scope) : State :=
  setHart s k { h with pc := h.pc + BitVec.ofNat 64 bytes, pend := some { reg := reg, id := id, pc := h.pc, va := va, acq := acq } }

/-- An answer on its way to a hart. -/
def pushReply (s : State) (uid id : Nat) (v : Word) : State :=
  updMem s fun m => { m with replies := m.replies ++ [⟨.xreg uid id, v, false⟩] }

/-- The hart waits at a load of another core's window (R136, R282). -/
def awaitWin (s : State) (k : Nat) (h : Hart) (va : Word) (core w off n : Nat) (op : WinOp) (sx : Bool) (dest : Nat) : State :=
  let (id, s) := freshUid s
  setHart (sendWin s h va (dataMode h) core w off n op [] sx (.xreg h.id.uid id)) k { h with wait := some (.window id dest) }

/-- A load across a page end with a far part (R107, R136, R139): the other parts are read, the far ones are asked for, and the hart
goes on with the reply outstanding, which is all the parts together. -/
def loadParts (s : State) (k : Nat) (h : Hart) (rd : XR) (va : Word) (sx : Bool) (ps : List (Word × Nat × Loc)) : State :=
  match blockedOf s k h ps with
  | some p => accTrap s k h 5 p.1 p.2
  | none => match readLocs s k h (ps.filter fun p => !isFar s k h p.2.2) with
    | (.wait, s) => s
    | (.refused c va, s) => accTrap s k h 5 va c
    | (.data _ ids, s) =>
      let take (r : Hart × State) (p : Word × Nat × Loc) : Hart × State :=
        if isFar s k h p.2.2 then askPart (2 ^ 16 + b2n sx) r.2 r.1 p
        else match readLoc r.2 k r.1 p.1 p.2.1 p.2.2 with
          | (.data bs _, s) => ({ r.1 with parts := r.1.parts ++ [⟨p.1.toNat, 0, some (0, bs)⟩] }, s)
          | (_, s) => (r.1, s)
      let r := ps.foldl take ({ sawEarly h ids with parts := [] }, s)
      let (id, s) := freshUid r.2
      goPending s k r.1 4 rd id va none

/-- A load of one part into an x register. -/
def loadOne (s : State) (k : Nat) (h : Hart) (rd : XR) (va : Word) (n : Nat) (sx : Bool) (l : Loc) : State :=
  match l with
  | .host port asid addr =>
    if !hostOpen s port then accTrap s k h 5 va 0x0504
    else
      let (id, s) := freshUid s
      goPending (hostSend s port asid h.id.uid addr n none sx (.xreg h.id.uid id)) k h 4 rd id va none
  | .mmio pa => if !paFree s pa 0 then s else (match mmioLoad s pa n with
      | none => trapAt s k h 5 va
      | some (v, s) =>
        let (id, s) := freshUid s
        goPending (pushReply s h.id.uid id (extend sx (leBytes n v))) k h 4 rd id va none)
  | .win core w off =>
    if !inReach s k h core then trapAt s k h 5 va
    else if viaMessage s core w h.id.asid (coreOfSlot k) then awaitWin s k h va core w off n .load sx rd.toNat
    else gather s k h [(va, n, l)] fun s bs => updHart s k fun h => adv s k (wx h rd (extend sx bs)) 4
  | .tile core t off =>
    if !inReach s k h core then trapAt s k h 5 va
    else if core ≠ coreOfSlot k then awaitWin s k h va core (tileBase + t) off n .load sx rd.toNat
    else gather s k h [(va, n, l)] fun s bs => updHart s k fun h => adv s k (wx h rd (extend sx bs)) 4
  | l => gather s k h [(va, n, l)] fun s bs => updHart s k fun h => adv s k (wx h rd (extend sx bs)) 4

/-- Two accesses may share a byte: their addresses do within a page, whatever page each is translated to. -/
def mayMeet (a : Word) (n : Nat) (b : Word) (m : Nat) : Bool :=
  (b.toNat + 4096 - a.toNat % 4096) % 4096 < n || (a.toNat + 4096 - b.toNat % 4096) % 4096 < m

/-- An earlier lane load of the hart may still read a byte of the access: a scalar load waits for it, so that the two read the
location in program order (R45, R48). -/
def laneReads (h : Hart) (va : Word) (n : Nat) : Bool :=
  (pendingEntries h).any fun e => isLaneMem e.instr && !isLaneWriter e.instr &&
    (olderCompute h e || (lanesOf e.lmask).any fun l => (List.range 64).any fun j => match elemAt h e l j with
      | .mem b m => mayMeet va n b m
      | .tstore _ _ => true)

/-- An access of the host or of the device register space waits while an earlier lane access of the hart has elements that are not
sent: accesses of types 100 and 101 keep their order (R53). -/
def ioWaits (s : State) (h : Hart) (ps : List (Word × Nat × Loc)) : Bool :=
  (ps.any fun p => match p.2.2 with
    | .host _ _ _ | .mmio _ => true
    | _ => false) &&
  (pendingEntries h).any fun e => isLaneMem e.instr && !(openLanes s h e).isEmpty

/-- A load that the hart has performed ahead of its place: the same base register, address and bytes (R45). -/
def aheadFor (h : Hart) (rs : XR) (va : Word) (pa n : Nat) : Option Ahead :=
  h.ahead.find? fun z => z.rs == rs && z.va == va && z.pa == pa && z.bytes.length == n

/-- The loads performed ahead that stay so after a load of n bytes at pa into rd: those of other lines, whose base is not rd (R45, R48). -/
def aheadAfter (h : Hart) (rd : XR) (pa n : Nat) : List Ahead :=
  h.ahead.filter fun z => z.rs != rd && !(linesOf pa n).any fun l => (linesOf z.pa z.bytes.length).contains l

/-- A load of HBM: its value is what it returned when it performed ahead, or what it returns now. -/
def loadHbm (s : State) (k : Nat) (h : Hart) (rd rs : XR) (va : Word) (n : Nat) (sx : Bool) (pa : Nat) (c : Bool) : State :=
  let h' := { h with ahead := aheadAfter h rd pa n }
  match aheadFor h rs va pa n with
  | some z => setHart s k (adv s k (wx (sawEarly h' z.ids) rd (extend sx z.bytes)) 4)
  | none => loadOne (setHart s k h') k h' rd va n sx (.hbm pa c)

/-- A scalar load performed ahead of its place in program order (R45, R59): of one aligned datum of HBM cached memory that no lane
access of the hart before it may share. -/
def performAhead (s : State) (k : Nat) (rs : XR) (off : BitVec 12) (n : Nat) : State :=
  match hartAt s k with
  | none => s
  | some h =>
    let va := rx h rs + sext12 off
    if h.halted || h.capture.isSome || h.pend.isSome || ctxDead s h.id.asid || n = 0 || n > 8 || va.toNat % n ≠ 0
      || writerPending h || laneReads h va n then s
    else match xlateHart s k h va .load with
      | (.ok (.hbm pa true), s) => (match readHbm s (dieOfSlot k) h.id.uid pa n true with
          | some (bs, ids, s) => updHart s k fun h => { h with ahead := h.ahead ++ [⟨rs, va, pa, bs, ids⟩] }
          | none => s)
      | (_, s) => s

/-- SCALAR_LOAD (R45, R107, R110, R136): RV64I loads; they wait for the lane stores forwarded before them, and for lane loads of the same
bytes. -/
def execScalarLoad (kd : LoadKind) (rd rs1 : XR) (imm : BitVec 12) (s : State) : Host.Outcome State Fault Refusal :=
  onHart s (.scalarLoad kd rd rs1 imm) fun k h =>
    let a := rx h rs1 + sext12 imm
    let n := (loadSize kd).1
    let sx := (loadSize kd).2
    if writerPending h || laneReads h a n then s
    else match placeParts s k h .load (cutPages a n) with
      | (.wait, s) => s
      | (.fault c va, s) => trapAt s k h (causeOf .load c) va
      | (.ok [(va, n, .hbm pa c)], s) => loadHbm s k h rd rs1 va n sx pa c
      | (.ok [(va, n, l)], s) => if ioWaits s h [(va, n, l)] then s else loadOne s k h rd va n sx l
      | (.ok ps, s) =>
        if ioWaits s h ps then s
        else if ps.any (fun p => isFar s k h p.2.2) then loadParts s k { h with ahead := [] } rd a sx ps
        else gather s k { h with ahead := [] } ps fun s bs => updHart s k fun h => adv s k (wx h rd (extend sx bs)) 4

/-- Sixteen 8-byte units at one place, as one read of its bytes (R131); an earlier lane load of the same bytes, and of the host any earlier lane
access, goes first (R45, R53). -/
def execTmld (d : MR) (a : XR) (imm : BitVec 12) (s : State) : Host.Outcome State Fault Refusal :=
  onHart s (.tmld d a imm) fun k h =>
    let va := rx h a + sext12 imm
    if va.toNat % 128 ≠ 0 then trapAt s k h 4 va
    else if writerPending h || laneReads h va 128 || tmLocked h d then s
    else match xlateHart s k h va .load with
      | (.wait, s) => s
      | (.fault c, s) => trapAt s k h (causeOf .load c) va
      | (.ok (.win core w off), s) =>
        if !inReach s k h core then trapAt s k h 5 va
        else if viaMessage s core w h.id.asid (coreOfSlot k) then awaitWin s k h va core w off 128 .load false (32 + d.toNat)
        else gather s k h [(va, 128, .win core w off)] fun s bs => updHart s k fun h => adv s k (wtm h d (BitVec.ofNat 1024 (leNat bs))) 4
      | (.ok (.tile core t off), s) =>
        if !inReach s k h core then trapAt s k h 5 va
        else if core ≠ coreOfSlot k then awaitWin s k h va core (tileBase + t) off 128 .load false (32 + d.toNat)
        else gather s k h [(va, 128, .tile core t off)] fun s bs => updHart s k fun h => adv s k (wtm h d (BitVec.ofNat 1024 (leNat bs))) 4
      | (.ok l, s) =>
        if ioWaits s h [(va, 128, l)] then s
        else gather s k h [(va, 128, l)] fun s bs => updHart s k fun h => adv s k (wtm h d (BitVec.ofNat 1024 (leNat bs))) 4

/-! ## Stores -/

/-- A window access of the hart has met MOVED and is still to be sent where it lies now: a later store waits for it, so that stores of one location
keep their order (R45, R283). -/
def movedOut (s : State) (uid : Nat) : Bool := s.net.winReps.any fun r => r.acc.uid == uid && r.ans == .moved

/-- What stops a store at a place before any byte is written: nothing, a wait, or an access fault with its code. -/
inductive StoreCheck where
  | go | wait | bad (code : Nat)

def checkStore (s : State) (k : Nat) (h : Hart) (l : Loc) : StoreCheck :=
  match l with
  | .hbm _ _ => if movedOut s h.id.uid then .wait else .go
  | .win core _ _ =>
    if !inReach s k h core then .bad 0
    else if !mayLeave s h l then .wait
    else .go
  | .host port _ _ => if !hostOpen s port then .bad 0x0504 else if !mayLeave s h l then .wait else .go
  | _ => .bad 0

/-- A checked part stored: through its home, in an own window or as a drop (R284), by a message to another core, posted to the
host. -/
def storePart (s : State) (k : Nat) (h : Hart) (va : Word) (l : Loc) (bs : List Byte) : State :=
  match l with
  | .hbm pa c => pushStore (if c then noteDcache s (coreOfSlot k) (linesOf pa bs.length) else s) k h pa c bs
  | .win core w off =>
    if viaMessage s core w h.id.asid (coreOfSlot k) then sendWin s h va (dataMode h) core w off bs.length .store bs false .none
    else if winState s core w h.id.asid = .open_ then writeWin s core w off h.id.uid bs
    else updHart s k fun h => countDrop h 1
  | .host _ _ addr => hostWrite s addr bs
  | _ => s

/-- The parts of a store with their bytes. -/
def partBytes (bs : List Byte) : List (Word × Nat × Loc) → List (Word × Loc × List Byte)
  | [] => []
  | (va, n, l) :: rest => (va, l, bs.take n) :: partBytes (bs.drop n) rest

/-- Every part stored, once all are checked: the first fault stops the whole store. -/
def storeParts (s : State) (k : Nat) (h : Hart) (ps : List (Word × Nat × Loc)) (bs : List Byte) : State :=
  let checks := ps.map fun p => (p.1, checkStore s k h p.2.2)
  let bad := checks.findSome? fun c => match c.2 with
    | .bad code => some (c.1, code)
    | _ => none
  match bad with
  | some (va, code) => accTrap s k h 7 va code
  | none =>
    if checks.any fun c => match c.2 with
      | .wait => true
      | _ => false then s
    else
      let s := (partBytes bs ps).foldl (fun s p => storePart s k h p.1 p.2.1 p.2.2) s
      updHart s k fun h => adv s k h 4

/-- A store to the device register space or a doorbell (R356, R358). -/
def storeMmio (s : State) (k : Nat) (h : Hart) (va : Word) (pa n v : Nat) : State :=
  if !mayLeave s h (.mmio pa) || !paFree s pa v then s
  else match mmioStore s pa n v with
    | none => trapAt s k h 7 va
    | some s => updHart s k fun h => adv s k h 4

/-- SCALAR_STORE (R107, R110, R151). -/
def execScalarStore (kd : StoreKind) (rs1 rs2 : XR) (imm : BitVec 12) (s : State) : Host.Outcome State Fault Refusal :=
  onHart s (.scalarStore kd rs1 rs2 imm) fun k h =>
    let a := rx h rs1 + sext12 imm
    let n := storeSize kd
    let bs := leBytes n (rx h rs2).toNat
    if memPending h then s
    else
      let s := setHart s k h
      match placeParts s k h .store (cutPages a n) with
      | (.wait, s) => s
      | (.fault c va, s) => trapAt s k h (causeOf .store c) va
      | (.ok [(va, n, .mmio pa)], s) => storeMmio s k h va pa n (leNat bs)
      | (.ok ps, s) => storeParts s k h ps bs

/-- TMST (R131, R151). -/
def execTmst (d : MR) (a : XR) (imm : BitVec 12) (s : State) : Host.Outcome State Fault Refusal :=
  onHart s (.tmst d a imm) fun k h =>
    let va := rx h a + sext12 imm
    if va.toNat % 128 ≠ 0 then trapAt s k h 6 va
    else if memPending h then s
    else
      let s := setHart s k h
      match xlateHart s k h va .store with
      | (.wait, s) => s
      | (.fault c, s) => trapAt s k h (causeOf .store c) va
      | (.ok l, s) => storeParts s k h [(va, 128, l)] (leBytes 128 (rtm h d).toNat)

/-! ## LR, SC and atomics -/

/-- A hart may go on behind aq or rl (R46, R47): the lane queue drained, and for a release every earlier access performed at the
scope. -/
def orderedAt (s : State) (h : Hart) (aq rl : Bool) (sc : Scope) : Bool :=
  !((aq || rl) && !drained h) && !(rl && !performedAt s h sc)

/-- The release of an access with rl (R47). -/
def releaseIf (s : State) (h : Hart) (rl : Bool) (sc : Scope) : Hart := if rl then releaseDeps s h sc else h

/-- The acquire that an access with aq is (R46). -/
def acqOf (aq : Bool) (sc : Scope) : Option Scope := if aq then some sc else none

/-- LR (R107, R297): at the home or the holding team store; other targets raise cause 5. -/
def execLr (dbl aq rl : Bool) (rd rs1 : XR) (s : State) : Host.Outcome State Fault Refusal :=
  onHart s (.lr dbl aq rl rd rs1) fun k h =>
    let va := rx h rs1
    let n := if dbl then 8 else 4
    let fin (s : State) (bs : List Byte) : State := acqIf (updHart s k fun h => adv s k (wx h rd (extend (!dbl) bs)) 4) k (acqOf aq .device)
    if va.toNat % n ≠ 0 then trapAt s k h 4 va
    else if writerPending h || laneReads h va n || !orderedAt s h aq rl .device then s
    else
      match xlateHart s k h va .load with
      | (.wait, s) => s
      | (.fault c, s) => trapAt s k h (causeOf .load c) va
      | (.ok (.hbm pa _), s) =>
        if (ownStores s h.id.uid).any fun r => lineOf r.pa == lineOf pa then s
        else (match readHome s pa n with
          | none => lostFault s h.id.asid pa n
          | some (bs, s) => fin (reserve (updHart s k fun h => releaseIf s h rl .device) h.id.uid (lineOf pa) (.home (homeOf pa))) bs)
      | (.ok (.win core w off), s) =>
        if !inReach s k h core then trapAt s k h 5 va
        else if viaMessage s core w h.id.asid (coreOfSlot k) then awaitWin s k h va core w off n .lr (!dbl) (rd.toNat + 64 * b2n aq)
        else (match winState s core w h.id.asid with
          | .open_ => fin (reserve (updHart s k fun h => releaseIf s h rl .device) h.id.uid (winLine core w off) (.store core)) (readWin s core w off n)
          | _ => trapAt s k h 5 va)
      | (.ok _, s) => trapAt s k h 5 va

/-- A request of a hart that waits for its answer (R139, R293). -/
def askAtomic (s : State) (k : Nat) (h : Hart) (len : Nat) (rd : XR) (va : Word) (acq : Option Scope) (send : State → ReplyTo → State) : State :=
  let (id, s) := freshUid s
  goPending (send s (.xreg h.id.uid id)) k h len rd id va acq

/-- SC (R107, R151, R297): 0 when it has written, 1 when the reservation is gone or the window cannot be written (R283). -/
def execSc (dbl aq rl : Bool) (rd rs1 rs2 : XR) (s : State) : Host.Outcome State Fault Refusal :=
  onHart s (.sc dbl aq rl rd rs1 rs2) fun k h =>
    let va := rx h rs1
    let n := if dbl then 8 else 4
    let bs := leBytes n (rx h rs2).toNat
    if va.toNat % n ≠ 0 then trapAt s k h 6 va
    else if memPending h || !orderedAt s h aq rl .device then s
    else
      let h := releaseIf s h rl .device
      let s := setHart s k h
      match xlateHart s k h va .store with
      | (.wait, s) => s
      | (.fault c, s) => trapAt s k h (causeOf .store c) va
      | (.ok (.hbm pa _), s) =>
        askAtomic s k h 4 rd va (acqOf aq .device) fun s r =>
          let (id, s) := freshUid s
          pushReq s { id := id, die := dieOfSlot k, core := coreOfSlot k, uid := h.id.uid, asid := h.id.asid, pa := pa, kind := .sc,
                      data := bs, reply := r, sx := false, deps := h.deps }
      | (.ok (.win core w off), s) =>
        if !inReach s k h core then trapAt s k h 7 va
        else if !mayLeave s h (.win core w off) then s
        else if core ≠ coreOfSlot k then
          askAtomic s k h 4 rd va (acqOf aq .device) fun s r => sendWin s h va (dataMode h) core w off n .sc bs false r
        else
          let line := winLine core w off
          let held : Bool := winState s core w h.id.asid == .open_ &&
            (tgetD s.mem.resvStore core []).any fun r => r.uid == h.id.uid && r.line == line
          let s := updHart (delResv s h.id.uid) k fun h => { h with resv := none }
          let s := if held then writeWin s core w off h.id.uid bs else s
          acqIf (updHart s k fun h => adv s k (wx h rd (if held then 0 else 1)) 4) k (acqOf aq .device)
      | (.ok _, s) => trapAt s k h 7 va

/-- What an atomic of a hart asks for. -/
structure Atom where
  len : Nat
  op : Nat
  bytes : Nat
  signed : Bool
  sx : Bool
  val : Nat
  cmp : Nat
  sc : Scope
  aq : Bool
  rl : Bool
  dest : XR
  va : Word

/-- A SCALAR ATOMIC (R293 to R295, R368): cause 6 when misaligned; it performs at the place of R294; a refusal raises cause 7. -/
def scalarAtomic (s : State) (k : Nat) (h : Hart) (a : Atom) : State :=
  if a.va.toNat % a.bytes ≠ 0 then trapAt s k h 6 a.va
  else if memPending h || !orderedAt s h a.aq a.rl a.sc then s
  else
    let h := releaseIf s h a.rl a.sc
    let s := setHart s k h
    let acq := acqOf a.aq a.sc
    match xlateHart s k h a.va .amo with
    | (.wait, s) => s
    | (.fault c, s) => trapAt s k h (causeOf .amo c) a.va
    | (.ok (.hbm pa c), s) =>
      askAtomic s k h a.len a.dest a.va acq fun s r =>
        pushAtomic s k h pa (hbmAtomicKind c a.sc a.op a.bytes a.signed a.val a.cmp) a.sx r
    | (.ok (.win core w off), s) =>
      if !inReach s k h core then trapAt s k h 7 a.va
      else if !mayLeave s h (.win core w off) then s
      else if viaMessage s core w h.id.asid (coreOfSlot k) then
        askAtomic s k h a.len a.dest a.va acq fun s r =>
          sendWin s h a.va (dataMode h) core w off a.bytes (.amo a.op a.signed a.val a.cmp) [] a.sx r
      else (match winState s core w h.id.asid with
        | .open_ =>
          let q := amoWin s core w off h.id.uid a.bytes a.op a.signed a.val a.cmp
          acqIf (updHart q.2 k fun h => adv s k (wx h a.dest (extend a.sx (leBytes a.bytes q.1))) a.len) k acq
        | _ => trapAt s k h 7 a.va)
    | (.ok (.host port asid addr), s) =>
      if !hostAtomicOk s port a.op then accTrap s k h 7 a.va 0x0501
      else if !hostOpen s port then accTrap s k h 7 a.va 0x0504
      else if !mayLeave s h (.host port asid addr) then s
      else askAtomic s k h a.len a.dest a.va acq fun s r =>
        hostSend s port asid h.id.uid addr a.bytes (some (a.op, a.val, a.cmp)) a.sx r
    | (.ok _, s) => trapAt s k h 7 a.va

/-- The op code of R293 and the signedness of a standard AMO (R297). -/
def amoCode : AmoKind → Nat × Bool
  | .swap => (0, true) | .add => (1, true) | .and => (2, true) | .or => (3, true) | .xor => (4, true)
  | .min => (5, true) | .max => (6, true) | .minu => (5, false) | .maxu => (6, false)

/-- AMO (R107, R297): as `xamo` of the same op at device scope; the .W forms sign-extend. -/
def execAmo (kd : AmoKind) (dbl aq rl : Bool) (rd rs1 rs2 : XR) (s : State) : Host.Outcome State Fault Refusal :=
  onHart s (.amo kd dbl aq rl rd rs1 rs2) fun k h =>
    let n := if dbl then 8 else 4
    scalarAtomic s k h { len := 4, op := (amoCode kd).1, bytes := n, signed := (amoCode kd).2, sx := !dbl,
                         val := (rx h rs2).toNat % 2 ^ (8 * n), cmp := 0, sc := .device, aq := aq, rl := rl, dest := rd, va := rx h rs1 }

/-- A scoped atomic (R293). -/
def scopedAtomic (s : State) (k : Nat) (h : Hart) (o : Eops) (aq rl : Bool) : State :=
  let n := iWidth o.fmt / 8
  scalarAtomic s k h { len := 8, op := o.rnd.toNat, bytes := n, signed := iSigned o.fmt, sx := iSigned o.fmt && n == 4,
                       val := (rx h (xreg o.vs2)).toNat % 2 ^ (8 * n), cmp := (rx h (xreg o.vs3)).toNat % 2 ^ (8 * n),
                       sc := scopeOf o.ks, aq := aq, rl := rl, dest := xreg o.vd, va := rx h (xreg o.vs1) }

/-- XAMO and its ordered forms (R293). -/
def execXamo (o : Eops) (s : State) : Host.Outcome State Fault Refusal :=
  onHart s (.xamo o) fun k h => scopedAtomic s k h o false false
def execXamoAq (o : Eops) (s : State) : Host.Outcome State Fault Refusal :=
  onHart s (.xamoAq o) fun k h => scopedAtomic s k h o true false
def execXamoRl (o : Eops) (s : State) : Host.Outcome State Fault Refusal :=
  onHart s (.xamoRl o) fun k h => scopedAtomic s k h o false true
def execXamoAqrl (o : Eops) (s : State) : Host.Outcome State Fault Refusal :=
  onHart s (.xamoAqrl o) fun k h => scopedAtomic s k h o true true

/-- An old value, or a refusal, for a lane of an atomic of a captured hart (R176): written in the vector register image, or the lane is still
to perform; AWAIT clears with the last. -/
def savedLane (s : State) (uid seq l : Nat) (r : Reply) : State :=
  let last : Bool := !entryOut s uid seq
  answerHart s uid fun h => match entryAt h seq with
    | none => h
    | some e =>
      match e.instr with
      | .vamo o | .vamoAq o | .vamoRl o | .vamoAqrl o =>
        let h := if r.unsup then updEntry h seq fun e => { e with lmask := e.lmask ||| oneBit l, part := e.lmask ||| oneBit l != e.fmask }
                 else setElem h o.vd.toNat l (iWidth o.fmt) (r.value.toNat % 2 ^ iWidth o.fmt)
        if !last then h
        else if !r.unsup && e.lmask = 0 then doneEntry h seq
        else updEntry h seq fun e => { e with await := false, stage := .queued }
      | _ => h

/-- SCALAR_REPLY (R139, R176): a reply to an outstanding AMO, SC, load or `glaunch` reaches its hart, or its hart record; so does one for a
lane atomic of a captured hart. -/
def execScalarReply (i : Nat) (s : State) : Host.Outcome State Fault Refusal :=
  stepOf <| match s.mem.replies[i]? with
    | none => s
    | some r => (match r.to_ with
        | .xreg uid id =>
          let s := updMem s fun m => { m with replies := dropAt m.replies i }
          if r.unsup then scalarRefused s uid id 7 (match hartOfUid s uid with
            | some h => (match h.pend with
                | some p => p.va
                | none => 0)
            | none => 0)
          else scalarData s uid id (leBytes 8 r.value.toNat) false
        | .lane uid seq l =>
          if (tget s.work.saves uid).isSome then savedLane (updMem s fun m => { m with replies := dropAt m.replies i }) uid seq l r else s
        | _ => s)

end Sys2Proof.Machine
end

