-- ==== Sys2Proof/Machine/HartSystem.lean ====
section
/-! DEFINITION. Child grids, the ends of harts and grids, and yields (R26, R127 to R130, R345, R409, R414). -/

namespace Sys2Proof.Machine

/-- GLAUNCH (R110, R112, R128, R129): only the team leader, in U-mode; the descriptor is read as a scalar load and checked, the
request goes to the front end, and the hart waits for the reply. -/
def execGlaunch (d a : XR) (s : State) : Host.Outcome State Fault Refusal :=
  onHart s (.glaunch d a) fun k h =>
    let va := rx h a
    if h.id.handler || h.id.hidx != 0 || h.mode != .u then illegal s k h (.glaunch d a)
    else if va.toNat % 64 ≠ 0 then trapAt s k h 4 va
    else if writerPending h then s
    else match xlateHart (setHart s k h) k h va .load with
      | (.wait, s) => s
      | (.fault c, s) => trapAt s k h (causeOf .load c) va
      | (.ok l, s) => gather s k h [(va, 64, l)] fun s bs =>
          match hartAt s k with
          | none => s
          | some h =>
            match descBad bs none with
            | some o => trapAt s k h 31 (BitVec.ofNat 64 o)
            | none =>
              let (id, s) := freshUid s
              let r : GReq := { uid := h.id.uid, slot := k, id := id, team := h.id.team, desc := bs }
              goPending (updFe s fun x => { x with greqs := x.greqs ++ [r] }) k h 4 d id va none

/-- The unreleased child of a team with a number (R130). -/
def childOf (s : State) (team num : Nat) : Option (Nat × Grid) :=
  s.work.grids.find? fun p => p.2.num == num && num != 0 && match p.2.origin with
    | .team t => t == team
    | .queue _ _ => false

/-- A grid that is no longer asked for goes, with its teams' entries. -/
def forgetGrid (s : State) (g : Nat) : State :=
  { s with work := { s.work with grids := tdel s.work.grids g, teams := s.work.teams.filter fun p => p.2.grid != g } }

/-- GWAIT (R121, R130, R280): the status of a retired child, which releases its number and is an acquire at device scope; all ones
for a number that is not an unreleased child of the team. -/
def execGwait (d a : XR) (s : State) : Host.Outcome State Fault Refusal :=
  onHart s (.gwait d a) fun k h =>
    if h.id.handler then illegal s k h (.gwait d a)
    else match childOf s h.id.team (rx h a).toNat with
      | none => setHart s k (adv s k (wx h d (BitVec.allOnes 64)) 4)
      | some (g, gr) =>
        if !gr.retired then s
        else acquireAt (setHart (forgetGrid s g) k (adv s k (wx h d (BitVec.ofNat 64 gr.status)) 4)) k .device

/-- A kernel hart ends after the drain of R127; HART_END frees its slot. -/
def execHexit (s : State) : Host.Outcome State Fault Refusal :=
  onHart s .hexit fun k h =>
    if h.id.handler || h.mode != .u then illegal s k h .hexit
    else if !hdrainDone s h 0xF then s
    else setHart s k { retire s k h with ending := true }

/-- A handler hart ends (R127, R270, R280): a reply still due is sent with both words all ones, as a release. The spec gives
this reply no sequence number; the model gives it the handler's NSEQ (DESIGN CHOICE, log 111). -/
def execHret (s : State) : Host.Outcome State Fault Refusal :=
  onHart s .hret fun k h =>
    if !h.id.handler || h.mode != .u then illegal s k h .hret
    else if !hdrainDone s h 0xF || (h.msg.rplDue && !(liveSeen s h).isEmpty) then s
    else
      let s := if h.msg.rplDue then sendReply s k h h.l.nseq (BitVec.allOnes 64) (BitVec.allOnes 64) else s
      setHart s k { retire s k h with ending := true, msg := { h.msg with rplDue := false } }

/-- The end of the yield window that has been offered to a hart's team (R413). -/
def yieldWindow (s : State) (h : Hart) : Option Nat :=
  if h.l.yreq && !h.id.handler && h.mode != .m then (match teamOf s h with
    | some t => if t.stat == .live then t.yieldEnd else none
    | none => none)
  else none

/-- HYIELD (R127, R413, R414): with YREQ set it ends the team's run, with its gang's (R418), after itself and counts as a cooperative yield, up to the
clk in which the window ends; after that clk the capture is under way, and the hart is captured at the `hyield`. Else the hart is not
ready for its next pick. -/
def execHyield (s : State) : Host.Outcome State Fault Refusal :=
  onHart s .hyield fun k h =>
    let h' := adv s k h 4
    match yieldWindow s h with
    | some e => if slotClk s k ≤ e then bumpReg (forceAll (setHart s k h') h.id.team) cntCoop 63 1 else s
    | none => setHart s k { h' with notReady := slotClk s k + 1 }

/-- HART_END (R26): the slot is free, and with a team's last hart the team ends. -/
def execHartEnd (h : Nat) (s : State) : Host.Outcome State Fault Refusal :=
  stepOf <| match hartAt s h with
    | none => s
    | some hh =>
      if !hh.ending then s
      else
        let s := freeSlot s h hh
        if hh.id.handler then s
        else
          let s := updTeam s hh.id.team fun t => { t with hartsLeft := t.hartsLeft - 1 }
          match tget s.work.teams hh.id.team with
          | some t => if t.hartsLeft = 0 then endTeam s hh.id.team else s
          | none => s

/-- A grid's status (R409): the highest that applies. -/
def gridStatus (g : Grid) : Nat :=
  if g.killed then 3 else if g.failCode ≠ 0 then g.failCode else if g.overrun then 1 else if g.missed then 2 else 0

/-- An account of a grid stands at 0 and its overrun is not recorded yet (R406). -/
def zeroDue (s : State) (gk : Nat) (g : Grid) : Bool :=
  s.work.accts.any fun p => atZero p.2 && (p.1 == g.acct || p.2.team.any fun tk => (tget s.work.teams tk).any fun t => t.grid == gk)

/-- GRID_RETIRE (R26, R409): all its teams have been placed and have ended, and all its children have retired. An overrun or a miss
that has come comes first, so that the status holds it (R406, R408, R424). -/
def execGridRetire (g : Nat) (s : State) : Host.Outcome State Fault Refusal :=
  stepOf <| match tget s.work.grids g with
    | none => s
    | some gr =>
      if gr.retired || !gr.placed || gr.liveTeams != 0 || gr.children != 0 || missDue s gr || zeroDue s g gr then s
      else
        let s := updGrid s g fun g => { g with retired := true, status := gridStatus g }
        match gr.origin with
        | .queue _ _ => s
        | .team t =>
          let s := match tget s.work.teams t with
            | some tm => updGrid s tm.grid fun p => { p with children := p.children - 1 }
            | none => s
          settleAcct s gr.acct

end Sys2Proof.Machine
end

