-- ==== Sys2Proof/Machine/Dispatch.lean ====
section
/-! DEFINITION. What each instruction does: one arm a constructor, one direct call of its meaning. -/

namespace Sys2Proof.Machine

def exec (i : Instr) (s : State) : Host.Outcome State Fault Refusal :=
  match i with
  | .mand d a b => Sys2Proof.Machine.execMand d a b s
  | .mor d a b => Sys2Proof.Machine.execMor d a b s
  | .mxor d a b => Sys2Proof.Machine.execMxor d a b s
  | .mandn d a b => Sys2Proof.Machine.execMandn d a b s
  | .mnot d a => Sys2Proof.Machine.execMnot d a s
  | .mrd d a => Sys2Proof.Machine.execMrd d a s
  | .mwr d a => Sys2Proof.Machine.execMwr d a s
  | .mcnt d a => Sys2Proof.Machine.execMcnt d a s
  | .mffs d a => Sys2Proof.Machine.execMffs d a s
  | .mtop d => Sys2Proof.Machine.execMtop d s
  | .mif a imm => Sys2Proof.Machine.execMif a imm s
  | .melse imm => Sys2Proof.Machine.execMelse imm s
  | .mwhile a imm => Sys2Proof.Machine.execMwhile a imm s
  | .mend => Sys2Proof.Machine.execMend s
  | .mbrk a => Sys2Proof.Machine.execMbrk a s
  | .mspush a b => Sys2Proof.Machine.execMspush a b s
  | .mspop d => Sys2Proof.Machine.execMspop d s
  | .msrdm d a => Sys2Proof.Machine.execMsrdm d a s
  | .msrdp d a => Sys2Proof.Machine.execMsrdp d a s
  | .mswrm a b => Sys2Proof.Machine.execMswrm a b s
  | .mswrp a b => Sys2Proof.Machine.execMswrp a b s
  | .hwmsg => Sys2Proof.Machine.execHwmsg s
  | .hwtime a => Sys2Proof.Machine.execHwtime a s
  | .barSync a n => Sys2Proof.Machine.execBarSync a n s
  | .barArrive a n => Sys2Proof.Machine.execBarArrive a n s
  | .barWait n => Sys2Proof.Machine.execBarWait n s
  | .hdrain e => Sys2Proof.Machine.execHdrain e s
  | .glaunch d a => Sys2Proof.Machine.execGlaunch d a s
  | .gwait d a => Sys2Proof.Machine.execGwait d a s
  | .hexit => Sys2Proof.Machine.execHexit s
  | .hret => Sys2Proof.Machine.execHret s
  | .hyield => Sys2Proof.Machine.execHyield s
  | .tmld d a imm => Sys2Proof.Machine.execTmld d a imm s
  | .tmst d a imm => Sys2Proof.Machine.execTmst d a imm s
  | .tmaddr d a b => Sys2Proof.Machine.execTmaddr d a b s
  | .bst => Sys2Proof.Machine.execBst s
  | .bend => Sys2Proof.Machine.execBend s
  | .frrd d a k => Sys2Proof.Machine.execFrrd d a k s
  | .frrep => Sys2Proof.Machine.execFrrep s
  | .frdrop a => Sys2Proof.Machine.execFrdrop a s
  | .scalarLoad k rd rs1 imm => Sys2Proof.Machine.execScalarLoad k rd rs1 imm s
  | .scalarStore k rs1 rs2 imm => Sys2Proof.Machine.execScalarStore k rs1 rs2 imm s
  | .integerOp op => Sys2Proof.Machine.execIntegerOp op s
  | .mul k rd rs1 rs2 => Sys2Proof.Machine.execMul k rd rs1 rs2 s
  | .div k rd rs1 rs2 => Sys2Proof.Machine.execDiv k rd rs1 rs2 s
  | .fence fm pred succ rd rs1 => Sys2Proof.Machine.execFence fm pred succ rd rs1 s
  | .fenceI imm rd rs1 => Sys2Proof.Machine.execFenceI imm rd rs1 s
  | .lr dbl aq rl rd rs1 => Sys2Proof.Machine.execLr dbl aq rl rd rs1 s
  | .sc dbl aq rl rd rs1 rs2 => Sys2Proof.Machine.execSc dbl aq rl rd rs1 rs2 s
  | .amo k dbl aq rl rd rs1 rs2 => Sys2Proof.Machine.execAmo k dbl aq rl rd rs1 rs2 s
  | .ecall => Sys2Proof.Machine.execEcall s
  | .ebreak => Sys2Proof.Machine.execEbreak s
  | .wfi => Sys2Proof.Machine.execWfi s
  | .pause => Sys2Proof.Machine.execPause s
  | .wrsNto => Sys2Proof.Machine.execWrsNto s
  | .wrsSto => Sys2Proof.Machine.execWrsSto s
  | .csrAccess op useImm csr rd src => Sys2Proof.Machine.execCsrAccess op useImm csr rd src s
  | .steerWrite op useImm rd src => Sys2Proof.Machine.execSteerWrite op useImm rd src s
  | .satpWrite op useImm rd src => Sys2Proof.Machine.execSatpWrite op useImm rd src s
  | .mret => Sys2Proof.Machine.execMret s
  | .sret => Sys2Proof.Machine.execSret s
  | .sfenceVma rs1 rs2 => Sys2Proof.Machine.execSfenceVma rs1 rs2 s
  | .takeInterrupt h => Sys2Proof.Machine.execTakeInterrupt h s
  | .lateFaultDelivery h => Sys2Proof.Machine.execLateFaultDelivery h s
  | .scalarReply ix => Sys2Proof.Machine.execScalarReply ix s
  | .monitorWake h => Sys2Proof.Machine.execMonitorWake h s
  | .wrsTimeout h => Sys2Proof.Machine.execWrsTimeout h s
  | .hwtimeExpiry h => Sys2Proof.Machine.execHwtimeExpiry h s
  | .hartEnd h => Sys2Proof.Machine.execHartEnd h s
  | .gridRetire g => Sys2Proof.Machine.execGridRetire g s
  | .vld o => Sys2Proof.Machine.execVld o s
  | .vst o => Sys2Proof.Machine.execVst o s
  | .vlds o => Sys2Proof.Machine.execVlds o s
  | .vsts o => Sys2Proof.Machine.execVsts o s
  | .vldg o => Sys2Proof.Machine.execVldg o s
  | .vstg o => Sys2Proof.Machine.execVstg o s
  | .vldt o => Sys2Proof.Machine.execVldt o s
  | .vstt o => Sys2Proof.Machine.execVstt o s
  | .vldf o => Sys2Proof.Machine.execVldf o s
  | .vstf o => Sys2Proof.Machine.execVstf o s
  | .vcst o => Sys2Proof.Machine.execVcst o s
  | .vxld o => Sys2Proof.Machine.execVxld o s
  | .vamo o => Sys2Proof.Machine.execVamo o s
  | .vamoAq o => Sys2Proof.Machine.execVamoAq o s
  | .vamoRl o => Sys2Proof.Machine.execVamoRl o s
  | .vamoAqrl o => Sys2Proof.Machine.execVamoAqrl o s
  | .vpf o => Sys2Proof.Machine.execVpf o s
  | .vfence o => Sys2Proof.Machine.execVfence o s
  | .vaddI o => Sys2Proof.Machine.execVaddI o s
  | .vsubI o => Sys2Proof.Machine.execVsubI o s
  | .vmulI o => Sys2Proof.Machine.execVmulI o s
  | .vmulh o => Sys2Proof.Machine.execVmulh o s
  | .vdivI o => Sys2Proof.Machine.execVdivI o s
  | .vrem o => Sys2Proof.Machine.execVrem o s
  | .vminI o => Sys2Proof.Machine.execVminI o s
  | .vmaxI o => Sys2Proof.Machine.execVmaxI o s
  | .vadds o => Sys2Proof.Machine.execVadds o s
  | .vsubs o => Sys2Proof.Machine.execVsubs o s
  | .vabsI o => Sys2Proof.Machine.execVabsI o s
  | .vnegI o => Sys2Proof.Machine.execVnegI o s
  | .vmad o => Sys2Proof.Machine.execVmad o s
  | .vand o => Sys2Proof.Machine.execVand o s
  | .vor o => Sys2Proof.Machine.execVor o s
  | .vxor o => Sys2Proof.Machine.execVxor o s
  | .vnot o => Sys2Proof.Machine.execVnot o s
  | .vsll o => Sys2Proof.Machine.execVsll o s
  | .vsrl o => Sys2Proof.Machine.execVsrl o s
  | .vsra o => Sys2Proof.Machine.execVsra o s
  | .vmov o => Sys2Proof.Machine.execVmov o s
  | .vli o => Sys2Proof.Machine.execVli o s
  | .vcmp o => Sys2Proof.Machine.execVcmp o s
  | .vfcmp o => Sys2Proof.Machine.execVfcmp o s
  | .vsel o => Sys2Proof.Machine.execVsel o s
  | .vpopc o => Sys2Proof.Machine.execVpopc o s
  | .vclz o => Sys2Proof.Machine.execVclz o s
  | .vctz o => Sys2Proof.Machine.execVctz o s
  | .vbrev o => Sys2Proof.Machine.execVbrev o s
  | .vaddF o => Sys2Proof.Machine.execVaddF o s
  | .vsubF o => Sys2Proof.Machine.execVsubF o s
  | .vmulF o => Sys2Proof.Machine.execVmulF o s
  | .vdivF o => Sys2Proof.Machine.execVdivF o s
  | .vsqrt o => Sys2Proof.Machine.execVsqrt o s
  | .vminF o => Sys2Proof.Machine.execVminF o s
  | .vmaxF o => Sys2Proof.Machine.execVmaxF o s
  | .vabsF o => Sys2Proof.Machine.execVabsF o s
  | .vnegF o => Sys2Proof.Machine.execVnegF o s
  | .vfma o => Sys2Proof.Machine.execVfma o s
  | .vfms o => Sys2Proof.Machine.execVfms o s
  | .vfnma o => Sys2Proof.Machine.execVfnma o s
  | .vclass o => Sys2Proof.Machine.execVclass o s
  | .vrcp o => Sys2Proof.Machine.execVrcp o s
  | .vrsqrt o => Sys2Proof.Machine.execVrsqrt o s
  | .vexp2 o => Sys2Proof.Machine.execVexp2 o s
  | .vlog2 o => Sys2Proof.Machine.execVlog2 o s
  | .vsin o => Sys2Proof.Machine.execVsin o s
  | .vcos o => Sys2Proof.Machine.execVcos o s
  | .vtanh o => Sys2Proof.Machine.execVtanh o s
  | .vcvtFF src o => Sys2Proof.Machine.execVcvtFF src o s
  | .vcvtFI src o => Sys2Proof.Machine.execVcvtFI src o s
  | .vcvtIF src o => Sys2Proof.Machine.execVcvtIF src o s
  | .vpk o => Sys2Proof.Machine.execVpk o s
  | .vupk o => Sys2Proof.Machine.execVupk o s
  | .vdot o => Sys2Proof.Machine.execVdot o s
  | .vfdot o => Sys2Proof.Machine.execVfdot o s
  | .vlid o => Sys2Proof.Machine.execVlid o s
  | .vballot o => Sys2Proof.Machine.execVballot o s
  | .vshfl o => Sys2Proof.Machine.execVshfl o s
  | .vshup o => Sys2Proof.Machine.execVshup o s
  | .vshdn o => Sys2Proof.Machine.execVshdn o s
  | .vxorl o => Sys2Proof.Machine.execVxorl o s
  | .vbcast o => Sys2Proof.Machine.execVbcast o s
  | .vscan o => Sys2Proof.Machine.execVscan o s
  | .vscanx o => Sys2Proof.Machine.execVscanx o s
  | .vgred o => Sys2Proof.Machine.execVgred o s
  | .vmvx o => Sys2Proof.Machine.execVmvx o s
  | .vfscan o => Sys2Proof.Machine.execVfscan o s
  | .vfgred o => Sys2Proof.Machine.execVfgred o s
  | .vredOpen o => Sys2Proof.Machine.execVredOpen o s
  | .vredAdd o => Sys2Proof.Machine.execVredAdd o s
  | .vredFlush o => Sys2Proof.Machine.execVredFlush o s
  | .mma o => Sys2Proof.Machine.execMma o s
  | .mmasp o => Sys2Proof.Machine.execMmasp o s
  | .mmabk o => Sys2Proof.Machine.execMmabk o s
  | .tzero o => Sys2Proof.Machine.execTzero o s
  | .tmovv o => Sys2Proof.Machine.execTmovv o s
  | .tmovt o => Sys2Proof.Machine.execTmovt o s
  | .tst o => Sys2Proof.Machine.execTst o s
  | .tld o => Sys2Proof.Machine.execTld o s
  | .tdrain o => Sys2Proof.Machine.execTdrain o s
  | .twait o => Sys2Proof.Machine.execTwait o s
  | .cpgs o => Sys2Proof.Machine.execCpgs o s
  | .cpsg o => Sys2Proof.Machine.execCpsg o s
  | .cpgg o => Sys2Proof.Machine.execCpgg o s
  | .cpmc o => Sys2Proof.Machine.execCpmc o s
  | .cpfill o => Sys2Proof.Machine.execCpfill o s
  | .cpadd o => Sys2Proof.Machine.execCpadd o s
  | .msend o => Sys2Proof.Machine.execMsend o s
  | .msendb o => Sys2Proof.Machine.execMsendb o s
  | .msendr o => Sys2Proof.Machine.execMsendr o s
  | .mrecv o => Sys2Proof.Machine.execMrecv o s
  | .mackrd o => Sys2Proof.Machine.execMackrd o s
  | .xamo o => Sys2Proof.Machine.execXamo o s
  | .xamoAq o => Sys2Proof.Machine.execXamoAq o s
  | .xamoRl o => Sys2Proof.Machine.execXamoRl o s
  | .xamoAqrl o => Sys2Proof.Machine.execXamoAqrl o s
  | .xfence o => Sys2Proof.Machine.execXfence o s
  | .xfenceSc o => Sys2Proof.Machine.execXfenceSc o s
  | .laneIssue h => Sys2Proof.Machine.execLaneIssue h s
  | .laneElementResponse h seq lanes fresh => Sys2Proof.Machine.execLaneElementResponse h seq lanes fresh s
  | .entryReplay h seq => Sys2Proof.Machine.execEntryReplay h seq s
  | .matrixDispatch h => Sys2Proof.Machine.execMatrixDispatch h s
  | .arrayStart h => Sys2Proof.Machine.execArrayStart h s
  | .arrayWriteback core => Sys2Proof.Machine.execArrayWriteback core s
  | .tilePortStart h => Sys2Proof.Machine.execTilePortStart h s
  | .drainImageArrival ix => Sys2Proof.Machine.execDrainImageArrival ix s
  | .drainAck ix => Sys2Proof.Machine.execDrainAck ix s
  | .copyStart h seq => Sys2Proof.Machine.execCopyStart h seq s
  | .copyPhaseADone h seq => Sys2Proof.Machine.execCopyPhaseADone h seq s
  | .copyPhaseBDone h seq => Sys2Proof.Machine.execCopyPhaseBDone h seq s
  | .copyCompletion h seq => Sys2Proof.Machine.execCopyCompletion h seq s
  | .sendService h q => Sys2Proof.Machine.execSendService h q s
  | .messageAck ix => Sys2Proof.Machine.execMessageAck ix s
  | .inboxMessageArrival ix => Sys2Proof.Machine.execInboxMessageArrival ix s
  | .diversionRefill h => Sys2Proof.Machine.execDiversionRefill h s
  | .handlerMessageArrival ix => Sys2Proof.Machine.execHandlerMessageArrival ix s
  | .handlerStart core ix => Sys2Proof.Machine.execHandlerStart core ix s
  | .handlerCaptureTimeout core => Sys2Proof.Machine.execHandlerCaptureTimeout core s
  | .windowAccessArrival ix => Sys2Proof.Machine.execWindowAccessArrival ix s
  | .windowReply ix => Sys2Proof.Machine.execWindowReply ix s
  | .vredOpenRequest ix => Sys2Proof.Machine.execVredOpenRequest ix s
  | .contributionArrival ix => Sys2Proof.Machine.execContributionArrival ix s
  | .fragmentArrival ix => Sys2Proof.Machine.execFragmentArrival ix s
  | .slotApply md slot => Sys2Proof.Machine.execSlotApply md slot s
  | .vredReply ix => Sys2Proof.Machine.execVredReply ix s
  | .homeRequest ix err => Sys2Proof.Machine.execHomeRequest ix err s
  | .writeBack ix => Sys2Proof.Machine.execWriteBack ix s
  | .snoop ix => Sys2Proof.Machine.execSnoop ix s
  | .snoopReply ix => Sys2Proof.Machine.execSnoopReply ix s
  | .auAtomic ix err => Sys2Proof.Machine.execAuAtomic ix err s
  | .patrolScrub md err => Sys2Proof.Machine.execPatrolScrub md err s
  | .translationRequest h va write => Sys2Proof.Machine.execTranslationRequest h va write s
  | .pteReadResponse ix => Sys2Proof.Machine.execPteReadResponse ix s
  | .sliceFaultRecord ix => Sys2Proof.Machine.execSliceFaultRecord ix s
  | .faultQueueRecord ix => Sys2Proof.Machine.execFaultQueueRecord ix s
  | .prgGroupSend port => Sys2Proof.Machine.execPrgGroupSend port s
  | .prgResponse port group code => Sys2Proof.Machine.execPrgResponse port group code s
  | .faultNotice ix => Sys2Proof.Machine.execFaultNotice ix s
  | .atsCompletion port va asid pa perm => Sys2Proof.Machine.execAtsCompletion port va asid pa perm s
  | .atsInvalidate port asid va size => Sys2Proof.Machine.execAtsInvalidate port asid va size s
  | .shootdownArrival id die => Sys2Proof.Machine.execShootdownArrival id die s
  | .shootdownComplete id => Sys2Proof.Machine.execShootdownComplete id s
  | .doorbellTail port q v => Sys2Proof.Machine.execDoorbellTail port q v s
  | .doorbellCrHead port q v => Sys2Proof.Machine.execDoorbellCrHead port q v s
  | .qctlEnable q => Sys2Proof.Machine.execQctlEnable q s
  | .qctlDisable q => Sys2Proof.Machine.execQctlDisable q s
  | .qctlReset q => Sys2Proof.Machine.execQctlReset q s
  | .disableDone q => Sys2Proof.Machine.execDisableDone q s
  | .rlPassTick l => Sys2Proof.Machine.execRlPassTick l s
  | .nop q => Sys2Proof.Machine.execNop q s
  | .launch q => Sys2Proof.Machine.execLaunch q s
  | .launchGang q => Sys2Proof.Machine.execLaunchGang q s
  | .copy q => Sys2Proof.Machine.execCopy q s
  | .signal q => Sys2Proof.Machine.execSignal q s
  | .waitCmd q => Sys2Proof.Machine.execWaitCmd q s
  | .waitPoll q => Sys2Proof.Machine.execWaitPoll q s
  | .ib q => Sys2Proof.Machine.execIb q s
  | .timestamp q => Sys2Proof.Machine.execTimestamp q s
  | .frontEndFence q => Sys2Proof.Machine.execFrontEndFence q s
  | .completionRecord q => Sys2Proof.Machine.execCompletionRecord q s
  | .releaseTime q => Sys2Proof.Machine.execReleaseTime q s
  | .teamPlacement g => Sys2Proof.Machine.execTeamPlacement g s
  | .gangRetest g => Sys2Proof.Machine.execGangRetest g s
  | .launchMessage ix => Sys2Proof.Machine.execLaunchMessage ix s
  | .glaunchRequest ix => Sys2Proof.Machine.execGlaunchRequest ix s
  | .tenantCommit v => Sys2Proof.Machine.execTenantCommit v s
  | .tenantCommitDone => Sys2Proof.Machine.execTenantCommitDone s
  | .patchGo v => Sys2Proof.Machine.execPatchGo v s
  | .patchSwap => Sys2Proof.Machine.execPatchSwap s
  | .feClrDbdrop => Sys2Proof.Machine.execFeClrDbdrop s
  | .feClrOvr => Sys2Proof.Machine.execFeClrOvr s
  | .slotRel md => Sys2Proof.Machine.execSlotRel md s
  | .slotRelasid md asid => Sys2Proof.Machine.execSlotRelasid md asid s
  | .eccClrCe md => Sys2Proof.Machine.execEccClrCe md s
  | .eccClrUe md => Sys2Proof.Machine.execEccClrUe md s
  | .priReset asid => Sys2Proof.Machine.execPriReset asid s
  | .xlClrPrgSent => Sys2Proof.Machine.execXlClrPrgSent s
  | .xlClrPrgBad => Sys2Proof.Machine.execXlClrPrgBad s
  | .inboundWrite port bar rid ro addr data => Sys2Proof.Machine.execInboundWrite port bar rid ro addr data s
  | .pieceSend ix => Sys2Proof.Machine.execPieceSend ix s
  | .pieceAck ix => Sys2Proof.Machine.execPieceAck ix s
  | .inboundRead port bar rid addr len => Sys2Proof.Machine.execInboundRead port bar rid addr len s
  | .inboundAtomicop port bar rid addr op len a b => Sys2Proof.Machine.execInboundAtomicop port bar rid addr op len a b s
  | .cxlMemAccess port addr write data => Sys2Proof.Machine.execCxlMemAccess port addr write data s
  | .outboundCompletion port ix status data => Sys2Proof.Machine.execOutboundCompletion port ix status data s
  | .completionTimeout port ix => Sys2Proof.Machine.execCompletionTimeout port ix s
  | .linkTraining port mode width rate => Sys2Proof.Machine.execLinkTraining port mode width rate s
  | .linkDown port => Sys2Proof.Machine.execLinkDown port s
  | .functionLevelReset port => Sys2Proof.Machine.execFunctionLevelReset port s
  | .d3hotRequest port enter => Sys2Proof.Machine.execD3hotRequest port enter s
  | .msixUnmask port v => Sys2Proof.Machine.execMsixUnmask port v s
  | .svcDb port hart => Sys2Proof.Machine.execSvcDb port hart s
  | .svcPop port => Sys2Proof.Machine.execSvcPop port s
  | .svcClr port => Sys2Proof.Machine.execSvcClr port s
  | .hpErrclrErr port => Sys2Proof.Machine.execHpErrclrErr port s
  | .hpErrclrInerr port => Sys2Proof.Machine.execHpErrclrInerr port s
  | .frameReceive e frame => Sys2Proof.Machine.execFrameReceive e frame s
  | .ringSeqWrite e ix => Sys2Proof.Machine.execRingSeqWrite e ix s
  | .ingressMessage e ix => Sys2Proof.Machine.execIngressMessage e ix s
  | .ingressDescriptorCopy e ix => Sys2Proof.Machine.execIngressDescriptorCopy e ix s
  | .ingressLaunchCommand e ix => Sys2Proof.Machine.execIngressLaunchCommand e ix s
  | .ingressTailAdvance e ix => Sys2Proof.Machine.execIngressTailAdvance e ix s
  | .txTail e v => Sys2Proof.Machine.execTxTail e v s
  | .frameTransmit e => Sys2Proof.Machine.execFrameTransmit e s
  | .txWriteback e => Sys2Proof.Machine.execTxWriteback e s
  | .rgHeadWrite e r v => Sys2Proof.Machine.execRgHeadWrite e r v s
  | .rgCfgWrite e r v => Sys2Proof.Machine.execRgCfgWrite e r v s
  | .txCfgWrite e v => Sys2Proof.Machine.execTxCfgWrite e v s
  | .ptpLatch e => Sys2Proof.Machine.execPtpLatch e s
  | .ptpStep e v => Sys2Proof.Machine.execPtpStep e v s
  | .ptpSample e => Sys2Proof.Machine.execPtpSample e s
  | .ethCntClr e => Sys2Proof.Machine.execEthCntClr e s
  | .ethLinkLoss e => Sys2Proof.Machine.execEthLinkLoss e s
  | .rcDb e qp v => Sys2Proof.Machine.execRcDb e qp v s
  | .workEntryRun e qp => Sys2Proof.Machine.execWorkEntryRun e qp s
  | .roceRequestPacket e qp psn op va rkey len imm data => Sys2Proof.Machine.execRoceRequestPacket e qp psn op va rkey len imm data s
  | .roceResponsePacket e qp psn kind data => Sys2Proof.Machine.execRoceResponsePacket e qp psn kind data s
  | .roceRetryTimeout e qp => Sys2Proof.Machine.execRoceRetryTimeout e qp s
  | .writeImmHandler e ix => Sys2Proof.Machine.execWriteImmHandler e ix s
  | .captureRequest grid team kind => Sys2Proof.Machine.execCaptureRequest grid team kind s
  | .yieldWindowExpiry h => Sys2Proof.Machine.execYieldWindowExpiry h s
  | .captureComplete ix => Sys2Proof.Machine.execCaptureComplete ix s
  | .saveComplete ix => Sys2Proof.Machine.execSaveComplete ix s
  | .teamRestore ix => Sys2Proof.Machine.execTeamRestore ix s
  | .restoreStart ix => Sys2Proof.Machine.execRestoreStart ix s
  | .accountZero a => Sys2Proof.Machine.execAccountZero a s
  | .graceExpiry a => Sys2Proof.Machine.execGraceExpiry a s
  | .deadlineMiss g => Sys2Proof.Machine.execDeadlineMiss g s
  | .eventRecordWrite => Sys2Proof.Machine.execEventRecordWrite s
  | .schEvict asid => Sys2Proof.Machine.execSchEvict asid s
  | .schResume asid => Sys2Proof.Machine.execSchResume asid s
  | .schWinrel v => Sys2Proof.Machine.execSchWinrel v s
  | .schShoot v => Sys2Proof.Machine.execSchShoot v s
  | .schCntClr => Sys2Proof.Machine.execSchCntClr s
  | .evtHeadWrite v => Sys2Proof.Machine.execEvtHeadWrite v s
  | .evtCfgWrite v => Sys2Proof.Machine.execEvtCfgWrite v s
  | .smCtlRate n rate => Sys2Proof.Machine.execSmCtlRate n rate s
  | .smCtlRetest n => Sys2Proof.Machine.execSmCtlRetest n s
  | .smClrCounters n => Sys2Proof.Machine.execSmClrCounters n s
  | .smClrRtMax n => Sys2Proof.Machine.execSmClrRtMax n s
  | .smEvtpendClear n => Sys2Proof.Machine.execSmEvtpendClear n s
  | .flitReceive n ab m flit => Sys2Proof.Machine.execFlitReceive n ab m flit s
  | .seamAckTimeout n ab => Sys2Proof.Machine.execSeamAckTimeout n ab s
  | .replayThreshold n => Sys2Proof.Machine.execReplayThreshold n s
  | .retrainComplete n found => Sys2Proof.Machine.execRetrainComplete n found s
  | .dieOff die => Sys2Proof.Machine.execDieOff die s
  | .dieOn die found => Sys2Proof.Machine.execDieOn die found s
  | .boot fail => Sys2Proof.Machine.execBoot fail s
  | .thermalTrip die => Sys2Proof.Machine.execThermalTrip die s
  | .contextKill asid cause => Sys2Proof.Machine.execContextKill asid cause s
  | .laneFailureReport core quad lane => Sys2Proof.Machine.execLaneFailureReport core quad lane s
  | .powerLimit die mhz => Sys2Proof.Machine.execPowerLimit die mhz s
  | .spdmRequest req => Sys2Proof.Machine.execSpdmRequest req s
  | .debugHalt kind id => Sys2Proof.Machine.execDebugHalt kind id s
  | .debugStep h => Sys2Proof.Machine.execDebugStep h s
  | .debugStepTimeout h => Sys2Proof.Machine.execDebugStepTimeout h s
  | .debugRegisterAccess h reg write data => Sys2Proof.Machine.execDebugRegisterAccess h reg write data s
  | .boundaryScan => Sys2Proof.Machine.execBoundaryScan s
  | .registerWrite off v => Sys2Proof.Machine.execRegisterWrite off v s
  | .retrainStart n => Sys2Proof.Machine.execRetrainStart n s
  | .ethLinkUp e => Sys2Proof.Machine.execEthLinkUp e s
  | .priEnable port v => Sys2Proof.Machine.execPriEnable port v s
  | .bisnpAnswer port line data => Sys2Proof.Machine.execBisnpAnswer port line data s
  | .laneComputeDone h seq => Sys2Proof.Machine.execLaneComputeDone h seq s
  | .tilePortDone core => Sys2Proof.Machine.execTilePortDone core s

end Sys2Proof.Machine
end

