-- ==== Sys2Proof/Machine/Turn.lean ====
section
/-! DEFINITION. What one turn does (log 1): a hart at its instruction boundary (R111, R113, R114, R121, R135, R136, R141, R142), the
passing of time (R5, R381, R405), a cache dropping a line (R36, R317), and how a word comes to be fetched in a test. -/

namespace Sys2Proof.Machine

/-! ## Harts -/

/-- What is taken at a boundary before the next instruction (R114): a late fault, then an interrupt. A reply that is outstanding
keeps the hart within its instruction (R139). -/
def boundaryEvent (s : State) (k : Nat) (h : Hart) : Option State :=
  if h.pend.isSome then none
  else if (deliverable h).isSome then some (after s (execLateFaultDelivery k s))
  else if (nextInterrupt s k h).isSome then some (after s (execTakeInterrupt k s))
  else none

/-- A waiting hart: WFI and WRS end when any interrupt is pending, `hwtime` when its time has come (R107, R120 to R122). -/
def waitTurn (s : State) (k : Nat) (h : Hart) : State :=
  match h.wait with
  | some .wfi => if effMip h ≠ 0 then setHart s k (adv s k { h with wait := none } 4) else s
  | some (.wrs _ _) => if effMip h ≠ 0 then endWrs s k h else s
  | some (.hwtime t) => if s.clock.time ≥ t then setHart s k (adv s k { h with wait := none } 4) else s
  | _ => s

/-- Instructions that a later load may have been performed ahead of (R45): loads, and what touches registers only. -/
def passesAhead (i : Instr) : Bool :=
  match i with
  | .scalarLoad _ _ _ _ | .integerOp _ | .mul _ _ _ _ | .div _ _ _ _ | .mand _ _ _ | .mor _ _ _ | .mxor _ _ _ | .mandn _ _ _ | .mnot _ _
  | .mrd _ _ | .mwr _ _ | .mcnt _ _ | .mffs _ _ | .mtop _ | .mif _ _ | .melse _ | .mwhile _ _ | .mend | .mbrk _ => true
  | _ => false

/-- The loads performed ahead that an instruction leaves so: a load itself says which; an instruction on registers keeps those whose base
it does not name; anything else, every fence among it, ends them all (R45, R47). An `xfence` so orders later loads for agents outside its scope too,
where R43 would leave them as they are (DESIGN CHOICE, log 24). -/
def keepAhead (h : Hart) (i : Instr) : List Ahead :=
  match i with
  | .scalarLoad _ _ _ _ => h.ahead
  | _ => if passesAhead i then h.ahead.filter fun z => !(xUses i).contains z.rs else []

/-- The state in which an instruction of the hart in slot k executes. -/
def atHart (s : State) (k : Nat) (h : Hart) (i : Instr) : State :=
  if h.ahead.isEmpty then { s with cur := k } else setHart { s with cur := k } k { h with ahead := keepAhead h i }

/-- The bytes at the pc fetched and decoded, and the instruction executed; a fetch fault comes before a decode failure (R63). -/
def runInstr (s : State) (k : Nat) (h : Hart) : Host.Outcome State Fault Refusal :=
  match fetchFor s k h with
  | (.wait, s) => .next s
  | (.fault c v, s) => .next (trapAt s k h c v)
  | (.ok bs, s) =>
    match decode bs with
    | .ok i _ => exec i (atHart s k h i)
    | .illegal _ v => .next (trapAt s k h 2 v)
    | .short => .next s

/-- The grace of the hart's account has run out: below M-mode it forwards nothing more (R407). -/
def graceOver (s : State) (h : Hart) : Bool :=
  match tget s.work.accts h.id.acct with
  | some a => (match a.graceEnd with
      | some e => e ≤ s.clock.clk && !a.closed
      | none => false)
  | none => false

/-- A hart that must stop at this boundary: it ends, its context is dead, a capture is due, or its grace is over (R114, R136, R407). -/
def stopped (s : State) (h : Hart) : Bool :=
  h.ending || ctxDead s h.id.asid || (h.mode != .m && (h.capture.isSome || graceOver s h))

/-- An instruction of the hart has been issued: what shows it has changed. -/
def issued (h g : Hart) : Bool :=
  g.pc != h.pc || g.s.instret != h.s.instret || g.l.nseq != h.l.nseq || g.pend != h.pend || g.wait != h.wait || g.mode != h.mode
    || g.ending != h.ending || g.syncw != h.syncw

/-- A hart waits for the scalar arbiter (R135): it is ready, nothing else comes at its boundary, and its next instruction would issue, which
one that waits (R117, R121) would not. -/
def waitsForPick (s : State) (k : Nat) (h : Hart) : Bool :=
  !stopped s h && (boundaryEvent s k h).isNone && ready s k h &&
  match runInstr s k h with
  | .next t => (match hartAt t k with
      | some g => issued h g
      | none => true)
  | _ => true

/-- The other harts of a slot's quadrant that wait for the scalar arbiter. -/
def scalarRivals (s : State) (k : Nat) : List Cand :=
  (s.harts.filter fun p => p.1 != k && p.1 / 64 == k / 64 && waitsForPick s p.1 p.2).map fun p => hartCand p.1 p.2

/-- The quadrant's scalar arbiter picks this hart (R28, R134). -/
def scalarPick (s : State) (k : Nat) (h : Hart) : Bool := picks s (.scalar (k / 64)) (hartCand k h) (scalarRivals s k)

/-- The outcome of an instruction, with the arbiter's pick noted when it has issued. -/
def noteIssue (s : State) (k : Nat) (h : Hart) (r : Host.Outcome State Fault Refusal) : Host.Outcome State Fault Refusal :=
  match r with
  | .next t =>
    let go : Bool := match hartAt t k with
      | some g => issued h g
      | none => true
    .next (if go then { t with arbs := (notePick s (.scalar (k / 64)) (hartCand k h) (scalarRivals s k)).arbs } else t)
  | r => r

/-- A turn of a hart that is not halted. -/
def activeTurn (s : State) (k : Nat) (h : Hart) : Host.Outcome State Fault Refusal :=
  if stopped s h then .next s
  else match boundaryEvent s k h with
    | some t => .next t
    | none =>
      if h.wait.isSome then .next (waitTurn s k h)
      else if !ready s k h || !scalarPick s k h then .next s
      else noteIssue s k h (runInstr s k h)

/-- The hart is halted again after a turn of a step, which has issued its instruction if the hart has moved (R142). -/
def rehalt (h : Hart) (n k : Nat) (t : State) : State :=
  match hartAt t k with
  | none => t
  | some g =>
    let moved : Bool := issued h g
    setHart t k { g with halted := true, stepping := some (if moved && !stepIssued n then n + 1 else n) }

/-- The lane or matrix instruction, or the `mrecv`, that the step has forwarded is not complete (R142, R288): it is the hart's last, at the pc of the step. -/
def steppedPending (h : Hart) (n : Nat) : Bool :=
  match entryAt h ((h.l.nseq + 65535) % 65536) with
  | some e => e.pc.toNat == stepPc n % 2 ^ 48 && (e.st == .inflight || e.st == .parked) &&
    (e.eng == .lane || e.eng == .matrix || match e.instr with
      | .mrecv _ => true
      | _ => false)
  | none => false

/-- A stepped `mrecv` of a kernel hart finds the inbox empty: the step waits at it (R288). -/
def stepHeld (s : State) (k : Nat) (h : Hart) : Bool :=
  h.msg.inbox.isEmpty && !h.id.handler && match (fetchFor s k h).1 with
    | .ok bs => (match decode bs with
        | .ok (.mrecv _) _ => true
        | _ => false)
    | _ => false

/-- A turn of a halted hart that is stepped (R142): it issues one instruction, and the step ends when the lane or matrix instruction that it has
forwarded, if any, is complete; a late fault is delivered first. -/
def stepTurn (s : State) (k : Nat) (h : Hart) (n : Nat) : Host.Outcome State Fault Refusal :=
  let free := { h with halted := false }
  if stepIssued n then
    if h.wait.isSome then (match activeTurn (setHart s k free) k free with
      | .next t => .next (rehalt h n k t)
      | r => r)
    else if steppedPending h n || h.pend.isSome then .next s
    else if (deliverable h).isSome then .next (rehalt h n k (after s (execLateFaultDelivery k (setHart s k free))))
    else .next (setHart s k { h with stepping := none })
  else if h.pc.toNat ≠ stepPc n then .next (setHart s k { h with stepping := some (n + 1) })
  else if (boundaryEvent s k free).isNone && stepHeld s k h then .next s
  else match activeTurn (setHart s k free) k free with
    | .next t => .next (rehalt h n k t)
    | r => r

/-- A turn of the hart in slot k. -/
def hartTurn (s : State) (k : Nat) : Host.Outcome State Fault Refusal :=
  match hartAt s k with
  | none => .next s
  | some h =>
    if h.halted then (match h.stepping with
      | some n => stepTurn s k h n
      | none => .next s)
    else activeTurn s k h

/-! ## Time -/

/-- Device time after a nanosecond of the reference: steering adds or holds back one (R381). -/
def advanceTime (c : Clock) : Clock :=
  { c with time := (c.time + (1 + c.steer).toNat) % 2 ^ 64, steer := 0 }

/-- Residency of one clk (R405): one unit for each team with a resident hart and for each resident handler, from the claim of their slots, on the dies
whose clk it is. A team that returns is charged from its claim again (R417), but not while its windows change hands (R419), which R405 says is not
charged (DEDUCED, log 74). -/
def chargeResidency (ran : List Nat) (s : State) : State :=
  let runs (c : Nat) : Bool := ran.contains (dieOfCore c)
  let here (t : Team) : Bool :=
    (t.stat == .placed || t.stat == .live || t.stat == .capturing || (t.stat == .restoring && !t.handOver)) && runs t.core
  let teams := (s.work.teams.filter fun p => here p.2).map fun p => p.2.acct
  let handlers := (s.harts.filter fun p => p.2.id.handler && runs (coreOfSlot p.1)).map fun p => p.2.id.acct
  let back := (s.work.saves.filter fun p => p.2.hart.id.handler && p.2.claimed && runs (coreOfSlot p.2.slot)).map fun p => p.2.hart.id.acct
  (teams ++ handlers ++ back).foldl (fun s a => charge s a 1) s

/-- The clk of each die in a tick of 1.8 GHz: a die whose clock has been lowered to m MHz has m of 1,800 (R33, R441). -/
def slowDies (p : Plat) : Plat :=
  { p with slow := p.mhz.foldl (fun l q =>
      let (n, r) := tgetD l q.1 (0, 0)
      tput l q.1 (if r + q.2 ≥ 1800 then (n, r + q.2 - 1800) else (n + 1, r + q.2))) p.slow }

/-- A tick passes, of 5/9 ns (R5): a clk of every die that runs at 1.8 GHz, and of the others in proportion (R33). Accounts that reach 0, deadlines
that are missed and graces that end are met in that clk (R406 to R408). -/
def tick (s : State) : State :=
  let slow := slowDies s.plat
  let ran := (List.range 4).filter fun d => (tgetD slow.slow d (0, 0)).1 == (tgetD s.plat.slow d (0, 0)).1
  let s : State := { noteOffers s with plat := slow }
  let r := s.clock.nsRem + 5
  let c := { s.clock with clk := s.clock.clk + 1, nsRem := r % 9 }
  let s := if r ≥ 9 then advanceClocks { s with clock := advanceTime c } 1 else { s with clock := c }
  let s := chargeResidency ran s
  let s := (s.work.accts.map (·.1)).foldl accountZero s
  let s := (s.work.grids.map (·.1)).foldl deadlineMiss s
  (s.work.accts.map (·.1)).foldl graceTick s

/-- n ticks pass. -/
def elapse : Nat → State → State
  | 0, s => s
  | n + 1, s => elapse n (tick s)

/-! ## Caches drop what they like (R36, R290, R317) -/

/-- An RDC line leaves its slice: a dirty one is written back. -/
def evictLine (s : State) (die line : Nat) : State :=
  updMem s fun m => dropRdcLine m die line

/-- Entry n of a slice's translation cache goes. -/
def evictTlb (s : State) (die sl n : Nat) : State :=
  let x := sliceAt s die sl
  setSlice s die sl { x with tlb := x.tlb.take n ++ x.tlb.drop (n + 1) }

/-- A word of a hart's vector registers loses its parity (R161). -/
def flipWord (s : State) (k r l : Nat) : State :=
  updHart s k fun h => if r = 0 ∨ h.id.nv ≤ r ∨ 64 ≤ l ∨ h.vbad.contains (r, l) then h else { h with vbad := h.vbad ++ [(r, l)] }

/-- What a turn does. A hart's instruction executes in that hart's turn only. -/
def turn (t : Turn) (s : State) : Host.Outcome State Fault Refusal :=
  match t with
  | .hart k => hartTurn s k
  | .event i => if isHartInstr i then .next s else exec i s
  | .elapse n => .next (elapse n s)
  | .evictRdc die line => .next (evictLine s die line)
  | .dropL1 core line => .next (dropL1Line s core line)
  | .dropIcache core key => .next (updCore s core fun c => { c with icache := tdel c.icache key })
  | .dropTlb die sl n => .next (evictTlb s die sl n)
  | .flipWord k r l => .next (flipWord s k r l)
  | .loadAhead k rs off n => .next (performAhead s k rs off n)
  | .stackError line err => .next (if s.mem.msc.contains line then s else eccEvent s line err)
  | .roceSettle => .next (settleRoce s)
  | .eccError asid => .next (if (liveAsids s).contains asid then contextFault s asid 2 else s)

/-! ## A word placed where the next step fetches it -/

/-- The page and the page tables of the program that `withFetchWord` loads where no hart can run: virtual and physical addresses
agree below 1 GiB, and the instruction stands at 0x4000. -/
def loadPc : Nat := 0x4000
def loadRoot : Nat := 0x10000
def loadTables : List (Nat × List Byte) := [(loadRoot, leBytes 8 (17 * 4096 + 1)), (loadRoot + 4096, leBytes 8 0xDF)]

/-- The grid, the team and the hart of that program: one Oryx team of one hart, in the slot whose turn is next. -/
def loadGrid (spec : TeamSpec) : Grid :=
  { num := 1, asid := 1, tenant := 0, origin := .queue 0 0, depth := 1, cls := 2, level := 0, dline := 2 ^ 64 - 1, acct := 0, spec := spec,
    nextTeam := 1, liveTeams := 1, children := 0, overrun := false, missed := false, killed := false, failCode := 0, retired := false,
    status := 0, release := 0, budget := 2 ^ 40 - 1, placed := true }

def loadSpec : TeamSpec :=
  { entry := BitVec.ofNat 64 loadPc, harts := 1, tiles := 16, vregs := 256, windows := 0, teams := 1, cores := 0, gang := false, dataOk := false,
    data := 0, p0 := 0, p1 := 0, arev := 1 }

/-- A program of one hart loaded from outside: context 1 with its page tables, the grid, the team and the hart; other harts of its quadrant are
halted, so that the scalar arbiter picks it. -/
def loadProgram (s : State) : State :=
  let k := s.cur
  let (gk, s) := freshUid s
  let (tk, s) := freshUid s
  let (uid, s) := freshUid s
  let g := loadGrid loadSpec
  let t : Team :=
    { grid := gk, idx := 0, asid := 1, core := coreOfSlot k, slots := [k], wins := [], tiles := List.range 16, bars := freshBars,
      recPa := 0x100000, acct := 0, stat := .live, hartsLeft := 1, order := tk, handOver := false, yieldEnd := none, told := 0, aways := [] }
  let s := { s with
    booted := true, faulted := s.faulted.filter fun p => p.1 != 1,
    work := { s.work with grids := tput s.work.grids gk g, teams := tput s.work.teams tk t } }
  let s := updCtx s 1 fun c => { c with satp := BitVec.ofNat 64 (15 * 2 ^ 60 + loadRoot / 4096) }
  let s := loadTables.foldl (fun s p => homeWrite s 0 p.1 p.2) s
  let s := { s with harts := s.harts.map fun p => if p.1 / 64 = k / 64 then (p.1, { p.2 with halted := true, stepping := none }) else p }
  setHart s k (freshHart (hartIdent uid g tk t 0) loadSpec.entry 0 0)

/-- Bytes placed in HBM as the program's loader leaves them: no instruction cache holds the line's old bytes. -/
def placeBytes (s : State) (k asid pa : Nat) (bs : List Byte) : State :=
  let s := homeWrite s 0 pa bs
  (linesOf pa bs.length).foldl (fun s l => updCore s (coreOfSlot k) fun c => { c with icache := tdel c.icache (icKey asid l) }) s

/-- Where four bytes at a pc are fetched from, when the hart fetches there from HBM. -/
def fetchPa (s : State) (k : Nat) (h : Hart) (pc : Word) : Option Nat :=
  if h.mode = .m then (if pc.toNat < hbmEnd then some pc.toNat else none)
  else match xlate s (dieOfSlot k) h.id.asid (ctxOf s h.id.asid).satp pc .fetch h.mode false false none with
    | (.ok (.hbm pa _), _) => some pa
    | _ => none

/-- The hart executes an instruction at its next turn. -/
def willRun (s : State) (k : Nat) (h : Hart) : Bool :=
  !h.halted && !stopped s h && (boundaryEvent s k h).isNone && ready s k h && scalarPick s k h && h.pc &&& 3 == 0

/-- The eight bytes of an instruction stored where the hart in slot `cur` fetches its next one, or in a program loaded for it. -/
def placeInstr (s : State) (bs : List Byte) : State :=
  let fresh : State := placeBytes (loadProgram s) s.cur 1 loadPc bs
  match hartAt s s.cur with
  | none => fresh
  | some h =>
    if !willRun s s.cur h then fresh
    else match fetchPa s s.cur h h.pc, fetchPa s s.cur h (h.pc + 4) with
      | some p, some q => placeBytes (placeBytes s s.cur h.id.asid p (bs.take 4)) s.cur h.id.asid q (bs.drop 4)
      | some p, none => placeBytes s s.cur h.id.asid p (bs.take 4)
      | none, _ => fresh

end Sys2Proof.Machine
end

