-- ==== Sys2Proof/Machine/Step.lean ====
section
/-! DEFINITION. One step of the machine (log 1): the head of the agenda takes its turn, or, with an empty agenda, the hart in the slot
`cur`. -/

namespace Sys2Proof.Machine

/-- One step. -/
def step (s : State) : Host.Outcome State Fault Refusal :=
  match s.agenda with
  | [] => turn (.hart s.cur) s
  | t :: rest => turn t { s with agenda := rest }

/-- The instruction whose bits are w stored where the next step fetches it; that step is a turn of the hart in `cur`. -/
def State.withFetchWord (s : State) (nbits w : Nat) : State :=
  placeInstr { s with agenda := [] } (bytesOfNat 8 (w % 2 ^ nbits))

end Sys2Proof.Machine
end

