-- ==== Sys2Proof/Safety.lean ====
section
/-! DEFINITION. The terms that statements about the machine use: when a hart's instruction executes, what a step leaves alone, and
the canonical form of the four byte stores. -/

namespace Sys2Proof.Machine

/-- Instruction i executes as an instruction of hart h, which stands in the slot whose turn it is: nothing that i needs is awaited
(R117, R275), and a basting region that i closes has passed its parity checks (R132). -/
abbrev Runs (s : State) (h : Hart) (i : Instr) : Prop :=
  hartAt s s.cur = some h ∧ hazard h i = false ∧ (closesRegion i && h.snap.isSome && !regionChecked h) = false

/-- The hart as i finds it: an open basting region is closed first by the instructions that close it (R132). -/
def entered (h : Hart) (i : Instr) : Hart := if closesRegion i && h.snap.isSome then closeRegion h else h

/-- The hart of slot k holds entry e in its ring under its sequence number (R133). -/
abbrev Holds (s : State) (k : Nat) (h : Hart) (e : Entry) : Prop := hartAt s k = some h ∧ entryAt h e.seq = some e

/-- The next step of s is a turn of the hart in slot k, taken in the state s0: the agenda is empty and k is `cur`, or k heads it. -/
def turnDue (s s0 : State) (k : Nat) : Prop :=
  (s.agenda = [] ∧ k = s.cur ∧ s0 = s) ∨ ∃ rest, s.agenda = .hart k :: rest ∧ s0 = { s with agenda := rest }

/-- Every byte of HBM, of the host's memory, of the team stores and of the tile stores reads in t as in s. -/
def sameBytes (s t : State) : Prop :=
  (∀ a, rd8 t.mem.hbm a = rd8 s.mem.hbm a) ∧ (∀ a, rd8 t.mem.host a = rd8 s.mem.host a) ∧
    (∀ a, rd8 t.tstore a = rd8 s.tstore a) ∧ ∀ a, rd8 t.tiles a = rd8 s.tiles a

/-- A hart's registers other than x registers, the pc and the count of retired instructions are as before. -/
def sameButX (h g : Hart) : Prop :=
  g = { h with x := g.x, pc := g.pc, s := { h.s with instret := g.s.instret } }

/-- A hart's registers other than m registers, the pc and the count of retired instructions are as before. -/
def sameButM (h g : Hart) : Prop :=
  g = { h with m := g.m, pc := g.pc, s := { h.s with instret := g.s.instret } }

/-- A hart's registers other than the mask stack with its depth, the pc and the count of retired instructions are as before. -/
def sameButStack (h g : Hart) : Prop :=
  g = { h with stk := g.stk, dep := g.dep, pc := g.pc, s := { h.s with instret := g.s.instret } }

/-- The retired count after an instruction of the hart whose turn it is (R107). -/
def nextInstret (s : State) (h : Hart) : Word := if wbit (mcsrOf s s.cur).mcountinhibit 2 then h.s.instret else h.s.instret + 1

/-- x register d was written with v, unless it is x0, and the pc; nothing else of the hart but the retired count (R103). -/
def WroteX (s : State) (h g : Hart) (d : XR) (v pc : Word) : Prop :=
  sameButX h g ∧ g.pc = pc ∧ g.s.instret = nextInstret s h ∧ ∀ r, rx g r = if r = d ∧ d ≠ 0 then v else rx h r

/-- m register d was written with v, unless it is m0, and the pc moved on by 4; nothing else of the hart but the retired count
(R103). -/
def WroteM (s : State) (h g : Hart) (d : MR) (v : Mask) : Prop :=
  sameButM h g ∧ g.pc = h.pc + 4 ∧ g.s.instret = nextInstret s h ∧ ∀ r, rm g r = if r = d ∧ d ≠ 0 then v else rm h r

/-- The mask stack has this depth and these entries, and the pc is pc; nothing else of the hart but the retired count. -/
def WroteStack (s : State) (h g : Hart) (dep : Nat) (pc : Word) (f : Nat → StkEntry) : Prop :=
  sameButStack h g ∧ g.dep = dep ∧ g.pc = pc ∧ g.s.instret = nextInstret s h ∧ ∀ i, i < 32 → stkAt g i = f i

/-- i completes: it writes v to x register d and goes to pc, and the state differs in that hart alone. -/
def CompletesX (s : State) (h : Hart) (i : Instr) (d : XR) (v pc : Word) : Prop :=
  Runs s h i → ∃ g, exec i s = .next (setHart s s.cur g) ∧ WroteX s h g d v pc

/-- i completes: it writes v to m register d, and the state differs in that hart alone. -/
def CompletesM (s : State) (h : Hart) (i : Instr) (d : MR) (v : Mask) : Prop :=
  Runs s h i → ∃ g, exec i s = .next (setHart s s.cur g) ∧ WroteM s h g d v

/-- i completes: it leaves this mask stack and goes to pc, and the state differs in that hart alone. -/
def CompletesStack (s : State) (h : Hart) (i : Instr) (dep : Nat) (pc : Word) (f : Nat → StkEntry) : Prop :=
  Runs s h i → ∃ g, exec i s = .next (setHart s s.cur g) ∧ WroteStack s h g dep pc f

/-- Where the instruction's own checks pass and its engine can take it, i takes a ring entry with these operands and word 2, on the
hart that f makes of it; a matrix entry notes an inbox reservation that it took (R145, R146, R153, R272). -/
def ForwardsAs (s : State) (h : Hart) (i : Instr) (opa : Word) (opb : BitVec 32) (w2 : Word) (f : Hart → Hart) : Prop :=
  ∀ sh o, engine? i = some (sh, o) → Runs s h i → allocOk h.id.nv h.id.nt i = true → (dynRounds sh o && h.l.lfrm.toNat > 4) = false →
    forwardBlocked (entered h i) sh = false →
    let g := f (entered h i)
    exec i s = .next (setHart s s.cur (forwarded s s.cur g
      { newEntry (entered h i) i sh o opa opb w2 with rsvd := sh.grp == 0x0A && g.msg.rsv != (entered h i).msg.rsv } i))

/-- The issued compute entry e of slot k finishes: the enabled lanes of the w-bit destination vd hold raw, or v0 discards it; every
other lane, register and mode stands; SI is set when an enabled lane clamps, and no other flag; the entry is DONE (R70, R95, R147,
R178 to R180). -/
def LaneWrites (s : State) (k : Nat) (h : Hart) (e : Entry) (vd w : Nat) (raw : Nat → Nat) (clamps : Nat → Bool) : Prop :=
  ∃ g, exec (.laneComputeDone k e.seq) s = .next (setHart s k g) ∧
    (∀ l, l < 64 → velem g vd l (max 32 w) =
      if vd ≠ 0 ∧ mbit e.lmask l = true then raw l % 2 ^ max 32 w else velem h vd l (max 32 w)) ∧
    (∀ n l, l < 64 → n ≠ vd → (w = 64 → n ≠ vd + 1) → vlane g n l = vlane h n l) ∧
    g.l = { h.l with lflags := if ((List.range 64).any fun l => mbit e.lmask l && clamps l) then h.l.lflags ||| flSI else h.l.lflags } ∧
    g.x = h.x ∧ g.m = h.m ∧ g.tm = h.tm ∧ g.stk = h.stk ∧ g.dep = h.dep ∧ g.pc = h.pc ∧
    ∃ f, entryAt g e.seq = some f ∧ f.st = .done

/-- The canonical form of every byte store (log 6). -/
def memoriesWf (s : State) : Prop :=
  Memory.wf s.mem.hbm = true ∧ Memory.wf s.mem.host = true ∧ Memory.wf s.tstore = true ∧ Memory.wf s.tiles = true

/-- The instructions of a hart that touch nothing but its own registers: mask logic, the mask stack, integer computation, multiply
and divide, `tmaddr`, `bst`, `bend` and `frrd`. -/
def isRegisterOnly (i : Instr) : Bool :=
  match i with
  | .mand _ _ _ | .mor _ _ _ | .mxor _ _ _ | .mandn _ _ _ | .mnot _ _ | .mrd _ _ | .mwr _ _ | .mcnt _ _ | .mffs _ _ | .mtop _
  | .mif _ _ | .melse _ | .mwhile _ _ | .mend | .mbrk _ | .mspush _ _ | .mspop _ | .msrdm _ _ | .msrdp _ _ | .mswrm _ _ | .mswrp _ _
  | .tmaddr _ _ _ | .bst | .bend | .frrd _ _ _ | .integerOp _ | .mul _ _ _ _ | .div _ _ _ _ | .pause => true
  | _ => false

/-- The command bs stands at the head of queue q and may be dispatched: no home is busy with the queue's block and no line of it is lost, the queue is in HOLD, or READY with its turn, and is not held by an
earlier command; it has room in its completion ring, and the command has opcode op and keeps the limits of R340 (R337 to R345). Reading
it, and taking the turn, leave the state u. -/
def HeadReady (s : State) (q op qcb : Nat) (bs : List Byte) (u : State) : Prop :=
  let t := takeNotes s
  let x := queueAt t q
  qFree s q = true ∧ lostRead t qcb 256 = false ∧ qcbOf s q = some qcb ∧ mayTake t q qcb = true ∧ stopHit t q qcb = none ∧
  (x.ibs ≠ [] ∨ ringHead t qcb ≠ qW t qcb 0x28) ∧ (ringHead t qcb + 2 ^ 64 - qW t qcb 0x38) % 2 ^ 64 < qCrSize (qW t qcb 0x10) ∧
  (headRead t q qcb).1 = .ok bs ∧ u = takeTurn (headRead t q qcb).2 qcb ∧ cw bs 0 % 256 = op ∧ cmdBad bs = false ∧
  ((cw bs 0).testBit 10 = true → x.cmds.all (cmdDone u) = true)

/-- The ring index and the ASID of the command at the head of a queue. -/
def headIdx (s : State) (qcb : Nat) : Nat := ringHead (takeNotes s) qcb
def headAsid (s : State) (qcb : Nat) : Nat := qAsid (qW (takeNotes s) qcb 0x10)

end Sys2Proof.Machine
end

