-- ==== Sys2Proof/Certificates/Slice0/Obligations.lean ====
section
/-! DEFINITION. The statements for the provers, group by group in the order of the spec's files. Each docstring names the rules it
formalises; a statement that completes an instruction names the next state or what it holds. -/

open Sys2Proof Sys2Proof.Machine

/-! ## Encoding (03) -/

/-- R60 to R74: decoding the bytes of a well-formed instruction, whatever follows them, gives the instruction back with its length. -/
def Obligations.DecodeOfEncodeIsTheInstruction : Prop :=
  ∀ (i : Instr) (bs rest : List Byte), i.wf = true → encode i = some bs → decode (bs ++ rest) = .ok i (instrLen i)

/-- R60 to R74: a word that the decoder accepts is the encoding of what it decodes to, bit for bit, and the term is well formed: no
bit of an accepted word is ignored, and no two instructions share a word. -/
def Obligations.EncodeOfDecodeIsTheWord : Prop :=
  ∀ (bs : List Byte) (i : Instr) (n : Nat), decode bs = .ok i n → encode i = some (bs.take n) ∧ i.wf = true ∧ n = instrLen i

/-- Words written out bit by bit from the encodings of 03_encoding decode to the instructions they stand for. -/
def Obligations.SampleWordsDecode : Prop :=
  -- mand m3, m1, m2: funct7 0, b 2, a 1, funct3 0, d 3, custom-0
  decodeTableWord 32 0b0000000_00010_00001_000_00011_0001011 = some (.mand 3 1 2) ∧
  -- mif m5, -4 instructions: imm12, a 5, funct3 1, custom-0
  decodeTableWord 32 0b111111111100_00101_001_00000_0001011 = some (.mif 5 0xFFC) ∧
  -- bar.sync x7, 9: funct7 0, n 9, a 7, funct3 1, custom-1
  decodeTableWord 32 0b0000000_01001_00111_001_00000_0101011 = some (.barSync 7 9) ∧
  -- tmld tm2, 16(x5): imm12 16, a 5, funct3 0, d 2, custom-2
  decodeTableWord 32 0b000000010000_00101_000_00010_1011011 = some (.tmld 2 5 16) ∧
  -- addi x1, x2, -1
  decodeTableWord 32 0b111111111111_00010_000_00001_0010011 = some (.integerOp (.aluImm .addi 1 2 0xFFF)) ∧
  -- lw x4, 8(x3)
  decodeTableWord 32 0b000000001000_00011_010_00100_0000011 = some (.scalarLoad .lw 4 3 8) ∧
  -- amoadd.d.aqrl x5, x7, (x6)
  decodeTableWord 32 0b00000_1_1_00111_00110_011_00101_0101111 = some (.amo .add true true true 5 6 7) ∧
  -- csrrw x0, lfrm, x1 (CSR 0x800)
  decodeTableWord 32 0b100000000000_00001_001_00000_1110011 = some (.csrAccess .rw false 0x800 0 1) ∧
  -- vadd.i32 v4, v5, v6 under m1: ks 0, rnd 0, fmt 2, pi 0, pm 1, vs3 0, vs2 6, vs1 5, vd 4, opcode 0, group 2, 0x3F
  decodeTableWord 64 0b00_000_010_0_001_00000000_00000110_00000101_00000100_00000000_00010_0111111 =
    some (.vaddI { ks := 0, rnd := 0, fmt := 2, pi := 0, pm := 1, vs3 := 0, vs2 := 6, vs1 := 5, vd := 4 })

/-! ## Reset and the step -/

/-- What reset leaves in the model: no hart in any slot, no team and no grid, no device register written, every core's caches and
queues empty, every byte blank in its canonical form, and the clock at 0 (what the spec gives no reset value is the model's choice:
logs 4, 5, 6 and 8). -/
def Obligations.ResetLeavesNothingResident : Prop :=
  (∀ k, hartAt State.reset k = none) ∧ State.reset.booted = false ∧ State.reset.clock.clk = 0 ∧ State.reset.clock.time = 0 ∧
  State.reset.regs = [] ∧ (∀ c, coreAt State.reset c = blankCore) ∧ State.reset.work.teams = [] ∧ State.reset.work.grids = [] ∧
  (∀ a, rd8 State.reset.mem.hbm a = blank ∧ rd8 State.reset.mem.host a = blank ∧ rd8 State.reset.tstore a = blank ∧
    rd8 State.reset.tiles a = blank) ∧ memoriesWf State.reset

/-- When the bytes at the pc of the hart whose turn it is decode to an instruction, and the quadrant's scalar arbiter picks the hart, the
step is that instruction, executed in the hart's slot after the fetch (which may have left its line in the instruction cache) and after
the loads performed ahead that it ends (R45); around it stands only the arbiter's note of its pick, when the instruction has issued
(R28, R60, R107, R114, R134, R135). -/
def Obligations.StepRunsTheDecodedInstruction : Prop :=
  ∀ (s s0 s' : State) (k : Nat) (h : Hart) (bs : List Byte) (i : Instr) (n : Nat),
    turnDue s s0 k → hartAt s0 k = some h → h.halted = false → stopped s0 h = false → boundaryEvent s0 k h = none → h.wait = none →
    ready s0 k h = true → scalarPick s0 k h = true → fetchFor s0 k h = (.ok bs, s') → decode bs = .ok i n →
    step s = noteIssue s0 k h (exec i (atHart s' k h i)) ∧ (h.ahead = [] → atHart s' k h i = { s' with cur := k }) ∧
    (∀ t, exec i (atHart s' k h i) = .next t → ∃ u, step s = .next u ∧ u = { t with arbs := u.arbs }) ∧
    (h.ahead ≠ [] → hartAt (atHart s' k h i) k = some { h with ahead := keepAhead h i })

/-- The agenda orders the other agents (log 1): its head takes its turn and leaves it; an event that is a step of an engine is that
constructor's meaning; a hart's instruction is no event. -/
def Obligations.StepTakesTheHeadOfTheAgenda : Prop :=
  ∀ (s : State) (rest : List Turn),
    (∀ i, isHartInstr i = false → s.agenda = .event i :: rest → step s = exec i { s with agenda := rest }) ∧
    (∀ i, isHartInstr i = true → s.agenda = .event i :: rest → step s = .next { s with agenda := rest }) ∧
    (∀ n, s.agenda = .elapse n :: rest → step s = .next (elapse n { s with agenda := rest })) ∧
    (∀ c l, s.agenda = .dropL1 c l :: rest → step s = .next (dropL1Line { s with agenda := rest } c l)) ∧
    (hartAt s s.cur = none → s.agenda = [] → step s = .next s)

/-- No step stops: in every state, whatever the agenda holds, whatever the memory decodes to, the machine goes on (an instruction that
the spec turns away traps, and a wait leaves the state as it is: log 1). -/
def Obligations.NoStepEverStops : Prop :=
  ∀ s : State, ∃ t, step s = .next t

/-- R60, R63: the low bits of the first parcel give the length: a 32-bit and a 64-bit form decode or are illegal with their own bits
as the value, every other length is illegal with the value R63 names; whatever else the hart would meet, a fetch that faults traps
with its cause and address first, and bytes that are no instruction raise cause 2 with that value and do nothing else. -/
def Obligations.LengthsAndIllegalEncodings : Prop :=
  (∀ (lo hi : BitVec 32),
    (lo.extractLsb' 0 2 ≠ 3 → decodeWords lo hi = .illegal .compressed (lo.extractLsb' 0 16 |>.setWidth 64)) ∧
    (lo.extractLsb' 0 2 = 3 → lo.extractLsb' 2 3 ≠ 7 →
      (∃ i, decodeWords lo hi = .ok i 4) ∨ ∃ e, decodeWords lo hi = .illegal e (lo.setWidth 64)) ∧
    (lo.extractLsb' 0 6 = 0x1F → decodeWords lo hi = .illegal .long48 (lo.setWidth 64)) ∧
    (lo.extractLsb' 0 7 = 0x3F → (∃ i, decodeWords lo hi = .ok i 8) ∨ ∃ e, decodeWords lo hi = .illegal e (hi ++ lo)) ∧
    (lo.extractLsb' 0 7 = 0x7F → decodeWords lo hi = .illegal .long80 (lo.setWidth 64))) ∧
  ∀ (s s0 s' : State) (k : Nat) (h : Hart),
    turnDue s s0 k → hartAt s0 k = some h → h.halted = false → stopped s0 h = false → boundaryEvent s0 k h = none → h.wait = none →
    ready s0 k h = true → scalarPick s0 k h = true →
    let steps (t : State) : Prop := ∃ u, step s = .next u ∧ u = { t with arbs := u.arbs }
    (∀ c v, fetchFor s0 k h = (.fault c v, s') → steps (trapAt s' k h c v)) ∧
    (∀ bs e v, fetchFor s0 k h = (.ok bs, s') → decode bs = .illegal e v → steps (trapAt s' k h 2 v)) ∧
    (h.mode = .m → h.pc &&& 3 = 0 → canonical h.pc = true → hbmEnd ≤ h.pc.toNat → steps (trapAt s0 k h 1 h.pc)) ∧
    (h.mode = .m → h.pc &&& 3 = 0 → canonical h.pc = false → steps (trapAt s0 k h 12 h.pc))

/-! ## Byte stores and time (02, 04) -/

/-- R4, R11: bytes written at an address read back in order, and every other byte is as before. A window's bytes read back as written, and no
byte outside the written offsets of any window changes (R52, R282). The named writes of the machine keep every store in its canonical form
(log 6): HBM at a home, the host's memory, a window, and a tile. -/
def Obligations.StoresReadBackAndStayCanonical : Prop :=
  (∀ (m : Memory) (a : Nat) (bs : List Byte),
    rdBytes (wrBytes m a bs) a bs.length = bs ∧ (∀ b, b < a ∨ a + bs.length ≤ b → rd8 (wrBytes m a bs) b = rd8 m b) ∧
    (∀ n v, v < 2 ^ (8 * n) → rdN (wrN m a n v) a n = v)) ∧
  (∀ (s : State) (core win off writer : Nat) (bs : List Byte),
    readWin (writeWin s core win off writer bs) core win off bs.length = bs ∧
    (∀ a, a < winKey core win off ∨ winKey core win off + bs.length ≤ a →
      rd8 (writeWin s core win off writer bs).tstore a = rd8 s.tstore a) ∧
    (writeWin s core win off writer bs).tiles = s.tiles ∧ (writeWin s core win off writer bs).mem.hbm = s.mem.hbm) ∧
  (∀ (s : State), memoriesWf s →
    (∀ md a bs, memoriesWf (homeWrite s md a bs)) ∧ (∀ a bs, memoriesWf (hostWrite s a bs)) ∧
    (∀ core win off writer bs, memoriesWf (writeWin s core win off writer bs)) ∧ (∀ core tile vs, memoriesWf (putTile s core tile vs)))

/-- R5: n clk pass as n, and device time runs at 1 ns in 9/5 clk: 9 clk are 5 ns when no steering is pending. The passing of time and caches
that drop lines write no byte of any store, from every state (R5, R36). -/
def Obligations.TimePassesAndEvictionsWriteNoByte : Prop :=
  (∀ (s : State), (∀ n, (elapse n s).clock.clk = s.clock.clk + n) ∧
    (s.clock.steer = 0 → s.clock.nsRem < 9 → (elapse 9 s).clock.time = (s.clock.time + 5) % 2 ^ 64 ∧ (elapse 9 s).clock.nsRem = s.clock.nsRem)) ∧
  (∀ (s t : State) (rest : List Turn),
    ((∃ n, s.agenda = .elapse n :: rest) ∨ (∃ d l, s.agenda = .evictRdc d l :: rest) ∨ (∃ c l, s.agenda = .dropL1 c l :: rest) ∨
      (∃ c k, s.agenda = .dropIcache c k :: rest) ∨ (∃ d sl n, s.agenda = .dropTlb d sl n :: rest) ∨
      (∃ k r l, s.agenda = .flipWord k r l :: rest)) →
    step s = .next t → sameBytes s t)

/-! ## Traps, modes and control registers (04) -/

/-- R109, R110, R162: a trap below M-mode whose cause is delegated goes to S-mode: sepc, scause and stval are written, SPIE takes SIE, SIE is
cleared, SPP holds the mode left, the pc is the vector; the other bits of mstatus, the x, m, v and tm registers, the mask stack, the
ring's work and the machine CSRs stand. The basting region is closed, and the wait and the reservation end. R109, R110: every other trap
goes to M-mode: mepc, mcause and mtval of the slot are written, MPIE takes MIE, MIE is cleared, MPP holds the mode left, the pc is the
vector; the other bits of mstatus, the supervisor CSRs and the registers stand. -/
def Obligations.TrapsSaveAndEnterTheirMode : Prop :=
  (∀ (s : State) (k : Nat) (h : Hart) (cause : Nat) (interrupt : Bool) (tval epc : Word), h.mode ≠ .m → cause < 63 →
    wbit (if interrupt then (mcsrOf s k).mideleg else (mcsrOf s k).medeleg) cause = true →
    ∃ g, hartAt (takeTrap s k h cause interrupt tval epc) k = some g ∧ g.mode = .s ∧ g.s.sepc = epc ∧ g.s.stval = tval ∧
      g.s.scause.toNat = cause + (if interrupt then 2 ^ 63 else 0) ∧
      wbit g.s.mstatus msSPIE = wbit h.s.mstatus msSIE ∧ wbit g.s.mstatus msSIE = false ∧ wbit g.s.mstatus msSPP = (h.mode == .s) ∧
      (∀ n, n < 64 → n ≠ msSPIE → n ≠ msSIE → n ≠ msSPP → wbit g.s.mstatus n = wbit h.s.mstatus n) ∧
      g.pc = (h.s.stvec &&& ~~~ 3) + (if interrupt ∧ h.s.stvec &&& 3 = 1 then BitVec.ofNat 64 (4 * cause) else 0) ∧
      g.x = h.x ∧ g.m = h.m ∧ g.v = h.v ∧ g.tm = h.tm ∧ g.stk = h.stk ∧ g.dep = h.dep ∧ g.l = h.l ∧
      g.snap = none ∧ g.wait = none ∧ g.resv = none ∧ (takeTrap s k h cause interrupt tval epc).mcsrs = s.mcsrs ∧
      sameBytes s (takeTrap s k h cause interrupt tval epc)) ∧
  (∀ (s : State) (k : Nat) (h : Hart) (cause : Nat) (interrupt : Bool) (tval epc : Word), cause < 63 →
    (h.mode = .m ∨ wbit (if interrupt then (mcsrOf s k).mideleg else (mcsrOf s k).medeleg) cause = false) →
    let t := takeTrap s k h cause interrupt tval epc
    ∃ g, hartAt t k = some g ∧ g.mode = .m ∧ (mcsrOf t k).mepc = epc ∧ (mcsrOf t k).mtval = tval ∧
      (mcsrOf t k).mcause.toNat = cause + (if interrupt then 2 ^ 63 else 0) ∧
      mcsrOf t k = { mcsrOf s k with mepc := (mcsrOf t k).mepc, mcause := (mcsrOf t k).mcause, mtval := (mcsrOf t k).mtval } ∧
      wbit g.s.mstatus msMPIE = wbit h.s.mstatus msMIE ∧ wbit g.s.mstatus msMIE = false ∧
      (g.s.mstatus >>> msMPP) &&& 3 = (match h.mode with
        | .u => 0 | .s => 1 | .m => 3) ∧
      (∀ n, n < 64 → n ≠ msMPIE → n ≠ msMIE → n ≠ msMPP → n ≠ msMPP + 1 → wbit g.s.mstatus n = wbit h.s.mstatus n) ∧
      g.pc = ((mcsrOf s k).mtvec &&& ~~~ 3) + (if interrupt ∧ (mcsrOf s k).mtvec &&& 3 = 1 then BitVec.ofNat 64 (4 * cause) else 0) ∧
      g.s = { h.s with mstatus := g.s.mstatus } ∧ g.x = h.x ∧ g.m = h.m ∧ g.v = h.v ∧ g.tm = h.tm ∧ g.stk = h.stk ∧ g.dep = h.dep ∧
      g.l = h.l ∧ (∀ j, j ≠ k → mcsrOf t j = mcsrOf s j) ∧ sameBytes s t)

/-- MRET in M-mode and SRET complete: the pc is the saved one, the interrupt enable takes the saved enable, which becomes 1, the saved mode is
restored and becomes U, and MPRV is cleared on leaving M-mode; the registers stand (R107, R109). R107, R110, R141: ECALL raises 8, 9 or 11
by the mode; EBREAK raises 3 with its address, or halts the hart at the EBREAK when its context's break-halt bit is set. -/
def Obligations.TrapReturnsEcallAndEbreak : Prop :=
  (∀ (s : State) (h : Hart),
    (Runs s h .mret → h.mode = .m → ∃ g, exec .mret s = .next (setHart s s.cur g) ∧ g.pc = (mcsrOf s s.cur).mepc ∧
      wbit g.s.mstatus msMIE = wbit h.s.mstatus msMPIE ∧ wbit g.s.mstatus msMPIE = true ∧ (g.s.mstatus >>> msMPP) &&& 3 = 0 ∧
      ((h.s.mstatus >>> msMPP) &&& 3 = 0 → g.mode = .u ∧ wbit g.s.mstatus msMPRV = false) ∧
      ((h.s.mstatus >>> msMPP) &&& 3 = 1 → g.mode = .s ∧ wbit g.s.mstatus msMPRV = false) ∧
      ((h.s.mstatus >>> msMPP) &&& 3 = 3 → g.mode = .m ∧ wbit g.s.mstatus msMPRV = wbit h.s.mstatus msMPRV) ∧
      g = { h with pc := g.pc, mode := g.mode, s := { h.s with mstatus := g.s.mstatus, instret := g.s.instret } }) ∧
    (Runs s h .sret → (h.mode = .m ∨ (h.mode = .s ∧ wbit h.s.mstatus msTSR = false)) →
      ∃ g, exec .sret s = .next (setHart s s.cur g) ∧ g.pc = h.s.sepc ∧
      wbit g.s.mstatus msSIE = wbit h.s.mstatus msSPIE ∧ wbit g.s.mstatus msSPIE = true ∧ wbit g.s.mstatus msSPP = false ∧
      g.mode = (if wbit h.s.mstatus msSPP then .s else .u) ∧ wbit g.s.mstatus msMPRV = false ∧
      g = { h with pc := g.pc, mode := g.mode, s := { h.s with mstatus := g.s.mstatus, instret := g.s.instret } })) ∧
  (∀ (s : State) (h : Hart),
    (Runs s h .ecall → h.mode = .u → exec .ecall s = .next (trapAt s s.cur h 8 0)) ∧
    (Runs s h .ecall → h.mode = .s → exec .ecall s = .next (trapAt s s.cur h 9 0)) ∧
    (Runs s h .ecall → h.mode = .m → exec .ecall s = .next (trapAt s s.cur h 11 0)) ∧
    (Runs s h .ebreak → breakHalt s h.id.asid = false → exec .ebreak s = .next (trapAt s s.cur h 3 h.pc)) ∧
    (Runs s h .ebreak → breakHalt s h.id.asid = true → exec .ebreak s = .next (setHart s s.cur { h with halted := true })))

/-- R105, R107, R133, R325: below its mode a privileged instruction raises cause 2 with the instruction's bits, and so do `frrep` and `frdrop`
in any mode but S-mode. R127, R128, R280: `hexit` in a handler hart, `hret` in a kernel hart, and both outside U-mode, are illegal; so are
`glaunch` but by a team's first hart in U-mode, and `hwmsg`, `gwait` and the barriers in a handler. -/
def Obligations.PrivilegedAndMisplacedInstructionsTrap : Prop :=
  (∀ (s : State) (h : Hart), (∀ i, i ∈ [Instr.mret, .sret, .wfi] → Runs s h i → h.mode = .u →
      exec i s = .next (trapAt s s.cur h 2 (instrBits i))) ∧
    (Runs s h .mret → h.mode = .s → exec .mret s = .next (trapAt s s.cur h 2 0x30200073)) ∧
    (Runs s h .sret → h.mode = .s → wbit h.s.mstatus msTSR = true → exec .sret s = .next (trapAt s s.cur h 2 0x10200073)) ∧
    (Runs s h .frrep → h.mode ≠ .s → exec .frrep s = .next (trapAt s s.cur h 2 (instrBits .frrep))) ∧
    (∀ a, Runs s h (.frdrop a) → h.mode ≠ .s → exec (.frdrop a) s = .next (trapAt s s.cur h 2 (instrBits (.frdrop a)))) ∧
    (∀ a b, Runs s h (.sfenceVma a b) → (h.mode = .u ∨ (h.mode = .s ∧ wbit h.s.mstatus msTVM = true)) →
      exec (.sfenceVma a b) s = .next (trapAt s s.cur h 2 (instrBits (.sfenceVma a b)))) ∧
    (∀ op u rd src, Runs s h (.steerWrite op u rd src) → h.mode ≠ .m →
      exec (.steerWrite op u rd src) s = .next (trapAt s s.cur (entered h (.steerWrite op u rd src)) 2 (instrBits (.steerWrite op u rd src)))) ∧
    (∀ op u rd src, Runs s h (.satpWrite op u rd src) → (h.mode = .u ∨ (h.mode = .s ∧ wbit h.s.mstatus msTVM = true)) →
      exec (.satpWrite op u rd src) s = .next (trapAt s s.cur (entered h (.satpWrite op u rd src)) 2 (instrBits (.satpWrite op u rd src)))) ∧
    (∀ op u csr rd src, Runs s h (.csrAccess op u csr rd src) → csrAllowed s s.cur (entered h (.csrAccess op u csr rd src)) csr.toNat (csrWrites op src) = false →
      exec (.csrAccess op u csr rd src) s =
        .next (trapAt s s.cur (entered h (.csrAccess op u csr rd src)) 2 (instrBits (.csrAccess op u csr rd src))))) ∧
  (∀ (s : State) (h0 : Hart) (d a : XR) (n : BitVec 4),
    let bad (i : Instr) : Prop := Runs s h0 i → exec i s = .next (trapAt s s.cur (entered h0 i) 2 (instrBits i))
    ((h0.id.handler = true ∨ h0.mode ≠ .u) → bad .hexit) ∧ ((h0.id.handler = false ∨ h0.mode ≠ .u) → bad .hret) ∧
    ((h0.id.handler = true ∨ h0.id.hidx ≠ 0 ∨ h0.mode ≠ .u) → bad (.glaunch d a)) ∧
    (h0.id.handler = true → bad .hwmsg ∧ bad (.gwait d a) ∧ bad (.barSync a n) ∧ bad (.barArrive a n) ∧ bad (.barWait n)))

/-- R109, R111: a hart in M-mode takes no delegated interrupt, and one in S-mode takes a delegated one only while SIE is set. -/
def Obligations.DelegatedInterruptsWaitForTheirMode : Prop :=
  ∀ (s : State) (k : Nat) (h : Hart) (n : Nat), nextInterrupt s k h = some n →
    wbit (effMip h) n = true ∧ wbit h.s.mie n = true ∧
    (h.mode = .m → wbit (mcsrOf s k).mideleg n = false ∧ wbit h.s.mstatus msMIE = true) ∧
    (h.mode = .s → wbit (mcsrOf s k).mideleg n = true → wbit h.s.mstatus msSIE = true)

/-- CSR_ACCESS completes (R105, R107): rd takes the old value; the CSR takes the new one by its own rule. A read of lflags or hstat waits for
instructions that can set a flag (R95, R106). STEER_WRITE and SATP_WRITE complete (R105, R107, R143, R310): rd takes the old value; steer
keeps its four 6-bit fields, is noted for the next boot (R144), and ends the stop of lane issue that the write made while a quadrant it
changes was not drained; satp takes the new value with the context's own ASID when MODE is 0 or 15, and stands otherwise. -/
def Obligations.CsrInstructionsComplete : Prop :=
  (∀ (s : State) (h0 : Hart) (op : CsrKind) (u : Bool) (csr : BitVec 12) (rd src : XR) (old : Word),
    let i : Instr := .csrAccess op u csr rd src
    let h := entered h0 i
    let v := if u then src.setWidth 64 else rx h0 src
    let new := match op with
      | .rw => v | .rs => old ||| v | .rc => old &&& ~~~ v
    Runs s h0 i → csrAllowed s s.cur h csr.toNat (csrWrites op src) = true → csrRead s s.cur h csr.toNat = some old →
    ((csr = 0x801 ∨ csr = 0x803) → flagPending h = false) →
    ∃ g, WroteX s h g rd old (h.pc + 4) ∧
      exec i s = .next (if csrWrites op src then csrWrite s s.cur g csr.toNat new else setHart s s.cur g)) ∧
  (∀ (s : State) (h0 : Hart) (op : CsrKind) (u : Bool) (rd src : XR),
    (let i : Instr := .steerWrite op u rd src
     let h := entered h0 i
     let old := BitVec.ofNat 64 (steerOf s (coreOfSlot s.cur))
     let core := coreOfSlot s.cur
     let new := Nat.land (csrNew op old (csrSource h u src)).toNat 0x3F3F3F3F
     let changed (q : Nat) : Bool := bitsOf (steerOf s core) (8 * q) 6 != bitsOf new (8 * q) 6
     let busy : Prop := ∃ q, q < 4 ∧ changed q = true ∧ datapathBusy s core q = true
     (Runs s h0 i → h.mode = .m → ¬ busy → ∃ g t, exec i s = .next t ∧ WroteX s h g rd old (h.pc + 4) ∧ hartAt t s.cur = some g ∧
       steerOf t core = new ∧ (new ≠ steerOf s core → tget t.plat.steerRec core = some new) ∧
       (coreAt t core).steering = (coreAt s core).steering.filter (fun w => w.uid != h.id.uid) ∧
       t = { setHart s s.cur g with steerCfg := t.steerCfg, plat := { s.plat with steerRec := t.plat.steerRec }, cores := t.cores }) ∧
     (Runs s h0 i → h.mode = .m → busy → ∃ t, exec i s = .next t ∧ t = { s with cores := t.cores } ∧
       ∃ w, w ∈ (coreAt t core).steering ∧ w.uid = h.id.uid ∧ ∀ q, q < 4 → (q ∈ w.quads ↔ changed q = true))) ∧
    (let i : Instr := .satpWrite op u rd src
     let h := entered h0 i
     let old := (ctxOf s h.id.asid).satp
     let new := csrNew op old (csrSource h u src)
     Runs s h0 i → csrAllowed s s.cur h 0x180 true = true → untranslated h = false →
       ∃ g t, exec i s = .next t ∧ WroteX s h g rd old (h.pc + 4) ∧ hartAt t s.cur = some g ∧
       ((new >>> 60 = 0 ∨ new >>> 60 = 15) → (ctxOf t h.id.asid).satp = BitVec.ofNat 64 (setBits new.toNat 44 16 h.id.asid)) ∧
       (¬ (new >>> 60 = 0 ∨ new >>> 60 = 15) → t = setHart s s.cur g)))

/-- R105 to R109: what a CSR write leaves to be read: lfrm keeps 3 bits, lflags 6, lctl 1; WRSFULL is cleared by 1; sepc and mepc keep
no low bits; stvec and mtvec keep modes 0 and 1 only; sscratch, scause and stval keep every bit. -/
def Obligations.CsrWritesKeepWhatTheirRulesAllow : Prop :=
  ∀ (s : State) (k : Nat) (h : Hart) (w : Word),
    let after (n : Nat) : Option Word := match hartAt (csrWrite s k h n w) k with
      | some g => csrRead (csrWrite s k h n w) k g n
      | none => none
    after 0x800 = some (w &&& 7) ∧ after 0x801 = some (w &&& 0x3F) ∧ after 0x802 = some (w &&& 1) ∧
    after 0x140 = some w ∧ after 0x141 = some (w &&& ~~~ 3) ∧ after 0x142 = some w ∧ after 0x143 = some w ∧
    after 0x105 = some (w &&& ~~~ 2) ∧ after 0x340 = some w ∧ after 0x341 = some (w &&& ~~~ 3) ∧ after 0x342 = some w ∧
    after 0x343 = some w ∧ after 0x305 = some (w &&& ~~~ 2) ∧ after 0x302 = some ((w &&& 0xB3FF) ||| 0xFF000000) ∧
    after 0x303 = some ((w &&& 0x222) ||| 0x3F0000) ∧
    (wbit w 0 = true → ∀ g, hartAt (csrWrite s k h 0x803 w) k = some g → g.l.wrsFull = false)

/-! ## Mask registers, the mask stack and the standard base (04) -/

/-- R116, R117: the mask logic instructions complete with their results; a write to m0 or x0 is discarded. -/
def Obligations.MaskLogicCompletes : Prop :=
  ∀ (s : State) (h : Hart) (md ma mb : MR) (xd xa : XR),
    CompletesM s h (.mand md ma mb) md (rm h ma &&& rm h mb) ∧ CompletesM s h (.mor md ma mb) md (rm h ma ||| rm h mb) ∧
    CompletesM s h (.mxor md ma mb) md (rm h ma ^^^ rm h mb) ∧ CompletesM s h (.mandn md ma mb) md (rm h ma &&& ~~~ rm h mb) ∧
    CompletesM s h (.mnot md ma) md (~~~ rm h ma) ∧ CompletesM s h (.mwr md xa) md (rx h xa) ∧
    CompletesX s h (.mrd xd ma) xd (rm h ma) (h.pc + 4) ∧
    CompletesX s h (.mcnt xd ma) xd (BitVec.ofNat 64 (lanesOf (rm h ma)).length) (h.pc + 4) ∧
    CompletesX s h (.mtop xd) xd (stkAt h (h.dep - 1)).mask (h.pc + 4) ∧
    (rm h ma = 0 → CompletesX s h (.mffs xd ma) xd 64 (h.pc + 4)) ∧
    (∀ n, n < 64 → mbit (rm h ma) n = true → (∀ j, j < n → mbit (rm h ma) j = false) →
      CompletesX s h (.mffs xd ma) xd (BitVec.ofNat 64 n) (h.pc + 4))

/-- R118, R119: the mask-stack instructions complete as their statements have it: what is pushed, replaced or popped, and whether the
hart goes on or to the label. -/
def Obligations.MaskStackCompletes : Prop :=
  ∀ (s : State) (h : Hart) (a : MR) (xb : XR) (imm : BitVec 12),
    let label : Word := h.pc + imm.signExtend 64 * 4
    let top := stkAt h (h.dep - 1)
    let put (j : Nat) (e : StkEntry) : Nat → StkEntry := fun i => if i = j then e else stkAt h i
    (h.dep < 32 →
      (let t := top.mask &&& rm h a
       CompletesStack s h (.mif a imm) (h.dep + 1) (if t = 0 then label else h.pc + 4) (put h.dep ⟨t, label.setWidth 48⟩)) ∧
      CompletesStack s h (.mspush a xb) (h.dep + 1) (h.pc + 4) (put h.dep ⟨rm h a, (rx h xb).setWidth 48⟩)) ∧
    (1 < h.dep → h.dep ≤ 32 →
      (let t := (stkAt h (h.dep - 2)).mask &&& ~~~ top.mask
       CompletesStack s h (.melse imm) h.dep (if t = 0 then label else h.pc + 4) (put (h.dep - 1) ⟨t, label.setWidth 48⟩)) ∧
      (let t := top.mask &&& rm h a
       CompletesStack s h (.mwhile a imm) h.dep (if t = 0 then h.pc + 4 else label) (put (h.dep - 1) ⟨t, top.rpc⟩)) ∧
      CompletesStack s h .mend (h.dep - 1) (h.pc + 4) (stkAt h) ∧
      (let t := top.mask &&& ~~~ rm h a
       let l : Word := top.rpc.signExtend 64
       (t ≠ 0 ∨ l &&& 3 = 0) → CompletesStack s h (.mbrk a) h.dep (if t = 0 then l else h.pc + 4) (put (h.dep - 1) ⟨t, top.rpc⟩)) ∧
      (Runs s h (.mspop a) → ∃ g, exec (.mspop a) s = .next (setHart s s.cur { g with dep := h.dep - 1 }) ∧ WroteM s h g a top.mask))

/-- R118: the access of the mask stack by an index: entries below the depth read and write, reads from the depth up give 0. R110, R118, R119:
a push on a full stack raises cause 25, and a pop or a change of the bottom entry cause 26, with the instruction's bits; nothing else
changes. -/
def Obligations.MaskStackIndexedAccessAndBounds : Prop :=
  (∀ (s : State) (h : Hart) (d a b : XR), h.dep ≤ 32 →
    let i := (rx h a).toNat
    (i < h.dep →
      CompletesX s h (.msrdm d a) d (stkAt h i).mask (h.pc + 4) ∧ CompletesX s h (.msrdp d a) d ((stkAt h i).rpc.signExtend 64) (h.pc + 4) ∧
      CompletesStack s h (.mswrm a b) h.dep (h.pc + 4) (fun j => if j = i then ⟨rx h b, (stkAt h i).rpc⟩ else stkAt h j) ∧
      CompletesStack s h (.mswrp a b) h.dep (h.pc + 4) (fun j => if j = i then ⟨(stkAt h i).mask, (rx h b).setWidth 48⟩ else stkAt h j)) ∧
    (h.dep ≤ i → CompletesX s h (.msrdm d a) d 0 (h.pc + 4) ∧ CompletesX s h (.msrdp d a) d 0 (h.pc + 4) ∧
      (Runs s h (.mswrm a b) → exec (.mswrm a b) s = .next (trapAt s s.cur h 26 (instrBits (.mswrm a b)))) ∧
      (Runs s h (.mswrp a b) → exec (.mswrp a b) s = .next (trapAt s s.cur h 26 (instrBits (.mswrp a b)))))) ∧
  (∀ (s : State) (h : Hart) (i : Instr), Runs s h i →
    (h.dep = 32 → ((∃ a imm, i = .mif a imm) ∨ ∃ a b, i = .mspush a b) → exec i s = .next (trapAt s s.cur h 25 (instrBits i))) ∧
    (h.dep = 1 → ((∃ imm, i = .melse imm) ∨ (∃ a imm, i = .mwhile a imm) ∨ i = .mend ∨ (∃ a, i = .mbrk a) ∨ ∃ d, i = .mspop d) →
      exec i s = .next (trapAt s s.cur h 26 (instrBits i))))

/-- RV64I computation completes with the results of the standard base. The M extension completes: products, quotients toward zero with
remainders, and the results of a division by zero and of the overflow. -/
def Obligations.StandardBaseComputationCompletes : Prop :=
  (∀ (s : State) (h : Hart) (rd a b : XR) (imm : BitVec 12) (up : BitVec 20) (sh6 : BitVec 6) (sh5 : BitVec 5),
    let x := rx h a
    let y := rx h b
    let z : Word := imm.signExtend 64
    let sx (w : Word) : Word := (w.setWidth 32).signExtend 64
    let done (op : IntOp) (v : Word) : Prop := CompletesX s h (.integerOp op) rd v (h.pc + 4)
    done (.lui rd up) ((up ++ (0 : BitVec 12)).signExtend 64) ∧ done (.auipc rd up) (h.pc + (up ++ (0 : BitVec 12)).signExtend 64) ∧
    done (.aluImm .addi rd a imm) (x + z) ∧ done (.aluImm .slti rd a imm) (if x.toInt < z.toInt then 1 else 0) ∧
    done (.aluImm .sltiu rd a imm) (if x.toNat < z.toNat then 1 else 0) ∧ done (.aluImm .xori rd a imm) (x ^^^ z) ∧
    done (.aluImm .ori rd a imm) (x ||| z) ∧ done (.aluImm .andi rd a imm) (x &&& z) ∧
    done (.shiftImm .sll rd a sh6) (BitVec.ofNat 64 (x.toNat * 2 ^ sh6.toNat)) ∧
    done (.shiftImm .srl rd a sh6) (BitVec.ofNat 64 (x.toNat / 2 ^ sh6.toNat)) ∧
    done (.shiftImm .sra rd a sh6) (BitVec.ofInt 64 (x.toInt / 2 ^ sh6.toNat)) ∧
    done (.addiw rd a imm) (sx (x + z)) ∧ done (.shiftImmW .sll rd a sh5) (sx (x <<< sh5.toNat)) ∧
    done (.shiftImmW .srl rd a sh5) (sx (BitVec.ofNat 64 (x.toNat % 2 ^ 32 / 2 ^ sh5.toNat))) ∧
    done (.shiftImmW .sra rd a sh5) (BitVec.ofInt 64 ((sx x).toInt / 2 ^ sh5.toNat)) ∧
    done (.alu .add rd a b) (x + y) ∧ done (.alu .sub rd a b) (x - y) ∧ done (.alu .sll rd a b) (BitVec.ofNat 64 (x.toNat * 2 ^ (y.toNat % 64))) ∧
    done (.alu .slt rd a b) (if x.toInt < y.toInt then 1 else 0) ∧ done (.alu .sltu rd a b) (if x.toNat < y.toNat then 1 else 0) ∧
    done (.alu .xor rd a b) (x ^^^ y) ∧ done (.alu .srl rd a b) (BitVec.ofNat 64 (x.toNat / 2 ^ (y.toNat % 64))) ∧
    done (.alu .sra rd a b) (BitVec.ofInt 64 (x.toInt / 2 ^ (y.toNat % 64))) ∧ done (.alu .or rd a b) (x ||| y) ∧
    done (.alu .and rd a b) (x &&& y) ∧ done (.aluW .addw rd a b) (sx (x + y)) ∧ done (.aluW .subw rd a b) (sx (x - y)) ∧
    done (.aluW .sllw rd a b) (sx (x <<< (y.toNat % 32))) ∧ done (.aluW .srlw rd a b) (sx (BitVec.ofNat 64 (x.toNat % 2 ^ 32 / 2 ^ (y.toNat % 32)))) ∧
    done (.aluW .sraw rd a b) (BitVec.ofInt 64 ((sx x).toInt / 2 ^ (y.toNat % 32)))) ∧
  (∀ (s : State) (h : Hart) (rd a b : XR),
    let x := rx h a
    let y := rx h b
    let x' : BitVec 32 := x.setWidth 32
    let y' : BitVec 32 := y.setWidth 32
    let mul (k : MulKind) (v : Word) : Prop := CompletesX s h (.mul k rd a b) rd v (h.pc + 4)
    let div (k : DivKind) (v : Word) : Prop := CompletesX s h (.div k rd a b) rd v (h.pc + 4)
    mul .mul (BitVec.ofInt 64 (x.toInt * y.toInt)) ∧ mul .mulh (BitVec.ofInt 64 (x.toInt * y.toInt / 2 ^ 64)) ∧
    mul .mulhsu (BitVec.ofInt 64 (x.toInt * y.toNat / 2 ^ 64)) ∧ mul .mulhu (BitVec.ofNat 64 (x.toNat * y.toNat / 2 ^ 64)) ∧
    mul .mulw ((BitVec.ofInt 32 (x'.toInt * y'.toInt)).signExtend 64) ∧
    (y = 0 → div .div (BitVec.allOnes 64) ∧ div .divu (BitVec.allOnes 64) ∧ div .rem x ∧ div .remu x) ∧
    (y' = 0 → div .divw (BitVec.allOnes 64) ∧ div .divuw (BitVec.allOnes 64) ∧ div .remw (x'.signExtend 64) ∧ div .remuw (x'.signExtend 64)) ∧
    (y ≠ 0 → div .div (BitVec.ofInt 64 (x.toInt.tdiv y.toInt)) ∧ div .divu (BitVec.ofNat 64 (x.toNat / y.toNat)) ∧
      div .rem (BitVec.ofInt 64 (x.toInt.tmod y.toInt)) ∧ div .remu (BitVec.ofNat 64 (x.toNat % y.toNat))) ∧
    (y' ≠ 0 → div .divw ((BitVec.ofInt 32 (x'.toInt.tdiv y'.toInt)).signExtend 64) ∧
      div .divuw ((BitVec.ofNat 32 (x'.toNat / y'.toNat)).signExtend 64) ∧
      div .remw ((BitVec.ofInt 32 (x'.toInt.tmod y'.toInt)).signExtend 64) ∧
      div .remuw ((BitVec.ofNat 32 (x'.toNat % y'.toNat)).signExtend 64)))

/-- Jumps and branches complete (R61, R107): the link is pc + 4; a target that is not a multiple of 4 raises cause 0 with the target at
the transfer, and a branch that is not taken goes on. -/
def Obligations.TransfersGoToAlignedTargets : Prop :=
  ∀ (s : State) (h : Hart) (rd a b : XR) (imm off12 : BitVec 12) (off20 : BitVec 20) (c : BranchKind),
    let x := rx h a
    let y := rx h b
    let jal := h.pc + off20.signExtend 64 * 2
    let jalr := (x + imm.signExtend 64) &&& ~~~ 1
    let br := h.pc + off12.signExtend 64 * 2
    let taken : Prop := match c with
      | .beq => x = y | .bne => x ≠ y | .blt => x.toInt < y.toInt | .bge => y.toInt ≤ x.toInt
      | .bltu => x.toNat < y.toNat | .bgeu => y.toNat ≤ x.toNat
    let traps (op : IntOp) (t : Word) : Prop := Runs s h (.integerOp op) → exec (.integerOp op) s = .next (trapAt s s.cur h 0 t)
    (jal &&& 3 = 0 → CompletesX s h (.integerOp (.jal rd off20)) rd (h.pc + 4) jal) ∧
    (jalr &&& 3 = 0 → CompletesX s h (.integerOp (.jalr rd a imm)) rd (h.pc + 4) jalr) ∧
    (taken → br &&& 3 = 0 → CompletesX s h (.integerOp (.branch c a b off12)) 0 0 br) ∧
    (¬ taken → CompletesX s h (.integerOp (.branch c a b off12)) 0 0 (h.pc + 4)) ∧
    (jal &&& 3 ≠ 0 → traps (.jal rd off20) jal) ∧ (jalr &&& 3 ≠ 0 → traps (.jalr rd a imm) jalr) ∧
    (taken → br &&& 3 ≠ 0 → traps (.branch c a b off12) br)

/-- THE FRAME of the instructions that touch nothing but their hart's registers (mask logic, the mask stack, integer computation,
multiply and divide, `tmaddr`, `bst`, `bend`, `frrd`, `pause`), when they trap too: every other hart, every byte of every store,
every device register, and of their own hart the vector registers, tensor maps, flags and modes of the engines stand. -/
def Obligations.RegisterInstructionsTouchNothingElse : Prop :=
  ∀ (s t : State) (i : Instr) (h : Hart), isRegisterOnly i = true → hartAt s s.cur = some h → exec i s = .next t →
    sameBytes s t ∧ (∀ k, k ≠ s.cur → hartAt t k = hartAt s k) ∧ t.regs = s.regs ∧ t.work = s.work ∧ t.cores = s.cores ∧
    t.clock = s.clock ∧ t.net = s.net ∧ t.xl = s.xl ∧
    ∃ g, hartAt t s.cur = some g ∧ g.v = h.v ∧ g.tm = h.tm ∧ g.tickets = h.tickets ∧ g.msg = h.msg ∧ g.laneQ = h.laneQ ∧
      g.l.lfrm = h.l.lfrm ∧ g.l.lflags = h.l.lflags ∧ g.l.ftz = h.l.ftz ∧ g.id = h.id

/-! ## Waits, fences, barriers, ends and the ring (02, 04) -/

/-- R107, R120 to R122, R126, R281: the waits complete at once when what they wait for is there, and stand in their wait state until then;
`pause` makes the hart not ready for 64 clk. -/
def Obligations.WaitsCompleteOrStand : Prop :=
  ∀ (s : State) (h : Hart) (a : XR) (e : BitVec 4),
    let on (i : Instr) : Prop := Runs s h i → exec i s = .next (setHart s s.cur (adv s s.cur h 4))
    let stands (i : Instr) (w : Wait) : Prop := Runs s h i → exec i s = .next (setHart s s.cur { h with wait := some w })
    (h.id.handler = false → h.msg.inbox ≠ [] → on .hwmsg) ∧
    ((rx h a).toNat ≤ s.clock.time → on (.hwtime a)) ∧ (s.clock.time < (rx h a).toNat → stands (.hwtime a) (.hwtime (rx h a).toNat)) ∧
    (h.mode ≠ .u → effMip h ≠ 0 → on .wfi) ∧ (h.mode ≠ .u → effMip h = 0 → stands .wfi .wfi) ∧
    (Runs s h .pause → exec .pause s = .next (setHart s s.cur { adv s s.cur h 4 with notReady := slotClk s s.cur + 64 })) ∧
    (resvOf s h = none → on .wrsNto ∧ on .wrsSto) ∧
    (∀ line p, resvOf s h = some (line, p) → (coreAt s (coreOfSlot s.cur)).monitors.length < 64 →
      let waits (i : Instr) (u : Option Nat) : Prop := Runs s h i →
        exec i s = .next (updCore (setHart s s.cur { h with wait := some (.wrs line u) }) (coreOfSlot s.cur) fun c =>
          { c with monitors := c.monitors ++ [⟨h.id.uid, line⟩] })
      waits .wrsNto none ∧ waits .wrsSto (some (slotClk s s.cur + 1800))) ∧
    (h.id.handler = false → hdrainDone s h e = true → on (.hdrain e)) ∧
    (h.id.handler = true → hdrainDone s h e = true → Runs s h (.hdrain e) →
      let t := setHart s s.cur (adv s s.cur h 4)
      exec (.hdrain e) s = .next (if e.getLsbD 1 then acquireAt t s.cur .system else t)) ∧
    (hdrainDone s h e = false → Runs s h (.hdrain e) → exec (.hdrain e) s = .next s)

/-- R10, R46, R51, R107, R296, R325: the fences complete once what they order has performed: FENCE and `xfence` as releases where they precede
writes, as acquires that clear the lane L1 where they precede reads, and that observe what is visible to the die (R47); FENCE.I removes
the ASID's instruction lines; SFENCE.VMA sends a shoot-down and waits for it. R46, R47: FENCE waits: while lane work is undone, or with
writes before it while a store of the hart has not performed, the state does not change. -/
def Obligations.FencesCompleteWhenEarlierWorkPerformed : Prop :=
  (∀ (s : State) (h : Hart) (fm p q : BitVec 4) (rd rs1 a b : XR) (imm : BitVec 12) (o : Eops),
    let core := coreOfSlot s.cur
    (laneDrained h = true → storesDone s h.id.uid .device = true → hostPending s h.id.uid = false →
      (fm ≠ 0 → Runs s h (.fence fm p q rd rs1) → exec (.fence fm p q rd rs1) s =
        .next (acquireAt (setHart s s.cur (adv s s.cur (releaseDeps s h .device) 4)) s.cur .device)) ∧
      (fm = 0 → fiom s s.cur h = false → Runs s h (.fence fm p q rd rs1) →
        let t := setHart s s.cur (adv s s.cur (if q &&& 5 = 0 then h else releaseDeps s h .device) 4)
        exec (.fence fm p q rd rs1) s = .next (if p.getLsbD 1 = false ∨ q &&& 3 = 0 then t
          else if q.getLsbD 1 then acquireAt t s.cur .device else observeDie t s.cur))) ∧
    (laneDrained h = true → storesDone s h.id.uid .device = true → Runs s h (.fenceI imm rd rs1) → exec (.fenceI imm rd rs1) s =
      .next (updCore (setHart s s.cur (adv s s.cur h 4)) core fun c => { c with icache := c.icache.filter fun l => l.1 / 2 ^ 40 != h.id.asid })) ∧
    (laneDrained h = true → performedAt s h (scopeOf o.ks) = true →
      let t := setHart s s.cur (adv s s.cur (releaseDeps s h (scopeOf o.ks)) 8)
      let after : Host.Outcome State Fault Refusal := .next (acquireAt t s.cur (scopeOf o.ks))
      (Runs s h (.xfence o) → exec (.xfence o) s = after) ∧
      (dieStoresDone s (dieOfSlot s.cur) = true → Runs s h (.xfenceSc o) → exec (.xfenceSc o) s = after) ∧
      (scopeOf o.ks = .team ∨ scopeOf o.ks = .die → Runs s h (.xfenceSc o) → exec (.xfenceSc o) s = after)) ∧
    (writerPending h = false → storesDone s h.id.uid .device = true → (h.mode = .m ∨ (h.mode = .s ∧ wbit h.s.mstatus msTVM = false)) → Runs s h (.sfenceVma a b) →
      let dies := (List.range 4).filter fun d => dieState s d != 2
      let va := if a = 0 then none else some (vpnOf (rx h a))
      let asid := if b = 0 then none else some ((rx h b).toNat % 2 ^ 16)
      let shoot : Shoot := ⟨s.nextUid, h.id.uid, va, asid, dies⟩
      exec (.sfenceVma a b) s = .next (setHart (updXl { s with nextUid := s.nextUid + 1 } fun x => { x with shoots := x.shoots ++ [shoot] })
        s.cur { h with wait := some (.shoot s.nextUid) }))) ∧
  (∀ (s : State) (h : Hart) (fm p q : BitVec 4) (rd rs1 : XR) (o : Eops),
    (Runs s h (.fence fm p q rd rs1) → (laneDrained h = false ∨ ((fm ≠ 0 ∨ p.getLsbD 0 = true) ∧ storesDone s h.id.uid .device = false)) →
      exec (.fence fm p q rd rs1) s = .next s) ∧
    (Runs s h (.xfence o) → (laneDrained h = false ∨ performedAt s h (scopeOf o.ks) = false) → exec (.xfence o) s = .next s) ∧
    (∀ imm, Runs s h (.fenceI imm rd rs1) → (laneDrained h = false ∨ storesDone s h.id.uid .device = false) →
      exec (.fenceI imm rd rs1) s = .next s))

/-- R123 to R125: arriving takes a ticket with the phase and counts; the last arrival turns the phase, empties the barrier, and ends every
wait on it in the same step; `bar.sync` then goes on, or waits in its second phase; a wait passes when the phase has turned, uses the
ticket up, and is an acquire. R110, R124, R125: BARRIER_FAULT, cause 28, with the barrier's number and the reason: a count of 0 or above
the team's size, a count that differs from the barrier's, a second arrival in a phase, a wait without a ticket. -/
def Obligations.BarriersArrivePassAndFault : Prop :=
  (∀ (s : State) (h : Hart) (tm : Team) (a : XR) (n : BitVec 4),
    h.id.handler = false → tget s.work.teams h.id.team = some tm →
    let b := barAt tm n
    let c := (rx h a).toNat
    let last := b.count + 1 = c
    let tm' := setBar tm n (if last then ⟨0, 0, !b.p, 0⟩ else ⟨c, b.count + 1, b.p, Nat.lor b.arrived (2 ^ h.id.hidx)⟩)
    let h' := setTicket h n ⟨true, b.p⟩
    let all (u : State) : State := if last then (barWaiters (updTeam u h.id.team fun _ => tm') h.id.team n).foldl
      (fun u p => passBarrier u p.1 p.2 n) (updTeam u h.id.team fun _ => tm') else updTeam u h.id.team fun _ => tm'
    let passed (g : Hart) (u : State) : State :=
      observeDie (setHart u s.cur (adv u s.cur (setTicket { g with syncw := false, wait := none } n { ticketAt g n with valid := false }) 4)) s.cur
    let stands (u : State) (g : Hart) : State := setHart u s.cur { g with wait := some (.bar n) }
    (1 ≤ c → c ≤ h.id.size → (b.e = 0 ∨ b.e = c) → ¬ ((ticketAt h n).valid = true ∧ (ticketAt h n).phase = b.p) →
      laneDrained h = true → performedAt s h .team = true →
      (Runs s h (.barArrive a n) → exec (.barArrive a n) s = .next (all (setHart s s.cur (adv s s.cur h' 4)))) ∧
      (Runs s h (.barSync a n) → h.syncw = false →
        exec (.barSync a n) s = .next (if last then passed h' (all (setHart s s.cur h')) else stands (all (setHart s s.cur h')) { h' with syncw := true }))) ∧
    (Runs s h (.barSync a n) → h.syncw = true → b.p ≠ (ticketAt h n).phase → exec (.barSync a n) s = .next (passed h s)) ∧
    (Runs s h (.barSync a n) → h.syncw = true → b.p = (ticketAt h n).phase → exec (.barSync a n) s = .next (stands s h)) ∧
    (Runs s h (.barWait n) → (ticketAt h n).valid = true → b.p ≠ (ticketAt h n).phase → exec (.barWait n) s = .next (passed h s)) ∧
    (Runs s h (.barWait n) → (ticketAt h n).valid = true → b.p = (ticketAt h n).phase → exec (.barWait n) s = .next (stands s h))) ∧
  (∀ (s : State) (h : Hart) (tm : Team) (a : XR) (n : BitVec 4),
    h.id.handler = false → tget s.work.teams h.id.team = some tm →
    let b := barAt tm n
    let c := (rx h a).toNat
    let faults (i : Instr) (reason : Nat) : Prop := Runs s h i →
      exec i s = .next (trapAt s s.cur h 28 (BitVec.ofNat 64 (n.toNat + 16 * reason)))
    ((c = 0 ∨ h.id.size < c) → faults (.barArrive a n) 1 ∧ (h.syncw = false → faults (.barSync a n) 1)) ∧
    (1 ≤ c → c ≤ h.id.size → b.e ≠ 0 → b.e ≠ c → faults (.barArrive a n) 2 ∧ (h.syncw = false → faults (.barSync a n) 2)) ∧
    (1 ≤ c → c ≤ h.id.size → (b.e = 0 ∨ b.e = c) → (ticketAt h n).valid = true → (ticketAt h n).phase = b.p →
      faults (.barArrive a n) 3 ∧ (h.syncw = false → faults (.barSync a n) 3)) ∧
    ((ticketAt h n).valid = false → faults (.barWait n) 4))

/-- R127 to R130, R270, R413, R414: a kernel hart's `hexit` and a handler's `hret` end the hart once the drain of every engine is
done; `hyield` goes on, ends the run of a team and its gang in the team's yield window, and after the window waits for the capture; `gwait` gives a retired child's status and releases its number, or
all ones; `glaunch` sends the checked descriptor to the front end and goes on with its reply outstanding. -/
def Obligations.EndsYieldsAndChildGridsComplete : Prop :=
  ∀ (s : State) (h0 : Hart) (d a : XR),
    let k := s.cur
    let h (i : Instr) : Hart := entered h0 i
    (Runs s h0 .hexit → h0.id.handler = false → h0.mode = .u → hdrainDone s (h .hexit) 0xF = true →
      exec .hexit s = .next (setHart s k { retire s k (h .hexit) with ending := true })) ∧
    (Runs s h0 .hret → h0.id.handler = true → h0.mode = .u → hdrainDone s (h .hret) 0xF = true → h0.msg.rplDue = false →
      exec .hret s = .next (setHart s k { retire s k (h .hret) with ending := true, msg := { h0.msg with rplDue := false } })) ∧
    (Runs s h0 .hret → h0.id.handler = true → h0.mode = .u → hdrainDone s (h .hret) 0xF = true → h0.msg.rplDue = true →
      liveSeen s (h .hret) = [] →
      let t := sendReply s k (h .hret) h0.l.nseq (BitVec.allOnes 64) (BitVec.allOnes 64)
      exec .hret s = .next (setHart t k { retire t k (h .hret) with ending := true, msg := { h0.msg with rplDue := false } })) ∧
    (Runs s h0 .hyield → yieldWindow s (h .hyield) = none →
      exec .hyield s = .next (setHart s k { adv s k (h .hyield) 4 with notReady := slotClk s k + 1 })) ∧
    (∀ e, Runs s h0 .hyield → yieldWindow s (h .hyield) = some e → e < slotClk s k → exec .hyield s = .next s) ∧
    (∀ e, Runs s h0 .hyield → yieldWindow s (h .hyield) = some e → slotClk s k ≤ e →
      exec .hyield s = .next (bumpReg (forceAll (setHart s k (adv s k (h .hyield) 4)) h0.id.team) cntCoop 63 1)) ∧
    (Runs s h0 (.gwait d a) → h0.id.handler = false → childOf s h0.id.team (rx h0 a).toNat = none →
      exec (.gwait d a) s = .next (setHart s k (adv s k (wx h0 d (BitVec.allOnes 64)) 4))) ∧
    (∀ g gr, Runs s h0 (.gwait d a) → h0.id.handler = false → childOf s h0.id.team (rx h0 a).toNat = some (g, gr) → gr.retired = true →
      exec (.gwait d a) s = .next (acquireAt (setHart (forgetGrid s g) k (adv s k (wx h0 d (BitVec.ofNat 64 gr.status)) 4)) k .device)) ∧
    (∀ g gr, Runs s h0 (.gwait d a) → h0.id.handler = false → childOf s h0.id.team (rx h0 a).toNat = some (g, gr) → gr.retired = false →
      exec (.gwait d a) s = .next s) ∧
    (∀ s1 s2 s3 pa c bs ids g, Runs s h0 (.glaunch d a) → h0.id.handler = false → h0.id.hidx = 0 → h0.mode = .u → h0.parts = [] →
      (rx h0 a).toNat % 64 = 0 → writerPending (h (.glaunch d a)) = false →
      xlateHart (setHart s k (h (.glaunch d a))) k (h (.glaunch d a)) (rx h0 a) .load = (.ok (.hbm pa c), s1) →
      readHbm s1 (dieOfSlot k) h0.id.uid pa 64 c = some (bs, ids, s2) →
      s3 = updHart (if c then noteDcache s2 (coreOfSlot k) (linesOf pa 64) else s2) k (fun x => { sawEarly x ids with parts := [] }) →
      hartAt s3 k = some g → descBad bs none = none →
      exec (.glaunch d a) s = .next (goPending (updFe { s3 with nextUid := s3.nextUid + 1 } fun x =>
        { x with greqs := x.greqs ++ [(⟨g.id.uid, k, s3.nextUid, g.id.team, bs⟩ : GReq)] })
        k g 4 d s3.nextUid (rx h0 a) none))

/-- R132, R133, R153: `bst` snapshots the x and m registers and the mask stack and notes the pc after it, `bend` closes the region;
`frrd` reads a word of a ring entry; `frrep` re-forwards every HELD entry in order; `frdrop` makes a HELD one DONE; a number that names
no entry raises RING_FAULT, cause 29. -/
def Obligations.BastingAndRingInstructionsComplete : Prop :=
  ∀ (s : State) (h : Hart) (d a : XR) (kk : BitVec 2) (e : Entry),
    (h.snap.isSome → regionChecked h = true) →
    (Runs s h .bst → ∃ g, exec .bst s = .next (setHart s s.cur g) ∧ g.snap = some ⟨h.x, h.m, h.stk, h.dep⟩ ∧ g.l.bstpc = h.pc + 4 ∧
      g.pc = h.pc + 4 ∧ g.x = h.x ∧ g.m = h.m ∧ g.stk = h.stk ∧ g.dep = h.dep ∧ g.v = h.v ∧ g.tm = h.tm ∧
      g.ring = (closeRegion h).ring) ∧
    (Runs s h .bend → ∃ g, exec .bend s = .next (setHart s s.cur g) ∧ g.snap = none ∧ g.pc = h.pc + 4 ∧ g.x = h.x ∧ g.m = h.m ∧
      g.stk = h.stk ∧ g.dep = h.dep ∧ g.v = h.v ∧ g.tm = h.tm ∧ g.l = h.l) ∧
    ((rx h a).toNat < 65536 → entryAt h (rx h a).toNat = some e → CompletesX s h (.frrd d a kk) d (ringWord e kk.toNat) (h.pc + 4) ∧
      (h.mode = .s → e.st = .held → Runs s h (.frdrop a) →
        exec (.frdrop a) s = .next (dropEffect s s.cur (adv s s.cur (updEntry h e.seq fun e => { e with st := .done, await := false }) 4) e)) ∧
      (h.mode = .s → e.st ≠ .held → Runs s h (.frdrop a) → exec (.frdrop a) s = .next (trapAt s s.cur h 29 (rx h a)))) ∧
    ((65536 ≤ (rx h a).toNat ∨ entryAt h (rx h a).toNat = none) →
      (Runs s h (.frrd d a kk) → exec (.frrd d a kk) s = .next (trapAt s s.cur h 29 (rx h a))) ∧
      (h.mode = .s → Runs s h (.frdrop a) → exec (.frdrop a) s = .next (trapAt s s.cur h 29 (rx h a)))) ∧
    (h.mode = .s → Runs s h .frrep →
      exec .frrep s = .next (setHart s s.cur (adv s s.cur (((ringOldest h).filter fun e => e.st == .held).foldl requeue h) 4)))

/-! ## Scalar memory accesses (02, 04, 10) -/

/-- R45, R107, R136, R139, R261: a scalar load of one part that is not held back completes: from HBM and from the core's own window with the
extended bytes, or, where the load has been performed ahead, with the bytes that it returned then; from the host and from the device
registers with a reply outstanding; from another core's window of the tenant by a wait; one outside the tenant traps. -/
def Obligations.ScalarLoadsComplete : Prop :=
  ∀ (s s1 : State) (h : Hart) (kd : LoadKind) (rd rs1 : XR) (imm : BitVec 12),
    let k := s.cur
    let a := rx h rs1 + imm.signExtend 64
    let n := match kd with
      | .lb | .lbu => 1 | .lh | .lhu => 2 | .lw | .lwu => 4 | .ld => 8
    let sg := match kd with
      | .lb | .lh | .lw => true | _ => false
    let i : Instr := .scalarLoad kd rd rs1 imm
    let value (bs : List Byte) : Word := match kd with
      | .lb => (BitVec.ofNat 8 (leNat bs)).signExtend 64 | .lh => (BitVec.ofNat 16 (leNat bs)).signExtend 64
      | .lw => (BitVec.ofNat 32 (leNat bs)).signExtend 64 | _ => BitVec.ofNat 64 (leNat bs)
    let done (t : State) (ids : List Nat) (bs : List Byte) : State :=
      let u := updHart t k fun x => { sawEarly x ids with parts := [] }
      updHart u k fun x => adv u k (wx x rd (value bs)) 4
    Runs s h i → writerPending h = false → laneReads h a n = false → a.toNat % 4096 + n ≤ 4096 → h.parts = [] →
    (∀ pa c, xlateHart s k h a .load = (.ok (.hbm pa c), s1) →
      let g : Hart := { h with ahead := h.ahead.filter fun z => z.rs != rd && !(linesOf pa n).any fun l => (linesOf z.pa z.bytes.length).contains l }
      (∀ bs ids s2, aheadFor h rs1 a pa n = none → readHbm (setHart s1 k g) (dieOfSlot k) h.id.uid pa n c = some (bs, ids, s2) →
        bs.length = n → exec i s = .next (done (if c then noteDcache s2 (coreOfSlot k) (linesOf pa n) else s2) ids bs)) ∧
      (∀ z, aheadFor h rs1 a pa n = some z → exec i s = .next (setHart s1 k (adv s1 k (wx (sawEarly g z.ids) rd (value z.bytes)) 4)))) ∧
    (∀ w off, xlateHart s k h a .load = (.ok (.win (coreOfSlot k) w off), s1) → winState s1 (coreOfSlot k) w h.id.asid = .open_ →
      exec i s = .next (done s1 [] (readWin s1 (coreOfSlot k) w off n))) ∧
    (∀ port asid addr, xlateHart s k h a .load = (.ok (.host port asid addr), s1) → ioWaits s1 h [(a, n, .host port asid addr)] = false →
      hostOpen s1 port = true → exec i s = .next (goPending (hostSend { s1 with nextUid := s1.nextUid + 1 } port asid h.id.uid addr n none sg
        (.xreg h.id.uid s1.nextUid)) k h 4 rd s1.nextUid a none)) ∧
    (∀ pa v s2, xlateHart s k h a .load = (.ok (.mmio pa), s1) → ioWaits s1 h [(a, n, .mmio pa)] = false → paFree s1 pa 0 = true → mmioLoad s1 pa n = some (v, s2) →
      exec i s = .next (goPending (pushReply { s2 with nextUid := s2.nextUid + 1 } h.id.uid s2.nextUid (extend sg (leBytes n v)))
        k h 4 rd s2.nextUid a none)) ∧
    (∀ core w off, core ≠ coreOfSlot k → xlateHart s k h a .load = (.ok (.win core w off), s1) →
      exec i s = .next (if inTenant s1 h.id.tenant core then awaitWin s1 k h a core w off n .load sg rd.toNat else trapAt s1 k h 5 a)) ∧
    (∀ c, xlateHart s k h a .load = (.fault c, s1) → exec i s = .next (trapAt s1 k h (causeOf .load c) a))

/-- R107, R110, R151: a scalar store of one part that is not held back completes: to HBM as a request of its home at the computed address, to
the core's own window in place, to another core's of the tenant by a message, to the host as a posted write; a translation fault stores
nothing. THE FRAME of scalar stores: one that completes in the core's own window changes no byte of any store but the n bytes of the
window at the translated offset; one to HBM changes none (its home writes them later), one to the host only the n bytes at the host's
address. -/
def Obligations.ScalarStoresCompleteAndWriteTheirBytes : Prop :=
  (∀ (s s1 : State) (h0 : Hart) (kd : StoreKind) (rs1 rs2 : XR) (imm : BitVec 12),
    let k := s.cur
    let i : Instr := .scalarStore kd rs1 rs2 imm
    let h := entered h0 i
    let a := rx h rs1 + imm.signExtend 64
    let n := match kd with
      | .sb => 1 | .sh => 2 | .sw => 4 | .sd => 8
    let bs := leBytes n (rx h rs2).toNat
    let on (t : State) : State := updHart t k fun x => adv t k x 4
    let place (l : Loc) : Prop := xlateHart (setHart s k h) k h a .store = (.ok l, s1)
    Runs s h0 i → memPending h = false → a.toNat % 4096 + n ≤ 4096 →
    (∀ pa c, place (.hbm pa c) → movedOut s1 h.id.uid = false →
      exec i s = .next (on (pushStore (if c then noteDcache s1 (coreOfSlot k) (linesOf pa n) else s1) k h pa c bs))) ∧
    (∀ w off, place (.win (coreOfSlot k) w off) → mayLeave s1 h (.win (coreOfSlot k) w off) = true →
      (winState s1 (coreOfSlot k) w h.id.asid = .open_ → exec i s = .next (on (writeWin s1 (coreOfSlot k) w off h.id.uid bs))) ∧
      (winState s1 (coreOfSlot k) w h.id.asid = .closed → exec i s = .next (on (updHart s1 k fun x => countDrop x 1)))) ∧
    (∀ core w off, core ≠ coreOfSlot k → place (.win core w off) → inTenant s1 h.id.tenant core = true →
      mayLeave s1 h (.win core w off) = true → exec i s = .next (on (sendWin s1 h a (dataMode h) core w off n .store bs false .none))) ∧
    (∀ core w off, core ≠ coreOfSlot k → place (.win core w off) → inTenant s1 h.id.tenant core = false → exec i s = .next (trapAt s1 k h 7 a)) ∧
    (∀ port asid addr, place (.host port asid addr) → hostOpen s1 port = true → mayLeave s1 h (.host port asid addr) = true →
      exec i s = .next (on (hostWrite s1 addr bs))) ∧
    (∀ c, xlateHart (setHart s k h) k h a .store = (.fault c, s1) → exec i s = .next (trapAt s1 k h (causeOf .store c) a))) ∧
  (∀ (s s1 t : State) (h0 : Hart) (kd : StoreKind) (rs1 rs2 : XR) (imm : BitVec 12),
    let k := s.cur
    let i : Instr := .scalarStore kd rs1 rs2 imm
    let h := entered h0 i
    let a := rx h rs1 + imm.signExtend 64
    let n := storeSize kd
    let place (l : Loc) : Prop := xlateHart (setHart s k h) k h a .store = (.ok l, s1)
    Runs s h0 i → memPending h = false → a.toNat % 4096 + n ≤ 4096 → exec i s = .next t →
    (∀ pa c, place (.hbm pa c) → sameBytes s1 t) ∧
    (∀ w off, place (.win (coreOfSlot k) w off) →
      (∀ b, b < winKey (coreOfSlot k) w off ∨ winKey (coreOfSlot k) w off + n ≤ b → rd8 t.tstore b = rd8 s1.tstore b) ∧
      t.mem.hbm = s1.mem.hbm ∧ t.mem.host = s1.mem.host ∧ t.tiles = s1.tiles) ∧
    (∀ port asid addr, place (.host port asid addr) → (∀ b, b < addr ∨ addr + n ≤ b → rd8 t.mem.host b = rd8 s1.mem.host b) ∧
      t.mem.hbm = s1.mem.hbm ∧ t.tstore = s1.tstore ∧ t.tiles = s1.tiles))

/-- R131, R211: `tmaddr` completes with the address of the coordinates when the descriptor is valid and they lie within it, and raises
TMAP_FAULT, cause 30, with the coordinate word otherwise. R131: `tmld` reads 128 bytes at an aligned address into a tm register, `tmst`
writes one; a misaligned address raises cause 4 or 6 with the address. -/
def Obligations.TensorMapInstructionsComplete : Prop :=
  (∀ (s : State) (h : Hart) (d : XR) (a : MR) (b : XR),
    let t := rtm h a
    let c (i : Nat) : Nat := (rx h b).toNat / 2 ^ (16 * i) % 2 ^ 16
    let inside : Prop := ∀ i, i < 4 → if i < tmRank t then c i < tmSize t i else c i = 0
    let term (i : Nat) : Nat := if i < tmRank t then c i * tmStride t i else 0
    (tmValid t = true → inside →
      CompletesX s h (.tmaddr d a b) d (BitVec.ofNat 64 (tmBase t + (term 0 + term 1 + term 2 + term 3))) (h.pc + 4)) ∧
    ((tmValid t = false ∨ ¬ inside) → Runs s h (.tmaddr d a b) → exec (.tmaddr d a b) s = .next (trapAt s s.cur h 30 (rx h b)))) ∧
  (∀ (s s1 : State) (h0 : Hart) (d : MR) (a : XR) (imm : BitVec 12),
    let k := s.cur
    let va := rx h0 a + imm.signExtend 64
    let ld : Instr := .tmld d a imm
    let st : Instr := .tmst d a imm
    let h := entered h0 st
    (va.toNat % 128 = 0 → Runs s h0 ld → writerPending h0 = false → laneReads h0 va 128 = false → tmLocked h0 d = false → h0.parts = [] →
      (∀ pa c bs ids s2, xlateHart s k h0 va .load = (.ok (.hbm pa c), s1) → readHbm s1 (dieOfSlot k) h0.id.uid pa 128 c = some (bs, ids, s2) →
        let u := updHart (if c then noteDcache s2 (coreOfSlot k) (linesOf pa 128) else s2) k fun x => { sawEarly x ids with parts := [] }
        exec ld s = .next (updHart u k fun x => adv u k (wtm x d (BitVec.ofNat 1024 (leNat bs))) 4))) ∧
    (va.toNat % 128 = 0 → Runs s h0 st → memPending h = false →
      (∀ pa c, xlateHart (setHart s k h) k h va .store = (.ok (.hbm pa c), s1) → movedOut s1 h.id.uid = false →
        let u := pushStore (if c then noteDcache s1 (coreOfSlot k) (linesOf pa 128) else s1) k h pa c (leBytes 128 (rtm h0 d).toNat)
        exec st s = .next (updHart u k fun x => adv u k x 4))) ∧
    (va.toNat % 128 ≠ 0 → (Runs s h0 ld → exec ld s = .next (trapAt s k h0 4 va)) ∧ (Runs s h0 st → exec st s = .next (trapAt s k h 6 va))))

/-- R107, R297: LR at the home reads the bytes and holds a reservation on the line; SC in the core's own window stores and gives 0 while
the reservation stands, gives 1 otherwise, and ends it; SC to HBM asks the home. -/
def Obligations.LoadReservedAndStoreConditionalComplete : Prop :=
  ∀ (s s1 : State) (h0 : Hart) (dbl aq rl : Bool) (rd rs1 rs2 : XR),
    let k := s.cur
    let n := if dbl then 8 else 4
    let va := rx h0 rs1
    let lr : Instr := .lr dbl aq rl rd rs1
    let sc : Instr := .sc dbl aq rl rd rs1 rs2
    let h := entered h0 sc
    let g := releaseIf s h rl .device
    let acq : Option Scope := if aq then some .device else none
    va.toNat % n = 0 →
    (∀ pa c bs s2, Runs s h0 lr → writerPending h0 = false → laneReads h0 va n = false → orderedAt s h0 aq rl .device = true →
      xlateHart s k h0 va .load = (.ok (.hbm pa c), s1) → ((ownStores s1 h0.id.uid).any fun r => lineOf r.pa == lineOf pa) = false →
      readHome s1 pa n = some (bs, s2) →
      let u := reserve (updHart s2 k fun x => releaseIf s2 x rl .device) h0.id.uid (lineOf pa) (.home (homeOf pa))
      exec lr s = .next (acqIf (updHart u k fun x => adv u k (wx x rd (extend (!dbl) bs)) 4) k acq)) ∧
    (Runs s h0 sc → memPending h = false → orderedAt s h aq rl .device = true →
      (∀ w off, xlateHart (setHart s k g) k g va .store = (.ok (.win (coreOfSlot k) w off), s1) →
        mayLeave s1 g (.win (coreOfSlot k) w off) = true →
        let line := winLine (coreOfSlot k) w off
        let held := winState s1 (coreOfSlot k) w g.id.asid == .open_ &&
          (tgetD s1.mem.resvStore (coreOfSlot k) []).any fun r => r.uid == g.id.uid && r.line == line
        let freed := updHart (delResv s1 g.id.uid) k fun x => { x with resv := none }
        let u := if held then writeWin freed (coreOfSlot k) w off g.id.uid (leBytes n (rx h0 rs2).toNat) else freed
        exec sc s = .next (acqIf (updHart u k fun x => adv u k (wx x rd (if held then 0 else 1)) 4) k acq)) ∧
      (∀ pa c, xlateHart (setHart s k g) k g va .store = (.ok (.hbm pa c), s1) →
        let q : HomeReq := { id := s1.nextUid + 1, die := dieOfSlot k, core := coreOfSlot k, uid := g.id.uid, asid := g.id.asid, pa := pa,
                             kind := .sc, data := leBytes n (rx h0 rs2).toNat, reply := .xreg g.id.uid s1.nextUid, sx := false, deps := g.deps }
        exec sc s = .next (goPending (pushReq { s1 with nextUid := s1.nextUid + 1 + 1 } q) k g 4 rd s1.nextUid va acq)))

/-- R293 to R295, R297: AMOs and scoped atomics complete: in the core's own window with the old value and the operation's result in the
window, in HBM by a request where R294 has it, with the reply outstanding; a misaligned address raises cause 6. R172, R293: what each
operation of an atomic makes of the old value and the operands, on n bytes. -/
def Obligations.AtomicsCompleteAndCompute : Prop :=
  (∀ (s s1 : State) (h0 : Hart) (i : Instr) (x : Atom),
    let k := s.cur
    let h := entered h0 i
    let amo (kd : AmoKind) (dbl aq rl : Bool) (rd rs1 rs2 : XR) : Prop :=
      i = .amo kd dbl aq rl rd rs1 rs2 ∧ x = ⟨4, (amoCode kd).1, if dbl then 8 else 4, (amoCode kd).2, !dbl,
        (rx h0 rs2).toNat % 2 ^ (8 * (if dbl then 8 else 4)), 0, .device, aq, rl, rd, rx h0 rs1⟩
    let xamo (o : Eops) (aq rl : Bool) : Prop :=
      (match aq, rl with
        | false, false => i = .xamo o | true, false => i = .xamoAq o | false, true => i = .xamoRl o | true, true => i = .xamoAqrl o) ∧
      x = ⟨8, o.rnd.toNat, iWidth o.fmt / 8, iSigned o.fmt, iSigned o.fmt && iWidth o.fmt / 8 == 4,
        (rx h0 (xreg o.vs2)).toNat % 2 ^ (8 * (iWidth o.fmt / 8)), (rx h0 (xreg o.vs3)).toNat % 2 ^ (8 * (iWidth o.fmt / 8)),
        scopeOf o.ks, aq, rl, xreg o.vd, rx h0 (xreg o.vs1)⟩
    ((∃ kd dbl aq rl rd rs1 rs2, amo kd dbl aq rl rd rs1 rs2) ∨ ∃ o aq rl, xamo o aq rl) →
    let g := releaseIf s h x.rl x.sc
    let acq : Option Scope := if x.aq then some x.sc else none
    Runs s h0 i → (x.va.toNat % x.bytes ≠ 0 → exec i s = .next (trapAt s k h 6 x.va)) ∧
    (x.va.toNat % x.bytes = 0 → memPending h = false → orderedAt s h x.aq x.rl x.sc = true →
      (∀ pa c, xlateHart (setHart s k g) k g x.va .amo = (.ok (.hbm pa c), s1) →
        exec i s = .next (goPending (pushAtomic { s1 with nextUid := s1.nextUid + 1 } k g pa
          (hbmAtomicKind c x.sc x.op x.bytes x.signed x.val x.cmp) x.sx (.xreg g.id.uid s1.nextUid)) k g x.len x.dest s1.nextUid x.va acq)) ∧
      (∀ w off, xlateHart (setHart s k g) k g x.va .amo = (.ok (.win (coreOfSlot k) w off), s1) →
        mayLeave s1 g (.win (coreOfSlot k) w off) = true → winState s1 (coreOfSlot k) w g.id.asid = .open_ →
        let old := leNat (readWin s1 (coreOfSlot k) w off x.bytes)
        let u := writeWin s1 (coreOfSlot k) w off g.id.uid (leBytes x.bytes (amoNew x.op x.signed x.bytes old x.val x.cmp))
        exec i s = .next (acqIf (updHart u k fun y => adv u k (wx y x.dest (extend x.sx (leBytes x.bytes old))) x.len) k acq)))) ∧
  (∀ (n : Nat) (a b c : BitVec (8 * n)), 0 < n →
    let f (op : Nat) (sg : Bool) : Nat := amoNew op sg n a.toNat b.toNat c.toNat
    (∀ sg, f 0 sg = b.toNat ∧ f 1 sg = (a + b).toNat ∧ f 2 sg = (a &&& b).toNat ∧ f 3 sg = (a ||| b).toNat ∧ f 4 sg = (a ^^^ b).toNat ∧
      f 7 sg = (if a = c then b else a).toNat) ∧
    f 5 false = min a.toNat b.toNat ∧ f 6 false = max a.toNat b.toNat ∧
    f 5 true = (if a.toInt ≤ b.toInt then a else b).toNat ∧ f 6 true = (if b.toInt ≤ a.toInt then a else b).toNat)

/-! ## Forwarding to the engines (04 to 09) -/

/-- R145, R153: a lane compute instruction of groups LI to LP (all of opcode groups 2 to 8) forwards with the execution mask as its word 2,
and the broadcast x register in OPA when its second operand is one. R145, R153, R163 to R175: a lane memory instruction forwards with its
base in OPA, displaced where it has a displacement, its stride in OPB where it has one, and the execution mask as its word 2. R203 to
R206: the reduction instructions forward outside a basting region, `vred.add` with one key at a time, and raise cause 2 otherwise. -/
def Obligations.LaneInstructionsForward : Prop :=
  (∀ (s : State) (h : Hart) (i : Instr) (sh : Shape) (o : Eops), engine? i = some (sh, o) → 2 ≤ sh.grp → sh.grp ≤ 8 →
    ForwardsAs s h i (if sh.vs2 = .b ∧ o.ks = 1 then rx h (xreg o.vs2) else 0) 0 (execMask h o) id) ∧
  (∀ (s : State) (h : Hart) (o : Eops),
    let base := rx h (xreg o.vs1)
    let size := fmtWidth .w o.fmt.toNat / 8
    let disp (unit : Nat) : Word := base + o.vs3.signExtend 64 * BitVec.ofNat 64 unit
    let stride : BitVec 32 := if o.ks = 1 then (rx h (xreg o.vs2)).setWidth 32 else o.vs3.signExtend 32
    let pitch : BitVec 32 := (rx h (xreg o.vs3)).setWidth 32
    let goes (i : Instr) (opa : Word) (opb : BitVec 32) : Prop := ForwardsAs s h i opa opb (execMask h o) id
    goes (.vld o) (disp (64 * size)) 0 ∧ goes (.vst o) (disp (64 * size)) 0 ∧ goes (.vlds o) base stride ∧ goes (.vsts o) base stride ∧
    goes (.vldg o) base 0 ∧ goes (.vstg o) base 0 ∧ goes (.vldt o) (disp size) 0 ∧ goes (.vstt o) (disp size) 0 ∧
    goes (.vldf o) base pitch ∧ goes (.vstf o) base pitch ∧ goes (.vcst o) (disp size) 0 ∧ goes (.vxld o) (disp size) 0 ∧
    goes (.vamo o) base 0 ∧ goes (.vamoAq o) base 0 ∧ goes (.vamoRl o) base 0 ∧ goes (.vamoAqrl o) base 0 ∧ goes (.vpf o) base 0 ∧
    goes (.vfence o) 0 0) ∧
  (∀ (s : State) (h : Hart) (o : Eops),
    let key : Nat × Nat := ((rx h (xreg o.vs1)).toNat % 2 ^ 48, o.fmt.toNat)
    let base := rx h (xreg o.vs1)
    (h.snap = none →
      ForwardsAs s h (.vredOpen o) base (BitVec.ofNat 32 (min (rx h (xreg o.vs3)).toNat (2 ^ 32 - 1))) (topStk h).mask id ∧
      ForwardsAs s h (.vredFlush o) base 0 (topStk h).mask id ∧
      ((openKey s s.cur h = none ∨ openKey s s.cur h = some key) → (h.frag = none ∨ h.frag = some key) →
        ForwardsAs s h (.vredAdd o) base 0 (execMask h o) id)) ∧
    (h.snap = none → ((∃ key', openKey s s.cur h = some key' ∧ key' ≠ key) ∨ ∃ key', h.frag = some key' ∧ key' ≠ key) →
      Runs s h (.vredAdd o) → allocOk h.id.nv h.id.nt (.vredAdd o) = true →
      exec (.vredAdd o) s = .next (trapAt s s.cur h 2 (instrBits (.vredAdd o)))) ∧
    (∀ i, i ∈ [Instr.vredOpen o, .vredAdd o, .vredFlush o] → Runs s h i → h.snap.isSome →
      exec i s = .next (trapAt s s.cur (entered h i) 2 (instrBits i))))

/-- R145, R153, R235 to R246: the matrix instructions forward with their addresses and offsets in OPA, OPB and word 2; the multiplies
need the Oryx revision's arrays, and a drain to the hart itself takes an inbox reservation. -/
def Obligations.MatrixInstructionsForward : Prop :=
  ∀ (s : State) (h : Hart) (o : Eops),
    let a := rx h (xreg o.vs1)
    let goes (i : Instr) (opa : Word) : Prop := ForwardsAs s h i opa 0 0 id
    (h.id.arev ≠ 0 → goes (.mma o) 0 ∧ goes (.mmasp o) 0 ∧ goes (.mmabk o) 0) ∧
    goes (.tzero o) 0 ∧ goes (.tmovv o) 0 ∧ goes (.tmovt o) 0 ∧ goes (.tst o) a ∧ goes (.tld o) a ∧ goes (.twait o) 0 ∧
    (let x := rx h (xreg o.vs3)
     let drains (f : Hart → Hart) : Prop := ForwardsAs s h (.tdrain o) a (x.setWidth 32) x f
     (slotOfHwhere a.toNat ≠ s.cur → drains id) ∧
     (slotOfHwhere a.toNat = s.cur → h.msg.rsv < 16 → drains fun g => { g with msg := { g.msg with rsv := g.msg.rsv + 1 } }) ∧
     (slotOfHwhere a.toNat = s.cur → 16 ≤ h.msg.rsv → allocOk h.id.nv h.id.nt (.tdrain o) = true → Runs s h (.tdrain o) →
       exec (.tdrain o) s = .next s)) ∧
    (h.id.arev = 0 → ∀ i, i ∈ [Instr.mma o, .mmasp o, .mmabk o] → ∀ sh, engine? i = some (sh, o) → Runs s h i →
      exec i s = .next (trapAt s s.cur (entered h i) 2 (instrBits i)))

/-- R145, R153, R215, R272, R281: a copy forwards with its source and lengths in OPA, OPB and word 2; in a kernel hart it takes an inbox
reservation and waits while all 16 are taken, in a handler it takes none. R145, R153, R266, R275, R276, R280, R281: sends take the lowest
free of the eight queue entries, with a reservation when a reply is asked for; a full queue raises SENDQ_FULL, cause 27; `msendr` takes
the reply that is due; `mrecv` and `mackrd` forward. -/
def Obligations.CopiesAndMessagesForward : Prop :=
  (∀ (s : State) (h : Hart) (o : Eops),
    let d := rx h (xreg o.vd)
    let a := rx h (xreg o.vs1)
    let b := rx h (xreg o.vs3)
    let goes (i : Instr) (opa : Word) (opb : BitVec 32) (w2 : Word) : Prop :=
      (h.id.handler = true → ForwardsAs s h i opa opb w2 id) ∧
      (h.id.handler = false → h.msg.rsv < 16 → ForwardsAs s h i opa opb w2 fun g => { g with msg := { g.msg with rsv := g.msg.rsv + 1 } }) ∧
      (h.id.handler = false → 16 ≤ h.msg.rsv → allocOk h.id.nv h.id.nt i = true → Runs s h i → exec i s = .next s)
    goes (.cpgs o) a (d.setWidth 32) 0 ∧ goes (.cpsg o) a (d.setWidth 32) 0 ∧ goes (.cpgg o) d (b.setWidth 32) a ∧
    goes (.cpmc o) a (d.setWidth 32) (BitVec.ofNat 64 (d.toNat / 2 ^ 32 % 2 ^ 16 * 2 ^ 16)) ∧ goes (.cpfill o) d (b.setWidth 32) a ∧
    goes (.cpadd o) d (b.setWidth 32) a) ∧
  (∀ (s : State) (h : Hart) (o : Eops),
    let t := rx h (xreg o.vd)
    let pay (n : Nat) : List Word := (List.range n).map fun j => rx h (xreg o.vs3 + BitVec.ofNat 5 j)
    let queued (n q : Nat) (p : q < 8) (g : Hart) : Hart := { g with msg := { g.msg with
      sendq := g.msg.sendq.set q { used := true, seq := h.l.nseq, target := t, handler := rx h (xreg o.vs1), p := pay n, sent := false },
      rsv := if wbit t 61 then g.msg.rsv + 1 else g.msg.rsv } }
    let sends (i : Instr) (n : Nat) : Prop :=
      (∀ q, ∀ p : q < 8, freeSendIdx h = q → (h.id.handler = false ∨ wbit t 61 = false) → (wbit t 61 = true → h.msg.rsv < 16) →
        ForwardsAs s h i t (BitVec.ofNat 32 q) (rx h (xreg o.vs1)) (queued n q p)) ∧
      (8 ≤ freeSendIdx h → wbit t 61 = false → allocOk h.id.nv h.id.nt i = true → Runs s h i →
        exec i s = .next (trapAt s s.cur (entered h i) 27 t))
    sends (.msend o) 2 ∧ sends (.msendb o) 4 ∧
    (h.id.handler = true → h.msg.rplAsked = true → h.msg.rplDue = true →
      ForwardsAs s h (.msendr o) (rx h (xreg o.vs3)) 0 (rx h (xreg o.vs3 + 1)) fun g => { g with msg := { g.msg with rplDue := false } }) ∧
    (h.id.handler = false → ForwardsAs s h (.mrecv o) 0 0 0 id) ∧ ((o.vs3 ≠ 6 ∨ h.mode = .s) → ForwardsAs s h (.mackrd o) 0 0 0 id))

/-- R63, R69, R94: a register outside the hart's allocation and an illegal dynamic rounding mode raise cause 2 with the instruction's bits
before the instruction enters any queue, for every instruction that is forwarded. THE FRAME of forwarding, for every instruction of groups
0 to 12 and every outcome: no byte of any store, no other hart, no device register, no core and no work changes; of its hart no x, m,
vector or tensor-map register changes, nor the mask stack, the flags and the rounding mode. -/
def Obligations.ForwardingChecksFirstAndChangesNoRegister : Prop :=
  (∀ (s : State) (h : Hart) (i : Instr) (sh : Shape) (o : Eops), engine? i = some (sh, o) → sh.grp ≤ 0x0C → Runs s h i →
    (allocOk h.id.nv h.id.nt i = false ∨ (dynRounds sh o = true ∧ 4 < h.l.lfrm.toNat)) →
    exec i s = .next (trapAt s s.cur (entered h i) 2 (instrBits i))) ∧
  (∀ (s t : State) (h : Hart) (i : Instr) (sh : Shape) (o : Eops), engine? i = some (sh, o) → sh.grp ≤ 0x0C → hartAt s s.cur = some h →
    exec i s = .next t →
    sameBytes s t ∧ (∀ k, k ≠ s.cur → hartAt t k = hartAt s k) ∧ t.regs = s.regs ∧ t.cores = s.cores ∧ t.work = s.work ∧ t.net = s.net ∧
    ∃ g, hartAt t s.cur = some g ∧ g.x = h.x ∧ g.m = h.m ∧ g.v = h.v ∧ g.tm = h.tm ∧ g.stk = h.stk ∧ g.dep = h.dep ∧
      g.l.lfrm = h.l.lfrm ∧ g.l.lflags = h.l.lflags ∧ g.l.ftz = h.l.ftz ∧ g.id = h.id)

/-! ## Lane computation (06) -/

/-- R184 (with R90, R95, R178 to R180): when an issued LI instruction finishes, every enabled lane of the destination holds r, written
as R90 widens it; every other lane, every other register stands; `vadds` and `vsubs` set SI when an enabled lane clamps, and nothing
else sets a flag; the entry is DONE. -/
def Obligations.LaneIntegerResults : Prop :=
  ∀ (s : State) (k : Nat) (h : Hart) (e : Entry) (o : Eops),
    Holds s k h e → e.st = .inflight → e.stage = .issued → olderCompute h e = false →
    let w := fmtWidth .i o.fmt.toNat
    let S : Bool := o.fmt.toNat < 4
    let b (l : Nat) : Nat := bOperand h e o l w
    let a (l : Nat) : Nat := velem h o.vs1.toNat l w
    let c (l : Nat) : Nat := velem h o.vs3.toNat l w
    let va (l : Nat) : Int := valOf S w (a l)
    let vb (l : Nat) : Int := valOf S w (b l)
    let lo : Int := if S then -(2 ^ (w - 1)) else 0
    let hi : Int := if S then 2 ^ (w - 1) - 1 else 2 ^ w - 1
    let writes (r : Nat → Nat) : Prop := LaneWrites s k h e o.vd.toNat w (fun l => widen S w (r l)) fun _ => false
    let clamps (t : Nat → Int) : Prop :=
      LaneWrites s k h e o.vd.toNat w (fun l => widen S w (wrapTo w (max lo (min hi (t l))))) fun l => decide (t l < lo ∨ hi < t l)
    (e.instr = .vaddI o → writes fun l => (a l + b l) % 2 ^ w) ∧
    (e.instr = .vsubI o → writes fun l => wrapTo w ((a l : Int) - b l)) ∧
    (e.instr = .vmulI o → writes fun l => a l * b l % 2 ^ w) ∧
    (e.instr = .vmulh o → writes fun l => wrapTo w (va l * vb l / 2 ^ w)) ∧
    (e.instr = .vdivI o → writes fun l => if b l = 0 then 2 ^ w - 1 else wrapTo w ((va l).tdiv (vb l))) ∧
    (e.instr = .vrem o → writes fun l => if b l = 0 then a l else wrapTo w ((va l).tmod (vb l))) ∧
    (e.instr = .vminI o → writes fun l => wrapTo w (min (va l) (vb l))) ∧
    (e.instr = .vmaxI o → writes fun l => wrapTo w (max (va l) (vb l))) ∧
    (e.instr = .vadds o → clamps fun l => va l + vb l) ∧ (e.instr = .vsubs o → clamps fun l => va l - vb l) ∧
    (e.instr = .vabsI o → writes fun l => wrapTo w (va l).natAbs) ∧ (e.instr = .vnegI o → writes fun l => wrapTo w (-(va l))) ∧
    (e.instr = .vmad o → writes fun l => (a l * b l + c l) % 2 ^ w) ∧
    (e.instr = .vand o → writes fun l => a l &&& b l) ∧ (e.instr = .vor o → writes fun l => a l ||| b l) ∧
    (e.instr = .vxor o → writes fun l => a l ^^^ b l) ∧ (e.instr = .vnot o → writes fun l => 2 ^ w - 1 - a l) ∧
    (e.instr = .vsll o → writes fun l => a l * 2 ^ (b l % w) % 2 ^ w) ∧ (e.instr = .vsrl o → writes fun l => a l / 2 ^ (b l % w)) ∧
    (e.instr = .vsra o → writes fun l => wrapTo w (valOf true w (a l) / 2 ^ (b l % w))) ∧
    (e.instr = .vmov o → writes b)

/-- R186, R188, R189: `vcmp` sets the destination mask's bits of the enabled lanes to its relation and keeps the others, m0 apart;
`vsel` chooses by the mask register's bit; the bit-count instructions give natural results of the operand's w bits; none sets a
flag. -/
def Obligations.LaneCompareSelectAndBitCounts : Prop :=
  ∀ (s : State) (k : Nat) (h : Hart) (e : Entry) (o : Eops),
    Holds s k h e → e.st = .inflight → e.stage = .issued → olderCompute h e = false →
    let w := fmtWidth .i o.fmt.toNat
    let S : Bool := o.fmt.toNat < 4
    let b (l : Nat) : Nat := bOperand h e o l w
    let a (l : Nat) : Nat := velem h o.vs1.toNat l w
    let va (l : Nat) : Int := valOf S w (a l)
    let vb (l : Nat) : Int := valOf S w (b l)
    let md : MR := o.vd.setWidth 3
    let tests (p : Nat → Prop) : Prop := e.instr = .vcmp o →
      ∃ g, exec (.laneComputeDone k e.seq) s = .next (setHart s k g) ∧
        (∀ l, l < 64 → (mbit (rm g md) l = true ↔ if md ≠ 0 ∧ mbit e.lmask l = true then p l else mbit (rm h md) l = true)) ∧
        (∀ r, r ≠ md → rm g r = rm h r) ∧ g.x = h.x ∧ g.v = h.v ∧ g.l = h.l ∧ g.tm = h.tm ∧ g.stk = h.stk ∧ g.pc = h.pc ∧
        ∃ f, entryAt g e.seq = some f ∧ f.st = .done
    let counts (i : Instr) (p : Nat → Nat → Prop) : Prop := e.instr = i →
      ∃ r : Nat → Nat, (∀ l, r l < 2 ^ max 32 w ∧ p (a l) (r l)) ∧ LaneWrites s k h e o.vd.toNat w r fun _ => false
    (o.rnd = 0 → tests fun l => va l = vb l) ∧ (o.rnd = 1 → tests fun l => va l ≠ vb l) ∧ (o.rnd = 2 → tests fun l => va l < vb l) ∧
    (o.rnd = 3 → tests fun l => va l ≤ vb l) ∧ (o.rnd = 4 → tests fun l => vb l < va l) ∧ (o.rnd = 5 → tests fun l => vb l ≤ va l) ∧
    (e.instr = .vsel o → 32 ≤ w →
      LaneWrites s k h e o.vd.toNat w (fun l => if mbit (rm h (o.vs3.setWidth 3)) l then a l else b l) fun _ => false) ∧
    counts (.vpopc o) (fun x r => r = ((List.range w).filter fun n => x.testBit n).length) ∧
    counts (.vclz o) (fun x r => r ≤ w ∧ (∀ n, n < r → x.testBit (w - 1 - n) = false) ∧ (r < w → x.testBit (w - 1 - r) = true)) ∧
    counts (.vctz o) (fun x r => r ≤ w ∧ (∀ n, n < r → x.testBit n = false) ∧ (r < w → x.testBit r = true)) ∧
    counts (.vbrev o) (fun x r => r < 2 ^ w ∧ ∀ n, n < w → r.testBit n = x.testBit (w - 1 - n))

/-- R89, R180, R190: a NaN operand of a floating-point lane instruction that rounds gives the canonical NaN of the format, and NV is set
exactly when an operand is signaling. -/
def Obligations.NanOperandsGiveTheCanonicalNan : Prop :=
  ∀ (o : Eops) (f : FFmt) (mode a b c : Nat) (ftz : Bool), f ∈ [f32, f64, f16, bf16] →
    let n (x : Nat) : Bool := isNaN (unpackF f (flushIn ftz f x))
    let sg (x : Nat) : Bool := sigNaN (unpackF f (flushIn ftz f x))
    (n a || n b) →
    ∀ i, i ∈ [Instr.vaddF o, .vsubF o, .vmulF o, .vdivF o] → floatOp i f mode ftz a b c = (f.nan, flIf (sg a || sg b) flNV)

/-! ## Steps of the engines and of the memory side (02 to 11) -/

/-- R107, R111, R114, R120 to R122, R113, R158: an interrupt that is open is taken at its hart; a late fault of the hart's mode is delivered
with its report; a wait that a wake notice, its timeout or the clock ends advances the pc by 4. R147, R148, R149 to R152, R154, R159,
R161, R175, R205: the head of a lane queue issues when no lock blocks it, and one with an empty mask and no x result is DONE; an issued
compute entry writes its results and is DONE, `vred.add` into its hart's reduction entry; a store whose elements all pass their checks
performs; a `vfence` before which all has performed is DONE; a parked entry whose pages have come is fetched again and replayed, and a
replay of `frrep` or of a restore is fetched again before it issues. -/
def Obligations.HartAndLaneEventsComplete : Prop :=
  (∀ (s : State) (k : Nat) (h : Hart), hartAt s k = some h →
    (∀ n, nextInterrupt s k h = some n → h.halted = false → h.pend = none →
      exec (.takeInterrupt k) s = .next (takeTrap (freeMonitor s k h) k h n true 0 (waitPc h))) ∧
    (∀ e, deliverable h = some e → h.halted = false → h.pend = none →
      ∃ g : Hart, exec (.lateFaultDelivery k) s = .next (trapAt (freeMonitor s k h) k g 24 e.fltAddr) ∧ g.l.fseq = e.seq ∧ g.l.lfcode = e.code ∧
        g.l.lfengine = engineCode e.eng ∧ g.l.lfaddr = e.fltAddr ∧ g.l.lflanes = e.fltLanes ∧ g.pc = h.pc ∧
        g.ring = (updEntry h e.seq fun e => { e with dlv := true }).ring ∧ g.x = h.x ∧ g.v = h.v ∧ g.m = h.m) ∧
    (∀ w t, h.wait = some (.wrs w.line t) → (s.mem.wakes.find? fun w => w.uid == h.id.uid) = some w →
      exec (.monitorWake k) s = .next (endWrs (updMem s fun m => { m with wakes := delFirst m.wakes (· == w) }) k h)) ∧
    (∀ l t, h.wait = some (.wrs l (some t)) → t ≤ slotClk s k → exec (.wrsTimeout k) s = .next (endWrs s k h)) ∧
    (∀ t, h.wait = some (.hwtime t) → t ≤ s.clock.time →
      exec (.hwtimeExpiry k) s = .next (setHart s k (adv s k { h with wait := none } 4))) ∧
    (h.ending = true → h.id.handler = true → exec (.hartEnd k) s = .next (freeSlot s k h)) ∧
    (∀ t, h.ending = true → h.id.handler = false →
      tget (updTeam (freeSlot s k h) h.id.team fun t => { t with hartsLeft := t.hartsLeft - 1 }).work.teams h.id.team = some t →
      exec (.hartEnd k) s = .next (
        if t.hartsLeft = 0 then endTeam (updTeam (freeSlot s k h) h.id.team fun t => { t with hartsLeft := t.hartsLeft - 1 }) h.id.team
        else updTeam (freeSlot s k h) h.id.team fun t => { t with hartsLeft := t.hartsLeft - 1 })) ∧
    (∀ i id v p, s.mem.replies[i]? = some ⟨.xreg h.id.uid id, v, false⟩ → slotOfUid s h.id.uid = some k → h.wait = none →
      h.pend = some p → p.id = id →
      let t : State := updMem s fun m => { m with replies := dropAt m.replies i }
      exec (.scalarReply i) s = .next (acqIf
        (setHart t k { putDest (retire t k h) p.reg.toNat (leBytes 8 v.toNat) false with pend := none, parts := [] }) k p.acq))) ∧
  (∀ (s s1 : State) (k : Nat) (h : Hart) (e : Entry), Holds s k h e →
    let out : Hart := { h with laneQ := h.laneQ.drop 1 }
    let toX : Bool := match e.instr with
      | .vmvx _ | .vredOpen _ | .vredFlush _ => true
      | _ => false
    let picked : State := notePick s (.lane (k / 64)) (hartCand k h) (laneRivals s k)
    (∀ q, h.laneQ = e.seq :: q → e.st = .inflight → e.stage = .queued → e.eng = .lane → h.capture = none → lockedFor h e = false →
      steerStops s k = false → (isRedAdd e.instr && olderFlush h e) = false → parityBad h e = false →
      picks s (.lane (k / 64)) (hartCand k h) (laneRivals s k) = true →
      (e.lmask = 0 → toX = false → exec (.laneIssue k) s = .next (setHart picked k (doneEntry out e.seq))) ∧
      ((e.lmask ≠ 0 ∨ toX = true) → (∀ o, e.instr ≠ .vpf o) → exec (.laneIssue k) s = .next (setHart picked k
        (updEntry out e.seq fun e => { e with stage := .issued, started := e.started || isCompute e.instr })))) ∧
    (e.st = .inflight → e.stage = .issued → isCompute e.instr = true → olderCompute h e = false →
      ((∀ o, e.instr ≠ .vredAdd o) → exec (.laneComputeDone k e.seq) s = .next (setHart s k (doneEntry (computeHart h e) e.seq))) ∧
      (∀ o, e.instr = .vredAdd o → exec (.laneComputeDone k e.seq) s = .next (vredAddEffect s k h e o))) ∧
    (∀ lanes fresh, e.eng = .lane → e.st = .inflight → e.stage = .issued → h.capture = none → laneWaits h e = false →
      (∀ o, e.instr ∈ [Instr.vld o, .vlds o, .vldg o, .vldt o, .vldf o] →
        exec (.laneElementResponse k e.seq lanes fresh) s = .next (stepLoad s k e.seq lanes fresh)) ∧
      (∀ o ok, e.instr ∈ [Instr.vst o, .vsts o, .vstg o, .vstt o, .vstf o] → checkAll s k h e .store (lanesOf e.lmask) = ((false, ok, []), s1) →
        (ok.all fun p => mayLeave s1 (laneSide h) p.2.2) = true →
        let t := (goesNow lanes ok).foldl (fun s p => storeAt s k e.seq p.2.1 p.1 p.2.2 (storeBytes h e.instr p.1))
          (updE s1 k e.seq fun e => { e with stage := .running })
        exec (.laneElementResponse k e.seq lanes fresh) s = .next (settleStore t k e.seq) ∧
        ∀ g f, entryNow t k e.seq = some (g, f) → f.lmask = 0 → settleStore t k e.seq = setHart t k (doneEntry g e.seq)) ∧
      (∀ o, e.instr = .vfence o → olderAccess h e = false → lanePerformed s h (scopeOf o.ks) = true →
        exec (.laneElementResponse k e.seq lanes fresh) s = .next
          (acquireLane (setHart s k (doneEntry (releaseLane s h (scopeOf o.ks)) e.seq)) k (scopeOf o.ks)))) ∧
    (refetchDue h e = true → h.capture = none →
      (∀ bs, refetch s k h e = (.ok bs, s1) → exec (.entryReplay k e.seq) s = .next
        (if e.st = .inflight then setHart s1 k (updEntry h e.seq fun e => { e with stage := .queued })
         else if e.eng = .lane ∧ parityBad h e = true then parityError s1 k h e else replayNow s1 k h e)) ∧
      (∀ c v, refetch s k h e = (.fault c v, s1) →
        exec (.entryReplay k e.seq) s = .next (holdEntry s1 k h e 0x0006 0 (e.pc.signExtend 64)))))

/-- R247, R248, R249, R251, R253: a matrix entry enters its quadrant's dispatch queue while there is room; a ready candidate starts in the
array or the tile port; 14 clk later the array writes its tile and the entry is DONE, and the tile port ends in its time. R244, R245,
R272, R284: a drain reaches its target, in the sender's order: the image is written in the team's windows and the wake-up posted, or it is
dropped and counted when the hart is gone; the outcome makes the entry DONE, or HELD with a refusal. -/
def Obligations.MatrixAndDrainEventsComplete : Prop :=
  (∀ (s : State) (k : Nat) (h : Hart) (e : Entry) (o : Eops),
    let c := coreOfSlot k
    (∀ rest, Holds s k h e → h.laneQ = e.seq :: rest → e.eng = .matrix → e.st = .inflight → e.stage = .queued → h.capture = none →
      lockedFor h e = false → (mdqOf s k).length < 8 →
      (h.id.cls = 0 ∨ ((mdqOf s k).filter fun m => !isIbexSlot s m.slot).length < 6) → exec (.matrixDispatch k) s = .next
        (updCore (setHart s k (updEntry { h with laneQ := rest } e.seq fun e => { e with stage := .dispatched })) c fun x =>
          { x with mdq := tput x.mdq (quadOfSlot k) (mdqOf s k ++ [⟨k, e.seq⟩]) })) ∧
    (mxOldest s k = some (h, e) → mxReady s k h e = true →
      (e.instr ∈ [Instr.mma o, .mmasp o, .mmabk o] → (coreAt s c).arrayFree ≤ slotClk s k → mxOutranked s k h true = false →
        parityBad h e = false → exec (.arrayStart k) s = .next (arrayStart (noteMx s k h true) k h e o)) ∧
      ((coreAt s c).port = none → mxOutranked s k h false = false →
        let start (vals : List Int) : State :=
          updE (updCore (leaveMdq (noteMx s k h false) k e.seq) c fun x =>
              { x with port := some { uid := h.id.uid, seq := e.seq, fin := slotClk (leaveMdq (noteMx s k h false) k e.seq) k + portClks e, vals := vals } })
            k e.seq fun e => { e with stage := .running, started := e.started || (match e.instr with
              | .twait _ => false
              | _ => true) }
        (e.instr ∈ [Instr.tzero o, .tmovv o, .twait o] → exec (.tilePortStart k) s = .next (start [])) ∧
        (e.instr = .tmovt o → parityBad h e = false →
          exec (.tilePortStart k) s = .next (start ((fragElems h o.vs1.toNat).map Int.ofNat))) ∧
        (e.instr ∈ [Instr.tst o, .tld o] → tileOffCheck (noteMx s k h false) h e = none → exec (.tilePortStart k) s = .next (start [])) ∧
        (e.instr = .tdrain o → (e.part = true ∨ drainCheck e = none) → exec (.tilePortStart k) s = .next (start [])))) ∧
    (∀ core op rest, (coreAt s core).arrayPipe = op :: rest → op.fin ≤ coreClk s core → slotOfUid s op.uid = some k →
      entryNow s k op.seq = some (h, e) → e.instr ∈ [Instr.mma o, .mmasp o, .mmabk o] → exec (.arrayWriteback core) s = .next
        (updHart (mxWrite (updCore s core fun x => { x with arrayPipe := rest }) core (tileOf h o.vd.toNat) o.fmt.toNat op.vals) k fun h =>
          doneEntry h e.seq)) ∧
    (∀ core op, (coreAt s core).port = some op → op.fin ≤ coreClk s core → slotOfUid s op.uid = some k →
      entryNow s k op.seq = some (h, e) →
      e.instr ∈ [Instr.tzero o, .tmovv o, .tmovt o, .tst o, .tld o, .tdrain o, .twait o] →
      exec (.tilePortDone core) s = .next (portDone (updCore s core fun x => { x with port := none }) k h e op))) ∧
  (∀ (s : State) (i : Nat),
    (∀ d, s.net.drains[i]? = some d → ((s.net.drains.take i).any fun x => x.uid == d.uid && x.dst == d.dst) = false → divBlocked s d.asid = false →
      let t : State := { s with net := { s.net with drains := dropAt s.net.drains i } }
      let k := slotOfHwhere d.dst
      inTenant s d.tenant (coreOfHwhere d.dst) = true →
      (hartAt s k = none → exec (.drainImageArrival i) s = .next (ackDrain t d 0 true)) ∧
      (∀ h tm, hartAt s k = some h → h.id.handler = false → h.id.asid = d.asid → teamOf s h = some tm → tm.stat ≠ .ended → d.wakeOnly = false →
        d.off + 1024 ≤ 4096 * tm.wins.length →
        exec (.drainImageArrival i) s = .next (postWake (writeWins t (coreOfHwhere d.dst) tm.wins d.off d.uid d.data) d k))) ∧
    (∀ a h e k, s.net.drainAcks[i]? = some a → hartOfUid s a.uid = some h → entryAt h a.seq = some e → e.eng = .matrix → e.st = .inflight →
      let t : State := { s with net := { s.net with drainAcks := dropAt s.net.drainAcks i } }
      (a.code = 0 → exec (.drainAck i) s = .next
        (answerHart t a.uid fun h => countDrop (releaseRsv (doneEntry h a.seq) a.seq) (b2n a.dropped))) ∧
      (a.code ≠ 0 → slotOfUid s a.uid = some k → exec (.drainAck i) s = .next
        (holdEntry t k h { e with part := e.part || a.code == 0x0205, await := false } a.code 0 e.lmask))))

/-- R216, R218, R224, R226, R228, R281: a copy that may begin takes its next chunk into phase A after its checks; a chunk checked and read
passes its fault point; its writes are then handed over; when they have performed and no earlier copy of the hart is unposted its message
is posted, or a handler's copy is DONE. R262, R282, R283, R284: an access to another core's window performs there in its sender's order
when the window is open, and is answered CLOSED or MOVED when it is not; one that a station of its route does not pass for its tenant
kills its context with code 4 (MSG_TENANT) and is dropped; the answer reaches the instruction that waits for it. -/
def Obligations.CopyAndWindowEventsComplete : Prop :=
  (∀ (s : State) (k : Nat) (h : Hart) (e : Entry),
    let c := coreOfSlot k
    let job : CopyJob := ⟨h.id.uid, e.seq, mcTeams s h e, false, false, false, [], none, [], 0, 0, 0⟩
    Holds s k h e → e.eng = .copy → e.st = .inflight → ctxDead s h.id.asid = false →
    (e.stage = .queued → h.capture = none → copyMayBegin s k h e = true → outrankedCopy s k h = false →
      ((coreAt s c).copies.any fun j => !j.ready && !j.fin) = false → copyCheck s h e = none → chunksLeft h e = true →
      exec (.copyStart k e.seq) s = .next
        (updE (updCore { s with arbs := (notePick s (.copy c) (hartCand k h) (copyRivals s k)).arbs } c fun x =>
          { x with copies := x.copies ++ [job] }) k e.seq fun e => { e with stage := .running })) ∧
    (∀ j, e.stage = .running → (coreAt s c).copies.find? (isJob h.id.uid e.seq) = some j →
      (∀ s1 s2 oks ws, j.ready = false → j.fin = false → j.hostErr = none →
        checkPieces s k h e (match copyForm e.instr with
          | some (.add _ _, _) => true
          | _ => false) (chunkPieces h e) 0 = ((false, oks, []), s1) →
        readPieces s1 k h e.seq j oks 0 = (some ws, s2) → exec (.copyPhaseADone k e.seq) s = .next (updJob s2 c h.id.uid e.seq fun j =>
          { j with ready := true, writes := ws, advance := if isTensor ((copyForm e.instr).getD (.gg, 0)).1 then 1 else flatLen e, hostBuf := [] })) ∧
      (j.ready = true → exec (.copyPhaseBDone k e.seq) s = .next (phaseBDone s k h e j))) ∧
    (∀ j, (coreAt s c).copies.find? (fun j => isJob h.id.uid e.seq j && j.fin) = some j → storesDone s (copyUid h.id.uid) .device = true →
      earlierCopy s h e.seq = false → divBlocked s h.id.asid = false →
      (h.id.handler = true → exec (.copyCompletion k e.seq) s = .next (updUid (dropJob s c h.id.uid e.seq) h.id.uid fun g => match entryAt g e.seq with
        | some e' => if e'.eng == .copy && e'.st == .inflight then doneEntry g e.seq else g
        | none => g)) ∧
      (h.id.handler = false → exec (.copyCompletion k e.seq) s = .next (postAnywhere (dropJob s c h.id.uid e.seq) h
        (copyMessage e.seq (j.closed.testBit 16) j.dropped (j.closed % 2 ^ 16) j.total 2) (hwhereOf k false) e.seq)))) ∧
  (∀ (s : State) (i : Nat),
    (∀ a, s.net.wins[i]? = some a → ((s.net.wins.take i).any fun x => x.uid == a.uid && x.core == a.core) = false →
      let reply (t : State) (r : WinAns) : State := { t with net := { t.net with wins := dropAt t.net.wins i, winReps := t.net.winReps ++ [⟨a, r⟩] } }
      let passes : Bool := routersPass s a.tenant (some (match slotAny s (a.uid % 2 ^ 60) with
        | some k => coreOfSlot k
        | none => a.core)) a.core
      (passes = false → exec (.windowAccessArrival i) s = .next
        (contextFault { s with net := { s.net with wins := dropAt s.net.wins i } } a.asid 4)) ∧
      (passes = true → accState s a = .open_ → exec (.windowAccessArrival i) s = .next (reply (performWin s a).2 (.data (performWin s a).1))) ∧
      (passes = true → accState s a = .closed → a.op = .sc → exec (.windowAccessArrival i) s = .next (reply (failSc s a).2 (.data (failSc s a).1))) ∧
      (passes = true → accState s a = .closed → a.op ≠ .sc → exec (.windowAccessArrival i) s = .next (reply s .closed)) ∧
      (passes = true → accState s a = .moved → a.op ≠ .sc → exec (.windowAccessArrival i) s = .next (reply s .moved))) ∧
    (∀ r, s.net.winReps[i]? = some r →
      let t : State := { s with net := { s.net with winReps := dropAt s.net.winReps i } }
      (∀ bs, r.ans = .data bs → exec (.windowReply i) s = .next (deliverWin t r.acc bs)) ∧
      (r.ans = .closed → exec (.windowReply i) s = .next (refuseWin t r.acc))))

/-- R267, R269, R270, R275, R276, R286: the message engine serves a hart's entries in order: a valid send whose release is done enters the
network with its charge, `mrecv` takes the oldest message as an acquire at its scope, `mackrd` reads its value, `msendr` sends the reply;
the acknowledgement makes the send DONE and frees its queue entry, or holds it with the refusal. R261, R262, R268, R272, R274, R278, R279:
messages arrive in their sender's order: in a resident hart's inbox, acknowledged, with the body in its team's windows; at a core's
handler queue; a diverted record moves to an inbox with room; a waiting message starts as a handler hart on a free slot of the pool, and
an Ibex one that has waited 256 clk captures a handler of a lower class. -/
def Obligations.SendsAndArrivalsComplete : Prop :=
  (∀ (s : State) (k : Nat) (h : Hart) (e : Entry) (o : Eops), Holds s k h e → e.eng = .message → e.st = .inflight →
    (e.stage = .queued → h.capture = none → olderMessage h e = false → ctxDead s h.id.asid = false →
      picks s (.send (coreOfSlot k)) (hartCand k h) (sendRivals s k) = true →
      let serves (t : State) : Prop := exec (.sendService k e.seq) s = .next (if entryNow t k e.seq ≠ some (h, e) then
        { t with arbs := (notePick s (.send (coreOfSlot k)) (hartCand k h) (sendRivals s k)).arbs } else t)
      (∀ q s1 core, e.instr = .msend o → sendEntryOf h e.seq = some q → targetBad e.opa.toNat e.lmask.toNat = false →
        sendTarget s k h e = (.core core, s1) → inTenant s1 h.id.tenant core = true →
        sendReleased s1 h e (coverScope (coreOfSlot k) core) = true →
        serves (inject s1 k e.seq (sendMessage s1 k h e core (coverScope (coreOfSlot k) core) q [] 0))) ∧
      (e.instr = .msendr o → sendReleased s h e (coverScope (coreOfSlot k) (coreOfHwhere h.msg.origin.toNat)) = true →
        serves (sendReply (updHart s k fun h => doneEntry h e.seq) k h e.seq e.opa e.lmask)) ∧
      (∀ m rest, e.instr = .mrecv o → h.msg.inbox = m :: rest → serves (acquireAt (setHart s k (doneEntry
          (deliverX (wx { h with msg := { h.msg with inbox := rest } } (xreg o.vd) m.w0) e.seq (xreg o.vs1) m.w1) e.seq)) k (scopeNat m.scope))) ∧
      (e.instr = .mackrd o → ((pendingEntries h).any fun f => before f e && f.eng == .matrix && inQueue f) = false →
        serves (setHart s k (doneEntry
          (deliverX (if o.vs3 = 6 then { h with msg := { h.msg with event := 0 } } else h) e.seq (xreg o.vd)
            (BitVec.ofNat 64 (ackValue h o.vs3.toNat))) e.seq)))) ∧
    (∀ i a, s.net.acks[i]? = some a → a.seq = e.seq → hartOfUid s a.uid = some h →
      let t : State := { s with net := { s.net with acks := dropAt s.net.acks i } }
      (a.code = 0 → exec (.messageAck i) s = .next (answerHart t a.uid fun h => freeSend (doneEntry h a.seq) a.seq)) ∧
      (a.code ≠ 0 → slotOfUid s a.uid = some k → exec (.messageAck i) s = .next (holdEntry t k
        { h with msg := { h.msg with sendq := h.msg.sendq.map fun q => if q.used && q.seq == a.seq then { q with sent := false } else q } }
        { e with await := false } a.code 0 e.opa)))) ∧
  (∀ (s : State) (i k core : Nat),
    (∀ m, s.net.msgs[i]? = some m → outOfOrder s i m = false → (m.kind = .inbox → divBlocked s m.asid = false ∧ ctxFree s m.asid = true ∧
        homeFree s (awayBase s m.asid + 16 * slotOfHwhere m.dst) 16 = true) →
      let t : State := { s with net := { s.net with msgs := dropAt s.net.msgs i } }
      (∀ h tm u, m.kind = .inbox → routersPass s m.tenant (srcCore m) (coreOfHwhere m.dst) = true → k = slotOfHwhere m.dst → hartAt s k = some h →
        h.id.handler = false → h.id.asid = m.asid → h.id.teamNo % 2 ^ 24 = m.teamNo → (m.reserved = true → h.id.uid = m.forUid ∧ (hartOfUid s m.forUid).isSome = true) →
        teamOf s h = some tm → m.off + m.body.length ≤ 4096 * tm.wins.length → postHart t k h (inboxOf m) m.src m.seq = some u →
        exec (.inboxMessageArrival i) s = .next (ackMsg (writeBody u tm m.off m.uid m.body false) m 0)) ∧
      (m.kind = .handler → routersPass s m.tenant (srcCore m) (coreOfHwhere m.dst) = true → (coreAt s (coreOfHwhere m.dst)).hq.length < 64 →
        (m.net = 0 ∨ ((coreAt s (coreOfHwhere m.dst)).hq.filter fun q => q.msg.net != 0).length < 60) →
        exec (.handlerMessageArrival i) s = .next (ackMsg (updCore t (coreOfHwhere m.dst) fun c =>
          { c with hq := c.hq ++ [{ msg := m, clk := coreClk t (coreOfHwhere m.dst) }] }) m 0)) ∧
      (m.kind = .handler → routersPass s m.tenant (srcCore m) (coreOfHwhere m.dst) = false →
        exec (.handlerMessageArrival i) s = .next (tenantViolation t m))) ∧
    (∀ h tm j, hartAt s k = some h → teamOf s h = some tm → h.msg.inbox.length < 16 → 0 < h.msg.divRecs → h.capture = none →
      homeFree s (divBase tm.recPa) 0x10000 = true → lostRead s (divBase tm.recPa) 0x10000 = false → j < divCount s tm.recPa →
      let at_ := divBase tm.recPa + 32 * ((max 1 (divHead s tm.recPa) - 1 + j) % 2047 + 1)
      (leNat (peekHome s (at_ + 0x11) 1)).testBit 0 = true → leNat (peekHome s (at_ + 0x10) 1) = h.id.hidx →
      exec (.diversionRefill k) s = .next (refill s k h tm.recPa)) ∧
    (∀ q rest, (coreAt s core).hq[i]? = some q → freeHandlerSlots s core = k :: rest → ctxDead s q.msg.asid = false →
      handlerTurn s core i q.msg = true → savedHandlerFirst s core q.msg = false → (ctxOf s q.msg.asid).hold = false →
      exec (.handlerStart core i) s = .next
        (startHandler { s with arbs := (notePick s (.handler core) (msgCand i q.msg) (handlerRivals s (coreAt s core).hq i)).arbs } core i k q.msg)) ∧
    (let pool := s.harts.filter fun p => coreOfSlot p.1 == core && p.2.id.handler
     ((coreAt s core).hq.any fun q => q.msg.cls == 0 && q.clk + 256 ≤ coreClk s core) = true → freeHandlerSlots s core = [] →
      (pool.any fun p => p.2.id.cls == 0 || p.2.capture.isSome) = false → exec (.handlerCaptureTimeout core) s = .next
        (updUid s (pool.foldl (fun a p => max a p.2.id.uid) 0) fun h => { h with capture := some s.clock.clk })))

/-- R204, R206, R207, R208, R303 to R305: an open request takes a free slot or is answered BUSY or FULL; a contribution is answered with its
status and stored when accepted, a fragment is stored without being counted; an applying slot writes its sum once and is free, and kills
its context (code 3) when the line of its sum or of a contribution is lost; a status reaches X[d] and the entry is DONE; slots are
released without a write. R49, R289 to R291, R294, R299, R306, R307, R355: the home takes the earliest request of a line that nothing
holds, an atomic at its AU; write-backs are applied; a snooped slice gives its line up and its answer lets the held request go on; the
scrubber asks for its next line; the error counts are cleared; the host answers a back-invalidation. -/
def Obligations.ReductionAndHomeEventsComplete : Prop :=
  (∀ (s : State) (i md : Nat),
    (∀ uid seq asid pa fmt count, s.reds.auq[i]? = some (.openReq uid seq asid pa fmt count) → auFirst s i uid pa = true →
      let t := dropAu s i
      let n := firstBelow 1024 fun j => (tget s.reds.slots (1024 * homeOf pa + j)).isNone
      ((slotFor t pa).isSome = true → exec (.vredOpenRequest i) s = .next (redReply t uid seq 2)) ∧
      (slotFor t pa = none → (1024 ≤ n ∨ csFree t (homeOf pa) < count) → exec (.vredOpenRequest i) s = .next (redReply t uid seq 1)) ∧
      (slotFor t pa = none → n < 1024 → count ≤ csFree t (homeOf pa) → exec (.vredOpenRequest i) s = .next (redReply
        { t with reds := { t.reds with slots := tput t.reds.slots (1024 * homeOf pa + n) ⟨.open_, pa, asid, fmt, count, 0, []⟩ } } uid seq 0))) ∧
    (∀ uid seq asid pa fmt c, s.reds.auq[i]? = some (.contribution uid seq asid pa fmt c) → auFirst s i uid pa = true →
      let t := dropAu s i
      exec (.contributionArrival i) s = .next
        (redReply (if contribStatus t asid pa fmt = 0 then storeContrib t pa c else t) uid seq (contribStatus t asid pa fmt))) ∧
    (∀ uid asid pa fmt c, s.reds.auq[i]? = some (.fragment uid asid pa fmt c) →
      (contribStatus s asid pa fmt ≠ 0 → exec (.fragmentArrival i) s = .next (dropAu s i)) ∧
      (contribStatus s asid pa fmt = 0 → csFree s (homeOf pa) ≠ 0 → exec (.fragmentArrival i) s = .next (storeContrib (dropAu s i) pa c))) ∧
    (∀ z, tget s.reds.slots (1024 * md + i) = some z → z.st = .applying → i < 1024 →
      let n := if z.fmt = 0 ∨ z.fmt = 2 then 4 else 8
      let gone : Bool := lostRead s z.pa n || z.contribs.any fun c => isLost s (lineOf (areaLine s md c.line))
      (gone = true → exec (.slotApply md i) s = .next (contextFault s z.asid 3)) ∧
      (gone = false → readyAll s 4 z.pa n = true →
      let t := homeWrite s 0 z.pa (leBytes n (slotSum z))
      exec (.slotApply md i) s = .next { t with reds := { t.reds with slots := tdel t.reds.slots (1024 * md + i) } })) ∧
    (∀ r, s.reds.vreps[i]? = some r → exec (.vredReply i) s = .next
      (answerHart { s with reds := { s.reds with vreps := dropAt s.reds.vreps i } } r.uid fun h => match entryAt h r.seq with
        | some e => (match e.instr with
          | .vredOpen o | .vredFlush o =>
            if e.st == .inflight && e.await then doneEntry (deliverX h r.seq (xreg o.vd) (BitVec.ofNat 64 r.status)) r.seq else h
          | _ => h)
        | none => h)) ∧
    exec (.slotRel md) s = .next (releaseSlots s fun k _ => k == 1024 * md + bitsOf (reg s (mdBase md + 0x20)) 0 10) ∧
    (∀ asid, exec (.slotRelasid md asid) s = .next (releaseSlots s fun k z => k / 1024 == md && z.asid == asid))) ∧
  (∀ (s : State) (i md : Nat),
    (∀ r, s.mem.homeq[i]? = some r → canTake s i r = true → (isLost s (lineOf r.pa) = false ∨ wholeLine r = true ∨ r.kind = .scrub) →
      let t := updMem s fun m => { m with homeq := dropAt m.homeq i }
      let u := if r.kind = .scrub then t else updMem t fun m => touchMsc m (lineOf r.pa)
      (isAu r = false → exec (.homeRequest i 0) s = .next (takeReq u r)) ∧ (isAu r = true → exec (.auAtomic i 0) s = .next (takeReq u r))) ∧
    (∀ w, s.mem.wbs[i]? = some w →
      let t := applyDirty (updMem s fun m => { m with wbs := dropAt m.wbs i }) w.line w.data w.late
      let heard (b : Busy) : Busy := if lineOf b.req.pa == w.line then { b with waitWb := b.waitWb.filter (· != w.die) } else b
      exec (.writeBack i) s = .next (advanceBusy (updMem t fun m => { m with busy := m.busy.map heard }) w.line)) ∧
    (∀ q, s.mem.snoops[i]? = some q →
      let goes (a : SnoopAns) (late : List Nat) : Prop := exec (.snoop i) s = .next (updMem (setRdc s q.die q.line none) fun m =>
        { m with snoops := dropAt m.snoops i, sreps := m.sreps ++ [⟨q.die, q.line, a, late⟩] })
      (∀ bs late, rdcAt s q.die q.line = some ⟨some bs, late⟩ → goes (.data bs) late) ∧
      ((∀ bs late, rdcAt s q.die q.line ≠ some ⟨some bs, late⟩) →
        goes (if (wbDies s q.line).contains q.die then .wbPending else .miss) [])) ∧
    (∀ r, s.mem.sreps[i]? = some r →
      let t := updMem s fun m => { m with sreps := dropAt m.sreps i }
      (∀ bs, r.ans = .data bs →
        exec (.snoopReply i) s = .next (advanceBusy (answered (applyDirty t r.line bs r.late) r.line r.die false) r.line)) ∧
      (r.ans = .miss → exec (.snoopReply i) s = .next (advanceBusy (answered t r.line r.die false) r.line)) ∧
      (r.ans = .wbPending →
        exec (.snoopReply i) s = .next (advanceBusy (answered t r.line r.die ((wbDies t r.line).contains r.die)) r.line))) ∧
    (md < 8 →
      ((regD s (mdBase md + 0x68) 0x1801).testBit 0 = true → (s.mem.homeq.any fun r => r.kind == .scrub && homeOf r.pa == md) = false →
        exec (.patrolScrub md 0) s = .next (pushReq { s with nextUid := s.nextUid + 1 }
          ⟨s.nextUid, 4, 0, 0, noAsid, paOfStack md (reg s (mdBase md + 0x70)), .scrub, leBytes 1 0, .none, false, [], false⟩)) ∧
      exec (.eccClrCe md) s = .next (setReg s (mdBase md + 0x48) 0) ∧ exec (.eccClrUe md) s = .next (setReg s (mdBase md + 0x50) 0)) ∧
    (∀ port line data, s.mem.hostHeld.contains (port, line) = true →
      let t := updMem s fun m => { m with hostHeld := m.hostHeld.filter (· != (port, line)) }
      exec (.bisnpAnswer port line data) s = .next
        (advanceBusy (answered (if data.length = 128 then applyDirty t line data [] else t) line (4 + port) false) line)))

/-- R312 to R316, R321 to R323: a request that misses starts a walk, of at most four in a slice, at the root; each table read moves
the walk a level down, enters a leaf that grants the access, or ends it; a page's fault reaches its queue once, where it forms page
request groups or is answered PRI_OFF. -/
def Obligations.WalksAndFaultRecordsComplete : Prop :=
  ∀ (s s1 : State) (i : Nat),
    (∀ k h va wr, hartAt s k = some h → canonical va = true → dataMode h ≠ .m →
      let satp := (ctxOf s h.id.asid).satp
      let here : List Walk := slicesWalks s (dieOfSlot k) (sliceOf va)
      satp.toNat / 2 ^ 60 = 15 → ((sliceAt s (dieOfSlot k) (sliceOf va)).tlb.any (tlbHit h.id.asid (vpnOf va))) = false →
      (here.any fun w => w.asid == h.id.asid && w.vpn == vpnOf va) = false → here.length < 4 →
      exec (.translationRequest k va wr) s = .next (updXl s fun x => { x with walks := x.walks ++
        [⟨dieOfSlot k, sliceOf va, h.id.asid, vpnOf va, 3, satp.toNat % 2 ^ 44 * 4096, [], wr, dataMode h,
          wbit h.s.mstatus msSUM, wbit h.s.mstatus msMXR⟩] })) ∧
    (∀ w, s.xl.walks[i]? = some w →
      let drop (t : State) : State := updXl t fun x => { x with walks := dropAt x.walks i }
      (∀ c, pteStep s w.die w.slice w.asid w.vpn w.level w.table = (.fault c, s1) → exec (.pteReadResponse i) s = .next (drop s1)) ∧
      (∀ a read, pteStep s w.die w.slice w.asid w.vpn w.level w.table = (.next a read, s1) → w.level ≠ 0 → exec (.pteReadResponse i) s = .next
        (updXl s1 fun x => { x with walks := updAt x.walks i fun w =>
          { w with level := w.level - 1, table := a, ptrs := read ++ w.ptrs } })) ∧
      (∀ p, pteStep s w.die w.slice w.asid w.vpn w.level w.table = (.leaf p, s1) →
        let grants : Bool := (leafFault w.vpn w.level 0 p).isNone &&
          (permFault p (if w.write then .store else .load) w.mode w.sum w.mxr).isNone
        exec (.pteReadResponse i) s = .next (if grants = true then
          cacheLeaf (drop s1) w.die w.asid (BitVec.ofNat 64 (w.vpn * 4096)) p w.level w.ptrs else drop s1))) ∧
    (∀ r, s.xl.recs[i]? = some r → r.sent = false →
      ((s.xl.fq.any (fun f => f.asid == r.asid && f.vpn == r.vpn) || s.xl.fqIn.any fun f => f.asid == r.asid && f.vpn == r.vpn) = true ∨
        s.xl.fq.length + s.xl.fqIn.length < 1024) → exec (.sliceFaultRecord i) s = .next
      (updXl s fun x => { x with recs := updAt x.recs i fun r => { r with sent := true }, fqIn := x.fqIn ++ [r] })) ∧
    (∀ r, s.xl.fqIn[i]? = some r →
      let t := updXl s fun x => { x with fqIn := dropAt x.fqIn i }
      let same (f : FqRec) : Bool := f.asid == r.asid && f.vpn == r.vpn
      let off : Bool := (reg s rPriStat).testBit (xctPort t r.asid)
      (off = true → exec (.faultQueueRecord i) s = .next (settlePage t r.asid r.vpn 0x010F)) ∧
      (off = false → (s.xl.fq.any same) = true → exec (.faultQueueRecord i) s = .next (updXl t fun x => { x with fq := updFirst x.fq same fun f =>
        { f with r := f.r || r.r, w := f.w || r.w, priv := f.priv || r.priv, dies := if f.dies.contains r.die then f.dies else f.dies ++ [r.die] } })) ∧
      (off = false → (s.xl.fq.any same) = false → exec (.faultQueueRecord i) s = .next
        (formGroups (updXl t fun x => { x with fq := x.fq ++ [⟨r.asid, r.vpn, r.r, r.w, r.priv, [r.die], none⟩] })))) ∧
    (∀ n, s.xl.notices[i]? = some n →
      let t := updXl s fun x => { x with notices := dropAt x.notices i }
      (n.core = feCore → exec (.faultNotice i) s = .next (updXl t fun x => { x with feNotes := x.feNotes ++ [(n.asid, n.vpn, n.code)] })) ∧
      (n.core ≠ feCore → exec (.faultNotice i) s = .next (((s.harts.filter fun p => coreOfSlot p.1 == n.core && p.2.id.asid == n.asid).map (·.1)).foldl
        (fun t k => settleEntries t k n.vpn n.code) t)))

/-- R315, R322, R323, R325 to R329: a full or old enough group of pages is sent within the port's allowance while the port can park, and its
pages beyond a lowered allowance leave it; its response settles its pages
and the allowance; an ATS completion fills the cache and an invalidation empties it, awaiting the requests that use it; a
shoot-down drops the translations of a die that is quiet and completes when every die has; the counts clear and PRI turns on. -/
def Obligations.PageRequestsAndShootdownsComplete : Prop :=
  ∀ (s : State) (port : Nat),
    (portCanPark (trimGroup (formGroup s port) port) port = false → exec (.prgGroupSend port) s = .next (trimGroup (formGroup s port) port)) ∧
    (∀ g u, u = trimGroup (formGroup s port) port → portCanPark u port = true →
      (u.xl.groups.find? fun g => g.port == port && !g.sent) = some g → g.pages ≠ [] →
      (32 ≤ g.pages.length ∨ allowanceLeft u port ≤ g.pages.length ∨ g.openClk + 460 ≤ u.clock.clk) →
      let t := updXl u fun x => { x with groups := updFirst x.groups (· == g) fun g => { g with sent := true } }
      exec (.prgGroupSend port) s = .next (formGroup (bumpReg (setReg t (rPriOut port) (reg t (rPriOut port) + g.pages.length)) rPrgSent 32 1) port)) ∧
    (∀ grp g, (s.xl.groups.find? fun g => g.port == port && g.sent && g.index == grp) = some g →
      let t := updXl s fun x => { x with groups := delFirst x.groups (· == g) }
      let t := setReg t (rPriOut port) (reg t (rPriOut port) - g.pages.length)
      let live (vpn : Nat) : Bool := t.xl.fq.any fun f => f.asid == g.asid && f.vpn == vpn && f.group == some (port, grp)
      exec (.prgResponse port grp 0) s = .next (if g.dead = true then formGroups t else formGroups ((g.pages.filter live).foldl (fun t v => settlePage t g.asid v 0) t))) ∧
    (∀ va asid pa perm r, (s.xl.atsReqs.find? fun r => r.port == port && r.asid == asid && r.page == va.toNat / 4096) = some r →
      exec (.atsCompletion port va asid pa perm) s = .next (updXl s fun x => { x with
        atsReqs := x.atsReqs.filter (· != r),
        atc := tput x.atc port ((⟨asid, va.toNat / 4096, pa / 4096, perm.testBit 0, perm.testBit 1, r.priv, none⟩ ::
          (tgetD x.atc port []).filter fun e => !atcFor r e).take 4096) })) ∧
    (∀ asid va size, (s.xl.invs.filter fun v => v.port == port).length < 32 →
      let hit (e : AtcEntry) : Bool := (asid ≥ 2 ^ 16 || e.asid == asid) && va.toNat / 4096 ≤ e.page && e.page * 4096 < va.toNat + size
      (postsLeft s port fun a hp => ((tgetD s.xl.atc port []).filter hit).any fun e => e.asid == a && e.hpage == hp) = false →
      (s.mem.out.filter fun o => o.port == port) = [] → exec (.atsInvalidate port asid va size) s = .next
        (updXl s fun x => { x with atc := tput x.atc port ((tgetD s.xl.atc port []).filter fun e => !hit e) })) ∧
    (∀ id q die, (s.xl.shoots.find? fun q => q.id == id) = some q →
      (q.dies.contains die = true → dieQuiet s die q.asid = true → exec (.shootdownArrival id die) s = .next
        (updXl (shootDie s die q.va q.asid) fun x => { x with shoots := updFirst x.shoots (fun q => q.id == id) fun q =>
          { q with dies := q.dies.filter (· != die) } })) ∧
      (q.dies = [] → iodQuiet s q.asid = true →
        let t := updXl s fun x => { x with shoots := delFirst x.shoots (· == q) }
        (q.uid = 0 → exec (.shootdownComplete id) s = .next (setReg t schShstat 0)) ∧
        (∀ k h, q.uid ≠ 0 → slotOfUid s q.uid = some k → hartAt s k = some h → h.wait = some (.shoot id) →
          exec (.shootdownComplete id) s = .next (setHart t k (adv t k { h with wait := none } 4))))) ∧
    (∀ asid, exec (.priReset asid) s = .next (formGroups (dropRecords s asid))) ∧
    exec .xlClrPrgSent s = .next (setReg s rPrgSent 0) ∧ exec .xlClrPrgBad s = .next (setReg s rPrgBad 0) ∧
    (∀ v, port < 2 →
      let t := setReg s (hpBase port) (setBits (hpStat s port) 17 1 (v % 2))
      exec (.priEnable port v) s = .next (formGroups
        (if v % 2 = 1 && !(hpStat s port).testBit 17 then setReg t rPriStat (setBits (reg t rPriStat) port 1 0) else t)))

/-! ## The front end, the ports and the network (12, 13, 14) -/

/-- R333, R334, R335, R337: a doorbell of a requester whose earlier writes have been acknowledged moves TAIL, and starts an IDLE queue, or
sets the completion ring's head; a queue is enabled, disabled, and DISABLED once its commands have their records; a stopped one is
reset; a pass over a run list is counted at its end, and each 1 µs in which the walker holds no QCB of an empty list. -/
def Obligations.QueueControlCompletes : Prop :=
  ∀ (s : State) (port q v qcb : Nat), qcbOf s q = some qcb → qFree s q = true →
    (portDrained s port = true → isFatal s = false → v < 2 ^ 64 →
      (qState s qcb ∈ [1, 2, 3, 5] → (v + 2 ^ 64 - qW s qcb 0x20) % 2 ^ 64 ≤ qSize (qW s qcb 0x10) →
        (v + 2 ^ 64 - qW s qcb 0x28) % 2 ^ 64 ≤ qSize (qW s qcb 0x10) →
        let t := setQW s qcb 0x28 v
        exec (.doorbellTail port q v) s = .next (if qState s qcb = 1 ∧ v ≠ qW t qcb 0x20 then setQState t q qcb 2 0 else t)) ∧
      (qState s qcb ≠ 0 → exec (.doorbellCrHead port q v) s = .next (setQW s qcb 0x38 v))) ∧
    (qState s qcb = 0 → qcbOk s q qcb = true →
      let t := updQueue s q fun _ => blankQueue
      exec (.qctlEnable q) s = .next (qstat (setQState t q qcb (if qW t qcb 0x28 = qW t qcb 0x20 then 1 else 2) 0) 0)) ∧
    (qState s qcb ≠ 0 → exec (.qctlDisable q) s = .next (qstat (disableQueue s q qcb) 0)) ∧
    (qState s qcb ∈ [0, 4, 5] → noneOutstanding s (queueAt s q) = true →
      let n := reg s 0x18
      let t := setQW (setQW (setQW (setQW s qcb 0x20 n) qcb 0x28 n) qcb 0x30 n) qcb 0x38 n
      exec (.qctlReset q) s = .next (qstat (setQState (updQueue t q fun _ => blankQueue) q qcb 0 0) 0)) ∧
    ((queueAt s q).disabling = true → noneOutstanding s (queueAt s q) = true →
      exec (.disableDone q) s = .next (setQState (updQueue s q fun _ => blankQueue) q qcb 0 0)) ∧
    (∀ l, l < 9 →
      ((walkAt s l).1 = 0 → rlHead s l = 0 → (walkAt s l).2 + 1000 ≤ timeNow s → exec (.rlPassTick l) s = .next
        (updFe (setReg s (0xC0 + 8 * l) ((reg s (0xC0 + 8 * l) + 1) % 2 ^ 32)) fun x =>
          { x with walks := tput x.walks l (0, (walkAt s l).2 + 1000) })) ∧
      ((walkAt s l).1 ≠ 0 → homeFree s (walkAt s l).1 8 = true → (l = 0 ∨ servedAt s l (walkAt s l).1 = false) → exec (.rlPassTick l) s = .next (walkOn s l)))

/-- R340 to R346, R348 to R350: a command at the head of a linked queue that may be dispatched has its effect and the head moves on: NOP and
a fence that all earlier commands have completed before are complete, COPY runs in chunks, SIGNAL and TIMESTAMP store, WAIT completes
when its condition holds and else holds the queue, IB opens its buffer, a launch that passes its tests becomes a grid; the oldest
command that is complete gets its record, with its queue in ERROR when a command that has STOP failed. -/
def Obligations.QueueCommandsComplete : Prop :=
  ∀ (s u u1 : State) (q qcb : Nat) (bs : List Byte),
    let idx := headIdx s qcb
    let asid := headAsid s qcb
    let w (n : Nat) : Nat := cw bs n
    let va : Word := BitVec.ofNat 64 (w 1)
    let put (t : State) (c : FeCmd) : Host.Outcome State Fault Refusal := .next (dispatchCmd t q qcb (w 0) c)
    (HeadReady s q 0 qcb bs u → exec (.nop q) s = put u (finished idx 0 0 0 0)) ∧
    (HeadReady s q 8 qcb bs u → (queueAt u q).cmds.all (cmdDone u) = true → exec (.frontEndFence q) s = put u (finished idx 8 0 0 0)) ∧
    (HeadReady s q 3 qcb bs u → (queueAt s q).cmds.find? copying = none → ¬ (w 3 ≠ 0 ∧ w 1 < w 2 + w 3 ∧ w 2 < w 1 + w 3) →
      exec (.copy q) s = put u { finished idx 3 0 0 0 with run := if w 3 = 0 then .done else .copy (w 1) (w 2) (w 3) [] }) ∧
    (∀ c src dst left ids, qcbOf s q = some qcb → qFree s q = true → (queueAt s q).cmds.find? copying = some c → c.run = .copy src dst left ids →
      (queueAt (takeNotes s) q).cp.page = none → ctxDead (takeNotes s) asid = false →
      exec (.copy q) s = .next (copyChunk (takeNotes s) q qcb asid src dst left ids)) ∧
    (∀ pa c, HeadReady s q 4 qcb bs u →
      (w 3 = 0 → feLocate u q qcb asid va .store = (.at_ (.hbm pa c), u1) →
        exec (.signal q) s = put (feStore u1 asid pa (leBytes 8 (w 2))).2 (reqCmd idx 4 (feStore u1 asid pa (leBytes 8 (w 2))).1)) ∧
      (w 3 = 1 → feLocate u q qcb asid va .amo = (.at_ (.hbm pa c), u1) →
        exec (.signal q) s = put (pushReq { u1 with nextUid := u1.nextUid + 1 }
          ⟨u1.nextUid, 4, 255, 0, asid, pa, .auAtomic 1 8 false (w 2) 0, [], .none, false, [], false⟩) (reqCmd idx 4 [u1.nextUid]))) ∧
    (∀ pa c, HeadReady s q 7 qcb bs u → feLocate u q qcb asid va .store = (.at_ (.hbm pa c), u1) →
      let r := feStore u1 asid pa (leBytes 8 (timeNow u % 2 ^ 64))
      exec (.timestamp q) s = put r.2 (reqCmd idx 7 r.1)) ∧
    (∀ d, HeadReady s q 5 qcb bs u → feRead u q false asid va 8 = (.ok d, u1) →
      (waitHolds (w 4) (leNat d) (w 2) (w 3) = true → exec (.waitCmd q) s = put u1 (finished idx 5 0 0 0)) ∧
      (waitHolds (w 4) (leNat d) (w 2) (w 3) = false →
        exec (.waitCmd q) s = .next (holdQueue (updQueue u1 q fun x =>
          { x with waiting := true, hd := { x.hd with buf := [] } }) q qcb))) ∧
    (∀ d, (queueAt s q).waiting = true →
      let t := updQueue s q fun x => { x with waiting := false }
      HeadReady t q 5 qcb bs u → feRead u q false (headAsid t qcb) va 8 = (.ok d, u1) →
      waitHolds (w 4) (leNat d) (w 2) (w 3) = true → exec (.waitPoll q) s = put u1 (finished (headIdx t qcb) 5 0 0 0)) ∧
    (HeadReady s q 6 qcb bs u → (queueAt u q).ibs.length < 4 → exec (.ib q) s = .next
      (setQState (updQueue (openRec u q idx (w 0)) q fun x => { x with ibs := (w 1, 0, w 2) :: x.ibs, hd := blankWait }) q qcb 2 0)) ∧
    (∀ d gang, HeadReady s q (if gang then 2 else 1) qcb bs u → feRead u q false asid va 64 = (.ok d, u1) → descBad d (some gang) = none →
      let g := queueGrid u1 q idx qcb asid bs d
      ctxFree u1 asid = true → gangHomeWaits u1 g = false → tenantCores u1 g.tenant ≠ [] → launchReject u1 g.tenant g.cls g.level g.release g.dline g.budget g = none →
      exec (if gang then .launchGang q else .launch q) s = .next (acceptLaunch u1 q idx qcb bs g)) ∧
    (∀ i w0 rest c, qcbOf s q = some qcb → qFree s q = true → (queueAt s q).recs = (i, w0) :: rest → ringDone s qcb (queueAt s q) i = some c →
      (stopHit s q qcb = none → exec (.completionRecord q) s = .next (writeRecord s q qcb i w0 c)) ∧
      (∀ j r, stopHit s q qcb = some (j, r) → qState s qcb ∉ [0, 4, 5] →
        exec (.completionRecord q) s = .next (writeRecord (enterError s q qcb j r) q qcb i w0 c)))

/-- R24, R25, R32, R104, R129, R331, R347, R350, R351: a released grid's next team, or a whole gang at once, claims its cores; the launch message
starts the harts, those of a gang all at once; a child request gets a grid or is refused; a placed launch lets its queue go on; a tenant's registers are committed and
a patch image takes effect; the counts of FE_STAT clear; a grid whose teams and children have ended retires with its status. -/
def Obligations.PlacementAndTenantsComplete : Prop :=
  ∀ (s s1 : State) (gk : Nat) (g : Grid), tget s.work.grids gk = some g →
    (mayPlace s g = true → outrankedGrid s gk g = false → savedFirst s g = false → ∀ r, dataHome s g = (r, s1) →
      (r = .any ∨ ∃ c, r = .core c) → recUnits g.spec ≤ saveUnits s1 g.asid →
      (∀ cl rec, g.spec.gang = false → bestClaim s1 gk g (homeCore? r) (List.range g.spec.harts) none = some cl →
        allocRec s1 g.asid (recUnits g.spec) = some rec → exec (.teamPlacement gk) s = .next (claimTeam (notePlaced s1 gk g) gk g cl rec)) ∧
      (∀ t, g.spec.gang = true → placeGang gk (homeCore? r) g.spec.teams s1 = some t →
        exec (.gangRetest gk) s = .next { t with arbs := (notePlaced s1 gk g).arbs })) ∧
    (∀ q qcb, (queueAt s q).placing = some gk → qcbOf s q = some qcb → qFree s q = true →
      (g.placed = false → g.release ≤ timeNow s → exec (.releaseTime q) s = .next (updGrid s gk fun g => { g with release := 0 })) ∧
      (g.placed = true → exec (.releaseTime q) s = .next (advanceHead (updQueue s q fun x => { x with
        cmds := x.cmds.map fun c => if launches gk c then { c with info := g.num } else c }) q qcb))) ∧
    (∀ i tk t, s.fe.lmsgs[i]? = some tk → tget s.work.teams tk = some t → t.grid = gk → t.stat = .placed →
      let u : State := { s with fe := { s.fe with lmsgs := dropAt s.fe.lmsgs i } }
      exec (.launchMessage i) s = .next (if g.spec.gang
        then (s.work.teams.filter fun p => p.2.grid == gk && p.2.stat == .placed).foldl (fun u p => startTeam u p.1 p.2 g) u
        else startTeam u tk t g)) ∧
    (∀ i r t, s.fe.greqs[i]? = some r → tget s.work.teams r.team = some t → t.grid = gk → ctxFree s t.asid = true →
      gangHomeWaits s (askedGrid r t g) = false →
      exec (.glaunchRequest i) s = .next (childGrid (updFe s fun x => { x with greqs := dropAt x.greqs i }) r t g)) ∧
    (∀ v, v.testBit 4 = true → commitResult s (v % 16) ≠ 0 → exec (.tenantCommit v) s = .next
      (setReg s 0x308 (commitResult s (v % 16) + if s.fe.commit.isEmpty then 0 else 4))) ∧
    (∀ v, v.testBit 4 = true → commitResult s (v % 16) = 0 →
      let t := v % 16
      let u := updFe s fun x => { x with rect := tput x.rect t (reg s (tenRectReg t)), cls := tput x.cls t (regD s (tenClsReg t) 7 % 8),
                                         commit := s.fe.commit.filter (·.1 != t) ++ [(t, s.clock.time + 20000)] }
      exec (.tenantCommit v) s = .next
        (setReg (fullClock { u with sch := { u.sch with rsv := tput u.sch.rsv t (regD u (rsvReg t) rsvReset) } }) 0x308 4)) ∧
    (∀ c rest, s.fe.commit = c :: rest → exec .tenantCommitDone s = .next
      (setReg (updFe s fun x => { x with commit := rest }) 0x308 (setBits (reg s 0x308) 2 1 (if rest.isEmpty then 0 else 1)))) ∧
    (∀ v, v % 2 = 1 → reg s 0x190 ≠ 1 → homeFree s (reg s 0x180) 0x1170 = true →
      let img := peekHome s (reg s 0x180) 0x1170
      exec (.patchGo v) s = .next (if Config.sigOk img = false then setReg s 0x190 2 else if patchOk img = false then setReg s 0x190 3
        else if leNat ((img.drop 4).take 4) ≤ reg s 0x198 then setReg s 0x190 4
        else updFe (setReg s 0x190 1) fun x => { x with patchNext := some (img.take 0x1110) })) ∧
    (∀ img, s.fe.patchNext = some img → exec .patchSwap s = .next
      (setReg (setReg (updFe s fun x => { x with patch := img, patchNext := none }) 0x190 5) 0x198 (leNat ((img.drop 4).take 4)))) ∧
    exec .feClrDbdrop s = .next (setReg s feStat (setBits (reg s feStat) 0 16 0)) ∧
    exec .feClrOvr s = .next (setReg s feStat (setBits (reg s feStat) 16 16 0)) ∧
    (g.retired = false → g.placed = true → g.liveTeams = 0 → g.children = 0 → missDue s g = false → zeroDue s gk g = false →
      let t := updGrid s gk fun g => { g with retired := true, status := gridStatus g }
      (∀ q i, g.origin = .queue q i → exec (.gridRetire gk) s = .next t) ∧
      (∀ p tm, g.origin = .team p → tget s.work.teams p = some tm →
        exec (.gridRetire gk) s = .next (settleAcct (updGrid t tm.grid fun q => { q with children := q.children - 1 }) g.acct)))

/-- R354, R355, R358, R360 to R364: posted writes within the Max Payload Size reach the ordering point as line pieces, reads and AtomicOps as
requests; errors are counted, reported through AER and answered, and a request whose ECRC fails is reported and dropped; a request that R361 lets go is sent, or completes; a home's acknowledgement removes its piece; CXL.mem reads give the host the line. -/
def Obligations.InboundTrafficCompletes : Prop :=
  ∀ (s : State) (port : Nat),
    let id := (freshUid s).1
    let f := (freshUid s).2
    (∀ rid addr data ro, port < 2 → hpMode s port ≠ 0 → data ≠ [] → ecrcFails rid = true →
      exec (.inboundWrite port 4 rid ro addr data) s = .next (aerReport s port .ecrc)) ∧
    (∀ bar rid addr data ro, port < 2 → hpMode s port ≠ 0 → data ≠ [] → ecrcFails rid = false →
      (maxPayload s port < data.length → exec (.inboundWrite port bar rid ro addr data) s = .next (aerReport s port .malformed)) ∧
      (data.length ≤ maxPayload s port →
        (addr + data.length ≤ hbmEnd → exec (.inboundWrite port 4 rid ro addr data) s = .next
          ((splitLines addr data).foldl (fun s p => arriveIn s id port rid ro p.1 (.piece p.2)) f)) ∧
        (hbmEnd < addr + data.length → exec (.inboundWrite port 4 rid ro addr data) s = .next (aerReport (inErr s port 0) port .ur)) ∧
        (data.length = 8 → addr % 8 = 0 →
          exec (.inboundWrite port 0 rid ro addr data) s = .next (arriveIn f id port rid ro addr (.mmio 0 data))) ∧
        (data.length ≠ 8 ∨ addr % 8 ≠ 0 → exec (.inboundWrite port 0 rid ro addr data) s = .next (inErr s port 32)) ∧
        exec (.inboundWrite port 2 rid ro addr data) s = .next (arriveIn f id port rid ro addr (.mmio 2 data)))) ∧
    (∀ bar rid addr len, port < 2 → hpMode s port ≠ 0 → ecrcFails rid = false →
      exec (.inboundRead port bar rid addr len) s = .next (arriveIn f id port rid false addr (.read bar len))) ∧
    (∀ rid addr op len a b, port < 2 → hpMode s port ≠ 0 → ecrcFails rid = false →
      (op ∈ [0, 1, 7] → len ∈ [4, 8] →
        exec (.inboundAtomicop port 4 rid addr op len a b) s = .next (arriveIn f id port rid false addr (.atomic op len a.toNat b.toNat))) ∧
      (op ∉ [0, 1, 7] ∨ len ∉ [4, 8] → exec (.inboundAtomicop port 4 rid addr op len a b) s = .next (inFail s port rid 1))) ∧
    (∀ i r, s.hp.inq[i]? = some r → r.sent = false → mayGo s i r = true →
      (∀ bs, r.kind = .piece bs → (128 ≤ bs.length ∨ anyLost s r.addr bs.length = false) →
        exec (.pieceSend i) s = .next (pushIn s r .homeWrite bs)) ∧
      (∀ bs, r.kind = .piece bs → bs.length < 128 → anyLost s r.addr bs.length = true →
        exec (.pieceSend i) s = .next (lostWrite (inDone s r) r.port)) ∧
      (∀ bar bs, r.kind = .mmio bar bs → mmioFree s bar r.addr (leNat bs) = true → exec (.pieceSend i) s = .next (mmioWrite (inDone s r) bar r.addr bs)) ∧
      (∀ bar len, r.kind = .read bar len → bar ≠ 4 → (bar < 4 → mmioFree s bar r.addr 0 = true) → exec (.pieceSend i) s = .next
        (complete (mmioRead (inDone s r) r.port bar r.addr len).2 r.port r.rid 0 r.addr (mmioRead (inDone s r) r.port bar r.addr len).1)) ∧
      (∀ len bs t, r.kind = .read 4 len → r.addr + len ≤ hbmEnd → anyLost s r.addr len = false → readHome s r.addr len = some (bs, t) →
        exec (.pieceSend i) s = .next (complete (inDone t r) r.port r.rid 0 r.addr bs)) ∧
      (∀ len, r.kind = .read 4 len → (hbmEnd < r.addr + len → exec (.pieceSend i) s = .next (inFail (inDone s r) r.port r.rid 1)) ∧
        (r.addr + len ≤ hbmEnd → anyLost s r.addr len = true → exec (.pieceSend i) s = .next (inFail (inDone s r) r.port r.rid 2))) ∧
      (∀ op n a b, r.kind = .atomic op n a b → r.addr + n ≤ hbmEnd → r.addr % n = 0 → anyLost s r.addr n = false →
        exec (.pieceSend i) s = .next (pushIn s r (.auAtomic op n false (a % 2 ^ (8 * n)) (b % 2 ^ (8 * n))) []))) ∧
    (∀ i r q, s.hp.inq[i]? = some r → (s.mem.replies.find? fun q => q.to_ == .piece r.port r.id) = some q →
      let t := inDone (updMem s fun m => { m with replies := m.replies.filter fun p => !(p.to_ == .piece r.port r.id) }) r
      (∀ bs, r.kind = .piece bs → exec (.pieceAck i) s = .next (if q.unsup = true then lostWrite t r.port else t)) ∧
      (∀ op n a b, r.kind = .atomic op n a b → exec (.pieceAck i) s = .next
        (if q.unsup = true then inFail t r.port r.rid 2 else complete t r.port r.rid 0 0 (leBytes n q.value.toNat)))) ∧
    (∀ addr, port < 2 → hpMode s port = 2 → inHdm s port addr = true → addr % 64 = 0 →
      let line := lineOf addr
      let own := updMem s fun m => { m with hostHeld := m.hostHeld.filter (· != (port, line)) }
      (∀ data, isLost s line = false → data.length = 64 → exec (.cxlMemAccess port addr true data) s = .next (feStore own noAsid addr data).2) ∧
      (∀ data bs t, isLost s line = false → readHome own addr 64 = some (bs, t) → exec (.cxlMemAccess port addr false data) s = .next
        (complete (updMem t fun m => { m with hostHeld := m.hostHeld ++ [(port, line)] }) port 0 0 addr bs)))

/-- R353, R354, R359, R366, R367, R370, R373, R375: the host answers an outbound request with its data, or with an error that is counted and
becomes the access's fault; an answer that does not come kills the context; links train and go down; a function's reset; D3hot; MSI-X
unmasking; the service queue; the error counts. -/
def Obligations.HostPortEventsComplete : Prop :=
  ∀ (s : State) (port : Nat),
    (∀ i o, (s.mem.out.find? fun o => o.id == i && o.port == port && outSent s o) = some o →
      (∀ data, data.length = o.size →
        exec (.outboundCompletion port i 0 data) s = .next (hostAnswer (hostView (dropOut s o) o data) o 0 data)) ∧
      (∀ data, o.atomic = none → exec (.outboundCompletion port i 1 data) s = .next
        (hostAnswer (bumpField (dropOut s o) (hpErr port) 16 16 1) o 0x0502 [])) ∧
      (∀ data, o.atomic ≠ none → exec (.outboundCompletion port i 1 data) s = .next
        (hostAnswer (bumpField (dropOut s o) (hpErr port) 0 16 1) o 0x0501 [])) ∧
      (∀ data, exec (.outboundCompletion port i 3 data) s = .next (contextFault (bumpField (dropOut s o) (hpErr port) 48 16 1) o.asid 5)) ∧
      (o.clk + regD s (hpCto port) 50000 * 1800 ≤ s.clock.clk →
        exec (.completionTimeout port i) s = .next (contextFault (bumpField (dropOut s o) (hpErr port) 32 16 1) o.asid 5))) ∧
    (port < 2 →
      (∀ width rate, hpMode s port = 0 → s.booted = true → width ∈ [1, 2, 4, 8, 16] → rate ∈ [2, 5, 8, 16, 32, 64, 128] →
        ¬ ((reg s pfBoot).testBit 14 = true ∧ reg s pfBoot % 4 = 3 ∧ 8 < width) → exec (.linkTraining port 1 width rate) s = .next
          (setReg s (hpBase port) (setBits (setBits (setBits (hpStat s port) 0 2 1) 2 5 width) 8 8 rate))) ∧
      (hpMode s port ≠ 0 →
        exec (.linkDown port) s = .next (killPort (setReg s (hpBase port) (setBits (setBits (hpStat s port) 0 7 0) 8 8 0)) port)) ∧
      (s.fe.queues = [] →
        let t := updHp (updXl s fun x => { x with atc := tput x.atc port [] }) fun h => { h with svc := tput h.svc port [] }
        exec (.functionLevelReset port) s = .next
          (killPort (msixReset (setReg (setReg (setReg t (hpErr port) 0) (hpInerr port) 0) (svcStat port) 0) port) port)) ∧
      (liveAsids s = [] → exec (.d3hotRequest port true) s = .next (updHp s fun h => { h with d3 := h.d3.filter (· != port) ++ [port] })) ∧
      (∀ v, v < 2048 → exec (.msixUnmask port v) s = .next (msixWrite s port v 1 (setBits (msixWord s port v 1) 32 1 0))) ∧
      (∀ hart, exec (.svcDb port hart) s = .next (svcPush s port (hart % 2 ^ 16)))) ∧
    exec (.d3hotRequest port false) s = .next (updHp s fun h => { h with d3 := h.d3.filter (· != port) }) ∧
    exec (.svcPop port) s = .next (updHp (svcTake s port).2 fun h => { h with comp := [⟨port, 0, 0, leBytes 8 (svcTake s port).1⟩] }) ∧
    exec (.svcClr port) s = .next (setReg s (svcStat port) 0) ∧ exec (.hpErrclrErr port) s = .next (setReg s (hpErr port) 0) ∧
    exec (.hpErrclrInerr port) s = .next (setReg s (hpInerr port) 0)

/-- R377 to R382, R395: on an Ethernet port that is up the descriptor at TX_HEAD is sent with its stamp, then written back with DONE, and
TX_HEAD advances; indexes and configurations are written within their rules; the clock is latched, stepped and sampled; the counters
clear; the link comes and goes. -/
def Obligations.EthernetTransmitAndClocksComplete : Prop :=
  ∀ (s : State) (e : Nat), e < 4 →
    (ethUp s e = true → (reg s (ethReg e 0x88)).testBit 4 = true → reg s (ethReg e 0x98) < reg s (ethReg e 0x90) → (ethAt s e).tx = none →
      let i := reg s (ethReg e 0x98)
      let at_ := reg s (ethReg e 0x80) + 32 * (i % txSlots s e)
      let d := peekHome s at_ 32
      let len := leNat ((d.drop 8).take 2)
      60 ≤ len → len + 4 ≤ maxFr s e → homeFree s at_ 32 = true → homeFree s (leNat ((d.drop 0).take 8)) len = true →
      let ns := (takeStamp s e).1
      exec (.frameTransmit e) s = .next (updEth (ethCount (takeStamp s e).2 e 0x130) e fun x => { x with
        sent := wireFrame (peekHome s (leNat ((d.drop 0).take 8)) len),
        tx := some ⟨i, if (leNat ((d.drop 0xA).take 1)).testBit 0 then some (nsOf ns, secOf ns) else none, false, 0, []⟩ })) ∧
    (∀ t, (ethAt s e).tx = some t → t.reqs.all (reqDone s) = true →
      let at_ := reg s (ethReg e 0x80) + 32 * (t.idx % txSlots s e)
      (t.stage = 0 → t.stamp = none → exec (.txWriteback e) s = .next (updEth s e fun x => { x with tx := some { t with stage := 1 } })) ∧
      (t.stage = 1 → homeFree s (at_ + 0xA) 1 = true →
        let r := feStore s noAsid (at_ + 0xA) (leBytes 1 (leNat (peekHome s (at_ + 0xA) 1) % 2 + 2 + 4 * b2n t.err))
        exec (.txWriteback e) s = .next (updEth r.2 e fun x => { x with tx := some { t with stage := 2, reqs := r.1 } })) ∧
      (t.stage = 2 → exec (.txWriteback e) s = .next (setReg (updEth s e fun x => { x with tx := none }) (ethReg e 0x98) (t.idx + 1)))) ∧
    (∀ v, reg s (ethReg e 0x90) ≤ v → v ≤ reg s (ethReg e 0x98) + txSlots s e → exec (.txTail e v) s = .next (setReg s (ethReg e 0x90) v)) ∧
    (∀ v, (reg s (ethReg e 0x88)).testBit 4 = false → v % 16 < 9 → v.testBit 4 = false →
      exec (.txCfgWrite e v) s = .next (setReg s (ethReg e 0x88) (v % 16))) ∧
    (∀ r v, r < 16 →
      (reg s (rgReg e r 0x18) ≤ v → v ≤ reg s (rgReg e r 0x20) → exec (.rgHeadWrite e r v) s = .next (setReg s (rgReg e r 0x18) v)) ∧
      ((reg s (rgReg e r 0x10)).testBit 24 = true →
        exec (.rgCfgWrite e r v) s = .next (setReg (if v.testBit 24 then s else ringOff s e r) (rgReg e r 0x10)
          (setBits (reg s (rgReg e r 0x10)) 24 1 (b2n (v.testBit 24)))))) ∧
    exec (.ptpLatch e) s = .next (setReg (setReg (setReg s (ethReg e 0x28) (secOf (ethNs s e))) (ethReg e 0x30) (nsOf (ethNs s e)))
      (ethReg e 0x38) (timeNow s)) ∧
    (∀ v, v < 2 ^ 63 → exec (.ptpStep e v) s = .next (ptpSample (updEth s e fun x =>
      { x with clock := (x.clock + v * 2 ^ 32) % clockRange }) e)) ∧
    ((ethAt s e).sampled + 1800 ≤ s.clock.clk →
      let t := updEth (ptpSample s e) e fun x => { x with sampled := s.clock.clk }
      exec (.ptpSample e) s = .next (if e = 0 then steerTime t else t)) ∧
    exec (.ethCntClr e) s = .next ((List.range 11).foldl (fun s j => setReg s (ethReg e (0x100 + 8 * j)) 0) s) ∧
    exec (.ethLinkLoss e) s = .next (setReg s (ethReg e 0) 0) ∧
    (s.booted = true → (reg s pfBoot).testBit 16 = false → exec (.ethLinkUp e) s = .next (setReg s (ethReg e 0) 0x803))

/-- R377, R383 to R388: a frame that is good, for the port and taken by a filter goes to its ring; an entry's pieces are sent once the entries
before it in its ring are whole, SEQ once they have been acknowledged, and RG_TAIL advances once SEQ has; a message action posts its handler message, a launch action its descriptor, its
command and its doorbell, each after the one before it. -/
def Obligations.EthernetReceiveCompletes : Prop :=
  ∀ (s : State) (e : Nat),
    (∀ f k act, ethUp s e = true → crc32 (f.take (f.length - 4)) = leNat (f.drop (f.length - 4)) →
      let t := ethCount s e 0x100
      let p := parseFrame f
      64 ≤ f.length → f.length ≤ maxFr t e → isPause f p = false → sumsOk f p = true →
      (forUs t e f = false → exec (.frameReceive e f) s = .next (ethCount t e 0x110)) ∧
      (forUs t e f = true → isRoce t e f p = false → takeFilter t e f p = some (k, act) → bitsOf act 4 2 ≠ 3 →
        exec (.frameReceive e f) s = .next (ringWrite t e k act f p))) ∧
    (∀ f, ethUp s e = true → crc32 (f.take (f.length - 4)) ≠ leNat (f.drop (f.length - 4)) →
      exec (.frameReceive e f) s = .next (ethCount s e 0x108)) ∧
    (∀ f, ethUp s e = true → crc32 (f.take (f.length - 4)) = leNat (f.drop (f.length - 4)) → isPause f (parseFrame f) = true →
      exec (.frameReceive e f) s = .next (ethCount (ethCount s e 0x100) e 0x108)) ∧
    (∀ i j, (ethAt s e).rx[i]? = some j → ((ethAt s e).rx.take i).any (underWay j.ring) = false → j.reqs.all (reqDone s) = true →
      (j.stage = 4 → exec (.ringSeqWrite e i) s = .next (updJobRx (sendPieces s e j).2 e i fun _ => (sendPieces s e j).1)) ∧
      (j.stage = 0 →
        let r := feStore s (rgAsid s e j.ring) (reg s (rgReg e j.ring 0) + rgOff s e j.ring j.idx + 0x18) (leBytes 8 (j.idx + 1))
        exec (.ringSeqWrite e i) s = .next (updJobRx r.2 e i fun j => { j with stage := 5, reqs := r.1 })) ∧
      (j.stage = 5 →
        let t := setReg s (rgReg e j.ring 0x20) (j.idx + 1)
        exec (.ringSeqWrite e i) s = .next (if rxAct j = 0 then dropRx t e i else updJobRx t e i fun j => { j with stage := 1 }))) ∧
    (∀ i j, rxAt s e i 1 = some j →
      (rxAct j = 1 → buffered64 s ((ethAt s e).rx.take i) (ethAt s e).imms < 64 → (((ethAt s e).rx.take i).any fun q => rxAct q == 1) = false →
        ctxFree s (rgAsid s e j.ring) = true →
        exec (.ingressMessage e i) s = .next (postHandler (dropRx s e i) e (rgAsid s e j.ring) (bitsOf j.act 6 2) (bitsOf j.act 8 2)
          (Nat.land (tgReg s e j 8) 0x7730000) (tgReg s e j 0x18 % 2 ^ 40) (BitVec.ofNat 64 (tgReg s e j 0))
          (netDeadline (bitsOf j.act 6 2) j.dts (tgReg s e j 0x10 % 2 ^ 32)) (BitVec.ofNat 64 (entryVa s e j)) (BitVec.ofNat 64 j.dts))) ∧
      (rxAct j = 2 → earlierLaunch s e i = false → qFree s (launchQid s e j) = true → homeFree s (tgReg s e j 0) 64 = true → launchQueue s e j ≠ none →
        let d := peekHome s (tgReg s e j 0) 64
        let r := feStore s (rgAsid s e j.ring) (reg s (rgReg e j.ring 0) + descOff s e j)
          (d.take 0x28 ++ leBytes 8 (entryVa s e j) ++ leBytes 8 j.dts ++ d.drop 0x38)
        exec (.ingressDescriptorCopy e i) s = .next (updJobRx r.2 e i fun j => { j with stage := 2, reqs := r.1 }))) ∧
    (∀ i j qcb, rxAt s e i 2 = some j → qFree s (launchQid s e j) = true → qcbOf s (launchQid s e j) = some qcb →
      let r := feStore s (rgAsid s e j.ring) (qW s qcb 8 + 64 * (qW s qcb 0x28 % qSize (qW s qcb 0x10)))
        (leBytes 8 (1 + j.idx % 2 ^ 32 * 2 ^ 32) ++ leBytes 8 (reg s (rgReg e j.ring 8) + descOff s e j) ++ leBytes 8 0 ++
          leBytes 8 (j.dts + tgReg s e j 0x10 % 2 ^ 32) ++ leBytes 8 (tgReg s e j 0x18 % 2 ^ 40) ++ List.replicate 24 0)
      exec (.ingressLaunchCommand e i) s = .next (updJobRx r.2 e i fun j => { j with stage := 3, reqs := r.1 })) ∧
    (∀ i j qcb, rxAt s e i 3 = some j → qFree s (launchQid s e j) = true → qcbOf s (launchQid s e j) = some qcb → launchQueue s e j ≠ none →
      exec (.ingressTailAdvance e i) s = .next (doorbellTail (dropRx s e i) (launchQid s e j) (qW s qcb 0x28 + 1)))

/-- R391, R392: a doorbell captures the entry of its pair and moves its tail, or, past what its queue holds, puts the pair in ERROR; the next
work entry of a ready pair runs once its local range is known, its packets taking the next sequence numbers; of a pair in ERROR it is flushed. -/
def Obligations.RoceEventsComplete : Prop :=
  ∀ (s s2 : State) (e qp : Nat), e < 4 →
    (∀ v, qp < reg s (ethReg e 0xC08) → homeFree s (qpAt s e qp) 64 = true →
      let t := updQp s e qp fun x => { x with ent := peekHome s (qpAt s e qp) 64 }
      let x := qpOf t e qp
      let more := (v + 2 ^ 32 - x.tail % 2 ^ 32) % 2 ^ 32
      qpBad t e qp = false → qpState t e qp ≠ 0 →
      (x.tail + more - x.head ≤ 2 ^ (qpField t e qp 0x14 1 + 4) →
        exec (.rcDb e qp v) s = .next (updQp t e qp fun x => { x with tail := x.tail + more })) ∧
      (2 ^ (qpField t e qp 0x14 1 + 4) < x.tail + more - x.head → exec (.rcDb e qp v) s = .next (breakQp t e qp x.tail 6))) ∧
    (let x := qpOf s e qp
     let w := readWork s e qp x.head
     qpLive s e qp = true → x.head < x.tail → homeFree s (workAt s e qp x.head) 64 = true →
      (∀ l, qpState s e qp = 1 → workBad s e qp x.head = false → (w.op = 2 → (x.work.any fun v => v.op != 2 && !v.acked) = false) →
        rcParts s (qpAsid s e qp) w.lva w.len (if w.op = 2 then .store else .load) = (.ok l, s2) →
        let u := updQp s2 e qp fun x => { x with head := x.head + 1 }
        let n := packets u e qp w.len
        let g := if w.op = 2 then ([], u) else rcGather u (qpAsid u e qp) l
        let first := (qpOf u e qp).psn
        exec (.workEntryRun e qp) s = .next (updQp (sendPackets (updEth g.2 e fun y => { y with sent := g.1 }) e (if w.op = 2 then 1 else n)) e qp fun y =>
          { y with psn := (y.psn + n) % 2 ^ 24, since := if y.work.all (·.acked) then g.2.clock.clk else y.since,
                   work := y.work ++ [{ w with first := first, last := (first + n - 1) % 2 ^ 24 }] })) ∧
      (qpState s e qp = 2 → exec (.workEntryRun e qp) s = .next (retireQp (updQp s e qp fun x =>
        { x with head := x.head + 1, work := x.work ++ [{ w with status := 6, acked := true, reqs := [] }] }) e qp)))

/-- R378, R392, R395: an ACK marks the writes that it covers and they complete in order; a NAK for the sequence retransmits, and a fatal one breaks
its pair; a READ response is written at its place; 65 µs without an answer retransmit, and after seven retransmissions the pair fails. -/
def Obligations.RoceResponsesComplete : Prop :=
  ∀ (s : State) (e qp : Nat), e < 4 → qpLive s e qp = true →
    (∀ psn data, ethUp s e = true → roceOn s e = true → qp < reg s (ethReg e 0xC08) →
      let fresh (s : State) : State := updQp s e qp fun x => { x with since := s.clock.clk }
      exec (.roceResponsePacket e qp psn 0 data) s = .next (retireQp (updQp s e qp fun x =>
        { x with since := s.clock.clk, retries := 0, work := x.work.map (ackWork (qpMtu s e qp) psn) }) e qp) ∧
      exec (.roceResponsePacket e qp psn 1 data) s = .next (resend (fresh (ethCount s e 0x138)) e qp) ∧
      (∀ w k, ((qpOf s e qp).work.find? fun w => !w.acked && holdsPsn w psn) = some w → k = 2 ∨ k = 3 →
        exec (.roceResponsePacket e qp psn k data) s = .next (breakQp (ethCount s e 0x138) e qp w.j (if k = 2 then 3 else 5))) ∧
      (∀ w l s2, qpState s e qp = 1 → ((qpOf s e qp).work.find? fun w => w.op == 2 && !w.acked) = some w →
        psn = (w.first + w.moved / qpMtu s e qp) % 2 ^ 24 → data.length = min (qpMtu s e qp) (w.len - w.moved) →
        rcParts s (qpAsid s e qp) (w.lva + w.moved) data.length .store = (.ok l, s2) →
        let r := rcScatter s2 (qpAsid s2 e qp) w.reqs l data
        let w' := { w with moved := w.moved + data.length, reqs := w.reqs ++ r.1, acked := w.moved + data.length == w.len }
        exec (.roceResponsePacket e qp psn 4 data) s = .next (retireQp (updQp r.2 e qp fun x =>
          { x with since := r.2.clock.clk, retries := 0, work := x.work.map fun v => if v = w then w' else v }) e qp))) ∧
    (∀ w, ((qpOf s e qp).work.find? fun w => !w.acked) = some w → (qpOf s e qp).since + 117000 ≤ s.clock.clk →
      ((qpOf s e qp).retries < 7 → exec (.roceRetryTimeout e qp) s = .next (resend (updQp s e qp fun x =>
        { x with retries := x.retries + 1, since := s.clock.clk }) e qp)) ∧
      (7 ≤ (qpOf s e qp).retries → exec (.roceRetryTimeout e qp) s = .next (breakQp s e qp w.j 4)))

/-- R389, R391, R393, R394: of a ready pair, a WRITE Only that its key allows is written and waits for its ACK, a READ request is answered
with the bytes of its range, a packet past the expected one is answered with one NAK; a pair that is not ready refuses; a write with Immediate, all its data
acknowledged, posts its handler. -/
def Obligations.RoceRequestsComplete : Prop :=
  ∀ (s : State) (e : Nat),
    (∀ qp psn op va rkey len imm data, ethUp s e = true → roceOn s e = true → qp < reg s (ethReg e 0xC08) → homeFree s (qpAt s e qp) 64 = true →
      let t := updQp s e qp fun x => { x with ent := peekHome s (qpAt s e qp) 64 }
      let u := acksOut t e qp
      let p := psn % 2 ^ 24
      qpBad t e qp = false →
      (qpState t e qp ≠ 1 → exec (.roceRequestPacket e qp psn op va rkey len imm data) s = .next (rcAnswer t e qp psn 3)) ∧
      (qpState t e qp = 1 → p = (qpOf u e qp).epsn →
        (∀ l s2, op = 6 → homeFree u (mrAt u e rkey) 32 = true → keyOk u e qp rkey va len false = true →
          rcParts u (qpAsid u e qp) va len .load = (.ok l, s2) →
          let g := rcGather s2 (qpAsid s2 e qp) l
          let r := sendPackets (updEth g.2 e fun y => { y with sent := g.1 }) e (packets g.2 e qp len)
          exec (.roceRequestPacket e qp psn op va rkey len imm data) s = .next (updQp r e qp fun x =>
            { x with epsn := (x.epsn + packets r e qp len) % 2 ^ 24, nakOut := false })) ∧
        (∀ l s2,
          let v := updQp u e qp fun x => { x with wrs := (p, va, rkey, len) :: x.wrs }
          let before := ((qpOf v e qp).acks.flatMap fun a => a.2) ++ ((ethAt s2 e).imms.filter fun j => j.qp == qp).flatMap fun j => j.reqs
          op = 3 → data.length = len → len ≤ qpMtu v e qp → homeFree v (mrAt v e rkey) 32 = true → keyOk v e qp rkey va len true = true →
          rcPartsOf v (qpAsid v e qp) va len 0 len .store = (.ok l, s2) →
          let r := rcScatter s2 (qpAsid s2 e qp) before l data
          exec (.roceRequestPacket e qp psn op va rkey len imm data) s = .next (updQp (updQp r.2 e qp fun x =>
            { x with epsn := (x.epsn + 1) % 2 ^ 24, nakOut := false }) e qp fun x => { x with acks := x.acks ++ [(p, r.1)] }))) ∧
      (qpState t e qp = 1 → p ≠ (qpOf u e qp).epsn → psnAfter (qpOf u e qp).epsn p = false → (qpOf u e qp).nakOut = false →
        exec (.roceRequestPacket e qp psn op va rkey len imm data) s = .next
          (rcAnswer (updQp u e qp fun x => { x with nakOut := true }) e qp (qpOf u e qp).epsn 1))) ∧
    (∀ i j, (ethAt s e).imms[i]? = some j → j.reqs.all (reqDone s) = true → (((ethAt s e).imms.take i).any fun k => k.qp == j.qp) = false →
      ctxFree s (qpAsid s e j.qp) = true → buffered64 s (ethAt s e).rx ((ethAt s e).imms.take i) < 64 →
      let f := qpField s e j.qp
      let cls := f 0x16 1 % 4
      let t := updEth (acksOut s e j.qp) e fun x => { x with imms := dropAt x.imms i }
      let u := postHandler t e (qpAsid t e j.qp) cls (f 0x16 1 / 4 % 4) (Nat.land (f 0x30 4) 0x7730000) (f 0x38 5) (BitVec.ofNat 64 (f 0x28 8))
        (netDeadline cls j.dts (f 0x34 4)) (BitVec.ofNat 64 (j.imm + j.qp * 2 ^ 32)) (BitVec.ofNat 64 j.len)
      exec (.writeImmHandler e i) s = .next (acksOut (updQp u e j.qp fun x => { x with acks := (j.psn, []) :: x.acks }) e j.qp))

/-! ## The scheduler, the seams and the platform (15, 16, 17) -/

/-- R406 to R408, R413, R415, R421 to R423: an account at 0 starts its grace and what it pays for stops when it is over; a deadline is
missed once; an event's record is written while the ring has room; captures are requested for an Ibex grid, of a context that is
evicted and of a team whose window is over; the scheduler's registers are written. -/
def Obligations.SchedulerEventsComplete : Prop :=
  ∀ (s s1 : State),
    (∀ a ac, tget s.work.accts a = some ac →
      (atZero ac = true → exec (.accountZero a) s = .next (overrun s a ac)) ∧
      (∀ g, ac.graceEnd = some g → g ≤ s.clock.clk → ac.closed = false →
        ((s.harts.filter fun p => p.2.id.acct == a).any fun p => p.2.capture.isNone) = true → exec (.graceExpiry a) s = .next
          { s with harts := s.harts.map fun p => if p.2.id.acct = a ∧ p.2.capture.isNone then (p.1, { p.2 with capture := some s.clock.clk }) else p }))
    ∧
    (∀ gk g, tget s.work.grids gk = some g →
      (g.missed = false → g.retired = false → g.dline < 2 ^ 64 - 1 → g.dline ≤ timeNow s →
        let t := updGrid (raiseIrq s 20 (hartUnder s gk)) gk fun g => { g with missed := true }
        exec (.deadlineMiss gk) s = .next
          (pushEvent (bumpReg t cntMiss 63 1) { type := 6, asid := g.asid, grid := g.num, pa := 0, team := 0, core := 0xFF })) ∧
      (∀ r v n, mayPlace s g = true → g.cls = 0 → outrankedGrid s gk g = false → dataHome s g = (r, s1) → (r = .any ∨ ∃ c, r = .core c) →
        victimsFor s1 gk g (homeCore? r) = some v →
        exec (.captureRequest gk n 0) s = .next (v.foldl (fun s t => requestCapture s (ywaitIbex s) t) s1))) ∧
    (∀ tk t g, tget s.work.teams tk = some t → mustLeave s t = true →
      exec (.captureRequest g tk 1) s = .next (captureAll s (ywaitLower s) tk)) ∧
    (∀ tk t g n v, tget s.work.teams tk = some t → gridOf s t = some g → mayReturn s t = true → g.cls = 0 → outrankedGrid s t.grid g = false →
      victimsBack s tk t g = some v → exec (.captureRequest n tk 2) s = .next (v.foldl (fun s t => requestCapture s (ywaitIbex s) t) s)) ∧
    (∀ k h t e, hartAt s k = some h → teamOf s h = some t → t.yieldEnd = some e → e < slotClk s k → t.stat = .live →
      exec (.yieldWindowExpiry k) s = .next ((leavesWith s h.id.team).foldl forceCapture s)) ∧
    (∀ e rest, s.sch.evq = e :: rest → s.sch.evReqs = [] → (reg s evtCfg).testBit 4 = true → reg s evtTail < reg s evtHead + evtSize s →
      let n := reg s evtTail
      ((linesOf (reg s evtBase + 32 * (n % evtSize s)) 32).any (mustQueue s)) = false →
      let t := homeWrite s 0 (reg s evtBase + 32 * (n % evtSize s))
        (leBytes 1 e.type ++ leBytes 1 ((n / evtSize s + 1) % 2) ++ leBytes 2 e.asid ++ leBytes 4 e.grid ++ leBytes 8 e.pa ++
          leBytes 4 e.team ++ leBytes 1 e.core ++ List.replicate 3 0 ++ leBytes 8 (timeNow s))
      let u := setReg t evtTail (reg t evtTail + 1)
      let v := raiseDevv { u with sch := { u.sch with evq := rest, evReqs := [] } } 0
      exec .eventRecordWrite s = .next (match teamOfRec v e.pa with
        | some (tk, _) => finishHandOver v tk
        | none => v)) ∧
    (∀ asid,
      let t := ((s.work.teams.filter fun p => p.2.asid == asid).map (·.1)).foldl (fun s k => captureAll s (ywaitLower s) k)
        (updCtx s asid fun c => { c with hold := true })
      let hit (h : Hart) : Bool := h.id.handler && h.id.asid == asid && h.capture.isNone
      exec (.schEvict asid) s = .next { t with harts := t.harts.map fun p => if hit p.2 then (p.1, { p.2 with capture := some t.clock.clk }) else p }) ∧
    (∀ asid, exec (.schResume asid) s = .next (updCtx s asid fun c => { c with hold := false })) ∧
    (∀ v tk t, v.testBit 0 = true → teamOfRec s (bitsOf v 16 36 * 65536) = some (tk, t) → t.handOver = true →
      exec (.schWinrel v) s = .next (finishHandOver (updTeam s tk fun t => { t with released := true }) tk)) ∧
    (∀ tk t, tget s.work.teams tk = some t → t.stat ≠ .restoring → t.handOver = true → t.released = true →
      (s.sch.evq.any fun e => e.pa == t.recPa && (e.type == 2 || e.type == 3)) = false →
      let u := updTeam s tk fun t => { t with handOver := false, released := false }
      finishHandOver s tk = { u with cores := u.cores.map fun p => (p.1, { p.2 with winVac := p.2.winVac.filter fun x => x.2.1 != tk }) }) ∧
    (∀ v, v.testBit 18 = true → (reg s schShstat).testBit 0 = false → exec (.schShoot v) s = .next (setReg (sendShoot s 0
      (if v.testBit 17 then none else some (bitsOf (reg s (schBase + 0x58)) 12 36)) (if v.testBit 16 then none else some (v % 2 ^ 16))).2 schShstat 1)) ∧
    exec .schCntClr s = .next (setReg (setReg (setReg (setReg s cntEvict 0) cntCoop 0) cntOvr 0) cntMiss 0) ∧
    (∀ v, reg s evtHead ≤ v → v ≤ reg s evtTail → exec (.evtHeadWrite v) s = .next (setReg s evtHead v)) ∧
    (∀ v, (reg s evtCfg).testBit 4 = false → v % 16 < 9 → v.testBit 4 = true →
      exec (.evtCfgWrite v) s = .next (setReg (setReg (setReg s evtCfg (v % 16 + 16)) evtHead 0) evtTail 0))

/-- R136 to R140, R416 to R420, R423: a captured team whose harts are at their boundary is written to its record with its windows vacated;
once its writes have performed and its SAVED event is written, its resources are free; a saved team that may return claims a core
and its record is loaded; when its windows have been handed over its harts start again, unless a line of their records is lost, which is an error of its context. A handler goes the same way. -/
def Obligations.CaptureAndReturnComplete : Prop :=
  ∀ (s : State) (i : Nat),
    (∀ t g, tget s.work.teams i = some t → gridOf s t = some g →
      (∀ saved s1, t.stat = .capturing → ctxDead s t.asid = false → ctxFree s t.asid = true → ((hartsOf s i).all fun p => atBoundary s p.1 p.2) = true →
        ((hartsOf s i).all fun p => p.2.vbad.isEmpty) = true → captureList s (hartsOf s i) [] = some (saved, s1) →
        exec (.captureComplete i) s = .next (captureTeam s i t g)) ∧
      (t.stat = .saving → evPending s t.recPa = false → ((savesOf s i).any fun p => !savePerformed s p.2) = false → t.told = 1 →
        exec (.saveComplete i) s = .next (if doomed (finishSave s i t) t then discardTeam (finishSave s i t) i else finishSave s i t)) ∧
      (∀ cl, mayReturn s t = true → noCommit s g.tenant = true → outrankedGrid s t.grid g = false → earlierReturn s t g = false →
        g.spec.gang = false → recFree s t g = true → returnClaim s i t g = some cl →
        exec (.teamRestore i) s = .next (restoreTeam (notePlaced s t.grid g) i t g cl)) ∧
      (startReady s i t g = true → g.spec.gang = false →
        (((savesOf s i).any fun p => lostRecord s p.2) = true → exec (.restoreStart i) s = .next (contextFault s t.asid 3)) ∧
        (((savesOf s i).any fun p => lostRecord s p.2) = false →
        let v := (savesOf s i).foldl (fun s p => startSaved (returnAways s i t p.2.slot p.2.hart.id.hidx) p.2
          ((t.tiles.drop (p.2.hart.id.hidx * p.2.hart.id.nt)).take p.2.hart.id.nt) (countDiv s t.recPa p.2.hart.id.hidx)) s
        exec (.restoreStart i) s = .next (teamEvent (updTeam v i fun t => { t with stat := .live, told := 4, yieldEnd := none }) 4 i)))) ∧
    (∀ k h pa g s1, tget s.work.teams i = none → slotOfUid s i = some k → hartAt s k = some h → h.id.handler = true → h.capture.isSome = true →
      ctxDead s h.id.asid = false → ctxFree s h.id.asid = true → atBoundary s k h = true → h.vbad = [] → allocRec s h.id.asid 1 = some pa → captureHart s k h = some (g, s1) →
      exec (.captureComplete i) s = .next
        (putSaved (ctxWrite s1 g.id.asid pa (hartRecord s1 k g ++ readWin s1 (coreOfSlot k) g.id.land 0 4096)) k g pa)) ∧
    (∀ z, tget s.work.teams i = none → tget s.work.saves i = some z → z.hart.id.handler = true → z.freed = false → savePerformed s z = true →
      exec (.saveComplete i) s = .next
        { s with work := { s.work with saves := tupd s.work.saves i fun z => { z with freed := true } } })

/-- R426 to R436: a good new data flit of the expected number, on the module whose turn it is and with a credit of its VC, is delivered and one that
fails its CRC asks for a replay (what that one was is a free value, log 80); a replay starts when no
acknowledgement comes; a crossing of the threshold makes a retrain due, which begins at most once in 10 µs and ends with the outcome
of its lane test; the seam's registers are written and cleared. -/
def Obligations.SeamEventsComplete : Prop :=
  ∀ (s : State) (n : Nat), n < 24 →
    (∀ ab m f, f.length = 256 → smState s n = 1 → nextModule s n ab = some m →
      let t := updDir s n ab fun d => { d with turn := m }
      (flitGood f = false → exec (.flitReceive n ab m f) s = .next (askReplay (updDir (bumpReg (sendLost t n ab) (smCrc n (dirIx ab)) 63 1) n ab fun d =>
        { d with failedOn := d.failedOn ++ [(m, s.clock.clk)] }) n ab)) ∧
      (flitGood f = true → flitFormed f = true → flitKind f ≠ 0 → exec (.flitReceive n ab m f) s = .next (applyAck t n ab f)) ∧
      (flitGood f = true → flitFormed f = true → flitKind f = 0 →
        let d := seamDir (seamAt t n) ab
        d.buf[d.pos]? = none → flitSeq f = d.next → maySend t n d (flitVc f) = true →
        let u := applyAck (updDir t n ab (enterFlit t (flitVc f) (some (flitBody f)))) n ab f
        flitSeq f = (seamDir (seamAt u n) ab).expect → exec (.flitReceive n ab m f) s = .next (updDir u n ab fun d => { d with
          expect := (d.expect + 1) % 4096, nak := false, delivered := d.delivered + 1, last := tput d.last (flitVc f) (flitPayload f) }))) ∧
    (∀ ab, smState s n = 1 → buffered (seamDir (seamAt s n) ab) ≠ 0 → (seamDir (seamAt s n) ab).progress + 1800 ≤ s.clock.clk →
      exec (.seamAckTimeout n ab) s = .next (updDir (startReplay s n ab 0) n ab fun d => { d with progress := s.clock.clk })) ∧
    (smState s n = 1 → ((seamAt s n).due.any isDegrade) = false → overThr s n true = true → exec (.replayThreshold n) s = .next
      (updSeam s n fun x => { x with due := .degrade (blamed s n true) :: x.due })) ∧
    (∀ r, ((seamAt s n).due.find? isDegrade = some r ∨ ((seamAt s n).due.find? isDegrade = none ∧ (seamAt s n).due.head? = some r)) →
      smState s n = 1 → (∀ c, (seamAt s n).began = some c → c + 18000 ≤ s.clock.clk) → exec (.retrainStart n) s = .next
        (setSmState (updSeam s n fun x => { x with due := x.due.filter (· != r), running := some r, began := some s.clock.clk }) n 2)) ∧
    (∀ found r, (seamAt s n).running = some r →
      let ns := min 2000 ((s.clock.clk - (seamAt s n).began.getD s.clock.clk) * 5 / 9)
      let t := setReg (setReg (bumpReg s (smRtCnt n) 63 1) (smRtLast n) ns) (smRtMax n) (max ns (reg s (smRtMax n)))
      let again (d : SeamDir) : SeamDir := { d with replays := [], failedOn := [], progress := s.clock.clk, pos := 0 }
      let u := setSmState (updSeam t n fun x => { x with running := none, ab := again x.ab, ba := again x.ba }) n 1
      exec (.retrainComplete n found) s = .next (failCheck (match r with
        | .degrade m => degradeModule u n m found
        | .rate => changeRate u n found
        | .retest => retest u n found) n)) ∧
    (∀ rate, exec (.smCtlRate n rate) s = .next (smCtlRate s n rate)) ∧ exec (.smCtlRetest n) s = .next (smCtlRetest s n) ∧
    exec (.smClrCounters n) s = .next (setReg (setReg (setReg (setReg s (smCrc n 0) 0) (smCrc n 1) 0) (smRpl n 0) 0) (smRpl n 1) 0) ∧
    exec (.smClrRtMax n) s = .next (setReg s (smRtMax n) 0) ∧ exec (.smEvtpendClear n) s = .next (setReg s (smPend n) 0)

/-- R141, R142, R144, R437, R438, R440 to R442, R447 to R450: a boot attempt without a failure boots the device; dies go offline and come
online in order; a trip is fatal; a faulted context is killed; lane failures, power limits, attestation; the debugger halts, steps and
reads harts; a register of the device is written. -/
def Obligations.PlatformEventsComplete : Prop :=
  ∀ (s : State),
    (s.booted = false → inRecovery s = false → s.plat.attempt = 1 →
      (∃ t, exec (.boot []) s = .next t ∧ t.booted = true ∧ t.plat.failed = []) ∧
      (exec (.boot [3]) s = .next (updPlat (setReg s pfBoot (bootWord s 3)) fun p => { p with attempt := p.attempt + 1, failed := p.failed ++ [3] }))) ∧
    (∀ d, d < 4 →
      (dieState s d ≠ 1 → exec (.dieOff d) s = .next (dieOffCmd s d)) ∧
      (dieState s d = 1 → let t := leaveDie s d
        (t.plat.sealed_.contains d = false → dieEmpty t d = true → exec (.dieOff d) s = .next (sealDie t d)) ∧
        (t.plat.sealed_.contains d = true → seamsQuiet t d = true → exec (.dieOff d) s = .next (retireDie t d))) ∧
      (∀ found, dieState s d ≠ 3 → exec (.dieOn d found) s = .next (dieOnCmd s d)) ∧
      (∀ found, dieState s d = 3 → exec (.dieOn d found) s = .next (dieUp s d found)) ∧
      (∀ mhz, mhz ∈ [1000, 1100, 1200, 1300, 1400, 1500, 1600, 1700] → dieReserved s d = false →
        exec (.powerLimit d mhz) s = .next (updPlat s fun p => { p with mhz := tput p.mhz d mhz })) ∧
      (∀ mhz, mhz ∈ [1000, 1100, 1200, 1300, 1400, 1500, 1600, 1700] → dieReserved s d = true → tget s.plat.limit d = none →
        exec (.powerLimit d mhz) s = .next (updPlat s fun p => { p with limit := tput p.limit d (s.clock.clk, false) })) ∧
      exec (.powerLimit d 1800) s = .next (updPlat s fun p => { p with limit := tdel p.limit d, mhz := tdel p.mhz d })) ∧
    (∀ d, d < 13 → exec (.thermalTrip d) s = .next (fatal s 1)) ∧
    (∀ asid cause, (s.fe.queues.any fun p => !qFree s p.1) = false → isFatal s = false → s.faulted.contains (asid, cause) = true → exec (.contextKill asid cause) s = .next (killContext s asid cause)) ∧
    (∀ core quad lane, core < 192 → quad < 4 → lane < 32 →
      let f := bitsOf (steerOf s core) (8 * quad) 8
      let here (k : Nat) : Bool := coreOfSlot k == core && quadOfSlot k == quad
      let told (p : Nat × Hart) : Nat × Hart := if here p.1 then (p.1, { p.2 with s := { p.2.s with mip := setBit p.2.s.mip 11 true } }) else p
      let t : State := if s.harts.any fun p => here p.1 then { s with harts := s.harts.map told }
        else updPlat s fun p => { p with laneRep := if p.laneRep.contains (core * 4 + quad) then p.laneRep else p.laneRep ++ [core * 4 + quad] }
      (f.testBit 5 = true → f % 32 ≠ lane → exec (.laneFailureReport core quad lane) s = .next
        (((t.harts.filter fun p => here p.1).map fun p => p.2.id.asid).eraseDups.foldl (fun s a => contextFault s a 6) t)) ∧
      ((f.testBit 5 = false ∨ f % 32 = lane) → exec (.laneFailureReport core quad lane) s = .next t)) ∧
    (∀ req, exec (.spdmRequest req) s = .next (updPlat s fun p =>
      { p with doe := Config.spdm req s.fe.patch p.attempt p.failed p.bad p.seamRec p.steerRec })) ∧
    (∀ k, exec (.debugHalt 0 k) s = .next (((s.harts.filter fun p => dbgFor s p.2.id.asid && p.1 == k).map (·.1)).foldl haltHart s)) ∧
    (∀ k h, hartAt s k = some h → dbgFor s h.id.asid = true → haltReported h = true →
      exec (.debugStep k) s = .next (setHart s k { h with stepping := some (stepCode (slotClk s k) h.pc.toNat) }) ∧
      (∀ r data, exec (.debugRegisterAccess k r true data) s = .next (dbgWrite s k h r data)) ∧
      (∀ r data, exec (.debugRegisterAccess k r false data) s = .next (updPlat s fun p => { p with dbg := dbgRead s k h r }))) ∧
    (∀ k h n, hartAt s k = some h → h.stepping = some n → atWait s k h = true → h.pc.toNat = stepPc n → stepClk n + 1800 ≤ slotClk s k →
      exec (.debugStepTimeout k) s = .next (setHart (freeMonitor s k h) k { h with wait := none, stepping := none })) ∧
    exec .boundaryScan s = .next (updPlat s fun p => { p with scan := s.harts.isEmpty && s.work.saves.isEmpty }) ∧
    (∀ off v, off % 8 = 0 → off < 0x2000000 → exec (.registerWrite off v) s = .next (bar0Write s off (v % 2 ^ 64))) ∧
    (∀ fn off v, off < 16 → exec (.registerWrite (2 ^ 32 + 16 * fn + off) v) s = .next (cfgWrite s fn off v))
end

