-- ==== Sys2Proof/Laws/Tbl.lean ====
section
/-! SUPPORT. Tables by key: what reading returns after a put, a delete or an update, and the rising order of keys. -/

namespace Sys2Proof.Machine

variable {α : Type}

theorem tget_tdel_same (t : Tbl α) (k : Nat) : tget (tdel t k) k = none := by
  induction t with
  | nil => rfl
  | cons p t ih =>
    obtain ⟨k', a⟩ := p
    by_cases h : k = k' <;> simp [tdel, tget, h]
    · subst h; exact ih
    · exact ih

theorem tget_tdel_other (t : Tbl α) {k j : Nat} (n : j ≠ k) : tget (tdel t k) j = tget t j := by
  induction t with
  | nil => rfl
  | cons p t ih =>
    obtain ⟨k', a⟩ := p
    by_cases h : k = k'
    · subst h; simp [tdel, tget, n, ih]
    · by_cases h' : j = k' <;> simp [tdel, tget, h, h', ih]

theorem tget_tins_same (t : Tbl α) (k : Nat) (a : α) (h : tget t k = none) : tget (tins t k a) k = some a := by
  induction t with
  | nil => simp [tins, tget]
  | cons p t ih =>
    obtain ⟨k', b⟩ := p
    by_cases hk : k = k'
    · subst hk; simp [tget] at h
    · simp [tget, hk] at h
      by_cases hl : k < k' <;> simp [tins, tget, hl, hk, ih h]

theorem tget_tins_other (t : Tbl α) {k j : Nat} (a : α) (n : j ≠ k) : tget (tins t k a) j = tget t j := by
  induction t with
  | nil => simp [tins, tget, n]
  | cons p t ih =>
    obtain ⟨k', b⟩ := p
    by_cases hl : k < k'
    · simp [tins, tget, hl, n]
    · by_cases h' : j = k' <;> simp [tins, tget, hl, h', ih]

/-- Reading the key that was put. -/
@[simp] theorem tget_tput_same (t : Tbl α) (k : Nat) (a : α) : tget (tput t k a) k = some a :=
  tget_tins_same _ _ _ (tget_tdel_same t k)

/-- Reading another key. -/
theorem tget_tput_other (t : Tbl α) {k j : Nat} (a : α) (n : j ≠ k) : tget (tput t k a) j = tget t j := by
  rw [tput, tget_tins_other _ _ n, tget_tdel_other _ n]

@[simp] theorem tgetD_tput_same (t : Tbl α) (k : Nat) (a d : α) : tgetD (tput t k a) k d = a := by simp [tgetD]

theorem tgetD_tput_other (t : Tbl α) {k j : Nat} (a d : α) (n : j ≠ k) : tgetD (tput t k a) j d = tgetD t j d := by
  simp [tgetD, tget_tput_other t a n]

/-- Reading the key that was updated. -/
theorem tget_tupd_same (t : Tbl α) (k : Nat) (f : α → α) : tget (tupd t k f) k = (tget t k).map f := by
  induction t with
  | nil => rfl
  | cons p t ih =>
    obtain ⟨k', a⟩ := p
    by_cases h : k = k'
    · subst h; simp [tupd, tget]
    · simp [tupd, tget, h, ih]

theorem tget_tupd_other (t : Tbl α) {k j : Nat} (f : α → α) (n : j ≠ k) : tget (tupd t k f) j = tget t j := by
  induction t with
  | nil => rfl
  | cons p t ih =>
    obtain ⟨k', a⟩ := p
    by_cases h : k = k'
    · subst h; simp [tupd, tget, n]
    · by_cases h' : j = k' <;> simp [tupd, tget, h, h', ih]

/-- Every key of the table is at least n. -/
def keysFrom (n : Nat) (t : Tbl α) : Prop := ∀ p ∈ t, n ≤ p.1

theorem keysRise_cons {p : Nat × α} {t : Tbl α} : keysRise (p :: t) = true ↔ keysFrom (p.1 + 1) t ∧ keysRise t = true := by
  induction t generalizing p with
  | nil => simp [keysRise, keysFrom]
  | cons q t ih =>
    simp only [keysRise, Bool.and_eq_true, decide_eq_true_eq, ih]
    constructor
    · rintro ⟨h, h1, h2⟩
      refine ⟨?_, h1, h2⟩
      intro r hr
      rcases List.mem_cons.1 hr with rfl | hr
      · exact h
      · have := h1 r hr; omega
    · rintro ⟨h, h1, h2⟩
      exact ⟨h q (by simp), h1, h2⟩

theorem mem_tdel {t : Tbl α} {k : Nat} {p : Nat × α} (h : p ∈ tdel t k) : p ∈ t ∧ p.1 ≠ k := by
  induction t with
  | nil => simp [tdel] at h
  | cons q t ih =>
    obtain ⟨k', a⟩ := q
    by_cases hk : k = k'
    · simp only [tdel, hk, if_true] at h
      have := ih (hk ▸ h)
      exact ⟨List.mem_cons_of_mem _ this.1, this.2⟩
    · simp only [tdel, hk, if_false] at h
      rcases List.mem_cons.1 h with rfl | h
      · exact ⟨by simp, fun e => hk e.symm⟩
      · exact ⟨List.mem_cons_of_mem _ (ih h).1, (ih h).2⟩

theorem mem_tins {t : Tbl α} {k : Nat} {a : α} {p : Nat × α} (h : p ∈ tins t k a) : p = (k, a) ∨ p ∈ t := by
  induction t with
  | nil => simp [tins] at h; exact .inl h
  | cons q t ih =>
    obtain ⟨k', b⟩ := q
    by_cases hl : k < k'
    · simp only [tins, hl, if_true] at h
      rcases List.mem_cons.1 h with h | h
      · exact .inl h
      · exact .inr h
    · simp only [tins, hl, if_false] at h
      rcases List.mem_cons.1 h with h | h
      · exact .inr (by simp [h])
      · rcases ih h with h | h
        · exact .inl h
        · exact .inr (List.mem_cons_of_mem _ h)

theorem keysRise_tdel {t : Tbl α} (k : Nat) (h : keysRise t = true) : keysRise (tdel t k) = true := by
  induction t with
  | nil => rfl
  | cons q t ih =>
    obtain ⟨k', a⟩ := q
    have hc := keysRise_cons.1 h
    by_cases hk : k = k'
    · simp only [tdel, hk, if_true]; exact hk ▸ ih hc.2
    · simp only [tdel, hk, if_false]
      exact keysRise_cons.2 ⟨fun p hp => hc.1 p (mem_tdel hp).1, ih hc.2⟩

theorem keysRise_tins {t : Tbl α} (k : Nat) (a : α) (h : keysRise t = true) (hn : ∀ p ∈ t, p.1 ≠ k) : keysRise (tins t k a) = true := by
  induction t with
  | nil => rfl
  | cons q t ih =>
    obtain ⟨k', b⟩ := q
    have hc := keysRise_cons.1 h
    by_cases hl : k < k'
    · simp only [tins, hl, if_true]
      refine keysRise_cons.2 ⟨?_, h⟩
      intro p hp
      rcases List.mem_cons.1 hp with rfl | hp
      · exact hl
      · exact Nat.le_trans (Nat.le_of_lt (Nat.succ_lt_succ hl)) (hc.1 p hp)
    · simp only [tins, hl, if_false]
      have hk : k' < k := Nat.lt_of_le_of_ne (Nat.le_of_not_lt hl) (hn (k', b) (by simp))
      refine keysRise_cons.2 ⟨?_, ih hc.2 fun p hp => hn p (List.mem_cons_of_mem _ hp)⟩
      intro p hp
      rcases mem_tins hp with rfl | hp
      · exact hk
      · exact hc.1 p hp

/-- A put keeps the keys rising. -/
theorem keysRise_tput {t : Tbl α} (k : Nat) (a : α) (h : keysRise t = true) : keysRise (tput t k a) = true :=
  keysRise_tins k a (keysRise_tdel k h) fun _ hp => (mem_tdel hp).2

end Sys2Proof.Machine
end

