-- ==== Sys2Proof/Laws/Memory.lean ====
section
/-! SUPPORT. Byte stores: a read after a write, and every operation keeps the canonical form (log 6). -/

namespace Sys2Proof.Machine

theorem wf_iff {m : Memory} : Memory.wf m = true ↔ keysRise m = true ∧ ∀ c ∈ m, c.2 ≠ blank := by
  simp [Memory.wf, List.all_eq_true]

/-- A read of the byte that was written. -/
@[simp] theorem rd8_wr8_same (m : Memory) (a : Nat) (v : Byte) : rd8 (wr8 m a v) a = v := by
  by_cases h : v = blank
  · simp [wr8, h, rd8, tget_tdel_same]
  · simp [wr8, h, rd8]

/-- A read of any other byte. -/
theorem rd8_wr8_other (m : Memory) {a b : Nat} (v : Byte) (n : b ≠ a) : rd8 (wr8 m a v) b = rd8 m b := by
  by_cases h : v = blank
  · simp [wr8, h, rd8, tget_tdel_other _ n]
  · simp [wr8, h, rd8, tget_tput_other _ _ n]

/-- Writing a byte keeps the canonical form. -/
theorem wf_wr8 {m : Memory} (a : Nat) (v : Byte) (h : Memory.wf m = true) : Memory.wf (wr8 m a v) = true := by
  obtain ⟨h1, h2⟩ := wf_iff.1 h
  by_cases hv : v = blank
  · rw [wr8, if_pos hv]
    exact wf_iff.2 ⟨keysRise_tdel a h1, fun c hc => h2 c (mem_tdel hc).1⟩
  · rw [wr8, if_neg hv]
    refine wf_iff.2 ⟨keysRise_tput a v h1, fun c hc => ?_⟩
    rcases mem_tins hc with rfl | hc
    · exact hv
    · exact h2 c (mem_tdel hc).1

/-- Writing bytes keeps the canonical form. -/
theorem wf_wrBytes {m : Memory} (a : Nat) (bs : List Byte) (h : Memory.wf m = true) : Memory.wf (wrBytes m a bs) = true := by
  induction bs generalizing m a with
  | nil => exact h
  | cons b bs ih => exact ih (a + 1) (wf_wr8 a b h)

/-- Writing a number keeps the canonical form. -/
theorem wf_wrN {m : Memory} (a n v : Nat) (h : Memory.wf m = true) : Memory.wf (wrN m a n v) = true := wf_wrBytes _ _ h

/-- The four stores of the state after reset are canonical. -/
theorem reset_memories_wf :
    Memory.wf State.reset.mem.hbm = true ∧ Memory.wf State.reset.mem.host = true ∧ Memory.wf State.reset.tstore = true ∧
      Memory.wf State.reset.tiles = true := by decide

end Sys2Proof.Machine
end

