-- ==== Sys2Proof/Laws/State.lean ====
section
/-! SUPPORT. One lemma for each field of the state and each named update, and for each field of a hart and each register write, so
that no proof unfolds a record update. -/

namespace Sys2Proof.Machine

/-! ## setHart -/

@[simp] theorem setHart_agenda (s : State) (k : Nat) (h : Hart) : (setHart s k h).agenda = s.agenda := rfl
@[simp] theorem setHart_cur (s : State) (k : Nat) (h : Hart) : (setHart s k h).cur = s.cur := rfl
@[simp] theorem setHart_free (s : State) (k : Nat) (h : Hart) : (setHart s k h).free = s.free := rfl
@[simp] theorem setHart_nextUid (s : State) (k : Nat) (h : Hart) : (setHart s k h).nextUid = s.nextUid := rfl
@[simp] theorem setHart_clock (s : State) (k : Nat) (h : Hart) : (setHart s k h).clock = s.clock := rfl
@[simp] theorem setHart_mcsrs (s : State) (k : Nat) (h : Hart) : (setHart s k h).mcsrs = s.mcsrs := rfl
@[simp] theorem setHart_steerCfg (s : State) (k : Nat) (h : Hart) : (setHart s k h).steerCfg = s.steerCfg := rfl
@[simp] theorem setHart_cores (s : State) (k : Nat) (h : Hart) : (setHart s k h).cores = s.cores := rfl
@[simp] theorem setHart_arbs (s : State) (k : Nat) (h : Hart) : (setHart s k h).arbs = s.arbs := rfl
@[simp] theorem setHart_tstore (s : State) (k : Nat) (h : Hart) : (setHart s k h).tstore = s.tstore := rfl
@[simp] theorem setHart_tiles (s : State) (k : Nat) (h : Hart) : (setHart s k h).tiles = s.tiles := rfl
@[simp] theorem setHart_mem (s : State) (k : Nat) (h : Hart) : (setHart s k h).mem = s.mem := rfl
@[simp] theorem setHart_xl (s : State) (k : Nat) (h : Hart) : (setHart s k h).xl = s.xl := rfl
@[simp] theorem setHart_reds (s : State) (k : Nat) (h : Hart) : (setHart s k h).reds = s.reds := rfl
@[simp] theorem setHart_net (s : State) (k : Nat) (h : Hart) : (setHart s k h).net = s.net := rfl
@[simp] theorem setHart_work (s : State) (k : Nat) (h : Hart) : (setHart s k h).work = s.work := rfl
@[simp] theorem setHart_sch (s : State) (k : Nat) (h : Hart) : (setHart s k h).sch = s.sch := rfl
@[simp] theorem setHart_fe (s : State) (k : Nat) (h : Hart) : (setHart s k h).fe = s.fe := rfl
@[simp] theorem setHart_seams (s : State) (k : Nat) (h : Hart) : (setHart s k h).seams = s.seams := rfl
@[simp] theorem setHart_plat (s : State) (k : Nat) (h : Hart) : (setHart s k h).plat = s.plat := rfl
@[simp] theorem setHart_hp (s : State) (k : Nat) (h : Hart) : (setHart s k h).hp = s.hp := rfl
@[simp] theorem setHart_eth (s : State) (k : Nat) (h : Hart) : (setHart s k h).eth = s.eth := rfl
@[simp] theorem setHart_regs (s : State) (k : Nat) (h : Hart) : (setHart s k h).regs = s.regs := rfl
@[simp] theorem setHart_booted (s : State) (k : Nat) (h : Hart) : (setHart s k h).booted = s.booted := rfl
@[simp] theorem setHart_faulted (s : State) (k : Nat) (h : Hart) : (setHart s k h).faulted = s.faulted := rfl

/-! ## updHart -/

@[simp] theorem updHart_agenda (s : State) (k : Nat) (f : Hart → Hart) : (updHart s k f).agenda = s.agenda := rfl
@[simp] theorem updHart_cur (s : State) (k : Nat) (f : Hart → Hart) : (updHart s k f).cur = s.cur := rfl
@[simp] theorem updHart_free (s : State) (k : Nat) (f : Hart → Hart) : (updHart s k f).free = s.free := rfl
@[simp] theorem updHart_nextUid (s : State) (k : Nat) (f : Hart → Hart) : (updHart s k f).nextUid = s.nextUid := rfl
@[simp] theorem updHart_clock (s : State) (k : Nat) (f : Hart → Hart) : (updHart s k f).clock = s.clock := rfl
@[simp] theorem updHart_mcsrs (s : State) (k : Nat) (f : Hart → Hart) : (updHart s k f).mcsrs = s.mcsrs := rfl
@[simp] theorem updHart_steerCfg (s : State) (k : Nat) (f : Hart → Hart) : (updHart s k f).steerCfg = s.steerCfg := rfl
@[simp] theorem updHart_cores (s : State) (k : Nat) (f : Hart → Hart) : (updHart s k f).cores = s.cores := rfl
@[simp] theorem updHart_arbs (s : State) (k : Nat) (f : Hart → Hart) : (updHart s k f).arbs = s.arbs := rfl
@[simp] theorem updHart_tstore (s : State) (k : Nat) (f : Hart → Hart) : (updHart s k f).tstore = s.tstore := rfl
@[simp] theorem updHart_tiles (s : State) (k : Nat) (f : Hart → Hart) : (updHart s k f).tiles = s.tiles := rfl
@[simp] theorem updHart_mem (s : State) (k : Nat) (f : Hart → Hart) : (updHart s k f).mem = s.mem := rfl
@[simp] theorem updHart_xl (s : State) (k : Nat) (f : Hart → Hart) : (updHart s k f).xl = s.xl := rfl
@[simp] theorem updHart_reds (s : State) (k : Nat) (f : Hart → Hart) : (updHart s k f).reds = s.reds := rfl
@[simp] theorem updHart_net (s : State) (k : Nat) (f : Hart → Hart) : (updHart s k f).net = s.net := rfl
@[simp] theorem updHart_work (s : State) (k : Nat) (f : Hart → Hart) : (updHart s k f).work = s.work := rfl
@[simp] theorem updHart_sch (s : State) (k : Nat) (f : Hart → Hart) : (updHart s k f).sch = s.sch := rfl
@[simp] theorem updHart_fe (s : State) (k : Nat) (f : Hart → Hart) : (updHart s k f).fe = s.fe := rfl
@[simp] theorem updHart_seams (s : State) (k : Nat) (f : Hart → Hart) : (updHart s k f).seams = s.seams := rfl
@[simp] theorem updHart_plat (s : State) (k : Nat) (f : Hart → Hart) : (updHart s k f).plat = s.plat := rfl
@[simp] theorem updHart_hp (s : State) (k : Nat) (f : Hart → Hart) : (updHart s k f).hp = s.hp := rfl
@[simp] theorem updHart_eth (s : State) (k : Nat) (f : Hart → Hart) : (updHart s k f).eth = s.eth := rfl
@[simp] theorem updHart_regs (s : State) (k : Nat) (f : Hart → Hart) : (updHart s k f).regs = s.regs := rfl
@[simp] theorem updHart_booted (s : State) (k : Nat) (f : Hart → Hart) : (updHart s k f).booted = s.booted := rfl
@[simp] theorem updHart_faulted (s : State) (k : Nat) (f : Hart → Hart) : (updHart s k f).faulted = s.faulted := rfl

/-! ## updCore -/

@[simp] theorem updCore_agenda (s : State) (c : Nat) (f : Core → Core) : (updCore s c f).agenda = s.agenda := rfl
@[simp] theorem updCore_cur (s : State) (c : Nat) (f : Core → Core) : (updCore s c f).cur = s.cur := rfl
@[simp] theorem updCore_free (s : State) (c : Nat) (f : Core → Core) : (updCore s c f).free = s.free := rfl
@[simp] theorem updCore_nextUid (s : State) (c : Nat) (f : Core → Core) : (updCore s c f).nextUid = s.nextUid := rfl
@[simp] theorem updCore_clock (s : State) (c : Nat) (f : Core → Core) : (updCore s c f).clock = s.clock := rfl
@[simp] theorem updCore_harts (s : State) (c : Nat) (f : Core → Core) : (updCore s c f).harts = s.harts := rfl
@[simp] theorem updCore_mcsrs (s : State) (c : Nat) (f : Core → Core) : (updCore s c f).mcsrs = s.mcsrs := rfl
@[simp] theorem updCore_steerCfg (s : State) (c : Nat) (f : Core → Core) : (updCore s c f).steerCfg = s.steerCfg := rfl
@[simp] theorem updCore_arbs (s : State) (c : Nat) (f : Core → Core) : (updCore s c f).arbs = s.arbs := rfl
@[simp] theorem updCore_tstore (s : State) (c : Nat) (f : Core → Core) : (updCore s c f).tstore = s.tstore := rfl
@[simp] theorem updCore_tiles (s : State) (c : Nat) (f : Core → Core) : (updCore s c f).tiles = s.tiles := rfl
@[simp] theorem updCore_mem (s : State) (c : Nat) (f : Core → Core) : (updCore s c f).mem = s.mem := rfl
@[simp] theorem updCore_xl (s : State) (c : Nat) (f : Core → Core) : (updCore s c f).xl = s.xl := rfl
@[simp] theorem updCore_reds (s : State) (c : Nat) (f : Core → Core) : (updCore s c f).reds = s.reds := rfl
@[simp] theorem updCore_net (s : State) (c : Nat) (f : Core → Core) : (updCore s c f).net = s.net := rfl
@[simp] theorem updCore_work (s : State) (c : Nat) (f : Core → Core) : (updCore s c f).work = s.work := rfl
@[simp] theorem updCore_sch (s : State) (c : Nat) (f : Core → Core) : (updCore s c f).sch = s.sch := rfl
@[simp] theorem updCore_fe (s : State) (c : Nat) (f : Core → Core) : (updCore s c f).fe = s.fe := rfl
@[simp] theorem updCore_seams (s : State) (c : Nat) (f : Core → Core) : (updCore s c f).seams = s.seams := rfl
@[simp] theorem updCore_plat (s : State) (c : Nat) (f : Core → Core) : (updCore s c f).plat = s.plat := rfl
@[simp] theorem updCore_hp (s : State) (c : Nat) (f : Core → Core) : (updCore s c f).hp = s.hp := rfl
@[simp] theorem updCore_eth (s : State) (c : Nat) (f : Core → Core) : (updCore s c f).eth = s.eth := rfl
@[simp] theorem updCore_regs (s : State) (c : Nat) (f : Core → Core) : (updCore s c f).regs = s.regs := rfl
@[simp] theorem updCore_booted (s : State) (c : Nat) (f : Core → Core) : (updCore s c f).booted = s.booted := rfl
@[simp] theorem updCore_faulted (s : State) (c : Nat) (f : Core → Core) : (updCore s c f).faulted = s.faulted := rfl

/-! ## updMem -/

@[simp] theorem updMem_agenda (s : State) (f : MemSys → MemSys) : (updMem s f).agenda = s.agenda := rfl
@[simp] theorem updMem_cur (s : State) (f : MemSys → MemSys) : (updMem s f).cur = s.cur := rfl
@[simp] theorem updMem_free (s : State) (f : MemSys → MemSys) : (updMem s f).free = s.free := rfl
@[simp] theorem updMem_nextUid (s : State) (f : MemSys → MemSys) : (updMem s f).nextUid = s.nextUid := rfl
@[simp] theorem updMem_clock (s : State) (f : MemSys → MemSys) : (updMem s f).clock = s.clock := rfl
@[simp] theorem updMem_harts (s : State) (f : MemSys → MemSys) : (updMem s f).harts = s.harts := rfl
@[simp] theorem updMem_mcsrs (s : State) (f : MemSys → MemSys) : (updMem s f).mcsrs = s.mcsrs := rfl
@[simp] theorem updMem_steerCfg (s : State) (f : MemSys → MemSys) : (updMem s f).steerCfg = s.steerCfg := rfl
@[simp] theorem updMem_cores (s : State) (f : MemSys → MemSys) : (updMem s f).cores = s.cores := rfl
@[simp] theorem updMem_arbs (s : State) (f : MemSys → MemSys) : (updMem s f).arbs = s.arbs := rfl
@[simp] theorem updMem_tstore (s : State) (f : MemSys → MemSys) : (updMem s f).tstore = s.tstore := rfl
@[simp] theorem updMem_tiles (s : State) (f : MemSys → MemSys) : (updMem s f).tiles = s.tiles := rfl
@[simp] theorem updMem_xl (s : State) (f : MemSys → MemSys) : (updMem s f).xl = s.xl := rfl
@[simp] theorem updMem_reds (s : State) (f : MemSys → MemSys) : (updMem s f).reds = s.reds := rfl
@[simp] theorem updMem_net (s : State) (f : MemSys → MemSys) : (updMem s f).net = s.net := rfl
@[simp] theorem updMem_work (s : State) (f : MemSys → MemSys) : (updMem s f).work = s.work := rfl
@[simp] theorem updMem_sch (s : State) (f : MemSys → MemSys) : (updMem s f).sch = s.sch := rfl
@[simp] theorem updMem_fe (s : State) (f : MemSys → MemSys) : (updMem s f).fe = s.fe := rfl
@[simp] theorem updMem_seams (s : State) (f : MemSys → MemSys) : (updMem s f).seams = s.seams := rfl
@[simp] theorem updMem_plat (s : State) (f : MemSys → MemSys) : (updMem s f).plat = s.plat := rfl
@[simp] theorem updMem_hp (s : State) (f : MemSys → MemSys) : (updMem s f).hp = s.hp := rfl
@[simp] theorem updMem_eth (s : State) (f : MemSys → MemSys) : (updMem s f).eth = s.eth := rfl
@[simp] theorem updMem_regs (s : State) (f : MemSys → MemSys) : (updMem s f).regs = s.regs := rfl
@[simp] theorem updMem_booted (s : State) (f : MemSys → MemSys) : (updMem s f).booted = s.booted := rfl
@[simp] theorem updMem_faulted (s : State) (f : MemSys → MemSys) : (updMem s f).faulted = s.faulted := rfl

/-! ## updXl -/

@[simp] theorem updXl_agenda (s : State) (f : Xlate → Xlate) : (updXl s f).agenda = s.agenda := rfl
@[simp] theorem updXl_cur (s : State) (f : Xlate → Xlate) : (updXl s f).cur = s.cur := rfl
@[simp] theorem updXl_free (s : State) (f : Xlate → Xlate) : (updXl s f).free = s.free := rfl
@[simp] theorem updXl_nextUid (s : State) (f : Xlate → Xlate) : (updXl s f).nextUid = s.nextUid := rfl
@[simp] theorem updXl_clock (s : State) (f : Xlate → Xlate) : (updXl s f).clock = s.clock := rfl
@[simp] theorem updXl_harts (s : State) (f : Xlate → Xlate) : (updXl s f).harts = s.harts := rfl
@[simp] theorem updXl_mcsrs (s : State) (f : Xlate → Xlate) : (updXl s f).mcsrs = s.mcsrs := rfl
@[simp] theorem updXl_steerCfg (s : State) (f : Xlate → Xlate) : (updXl s f).steerCfg = s.steerCfg := rfl
@[simp] theorem updXl_cores (s : State) (f : Xlate → Xlate) : (updXl s f).cores = s.cores := rfl
@[simp] theorem updXl_arbs (s : State) (f : Xlate → Xlate) : (updXl s f).arbs = s.arbs := rfl
@[simp] theorem updXl_tstore (s : State) (f : Xlate → Xlate) : (updXl s f).tstore = s.tstore := rfl
@[simp] theorem updXl_tiles (s : State) (f : Xlate → Xlate) : (updXl s f).tiles = s.tiles := rfl
@[simp] theorem updXl_mem (s : State) (f : Xlate → Xlate) : (updXl s f).mem = s.mem := rfl
@[simp] theorem updXl_reds (s : State) (f : Xlate → Xlate) : (updXl s f).reds = s.reds := rfl
@[simp] theorem updXl_net (s : State) (f : Xlate → Xlate) : (updXl s f).net = s.net := rfl
@[simp] theorem updXl_work (s : State) (f : Xlate → Xlate) : (updXl s f).work = s.work := rfl
@[simp] theorem updXl_sch (s : State) (f : Xlate → Xlate) : (updXl s f).sch = s.sch := rfl
@[simp] theorem updXl_fe (s : State) (f : Xlate → Xlate) : (updXl s f).fe = s.fe := rfl
@[simp] theorem updXl_seams (s : State) (f : Xlate → Xlate) : (updXl s f).seams = s.seams := rfl
@[simp] theorem updXl_plat (s : State) (f : Xlate → Xlate) : (updXl s f).plat = s.plat := rfl
@[simp] theorem updXl_hp (s : State) (f : Xlate → Xlate) : (updXl s f).hp = s.hp := rfl
@[simp] theorem updXl_eth (s : State) (f : Xlate → Xlate) : (updXl s f).eth = s.eth := rfl
@[simp] theorem updXl_regs (s : State) (f : Xlate → Xlate) : (updXl s f).regs = s.regs := rfl
@[simp] theorem updXl_booted (s : State) (f : Xlate → Xlate) : (updXl s f).booted = s.booted := rfl
@[simp] theorem updXl_faulted (s : State) (f : Xlate → Xlate) : (updXl s f).faulted = s.faulted := rfl

/-! ## updCtx -/

@[simp] theorem updCtx_agenda (s : State) (a : Nat) (f : Ctx → Ctx) : (updCtx s a f).agenda = s.agenda := rfl
@[simp] theorem updCtx_cur (s : State) (a : Nat) (f : Ctx → Ctx) : (updCtx s a f).cur = s.cur := rfl
@[simp] theorem updCtx_free (s : State) (a : Nat) (f : Ctx → Ctx) : (updCtx s a f).free = s.free := rfl
@[simp] theorem updCtx_nextUid (s : State) (a : Nat) (f : Ctx → Ctx) : (updCtx s a f).nextUid = s.nextUid := rfl
@[simp] theorem updCtx_clock (s : State) (a : Nat) (f : Ctx → Ctx) : (updCtx s a f).clock = s.clock := rfl
@[simp] theorem updCtx_harts (s : State) (a : Nat) (f : Ctx → Ctx) : (updCtx s a f).harts = s.harts := rfl
@[simp] theorem updCtx_mcsrs (s : State) (a : Nat) (f : Ctx → Ctx) : (updCtx s a f).mcsrs = s.mcsrs := rfl
@[simp] theorem updCtx_steerCfg (s : State) (a : Nat) (f : Ctx → Ctx) : (updCtx s a f).steerCfg = s.steerCfg := rfl
@[simp] theorem updCtx_cores (s : State) (a : Nat) (f : Ctx → Ctx) : (updCtx s a f).cores = s.cores := rfl
@[simp] theorem updCtx_arbs (s : State) (a : Nat) (f : Ctx → Ctx) : (updCtx s a f).arbs = s.arbs := rfl
@[simp] theorem updCtx_tstore (s : State) (a : Nat) (f : Ctx → Ctx) : (updCtx s a f).tstore = s.tstore := rfl
@[simp] theorem updCtx_tiles (s : State) (a : Nat) (f : Ctx → Ctx) : (updCtx s a f).tiles = s.tiles := rfl
@[simp] theorem updCtx_mem (s : State) (a : Nat) (f : Ctx → Ctx) : (updCtx s a f).mem = s.mem := rfl
@[simp] theorem updCtx_xl (s : State) (a : Nat) (f : Ctx → Ctx) : (updCtx s a f).xl = s.xl := rfl
@[simp] theorem updCtx_reds (s : State) (a : Nat) (f : Ctx → Ctx) : (updCtx s a f).reds = s.reds := rfl
@[simp] theorem updCtx_net (s : State) (a : Nat) (f : Ctx → Ctx) : (updCtx s a f).net = s.net := rfl
@[simp] theorem updCtx_sch (s : State) (a : Nat) (f : Ctx → Ctx) : (updCtx s a f).sch = s.sch := rfl
@[simp] theorem updCtx_fe (s : State) (a : Nat) (f : Ctx → Ctx) : (updCtx s a f).fe = s.fe := rfl
@[simp] theorem updCtx_seams (s : State) (a : Nat) (f : Ctx → Ctx) : (updCtx s a f).seams = s.seams := rfl
@[simp] theorem updCtx_plat (s : State) (a : Nat) (f : Ctx → Ctx) : (updCtx s a f).plat = s.plat := rfl
@[simp] theorem updCtx_hp (s : State) (a : Nat) (f : Ctx → Ctx) : (updCtx s a f).hp = s.hp := rfl
@[simp] theorem updCtx_eth (s : State) (a : Nat) (f : Ctx → Ctx) : (updCtx s a f).eth = s.eth := rfl
@[simp] theorem updCtx_regs (s : State) (a : Nat) (f : Ctx → Ctx) : (updCtx s a f).regs = s.regs := rfl
@[simp] theorem updCtx_booted (s : State) (a : Nat) (f : Ctx → Ctx) : (updCtx s a f).booted = s.booted := rfl
@[simp] theorem updCtx_faulted (s : State) (a : Nat) (f : Ctx → Ctx) : (updCtx s a f).faulted = s.faulted := rfl

/-! ## updTeam -/

@[simp] theorem updTeam_agenda (s : State) (t : Nat) (f : Team → Team) : (updTeam s t f).agenda = s.agenda := rfl
@[simp] theorem updTeam_cur (s : State) (t : Nat) (f : Team → Team) : (updTeam s t f).cur = s.cur := rfl
@[simp] theorem updTeam_free (s : State) (t : Nat) (f : Team → Team) : (updTeam s t f).free = s.free := rfl
@[simp] theorem updTeam_nextUid (s : State) (t : Nat) (f : Team → Team) : (updTeam s t f).nextUid = s.nextUid := rfl
@[simp] theorem updTeam_clock (s : State) (t : Nat) (f : Team → Team) : (updTeam s t f).clock = s.clock := rfl
@[simp] theorem updTeam_harts (s : State) (t : Nat) (f : Team → Team) : (updTeam s t f).harts = s.harts := rfl
@[simp] theorem updTeam_mcsrs (s : State) (t : Nat) (f : Team → Team) : (updTeam s t f).mcsrs = s.mcsrs := rfl
@[simp] theorem updTeam_steerCfg (s : State) (t : Nat) (f : Team → Team) : (updTeam s t f).steerCfg = s.steerCfg := rfl
@[simp] theorem updTeam_cores (s : State) (t : Nat) (f : Team → Team) : (updTeam s t f).cores = s.cores := rfl
@[simp] theorem updTeam_arbs (s : State) (t : Nat) (f : Team → Team) : (updTeam s t f).arbs = s.arbs := rfl
@[simp] theorem updTeam_tstore (s : State) (t : Nat) (f : Team → Team) : (updTeam s t f).tstore = s.tstore := rfl
@[simp] theorem updTeam_tiles (s : State) (t : Nat) (f : Team → Team) : (updTeam s t f).tiles = s.tiles := rfl
@[simp] theorem updTeam_mem (s : State) (t : Nat) (f : Team → Team) : (updTeam s t f).mem = s.mem := rfl
@[simp] theorem updTeam_xl (s : State) (t : Nat) (f : Team → Team) : (updTeam s t f).xl = s.xl := rfl
@[simp] theorem updTeam_reds (s : State) (t : Nat) (f : Team → Team) : (updTeam s t f).reds = s.reds := rfl
@[simp] theorem updTeam_net (s : State) (t : Nat) (f : Team → Team) : (updTeam s t f).net = s.net := rfl
@[simp] theorem updTeam_sch (s : State) (t : Nat) (f : Team → Team) : (updTeam s t f).sch = s.sch := rfl
@[simp] theorem updTeam_fe (s : State) (t : Nat) (f : Team → Team) : (updTeam s t f).fe = s.fe := rfl
@[simp] theorem updTeam_seams (s : State) (t : Nat) (f : Team → Team) : (updTeam s t f).seams = s.seams := rfl
@[simp] theorem updTeam_plat (s : State) (t : Nat) (f : Team → Team) : (updTeam s t f).plat = s.plat := rfl
@[simp] theorem updTeam_hp (s : State) (t : Nat) (f : Team → Team) : (updTeam s t f).hp = s.hp := rfl
@[simp] theorem updTeam_eth (s : State) (t : Nat) (f : Team → Team) : (updTeam s t f).eth = s.eth := rfl
@[simp] theorem updTeam_regs (s : State) (t : Nat) (f : Team → Team) : (updTeam s t f).regs = s.regs := rfl
@[simp] theorem updTeam_booted (s : State) (t : Nat) (f : Team → Team) : (updTeam s t f).booted = s.booted := rfl
@[simp] theorem updTeam_faulted (s : State) (t : Nat) (f : Team → Team) : (updTeam s t f).faulted = s.faulted := rfl

/-! ## updGrid -/

@[simp] theorem updGrid_agenda (s : State) (g : Nat) (f : Grid → Grid) : (updGrid s g f).agenda = s.agenda := rfl
@[simp] theorem updGrid_cur (s : State) (g : Nat) (f : Grid → Grid) : (updGrid s g f).cur = s.cur := rfl
@[simp] theorem updGrid_free (s : State) (g : Nat) (f : Grid → Grid) : (updGrid s g f).free = s.free := rfl
@[simp] theorem updGrid_nextUid (s : State) (g : Nat) (f : Grid → Grid) : (updGrid s g f).nextUid = s.nextUid := rfl
@[simp] theorem updGrid_clock (s : State) (g : Nat) (f : Grid → Grid) : (updGrid s g f).clock = s.clock := rfl
@[simp] theorem updGrid_harts (s : State) (g : Nat) (f : Grid → Grid) : (updGrid s g f).harts = s.harts := rfl
@[simp] theorem updGrid_mcsrs (s : State) (g : Nat) (f : Grid → Grid) : (updGrid s g f).mcsrs = s.mcsrs := rfl
@[simp] theorem updGrid_steerCfg (s : State) (g : Nat) (f : Grid → Grid) : (updGrid s g f).steerCfg = s.steerCfg := rfl
@[simp] theorem updGrid_cores (s : State) (g : Nat) (f : Grid → Grid) : (updGrid s g f).cores = s.cores := rfl
@[simp] theorem updGrid_arbs (s : State) (g : Nat) (f : Grid → Grid) : (updGrid s g f).arbs = s.arbs := rfl
@[simp] theorem updGrid_tstore (s : State) (g : Nat) (f : Grid → Grid) : (updGrid s g f).tstore = s.tstore := rfl
@[simp] theorem updGrid_tiles (s : State) (g : Nat) (f : Grid → Grid) : (updGrid s g f).tiles = s.tiles := rfl
@[simp] theorem updGrid_mem (s : State) (g : Nat) (f : Grid → Grid) : (updGrid s g f).mem = s.mem := rfl
@[simp] theorem updGrid_xl (s : State) (g : Nat) (f : Grid → Grid) : (updGrid s g f).xl = s.xl := rfl
@[simp] theorem updGrid_reds (s : State) (g : Nat) (f : Grid → Grid) : (updGrid s g f).reds = s.reds := rfl
@[simp] theorem updGrid_net (s : State) (g : Nat) (f : Grid → Grid) : (updGrid s g f).net = s.net := rfl
@[simp] theorem updGrid_sch (s : State) (g : Nat) (f : Grid → Grid) : (updGrid s g f).sch = s.sch := rfl
@[simp] theorem updGrid_fe (s : State) (g : Nat) (f : Grid → Grid) : (updGrid s g f).fe = s.fe := rfl
@[simp] theorem updGrid_seams (s : State) (g : Nat) (f : Grid → Grid) : (updGrid s g f).seams = s.seams := rfl
@[simp] theorem updGrid_plat (s : State) (g : Nat) (f : Grid → Grid) : (updGrid s g f).plat = s.plat := rfl
@[simp] theorem updGrid_hp (s : State) (g : Nat) (f : Grid → Grid) : (updGrid s g f).hp = s.hp := rfl
@[simp] theorem updGrid_eth (s : State) (g : Nat) (f : Grid → Grid) : (updGrid s g f).eth = s.eth := rfl
@[simp] theorem updGrid_regs (s : State) (g : Nat) (f : Grid → Grid) : (updGrid s g f).regs = s.regs := rfl
@[simp] theorem updGrid_booted (s : State) (g : Nat) (f : Grid → Grid) : (updGrid s g f).booted = s.booted := rfl
@[simp] theorem updGrid_faulted (s : State) (g : Nat) (f : Grid → Grid) : (updGrid s g f).faulted = s.faulted := rfl

/-! ## updAcct -/

@[simp] theorem updAcct_agenda (s : State) (a : Nat) (f : Acct → Acct) : (updAcct s a f).agenda = s.agenda := rfl
@[simp] theorem updAcct_cur (s : State) (a : Nat) (f : Acct → Acct) : (updAcct s a f).cur = s.cur := rfl
@[simp] theorem updAcct_free (s : State) (a : Nat) (f : Acct → Acct) : (updAcct s a f).free = s.free := rfl
@[simp] theorem updAcct_nextUid (s : State) (a : Nat) (f : Acct → Acct) : (updAcct s a f).nextUid = s.nextUid := rfl
@[simp] theorem updAcct_clock (s : State) (a : Nat) (f : Acct → Acct) : (updAcct s a f).clock = s.clock := rfl
@[simp] theorem updAcct_harts (s : State) (a : Nat) (f : Acct → Acct) : (updAcct s a f).harts = s.harts := rfl
@[simp] theorem updAcct_mcsrs (s : State) (a : Nat) (f : Acct → Acct) : (updAcct s a f).mcsrs = s.mcsrs := rfl
@[simp] theorem updAcct_steerCfg (s : State) (a : Nat) (f : Acct → Acct) : (updAcct s a f).steerCfg = s.steerCfg := rfl
@[simp] theorem updAcct_cores (s : State) (a : Nat) (f : Acct → Acct) : (updAcct s a f).cores = s.cores := rfl
@[simp] theorem updAcct_arbs (s : State) (a : Nat) (f : Acct → Acct) : (updAcct s a f).arbs = s.arbs := rfl
@[simp] theorem updAcct_tstore (s : State) (a : Nat) (f : Acct → Acct) : (updAcct s a f).tstore = s.tstore := rfl
@[simp] theorem updAcct_tiles (s : State) (a : Nat) (f : Acct → Acct) : (updAcct s a f).tiles = s.tiles := rfl
@[simp] theorem updAcct_mem (s : State) (a : Nat) (f : Acct → Acct) : (updAcct s a f).mem = s.mem := rfl
@[simp] theorem updAcct_xl (s : State) (a : Nat) (f : Acct → Acct) : (updAcct s a f).xl = s.xl := rfl
@[simp] theorem updAcct_reds (s : State) (a : Nat) (f : Acct → Acct) : (updAcct s a f).reds = s.reds := rfl
@[simp] theorem updAcct_net (s : State) (a : Nat) (f : Acct → Acct) : (updAcct s a f).net = s.net := rfl
@[simp] theorem updAcct_sch (s : State) (a : Nat) (f : Acct → Acct) : (updAcct s a f).sch = s.sch := rfl
@[simp] theorem updAcct_fe (s : State) (a : Nat) (f : Acct → Acct) : (updAcct s a f).fe = s.fe := rfl
@[simp] theorem updAcct_seams (s : State) (a : Nat) (f : Acct → Acct) : (updAcct s a f).seams = s.seams := rfl
@[simp] theorem updAcct_plat (s : State) (a : Nat) (f : Acct → Acct) : (updAcct s a f).plat = s.plat := rfl
@[simp] theorem updAcct_hp (s : State) (a : Nat) (f : Acct → Acct) : (updAcct s a f).hp = s.hp := rfl
@[simp] theorem updAcct_eth (s : State) (a : Nat) (f : Acct → Acct) : (updAcct s a f).eth = s.eth := rfl
@[simp] theorem updAcct_regs (s : State) (a : Nat) (f : Acct → Acct) : (updAcct s a f).regs = s.regs := rfl
@[simp] theorem updAcct_booted (s : State) (a : Nat) (f : Acct → Acct) : (updAcct s a f).booted = s.booted := rfl
@[simp] theorem updAcct_faulted (s : State) (a : Nat) (f : Acct → Acct) : (updAcct s a f).faulted = s.faulted := rfl

/-! ## updFe -/

@[simp] theorem updFe_agenda (s : State) (f : FrontEnd → FrontEnd) : (updFe s f).agenda = s.agenda := rfl
@[simp] theorem updFe_cur (s : State) (f : FrontEnd → FrontEnd) : (updFe s f).cur = s.cur := rfl
@[simp] theorem updFe_free (s : State) (f : FrontEnd → FrontEnd) : (updFe s f).free = s.free := rfl
@[simp] theorem updFe_nextUid (s : State) (f : FrontEnd → FrontEnd) : (updFe s f).nextUid = s.nextUid := rfl
@[simp] theorem updFe_clock (s : State) (f : FrontEnd → FrontEnd) : (updFe s f).clock = s.clock := rfl
@[simp] theorem updFe_harts (s : State) (f : FrontEnd → FrontEnd) : (updFe s f).harts = s.harts := rfl
@[simp] theorem updFe_mcsrs (s : State) (f : FrontEnd → FrontEnd) : (updFe s f).mcsrs = s.mcsrs := rfl
@[simp] theorem updFe_steerCfg (s : State) (f : FrontEnd → FrontEnd) : (updFe s f).steerCfg = s.steerCfg := rfl
@[simp] theorem updFe_cores (s : State) (f : FrontEnd → FrontEnd) : (updFe s f).cores = s.cores := rfl
@[simp] theorem updFe_arbs (s : State) (f : FrontEnd → FrontEnd) : (updFe s f).arbs = s.arbs := rfl
@[simp] theorem updFe_tstore (s : State) (f : FrontEnd → FrontEnd) : (updFe s f).tstore = s.tstore := rfl
@[simp] theorem updFe_tiles (s : State) (f : FrontEnd → FrontEnd) : (updFe s f).tiles = s.tiles := rfl
@[simp] theorem updFe_mem (s : State) (f : FrontEnd → FrontEnd) : (updFe s f).mem = s.mem := rfl
@[simp] theorem updFe_xl (s : State) (f : FrontEnd → FrontEnd) : (updFe s f).xl = s.xl := rfl
@[simp] theorem updFe_reds (s : State) (f : FrontEnd → FrontEnd) : (updFe s f).reds = s.reds := rfl
@[simp] theorem updFe_net (s : State) (f : FrontEnd → FrontEnd) : (updFe s f).net = s.net := rfl
@[simp] theorem updFe_work (s : State) (f : FrontEnd → FrontEnd) : (updFe s f).work = s.work := rfl
@[simp] theorem updFe_sch (s : State) (f : FrontEnd → FrontEnd) : (updFe s f).sch = s.sch := rfl
@[simp] theorem updFe_seams (s : State) (f : FrontEnd → FrontEnd) : (updFe s f).seams = s.seams := rfl
@[simp] theorem updFe_plat (s : State) (f : FrontEnd → FrontEnd) : (updFe s f).plat = s.plat := rfl
@[simp] theorem updFe_hp (s : State) (f : FrontEnd → FrontEnd) : (updFe s f).hp = s.hp := rfl
@[simp] theorem updFe_eth (s : State) (f : FrontEnd → FrontEnd) : (updFe s f).eth = s.eth := rfl
@[simp] theorem updFe_regs (s : State) (f : FrontEnd → FrontEnd) : (updFe s f).regs = s.regs := rfl
@[simp] theorem updFe_booted (s : State) (f : FrontEnd → FrontEnd) : (updFe s f).booted = s.booted := rfl
@[simp] theorem updFe_faulted (s : State) (f : FrontEnd → FrontEnd) : (updFe s f).faulted = s.faulted := rfl

/-! ## updHp -/

@[simp] theorem updHp_agenda (s : State) (f : HostPorts → HostPorts) : (updHp s f).agenda = s.agenda := rfl
@[simp] theorem updHp_cur (s : State) (f : HostPorts → HostPorts) : (updHp s f).cur = s.cur := rfl
@[simp] theorem updHp_free (s : State) (f : HostPorts → HostPorts) : (updHp s f).free = s.free := rfl
@[simp] theorem updHp_nextUid (s : State) (f : HostPorts → HostPorts) : (updHp s f).nextUid = s.nextUid := rfl
@[simp] theorem updHp_clock (s : State) (f : HostPorts → HostPorts) : (updHp s f).clock = s.clock := rfl
@[simp] theorem updHp_harts (s : State) (f : HostPorts → HostPorts) : (updHp s f).harts = s.harts := rfl
@[simp] theorem updHp_mcsrs (s : State) (f : HostPorts → HostPorts) : (updHp s f).mcsrs = s.mcsrs := rfl
@[simp] theorem updHp_steerCfg (s : State) (f : HostPorts → HostPorts) : (updHp s f).steerCfg = s.steerCfg := rfl
@[simp] theorem updHp_cores (s : State) (f : HostPorts → HostPorts) : (updHp s f).cores = s.cores := rfl
@[simp] theorem updHp_arbs (s : State) (f : HostPorts → HostPorts) : (updHp s f).arbs = s.arbs := rfl
@[simp] theorem updHp_tstore (s : State) (f : HostPorts → HostPorts) : (updHp s f).tstore = s.tstore := rfl
@[simp] theorem updHp_tiles (s : State) (f : HostPorts → HostPorts) : (updHp s f).tiles = s.tiles := rfl
@[simp] theorem updHp_mem (s : State) (f : HostPorts → HostPorts) : (updHp s f).mem = s.mem := rfl
@[simp] theorem updHp_xl (s : State) (f : HostPorts → HostPorts) : (updHp s f).xl = s.xl := rfl
@[simp] theorem updHp_reds (s : State) (f : HostPorts → HostPorts) : (updHp s f).reds = s.reds := rfl
@[simp] theorem updHp_net (s : State) (f : HostPorts → HostPorts) : (updHp s f).net = s.net := rfl
@[simp] theorem updHp_work (s : State) (f : HostPorts → HostPorts) : (updHp s f).work = s.work := rfl
@[simp] theorem updHp_sch (s : State) (f : HostPorts → HostPorts) : (updHp s f).sch = s.sch := rfl
@[simp] theorem updHp_fe (s : State) (f : HostPorts → HostPorts) : (updHp s f).fe = s.fe := rfl
@[simp] theorem updHp_seams (s : State) (f : HostPorts → HostPorts) : (updHp s f).seams = s.seams := rfl
@[simp] theorem updHp_plat (s : State) (f : HostPorts → HostPorts) : (updHp s f).plat = s.plat := rfl
@[simp] theorem updHp_eth (s : State) (f : HostPorts → HostPorts) : (updHp s f).eth = s.eth := rfl
@[simp] theorem updHp_regs (s : State) (f : HostPorts → HostPorts) : (updHp s f).regs = s.regs := rfl
@[simp] theorem updHp_booted (s : State) (f : HostPorts → HostPorts) : (updHp s f).booted = s.booted := rfl
@[simp] theorem updHp_faulted (s : State) (f : HostPorts → HostPorts) : (updHp s f).faulted = s.faulted := rfl

/-! ## updPlat -/

@[simp] theorem updPlat_agenda (s : State) (f : Plat → Plat) : (updPlat s f).agenda = s.agenda := rfl
@[simp] theorem updPlat_cur (s : State) (f : Plat → Plat) : (updPlat s f).cur = s.cur := rfl
@[simp] theorem updPlat_free (s : State) (f : Plat → Plat) : (updPlat s f).free = s.free := rfl
@[simp] theorem updPlat_nextUid (s : State) (f : Plat → Plat) : (updPlat s f).nextUid = s.nextUid := rfl
@[simp] theorem updPlat_clock (s : State) (f : Plat → Plat) : (updPlat s f).clock = s.clock := rfl
@[simp] theorem updPlat_harts (s : State) (f : Plat → Plat) : (updPlat s f).harts = s.harts := rfl
@[simp] theorem updPlat_mcsrs (s : State) (f : Plat → Plat) : (updPlat s f).mcsrs = s.mcsrs := rfl
@[simp] theorem updPlat_steerCfg (s : State) (f : Plat → Plat) : (updPlat s f).steerCfg = s.steerCfg := rfl
@[simp] theorem updPlat_cores (s : State) (f : Plat → Plat) : (updPlat s f).cores = s.cores := rfl
@[simp] theorem updPlat_arbs (s : State) (f : Plat → Plat) : (updPlat s f).arbs = s.arbs := rfl
@[simp] theorem updPlat_tstore (s : State) (f : Plat → Plat) : (updPlat s f).tstore = s.tstore := rfl
@[simp] theorem updPlat_tiles (s : State) (f : Plat → Plat) : (updPlat s f).tiles = s.tiles := rfl
@[simp] theorem updPlat_mem (s : State) (f : Plat → Plat) : (updPlat s f).mem = s.mem := rfl
@[simp] theorem updPlat_xl (s : State) (f : Plat → Plat) : (updPlat s f).xl = s.xl := rfl
@[simp] theorem updPlat_reds (s : State) (f : Plat → Plat) : (updPlat s f).reds = s.reds := rfl
@[simp] theorem updPlat_net (s : State) (f : Plat → Plat) : (updPlat s f).net = s.net := rfl
@[simp] theorem updPlat_work (s : State) (f : Plat → Plat) : (updPlat s f).work = s.work := rfl
@[simp] theorem updPlat_sch (s : State) (f : Plat → Plat) : (updPlat s f).sch = s.sch := rfl
@[simp] theorem updPlat_fe (s : State) (f : Plat → Plat) : (updPlat s f).fe = s.fe := rfl
@[simp] theorem updPlat_seams (s : State) (f : Plat → Plat) : (updPlat s f).seams = s.seams := rfl
@[simp] theorem updPlat_hp (s : State) (f : Plat → Plat) : (updPlat s f).hp = s.hp := rfl
@[simp] theorem updPlat_eth (s : State) (f : Plat → Plat) : (updPlat s f).eth = s.eth := rfl
@[simp] theorem updPlat_regs (s : State) (f : Plat → Plat) : (updPlat s f).regs = s.regs := rfl
@[simp] theorem updPlat_booted (s : State) (f : Plat → Plat) : (updPlat s f).booted = s.booted := rfl
@[simp] theorem updPlat_faulted (s : State) (f : Plat → Plat) : (updPlat s f).faulted = s.faulted := rfl

/-! ## setReg -/

@[simp] theorem setReg_agenda (s : State) (r v : Nat) : (setReg s r v).agenda = s.agenda := rfl
@[simp] theorem setReg_cur (s : State) (r v : Nat) : (setReg s r v).cur = s.cur := rfl
@[simp] theorem setReg_free (s : State) (r v : Nat) : (setReg s r v).free = s.free := rfl
@[simp] theorem setReg_nextUid (s : State) (r v : Nat) : (setReg s r v).nextUid = s.nextUid := rfl
@[simp] theorem setReg_clock (s : State) (r v : Nat) : (setReg s r v).clock = s.clock := rfl
@[simp] theorem setReg_harts (s : State) (r v : Nat) : (setReg s r v).harts = s.harts := rfl
@[simp] theorem setReg_mcsrs (s : State) (r v : Nat) : (setReg s r v).mcsrs = s.mcsrs := rfl
@[simp] theorem setReg_steerCfg (s : State) (r v : Nat) : (setReg s r v).steerCfg = s.steerCfg := rfl
@[simp] theorem setReg_cores (s : State) (r v : Nat) : (setReg s r v).cores = s.cores := rfl
@[simp] theorem setReg_arbs (s : State) (r v : Nat) : (setReg s r v).arbs = s.arbs := rfl
@[simp] theorem setReg_tstore (s : State) (r v : Nat) : (setReg s r v).tstore = s.tstore := rfl
@[simp] theorem setReg_tiles (s : State) (r v : Nat) : (setReg s r v).tiles = s.tiles := rfl
@[simp] theorem setReg_mem (s : State) (r v : Nat) : (setReg s r v).mem = s.mem := rfl
@[simp] theorem setReg_xl (s : State) (r v : Nat) : (setReg s r v).xl = s.xl := rfl
@[simp] theorem setReg_reds (s : State) (r v : Nat) : (setReg s r v).reds = s.reds := rfl
@[simp] theorem setReg_net (s : State) (r v : Nat) : (setReg s r v).net = s.net := rfl
@[simp] theorem setReg_work (s : State) (r v : Nat) : (setReg s r v).work = s.work := rfl
@[simp] theorem setReg_sch (s : State) (r v : Nat) : (setReg s r v).sch = s.sch := rfl
@[simp] theorem setReg_fe (s : State) (r v : Nat) : (setReg s r v).fe = s.fe := rfl
@[simp] theorem setReg_seams (s : State) (r v : Nat) : (setReg s r v).seams = s.seams := rfl
@[simp] theorem setReg_plat (s : State) (r v : Nat) : (setReg s r v).plat = s.plat := rfl
@[simp] theorem setReg_hp (s : State) (r v : Nat) : (setReg s r v).hp = s.hp := rfl
@[simp] theorem setReg_eth (s : State) (r v : Nat) : (setReg s r v).eth = s.eth := rfl
@[simp] theorem setReg_booted (s : State) (r v : Nat) : (setReg s r v).booted = s.booted := rfl
@[simp] theorem setReg_faulted (s : State) (r v : Nat) : (setReg s r v).faulted = s.faulted := rfl

/-! ## updMcsr -/

@[simp] theorem updMcsr_agenda (s : State) (k : Nat) (f : MCsr → MCsr) : (updMcsr s k f).agenda = s.agenda := rfl
@[simp] theorem updMcsr_cur (s : State) (k : Nat) (f : MCsr → MCsr) : (updMcsr s k f).cur = s.cur := rfl
@[simp] theorem updMcsr_free (s : State) (k : Nat) (f : MCsr → MCsr) : (updMcsr s k f).free = s.free := rfl
@[simp] theorem updMcsr_nextUid (s : State) (k : Nat) (f : MCsr → MCsr) : (updMcsr s k f).nextUid = s.nextUid := rfl
@[simp] theorem updMcsr_clock (s : State) (k : Nat) (f : MCsr → MCsr) : (updMcsr s k f).clock = s.clock := rfl
@[simp] theorem updMcsr_harts (s : State) (k : Nat) (f : MCsr → MCsr) : (updMcsr s k f).harts = s.harts := rfl
@[simp] theorem updMcsr_steerCfg (s : State) (k : Nat) (f : MCsr → MCsr) : (updMcsr s k f).steerCfg = s.steerCfg := rfl
@[simp] theorem updMcsr_cores (s : State) (k : Nat) (f : MCsr → MCsr) : (updMcsr s k f).cores = s.cores := rfl
@[simp] theorem updMcsr_arbs (s : State) (k : Nat) (f : MCsr → MCsr) : (updMcsr s k f).arbs = s.arbs := rfl
@[simp] theorem updMcsr_tstore (s : State) (k : Nat) (f : MCsr → MCsr) : (updMcsr s k f).tstore = s.tstore := rfl
@[simp] theorem updMcsr_tiles (s : State) (k : Nat) (f : MCsr → MCsr) : (updMcsr s k f).tiles = s.tiles := rfl
@[simp] theorem updMcsr_mem (s : State) (k : Nat) (f : MCsr → MCsr) : (updMcsr s k f).mem = s.mem := rfl
@[simp] theorem updMcsr_xl (s : State) (k : Nat) (f : MCsr → MCsr) : (updMcsr s k f).xl = s.xl := rfl
@[simp] theorem updMcsr_reds (s : State) (k : Nat) (f : MCsr → MCsr) : (updMcsr s k f).reds = s.reds := rfl
@[simp] theorem updMcsr_net (s : State) (k : Nat) (f : MCsr → MCsr) : (updMcsr s k f).net = s.net := rfl
@[simp] theorem updMcsr_work (s : State) (k : Nat) (f : MCsr → MCsr) : (updMcsr s k f).work = s.work := rfl
@[simp] theorem updMcsr_sch (s : State) (k : Nat) (f : MCsr → MCsr) : (updMcsr s k f).sch = s.sch := rfl
@[simp] theorem updMcsr_fe (s : State) (k : Nat) (f : MCsr → MCsr) : (updMcsr s k f).fe = s.fe := rfl
@[simp] theorem updMcsr_seams (s : State) (k : Nat) (f : MCsr → MCsr) : (updMcsr s k f).seams = s.seams := rfl
@[simp] theorem updMcsr_plat (s : State) (k : Nat) (f : MCsr → MCsr) : (updMcsr s k f).plat = s.plat := rfl
@[simp] theorem updMcsr_hp (s : State) (k : Nat) (f : MCsr → MCsr) : (updMcsr s k f).hp = s.hp := rfl
@[simp] theorem updMcsr_eth (s : State) (k : Nat) (f : MCsr → MCsr) : (updMcsr s k f).eth = s.eth := rfl
@[simp] theorem updMcsr_regs (s : State) (k : Nat) (f : MCsr → MCsr) : (updMcsr s k f).regs = s.regs := rfl
@[simp] theorem updMcsr_booted (s : State) (k : Nat) (f : MCsr → MCsr) : (updMcsr s k f).booted = s.booted := rfl
@[simp] theorem updMcsr_faulted (s : State) (k : Nat) (f : MCsr → MCsr) : (updMcsr s k f).faulted = s.faulted := rfl

/-! ## updEth -/

@[simp] theorem updEth_agenda (s : State) (e : Nat) (f : Eth → Eth) : (updEth s e f).agenda = s.agenda := rfl
@[simp] theorem updEth_cur (s : State) (e : Nat) (f : Eth → Eth) : (updEth s e f).cur = s.cur := rfl
@[simp] theorem updEth_free (s : State) (e : Nat) (f : Eth → Eth) : (updEth s e f).free = s.free := rfl
@[simp] theorem updEth_nextUid (s : State) (e : Nat) (f : Eth → Eth) : (updEth s e f).nextUid = s.nextUid := rfl
@[simp] theorem updEth_clock (s : State) (e : Nat) (f : Eth → Eth) : (updEth s e f).clock = s.clock := rfl
@[simp] theorem updEth_harts (s : State) (e : Nat) (f : Eth → Eth) : (updEth s e f).harts = s.harts := rfl
@[simp] theorem updEth_mcsrs (s : State) (e : Nat) (f : Eth → Eth) : (updEth s e f).mcsrs = s.mcsrs := rfl
@[simp] theorem updEth_steerCfg (s : State) (e : Nat) (f : Eth → Eth) : (updEth s e f).steerCfg = s.steerCfg := rfl
@[simp] theorem updEth_cores (s : State) (e : Nat) (f : Eth → Eth) : (updEth s e f).cores = s.cores := rfl
@[simp] theorem updEth_arbs (s : State) (e : Nat) (f : Eth → Eth) : (updEth s e f).arbs = s.arbs := rfl
@[simp] theorem updEth_tstore (s : State) (e : Nat) (f : Eth → Eth) : (updEth s e f).tstore = s.tstore := rfl
@[simp] theorem updEth_tiles (s : State) (e : Nat) (f : Eth → Eth) : (updEth s e f).tiles = s.tiles := rfl
@[simp] theorem updEth_mem (s : State) (e : Nat) (f : Eth → Eth) : (updEth s e f).mem = s.mem := rfl
@[simp] theorem updEth_xl (s : State) (e : Nat) (f : Eth → Eth) : (updEth s e f).xl = s.xl := rfl
@[simp] theorem updEth_reds (s : State) (e : Nat) (f : Eth → Eth) : (updEth s e f).reds = s.reds := rfl
@[simp] theorem updEth_net (s : State) (e : Nat) (f : Eth → Eth) : (updEth s e f).net = s.net := rfl
@[simp] theorem updEth_work (s : State) (e : Nat) (f : Eth → Eth) : (updEth s e f).work = s.work := rfl
@[simp] theorem updEth_sch (s : State) (e : Nat) (f : Eth → Eth) : (updEth s e f).sch = s.sch := rfl
@[simp] theorem updEth_fe (s : State) (e : Nat) (f : Eth → Eth) : (updEth s e f).fe = s.fe := rfl
@[simp] theorem updEth_seams (s : State) (e : Nat) (f : Eth → Eth) : (updEth s e f).seams = s.seams := rfl
@[simp] theorem updEth_plat (s : State) (e : Nat) (f : Eth → Eth) : (updEth s e f).plat = s.plat := rfl
@[simp] theorem updEth_hp (s : State) (e : Nat) (f : Eth → Eth) : (updEth s e f).hp = s.hp := rfl
@[simp] theorem updEth_regs (s : State) (e : Nat) (f : Eth → Eth) : (updEth s e f).regs = s.regs := rfl
@[simp] theorem updEth_booted (s : State) (e : Nat) (f : Eth → Eth) : (updEth s e f).booted = s.booted := rfl
@[simp] theorem updEth_faulted (s : State) (e : Nat) (f : Eth → Eth) : (updEth s e f).faulted = s.faulted := rfl

/-! ## updSeam -/

@[simp] theorem updSeam_agenda (s : State) (n : Nat) (f : Seam → Seam) : (updSeam s n f).agenda = s.agenda := rfl
@[simp] theorem updSeam_cur (s : State) (n : Nat) (f : Seam → Seam) : (updSeam s n f).cur = s.cur := rfl
@[simp] theorem updSeam_free (s : State) (n : Nat) (f : Seam → Seam) : (updSeam s n f).free = s.free := rfl
@[simp] theorem updSeam_nextUid (s : State) (n : Nat) (f : Seam → Seam) : (updSeam s n f).nextUid = s.nextUid := rfl
@[simp] theorem updSeam_clock (s : State) (n : Nat) (f : Seam → Seam) : (updSeam s n f).clock = s.clock := rfl
@[simp] theorem updSeam_harts (s : State) (n : Nat) (f : Seam → Seam) : (updSeam s n f).harts = s.harts := rfl
@[simp] theorem updSeam_mcsrs (s : State) (n : Nat) (f : Seam → Seam) : (updSeam s n f).mcsrs = s.mcsrs := rfl
@[simp] theorem updSeam_steerCfg (s : State) (n : Nat) (f : Seam → Seam) : (updSeam s n f).steerCfg = s.steerCfg := rfl
@[simp] theorem updSeam_cores (s : State) (n : Nat) (f : Seam → Seam) : (updSeam s n f).cores = s.cores := rfl
@[simp] theorem updSeam_arbs (s : State) (n : Nat) (f : Seam → Seam) : (updSeam s n f).arbs = s.arbs := rfl
@[simp] theorem updSeam_tstore (s : State) (n : Nat) (f : Seam → Seam) : (updSeam s n f).tstore = s.tstore := rfl
@[simp] theorem updSeam_tiles (s : State) (n : Nat) (f : Seam → Seam) : (updSeam s n f).tiles = s.tiles := rfl
@[simp] theorem updSeam_mem (s : State) (n : Nat) (f : Seam → Seam) : (updSeam s n f).mem = s.mem := rfl
@[simp] theorem updSeam_xl (s : State) (n : Nat) (f : Seam → Seam) : (updSeam s n f).xl = s.xl := rfl
@[simp] theorem updSeam_reds (s : State) (n : Nat) (f : Seam → Seam) : (updSeam s n f).reds = s.reds := rfl
@[simp] theorem updSeam_net (s : State) (n : Nat) (f : Seam → Seam) : (updSeam s n f).net = s.net := rfl
@[simp] theorem updSeam_work (s : State) (n : Nat) (f : Seam → Seam) : (updSeam s n f).work = s.work := rfl
@[simp] theorem updSeam_sch (s : State) (n : Nat) (f : Seam → Seam) : (updSeam s n f).sch = s.sch := rfl
@[simp] theorem updSeam_fe (s : State) (n : Nat) (f : Seam → Seam) : (updSeam s n f).fe = s.fe := rfl
@[simp] theorem updSeam_plat (s : State) (n : Nat) (f : Seam → Seam) : (updSeam s n f).plat = s.plat := rfl
@[simp] theorem updSeam_hp (s : State) (n : Nat) (f : Seam → Seam) : (updSeam s n f).hp = s.hp := rfl
@[simp] theorem updSeam_eth (s : State) (n : Nat) (f : Seam → Seam) : (updSeam s n f).eth = s.eth := rfl
@[simp] theorem updSeam_regs (s : State) (n : Nat) (f : Seam → Seam) : (updSeam s n f).regs = s.regs := rfl
@[simp] theorem updSeam_booted (s : State) (n : Nat) (f : Seam → Seam) : (updSeam s n f).booted = s.booted := rfl
@[simp] theorem updSeam_faulted (s : State) (n : Nat) (f : Seam → Seam) : (updSeam s n f).faulted = s.faulted := rfl

/-! ## wx -/

@[simp] theorem wx_pc (h : Hart) (r : XR) (w : Word) : (wx h r w).pc = h.pc := by unfold wx; split <;> rfl
@[simp] theorem wx_m (h : Hart) (r : XR) (w : Word) : (wx h r w).m = h.m := by unfold wx; split <;> rfl
@[simp] theorem wx_stk (h : Hart) (r : XR) (w : Word) : (wx h r w).stk = h.stk := by unfold wx; split <;> rfl
@[simp] theorem wx_dep (h : Hart) (r : XR) (w : Word) : (wx h r w).dep = h.dep := by unfold wx; split <;> rfl
@[simp] theorem wx_v (h : Hart) (r : XR) (w : Word) : (wx h r w).v = h.v := by unfold wx; split <;> rfl
@[simp] theorem wx_vbad (h : Hart) (r : XR) (w : Word) : (wx h r w).vbad = h.vbad := by unfold wx; split <;> rfl
@[simp] theorem wx_tm (h : Hart) (r : XR) (w : Word) : (wx h r w).tm = h.tm := by unfold wx; split <;> rfl
@[simp] theorem wx_mode (h : Hart) (r : XR) (w : Word) : (wx h r w).mode = h.mode := by unfold wx; split <;> rfl
@[simp] theorem wx_l (h : Hart) (r : XR) (w : Word) : (wx h r w).l = h.l := by unfold wx; split <;> rfl
@[simp] theorem wx_s (h : Hart) (r : XR) (w : Word) : (wx h r w).s = h.s := by unfold wx; split <;> rfl
@[simp] theorem wx_id (h : Hart) (r : XR) (w : Word) : (wx h r w).id = h.id := by unfold wx; split <;> rfl
@[simp] theorem wx_snap (h : Hart) (r : XR) (w : Word) : (wx h r w).snap = h.snap := by unfold wx; split <;> rfl
@[simp] theorem wx_ring (h : Hart) (r : XR) (w : Word) : (wx h r w).ring = h.ring := by unfold wx; split <;> rfl
@[simp] theorem wx_laneQ (h : Hart) (r : XR) (w : Word) : (wx h r w).laneQ = h.laneQ := by unfold wx; split <;> rfl
@[simp] theorem wx_tickets (h : Hart) (r : XR) (w : Word) : (wx h r w).tickets = h.tickets := by unfold wx; split <;> rfl
@[simp] theorem wx_syncw (h : Hart) (r : XR) (w : Word) : (wx h r w).syncw = h.syncw := by unfold wx; split <;> rfl
@[simp] theorem wx_resv (h : Hart) (r : XR) (w : Word) : (wx h r w).resv = h.resv := by unfold wx; split <;> rfl
@[simp] theorem wx_wait (h : Hart) (r : XR) (w : Word) : (wx h r w).wait = h.wait := by unfold wx; split <;> rfl
@[simp] theorem wx_pend (h : Hart) (r : XR) (w : Word) : (wx h r w).pend = h.pend := by unfold wx; split <;> rfl
@[simp] theorem wx_parts (h : Hart) (r : XR) (w : Word) : (wx h r w).parts = h.parts := by unfold wx; split <;> rfl
@[simp] theorem wx_xlock (h : Hart) (r : XR) (w : Word) : (wx h r w).xlock = h.xlock := by unfold wx; split <;> rfl
@[simp] theorem wx_msg (h : Hart) (r : XR) (w : Word) : (wx h r w).msg = h.msg := by unfold wx; split <;> rfl
@[simp] theorem wx_frag (h : Hart) (r : XR) (w : Word) : (wx h r w).frag = h.frag := by unfold wx; split <;> rfl
@[simp] theorem wx_halted (h : Hart) (r : XR) (w : Word) : (wx h r w).halted = h.halted := by unfold wx; split <;> rfl
@[simp] theorem wx_stepping (h : Hart) (r : XR) (w : Word) : (wx h r w).stepping = h.stepping := by unfold wx; split <;> rfl
@[simp] theorem wx_notReady (h : Hart) (r : XR) (w : Word) : (wx h r w).notReady = h.notReady := by unfold wx; split <;> rfl
@[simp] theorem wx_ending (h : Hart) (r : XR) (w : Word) : (wx h r w).ending = h.ending := by unfold wx; split <;> rfl
@[simp] theorem wx_capture (h : Hart) (r : XR) (w : Word) : (wx h r w).capture = h.capture := by unfold wx; split <;> rfl
@[simp] theorem wx_seen (h : Hart) (r : XR) (w : Word) : (wx h r w).seen = h.seen := by unfold wx; split <;> rfl
@[simp] theorem wx_deps (h : Hart) (r : XR) (w : Word) : (wx h r w).deps = h.deps := by unfold wx; split <;> rfl
@[simp] theorem wx_ldeps (h : Hart) (r : XR) (w : Word) : (wx h r w).ldeps = h.ldeps := by unfold wx; split <;> rfl
@[simp] theorem wx_npos (h : Hart) (r : XR) (w : Word) : (wx h r w).npos = h.npos := by unfold wx; split <;> rfl
@[simp] theorem wx_ahead (h : Hart) (r : XR) (w : Word) : (wx h r w).ahead = h.ahead := by unfold wx; split <;> rfl

/-! ## wm -/

@[simp] theorem wm_pc (h : Hart) (r : MR) (w : Mask) : (wm h r w).pc = h.pc := by unfold wm; split <;> rfl
@[simp] theorem wm_x (h : Hart) (r : MR) (w : Mask) : (wm h r w).x = h.x := by unfold wm; split <;> rfl
@[simp] theorem wm_stk (h : Hart) (r : MR) (w : Mask) : (wm h r w).stk = h.stk := by unfold wm; split <;> rfl
@[simp] theorem wm_dep (h : Hart) (r : MR) (w : Mask) : (wm h r w).dep = h.dep := by unfold wm; split <;> rfl
@[simp] theorem wm_v (h : Hart) (r : MR) (w : Mask) : (wm h r w).v = h.v := by unfold wm; split <;> rfl
@[simp] theorem wm_vbad (h : Hart) (r : MR) (w : Mask) : (wm h r w).vbad = h.vbad := by unfold wm; split <;> rfl
@[simp] theorem wm_tm (h : Hart) (r : MR) (w : Mask) : (wm h r w).tm = h.tm := by unfold wm; split <;> rfl
@[simp] theorem wm_mode (h : Hart) (r : MR) (w : Mask) : (wm h r w).mode = h.mode := by unfold wm; split <;> rfl
@[simp] theorem wm_l (h : Hart) (r : MR) (w : Mask) : (wm h r w).l = h.l := by unfold wm; split <;> rfl
@[simp] theorem wm_s (h : Hart) (r : MR) (w : Mask) : (wm h r w).s = h.s := by unfold wm; split <;> rfl
@[simp] theorem wm_id (h : Hart) (r : MR) (w : Mask) : (wm h r w).id = h.id := by unfold wm; split <;> rfl
@[simp] theorem wm_snap (h : Hart) (r : MR) (w : Mask) : (wm h r w).snap = h.snap := by unfold wm; split <;> rfl
@[simp] theorem wm_ring (h : Hart) (r : MR) (w : Mask) : (wm h r w).ring = h.ring := by unfold wm; split <;> rfl
@[simp] theorem wm_laneQ (h : Hart) (r : MR) (w : Mask) : (wm h r w).laneQ = h.laneQ := by unfold wm; split <;> rfl
@[simp] theorem wm_tickets (h : Hart) (r : MR) (w : Mask) : (wm h r w).tickets = h.tickets := by unfold wm; split <;> rfl
@[simp] theorem wm_syncw (h : Hart) (r : MR) (w : Mask) : (wm h r w).syncw = h.syncw := by unfold wm; split <;> rfl
@[simp] theorem wm_resv (h : Hart) (r : MR) (w : Mask) : (wm h r w).resv = h.resv := by unfold wm; split <;> rfl
@[simp] theorem wm_wait (h : Hart) (r : MR) (w : Mask) : (wm h r w).wait = h.wait := by unfold wm; split <;> rfl
@[simp] theorem wm_pend (h : Hart) (r : MR) (w : Mask) : (wm h r w).pend = h.pend := by unfold wm; split <;> rfl
@[simp] theorem wm_parts (h : Hart) (r : MR) (w : Mask) : (wm h r w).parts = h.parts := by unfold wm; split <;> rfl
@[simp] theorem wm_xlock (h : Hart) (r : MR) (w : Mask) : (wm h r w).xlock = h.xlock := by unfold wm; split <;> rfl
@[simp] theorem wm_msg (h : Hart) (r : MR) (w : Mask) : (wm h r w).msg = h.msg := by unfold wm; split <;> rfl
@[simp] theorem wm_frag (h : Hart) (r : MR) (w : Mask) : (wm h r w).frag = h.frag := by unfold wm; split <;> rfl
@[simp] theorem wm_halted (h : Hart) (r : MR) (w : Mask) : (wm h r w).halted = h.halted := by unfold wm; split <;> rfl
@[simp] theorem wm_stepping (h : Hart) (r : MR) (w : Mask) : (wm h r w).stepping = h.stepping := by unfold wm; split <;> rfl
@[simp] theorem wm_notReady (h : Hart) (r : MR) (w : Mask) : (wm h r w).notReady = h.notReady := by unfold wm; split <;> rfl
@[simp] theorem wm_ending (h : Hart) (r : MR) (w : Mask) : (wm h r w).ending = h.ending := by unfold wm; split <;> rfl
@[simp] theorem wm_capture (h : Hart) (r : MR) (w : Mask) : (wm h r w).capture = h.capture := by unfold wm; split <;> rfl
@[simp] theorem wm_seen (h : Hart) (r : MR) (w : Mask) : (wm h r w).seen = h.seen := by unfold wm; split <;> rfl
@[simp] theorem wm_deps (h : Hart) (r : MR) (w : Mask) : (wm h r w).deps = h.deps := by unfold wm; split <;> rfl
@[simp] theorem wm_ldeps (h : Hart) (r : MR) (w : Mask) : (wm h r w).ldeps = h.ldeps := by unfold wm; split <;> rfl
@[simp] theorem wm_npos (h : Hart) (r : MR) (w : Mask) : (wm h r w).npos = h.npos := by unfold wm; split <;> rfl
@[simp] theorem wm_ahead (h : Hart) (r : MR) (w : Mask) : (wm h r w).ahead = h.ahead := by unfold wm; split <;> rfl

/-! ## wtm -/

@[simp] theorem wtm_pc (h : Hart) (r : MR) (t : TMap) : (wtm h r t).pc = h.pc := rfl
@[simp] theorem wtm_x (h : Hart) (r : MR) (t : TMap) : (wtm h r t).x = h.x := rfl
@[simp] theorem wtm_m (h : Hart) (r : MR) (t : TMap) : (wtm h r t).m = h.m := rfl
@[simp] theorem wtm_stk (h : Hart) (r : MR) (t : TMap) : (wtm h r t).stk = h.stk := rfl
@[simp] theorem wtm_dep (h : Hart) (r : MR) (t : TMap) : (wtm h r t).dep = h.dep := rfl
@[simp] theorem wtm_v (h : Hart) (r : MR) (t : TMap) : (wtm h r t).v = h.v := rfl
@[simp] theorem wtm_vbad (h : Hart) (r : MR) (t : TMap) : (wtm h r t).vbad = h.vbad := rfl
@[simp] theorem wtm_mode (h : Hart) (r : MR) (t : TMap) : (wtm h r t).mode = h.mode := rfl
@[simp] theorem wtm_l (h : Hart) (r : MR) (t : TMap) : (wtm h r t).l = h.l := rfl
@[simp] theorem wtm_s (h : Hart) (r : MR) (t : TMap) : (wtm h r t).s = h.s := rfl
@[simp] theorem wtm_id (h : Hart) (r : MR) (t : TMap) : (wtm h r t).id = h.id := rfl
@[simp] theorem wtm_snap (h : Hart) (r : MR) (t : TMap) : (wtm h r t).snap = h.snap := rfl
@[simp] theorem wtm_ring (h : Hart) (r : MR) (t : TMap) : (wtm h r t).ring = h.ring := rfl
@[simp] theorem wtm_laneQ (h : Hart) (r : MR) (t : TMap) : (wtm h r t).laneQ = h.laneQ := rfl
@[simp] theorem wtm_tickets (h : Hart) (r : MR) (t : TMap) : (wtm h r t).tickets = h.tickets := rfl
@[simp] theorem wtm_syncw (h : Hart) (r : MR) (t : TMap) : (wtm h r t).syncw = h.syncw := rfl
@[simp] theorem wtm_resv (h : Hart) (r : MR) (t : TMap) : (wtm h r t).resv = h.resv := rfl
@[simp] theorem wtm_wait (h : Hart) (r : MR) (t : TMap) : (wtm h r t).wait = h.wait := rfl
@[simp] theorem wtm_pend (h : Hart) (r : MR) (t : TMap) : (wtm h r t).pend = h.pend := rfl
@[simp] theorem wtm_parts (h : Hart) (r : MR) (t : TMap) : (wtm h r t).parts = h.parts := rfl
@[simp] theorem wtm_xlock (h : Hart) (r : MR) (t : TMap) : (wtm h r t).xlock = h.xlock := rfl
@[simp] theorem wtm_msg (h : Hart) (r : MR) (t : TMap) : (wtm h r t).msg = h.msg := rfl
@[simp] theorem wtm_frag (h : Hart) (r : MR) (t : TMap) : (wtm h r t).frag = h.frag := rfl
@[simp] theorem wtm_halted (h : Hart) (r : MR) (t : TMap) : (wtm h r t).halted = h.halted := rfl
@[simp] theorem wtm_stepping (h : Hart) (r : MR) (t : TMap) : (wtm h r t).stepping = h.stepping := rfl
@[simp] theorem wtm_notReady (h : Hart) (r : MR) (t : TMap) : (wtm h r t).notReady = h.notReady := rfl
@[simp] theorem wtm_ending (h : Hart) (r : MR) (t : TMap) : (wtm h r t).ending = h.ending := rfl
@[simp] theorem wtm_capture (h : Hart) (r : MR) (t : TMap) : (wtm h r t).capture = h.capture := rfl
@[simp] theorem wtm_seen (h : Hart) (r : MR) (t : TMap) : (wtm h r t).seen = h.seen := rfl
@[simp] theorem wtm_deps (h : Hart) (r : MR) (t : TMap) : (wtm h r t).deps = h.deps := rfl
@[simp] theorem wtm_ldeps (h : Hart) (r : MR) (t : TMap) : (wtm h r t).ldeps = h.ldeps := rfl
@[simp] theorem wtm_npos (h : Hart) (r : MR) (t : TMap) : (wtm h r t).npos = h.npos := rfl
@[simp] theorem wtm_ahead (h : Hart) (r : MR) (t : TMap) : (wtm h r t).ahead = h.ahead := rfl

/-! ## adv and jumpTo: only the pc and the retired count change -/

@[simp] theorem retire_x (s : State) (k : Nat) (h : Hart) : (retire s k h).x = h.x := by unfold retire; split <;> rfl
@[simp] theorem adv_x (s : State) (k : Nat) (h : Hart) (n : Nat) : (adv s k h n).x = h.x := by simp [adv]
@[simp] theorem jumpTo_x (s : State) (k : Nat) (h : Hart) (t : Word) : (jumpTo s k h t).x = h.x := by simp [jumpTo]
@[simp] theorem retire_m (s : State) (k : Nat) (h : Hart) : (retire s k h).m = h.m := by unfold retire; split <;> rfl
@[simp] theorem adv_m (s : State) (k : Nat) (h : Hart) (n : Nat) : (adv s k h n).m = h.m := by simp [adv]
@[simp] theorem jumpTo_m (s : State) (k : Nat) (h : Hart) (t : Word) : (jumpTo s k h t).m = h.m := by simp [jumpTo]
@[simp] theorem retire_stk (s : State) (k : Nat) (h : Hart) : (retire s k h).stk = h.stk := by unfold retire; split <;> rfl
@[simp] theorem adv_stk (s : State) (k : Nat) (h : Hart) (n : Nat) : (adv s k h n).stk = h.stk := by simp [adv]
@[simp] theorem jumpTo_stk (s : State) (k : Nat) (h : Hart) (t : Word) : (jumpTo s k h t).stk = h.stk := by simp [jumpTo]
@[simp] theorem retire_dep (s : State) (k : Nat) (h : Hart) : (retire s k h).dep = h.dep := by unfold retire; split <;> rfl
@[simp] theorem adv_dep (s : State) (k : Nat) (h : Hart) (n : Nat) : (adv s k h n).dep = h.dep := by simp [adv]
@[simp] theorem jumpTo_dep (s : State) (k : Nat) (h : Hart) (t : Word) : (jumpTo s k h t).dep = h.dep := by simp [jumpTo]
@[simp] theorem retire_v (s : State) (k : Nat) (h : Hart) : (retire s k h).v = h.v := by unfold retire; split <;> rfl
@[simp] theorem adv_v (s : State) (k : Nat) (h : Hart) (n : Nat) : (adv s k h n).v = h.v := by simp [adv]
@[simp] theorem jumpTo_v (s : State) (k : Nat) (h : Hart) (t : Word) : (jumpTo s k h t).v = h.v := by simp [jumpTo]
@[simp] theorem retire_vbad (s : State) (k : Nat) (h : Hart) : (retire s k h).vbad = h.vbad := by unfold retire; split <;> rfl
@[simp] theorem adv_vbad (s : State) (k : Nat) (h : Hart) (n : Nat) : (adv s k h n).vbad = h.vbad := by simp [adv]
@[simp] theorem jumpTo_vbad (s : State) (k : Nat) (h : Hart) (t : Word) : (jumpTo s k h t).vbad = h.vbad := by simp [jumpTo]
@[simp] theorem retire_tm (s : State) (k : Nat) (h : Hart) : (retire s k h).tm = h.tm := by unfold retire; split <;> rfl
@[simp] theorem adv_tm (s : State) (k : Nat) (h : Hart) (n : Nat) : (adv s k h n).tm = h.tm := by simp [adv]
@[simp] theorem jumpTo_tm (s : State) (k : Nat) (h : Hart) (t : Word) : (jumpTo s k h t).tm = h.tm := by simp [jumpTo]
@[simp] theorem retire_mode (s : State) (k : Nat) (h : Hart) : (retire s k h).mode = h.mode := by unfold retire; split <;> rfl
@[simp] theorem adv_mode (s : State) (k : Nat) (h : Hart) (n : Nat) : (adv s k h n).mode = h.mode := by simp [adv]
@[simp] theorem jumpTo_mode (s : State) (k : Nat) (h : Hart) (t : Word) : (jumpTo s k h t).mode = h.mode := by simp [jumpTo]
@[simp] theorem retire_l (s : State) (k : Nat) (h : Hart) : (retire s k h).l = h.l := by unfold retire; split <;> rfl
@[simp] theorem adv_l (s : State) (k : Nat) (h : Hart) (n : Nat) : (adv s k h n).l = h.l := by simp [adv]
@[simp] theorem jumpTo_l (s : State) (k : Nat) (h : Hart) (t : Word) : (jumpTo s k h t).l = h.l := by simp [jumpTo]
@[simp] theorem retire_id (s : State) (k : Nat) (h : Hart) : (retire s k h).id = h.id := by unfold retire; split <;> rfl
@[simp] theorem adv_id (s : State) (k : Nat) (h : Hart) (n : Nat) : (adv s k h n).id = h.id := by simp [adv]
@[simp] theorem jumpTo_id (s : State) (k : Nat) (h : Hart) (t : Word) : (jumpTo s k h t).id = h.id := by simp [jumpTo]
@[simp] theorem retire_snap (s : State) (k : Nat) (h : Hart) : (retire s k h).snap = h.snap := by unfold retire; split <;> rfl
@[simp] theorem adv_snap (s : State) (k : Nat) (h : Hart) (n : Nat) : (adv s k h n).snap = h.snap := by simp [adv]
@[simp] theorem jumpTo_snap (s : State) (k : Nat) (h : Hart) (t : Word) : (jumpTo s k h t).snap = h.snap := by simp [jumpTo]
@[simp] theorem retire_ring (s : State) (k : Nat) (h : Hart) : (retire s k h).ring = h.ring := by unfold retire; split <;> rfl
@[simp] theorem adv_ring (s : State) (k : Nat) (h : Hart) (n : Nat) : (adv s k h n).ring = h.ring := by simp [adv]
@[simp] theorem jumpTo_ring (s : State) (k : Nat) (h : Hart) (t : Word) : (jumpTo s k h t).ring = h.ring := by simp [jumpTo]
@[simp] theorem retire_laneQ (s : State) (k : Nat) (h : Hart) : (retire s k h).laneQ = h.laneQ := by unfold retire; split <;> rfl
@[simp] theorem adv_laneQ (s : State) (k : Nat) (h : Hart) (n : Nat) : (adv s k h n).laneQ = h.laneQ := by simp [adv]
@[simp] theorem jumpTo_laneQ (s : State) (k : Nat) (h : Hart) (t : Word) : (jumpTo s k h t).laneQ = h.laneQ := by simp [jumpTo]
@[simp] theorem retire_tickets (s : State) (k : Nat) (h : Hart) : (retire s k h).tickets = h.tickets := by unfold retire; split <;> rfl
@[simp] theorem adv_tickets (s : State) (k : Nat) (h : Hart) (n : Nat) : (adv s k h n).tickets = h.tickets := by simp [adv]
@[simp] theorem jumpTo_tickets (s : State) (k : Nat) (h : Hart) (t : Word) : (jumpTo s k h t).tickets = h.tickets := by simp [jumpTo]
@[simp] theorem retire_syncw (s : State) (k : Nat) (h : Hart) : (retire s k h).syncw = h.syncw := by unfold retire; split <;> rfl
@[simp] theorem adv_syncw (s : State) (k : Nat) (h : Hart) (n : Nat) : (adv s k h n).syncw = h.syncw := by simp [adv]
@[simp] theorem jumpTo_syncw (s : State) (k : Nat) (h : Hart) (t : Word) : (jumpTo s k h t).syncw = h.syncw := by simp [jumpTo]
@[simp] theorem retire_resv (s : State) (k : Nat) (h : Hart) : (retire s k h).resv = h.resv := by unfold retire; split <;> rfl
@[simp] theorem adv_resv (s : State) (k : Nat) (h : Hart) (n : Nat) : (adv s k h n).resv = h.resv := by simp [adv]
@[simp] theorem jumpTo_resv (s : State) (k : Nat) (h : Hart) (t : Word) : (jumpTo s k h t).resv = h.resv := by simp [jumpTo]
@[simp] theorem retire_wait (s : State) (k : Nat) (h : Hart) : (retire s k h).wait = h.wait := by unfold retire; split <;> rfl
@[simp] theorem adv_wait (s : State) (k : Nat) (h : Hart) (n : Nat) : (adv s k h n).wait = h.wait := by simp [adv]
@[simp] theorem jumpTo_wait (s : State) (k : Nat) (h : Hart) (t : Word) : (jumpTo s k h t).wait = h.wait := by simp [jumpTo]
@[simp] theorem retire_pend (s : State) (k : Nat) (h : Hart) : (retire s k h).pend = h.pend := by unfold retire; split <;> rfl
@[simp] theorem adv_pend (s : State) (k : Nat) (h : Hart) (n : Nat) : (adv s k h n).pend = h.pend := by simp [adv]
@[simp] theorem jumpTo_pend (s : State) (k : Nat) (h : Hart) (t : Word) : (jumpTo s k h t).pend = h.pend := by simp [jumpTo]
@[simp] theorem retire_parts (s : State) (k : Nat) (h : Hart) : (retire s k h).parts = h.parts := by unfold retire; split <;> rfl
@[simp] theorem adv_parts (s : State) (k : Nat) (h : Hart) (n : Nat) : (adv s k h n).parts = h.parts := by simp [adv]
@[simp] theorem jumpTo_parts (s : State) (k : Nat) (h : Hart) (t : Word) : (jumpTo s k h t).parts = h.parts := by simp [jumpTo]
@[simp] theorem retire_xlock (s : State) (k : Nat) (h : Hart) : (retire s k h).xlock = h.xlock := by unfold retire; split <;> rfl
@[simp] theorem adv_xlock (s : State) (k : Nat) (h : Hart) (n : Nat) : (adv s k h n).xlock = h.xlock := by simp [adv]
@[simp] theorem jumpTo_xlock (s : State) (k : Nat) (h : Hart) (t : Word) : (jumpTo s k h t).xlock = h.xlock := by simp [jumpTo]
@[simp] theorem retire_msg (s : State) (k : Nat) (h : Hart) : (retire s k h).msg = h.msg := by unfold retire; split <;> rfl
@[simp] theorem adv_msg (s : State) (k : Nat) (h : Hart) (n : Nat) : (adv s k h n).msg = h.msg := by simp [adv]
@[simp] theorem jumpTo_msg (s : State) (k : Nat) (h : Hart) (t : Word) : (jumpTo s k h t).msg = h.msg := by simp [jumpTo]
@[simp] theorem retire_frag (s : State) (k : Nat) (h : Hart) : (retire s k h).frag = h.frag := by unfold retire; split <;> rfl
@[simp] theorem adv_frag (s : State) (k : Nat) (h : Hart) (n : Nat) : (adv s k h n).frag = h.frag := by simp [adv]
@[simp] theorem jumpTo_frag (s : State) (k : Nat) (h : Hart) (t : Word) : (jumpTo s k h t).frag = h.frag := by simp [jumpTo]
@[simp] theorem retire_halted (s : State) (k : Nat) (h : Hart) : (retire s k h).halted = h.halted := by unfold retire; split <;> rfl
@[simp] theorem adv_halted (s : State) (k : Nat) (h : Hart) (n : Nat) : (adv s k h n).halted = h.halted := by simp [adv]
@[simp] theorem jumpTo_halted (s : State) (k : Nat) (h : Hart) (t : Word) : (jumpTo s k h t).halted = h.halted := by simp [jumpTo]
@[simp] theorem retire_stepping (s : State) (k : Nat) (h : Hart) : (retire s k h).stepping = h.stepping := by unfold retire; split <;> rfl
@[simp] theorem adv_stepping (s : State) (k : Nat) (h : Hart) (n : Nat) : (adv s k h n).stepping = h.stepping := by simp [adv]
@[simp] theorem jumpTo_stepping (s : State) (k : Nat) (h : Hart) (t : Word) : (jumpTo s k h t).stepping = h.stepping := by simp [jumpTo]
@[simp] theorem retire_notReady (s : State) (k : Nat) (h : Hart) : (retire s k h).notReady = h.notReady := by unfold retire; split <;> rfl
@[simp] theorem adv_notReady (s : State) (k : Nat) (h : Hart) (n : Nat) : (adv s k h n).notReady = h.notReady := by simp [adv]
@[simp] theorem jumpTo_notReady (s : State) (k : Nat) (h : Hart) (t : Word) : (jumpTo s k h t).notReady = h.notReady := by simp [jumpTo]
@[simp] theorem retire_ending (s : State) (k : Nat) (h : Hart) : (retire s k h).ending = h.ending := by unfold retire; split <;> rfl
@[simp] theorem adv_ending (s : State) (k : Nat) (h : Hart) (n : Nat) : (adv s k h n).ending = h.ending := by simp [adv]
@[simp] theorem jumpTo_ending (s : State) (k : Nat) (h : Hart) (t : Word) : (jumpTo s k h t).ending = h.ending := by simp [jumpTo]
@[simp] theorem retire_capture (s : State) (k : Nat) (h : Hart) : (retire s k h).capture = h.capture := by unfold retire; split <;> rfl
@[simp] theorem adv_capture (s : State) (k : Nat) (h : Hart) (n : Nat) : (adv s k h n).capture = h.capture := by simp [adv]
@[simp] theorem jumpTo_capture (s : State) (k : Nat) (h : Hart) (t : Word) : (jumpTo s k h t).capture = h.capture := by simp [jumpTo]
@[simp] theorem retire_seen (s : State) (k : Nat) (h : Hart) : (retire s k h).seen = h.seen := by unfold retire; split <;> rfl
@[simp] theorem adv_seen (s : State) (k : Nat) (h : Hart) (n : Nat) : (adv s k h n).seen = h.seen := by simp [adv]
@[simp] theorem jumpTo_seen (s : State) (k : Nat) (h : Hart) (t : Word) : (jumpTo s k h t).seen = h.seen := by simp [jumpTo]
@[simp] theorem retire_deps (s : State) (k : Nat) (h : Hart) : (retire s k h).deps = h.deps := by unfold retire; split <;> rfl
@[simp] theorem adv_deps (s : State) (k : Nat) (h : Hart) (n : Nat) : (adv s k h n).deps = h.deps := by simp [adv]
@[simp] theorem jumpTo_deps (s : State) (k : Nat) (h : Hart) (t : Word) : (jumpTo s k h t).deps = h.deps := by simp [jumpTo]
@[simp] theorem retire_ldeps (s : State) (k : Nat) (h : Hart) : (retire s k h).ldeps = h.ldeps := by unfold retire; split <;> rfl
@[simp] theorem adv_ldeps (s : State) (k : Nat) (h : Hart) (n : Nat) : (adv s k h n).ldeps = h.ldeps := by simp [adv]
@[simp] theorem jumpTo_ldeps (s : State) (k : Nat) (h : Hart) (t : Word) : (jumpTo s k h t).ldeps = h.ldeps := by simp [jumpTo]
@[simp] theorem retire_npos (s : State) (k : Nat) (h : Hart) : (retire s k h).npos = h.npos := by unfold retire; split <;> rfl
@[simp] theorem adv_npos (s : State) (k : Nat) (h : Hart) (n : Nat) : (adv s k h n).npos = h.npos := by simp [adv]
@[simp] theorem jumpTo_npos (s : State) (k : Nat) (h : Hart) (t : Word) : (jumpTo s k h t).npos = h.npos := by simp [jumpTo]
@[simp] theorem retire_ahead (s : State) (k : Nat) (h : Hart) : (retire s k h).ahead = h.ahead := by unfold retire; split <;> rfl
@[simp] theorem adv_ahead (s : State) (k : Nat) (h : Hart) (n : Nat) : (adv s k h n).ahead = h.ahead := by simp [adv]
@[simp] theorem jumpTo_ahead (s : State) (k : Nat) (h : Hart) (t : Word) : (jumpTo s k h t).ahead = h.ahead := by simp [jumpTo]
@[simp] theorem adv_pc (s : State) (k : Nat) (h : Hart) (n : Nat) : (adv s k h n).pc = h.pc + BitVec.ofNat 64 n := rfl
@[simp] theorem jumpTo_pc (s : State) (k : Nat) (h : Hart) (t : Word) : (jumpTo s k h t).pc = t := rfl

/-! ## Reading what was written -/

@[simp] theorem hartAt_setHart_same (s : State) (k : Nat) (h : Hart) : hartAt (setHart s k h) k = some h := by
  simp [hartAt, setHart]

theorem hartAt_setHart_other (s : State) {k j : Nat} (h : Hart) (n : j ≠ k) : hartAt (setHart s k h) j = hartAt s j := by
  simp [hartAt, setHart, tget_tput_other _ _ n]

theorem hartAt_updHart_same (s : State) (k : Nat) (f : Hart → Hart) : hartAt (updHart s k f) k = (hartAt s k).map f := by
  simp [hartAt, updHart, tget_tupd_same]

theorem hartAt_updHart_other (s : State) {k j : Nat} (f : Hart → Hart) (n : j ≠ k) : hartAt (updHart s k f) j = hartAt s j := by
  simp [hartAt, updHart, tget_tupd_other _ _ n]

@[simp] theorem rx_zero (h : Hart) : rx h 0 = 0 := rfl

theorem rx_wx_same (h : Hart) (r : XR) (w : Word) (n : r ≠ 0) : rx (wx h r w) r = w := by
  rw [rx, if_neg n, wx, if_neg n]
  exact Vector.getElem_set_self _

theorem rx_wx_other (h : Hart) {r q : XR} (w : Word) (n : q ≠ r) : rx (wx h r w) q = rx h q := by
  by_cases hr : r = 0
  · simp [wx, hr]
  · by_cases hq : q = 0
    · simp [rx, hq]
    · have : r.toNat ≠ q.toNat := fun e => n (BitVec.eq_of_toNat_eq e.symm)
      rw [rx, if_neg hq, wx, if_neg hr, rx, if_neg hq]
      exact Vector.getElem_set_ne r.isLt q.isLt this

@[simp] theorem wx_zero (h : Hart) (w : Word) : wx h 0 w = h := rfl

@[simp] theorem rm_zero (h : Hart) : rm h 0 = allOnes := rfl

theorem rm_wm_same (h : Hart) (r : MR) (w : Mask) (n : r ≠ 0) : rm (wm h r w) r = w := by
  rw [rm, if_neg n, wm, if_neg n]
  exact Vector.getElem_set_self _

theorem rm_wm_other (h : Hart) {r q : MR} (w : Mask) (n : q ≠ r) : rm (wm h r w) q = rm h q := by
  by_cases hr : r = 0
  · simp [wm, hr]
  · by_cases hq : q = 0
    · simp [rm, hq]
    · have : r.toNat ≠ q.toNat := fun e => n (BitVec.eq_of_toNat_eq e.symm)
      rw [rm, if_neg hq, wm, if_neg hr, rm, if_neg hq]
      exact Vector.getElem_set_ne r.isLt q.isLt this

@[simp] theorem wm_zero (h : Hart) (w : Mask) : wm h 0 w = h := rfl

end Sys2Proof.Machine
end

