-- ==== Sys2Proof/Laws/Ops.lean ====
section
/-! SUPPORT. What each shared operation can do, said once: a hart instruction that executes, a step of another agent, a trap, a
return, and the writes of registers as `WroteX`, `WroteM` and `WroteStack` say them. -/

namespace Sys2Proof.Machine

/-- A hart instruction that executes is its effect on the hart as it finds it. -/
theorem onHart_runs {s : State} {h : Hart} {i : Instr} (r : Runs s h i) (f : Nat → Hart → State) :
    onHart s i f = .next (f s.cur (entered h i)) := by
  obtain ⟨a, b, c⟩ := r
  simp only [onHart, withHart, a, b, entered]
  cases p : closesRegion i && h.snap.isSome
  · simp
  · simp only [p, Bool.true_and, Bool.not_eq_false'] at c
    simp [c]

/-- Every hart instruction answers a next state when a hart stands in the slot: its effect, or the state unchanged while it waits. -/
theorem onHart_next {s t : State} {i : Instr} {f : Nat → Hart → State} (e : onHart s i f = .next t) :
    t = s ∨ ∃ h, Runs s h i ∧ t = f s.cur (entered h i) := by
  unfold onHart withHart at e
  cases a : hartAt s s.cur with
  | none => rw [a] at e; cases e
  | some h =>
    rw [a] at e
    cases b : hazard h i
    · cases p : closesRegion i && h.snap.isSome
      · simp only [b, p] at e
        injection e with e
        exact .inr ⟨h, ⟨a, b, by simp [p]⟩, by simp [entered, p, ← e]⟩
      · cases q : regionChecked h
        · simp only [b, p, q] at e
          injection e with e
          exact .inl e.symm
        · simp only [b, p, q] at e
          injection e with e
          exact .inr ⟨h, ⟨a, b, by simp [q]⟩, by simp [entered, p, ← e]⟩
    · simp only [b] at e
      injection e with e
      exact .inl e.symm

/-- An instruction that closes no region finds the hart as it is. -/
theorem entered_of_not_closes {h : Hart} {i : Instr} (n : closesRegion i = false) : entered h i = h := by simp [entered, n]

/-- Closing a region changes the snapshot and the region marks of the ring alone. -/
@[simp] theorem closeRegion_x (h : Hart) : (closeRegion h).x = h.x := rfl
@[simp] theorem closeRegion_m (h : Hart) : (closeRegion h).m = h.m := rfl
@[simp] theorem closeRegion_pc (h : Hart) : (closeRegion h).pc = h.pc := rfl
@[simp] theorem closeRegion_mode (h : Hart) : (closeRegion h).mode = h.mode := rfl
@[simp] theorem closeRegion_s (h : Hart) : (closeRegion h).s = h.s := rfl
@[simp] theorem closeRegion_l (h : Hart) : (closeRegion h).l = h.l := rfl
@[simp] theorem closeRegion_id (h : Hart) : (closeRegion h).id = h.id := rfl
@[simp] theorem closeRegion_stk (h : Hart) : (closeRegion h).stk = h.stk := rfl
@[simp] theorem closeRegion_dep (h : Hart) : (closeRegion h).dep = h.dep := rfl
@[simp] theorem closeRegion_v (h : Hart) : (closeRegion h).v = h.v := rfl
@[simp] theorem closeRegion_tm (h : Hart) : (closeRegion h).tm = h.tm := rfl
@[simp] theorem closeRegion_msg (h : Hart) : (closeRegion h).msg = h.msg := rfl
@[simp] theorem rx_closeRegion (h : Hart) (r : XR) : rx (closeRegion h) r = rx h r := rfl
@[simp] theorem rm_closeRegion (h : Hart) (r : MR) : rm (closeRegion h) r = rm h r := rfl

@[simp] theorem rx_adv (s : State) (k : Nat) (h : Hart) (n : Nat) (r : XR) : rx (adv s k h n) r = rx h r := by
  unfold adv retire; split <;> rfl
@[simp] theorem rm_adv (s : State) (k : Nat) (h : Hart) (n : Nat) (r : MR) : rm (adv s k h n) r = rm h r := by
  unfold adv retire; split <;> rfl
@[simp] theorem rx_jumpTo (s : State) (k : Nat) (h : Hart) (t : Word) (r : XR) : rx (jumpTo s k h t) r = rx h r := by
  unfold jumpTo retire; split <;> rfl
@[simp] theorem stkAt_adv (s : State) (k : Nat) (h : Hart) (n i : Nat) : stkAt (adv s k h n) i = stkAt h i := by
  unfold adv retire; split <;> rfl
@[simp] theorem stkAt_jumpTo (s : State) (k : Nat) (h : Hart) (t : Word) (i : Nat) : stkAt (jumpTo s k h t) i = stkAt h i := by
  unfold jumpTo retire; split <;> rfl

/-- A write of an x register followed by the pc's move is what `WroteX` says. -/
theorem wroteX_adv (s : State) (h : Hart) (d : XR) (v : Word) (n : Nat) :
    WroteX s h (adv s s.cur (wx h d v) n) d v (h.pc + BitVec.ofNat 64 n) := by
  by_cases z : d = 0
  · subst z
    refine ⟨?_, ?_, ?_, fun r => ?_⟩
    · simp only [sameButX, wx_zero, adv, retire]; split <;> rfl
    · simp only [wx_zero, adv, retire]
    · simp only [wx_zero, adv, retire, nextInstret]; split <;> rfl
    · rw [rx_adv, if_neg fun c => c.2 rfl]; rfl
  · refine ⟨?_, ?_, ?_, fun r => ?_⟩
    · simp only [sameButX, wx, if_neg z, adv, retire]; split <;> rfl
    · simp only [wx, if_neg z, adv, retire]
    · simp only [wx, if_neg z, adv, retire, nextInstret]; split <;> rfl
    · rw [rx_adv]
      by_cases q : r = d
      · subst q; rw [rx_wx_same _ _ _ z, if_pos ⟨rfl, z⟩]
      · rw [rx_wx_other _ _ q, if_neg fun c => q c.1]

/-- A transfer that links. -/
theorem wroteX_jump (s : State) (h : Hart) (d : XR) (v t : Word) : WroteX s h (jumpTo s s.cur (wx h d v) t) d v t := by
  by_cases z : d = 0
  · subst z
    refine ⟨?_, ?_, ?_, fun r => ?_⟩
    · simp only [sameButX, wx_zero, jumpTo, retire]; split <;> rfl
    · simp only [wx_zero, jumpTo, retire]
    · simp only [wx_zero, jumpTo, retire, nextInstret]; split <;> rfl
    · rw [rx_jumpTo, if_neg fun c => c.2 rfl]; rfl
  · refine ⟨?_, ?_, ?_, fun r => ?_⟩
    · simp only [sameButX, wx, if_neg z, jumpTo, retire]; split <;> rfl
    · simp only [wx, if_neg z, jumpTo, retire]
    · simp only [wx, if_neg z, jumpTo, retire, nextInstret]; split <;> rfl
    · rw [rx_jumpTo]
      by_cases q : r = d
      · subst q; rw [rx_wx_same _ _ _ z, if_pos ⟨rfl, z⟩]
      · rw [rx_wx_other _ _ q, if_neg fun c => q c.1]

/-- A write of an m register followed by the pc's move is what `WroteM` says. -/
theorem wroteM_adv (s : State) (h : Hart) (d : MR) (v : Mask) : WroteM s h (adv s s.cur (wm h d v) 4) d v := by
  by_cases z : d = 0
  · subst z
    refine ⟨?_, ?_, ?_, fun r => ?_⟩
    · simp only [sameButM, wm_zero, adv, retire]; split <;> rfl
    · simp only [wm_zero, adv, retire]; rfl
    · simp only [wm_zero, adv, retire, nextInstret]; split <;> rfl
    · rw [rm_adv, if_neg fun c => c.2 rfl]; rfl
  · refine ⟨?_, ?_, ?_, fun r => ?_⟩
    · simp only [sameButM, wm, if_neg z, adv, retire]; split <;> rfl
    · simp only [wm, if_neg z, adv, retire]; rfl
    · simp only [wm, if_neg z, adv, retire, nextInstret]; split <;> rfl
    · rw [rm_adv]
      by_cases q : r = d
      · subst q; rw [rm_wm_same _ _ _ z, if_pos ⟨rfl, z⟩]
      · rw [rm_wm_other _ _ q, if_neg fun c => q c.1]

/-- Reading the mask stack after an entry is written. -/
theorem stkAt_setStk (h : Hart) {j i : Nat} (e : StkEntry) (b : i < 32) (c : j < 32) :
    stkAt (setStk h j e) i = if i = j then e else stkAt h i := by
  by_cases q : i = j
  · subst q; simp [stkAt, setStk, b]
  · have : j ≠ i := fun x => q x.symm
    simp only [stkAt, setStk, b, c, dite_true, if_neg q]
    exact Vector.getElem_set_ne c b this

/-- Entry q of the ring, changed. -/
theorem entryAt_updEntry_same {h : Hart} {q : Nat} {e : Entry} (f : Entry → Entry) (a : entryAt h q = some e) (k : (f e).seq = e.seq) :
    entryAt (updEntry h q f) q = some (f e) := by
  unfold entryAt at a
  split at a
  case h_2 => cases a
  case h_1 e' w =>
    split at a
    case isFalse => cases a
    case isTrue p =>
      injection a with a; subst a
      simp only [entryAt, updEntry, tget_tupd_same, w, Option.map_some]
      rw [if_pos (k.trans p)]

/-- The outcome of a step of another agent is its next state. -/
@[simp] theorem stepOf_eq (s : State) : stepOf s = .next s := rfl

@[simp] theorem trapAt_eq (s : State) (k : Nat) (h : Hart) (c : Nat) (v : Word) : trapAt s k h c v = takeTrap s k h c false v h.pc := rfl

/-- A loss of a reservation leaves every field but `mem`, and every byte. -/
theorem loseResv_eq (s : State) (h : Hart) : loseResv s h = { s with mem := (loseResv s h).mem } := by
  unfold loseResv; split <;> rfl
theorem loseResv_hbm (s : State) (h : Hart) : (loseResv s h).mem.hbm = s.mem.hbm := by unfold loseResv; split <;> rfl
theorem loseResv_host (s : State) (h : Hart) : (loseResv s h).mem.host = s.mem.host := by unfold loseResv; split <;> rfl

/-- A trap to S-mode. -/
theorem takeTrap_toS {s : State} {k : Nat} {h : Hart} {c : Nat} {b : Bool} (v p : Word) (d : goesToS (mcsrOf s k) h c b = true) :
    takeTrap s k h c b v p = setHart (loseResv s h) k (trapToS (trapping h) c b v p) := by
  unfold takeTrap; exact if_pos d

/-- A trap to M-mode. -/
theorem takeTrap_toM {s : State} {k : Nat} {h : Hart} {c : Nat} {b : Bool} (v p : Word) (d : goesToS (mcsrOf s k) h c b = false) :
    takeTrap s k h c b v p = updMcsr (setHart (loseResv s h) k (trapToM (trapping h) (mcsrOf s k) c b)) k fun m =>
      { m with mepc := p, mcause := causeWord c b, mtval := v } := by
  unfold takeTrap; exact if_neg (by simp [d])

/-- A trap writes a hart and machine CSRs, after the loss of the reservation, and nothing else. -/
theorem takeTrap_eq (s : State) (k : Nat) (h : Hart) (c : Nat) (b : Bool) (v p : Word) :
    ∃ g m, takeTrap s k h c b v p = { setHart (loseResv s h) k g with mcsrs := m } := by
  cases d : goesToS (mcsrOf s k) h c b
  · exact ⟨_, _, takeTrap_toM v p d⟩
  · exact ⟨_, (loseResv s h).mcsrs, takeTrap_toS v p d⟩

/-- A trap leaves every byte of every store. -/
theorem takeTrap_sameBytes (s : State) (k : Nat) (h : Hart) (c : Nat) (b : Bool) (v p : Word) : sameBytes s (takeTrap s k h c b v p) := by
  obtain ⟨g, m, e⟩ := takeTrap_eq s k h c b v p
  rw [e]
  refine ⟨fun a => ?_, fun a => ?_, fun a => ?_, fun a => ?_⟩
  · show rd8 (loseResv s h).mem.hbm a = _; rw [loseResv_hbm]
  · show rd8 (loseResv s h).mem.host a = _; rw [loseResv_host]
  · show rd8 (loseResv s h).tstore a = _; rw [loseResv_eq]
  · show rd8 (loseResv s h).tiles a = _; rw [loseResv_eq]

/-- A trap changes no other hart. -/
theorem takeTrap_other (s : State) {k j : Nat} (h : Hart) (c : Nat) (b : Bool) (v p : Word) (n : j ≠ k) :
    hartAt (takeTrap s k h c b v p) j = hartAt s j := by
  obtain ⟨g, m, e⟩ := takeTrap_eq s k h c b v p
  rw [e]
  show hartAt (setHart (loseResv s h) k g) j = _
  rw [hartAt_setHart_other _ _ n, loseResv_eq]
  rfl

end Sys2Proof.Machine
end

