-- ==== Sys2Proof/Tests/Slice0.lean ====
section
/-! SUPPORT. The model's own tests: ill-formed terms that `Instr.wf` refuses, words written out from the encodings of 03_encoding, a
few single steps with results worked out from the spec, and for each statement with hypotheses a state and operands that meet them. -/

namespace Sys2Proof.Tests

set_option Elab.async false

open Sys2Proof.Machine

/-! ## States -/

/-- A state with one hart that can run: the program that `withFetchWord` loads, with the word w at the pc. -/
def one (w : Nat) : State := State.reset.withFetchWord 32 w

/-- The hart in slot 0 of a state, and a state with that hart changed. -/
def hOf (s : State) : Hart := (hartAt s 0).getD (freshHart (hartIdent 0 (loadGrid loadSpec) 0
  { grid := 0, idx := 0, asid := 1, core := 0, slots := [], wins := [], tiles := [], bars := freshBars, recPa := 0, acct := 0, stat := .live,
    hartsLeft := 0, order := 0, handOver := false, yieldEnd := none, told := 0, aways := [] } 0) 0 0 0)
def withH (f : Hart → Hart) (s : State) : State := setHart s 0 (f (hOf s))

/-- The state of the tests: `nop` at the pc, x5 = 12, x6 = -5, m1 the low 16 lanes. -/
def base : State := withH (fun h => wm (wx (wx h 5 12) 6 (-5)) 1 0xFFFF) (one 0x13)
def h0 : Hart := hOf base

/-- The operand fields of a 64-bit instruction: registers, format and ks; no predicate. -/
def eo (vd vs1 vs2 vs3 : BitVec 8) (fmt : BitVec 3) (ks : BitVec 2) : Eops :=
  { ks := ks, rnd := 0, fmt := fmt, pi := 0, pm := 0, vs3 := vs3, vs2 := vs2, vs1 := vs1, vd := vd }

def inMode (md : Mode) (s : State) : State := withH (fun h => { h with mode := md }) s
def status (w : Word) (s : State) : State := withH (fun h => { h with s := { h.s with mstatus := w } }) s
def stackOf (dep : Nat) (e : StkEntry) (s : State) : State := withH (fun h => { h with dep := dep, stk := h.stk.set! (dep - 1) e }) s
/-- A translation of a page of context 1 in die 0's caches. -/
def mapped (va : Word) (pte : Nat) (s : State) : State := setSlice s 0 (sliceOf va) ⟨[⟨1, vpnOf va, 0, pte⟩], []⟩
def withTeam (f : Team → Team) (s : State) : State := { s with work := { s.work with teams := s.work.teams.map fun p => (p.1, f p.2) } }
/-- Window 0 of core 0 open to context 1 and mapped at 0x9000; a host page mapped at 0xA000 with ATS granted, the port open. -/
def winState0 : State := mapped 0x9000 0x2DF (withTeam (fun t => { t with wins := [0] }) base)
def hostState0 : State :=
  let s := setReg (mapped 0xA000 0x4DF base) (hpBase 0) (2 ^ 16 + 2 ^ 18 + 2 ^ 19)
  updXl s fun x => { x with atc := [(0, [⟨1, 0, 0x123, true, true, false, none⟩])] }
/-- The ring entry that an instruction of h0 makes, its sequence number 0, in a ring of its own. -/
def ent (i : Instr) : Entry :=
  let p := (engine? i).getD ((engine? (.vnot (eo 4 5 0 0 2 0))).get (by decide))
  newEntry h0 i p.1 p.2 0 0 allOnes
def ring (e : Entry) (s : State) : State := withH (fun h => { h with ring := tput h.ring (e.seq % 64) e, laneQ := [e.seq], l := { h.l with nseq := 1 } }) s
/-- A store of the hart not yet performed. -/
def withStore (s : State) : State := pushStore s 0 (hOf s) 0x5000 true [1, 2, 3, 4]
def at5 (v : Word) (s : State) : State := withH (fun h => wx h 5 v) s
/-- What a hart's access of va gives in s, and the state after translating. -/
def tr (s : State) (va : Word) (a : Acc) : XRes × State := xlateHart s 0 (hOf s) va a
/-! ## Decoding: words written out from R64 to R68, R74 and the standard base -/

/-- Each word decodes to its instruction, which is well formed and encodes to the word. -/
def decodesTo (nbits : Nat) (l : List (Nat × Instr)) : Bool :=
  l.all fun p => decodeTableWord nbits p.1 == some p.2 && p.2.wf && encode p.2 == some (bytesOfNat (nbits / 8) p.1)

/-- Mask logic and the mask stack (R64, R65). -/
theorem test_decode_masks : decodesTo 32 (
    [(0x0020818B, .mand 3 1 2),
     (0x0220818B, .mor 3 1 2),
     (0x0420818B, .mxor 3 1 2),
     (0x0620818B, .mandn 3 1 2),
     (0x0800818B, .mnot 3 1),
     (0x10038A8B, .mrd 21 7),
     (0x120B018B, .mwr 3 22),
     (0x14038A8B, .mcnt 21 7),
     (0x16038A8B, .mffs 21 7),
     (0x18000A8B, .mtop 21),
     (0xFFC2900B, .mif 5 0xFFC),
     (0x0030200B, .melse 3)] ++
    [(0x8000B00B, .mwhile 1 0x800),
     (0x0000400B, .mend),
     (0x0203400B, .mbrk 6),
     (0x01E1500B, .mspush 2 30),
     (0x0200520B, .mspop 4),
     (0x0404548B, .msrdm 9 8),
     (0x0604548B, .msrdp 9 8),
     (0x0894500B, .mswrm 8 9),
     (0x0A94500B, .mswrp 8 9)]) = true := by decide +kernel

/-- Waits, barriers, tensor maps, basting and the ring (R65, R66). -/
theorem test_decode_waits : decodesTo 32 (
    [(0x0000002B, .hwmsg),
     (0x020F802B, .hwtime 31),
     (0x00F3902B, .barSync 7 15),
     (0x0293902B, .barArrive 7 9),
     (0x0490102B, .barWait 9),
     (0x00F0202B, .hdrain 15),
     (0x000332AB, .glaunch 5 6),
     (0x020332AB, .gwait 5 6),
     (0x0400302B, .hexit),
     (0x0600302B, .hret),
     (0x0800302B, .hyield),
     (0x0102815B, .tmld 2 5 16)] ++
    [(0xF802915B, .tmst 2 5 0xF80),
     (0x00A1A4DB, .tmaddr 9 3 10),
     (0x0000305B, .bst),
     (0x0200305B, .bend),
     (0x003544DB, .frrd 9 10 3),
     (0x0200405B, .frrep),
     (0x0405405B, .frdrop 10)]) = true := by decide +kernel

/-- RV64I. -/
theorem test_decode_base : decodesTo 32 (
    [(0xFF818203, .scalarLoad .lb 4 3 0xFF8),
     (0xFF819203, .scalarLoad .lh 4 3 0xFF8),
     (0xFF81A203, .scalarLoad .lw 4 3 0xFF8),
     (0xFF81B203, .scalarLoad .ld 4 3 0xFF8),
     (0xFF81C203, .scalarLoad .lbu 4 3 0xFF8),
     (0xFF81D203, .scalarLoad .lhu 4 3 0xFF8),
     (0xFF81E203, .scalarLoad .lwu 4 3 0xFF8),
     (0xFE418C23, .scalarStore .sb 3 4 0xFF8),
     (0xFE419C23, .scalarStore .sh 3 4 0xFF8),
     (0xFE41AC23, .scalarStore .sw 3 4 0xFF8),
     (0xFE41BC23, .scalarStore .sd 3 4 0xFF8),
     (0x123453B7, .integerOp (.lui 7 0x12345))] ++
    [(0x12345397, .integerOp (.auipc 7 0x12345)),
     (0xFFDFF0EF, .integerOp (.jal 1 0xFFFFE)),
     (0x3441206F, .integerOp (.jal 0 0x091A2)),
     (0x004100E7, .integerOp (.jalr 1 2 4)),
     (0x02628AE3, .integerOp (.branch .beq 5 6 0x41A)),
     (0x02629AE3, .integerOp (.branch .bne 5 6 0x41A)),
     (0x0262CAE3, .integerOp (.branch .blt 5 6 0x41A)),
     (0x0262DAE3, .integerOp (.branch .bge 5 6 0x41A)),
     (0x0262EAE3, .integerOp (.branch .bltu 5 6 0x41A)),
     (0x0262FAE3, .integerOp (.branch .bgeu 5 6 0x41A)),
     (0xFFF10093, .integerOp (.aluImm .addi 1 2 0xFFF)),
     (0xFFF12093, .integerOp (.aluImm .slti 1 2 0xFFF))] ++
    [(0xFFF13093, .integerOp (.aluImm .sltiu 1 2 0xFFF)),
     (0xFFF14093, .integerOp (.aluImm .xori 1 2 0xFFF)),
     (0xFFF16093, .integerOp (.aluImm .ori 1 2 0xFFF)),
     (0xFFF17093, .integerOp (.aluImm .andi 1 2 0xFFF)),
     (0x03F11093, .integerOp (.shiftImm .sll 1 2 63)),
     (0x03F15093, .integerOp (.shiftImm .srl 1 2 63)),
     (0x43F15093, .integerOp (.shiftImm .sra 1 2 63)),
     (0xFFF1009B, .integerOp (.addiw 1 2 0xFFF)),
     (0x01F1109B, .integerOp (.shiftImmW .sll 1 2 31)),
     (0x01F1509B, .integerOp (.shiftImmW .srl 1 2 31)),
     (0x41F1509B, .integerOp (.shiftImmW .sra 1 2 31)),
     (0x003100B3, .integerOp (.alu .add 1 2 3))] ++
    [(0x403100B3, .integerOp (.alu .sub 1 2 3)),
     (0x003110B3, .integerOp (.alu .sll 1 2 3)),
     (0x003120B3, .integerOp (.alu .slt 1 2 3)),
     (0x003130B3, .integerOp (.alu .sltu 1 2 3)),
     (0x003140B3, .integerOp (.alu .xor 1 2 3)),
     (0x003150B3, .integerOp (.alu .srl 1 2 3)),
     (0x403150B3, .integerOp (.alu .sra 1 2 3)),
     (0x003160B3, .integerOp (.alu .or 1 2 3)),
     (0x003170B3, .integerOp (.alu .and 1 2 3)),
     (0x003100BB, .integerOp (.aluW .addw 1 2 3)),
     (0x403100BB, .integerOp (.aluW .subw 1 2 3)),
     (0x003110BB, .integerOp (.aluW .sllw 1 2 3))] ++
    [(0x003150BB, .integerOp (.aluW .srlw 1 2 3)),
     (0x403150BB, .integerOp (.aluW .sraw 1 2 3))]) = true := by decide +kernel

/-- M, A, FENCE and PAUSE. -/
theorem test_decode_base2 : decodesTo 32 (
    [(0x023100B3, .mul .mul 1 2 3),
     (0x023110B3, .mul .mulh 1 2 3),
     (0x023120B3, .mul .mulhsu 1 2 3),
     (0x023130B3, .mul .mulhu 1 2 3),
     (0x023100BB, .mul .mulw 1 2 3),
     (0x023140B3, .div .div 1 2 3),
     (0x023140BB, .div .divw 1 2 3),
     (0x023150B3, .div .divu 1 2 3),
     (0x023150BB, .div .divuw 1 2 3),
     (0x023160B3, .div .rem 1 2 3),
     (0x023160BB, .div .remw 1 2 3),
     (0x023170B3, .div .remu 1 2 3)] ++
    [(0x023170BB, .div .remuw 1 2 3),
     (0x0FF0000F, .fence 0 15 15 0 0),
     (0x8330000F, .fence 8 3 3 0 0),
     (0x0100000F, .pause),
     (0x0000100F, .fenceI 0 0 0),
     (0x140322AF, .lr false true false 5 6),
     (0x100332AF, .lr true false false 5 6),
     (0x1A7332AF, .sc true false true 5 6 7),
     (0x0E7332AF, .amo .swap true true true 5 6 7),
     (0x067332AF, .amo .add true true true 5 6 7),
     (0x267332AF, .amo .xor true true true 5 6 7),
     (0x667332AF, .amo .and true true true 5 6 7)] ++
    [(0x467332AF, .amo .or true true true 5 6 7),
     (0x867332AF, .amo .min true true true 5 6 7),
     (0xA67332AF, .amo .max true true true 5 6 7),
     (0xC67332AF, .amo .minu true true true 5 6 7),
     (0xE67332AF, .amo .maxu true true true 5 6 7),
     (0x007322AF, .amo .add false false false 5 6 7)]) = true := by decide +kernel

/-- SYSTEM and Zicsr. -/
theorem test_decode_system : decodesTo 32 (
    [(0x00000073, .ecall),
     (0x00100073, .ebreak),
     (0x10500073, .wfi),
     (0x00D00073, .wrsNto),
     (0x01D00073, .wrsSto),
     (0x30200073, .mret),
     (0x10200073, .sret),
     (0x12418073, .sfenceVma 3 4),
     (0x340493F3, .csrAccess .rw false 0x340 7 9),
     (0x3404A3F3, .csrAccess .rs false 0x340 7 9),
     (0x3404B3F3, .csrAccess .rc false 0x340 7 9),
     (0x3404D3F3, .csrAccess .rw true 0x340 7 9)] ++
    [(0x3404E3F3, .csrAccess .rs true 0x340 7 9),
     (0x3404F3F3, .csrAccess .rc true 0x340 7 9),
     (0x180023F3, .csrAccess .rs false 0x180 7 0),
     (0x180493F3, .satpWrite .rw false 7 9),
     (0x7C0493F3, .steerWrite .rw false 7 9),
     (0x7C04E3F3, .steerWrite .rs true 7 9)]) = true := by decide +kernel

/-- Groups LM and LX. -/
theorem test_decode_lm : decodesTo 64 (
    [(0x021030005040003F, .vld { ks := 0, rnd := 0, fmt := 2, pi := 0, pm := 1, vs3 := 3, vs2 := 0, vs1 := 5, vd := 4 }),
     (0x02B800005040103F, .vst { ks := 0, rnd := 0, fmt := 2, pi := 1, pm := 3, vs3 := 128, vs2 := 0, vs1 := 5, vd := 4 }),
     (0x421000605040203F, .vlds { ks := 1, rnd := 0, fmt := 2, pi := 0, pm := 1, vs3 := 0, vs2 := 6, vs1 := 5, vd := 4 }),
     (0x801F80005040303F, .vsts { ks := 2, rnd := 0, fmt := 0, pi := 0, pm := 1, vs3 := 248, vs2 := 0, vs1 := 5, vd := 4 }),
     (0x051000805040403F, .vldg { ks := 0, rnd := 0, fmt := 5, pi := 0, pm := 1, vs3 := 0, vs2 := 8, vs1 := 5, vd := 4 }),
     (0x031000805040503F, .vstg { ks := 0, rnd := 0, fmt := 3, pi := 0, pm := 1, vs3 := 0, vs2 := 8, vs1 := 5, vd := 4 }),
     (0x0117F0805040603F, .vldt { ks := 0, rnd := 0, fmt := 1, pi := 0, pm := 1, vs3 := 127, vs2 := 8, vs1 := 5, vd := 4 }),
     (0x021800805040703F, .vstt { ks := 0, rnd := 0, fmt := 2, pi := 0, pm := 1, vs3 := 128, vs2 := 8, vs1 := 5, vd := 4 }),
     (0x061060005200803F, .vldf { ks := 0, rnd := 0, fmt := 6, pi := 0, pm := 1, vs3 := 6, vs2 := 0, vs1 := 5, vd := 32 }),
     (0x051060005400903F, .vstf { ks := 0, rnd := 0, fmt := 5, pi := 0, pm := 1, vs3 := 6, vs2 := 0, vs1 := 5, vd := 64 }),
     (0x02103000504000BF, .vcst { ks := 0, rnd := 0, fmt := 2, pi := 0, pm := 1, vs3 := 3, vs2 := 0, vs1 := 5, vd := 4 }),
     (0x04103000504010BF, .vxld { ks := 0, rnd := 0, fmt := 4, pi := 0, pm := 1, vs3 := 3, vs2 := 0, vs1 := 5, vd := 4 })] ++
    [(0xBB108060504080BF, .vamo { ks := 2, rnd := 7, fmt := 3, pi := 0, pm := 1, vs3 := 8, vs2 := 6, vs1 := 5, vd := 4 }),
     (0xBB108060504090BF, .vamoAq { ks := 2, rnd := 7, fmt := 3, pi := 0, pm := 1, vs3 := 8, vs2 := 6, vs1 := 5, vd := 4 }),
     (0xBB1080605040A0BF, .vamoRl { ks := 2, rnd := 7, fmt := 3, pi := 0, pm := 1, vs3 := 8, vs2 := 6, vs1 := 5, vd := 4 }),
     (0xBB1080605040B0BF, .vamoAqrl { ks := 2, rnd := 7, fmt := 3, pi := 0, pm := 1, vs3 := 8, vs2 := 6, vs1 := 5, vd := 4 }),
     (0x10100060500100BF, .vpf { ks := 0, rnd := 2, fmt := 0, pi := 0, pm := 1, vs3 := 0, vs2 := 6, vs1 := 5, vd := 0 }),
     (0xC0000000000180BF, .vfence { ks := 3, rnd := 0, fmt := 0, pi := 0, pm := 0, vs3 := 0, vs2 := 0, vs1 := 0, vd := 0 })]) = true := by decide +kernel

/-- Group LI. -/
theorem test_decode_li : decodesTo 64 (
    [(0x031000806040013F, .vaddI { ks := 0, rnd := 0, fmt := 3, pi := 0, pm := 1, vs3 := 0, vs2 := 8, vs1 := 6, vd := 4 }),
     (0x031000806040113F, .vsubI { ks := 0, rnd := 0, fmt := 3, pi := 0, pm := 1, vs3 := 0, vs2 := 8, vs1 := 6, vd := 4 }),
     (0x031000806040213F, .vmulI { ks := 0, rnd := 0, fmt := 3, pi := 0, pm := 1, vs3 := 0, vs2 := 8, vs1 := 6, vd := 4 }),
     (0x031000806040313F, .vmulh { ks := 0, rnd := 0, fmt := 3, pi := 0, pm := 1, vs3 := 0, vs2 := 8, vs1 := 6, vd := 4 }),
     (0x031000806040413F, .vdivI { ks := 0, rnd := 0, fmt := 3, pi := 0, pm := 1, vs3 := 0, vs2 := 8, vs1 := 6, vd := 4 }),
     (0x031000806040513F, .vrem { ks := 0, rnd := 0, fmt := 3, pi := 0, pm := 1, vs3 := 0, vs2 := 8, vs1 := 6, vd := 4 }),
     (0x031000806040613F, .vminI { ks := 0, rnd := 0, fmt := 3, pi := 0, pm := 1, vs3 := 0, vs2 := 8, vs1 := 6, vd := 4 }),
     (0x031000806040713F, .vmaxI { ks := 0, rnd := 0, fmt := 3, pi := 0, pm := 1, vs3 := 0, vs2 := 8, vs1 := 6, vd := 4 }),
     (0x031000806040813F, .vadds { ks := 0, rnd := 0, fmt := 3, pi := 0, pm := 1, vs3 := 0, vs2 := 8, vs1 := 6, vd := 4 }),
     (0x031000806040913F, .vsubs { ks := 0, rnd := 0, fmt := 3, pi := 0, pm := 1, vs3 := 0, vs2 := 8, vs1 := 6, vd := 4 }),
     (0x841800005040013F, .vaddI { ks := 2, rnd := 0, fmt := 4, pi := 0, pm := 1, vs3 := 128, vs2 := 0, vs1 := 5, vd := 4 }),
     (0x011000005040A13F, .vabsI { ks := 0, rnd := 0, fmt := 1, pi := 0, pm := 1, vs3 := 0, vs2 := 0, vs1 := 5, vd := 4 })] ++
    [(0x001000005040B13F, .vnegI { ks := 0, rnd := 0, fmt := 0, pi := 0, pm := 1, vs3 := 0, vs2 := 0, vs1 := 5, vd := 4 }),
     (0x461071F05040C13F, .vmad { ks := 1, rnd := 0, fmt := 6, pi := 0, pm := 1, vs3 := 7, vs2 := 31, vs1 := 5, vd := 4 }),
     (0x021000605041013F, .vand { ks := 0, rnd := 0, fmt := 2, pi := 0, pm := 1, vs3 := 0, vs2 := 6, vs1 := 5, vd := 4 }),
     (0x021000605041113F, .vor { ks := 0, rnd := 0, fmt := 2, pi := 0, pm := 1, vs3 := 0, vs2 := 6, vs1 := 5, vd := 4 }),
     (0x021000605041213F, .vxor { ks := 0, rnd := 0, fmt := 2, pi := 0, pm := 1, vs3 := 0, vs2 := 6, vs1 := 5, vd := 4 }),
     (0x021000605041413F, .vsll { ks := 0, rnd := 0, fmt := 2, pi := 0, pm := 1, vs3 := 0, vs2 := 6, vs1 := 5, vd := 4 }),
     (0x021000605041513F, .vsrl { ks := 0, rnd := 0, fmt := 2, pi := 0, pm := 1, vs3 := 0, vs2 := 6, vs1 := 5, vd := 4 }),
     (0x021000605041613F, .vsra { ks := 0, rnd := 0, fmt := 2, pi := 0, pm := 1, vs3 := 0, vs2 := 6, vs1 := 5, vd := 4 }),
     (0x021000005041313F, .vnot { ks := 0, rnd := 0, fmt := 2, pi := 0, pm := 1, vs3 := 0, vs2 := 0, vs1 := 5, vd := 4 }),
     (0x871FF0000041813F, .vmov { ks := 2, rnd := 0, fmt := 7, pi := 0, pm := 1, vs3 := 255, vs2 := 0, vs1 := 0, vd := 4 }),
     (0x871654321041913F, .vli { ks := 2, rnd := 0, fmt := 7, pi := 0, pm := 1, vs3 := 101, vs2 := 67, vs1 := 33, vd := 4 })]) = true := by decide +kernel

/-- Group LC. -/
theorem test_decode_lc : decodesTo 64 (
    [(0x2A100060503001BF, .vcmp { ks := 0, rnd := 5, fmt := 2, pi := 0, pm := 1, vs3 := 0, vs2 := 6, vs1 := 5, vd := 3 }),
     (0x38100060503011BF, .vfcmp { ks := 0, rnd := 7, fmt := 0, pi := 0, pm := 1, vs3 := 0, vs2 := 6, vs1 := 5, vd := 3 }),
     (0x02102060504081BF, .vsel { ks := 0, rnd := 0, fmt := 2, pi := 0, pm := 1, vs3 := 2, vs2 := 6, vs1 := 5, vd := 4 }),
     (0x07100000604101BF, .vpopc { ks := 0, rnd := 0, fmt := 7, pi := 0, pm := 1, vs3 := 0, vs2 := 0, vs1 := 6, vd := 4 }),
     (0x07100000604111BF, .vclz { ks := 0, rnd := 0, fmt := 7, pi := 0, pm := 1, vs3 := 0, vs2 := 0, vs1 := 6, vd := 4 }),
     (0x07100000604121BF, .vctz { ks := 0, rnd := 0, fmt := 7, pi := 0, pm := 1, vs3 := 0, vs2 := 0, vs1 := 6, vd := 4 }),
     (0x07100000604131BF, .vbrev { ks := 0, rnd := 0, fmt := 7, pi := 0, pm := 1, vs3 := 0, vs2 := 0, vs1 := 6, vd := 4 })]) = true := by decide +kernel

/-- Groups LF and LS. -/
theorem test_decode_lf : decodesTo 64 (
    [(0x391000806040023F, .vaddF { ks := 0, rnd := 7, fmt := 1, pi := 0, pm := 1, vs3 := 0, vs2 := 8, vs1 := 6, vd := 4 }),
     (0x391000806040123F, .vsubF { ks := 0, rnd := 7, fmt := 1, pi := 0, pm := 1, vs3 := 0, vs2 := 8, vs1 := 6, vd := 4 }),
     (0x391000806040223F, .vmulF { ks := 0, rnd := 7, fmt := 1, pi := 0, pm := 1, vs3 := 0, vs2 := 8, vs1 := 6, vd := 4 }),
     (0x391000806040323F, .vdivF { ks := 0, rnd := 7, fmt := 1, pi := 0, pm := 1, vs3 := 0, vs2 := 8, vs1 := 6, vd := 4 }),
     (0x201000005040423F, .vsqrt { ks := 0, rnd := 4, fmt := 0, pi := 0, pm := 1, vs3 := 0, vs2 := 0, vs1 := 5, vd := 4 }),
     (0x021000605040523F, .vminF { ks := 0, rnd := 0, fmt := 2, pi := 0, pm := 1, vs3 := 0, vs2 := 6, vs1 := 5, vd := 4 }),
     (0x031000605040623F, .vmaxF { ks := 0, rnd := 0, fmt := 3, pi := 0, pm := 1, vs3 := 0, vs2 := 6, vs1 := 5, vd := 4 }),
     (0x021000005040723F, .vabsF { ks := 0, rnd := 0, fmt := 2, pi := 0, pm := 1, vs3 := 0, vs2 := 0, vs1 := 5, vd := 4 }),
     (0x021000005040823F, .vnegF { ks := 0, rnd := 0, fmt := 2, pi := 0, pm := 1, vs3 := 0, vs2 := 0, vs1 := 5, vd := 4 }),
     (0x081070605040923F, .vfma { ks := 0, rnd := 1, fmt := 0, pi := 0, pm := 1, vs3 := 7, vs2 := 6, vs1 := 5, vd := 4 }),
     (0x101070605040A23F, .vfms { ks := 0, rnd := 2, fmt := 0, pi := 0, pm := 1, vs3 := 7, vs2 := 6, vs1 := 5, vd := 4 }),
     (0x181070605040B23F, .vfnma { ks := 0, rnd := 3, fmt := 0, pi := 0, pm := 1, vs3 := 7, vs2 := 6, vs1 := 5, vd := 4 })] ++
    [(0x031000005040C23F, .vclass { ks := 0, rnd := 0, fmt := 3, pi := 0, pm := 1, vs3 := 0, vs2 := 0, vs1 := 5, vd := 4 }),
     (0x38B000B0A0C0023F, .vaddF { ks := 0, rnd := 7, fmt := 0, pi := 1, pm := 3, vs3 := 0, vs2 := 11, vs1 := 10, vd := 12 }),
     (0x02100000504002BF, .vrcp { ks := 0, rnd := 0, fmt := 2, pi := 0, pm := 1, vs3 := 0, vs2 := 0, vs1 := 5, vd := 4 }),
     (0x02100000504012BF, .vrsqrt { ks := 0, rnd := 0, fmt := 2, pi := 0, pm := 1, vs3 := 0, vs2 := 0, vs1 := 5, vd := 4 }),
     (0x02100000504022BF, .vexp2 { ks := 0, rnd := 0, fmt := 2, pi := 0, pm := 1, vs3 := 0, vs2 := 0, vs1 := 5, vd := 4 }),
     (0x02100000504032BF, .vlog2 { ks := 0, rnd := 0, fmt := 2, pi := 0, pm := 1, vs3 := 0, vs2 := 0, vs1 := 5, vd := 4 }),
     (0x02100000504042BF, .vsin { ks := 0, rnd := 0, fmt := 2, pi := 0, pm := 1, vs3 := 0, vs2 := 0, vs1 := 5, vd := 4 }),
     (0x02100000504052BF, .vcos { ks := 0, rnd := 0, fmt := 2, pi := 0, pm := 1, vs3 := 0, vs2 := 0, vs1 := 5, vd := 4 }),
     (0x02100000504062BF, .vtanh { ks := 0, rnd := 0, fmt := 2, pi := 0, pm := 1, vs3 := 0, vs2 := 0, vs1 := 5, vd := 4 })]) = true := by decide +kernel

/-- Groups LV and LD. -/
theorem test_decode_lv : decodesTo 64 (
    [(0x381000006040133F, .vcvtFF 1 { ks := 0, rnd := 7, fmt := 0, pi := 0, pm := 1, vs3 := 0, vs2 := 0, vs1 := 6, vd := 4 }),
     (0x001000006040633F, .vcvtFF 6 { ks := 0, rnd := 0, fmt := 0, pi := 0, pm := 1, vs3 := 0, vs2 := 0, vs1 := 6, vd := 4 }),
     (0x0F1000005040833F, .vcvtFI 0 { ks := 0, rnd := 1, fmt := 7, pi := 0, pm := 1, vs3 := 0, vs2 := 0, vs1 := 5, vd := 4 }),
     (0x021000005040E33F, .vcvtFI 6 { ks := 0, rnd := 0, fmt := 2, pi := 0, pm := 1, vs3 := 0, vs2 := 0, vs1 := 5, vd := 4 }),
     (0x061000005041033F, .vcvtIF 0 { ks := 0, rnd := 0, fmt := 6, pi := 0, pm := 1, vs3 := 0, vs2 := 0, vs1 := 5, vd := 4 }),
     (0x201000006041733F, .vcvtIF 7 { ks := 0, rnd := 4, fmt := 0, pi := 0, pm := 1, vs3 := 0, vs2 := 0, vs1 := 6, vd := 4 }),
     (0x061000008042033F, .vpk { ks := 0, rnd := 0, fmt := 6, pi := 0, pm := 1, vs3 := 0, vs2 := 0, vs1 := 8, vd := 4 }),
     (0x041000004082133F, .vupk { ks := 0, rnd := 0, fmt := 4, pi := 0, pm := 1, vs3 := 0, vs2 := 0, vs1 := 4, vd := 8 }),
     (0x05107060504003BF, .vdot { ks := 0, rnd := 0, fmt := 5, pi := 0, pm := 1, vs3 := 7, vs2 := 6, vs1 := 5, vd := 4 }),
     (0x7E1071F0504013BF, .vfdot { ks := 1, rnd := 7, fmt := 6, pi := 0, pm := 1, vs3 := 7, vs2 := 31, vs1 := 5, vd := 4 })]) = true := by decide +kernel

/-- Groups LP and LB. -/
theorem test_decode_lp : decodesTo 64 (
    [(0x031000000040043F, .vlid { ks := 0, rnd := 0, fmt := 3, pi := 0, pm := 1, vs3 := 0, vs2 := 0, vs1 := 0, vd := 4 }),
     (0x021000000040643F, .vballot { ks := 0, rnd := 0, fmt := 2, pi := 0, pm := 1, vs3 := 0, vs2 := 0, vs1 := 0, vd := 4 }),
     (0x8213F0005040143F, .vshfl { ks := 2, rnd := 0, fmt := 2, pi := 0, pm := 1, vs3 := 63, vs2 := 0, vs1 := 5, vd := 4 }),
     (0x8213F0005040243F, .vshup { ks := 2, rnd := 0, fmt := 2, pi := 0, pm := 1, vs3 := 63, vs2 := 0, vs1 := 5, vd := 4 }),
     (0x8213F0005040343F, .vshdn { ks := 2, rnd := 0, fmt := 2, pi := 0, pm := 1, vs3 := 63, vs2 := 0, vs1 := 5, vd := 4 }),
     (0x8213F0005040443F, .vxorl { ks := 2, rnd := 0, fmt := 2, pi := 0, pm := 1, vs3 := 63, vs2 := 0, vs1 := 5, vd := 4 }),
     (0x821090005040543F, .vbcast { ks := 2, rnd := 0, fmt := 2, pi := 0, pm := 1, vs3 := 9, vs2 := 0, vs1 := 5, vd := 4 }),
     (0xA81030005040743F, .vscan { ks := 2, rnd := 5, fmt := 0, pi := 0, pm := 1, vs3 := 3, vs2 := 0, vs1 := 5, vd := 4 }),
     (0xA81030005040843F, .vscanx { ks := 2, rnd := 5, fmt := 0, pi := 0, pm := 1, vs3 := 3, vs2 := 0, vs1 := 5, vd := 4 }),
     (0xA81030005040943F, .vgred { ks := 2, rnd := 5, fmt := 0, pi := 0, pm := 1, vs3 := 3, vs2 := 0, vs1 := 5, vd := 4 }),
     (0x830090006070A43F, .vmvx { ks := 2, rnd := 0, fmt := 3, pi := 0, pm := 0, vs3 := 9, vs2 := 0, vs1 := 6, vd := 7 }),
     (0x781001F05040B43F, .vfscan { ks := 1, rnd := 7, fmt := 0, pi := 0, pm := 1, vs3 := 0, vs2 := 31, vs1 := 5, vd := 4 })] ++
    [(0x831060005040C43F, .vfgred { ks := 2, rnd := 0, fmt := 3, pi := 0, pm := 1, vs3 := 6, vs2 := 0, vs1 := 5, vd := 4 }),
     (0x01006000507004BF, .vredOpen { ks := 0, rnd := 0, fmt := 1, pi := 0, pm := 0, vs3 := 6, vs2 := 0, vs1 := 5, vd := 7 }),
     (0x03100060500014BF, .vredAdd { ks := 0, rnd := 0, fmt := 3, pi := 0, pm := 1, vs3 := 0, vs2 := 6, vs1 := 5, vd := 0 }),
     (0x02000000507024BF, .vredFlush { ks := 0, rnd := 0, fmt := 2, pi := 0, pm := 0, vs3 := 0, vs2 := 0, vs1 := 5, vd := 7 })]) = true := by decide +kernel

/-- Group MX. -/
theorem test_decode_mx : decodesTo 64 (
    [(0x000604020030053F, .mma { ks := 0, rnd := 0, fmt := 0, pi := 0, pm := 0, vs3 := 96, vs2 := 64, vs1 := 32, vd := 3 }),
     (0x000604020030153F, .mmasp { ks := 0, rnd := 0, fmt := 0, pi := 0, pm := 0, vs3 := 96, vs2 := 64, vs1 := 32, vd := 3 }),
     (0x000604020030253F, .mmabk { ks := 0, rnd := 0, fmt := 0, pi := 0, pm := 0, vs3 := 96, vs2 := 64, vs1 := 32, vd := 3 }),
     (0x0600040200F0053F, .mma { ks := 0, rnd := 0, fmt := 6, pi := 0, pm := 0, vs3 := 0, vs2 := 64, vs1 := 32, vd := 15 }),
     (0x000000000030353F, .tzero { ks := 0, rnd := 0, fmt := 0, pi := 0, pm := 0, vs3 := 0, vs2 := 0, vs1 := 0, vd := 3 }),
     (0x000000003080453F, .tmovv { ks := 0, rnd := 0, fmt := 0, pi := 0, pm := 0, vs3 := 0, vs2 := 0, vs1 := 3, vd := 8 }),
     (0x000000008030553F, .tmovt { ks := 0, rnd := 0, fmt := 0, pi := 0, pm := 0, vs3 := 0, vs2 := 0, vs1 := 8, vd := 3 }),
     (0x000000005030653F, .tst { ks := 0, rnd := 0, fmt := 0, pi := 0, pm := 0, vs3 := 0, vs2 := 0, vs1 := 5, vd := 3 }),
     (0x000000005030753F, .tld { ks := 0, rnd := 0, fmt := 0, pi := 0, pm := 0, vs3 := 0, vs2 := 0, vs1 := 5, vd := 3 }),
     (0x000060005030853F, .tdrain { ks := 0, rnd := 0, fmt := 0, pi := 0, pm := 0, vs3 := 6, vs2 := 0, vs1 := 5, vd := 3 }),
     (0x000000003070953F, .twait { ks := 0, rnd := 0, fmt := 0, pi := 0, pm := 0, vs3 := 0, vs2 := 0, vs1 := 3, vd := 7 })]) = true := by decide +kernel

/-- Groups CP and MS. -/
theorem test_decode_cp : decodesTo 64 (
    [(0x00007000504005BF, .cpgs { ks := 0, rnd := 0, fmt := 0, pi := 0, pm := 0, vs3 := 7, vs2 := 0, vs1 := 5, vd := 4 }),
     (0x00007000504015BF, .cpsg { ks := 0, rnd := 0, fmt := 0, pi := 0, pm := 0, vs3 := 7, vs2 := 0, vs1 := 5, vd := 4 }),
     (0x00006000504025BF, .cpgg { ks := 0, rnd := 0, fmt := 0, pi := 0, pm := 0, vs3 := 6, vs2 := 0, vs1 := 5, vd := 4 }),
     (0x00007000504035BF, .cpmc { ks := 0, rnd := 0, fmt := 0, pi := 0, pm := 0, vs3 := 7, vs2 := 0, vs1 := 5, vd := 4 }),
     (0x03006000504045BF, .cpfill { ks := 0, rnd := 0, fmt := 3, pi := 0, pm := 0, vs3 := 6, vs2 := 0, vs1 := 5, vd := 4 }),
     (0x07006000504055BF, .cpadd { ks := 0, rnd := 0, fmt := 7, pi := 0, pm := 0, vs3 := 6, vs2 := 0, vs1 := 5, vd := 4 }),
     (0x08006000504055BF, .cpadd { ks := 0, rnd := 1, fmt := 0, pi := 0, pm := 0, vs3 := 6, vs2 := 0, vs1 := 5, vd := 4 }),
     (0x0001E0005040063F, .msend { ks := 0, rnd := 0, fmt := 0, pi := 0, pm := 0, vs3 := 30, vs2 := 0, vs1 := 5, vd := 4 }),
     (0x0001C0005040163F, .msendb { ks := 0, rnd := 0, fmt := 0, pi := 0, pm := 0, vs3 := 28, vs2 := 0, vs1 := 5, vd := 4 }),
     (0x0001E0000000263F, .msendr { ks := 0, rnd := 0, fmt := 0, pi := 0, pm := 0, vs3 := 30, vs2 := 0, vs1 := 0, vd := 0 }),
     (0x000000005040363F, .mrecv { ks := 0, rnd := 0, fmt := 0, pi := 0, pm := 0, vs3 := 0, vs2 := 0, vs1 := 5, vd := 4 }),
     (0x000070000040463F, .mackrd { ks := 0, rnd := 0, fmt := 0, pi := 0, pm := 0, vs3 := 7, vs2 := 0, vs1 := 0, vd := 4 })]) = true := by decide +kernel

/-- Group AT. -/
theorem test_decode_at : decodesTo 64 (
    [(0xFB008060504006BF, .xamo { ks := 3, rnd := 7, fmt := 3, pi := 0, pm := 0, vs3 := 8, vs2 := 6, vs1 := 5, vd := 4 }),
     (0xFB008060504016BF, .xamoAq { ks := 3, rnd := 7, fmt := 3, pi := 0, pm := 0, vs3 := 8, vs2 := 6, vs1 := 5, vd := 4 }),
     (0xFB008060504026BF, .xamoRl { ks := 3, rnd := 7, fmt := 3, pi := 0, pm := 0, vs3 := 8, vs2 := 6, vs1 := 5, vd := 4 }),
     (0xFB008060504036BF, .xamoAqrl { ks := 3, rnd := 7, fmt := 3, pi := 0, pm := 0, vs3 := 8, vs2 := 6, vs1 := 5, vd := 4 }),
     (0x40000000000086BF, .xfence { ks := 1, rnd := 0, fmt := 0, pi := 0, pm := 0, vs3 := 0, vs2 := 0, vs1 := 0, vd := 0 }),
     (0x80000000000096BF, .xfenceSc { ks := 2, rnd := 0, fmt := 0, pi := 0, pm := 0, vs3 := 0, vs2 := 0, vs1 := 0, vd := 0 })]) = true := by decide +kernel

/-! ## Well-formedness: an ill-formed term for each check -/

/-- The CSR rows: a write of `steer` or `satp` has its own row, which stands for writes only (Zicsr, R107, R143). -/
theorem test_wf_csr_rows :
    (Instr.csrAccess .rw false 0x7C0 0 1).wf = false ∧ (Instr.csrAccess .rs false 0x180 0 1).wf = false ∧
    (Instr.csrAccess .rs false 0x180 0 0).wf = true ∧ (Instr.steerWrite .rs false 1 0).wf = false ∧
    (Instr.satpWrite .rc true 1 0).wf = false ∧ (Instr.fence 0 1 0 0 0).wf = false := by decide

/-- Operand fields (R69, R71): a field that must be 0, an x, m, tm or tile number out of range, an x operand or an immediate in a
form that has none, a bound of its row. -/
theorem test_wf_fields :
    (Instr.vnot (eo 4 5 1 0 2 0)).wf = false ∧ (Instr.vld (eo 4 32 0 0 2 0)).wf = false ∧ (Instr.vcmp (eo 8 5 6 0 2 0)).wf = false ∧
    (Instr.cpgs (eo 4 5 0 8 0 0)).wf = false ∧ (Instr.tzero (eo 16 0 0 0 0 0)).wf = false ∧ (Instr.vaddI (eo 4 5 32 0 2 1)).wf = false ∧
    (Instr.vaddI (eo 4 5 1 0 2 2)).wf = false ∧ (Instr.vaddI (eo 4 5 6 1 2 0)).wf = false ∧ (Instr.mackrd (eo 4 0 0 8 0 0)).wf = false := by
  decide

/-- Codes (R71 to R74, R94): fmt, rnd as a mode, as an operation and as 0, ks, and the predicate field. -/
theorem test_wf_codes :
    (Instr.vst (eo 4 5 0 0 4 0)).wf = false ∧ (Instr.vaddF { eo 4 5 6 0 0 0 with rnd := 5 }).wf = false ∧
    (Instr.vcmp { eo 3 5 6 0 2 0 with rnd := 6 }).wf = false ∧ (Instr.vaddI { eo 4 5 6 0 2 0 with rnd := 1 }).wf = false ∧
    (Instr.vmad (eo 4 5 0 7 2 2)).wf = false ∧ (Instr.vaddI (eo 4 5 6 0 2 3)).wf = false ∧
    (Instr.vaddI { eo 4 5 6 0 2 0 with pi := 1 }).wf = false ∧ (Instr.vfence { eo 0 0 0 0 0 0 with pm := 1 }).wf = false := by decide

/-- Register runs (R70, R171, R195, R240): an odd pair as destination and as source, a misplaced block, a block or group of v0. -/
theorem test_wf_runs :
    (Instr.vaddI (eo 5 6 8 0 3 0)).wf = false ∧ (Instr.vaddI (eo 4 6 7 0 3 0)).wf = false ∧ (Instr.vldf (eo 33 5 0 6 0 0)).wf = false ∧
    (Instr.mma (eo 3 0 64 0 6 0)).wf = false ∧ (Instr.vupk (eo 0 4 0 0 4 0)).wf = false ∧ (Instr.tmovv (eo 6 3 0 0 0 0)).wf = false := by
  decide

/-- Limits of one row (R194, R214, R240, R264, R292). -/
theorem test_wf_rows :
    (Instr.vcvtFF 0 (eo 4 5 0 0 0 0)).wf = false ∧ (Instr.vcvtFF 7 (eo 4 5 0 0 0 0)).wf = false ∧ (Instr.vcvtFI 7 (eo 4 5 0 0 2 0)).wf = false ∧
    (Instr.mma (eo 3 32 64 96 6 0)).wf = false ∧ (Instr.cpadd (eo 4 5 0 6 0 0)).wf = false ∧
    (Instr.cpadd { eo 4 5 0 6 6 0 with rnd := 1 }).wf = false ∧ (Instr.msend (eo 4 5 0 31 0 0)).wf = false ∧
    (Instr.msendb (eo 4 5 0 29 0 0)).wf = false ∧ (Instr.msendr (eo 0 0 0 31 0 0)).wf = false ∧ (Instr.mrecv (eo 5 5 0 0 0 0)).wf = false ∧
    (Instr.xamo { eo 4 5 6 8 3 0 with rnd := 1 }).wf = false := by decide

/-- Words that R64 to R66, R74 and the base call illegal: an m field of 8, a barrier 16, ring word 4, a drain set above 15, a field that
is not used, custom-3, an unlisted funct7 and funct3, an unlisted opcode and group of the 64-bit class. -/
theorem test_decode_refuses :
    [0x0000040B, 0x0500102B, 0x0040405B, 0x0100202B, 0x0810000B, 0x0000007B, 0x1E00000B, 0x0000200F].all
      (fun w => decodeTableWord 32 w == none) = true ∧
    decodeTableWord 64 (0x3F + 0x0E * 0x80) = none ∧ decodeTableWord 64 (0x3F + 2 * 0x80 + 0x0D * 0x1000) = none := by decide +kernel

/-- The five lengths of R60 at their boundaries. -/
theorem test_lengths : [0x0000, 0x0003, 0x001B, 0x001F, 0x003F, 0x007F].map (fun p => lengthOf (BitVec.ofNat 16 p)) = [2, 4, 4, 6, 8, 10] := by
  decide

/-- R107, R109: a word placed at the pc runs as the next instruction, from reset as well as in a state that runs. -/
theorem test_fetch_word : ∃ t, step (State.reset.withFetchWord 32 0x00500293) = .next t ∧ rx (hOf t) 5 = 5 ∧ (hOf t).pc = 0x4004 :=
  ⟨_, rfl, by decide +kernel⟩

/-! ## Single steps with results worked out from the spec -/

/-- The state after an instruction, and a word decoded as a 64-bit instruction. -/
def ran (i : Instr) (s : State) : Option State := match exec i s with
  | .next t => some t
  | _ => none
def at' (pc : Word) (s : State) : State := withH (fun h => { h with pc := pc }) s

/-- The encodings that the text states in full (03, 05 to 10). -/
theorem test_stated_words :
    decodeTableWord 32 0x0031100B = some (.mif 2 3) ∧ decodeTableWord 32 0x0030200B = some (.melse 3) ∧
    decodeTableWord 32 0x0000400B = some .mend ∧
    decodeTableWord 64 0x022010005080003F = some (.vld { eo 8 5 0 1 2 0 with pm := 2 }) ∧
    decodeTableWord 64 0x02300000614000BF = some (.vcst { eo 20 6 0 0 2 0 with pm := 3 }) ∧
    decodeTableWord 64 0x000060504070923F = some (.vfma (eo 7 4 5 6 0 0)) ∧
    decodeTableWord 64 0x122345678031913F = some (.vli ⟨0, 2, 2, 0, 2, 0x34, 0x56, 0x78, 3⟩) ∧
    decodeTableWord 64 0x040000002030033F = some (.vcvtFF 0 (eo 3 2 0 0 4 0)) ∧
    decodeTableWord 64 0x38B000B0A0C0023F = some (.vaddF { eo 12 10 11 0 0 0 with rnd := 7, pi := 1, pm := 3 }) ∧
    decodeTableWord 64 0x00003000D0C005BF = some (.cpgs (eo 12 13 0 3 0 0)) ∧
    decodeTableWord 64 0x000604020000053F = some (.mma (eo 0 32 64 96 0 0)) ∧
    decodeTableWord 64 0x000070006050063F = some (.msend (eo 5 6 0 7 0 0)) ∧
    decodeTableWord 64 0xCB000070605006BF = some (.xamo { eo 5 6 7 0 3 3 with rnd := 1 }) ∧
    decodeTableWord 64 0x80000000000096BF = some (.xfenceSc (eo 0 0 0 0 0 2)) := by decide +kernel

/-- R39, R309: the homes, the stack offset and the slices of the worked examples. -/
theorem test_homes_and_slices :
    homeOf 0x123456000 = 1 ∧ homeOf 0x123456800 = 0 ∧ stackOffset 0x123456000 = 0x2468A800 ∧
    sliceOf 0x200000021000 = 18 ∧ sliceOf 0x200000050000 = 21 := by decide +kernel

/-- R118: the rows of the example after `mif`, `melse` and `mend`: depth, top mask, rpc and pc. -/
theorem test_mif_example :
    ((ran (.mif 1 3) (at' 0x4008 base)).map fun t => ((hOf t).dep, topStk (hOf t), (hOf t).pc)) = some (2, ⟨0xFFFF, 0x4014⟩, 0x400C) ∧
    ((ran (.mif 2 3) (at' 0x4008 base)).map fun t => ((hOf t).dep, topStk (hOf t), (hOf t).pc)) = some (2, ⟨0, 0x4014⟩, 0x4014) := by
  decide +kernel

theorem test_melse_mend_example :
    let s := withH (fun h => { h with dep := 2, stk := h.stk.set 1 ⟨0xFFFF, 0x4014⟩ }) (at' 0x4014 base)
    ((ran (.melse 3) s).map fun t => ((hOf t).dep, topStk (hOf t), (hOf t).pc)) = some (2, ⟨0xFFFFFFFFFFFF0000, 0x4020⟩, 0x4018) ∧
    ((ran .mend s).map fun t => ((hOf t).dep, topStk (hOf t), (hOf t).pc)) = some (1, ⟨allOnes, 0⟩, 0x4018) := by
  decide +kernel

/-- R194: the four lanes of the `vcvt.e4m3.f32.rne` example, with their flags. -/
theorem test_vcvt_example :
    ([0x43FA0000, 0x3A83126F, 0xC0533333, 0x7FC00000].map fun b => cvtF f32 e4m3 0 false b) =
      [(0x7E, flOF ||| flNX), (0x01, flUF ||| flNX), (0xC5, flNX), (0x7F, 0)] := by decide +kernel

/-- R99 to R101: the .e4m3 example. Block 0 scaled by 2^8 gives 2^24; the tree keeps it and the result is 0x4B800000. -/
theorem test_e4m3_tree_example :
    let z := List.replicate 31 ((0 : Nat), (0 : Nat))
    blockSum e4m3 ((0x78, 0x78) :: z) 135 127 = 0x4B800000 ∧ blockSum e4m3 ((0x38, 0x38) :: z) 127 127 = 0x3F800000 ∧
    (ftree f32 0 false 4 ([0x4B800000, 0x3F800000, 0x3F800000] ++ List.replicate 13 0)).1 = 0x4B800000 ∧
    mxResult 0 0 0x4B800000 = (0x4B800000, 0) := by decide +kernel

/-- The .e2m1 example of 08_matrix_engine: g[2], g[31], the tree and the accumulator. -/
theorem test_e2m1_element_example :
    let z := List.replicate 31 ((0 : Nat), (0 : Nat))
    let g2 := 0x4BC00000
    let g31 := 0xBFC00000
    blockSum e2m1 ((7, 6) :: z) 147 127 = g2 ∧ blockSum e2m1 ((9, 5) :: z) 127 127 = g31 ∧
    (mxResult 2 0x3F800000 (ftree f32 0 false 5 ([0, 0, g2] ++ List.replicate 28 0 ++ [g31])).1).1 = 0x4BC00000 := by decide +kernel

/-- R207: the reduction example in both arrival orders. -/
theorem test_reduction_example :
    let c (core v : Nat) : Contrib := { core := core, quad := 0, slot := 0, order := 0, line := 0, parts := v :: List.replicate 31 0x80000000, fin := true }
    let z (l : List Contrib) : RedSlot := { st := .applying, pa := 0x123456000, asid := 0x17, fmt := 0, declared := 3, finals := 3, contribs := l }
    slotSum (z [c 101 0x3F800000, c 50 0x3F800000, c 0 0x4B800000]) = 0x4B800000 ∧
    slotSum (z [c 0 0x4B800000, c 101 0x3F800000, c 50 0x3F800000]) = 0x4B800000 ∧
    floatAdd 0 0x4B800000 (floatAdd 0 0x3F800000 0x3F800000) = 0x4B800001 := by decide +kernel

/-- R442, R444: PF_BOOT after the example: attempt 1 fails at step 4, attempt 2 succeeds with LOCK set. -/
theorem test_boot_example :
    let s := { setReg State.reset pfBoot 0x41 with plat := { State.reset.plat with attempt := 2, failed := [4] } }
    reg (bootFailed State.reset [4] 4) pfBoot = 0x41 ∧ bootWord s 4 = 2 + 4 * 2 ^ 4 + 2 ^ 12 ∧ takesAlt s 4 = true := by decide +kernel

/-- R109, R110: with the delegation of boot, `ecall` in U-mode enters S-mode with cause 8, its own address and SPP 0; in S-mode it enters
M-mode with cause 9 and MPP 1. -/
theorem test_ecall_trap :
    let t := (ran .ecall base).getD base
    let u := (ran .ecall (withH (fun h => { h with mode := .s }) base)).getD base
    (hOf t).mode = .s ∧ (hOf t).s.scause = 8 ∧ (hOf t).s.sepc = 0x4000 ∧ wbit (hOf t).s.mstatus msSPP = false ∧
    (hOf u).mode = .m ∧ (mcsrOf u 0).mcause = 9 ∧ (mcsrOf u 0).mepc = 0x4000 ∧ ((hOf u).s.mstatus >>> msMPP) &&& 3 = 1 := by decide +kernel

/-- R107: x0 discards a write, and an operand is read before a destination that is the same register is written. -/
theorem test_x0_and_same_register :
    ((ran (.integerOp (.aluImm .addi 0 5 7)) base).map fun t => (rx (hOf t) 0, (hOf t).pc)) = some (0, 0x4004) ∧
    ((ran (.integerOp (.alu .sub 5 6 5)) base).map fun t => rx (hOf t) 5) = some (BitVec.ofInt 64 (-17)) := by decide +kernel

/-- R107: division corners of the standard base: by 0, and the most negative number by -1. -/
theorem test_division_corners :
    ((ran (.div .div 7 6 0) base).map fun t => rx (hOf t) 7) = some allOnes ∧
    ((ran (.div .rem 7 6 0) base).map fun t => rx (hOf t) 7) = some (BitVec.ofInt 64 (-5)) ∧
    ((ran (.div .div 7 8 9) (withH (fun h => wx (wx h 8 (1 <<< 63)) 9 allOnes) base)).map fun t => rx (hOf t) 7) = some (1 <<< 63) := by
  decide +kernel

/-- R103, R116: mask logic reads m0 as all ones, and `mwr m0` changes nothing. -/
theorem test_mask_zero_register :
    ((ran (.mandn 2 0 1) base).map fun t => rm (hOf t) 2) = some 0xFFFFFFFFFFFF0000 ∧
    ((ran (.mcnt 7 1) base).map fun t => rx (hOf t) 7) = some 16 ∧
    ((ran (.mffs 7 2) base).map fun t => rx (hOf t) 7) = some 64 := by decide +kernel

/-- R36, R39: a line fills from its home and reads back; the canonical memory lists no blank byte. -/
theorem test_bytes :
    rdN (wrN [] 0x1000 4 0x11223344) 0x1000 4 = 0x11223344 ∧ rd8 (wrN [] 0x1000 4 0x11223344) 0x1000 = 0x44 ∧
    wrN (wrN [] 0x1000 4 0x11223344) 0x1000 4 0 = [] := by decide +kernel

/-! ## Witnesses: for each statement with hypotheses, states and operands that meet them -/

/-- The hart of slot 0 executes i in the state s. -/
abbrev ex (s : State) (i : Instr) : Prop := Runs s (hOf s) i
def exAll (s : State) (is : List Instr) : Bool := is.all fun i => decide (Runs s (hOf s) i)

theorem witness_DecodeOfEncodeIsTheInstruction :
    (Instr.mand 3 1 2).wf = true ∧ encode (.mand 3 1 2) = some [0x8B, 0x81, 0x20, 0x00] ∧
    (Instr.vaddI (eo 4 5 6 0 2 0)).wf = true ∧ encode (.vaddI (eo 4 5 6 0 2 0)) = some [0x3F, 0x01, 0x40, 0x50, 0x60, 0x00, 0x00, 0x02] := by
  decide +kernel

theorem witness_EncodeOfDecodeIsTheWord :
    decode [0x8B, 0x81, 0x20, 0x00] = .ok (.mand 3 1 2) 4 ∧
    decode [0x3F, 0x01, 0x40, 0x50, 0x60, 0x00, 0x00, 0x02, 0xFF] = .ok (.vaddI (eo 4 5 6 0 2 0)) 8 := by decide +kernel

/-- A pair by its first part. -/
theorem ex_pair {A B : Type} {p : A × B} {a : A} (h : p.1 = a) : ∃ b, p = (a, b) := ⟨p.2, by rw [← h]⟩

/-- At the hart that the agenda names and at `cur`; with a load performed ahead. -/
theorem witness_StepRunsTheDecodedInstruction :
    let bs : List Byte := [0x13, 0, 0, 0]
    turnDue base base 0 ∧ turnDue { base with agenda := [.hart 0] } base 0 ∧ hartAt base 0 = some h0 ∧ h0.halted = false ∧
    stopped base h0 = false ∧ boundaryEvent base 0 h0 = none ∧ h0.wait = none ∧ ready base 0 h0 = true ∧ scalarPick base 0 h0 = true ∧
    (let a := withH (fun h => { h with ahead := [⟨5, 12, 12, [0], []⟩] }) base
     (hOf a).ahead ≠ [] ∧ h0.ahead = [] ∧ ready a 0 (hOf a) = true ∧ scalarPick a 0 (hOf a) = true ∧ boundaryEvent a 0 (hOf a) = none) ∧
    (∃ s', fetchFor base 0 h0 = (.ok bs, s')) ∧ decode bs = .ok (.integerOp (.aluImm .addi 0 0 0)) 4 :=
  ⟨.inl ⟨by decide +kernel, by decide +kernel, rfl⟩, .inr ⟨[], rfl, by decide +kernel⟩, by decide +kernel, by decide +kernel,
   by decide +kernel, by decide +kernel, by decide +kernel, by decide +kernel, by decide +kernel, by decide +kernel, ex_pair (by decide +kernel),
   by decide +kernel⟩

theorem witness_StepTakesTheHeadOfTheAgenda :
    isHartInstr (.patrolScrub 0 0) = false ∧ isHartInstr .ecall = true ∧ hartAt State.reset State.reset.cur = none ∧ State.reset.agenda = [] := by
  decide +kernel

/-- A fetch that faults, an illegal word, M-mode above HBM, and M-mode at an address that is not canonical. -/
theorem witness_LengthsAndIllegalEncodings :
    let s := at' 0x4002 base
    let w := one 0x7B
    let m := withH (fun h => { h with mode := .m, pc := 0x6000000000 }) base
    let x := withH (fun h => { h with mode := .m, pc := 0x800000000000 }) base
    turnDue w w 0 ∧ turnDue s s 0 ∧ turnDue m m 0 ∧ turnDue x x 0 ∧
    ([s, w, m, x].all fun s => decide (hartAt s 0 = some (hOf s) ∧ (hOf s).halted = false ∧ stopped s (hOf s) = false ∧
      boundaryEvent s 0 (hOf s) = none ∧ (hOf s).wait = none ∧ ready s 0 (hOf s) = true ∧ scalarPick s 0 (hOf s) = true)) = true ∧
    (∃ s', fetchFor (at' 0x6000000000 base) 0 (hOf (at' 0x6000000000 base)) = (.fault 12 0x6000000000, s')) ∧
    (∃ bs s' e, fetchFor w 0 (hOf w) = (.ok bs, s') ∧ decode bs = .illegal e 0x7B) ∧ (hOf m).pc &&& 3 = 0 ∧ canonical (hOf m).pc = true ∧ hbmEnd ≤ (hOf m).pc.toNat ∧
    (hOf x).pc &&& 3 = 0 ∧ canonical (hOf x).pc = false :=
  ⟨.inl ⟨by decide +kernel, by decide +kernel, rfl⟩, .inl ⟨by decide +kernel, by decide +kernel, rfl⟩,
   .inl ⟨by decide +kernel, by decide +kernel, rfl⟩, .inl ⟨by decide +kernel, by decide +kernel, rfl⟩, by decide +kernel, ex_pair (by decide +kernel),
   ⟨[0x7B, 0, 0, 0], _, .unassigned, Prod.ext (by decide +kernel) rfl, by decide +kernel⟩, by decide +kernel, by decide +kernel, by decide +kernel, by decide +kernel,
   by decide +kernel⟩

theorem witness_StoresReadBackAndStayCanonical :
    (0x11223344 : Nat) < 2 ^ (8 * 4) ∧ (3 < 4 ∧ 4 + 4 ≤ 8) ∧ memoriesWf base :=
  ⟨by decide, by decide, by decide +kernel, by decide +kernel, by decide +kernel, by decide +kernel⟩

theorem witness_TimePassesAndEvictionsWriteNoByte :
    base.clock.steer = 0 ∧ base.clock.nsRem < 9 ∧
    (∃ t, step { base with agenda := [.elapse 9] } = .next t) ∧ (∃ t, step { base with agenda := [.evictRdc 0 0x80] } = .next t) ∧
    (∃ t, step { base with agenda := [.dropL1 0 0x80] } = .next t) ∧ (∃ t, step { base with agenda := [.dropIcache 0 0x80] } = .next t) ∧
    (∃ t, step { base with agenda := [.dropTlb 0 0 0] } = .next t) :=
  ⟨by decide +kernel, by decide +kernel, ⟨_, rfl⟩, ⟨_, rfl⟩, ⟨_, rfl⟩, ⟨_, rfl⟩, ⟨_, rfl⟩⟩

/-- Delegated exception and interrupt causes at the ends of their ranges; an undelegated one; M-mode. -/
theorem witness_TrapsSaveAndEnterTheirMode :
    h0.mode ≠ .m ∧ ([0, 8, 12, 31].all fun c => wbit (mcsrOf base 0).medeleg c) = true ∧
    ([1, 16, 21].all fun c => wbit (mcsrOf base 0).mideleg c) = true ∧ wbit (mcsrOf base 0).medeleg 9 = false ∧
    wbit (mcsrOf base 0).medeleg 62 = false ∧ wbit (mcsrOf base 0).mideleg 11 = false ∧ (hOf (inMode .m base)).mode = .m := by decide +kernel

theorem witness_TrapReturnsEcallAndEbreak :
    let m := inMode .m
    (ex (m base) .mret ∧ (hOf (m base)).mode = .m ∧ ((hOf (m (status 0 base))).s.mstatus >>> msMPP) &&& 3 = 0 ∧
      ((hOf (m (status 0x800 base))).s.mstatus >>> msMPP) &&& 3 = 1 ∧ ((hOf (m (status 0x1800 base))).s.mstatus >>> msMPP) &&& 3 = 3) ∧
    (ex (m base) .sret ∧ ex (inMode .s (status 0 base)) .sret ∧ wbit (hOf (inMode .s (status 0 base))).s.mstatus msTSR = false) ∧
    (ex base .ecall ∧ h0.mode = .u ∧ ex (inMode .s base) .ecall ∧ ex (m base) .ecall) ∧
    (ex base .ebreak ∧ breakHalt base h0.id.asid = false) ∧
    (ex (setReg base pfDbg 0x30001) .ebreak ∧ breakHalt (setReg base pfDbg 0x30001) h0.id.asid = true) ∧ (hartAt base base.cur).isSome := by decide +kernel

/-- Each privileged row below its mode; the misplaced ones in a handler and a second hart of a team. -/
theorem witness_PrivilegedAndMisplacedInstructionsTrap :
    let tvm := inMode .s (status (1 <<< msTVM) base)
    let tsr := inMode .s (status (1 <<< msTSR) base)
    let handler := withH (fun h => { h with id := { h.id with handler := true } }) base
    let second := withH (fun h => { h with id := { h.id with hidx := 1 } }) base
    exAll base [.mret, .sret, .wfi, .frrep, .frdrop 5, .sfenceVma 0 0, .steerWrite .rw false 1 0, .satpWrite .rw false 1 0,
      .csrAccess .rw false 0x300 1 0, .hret] = true ∧ h0.mode = .u ∧
    csrAllowed base 0 (entered h0 (.csrAccess .rw false 0x300 1 0)) 0x300 (csrWrites .rw 0) = false ∧
    exAll (inMode .s base) [.mret, .steerWrite .rs true 1 3, .hexit, .hret, .glaunch 4 5] = true ∧
    exAll tvm [.sfenceVma 0 0, .satpWrite .rc false 1 0] = true ∧ wbit (hOf tvm).s.mstatus msTVM = true ∧
    exAll tsr [.sret] = true ∧ wbit (hOf tsr).s.mstatus msTSR = true ∧ h0.id.handler = false ∧ (hOf handler).id.handler = true ∧
    exAll handler [.hexit, .glaunch 4 5, .hwmsg, .gwait 4 5, .barSync 5 0, .barArrive 5 15, .barWait 0] = true ∧
    exAll second [.glaunch 4 5] = true ∧ (hOf second).id.hidx ≠ 0 := by decide +kernel

/-- A delegated interrupt in U-mode; an undelegated one in M-mode with MIE; a delegated one in S-mode with SIE. -/
theorem witness_DelegatedInterruptsWaitForTheirMode :
    let pend (n : Nat) (f : Hart → Hart) : Hart := f { h0 with s := { h0.s with mie := 1 <<< n, mip := 1 <<< n } }
    nextInterrupt base 0 (pend 1 id) = some 1 ∧ nextInterrupt base 0 (pend 3 fun h => { h with mode := .m, s := { h.s with mstatus := 1 <<< msMIE } }) = some 3 ∧
    nextInterrupt base 0 (pend 1 fun h => { h with mode := .s, s := { h.s with mstatus := 1 <<< msSIE } }) = some 1 := by decide +kernel

theorem witness_CsrInstructionsComplete :
    let i : Instr := .csrAccess .rw false 0x801 7 5
    let r : Instr := .csrAccess .rs false 0x800 7 0
    let m := inMode .m base
    let s := inMode .s base
    (ex base i ∧ csrAllowed base 0 (entered h0 i) 0x801 (csrWrites .rw 5) = true ∧ csrRead base 0 (entered h0 i) 0x801 = some 0 ∧
      flagPending (entered h0 i) = false) ∧
    (ex base r ∧ csrAllowed base 0 (entered h0 r) 0x800 (csrWrites .rs 0) = true ∧ csrRead base 0 (entered h0 r) 0x800 = some 0) ∧
    (ex m (.steerWrite .rw false 7 5) ∧ (hOf m).mode = .m ∧ m.harts.any (fun p => coreOfSlot p.1 == coreOfSlot m.cur &&
      p.2.ring.any fun q => q.2.st == .inflight && isCompute q.2.instr && q.2.stage == .issued) = false) ∧
    (ex s (.satpWrite .rw true 7 3) ∧ csrAllowed s 0 (entered (hOf s) (.satpWrite .rw true 7 3)) 0x180 true = true ∧
      untranslated (hOf s) = false) ∧
    ((3 : Word) >>> 60 = 0 ∧ (0xF000000000000010 : Word) >>> 60 = 15 ∧ ¬ ((0x8000000000000000 : Word) >>> 60 = 0 ∨
      (0x8000000000000000 : Word) >>> 60 = 15)) := by decide +kernel

theorem witness_CsrWritesKeepWhatTheirRulesAllow : wbit 1 0 = true ∧ (hartAt (csrWrite base 0 h0 0x803 1) 0).isSome = true := by decide +kernel

/-- Every row executes; an m register that is 0, and one whose lowest set bit is bit 0 or bit 63. -/
theorem witness_MaskLogicCompletes :
    exAll base [.mand 0 1 2, .mor 1 1 2, .mxor 7 1 2, .mandn 2 1 2, .mnot 2 1, .mwr 2 5, .mrd 7 1, .mcnt 0 1, .mtop 7, .mffs 7 2] = true ∧
    rm h0 2 = 0 ∧ mbit (rm h0 1) 0 = true ∧ mbit (rm (wm h0 1 (1 <<< 63)) 1) 63 = true ∧
    (∀ j, j < 63 → mbit (rm (wm h0 1 (1 <<< 63)) 1) j = false) := by decide +kernel

/-- The depths 1, 2, 31 and 32; `mbrk` that leaves lanes and one that leaves none at an aligned address. -/
theorem witness_MaskStackCompletes :
    let two := stackOf 2 ⟨0xFFFF, 0x4014⟩ base
    let full := stackOf 32 ⟨0xFFFF, 0x4014⟩ base
    (h0.dep < 32 ∧ exAll base [.mif 1 3, .mspush 1 5] = true) ∧ ((hOf (stackOf 31 ⟨1, 0⟩ base)).dep < 32) ∧
    (1 < (hOf two).dep ∧ (hOf two).dep ≤ 32 ∧ exAll two [.melse 3, .mwhile 1 3, .mend, .mbrk 1, .mspop 1] = true) ∧
    (1 < (hOf full).dep ∧ (hOf full).dep ≤ 32 ∧ exAll full [.melse 3, .mwhile 1 3, .mend, .mbrk 1, .mspop 1] = true) ∧
    ((stkAt (hOf two) 1).mask &&& ~~~ rm (hOf two) 2 ≠ 0 ∧ ((stkAt (hOf two) 1).rpc.signExtend 64 : Word) &&& 3 = 0) := by decide +kernel

theorem witness_MaskStackIndexedAccessAndBounds :
    let full := stackOf 32 ⟨0xFFFF, 0x4014⟩ base
    let at_ (i : Word) : Hart := wx h0 5 i
    (h0.dep ≤ 32 ∧ (rx (at_ 0) 5).toNat < (at_ 0).dep ∧ (at_ 1).dep ≤ (rx (at_ 1) 5).toNat ∧
      exAll base [.msrdm 7 5, .msrdp 7 5, .mswrm 5 6, .mswrp 5 6] = true) ∧
    ((hOf full).dep = 32 ∧ exAll full [.mif 1 3, .mspush 1 5] = true) ∧
    (h0.dep = 1 ∧ exAll base [.melse 3, .mwhile 1 3, .mend, .mbrk 1, .mspop 1] = true) := by decide +kernel

theorem witness_StandardBaseComputationCompletes :
    exAll base [.integerOp (.aluImm .addi 7 5 1), .integerOp (.aluW .sraw 7 5 6), .mul .mulhsu 7 5 6, .div .div 7 5 0, .div .remuw 7 5 6] = true ∧
    rx h0 0 = 0 ∧ ((rx h0 0).setWidth 32 : BitVec 32) = 0 ∧ rx h0 6 ≠ 0 ∧ ((rx h0 6).setWidth 32 : BitVec 32) ≠ 0 := by decide +kernel

/-- Aligned and misaligned targets of each, and each relation both ways. -/
theorem witness_TransfersGoToAlignedTargets :
    exAll base [.integerOp (.jal 1 4), .integerOp (.jalr 1 5 0), .integerOp (.branch .beq 5 6 4)] = true ∧
    (h0.pc + (4 : BitVec 20).signExtend 64 * 2) &&& 3 = 0 ∧ (h0.pc + (1 : BitVec 20).signExtend 64 * 2) &&& 3 ≠ 0 ∧
    ((rx h0 5 + (0 : BitVec 12).signExtend 64) &&& ~~~ 1) &&& 3 = 0 ∧ ((rx h0 5 + (2 : BitVec 12).signExtend 64) &&& ~~~ 1) &&& 3 ≠ 0 ∧
    (h0.pc + (4 : BitVec 12).signExtend 64 * 2) &&& 3 = 0 ∧ (h0.pc + (1 : BitVec 12).signExtend 64 * 2) &&& 3 ≠ 0 ∧
    rx h0 5 ≠ rx h0 6 ∧ ¬ (rx h0 5).toInt < (rx h0 6).toInt ∧ (rx h0 5).toNat < (rx h0 6).toNat ∧ rx h0 5 = rx h0 5 := by decide +kernel

theorem witness_RegisterInstructionsTouchNothingElse :
    isRegisterOnly .mend = true ∧ isRegisterOnly (.mul .mul 7 5 6) = true ∧ hartAt base base.cur = some h0 ∧
    (ran .mend base).isSome = true ∧ (ran (.mul .mul 7 5 6) base).isSome = true := by decide +kernel

/-- An inbox with a message; times before and after now; a pending and no interrupt in S-mode; a reservation and none; drained. -/
theorem witness_WaitsCompleteOrStand :
    let msg := withH (fun h => { h with msg := { h.msg with inbox := [⟨0, 0, 0, false⟩] } }) base
    let sup := inMode .s base
    let irq := withH (fun h => { h with s := { h.s with mip := 2 } }) sup
    let res := reserve base h0.id.uid 0xA0 (.home 0)
    (ex msg .hwmsg ∧ (hOf msg).id.handler = false ∧ (hOf msg).msg.inbox ≠ []) ∧
    (ex base (.hwtime 0) ∧ (rx h0 0).toNat ≤ base.clock.time ∧ ex base (.hwtime 5) ∧ base.clock.time < (rx h0 5).toNat) ∧
    (ex sup .wfi ∧ (hOf sup).mode ≠ .u ∧ effMip (hOf sup) = 0 ∧ ex irq .wfi ∧ (hOf irq).mode ≠ .u ∧ effMip (hOf irq) ≠ 0) ∧
    exAll base [.pause, .wrsNto, .wrsSto, .hdrain 0xF] = true ∧ resvOf base h0 = none ∧ hdrainDone base h0 0xF = true ∧
    resvOf res (hOf res) = some (0xA0, .home 0) ∧ (coreAt res 0).monitors.length < 64 ∧ exAll res [.wrsNto, .wrsSto] = true := by decide +kernel

/-- Nothing outstanding; then undone lane work, and a store not performed, before each fence. -/
theorem witness_FencesCompleteWhenEarlierWorkPerformed :
    let busy := ring (ent (.vaddF (eo 4 5 6 0 0 0))) base
    let sup := inMode .s base
    let fx := eo 0 0 0 0 0 2
    laneDrained h0 = true ∧ storesDone base h0.id.uid .device = true ∧ hostPending base h0.id.uid = false ∧
    performedAt base h0 (scopeOf fx.ks) = true ∧ dieStoresDone base 0 = true ∧ scopeOf 0 = .team ∧ scopeOf 1 = .die ∧
    exAll base [.fence 0 0xF 0xF 0 0, .fence 8 3 3 0 0, .fence 0 1 2 0 0, .fenceI 0 0 0, .xfence fx, .xfenceSc fx] = true ∧
    ((1 : BitVec 4).getLsbD 1 && (2 : BitVec 4).getLsbD 1) = false ∧ (2 : BitVec 4) &&& 5 = 0 ∧
    (ex sup (.sfenceVma 5 0) ∧ writerPending (hOf sup) = false ∧ storesDone sup (hOf sup).id.uid .device = true ∧ (hOf sup).mode = .s ∧ wbit (hOf sup).s.mstatus msTVM = false) ∧
    (ex (inMode .m base) (.sfenceVma 0 6)) ∧ laneDrained (hOf busy) = false ∧ exAll busy [.fence 0 0xF 0xF 0 0, .xfence fx] = true ∧
    (storesDone (withStore base) h0.id.uid .device = false ∧ performedAt (withStore base) h0 .device = false ∧
      exAll (withStore base) [.fence 8 0xF 0xF 0 0, .fence 0 1 1 0 0, .xfence fx, .fenceI 0 0 0] = true) := by decide +kernel

/-- A team of two harts: a first and a last arrival, the counts 0 and 3, another count, a second arrival, a ticket and none. -/
theorem witness_BarriersArrivePassAndFault :
    let two := withH (fun h => wx { h with id := { h.id with size := 2 } } 5 2) base
    let phase (p : Bool) := withH (fun h => setTicket { h with syncw := true } 3 ⟨true, p⟩) two
    let h := hOf two
    h.id.handler = false ∧ laneDrained h = true ∧ performedAt two h .team = true ∧
    ((tget two.work.teams h.id.team).map fun tm => decide (
      (1 ≤ (rx h 5).toNat ∧ (rx h 5).toNat ≤ h.id.size ∧ (barAt tm 3).e = 0 ∧ (barAt (setBar tm 3 ⟨2, 1, false, 2⟩) 3).count + 1 = (rx h 5).toNat) ∧
      ¬ ((ticketAt h 3).valid = true ∧ (ticketAt h 3).phase = (barAt tm 3).p) ∧
      (barAt tm 3).p ≠ (ticketAt (hOf (phase true)) 3).phase ∧ (barAt tm 3).p = (ticketAt (hOf (phase false)) 3).phase ∧
      ((barAt (setBar tm 3 ⟨1, 0, false, 0⟩) 3).e ≠ 0 ∧ (barAt (setBar tm 3 ⟨1, 0, false, 0⟩) 3).e ≠ (rx h 5).toNat))) = some true ∧
    (ticketAt h 3).valid = false ∧ h.syncw = false ∧ (hOf (phase true)).syncw = true ∧ (ticketAt (hOf (phase false)) 3).valid = true ∧
    exAll two [.barArrive 5 3, .barSync 5 3, .barWait 3] = true ∧ exAll (phase true) [.barSync 5 3, .barWait 3] = true ∧
    (rx h 0).toNat = 0 ∧ h.id.size < (rx (wx h 6 3) 6).toNat := by decide +kernel

/-- Each end and yield, a child that has retired and a number of none, and a descriptor at an aligned address. -/
theorem witness_EndsYieldsAndChildGridsComplete :
    let hand := withH (fun h => { h with id := { h.id with handler := true } }) base
    let rpl := withH (fun h => { h with msg := { h.msg with rplDue := true } }) hand
    let yl := withTeam (fun t => { t with yieldEnd := some 9 }) (withH (fun h => { h with l := { h.l with yreq := true } }) base)
    let child : Grid := { loadGrid loadSpec with num := 12, origin := .team h0.id.team, retired := true, status := 3 }
    let kid := { base with work := { base.work with grids := tput base.work.grids 77 child } }
    let desc : List Byte := leBytes 8 0x4000 ++ [1, 0, 16, 0, 0, 0, 0, 0] ++ leBytes 8 1 ++ leBytes 40 0
    let gl := withH (fun h => wx h 5 0x5000) (homeWrite base 0 0x5000 desc)
    let t := xlateHart (setHart gl 0 (entered (hOf gl) (.glaunch 4 5))) 0 (entered (hOf gl) (.glaunch 4 5)) 0x5000 .load
    (ex base .hexit ∧ h0.id.handler = false ∧ h0.mode = .u ∧ hdrainDone base (entered h0 .hexit) 0xF = true) ∧
    (ex hand .hret ∧ (hOf hand).id.handler = true ∧ hdrainDone hand (entered (hOf hand) .hret) 0xF = true ∧ (hOf hand).msg.rplDue = false) ∧
    (ex rpl .hret ∧ (hOf rpl).msg.rplDue = true ∧ hdrainDone rpl (entered (hOf rpl) .hret) 0xF = true ∧ liveSeen rpl (entered (hOf rpl) .hret) = []) ∧
    (ex base .hyield ∧ yieldWindow base (entered h0 .hyield) = none ∧ ex yl .hyield ∧ yieldWindow yl (entered (hOf yl) .hyield) = some 9 ∧ slotClk yl 0 ≤ 9 ∧
      9 < slotClk { yl with clock := { yl.clock with clk := 10 } } 0) ∧
    (ex base (.gwait 4 5) ∧ childOf base h0.id.team (rx h0 5).toNat = none) ∧
    (ex kid (.gwait 4 5) ∧ childOf kid h0.id.team (rx (hOf kid) 5).toNat = some (77, child) ∧ child.retired = true) ∧
    (ex gl (.glaunch 4 5) ∧ (hOf gl).id.hidx = 0 ∧ (hOf gl).parts = [] ∧ (rx (hOf gl) 5).toNat % 64 = 0 ∧ writerPending (entered (hOf gl) (.glaunch 4 5)) = false ∧
      t.1 = .ok (.hbm 0x5000 true) ∧ ((readHbm t.2 0 h0.id.uid 0x5000 64 true).map fun r => (r.1, (hartAt r.2.2 0).isSome)) = some (desc, true) ∧
      descBad desc none = none) := by decide +kernel

/-- An open region and none; a HELD and a DONE entry; a number at the bounds of a sequence number. -/
theorem witness_BastingAndRingInstructionsComplete :
    let held := inMode .s (ring { ent (.vaddF (eo 4 5 6 0 0 0)) with st := .held } base)
    let done := inMode .s (ring { ent (.vaddF (eo 4 5 6 0 0 0)) with st := .done } base)
    let open_ := withH (fun h => { h with snap := some ⟨h.x, h.m, h.stk, h.dep⟩ }) base
    (h0.snap.isSome = true → regionChecked h0 = true) ∧ ((hOf open_).snap.isSome = true ∧ regionChecked (hOf open_) = true) ∧
    exAll base [.bst, .bend, .frrd 7 5 0] = true ∧ exAll open_ [.bst, .bend] = true ∧
    ((rx (hOf held) 0).toNat < 65536 ∧ (entryAt (hOf held) 0).isSome = true ∧ (hOf held).mode ≠ .u ∧
      exAll held [.frrd 7 0 3, .frdrop 0, .frrep] = true ∧ ((entryAt (hOf held) 0).map (·.st)) = some .held ∧
      ((entryAt (hOf done) 0).map (·.st)) = some .done ∧ ex done (.frdrop 0)) ∧
    (65536 ≤ (rx (wx h0 5 65536) 5).toNat ∧ entryAt h0 (rx h0 5).toNat = none) := by decide +kernel

/-- HBM at the start and the end of a page, an open window, a window of another core, the host, a device register, a faulting page. -/
theorem witness_ScalarLoadsComplete :
    let ld : Instr := .scalarLoad .ld 7 5 0
    let far := at5 0x9000 (mapped 0x9000 (0x2DF + 2 ^ 24) base)
    let mm := inMode .m (at5 0x8000000000 base)
    ex (at5 0x5000 base) ld ∧ ex (at5 0x5FF8 base) ld ∧ ex (at5 0x9000 winState0) ld ∧ ex (at5 0xA000 hostState0) ld ∧ ex mm ld ∧ ex far ld ∧
    ex (at5 0x6000000000 base) ld ∧ writerPending h0 = false ∧ 0x5FF8 % 4096 + 8 ≤ 4096 ∧ h0.parts = [] ∧ laneReads h0 0x5000 8 = false ∧ paFree mm 0x8000000000 0 = true ∧
    ([0x5000, 0x5FF8].all fun (a : Nat) => decide ((tr base (BitVec.ofNat 64 a) .load).1 = .ok (.hbm a true)) &&
      (readHbm (tr base (BitVec.ofNat 64 a) .load).2 0 h0.id.uid a 8 true).any fun r => r.1.length == 8) = true ∧
    ((tr winState0 0x9000 .load).1 = .ok (.win 0 0 0) ∧ winState (tr winState0 0x9000 .load).2 0 0 1 = .open_) ∧
    ((tr hostState0 0xA000 .load).1 = .ok (.host 0 1 0x123000) ∧ hostOpen (tr hostState0 0xA000 .load).2 0 = true) ∧
    ((tr mm 0x8000000000 .load).1 = .ok (.mmio 0x8000000000) ∧ (mmioLoad mm 0x8000000000 8).isSome = true) ∧
    ((tr far 0x9000 .load).1 = .ok (.win 1 0 0)) ∧ ((tr base 0x6000000000 .load).1 = .fault 0x0101) := by decide +kernel

theorem witness_ScalarStoresCompleteAndWriteTheirBytes :
    let sd : Instr := .scalarStore .sd 5 6 0
    let shut := mapped 0x9000 0x2DF base
    let far := mapped 0x9000 (0x2DF + 2 ^ 24) base
    let e (s : State) : State := setHart s 0 (entered (hOf s) sd)
    ex (at5 0x5000 base) sd ∧ ex (at5 0x9000 winState0) sd ∧ ex (at5 0x9000 shut) sd ∧ ex (at5 0x9000 far) sd ∧ ex (at5 0xA000 hostState0) sd ∧
    memPending (entered h0 sd) = false ∧ (tr (e base) 0x5FF8 .store).1 = .ok (.hbm 0x5FF8 true) ∧ movedOut (tr (e base) 0x5FF8 .store).2 h0.id.uid = false ∧
    ((tr (e winState0) 0x9FF8 .store).1 = .ok (.win 0 0 0xFF8) ∧ winState (tr (e winState0) 0x9FF8 .store).2 0 0 1 = .open_ ∧
      mayLeave (tr (e winState0) 0x9FF8 .store).2 (hOf winState0) (.win 0 0 0xFF8) = true) ∧
    ((tr (e shut) 0x9000 .store).1 = .ok (.win 0 0 0) ∧ winState (tr (e shut) 0x9000 .store).2 0 0 1 = .closed) ∧
    (tr (e far) 0x9000 .store).1 = .ok (.win 1 0 0) ∧
    ((tr (e hostState0) 0xA000 .store).1 = .ok (.host 0 1 0x123000) ∧ hostOpen (tr (e hostState0) 0xA000 .store).2 0 = true) ∧
    (tr (e base) 0x6000000000 .store).1 = .fault 0x0101 ∧ (ran sd (at5 0x9000 winState0)).isSome = true ∧
    (ran sd (at5 0x5000 base)).isSome = true ∧ (ran sd (at5 0xA000 hostState0)).isSome = true := by decide +kernel

/-- A valid descriptor with the last coordinate in it and the first outside it; aligned and misaligned addresses. -/
theorem witness_TensorMapInstructionsComplete :
    let t : TMap := BitVec.ofNat 1024 (0x8000 + 0xD1 * 2 ^ 64 + 2 * 2 ^ 72 + 2 ^ 80 + 100 * 2 ^ 128 + 16 * 2 ^ 576)
    let s := withH (fun h => wtm (wx (wx h 7 100) 8 99) 2 t) (at5 0x5000 base)
    let e : State := setHart s 0 (entered (hOf s) (.tmst 2 5 0))
    exAll s [.tmaddr 9 2 8, .tmaddr 9 2 7, .tmaddr 9 3 0, .tmld 1 5 0, .tmst 2 5 0, .tmld 1 5 64, .tmst 2 5 64] = true ∧
    tmValid (rtm (hOf s) 2) = true ∧ tmValid (rtm (hOf s) 3) = false ∧
    (∀ i, i < 4 → if i < tmRank t then (rx (hOf s) 8).toNat / 2 ^ (16 * i) % 2 ^ 16 < tmSize t i else (rx (hOf s) 8).toNat / 2 ^ (16 * i) % 2 ^ 16 = 0) ∧
    ¬ (∀ i, i < 4 → if i < tmRank t then (rx (hOf s) 7).toNat / 2 ^ (16 * i) % 2 ^ 16 < tmSize t i else (rx (hOf s) 7).toNat / 2 ^ (16 * i) % 2 ^ 16 = 0) ∧
    (rx (hOf s) 5 + (0 : BitVec 12).signExtend 64).toNat % 128 = 0 ∧ (rx (hOf s) 5 + (64 : BitVec 12).signExtend 64).toNat % 128 ≠ 0 ∧
    writerPending (hOf s) = false ∧ (hOf s).parts = [] ∧ laneReads (hOf s) 0x5000 128 = false ∧ movedOut (tr e 0x5000 .store).2 h0.id.uid = false ∧
    ((pendingEntries (hOf s)).any fun e => e.eng == .copy && e.stage == .queued) = false ∧
    memPending (entered (hOf s) (.tmst 2 5 0)) = false ∧ (tr s 0x5000 .load).1 = .ok (.hbm 0x5000 true) ∧
    (readHbm (tr s 0x5000 .load).2 0 h0.id.uid 0x5000 128 true).isSome = true ∧ (tr e 0x5000 .store).1 = .ok (.hbm 0x5000 true) := by decide +kernel

/-- LR at the home, SC in the own window with its reservation held and without, SC to HBM. -/
theorem witness_LoadReservedAndStoreConditionalComplete :
    let lr : Instr := .lr true true true 7 5
    let sc : Instr := .sc true true true 7 5 6
    let a := at5 0x5000 base
    let w := at5 0x9000 winState0
    let held := reserve w h0.id.uid (winLine 0 0 0) (.store 0)
    let g (s : State) : State := setHart s 0 (releaseIf s (entered (hOf s) sc) true .device)
    (ex a lr ∧ writerPending (hOf a) = false ∧ laneReads (hOf a) 0x5000 8 = false ∧ orderedAt a (hOf a) true true .device = true ∧ (tr a 0x5000 .load).1 = .ok (.hbm 0x5000 true) ∧
      ((ownStores (tr a 0x5000 .load).2 h0.id.uid).any fun r => lineOf r.pa == lineOf 0x5000) = false ∧
      (readHome (tr a 0x5000 .load).2 0x5000 8).isSome = true) ∧
    (ex a sc ∧ ex w sc ∧ ex held sc ∧ memPending (entered (hOf w) sc) = false ∧ orderedAt w (entered (hOf w) sc) true true .device = true ∧
      (tr (g w) 0x9000 .store).1 = .ok (.win 0 0 0) ∧ (tr (g held) 0x9000 .store).1 = .ok (.win 0 0 0) ∧
      mayLeave (tr (g held) 0x9000 .store).2 (hOf (g held)) (.win 0 0 0) = true ∧ (tr (g a) 0x5000 .store).1 = .ok (.hbm 0x5000 true) ∧
      (tgetD (tr (g held) 0x9000 .store).2.mem.resvStore 0 []).any (fun r => r.uid == h0.id.uid && r.line == winLine 0 0 0) = true) ∧
    (0x5000 : Word).toNat % 8 = 0 := by decide +kernel

/-- An AMO and a scoped atomic, aligned in HBM and in the own window, and misaligned. -/
theorem witness_AtomicsCompleteAndCompute :
    let amo : Instr := .amo .add true true true 7 5 6
    let x : Instr := .xamoAqrl { eo 7 5 6 8 3 2 with rnd := 7 }
    let a := at5 0x5000 base
    let w := at5 0x9000 winState0
    let g (s : State) : State := setHart s 0 (releaseIf s (entered (hOf s) amo) true .device)
    exAll a [amo, x] = true ∧ exAll w [amo, x] = true ∧ exAll (at5 0x5004 base) [amo, x] = true ∧ (0x5004 : Word).toNat % 8 ≠ 0 ∧
    memPending (entered (hOf a) amo) = false ∧ orderedAt a (entered (hOf a) amo) true true .device = true ∧
    (tr (g a) 0x5000 .amo).1 = .ok (.hbm 0x5000 true) ∧ (tr (g w) 0x9000 .amo).1 = .ok (.win 0 0 0) ∧
    mayLeave (tr (g w) 0x9000 .amo).2 (hOf (g w)) (.win 0 0 0) = true ∧ winState (tr (g w) 0x9000 .amo).2 0 0 1 = .open_ ∧ 0 < 8 := by decide +kernel

/-- i forwards in s: its own checks pass and its engine can take it. -/
def fwd (s : State) (i : Instr) : Bool := match engine? i with
  | some (sh, o) => decide (Runs s (hOf s) i) && allocOk (hOf s).id.nv (hOf s).id.nt i && !(dynRounds sh o && (hOf s).l.lfrm.toNat > 4) &&
      !forwardBlocked (entered (hOf s) i) sh
  | none => false
def held (e : Entry) : Bool :=
  let s := ring e base
  decide (Holds s 0 (hOf s) e) && e.st == .inflight && e.stage == .issued && !olderCompute (hOf s) e

theorem witness_LaneInstructionsForward :
    let n := eo 4 5 0 0 2 0
    let key := (12, 0)
    let r : State := withH (fun h => { h with frag := some key })
      { base with reds := { base.reds with buf := [(0, ⟨12, 0, List.replicate 32 0x80000000, 0⟩)] } }
    ([.vaddI (eo 4 5 6 0 2 0), .vaddI (eo 4 5 6 0 2 1), .vaddF (eo 4 5 6 0 0 0), .vcvtFF 0 (eo 4 5 0 0 4 0), .vcmp (eo 3 5 6 0 2 0), .vballot (eo 4 0 0 0 2 0),
      .vrcp (eo 4 5 0 0 0 0), .vlid (eo 4 0 0 0 2 0)].all fun i => fwd base i && (engine? i).all fun p => 2 ≤ p.1.grp && p.1.grp ≤ 8) = true ∧
    ([.vld n, .vst n, .vlds n, .vlds (eo 4 5 6 0 2 1), .vsts n, .vldg (eo 4 5 6 0 2 0), .vstg (eo 4 5 6 0 2 0), .vldt n, .vstt n,
      .vldf (eo 32 5 0 6 0 0), .vstf (eo 32 5 0 6 0 0), .vcst n, .vxld n, .vamo (eo 4 5 6 8 2 0), .vamoAq (eo 4 5 6 8 2 0),
      .vamoRl (eo 4 5 6 8 2 0), .vamoAqrl (eo 4 5 6 8 2 0), .vpf (eo 0 5 6 0 0 0), .vfence (eo 0 0 0 0 0 0)].all (fwd base)) = true ∧
    (h0.snap = none ∧ openKey base 0 h0 = none ∧ h0.frag = none ∧ ([.vredOpen (eo 4 5 0 6 0 0), .vredAdd (eo 0 5 6 0 0 0), .vredFlush (eo 4 5 0 0 0 0)].all (fwd base)) = true) ∧
    (((rx h0 (xreg 5)).toNat % 2 ^ 48, 0) = key ∧ openKey r 0 (hOf r) = some key ∧ ([.vredFlush (eo 4 5 0 0 0 0), .vredAdd (eo 0 5 6 0 0 0)].all (fwd r)) = true ∧ ex (at5 13 r) (.vredAdd (eo 0 5 6 0 0 0))) ∧
    exAll (withH (fun h => { h with snap := some ⟨h.x, h.m, h.stk, h.dep⟩ }) base)
      [.vredOpen (eo 4 5 0 6 0 0), .vredAdd (eo 0 5 6 0 0 0), .vredFlush (eo 4 5 0 0 0 0)] = true := by decide +kernel

/-- Both array revisions; a drain to another slot, to the hart's own, and with all 16 reservations taken. -/
theorem witness_MatrixInstructionsForward :
    let kudu := withH (fun h => { h with id := { h.id with arev := 0 } }) base
    let own := at5 (BitVec.ofNat 64 0) base
    let full := withH (fun h => { h with msg := { h.msg with rsv := 16 } }) own
    let o := eo 3 32 64 96 0 0
    h0.id.arev ≠ 0 ∧ ([.mma o, .mmabk o, .mmasp (eo 3 32 64 96 0 0), .tzero (eo 3 0 0 0 0 0), .tmovv (eo 8 3 0 0 0 0), .tmovt (eo 3 8 0 0 0 0),
      .tst (eo 3 5 0 0 0 0), .tld (eo 3 5 0 0 0 0), .twait (eo 3 0 0 0 0 0), .tdrain (eo 3 5 0 6 0 0)].all (fwd base)) = true ∧
    slotOfHwhere (rx (hOf (at5 1 base)) (xreg 5)).toNat ≠ base.cur ∧ fwd (at5 1 base) (.tdrain (eo 3 5 0 6 0 0)) = true ∧
    (slotOfHwhere (rx (hOf own) (xreg 5)).toNat = own.cur ∧ (hOf own).msg.rsv < 16 ∧ fwd own (.tdrain (eo 3 5 0 6 0 0)) = true) ∧
    (16 ≤ (hOf full).msg.rsv ∧ allocOk h0.id.nv h0.id.nt (.tdrain (eo 3 5 0 6 0 0)) = true ∧ ex full (.tdrain (eo 3 5 0 6 0 0))) ∧
    ((hOf kudu).id.arev = 0 ∧ exAll kudu [.mma o, .mmabk o, .mmasp o] = true ∧ (engine? (.mma o)).isSome = true) := by decide +kernel

/-- A kernel hart with 15 and with 16 reservations, a handler; the first and the last send-queue entry, and none free. -/
theorem witness_CopiesAndMessagesForward :
    let rsv (n : Nat) := withH (fun h => { h with msg := { h.msg with rsv := n } }) base
    let hand := withH (fun h => { h with id := { h.id with handler := true }, msg := { h.msg with rplAsked := true, rplDue := true } }) base
    let u (b : Bool) : SendEntry := { used := b, seq := 0, target := 0, handler := 0, p := [], sent := false }
    let used7 := withH (fun h => { h with msg := { h.msg with sendq := (Vector.replicate 8 (u true)).set 7 (u false) } }) base
    let used8 := withH (fun h => { h with msg := { h.msg with sendq := Vector.replicate 8 (u true) } }) base
    let ask := at5 (1 <<< 61) base
    let cps : List Instr := [.cpgs (eo 4 5 0 6 0 0), .cpsg (eo 4 5 0 7 0 0), .cpgg (eo 4 5 0 6 0 0), .cpmc (eo 4 5 0 7 0 0),
      .cpfill (eo 4 5 0 6 3 0), .cpadd (eo 4 5 0 6 0 0)]
    h0.id.handler = false ∧ (cps.all (fwd (rsv 15))) = true ∧ (hOf (rsv 15)).msg.rsv < 16 ∧ 16 ≤ (hOf (rsv 16)).msg.rsv ∧
    exAll (rsv 16) cps = true ∧ (cps.all fun i => allocOk h0.id.nv h0.id.nt i) = true ∧ (hOf hand).id.handler = true ∧ (cps.all (fwd hand)) = true ∧
    (freeSendIdx h0 = 0 ∧ freeSendIdx (hOf used7) = 7 ∧ ([.msend (eo 5 6 0 8 0 0), .msendb (eo 5 6 0 8 0 0)].all fun i => fwd base i && fwd used7 i && fwd ask i) = true ∧
      wbit (rx (hOf ask) 5) 61 = true ∧ wbit (rx h0 5) 61 = false ∧ (hOf ask).msg.rsv < 16) ∧
    (8 ≤ freeSendIdx (hOf used8) ∧ exAll used8 [.msend (eo 5 6 0 8 0 0), .msendb (eo 5 6 0 8 0 0)] = true ∧
      allocOk h0.id.nv h0.id.nt (.msendb (eo 5 6 0 8 0 0)) = true) ∧
    (fwd hand (.msendr (eo 0 0 0 8 0 0)) = true ∧ (hOf hand).msg.rplAsked = true ∧ (hOf hand).msg.rplDue = true) ∧
    fwd base (.mrecv (eo 4 6 0 0 0 0)) = true ∧ fwd base (.mackrd (eo 4 0 0 5 0 0)) = true ∧ fwd (inMode .s base) (.mackrd (eo 4 0 0 6 0 0)) = true := by
  decide +kernel

/-- A register one past the allocation of 16, and the first illegal dynamic mode. -/
theorem witness_ForwardingChecksFirstAndChangesNoRegister :
    let small := withH (fun h => { h with id := { h.id with nv := 16 } }) base
    let frm := withH (fun h => { h with l := { h.l with lfrm := 5 } }) base
    let d : Eops := { eo 4 5 6 0 0 0 with rnd := 7 }
    (((engine? (.vaddI (eo 16 5 6 0 2 0))).map fun p => decide (p.1.grp ≤ 0x0C)) = some true ∧ ex small (.vaddI (eo 16 5 6 0 2 0)) ∧
      allocOk (hOf small).id.nv (hOf small).id.nt (.vaddI (eo 16 5 6 0 2 0)) = false) ∧
    (((engine? (.vaddF d)).map fun p => dynRounds p.1 p.2) = some true ∧ ex frm (.vaddF d) ∧ 4 < (hOf frm).l.lfrm.toNat) ∧
    hartAt base base.cur = some h0 ∧ (ran (.vaddF d) base).isSome = true := by decide +kernel

/-- Every LI row issued; a lane that clamps and one that does not. -/
theorem witness_LaneIntegerResults :
    let o := eo 4 5 6 8 2 0
    let d := eo 4 6 8 10 3 0
    ([.vaddI o, .vsubI o, .vmulI o, .vmulh o, .vdivI o, .vrem o, .vminI o, .vmaxI o, .vadds o, .vsubs o, .vabsI o, .vnegI o, .vmad o, .vand o,
      .vor o, .vxor o, .vnot o, .vsll o, .vsrl o, .vsra o, .vmov o, .vaddI d, .vmov d].all fun i => held { ent i with stage := .issued }) = true := by
  decide +kernel

theorem witness_LaneCompareSelectAndBitCounts :
    let c (r : BitVec 3) : Instr := .vcmp { eo 3 5 6 0 2 0 with rnd := r }
    ([c 0, c 1, c 2, c 3, c 4, c 5, .vsel (eo 4 5 6 3 2 0), .vpopc (eo 4 5 0 0 2 0), .vclz (eo 4 5 0 0 2 0), .vctz (eo 4 5 0 0 2 0),
      .vbrev (eo 4 5 0 0 2 0)].all fun i => held { ent i with stage := .issued }) = true ∧ 32 ≤ fmtWidth .i 2 := by decide +kernel

/-- A quiet and a signaling NaN of each format. -/
theorem witness_NanOperandsGiveTheCanonicalNan :
    ([(f32, 0x7FC00000, 0x7F800001), (f64, 0x7FF8000000000000, 0x7FF0000000000001), (f16, 0x7E00, 0x7C01), (bf16, 0x7FC0, 0x7F81)].all fun p =>
      isNaN (unpackF p.1 (flushIn false p.1 p.2.1)) && isNaN (unpackF p.1 (flushIn true p.1 p.2.2)) && sigNaN (unpackF p.1 p.2.2) &&
      !sigNaN (unpackF p.1 p.2.1)) = true := by decide +kernel

/-- The entry of i, issued, with an address. -/
def iss (i : Instr) (a : Word) : Entry := { ent i with stage := .issued, opa := a }
def rung (e : Entry) : State := ring e base
def has (s : State) (e : Entry) : Bool := decide (Holds s 0 (hOf s) e)

/-- An open interrupt, a deliverable late fault, each wait that ends, an ending hart, a reply. -/
theorem witness_HartAndLaneEventsComplete_hart :
    let irq := withH (fun h => { h with s := { h.s with mie := 2, mip := 2 } }) base
    let late := rung { ent (.vaddF (eo 4 5 6 0 0 0)) with st := .held }
    let wrs := withH (fun h => { h with wait := some (.wrs 7 (some 0)) }) (updMem base fun m => { m with wakes := [⟨h0.id.uid, 7⟩] })
    let tm := withH (fun h => { h with wait := some (.hwtime 0) }) base
    let fin (b : Bool) := withH (fun h => { h with ending := true, id := { h.id with handler := b } }) base
    let rep := withH (fun h => { h with pend := some { reg := 7, id := 9, pc := 0x4000, va := 0x5000, acq := some .device } }) (updMem base fun m => { m with replies := [⟨.xreg h0.id.uid 9, 5, false⟩] })
    (nextInterrupt irq 0 (hOf irq) = some 1 ∧ (hOf irq).halted = false ∧ (hOf irq).pend = none) ∧
    ((deliverable (hOf late)).isSome = true ∧ (hOf late).pend = none ∧ (hOf late).wait = none) ∧
    ((hOf wrs).wait = some (.wrs 7 (some 0)) ∧ (wrs.mem.wakes.find? fun w => w.uid == (hOf wrs).id.uid) = some ⟨h0.id.uid, 7⟩ ∧ 0 ≤ slotClk wrs 0) ∧
    ((hOf tm).wait = some (.hwtime 0) ∧ 0 ≤ tm.clock.time) ∧ ((hOf (fin true)).ending = true ∧ (hOf (fin true)).id.handler = true) ∧
    ((hOf (fin false)).id.handler = false ∧ (tget (updTeam (freeSlot (fin false) 0 (hOf (fin false))) h0.id.team fun t =>
      { t with hartsLeft := t.hartsLeft - 1 }).work.teams h0.id.team).isSome = true) ∧
    (rep.mem.replies[0]? = some ⟨.xreg (hOf rep).id.uid 9, 5, false⟩ ∧ slotOfUid rep (hOf rep).id.uid = some 0 ∧ (hOf rep).wait = none ∧
      ((hOf rep).pend.map (·.id)) = some 9) := by decide +kernel

/-- A head of the queue with lanes and without; an issued compute entry and a `vred.add`; loads, a store and a `vfence`; a replay of a parked
entry and of one that `frrep` re-forwards, and one whose instruction can no longer be fetched. -/
theorem witness_HartAndLaneEventsComplete_lane :
    let q (i : Instr) (m : Mask) : Entry := { ent i with lmask := m }
    let ok (e : Entry) : Bool := let s := rung e; has s e && (hOf s).laneQ == [e.seq] && e.st == .inflight && e.stage == .queued &&
      (hOf s).capture.isNone && e.eng == .lane && !lockedFor (hOf s) e && !parityBad (hOf s) e && !steerStops s 0 &&
      !(isRedAdd e.instr && olderFlush (hOf s) e) && picks s (.lane 0) (hartCand 0 (hOf s)) (laneRivals s 0)
    let on (e : Entry) : Bool := let s := rung e; has s e && e.eng == .lane && e.st == .inflight && e.stage == .issued && (hOf s).capture.isNone && !laneWaits (hOf s) e
    let st := iss (.vst (eo 4 5 0 0 2 0)) 0x5000
    let c := checkAll (rung st) 0 (hOf (rung st)) st .store (lanesOf st.lmask)
    let t := (goesNow 0 c.1.2.1).foldl (fun s p => storeAt s 0 0 p.2.1 p.1 p.2.2 (storeBytes (hOf (rung st)) st.instr p.1))
      (updE c.2 0 0 fun e => { e with stage := .running })
    let pk (pc : BitVec 48) : Entry := { ent (.vaddF (eo 4 5 6 0 0 0)) with st := .parked, resolved := true, pc := pc }
    (ok (q (.vaddF (eo 4 5 6 0 0 0)) 0) && ok (q (.vaddF (eo 4 5 6 0 0 0)) 1) && ok (q (.vmvx (eo 4 5 0 6 2 0)) 0)) = true ∧
    (on (iss (.vaddF (eo 4 5 6 0 0 0)) 0) && isCompute (.vaddF (eo 4 5 6 0 0 0)) && on (iss (.vredAdd (eo 0 5 6 0 0 0)) 0) && isCompute (.vredAdd (eo 0 5 6 0 0 0)) &&
      !olderCompute (hOf (rung (iss (.vredAdd (eo 0 5 6 0 0 0)) 0))) (iss (.vredAdd (eo 0 5 6 0 0 0)) 0)) = true ∧
    ([.vld (eo 4 5 0 0 2 0), .vlds (eo 4 5 0 0 2 0), .vldg (eo 4 5 6 0 2 0), .vldt (eo 4 5 0 0 2 0), .vldf (eo 32 5 0 6 0 0), .vst (eo 4 5 0 0 2 0),
      .vsts (eo 4 5 0 0 2 0), .vstg (eo 4 5 6 0 2 0), .vstt (eo 4 5 0 0 2 0), .vstf (eo 32 5 0 6 0 0), .vfence (eo 0 0 0 0 0 0)].all
        fun i => on (iss i 0x5000)) = true ∧
    (c.1.1 = false ∧ c.1.2.2 = [] ∧ (c.1.2.1.all fun p => mayLeave c.2 (laneSide (hOf (rung st))) p.2.2) = true ∧ ((entryNow t 0 0).map (·.2.lmask)) = some 0) ∧
    (let e := iss (.vfence (eo 0 0 0 0 0 0)) 0
     olderAccess (hOf (rung e)) e = false ∧ lanePerformed (rung e) (hOf (rung e)) .team = true) ∧
    (refetchDue (hOf (rung (pk 0x4000))) (pk 0x4000) = true ∧
      refetchDue (hOf (rung { pk 0x4000 with st := .inflight, stage := .refetch })) { pk 0x4000 with st := .inflight, stage := .refetch } = true ∧
      has (rung (pk 0x4000)) (pk 0x4000) = true ∧ (refetch (rung (pk 0x4000)) 0 (hOf (rung (pk 0x4000))) (pk 0x4000)).1 = .ok [0x13, 0, 0, 0] ∧
      (refetch (rung (pk 0x4002)) 0 (hOf (rung (pk 0x4002))) (pk 0x4002)).1 = .fault 0 0x4002) := by decide +kernel

/-- Entries of each kind that can dispatch, start in the array or the port, and end there. -/
theorem witness_MatrixAndDrainEventsComplete_engine :
    let o := eo 3 32 64 96 0 0
    let mk (i : Instr) : Entry := { ent i with eng := .matrix }
    let queued (e : Entry) : Bool := let s := rung e; has s e && (hOf s).laneQ == [e.seq] && e.eng == .matrix && e.st == .inflight && e.stage == .queued &&
      (hOf s).capture.isNone && !lockedFor (hOf s) e && decide ((mdqOf s 0).length < 8) &&
      (h0.id.cls == 0 || decide (((mdqOf s 0).filter fun m => !isIbexSlot s m.slot).length < 6))
    let disp (e : Entry) : State := updCore (ring { e with stage := .dispatched } (withTeam (fun t => { t with wins := [0] }) base)) 0 fun c => { c with mdq := [(0, [⟨0, 0⟩])] }
    let cand (e : Entry) : Bool := let s := disp e; decide (mxOldest s 0 = some (hOf s, { e with stage := .dispatched })) &&
      mxReady s 0 (hOf s) { e with stage := .dispatched } && decide ((coreAt s 0).arrayFree ≤ slotClk s 0) && (coreAt s 0).port.isNone &&
      !mxOutranked s 0 (hOf s) true && !mxOutranked s 0 (hOf s) false && !parityBad (hOf s) e && (tileOffCheck (noteMx s 0 (hOf s) false) (hOf s) e).isNone
    let op : MxOp := { uid := h0.id.uid, seq := 0, fin := 0, vals := [] }
    let fin (e : Entry) : Bool := let s := updCore (rung { e with stage := .running }) 0 fun c => { c with arrayPipe := [op], port := some op }
      (coreAt s 0).arrayPipe == [op] && decide ((coreAt s 0).port = some op ∧ op.fin ≤ coreClk s 0 ∧ slotOfUid s op.uid = some 0) &&
      (entryNow s 0 op.seq).any fun p => p.2.instr == e.instr
    let all : List Instr := [.mma o, .mmasp o, .mmabk o, .tzero (eo 3 0 0 0 0 0), .tmovv (eo 8 3 0 0 0 0), .tmovt (eo 3 8 0 0 0 0), .tst (eo 3 5 0 0 0 0),
      .tld (eo 3 5 0 0 0 0), .twait (eo 3 0 0 0 0 0)]
    let dr : Entry := { mk (.tdrain (eo 3 5 0 6 0 0)) with lmask := 0 }
    (all.all fun i => queued (mk i) && fin (mk i)) = true ∧
    (all.all fun i => cand (mk i)) = true ∧
    (cand dr && queued dr && fin dr) = true ∧ drainCheck dr = none := by decide +kernel

/-- Tenant 0 holds die 0. -/
def ten (s : State) : State := updFe s fun x => { x with rect := [(0, 0x1E28)] }
def net (f : Net → Net) (s : State) : State := { s with net := f s.net }

/-- A drain to an empty slot and to a team with one window, the image ending at its last byte; both outcomes of an answer. -/
theorem witness_MatrixAndDrainEventsComplete_drains :
    let d (dst off : Nat) : DrainMsg := { uid := 99, seq := 0, asid := 1, tenant := 0, cls := 2, src := 0, dst := dst, off := off, data := [], wakeOnly := false, acct := 0, reserved := false }
    let s (dst off : Nat) : State := net (fun n => { n with drains := [d dst off] }) (ten (withTeam (fun t => { t with wins := [0] }) base))
    let e : Entry := { ent (.tdrain (eo 3 5 0 6 0 0)) with eng := .matrix, stage := .sent }
    let a (code : Nat) : State := net (fun n => { n with drainAcks := [⟨h0.id.uid, 0, code, false⟩] }) (rung e)
    ((s 1 0).net.drains[0]? = some (d 1 0) ∧ divBlocked (s 1 0) 1 = false ∧ divBlocked (s 0 3072) 1 = false ∧ inTenant (s 1 0) 0 (coreOfHwhere 1) = true ∧ hartAt (s 1 0) (slotOfHwhere 1) = none) ∧
    (inTenant (s 0 3072) 0 (coreOfHwhere 0) = true ∧ hartAt (s 0 3072) (slotOfHwhere 0) = some (hOf (s 0 3072)) ∧ h0.id.handler = false ∧ h0.id.asid = 1 ∧
      ((teamOf (s 0 3072) (hOf (s 0 3072))).map fun tm => decide (tm.stat ≠ .ended ∧ 3072 + 1024 ≤ 4096 * tm.wins.length)) = some true) ∧
    ((a 0).net.drainAcks[0]? = some ⟨h0.id.uid, 0, 0, false⟩ ∧ hartOfUid (a 0) h0.id.uid = some (hOf (a 0)) ∧ entryAt (hOf (a 0)) 0 = some e ∧
      e.eng = .matrix ∧ e.st = .inflight) ∧ ((a 0x0205).net.drainAcks[0]? = some ⟨h0.id.uid, 0, 0x0205, false⟩ ∧ slotOfUid (a 0x0205) h0.id.uid = some 0) := by
  decide +kernel

/-- A fill of 128 bytes: queued, in phase A, in phase B, and finished, in a kernel hart and in a handler. -/
theorem witness_CopyAndWindowEventsComplete_copies :
    let e (st : Stage) : Entry := { ent (.cpfill (eo 4 5 0 6 3 0)) with eng := .copy, stage := st, opa := 0x5000, opb := 128, lmask := 7, ptw := 128 }
    let job : CopyJob := ⟨h0.id.uid, 0, [], false, false, false, [], none, [], 0, 0, 0⟩
    let s (st : Stage) (js : List CopyJob) : State := updCore (rung (e st)) 0 fun c => { c with copies := js }
    let q := s .queued []
    let r := s .running [job]
    let b := s .running [{ job with ready := true }]
    let f := s .running [{ job with fin := true }]
    let c := checkPieces r 0 (hOf r) (e .running) false (chunkPieces (hOf r) (e .running)) 0
    (has q (e .queued) = true ∧ ctxDead q 1 = false ∧ (hOf q).capture = none ∧ copyMayBegin q 0 (hOf q) (e .queued) = true ∧
      outrankedCopy q 0 (hOf q) = false ∧ ((coreAt q 0).copies.any fun j => !j.ready && !j.fin) = false ∧ copyCheck q (hOf q) (e .queued) = none ∧
      chunksLeft (hOf q) (e .queued) = true) ∧
    (has r (e .running) = true ∧ (coreAt r 0).copies.find? (isJob h0.id.uid 0) = some job ∧ c.1.1 = false ∧ c.1.2.2 = [] ∧
      ((readPieces c.2 0 (hOf r) 0 job c.1.2.1 0).1.map (·.length)) = some 1) ∧
    ((coreAt b 0).copies.find? (isJob h0.id.uid 0) = some { job with ready := true }) ∧
    ((coreAt f 0).copies.find? (fun j => isJob h0.id.uid 0 j && j.fin) = some { job with fin := true } ∧ storesDone f (copyUid h0.id.uid) .device = true ∧
      earlierCopy f (hOf f) 0 = false ∧ divBlocked f 1 = false) := by
  decide +kernel

/-- An access that meets an open, a closed and a moved window, and one whose tenant holds no core there; its answers. -/
theorem witness_CopyAndWindowEventsComplete_windows :
    let a (asid : Nat) : WinAcc := { id := 1, uid := 99, asid := asid, tenant := 0, va := 0x9000, mode := .u, core := 0, win := 0, off := 0, size := 8, op := .load, data := [], sx := false, reply := .none }
    let s (asid : Nat) : State := net (fun n => { n with wins := [a asid] }) (ten winState0)
    let ok (s : State) : Bool := routersPass s 0 (some (match slotAny s 99 with
      | some k => coreOfSlot k
      | none => 0)) 0
    let m : State := updCore (net (fun n => { n with wins := [a 1] }) (ten base)) 0 fun c => { c with winVac := [(0, ((base.work.teams.map (·.1)).headD 0, 0))] }
    (ok (s 1) = true ∧ ok (s 2) = true ∧ ok m = true ∧ ok winState0 = false) ∧ ((s 1).net.wins[0]? = some (a 1) ∧ accState (s 1) (a 1) = .open_) ∧ ((s 2).net.wins[0]? = some (a 2) ∧ accState (s 2) (a 2) = .closed ∧ (a 2).op ≠ .sc ∧ accState (s 2) { a 2 with op := .sc } = .closed) ∧
    (m.net.wins[0]? = some (a 1) ∧ accState m (a 1) = .moved) ∧
    (net (fun n => { n with winReps := [⟨a 1, .data [1, 2, 3, 4, 5, 6, 7, 8]⟩, ⟨a 1, .closed⟩] }) base).net.winReps[0]? =
      some ⟨a 1, .data [1, 2, 3, 4, 5, 6, 7, 8]⟩ := by decide +kernel

/-- A message to core 0: `kind`, network and body. -/
def msg0 (kind : MsgKind) (network : Nat) (body : List Byte) : Msg :=
  { kind := kind, net := network, tenant := 0, asid := 1, cls := 2, level := 0, scope := 0, seq := 0, rpl := false, src := 0, dst := 0, entry := 0x4000,
    teamNo := (h0.id.teamNo % 2 ^ 24), off := 0, body := body, dline := 0, orec := 0, srcTeam := 0, srcIdx := 0, p0 := 1, p1 := 2, uid := 99, sq := none,
    reserved := false, drain := false, acct := 0, forUid := 0 }

/-- Each entry that the message engine serves, and both outcomes of an acknowledgement. -/
theorem witness_SendsAndArrivalsComplete_sends :
    let used : State → State := withH fun h => { h with msg := { h.msg with
      inbox := [⟨1, 2, 0, false⟩], sendq := h.msg.sendq.set 0 { used := true, seq := 0, target := 0, handler := 0, p := [1, 2], sent := false } } }
    let e (i : Instr) : Entry := { ent i with eng := .message, lmask := 0 }
    let s (i : Instr) : State := used (ten (rung (e i)))
    let ok (i : Instr) : Bool := has (s i) (e i) && (e i).st == .inflight && (e i).stage == .queued && (hOf (s i)).capture.isNone &&
      !olderMessage (hOf (s i)) (e i) && !ctxDead (s i) 1 && picks (s i) (.send 0) (hartCand 0 (hOf (s i))) (sendRivals (s i) 0)
    let ms : Instr := .msend (eo 5 6 0 8 0 0)
    let t := sendTarget (s ms) 0 (hOf (s ms)) (e ms)
    ([ms, .msendr (eo 0 0 0 8 0 0), .mrecv (eo 4 6 0 0 0 0), .mackrd (eo 4 0 0 5 0 0)].all ok) = true ∧
    ((sendEntryOf (hOf (s ms)) 0).isSome = true ∧ targetBad (e ms).opa.toNat (e ms).lmask.toNat = false ∧ inTenant t.2 h0.id.tenant 0 = true ∧
      (match t.1 with
       | .core c => c == 0
       | _ => false) = true ∧ sendReleased t.2 (hOf (s ms)) (e ms) (coverScope 0 0) = true) ∧
    sendReleased (s ms) (hOf (s ms)) (e ms) (coverScope (coreOfSlot 0) (coreOfHwhere (hOf (s ms)).msg.origin.toNat)) = true ∧
    (hOf (s ms)).msg.inbox = [⟨1, 2, 0, false⟩] ∧
    ((pendingEntries (hOf (s ms))).any fun f => before f (e ms) && f.eng == .matrix && inQueue f) = false ∧
    (let a (code : Nat) : State := net (fun n => { n with acks := [⟨h0.id.uid, 0, none, code⟩] }) (s ms)
     (a 0).net.acks[0]? = some ⟨h0.id.uid, 0, none, 0⟩ ∧ (a 0x0205).net.acks[0]? = some ⟨h0.id.uid, 0, none, 0x0205⟩ ∧
       hartOfUid (a 0) h0.id.uid = some (hOf (a 0)) ∧ slotOfUid (a 0x0205) h0.id.uid = some 0) := by decide +kernel

/-- A message whose body ends at the end of the team's window, one for a handler with 63 waiting, a diverted record, a message that starts a
handler, and an Ibex one that has waited 256 clk before a full pool. -/
theorem witness_SendsAndArrivalsComplete_arrivals :
    let m := { msg0 .inbox 0 (leBytes 8 0) with off := 4088 }
    let s := net (fun n => { n with msgs := [m] }) (ten (withTeam (fun t => { t with wins := [0] }) base))
    let hm := msg0 .handler 1 []
    let q (cls : Nat) : HqEntry := { msg := { msg0 .handler 0 [] with cls := cls }, clk := 0 }
    let k := updCore (net (fun n => { n with msgs := [hm] }) (ten base)) 0 fun c => { c with hq := List.replicate 63 (q 2) }
    let one_ := updCore (ten base) 0 fun c => { c with hq := [q 2] }
    let rec_ : List Byte := leBytes 4 1 ++ leBytes 4 2 ++ leBytes 4 1 ++ leBytes 20 0 ++ divRecord 1 2 0 false 0 0 0
    let dv := homeWrite (withH (fun h => { h with msg := { h.msg with divRecs := 1 } }) base) 0 (divBase 0x100000) rec_
    (s.net.msgs[0]? = some m ∧ outOfOrder s 0 m = false ∧ divBlocked s 1 = false ∧ ctxFree s 1 = true ∧ homeFree s (awayBase s 1 + 16 * slotOfHwhere 0) 16 = true ∧ routersPass s 0 (srcCore m) (coreOfHwhere 0) = true ∧ hartAt s (slotOfHwhere 0) = some (hOf s) ∧
      (hOf s).id.teamNo % 2 ^ 24 = m.teamNo ∧ ((teamOf s (hOf s)).map fun tm => decide (m.off + m.body.length ≤ 4096 * tm.wins.length)) = some true ∧
      (postHart s 0 (hOf s) (inboxOf m) m.src m.seq).isSome = true) ∧
    (k.net.msgs[0]? = some hm ∧ outOfOrder k 0 hm = false ∧ routersPass k 0 (srcCore hm) (coreOfHwhere 0) = true ∧
      routersPass (net (fun n => { n with msgs := [hm] }) base) 0 (srcCore hm) (coreOfHwhere 0) = false ∧ (coreAt k (coreOfHwhere 0)).hq.length < 64 ∧
      ((coreAt k (coreOfHwhere 0)).hq.filter fun q => q.msg.net != 0).length < 60) ∧
    (((teamOf dv (hOf dv)).map (·.recPa)) = some 0x100000 ∧ homeFree dv (divBase 0x100000) 0x10000 = true ∧ lostRead dv (divBase 0x100000) 0x10000 = false ∧ (hOf dv).msg.inbox.length < 16 ∧ 0 < (hOf dv).msg.divRecs ∧ (hOf dv).capture = none ∧
      0 < divCount dv 0x100000 ∧
      (let a := divBase 0x100000 + 32 * ((max 1 (divHead dv 0x100000) - 1 + 0) % 2047 + 1)
       (leNat (peekHome dv (a + 0x11) 1)).testBit 0 = true ∧ leNat (peekHome dv (a + 0x10) 1) = h0.id.hidx)) ∧
    ((coreAt one_ 0).hq[0]? = some (q 2) ∧ freeHandlerSlots one_ 0 ≠ [] ∧ ctxDead one_ 1 = false ∧ handlerTurn one_ 0 0 (q 2).msg = true ∧
      savedHandlerFirst one_ 0 (q 2).msg = false ∧ (ctxOf one_ 1).hold = false) := by decide +kernel

/-- A core whose tenant sets no handler slots aside has none free. -/
theorem witness_SendsAndArrivalsComplete_timeout :
    let q : HqEntry := { msg := { msg0 .handler 0 [] with cls := 0 }, clk := 0 }
    let s : State := { updCore (ten base) 0 (fun c => { c with hq := [q] }) with clock := { base.clock with clk := 256 }, sch := { base.sch with rsv := [(0, 0)] } }
    ((coreAt s 0).hq.any fun q => q.msg.cls == 0 && decide (q.clk + 256 ≤ coreClk s 0)) = true ∧ freeHandlerSlots s 0 = [] ∧
    ((s.harts.filter fun p => coreOfSlot p.1 == 0 && p.2.id.handler).any fun p => p.2.id.cls == 0 || p.2.capture.isSome) = false := by decide +kernel

/-- A free, a held and an exhausted AU; a contribution; a fragment in both outcomes; an applying slot in the last place; a reply. -/
theorem witness_ReductionAndHomeEventsComplete_reductions :
    let au (ms : List AuMsg) (zs : Tbl RedSlot) (cs : Nat) : State :=
      setReg { base with reds := { buf := [], slots := zs, auq := ms, vreps := [⟨h0.id.uid, 0, 2⟩] } } (mdBase 1 + 0x10) cs
    let o : AuMsg := .openReq h0.id.uid 0 1 0x123456000 0 16384
    let c : Contrib := { core := 0, quad := 0, slot := 0, order := 0, fin := false, parts := [], line := 0 }
    let f : AuMsg := .fragment h0.id.uid 1 0x123456000 0 c
    let z (st : SlotState) : RedSlot := { st := st, pa := 0x123456000, asid := 1, fmt := 0, declared := 1, finals := 0, contribs := [] }
    (auFirst (au [o] [] 1) 0 h0.id.uid 0x123456000 = true ∧ slotFor (dropAu (au [o] [] 1) 0) 0x123456000 = none ∧
      16384 ≤ csFree (dropAu (au [o] [] 1) 0) (homeOf 0x123456000) ∧
      firstBelow 1024 (fun j => (tget (au [o] [] 1).reds.slots (1024 * homeOf 0x123456000 + j)).isNone) = 0) ∧
    csFree (dropAu (au [o] [] 0) 0) (homeOf 0x123456000) < 16384 ∧
    (slotFor (dropAu (au [o] [(1024, z .open_)] 1) 0) 0x123456000).isSome = true ∧
    auFirst (au [.contribution h0.id.uid 0 1 0x123456000 0 c] [] 1) 0 h0.id.uid 0x123456000 = true ∧
    (contribStatus (au [f] [] 1) 1 0x123456000 0 ≠ 0 ∧ contribStatus (au [f] [(1024, z .open_)] 1) 1 0x123456000 0 = 0 ∧
      csFree (au [f] [(1024, z .open_)] 1) (homeOf 0x123456000) ≠ 0) ∧
    (tget (au [] [(1024 + 1023, z .applying)] 1).reds.slots (1024 * 1 + 1023) = some (z .applying) ∧ lostRead (au [] [(1024 + 1023, z .applying)] 1) 0x123456000 4 = false ∧ (z .applying).contribs = [] ∧
      lostRead (updMem (au [] [(1024 + 1023, z .applying)] 1) fun m => { m with lost := [(64 * homeOf 0x123456000, lineOf 0x123456000)] }) 0x123456000 4 = true ∧
      readyAll (au [] [(1024 + 1023, z .applying)] 1) 4 0x123456000 4 = true) ∧
    (au [] [] 1).reds.vreps[0]? = some ⟨h0.id.uid, 0, 2⟩ := by decide +kernel

/-- A store and an atomic at the head of their lines, a write-back, a dirty and a missing line snooped, each answer, the scrubber of the last
memory die, a line that the host holds. -/
theorem witness_ReductionAndHomeEventsComplete_homes :
    let s := withStore base
    let r : HomeReq := ⟨50, 0, 0, 9, 1, 0x5000, .auAtomic 1 8 false 1 0, [], .none, false, [], false⟩
    let a := pushReq base r
    let w := updMem base fun m => { m with wbs := [⟨0, 0xA0, [], []⟩] }
    let n := updMem base fun m => { m with snoops := [⟨0, 0xA0⟩], rdc := [] }
    let d := setRdc n 0 0xA0 (some ⟨some [1], [9]⟩)
    let rep (x : SnoopAns) := updMem base fun m => { m with sreps := [⟨0, 0xA0, x, []⟩] }
    let h := updMem base fun m => { m with hostHeld := [(1, 0xA0)] }
    ((s.mem.homeq[0]?.map fun r => canTake s 0 r && !isLost s (lineOf r.pa) && !isAu r) = some true) ∧
    (let l := updMem s fun m => { m with lost := [(64 * homeOf 0x5000, lineOf 0x5000)], homeq := m.homeq.map fun q => { q with data := List.replicate 128 7 } }
     (l.mem.homeq[0]?.map fun r => canTake l 0 r && isLost l (lineOf r.pa) && wholeLine r) = some true) ∧
    (a.mem.homeq[0]? = some r ∧ canTake a 0 r = true ∧ isLost a (lineOf r.pa) = false ∧ isAu r = true) ∧ w.mem.wbs[0]? = some ⟨0, 0xA0, [], []⟩ ∧
    (d.mem.snoops[0]? = some ⟨0, 0xA0⟩ ∧ rdcAt d 0 0xA0 = some ⟨some [1], [9]⟩ ∧ rdcAt n 0 0xA0 = none) ∧
    (rep (.data [1])).mem.sreps[0]? = some ⟨0, 0xA0, .data [1], []⟩ ∧ (rep .miss).mem.sreps[0]? = some ⟨0, 0xA0, .miss, []⟩ ∧
    (rep .wbPending).mem.sreps[0]? = some ⟨0, 0xA0, .wbPending, []⟩ ∧
    ((regD base (mdBase 7 + 0x68) 0x1801).testBit 0 = true ∧ (base.mem.homeq.any fun r => r.kind == .scrub && homeOf r.pa == 7) = false) ∧
    h.mem.hostHeld.contains (1, 0xA0) = true := by decide +kernel

/-- A page that is not cached; a walk at each of its ends; a fault record on its way; notices to a core and to the front end. -/
theorem witness_WalksAndFaultRecordsComplete :
    let x (f : Xlate → Xlate) : State := updXl base f
    let wk (level table vpn : Nat) : Walk := ⟨0, 0, 1, vpn, level, table, [], false, .u, false, false⟩
    let r : SliceRec := ⟨0, 0, 1, 5, true, false, false, [0], false⟩
    let q (b : Bool) : State := setReg (x fun e => { e with fqIn := [r], fq := if b then [⟨1, 5, true, false, false, [0], none⟩] else [] }) rPriStat 0
    (h0.id.asid = 1 ∧ canonical 0x40000000 = true ∧ dataMode h0 ≠ .m ∧ (ctxOf base 1).satp.toNat / 2 ^ 60 = 15 ∧
      ((sliceAt base 0 (sliceOf 0x40000000)).tlb.any (tlbHit 1 (vpnOf 0x40000000))) = false ∧ base.xl.walks = []) ∧
    (match (pteStep (x fun e => { e with walks := [wk 3 loadRoot 0] }) 0 0 1 0 3 loadRoot).1 with
     | .next t _ => t == loadRoot + 4096
     | _ => false) = true ∧
    (match (pteStep base 0 0 1 0 2 (loadRoot + 4096)).1 with
     | .leaf p => p == 0xDF && (permFault p .store .u false false).isNone && (permFault p .load .s false false).isSome && (leafFault 0 2 0 p).isNone
     | _ => false) = true ∧
    (match (pteStep base 0 0 1 0x40000000 3 0x20000).1 with
     | .fault c => c == 0x0101
     | _ => false) = true ∧
    ((x fun e => { e with recs := [r] }).xl.recs[0]? = some r ∧ r.sent = false) ∧
    ((q true).xl.fqIn[0]? = some r ∧ (reg (q true) rPriStat).testBit (xctPort (q true) 1) = false ∧
      ((q true).xl.fq.any fun f => f.asid == 1 && f.vpn == 5) = true ∧ ((q false).xl.fq.any fun f => f.asid == 1 && f.vpn == 5) = false) ∧
    (reg (setReg (q true) rPriStat 3) rPriStat).testBit (xctPort (updXl (setReg (q true) rPriStat 3) fun e => { e with fqIn := [] }) 1) = true ∧
    ((x fun e => { e with notices := [⟨feCore, 1, 5, 0⟩] }).xl.notices[0]? = some ⟨feCore, 1, 5, 0⟩ ∧ (0 : Nat) ≠ feCore) := by decide +kernel

/-- A group of 31 pages that is 460 clk old and one of 32; its response; an ATS request; an invalidation; a shoot-down of the last die and one
with none left, of the scheduler and of a hart. -/
theorem witness_PageRequestsAndShootdownsComplete :
    let g (n : Nat) (sent : Bool) : Group := ⟨0, 1, 1, sent, 0, List.range n, false⟩
    let gs (n : Nat) (sent : Bool) (clk : Nat) : State := setReg { updXl base (fun x => { x with groups := [g n sent] }) with clock := { base.clock with clk := clk } } (rPriAllow 0) 512 |> fun s => setReg s (hpBase 0) (2 ^ 17)
    let sh (uid : Nat) (dies : List Nat) : State := withH (fun h => { h with wait := some (.shoot 7) }) (updXl base fun x => { x with shoots := [⟨7, uid, none, none, dies⟩] })
    let out (s : State) : State := trimGroup (formGroup s 0) 0
    portCanPark (out base) 0 = false ∧ portCanPark (out (gs 32 false 0)) 0 = true ∧ portCanPark (out (gs 1 false 460)) 0 = true ∧
    (((out (gs 32 false 0)).xl.groups.find? fun g => g.port == 0 && !g.sent) = some (g 32 false) ∧ 32 ≤ (g 32 false).pages.length) ∧
    (((out (gs 1 false 460)).xl.groups.find? fun g => g.port == 0 && !g.sent) = some (g 1 false) ∧ (g 1 false).openClk + 460 ≤ (out (gs 1 false 460)).clock.clk) ∧
    allowanceLeft (setReg (gs 2 false 0) (rPriAllow 0) 2) 0 ≤ (g 2 false).pages.length ∧
    (((gs 2 true 0).xl.groups.find? fun g => g.port == 0 && g.sent && g.index == 1) = some (g 2 true)) ∧
    ((updXl base fun x => { x with atsReqs := [⟨0, 1, 10, true⟩] }).xl.atsReqs.find? fun r => r.port == 0 && r.asid == 1 && r.page == (0xA000 : Word).toNat / 4096) =
      some ⟨0, 1, 10, true⟩ ∧
    ((base.xl.invs.filter fun v => v.port == 1).length < 32 ∧ (base.mem.out.filter fun o => o.port == 1) = [] ∧ postsLeft base 1 (fun _ _ => true) = false) ∧
    (((sh 0 [3]).xl.shoots.find? fun q => q.id == 7) = some ⟨7, 0, none, none, [3]⟩ ∧ dieQuiet (sh 0 [3]) 3 none = true) ∧
    (((sh 0 []).xl.shoots.find? fun q => q.id == 7) = some ⟨7, 0, none, none, []⟩ ∧ iodQuiet (sh 0 []) none = true) ∧
    (h0.id.uid ≠ 0 ∧ slotOfUid (sh h0.id.uid []) h0.id.uid = some 0 ∧ (hOf (sh h0.id.uid [])).wait = some (.shoot 7)) ∧ 1 < 2 := by decide +kernel

/-- A state with queue 0 of context 1 in READY, linked, and one command, with the words ws, at its head. -/
def queued (ws : List Nat) (st : Nat) : State :=
  let put (s : State) (p : Nat × Nat) : State := homeWrite s 0 p.1 (leBytes 8 p.2)
  let s := ten (setReg (setReg (setReg base 0x8 0x20000) 0x10 0x24000) 0x68 0x21000)
  let s := ([(0x20000, 0x21001), (0x21008, 0x22000), (0x21010, 0x40020), (0x21018, 0x23000), (0x21028, 1), (0x21040, st), (0x24040, 0x10),
    (0x24048, 0x1000000), (0x24050, 1024)]).foldl put s
  updQueue (setWalk (homeWrite s 0 0x22000 (ws.flatMap (leBytes 8))) 5 0x21000) 0 id

/-- The check of `HeadReady`, and that it gives it. -/
def isOk (r : FeRead) (bs : List Byte) : Bool := match r with
  | .ok b => b == bs
  | _ => false
theorem isOk_iff {r : FeRead} {bs : List Byte} (h : isOk r bs = true) : r = .ok bs := by
  cases r <;> simp_all [isOk]
def headState (s : State) (q qcb : Nat) : State := takeTurn (headRead (takeNotes s) q qcb).2 qcb
def headOk (s : State) (q op qcb : Nat) (bs : List Byte) : Bool :=
  decide (qFree s q = true ∧ lostRead (takeNotes s) qcb 256 = false ∧ qcbOf s q = some qcb ∧ mayTake (takeNotes s) q qcb = true ∧ stopHit (takeNotes s) q qcb = none ∧
    ((queueAt (takeNotes s) q).ibs ≠ [] ∨ ringHead (takeNotes s) qcb ≠ qW (takeNotes s) qcb 0x28) ∧
    (ringHead (takeNotes s) qcb + 2 ^ 64 - qW (takeNotes s) qcb 0x38) % 2 ^ 64 < qCrSize (qW (takeNotes s) qcb 0x10) ∧
    isOk (headRead (takeNotes s) q qcb).1 bs = true ∧ cw bs 0 % 256 = op ∧ cmdBad bs = false ∧
    ((cw bs 0).testBit 10 = true → (queueAt (takeNotes s) q).cmds.all (cmdDone (headState s q qcb)) = true))

theorem headReady_of {s : State} {q op qcb : Nat} {bs : List Byte} (h : headOk s q op qcb bs = true) :
    HeadReady s q op qcb bs (headState s q qcb) := by
  obtain ⟨g1, g2, h1, h2, h3, h4, h5, h6, h7, h8, h9⟩ := of_decide_eq_true h
  exact ⟨g1, g2, h1, h2, h3, h4, h5, isOk_iff h6, rfl, h7, h8, h9⟩

/-- Each command at the head of a queue, with what it reads and where it stores. -/
theorem witness_QueueCommandsComplete_heads :
    let b (ws : List Nat) : List Byte := (ws ++ List.replicate (8 - ws.length) 0).flatMap (leBytes 8)
    let ok (op : Nat) (ws : List Nat) : Bool := headOk (queued ws 2) 0 op 0x21000 (b ws)
    let u (ws : List Nat) : State := headState (queued ws 2) 0 0x21000
    let rd (ws : List Nat) (n : Nat) : Option (List Byte) := match (feRead (u ws) 0 false 1 (BitVec.ofNat 64 (ws.getD 1 0)) n).1 with
      | .ok d => some d
      | _ => none
    let at_ (ws : List Nat) (a : Acc) : Bool := match (feLocate (u ws) 0 0x21000 1 (BitVec.ofNat 64 (ws.getD 1 0)) a).1 with
      | .at_ (.hbm pa _) => pa == ws.getD 1 0
      | _ => false
    headAsid (queued [0] 2) 0x21000 = 1 ∧ ((queueAt (u [0]) 0).cmds.all (cmdDone (u [0]))) = true ∧
    ((queueAt (queued [0] 2) 0).cmds.find? copying) = none ∧ (queueAt (u [0]) 0).ibs.length < 4 ∧
    (ok 0 [0] && ok 0 [0x400] && ok 8 [8] && ok 3 [3, 0x5000, 0x6000, 64] && ok 4 [4, 0x5000, 7, 0] && ok 4 [4, 0x5000, 7, 1] && ok 7 [7, 0x5000] &&
      ok 5 [5, 0x5000, 0, 0xFF, 0] && ok 5 [5, 0x5000, 1, 0xFF, 0] && ok 6 [6, 0x5000, 1]) = true ∧
    (at_ [4, 0x5000, 7, 0] .store && at_ [4, 0x5000, 7, 1] .amo && at_ [7, 0x5000] .store) = true ∧
    rd [5, 0x5000] 8 = some (leBytes 8 0) ∧ waitHolds 0 0 0 0xFF = true ∧ waitHolds 0 0 1 0xFF = false := by decide +kernel

theorem witness_QueueCommandsComplete_headReady : ∃ s bs u, HeadReady s 0 0 0x21000 bs u :=
  ⟨queued [0] 2, _, _, headReady_of (bs := List.replicate 64 0) (by decide +kernel)⟩

/-- A launch and a gang launch whose descriptors pass, a COPY under way, a queue that waits, and a command that is complete. -/
theorem witness_QueueCommandsComplete_launches :
    let desc (gang : Nat) : List Byte := leBytes 8 0x4000 ++ [1, 0, 16, 0, 0, 0] ++ leBytes 2 gang ++ leBytes 8 1 ++ leBytes 40 0
    let s (op gang : Nat) : State := homeWrite (queued [op, 0x5000, 0, 1000, 1000] 2) 0 0x5000 (desc gang)
    let b (op : Nat) : List Byte := [op, 0x5000, 0, 1000, 1000, 0, 0, 0].flatMap (leBytes 8)
    let ok (op gang : Nat) : Bool :=
      let u := headState (s op gang) 0 0x21000
      let r := feRead u 0 false 1 0x5000 64
      let g := queueGrid r.2 0 0 0x21000 1 (b op) (desc gang)
      headOk (s op gang) 0 op 0x21000 (b op) && (match r.1 with
        | .ok d => d == desc gang
        | _ => false) && (descBad (desc gang) (some (gang == 1))).isNone && ctxFree r.2 1 && !gangHomeWaits r.2 g && tenantCores r.2 g.tenant != [] &&
      (launchReject r.2 g.tenant g.cls g.level g.release g.dline g.budget g).isNone
    let c : FeCmd := { ring := 0, op := 3, stop := false, run := .copy 0x5000 0x6000 64 [], status := 0, reject := 0, info := 0, fcode := 0 }
    let cp := updQueue (queued [0] 2) 0 fun x => { x with cmds := [c] }
    let wt := updQueue (queued [5, 0x5000, 0, 0xFF, 0] 3) 0 fun x => { x with waiting := true }
    let dn := updQueue (queued [0] 2) 0 fun x => { x with recs := [(9, 0)], cmds := [{ c with ring := 9, op := 0, run := .done }] }
    (ok 1 0 && ok 2 1) = true ∧
    (qcbOf cp 0 = some 0x21000 ∧ qFree cp 0 = true ∧ qFree dn 0 = true ∧ (queueAt cp 0).cmds.find? copying = some c ∧ (queueAt (takeNotes cp) 0).cp.page = none ∧ ctxDead (takeNotes cp) 1 = false) ∧
    ((queueAt wt 0).waiting = true ∧ headOk (updQueue wt 0 fun x => { x with waiting := false }) 0 5 0x21000 ([5, 0x5000, 0, 0xFF, 0, 0, 0, 0].flatMap (leBytes 8)) = true) ∧
    ((queueAt dn 0).recs = [(9, 0)] ∧ ((ringDone dn 0x21000 (queueAt dn 0) 9).map (·.status)) = some 0 ∧ stopHit dn 0 0x21000 = none) ∧
    (let bad := updQueue dn 0 fun x => { x with recs := [(9, 2 ^ 9)], cmds := [{ c with ring := 9, op := 0, run := .done, status := 0x13 }] }
     (queueAt bad 0).recs = [(9, 2 ^ 9)] ∧ ((ringDone bad 0x21000 (queueAt bad 0) 9).map (·.status)) = some 0x13 ∧
     stopHit bad 0 0x21000 = some (9, 0x13) ∧ qState bad 0x21000 = 2) := by decide +kernel

/-- A doorbell at the end of its range in each state that takes one, and a queue in each state that a control register acts on. -/
theorem witness_QueueControlCompletes :
    let s (st : Nat) : State := queued [0] st
    qcbOf (s 0) 0 = some 0x21000 ∧ qFree (s 0) 0 = true ∧ qFree (s 2) 0 = true ∧ portDrained (s 1) 0 = true ∧ isFatal (s 1) = false ∧ (16 : Nat) < 2 ^ 64 ∧
    ([1, 2, 3, 5].all fun st => qState (s st) 0x21000 == st && decide ((16 + 2 ^ 64 - qW (s st) 0x21000 0x20) % 2 ^ 64 ≤ qSize (qW (s st) 0x21000 0x10)) &&
      decide ((16 + 2 ^ 64 - qW (s st) 0x21000 0x28) % 2 ^ 64 ≤ qSize (qW (s st) 0x21000 0x10))) = true ∧
    (qState (s 0) 0x21000 = 0 ∧ qcbOk (s 0) 0 0x21000 = true) ∧ qState (s 4) 0x21000 = 4 ∧ noneOutstanding (s 4) (queueAt (s 4) 0) = true ∧
    (queueAt (updQueue (s 2) 0 fun x => { x with disabling := true }) 0).disabling = true ∧
    (let none_ := updFe (setReg (s 2) (0xC0 + 8 * 8) 0) fun x => { x with walks := tput x.walks 8 (0, 0) }
     let due : State := { none_ with clock := { none_.clock with time := 1000 } }
     (walkAt due 8).1 = 0 ∧ rlHead due 8 = 0 ∧ (walkAt due 8).2 + 1000 ≤ timeNow due) ∧
    ((walkAt (s 3) 5).1 = 0x21000 ∧ homeFree (s 3) 0x21000 8 = true ∧ servedAt (s 3) 5 0x21000 = false ∧ servedAt (s 2) 5 0x21000 = true) := by decide +kernel

/-- A grid still to be placed, alone and as a gang; one that is done; its queue, its launch message and a child's request; a commit, an
image, and a grid that retires into a queue and into a team. -/
theorem witness_PlacementAndTenantsComplete :
    let spec (gang : Bool) : TeamSpec := { loadSpec with tiles := 0, vregs := 16, gang := gang, teams := if gang then 1 else 2 }
    let g (gang placed : Bool) : Grid := { loadGrid (spec gang) with num := 12, placed := placed, origin := .queue 0 0, liveTeams := 0, nextTeam := 0 }
    let add (s : State) (x : Grid) : State := { s with work := { s.work with grids := tput s.work.grids 77 x } }
    let s (gang : Bool) : State := add (queued [0] 3) (g gang false)
    let may (gang : Bool) : Bool := mayPlace (s gang) (g gang false) && !outrankedGrid (s gang) 77 (g gang false) && !savedFirst (s gang) (g gang false) &&
      (match (dataHome (s gang) (g gang false)).1 with
       | .any => true
       | _ => false) && decide (recUnits (spec gang) ≤ saveUnits (dataHome (s gang) (g gang false)).2 1)
    let tk := (base.work.teams.map (·.1)).headD 0
    let t := withTeam (fun t => { t with grid := 77, stat := .placed }) (s false)
    let cm := setReg (queued [0] 1) (tenRectReg 0) 0x1E28
    tget (s false).work.grids 77 = some (g false false) ∧ (may false && may true) = true ∧
    (bestClaim (dataHome (s false) (g false false)).2 77 (g false false) none (List.range 1) none).isSome = true ∧
    (allocRec (dataHome (s false) (g false false)).2 1 (recUnits (spec false))).isSome = true ∧
    (spec true).dataOk = false ∧ (placeGang 77 none 1 (dataHome (s true) (g true false)).2).isSome = true ∧
    (queueAt (updQueue (s false) 0 fun x => { x with placing := some 77 }) 0).placing = some 77 ∧ qcbOf (s false) 0 = some 0x21000 ∧ qFree (s false) 0 = true ∧ ctxFree t 1 = true ∧ homeFree base (reg base 0x180) 0x1170 = true ∧
    (tget t.work.teams tk).any (fun m => !gangHomeWaits t (askedGrid ⟨h0.id.uid, 0, 5, tk, leBytes 64 0⟩ m (g false false))) = true ∧
    (g false false).release ≤ timeNow (s false) ∧ (g false true).placed = true ∧
    ((updFe t fun x => { x with lmsgs := [tk] }).fe.lmsgs[0]? = some tk ∧ ((tget t.work.teams tk).map fun t => decide (t.grid = 77 ∧ t.stat = .placed)) = some true) ∧
    ((updFe t fun x => { x with greqs := [⟨h0.id.uid, 0, 5, tk, []⟩] }).fe.greqs[0]? = some ⟨h0.id.uid, 0, 5, tk, []⟩) ∧
    ((16 : Nat).testBit 4 = true ∧ commitResult cm (16 % 16) = 0 ∧ commitResult (setReg cm (tenRectReg 1) 0x1E28) 1 ≠ 0) ∧
    (updFe base fun x => { x with commit := [(0, 5)] }).fe.commit = [(0, 5)] ∧ 1 % 2 = 1 ∧ reg base 0x190 ≠ 1 ∧
    (updFe base fun x => { x with patchNext := some [] }).fe.patchNext = some [] ∧
    ((g false true).retired = false ∧ (g false true).liveTeams = 0 ∧ (g false true).children = 0 ∧ missDue (add base (g false true)) (g false true) = false ∧ zeroDue (add base (g false true)) 77 (g false true) = false ∧
      (tget t.work.teams tk).isSome = true) := by decide +kernel

/-- Each request at its limits: a write that ends at the end of HBM and one past it, reads and AtomicOps, a piece that may go and its answer, the
CXL window. -/
theorem witness_InboundTrafficCompletes :
    let up := setReg base (hpBase 0) 1
    let cxl := setReg (setReg base (hpBase 0) 2) (hdmWin 0) (1 + 2 ^ 24)
    let r (k : InKind) : InReq := ⟨5, 0, 0, 0, false, 0x5000, k, false⟩
    let s (k : InKind) : State := updHp up fun h => { h with inq := [r k] }
    let w := updMem (s (.piece [1])) fun m => { m with replies := [⟨.piece 0 5, 0, false⟩] }
    let lost := updMem (s (.piece [1])) fun m => { m with lost := [(64 * homeOf 0x5000, lineOf 0x5000)] }
    (hpMode up 0 ≠ 0 ∧ [1, 2, 3] ≠ [] ∧ [1, 2, 3].length ≤ maxPayload up 0 ∧ maxPayload up 0 < (List.replicate 129 0).length) ∧ hbmEnd - 8 + 8 ≤ hbmEnd ∧ hbmEnd < hbmEnd - 7 + 8 ∧ ecrcFails 0xFFFF = false ∧ ecrcFails 0x10000 = true ∧ mmioFree (s (.read 0 8)) 0 0x5000 0 = true ∧
    mmioFree (s (.read 0 8)) 0 0x5000 (leNat [1, 2, 3, 4, 5, 6, 7, 8]) = true ∧ 8 % 8 = 0 ∧ 7 ∈ [0, 1, 7] ∧ 2 ∉ [0, 1, 7] ∧ 8 ∈ [4, 8] ∧
    ([.piece [1], .mmio 0 [1, 2, 3, 4, 5, 6, 7, 8], .read 0 8, .read 4 8, .atomic 1 8 1 0].all fun k => (s k).hp.inq[0]? == some (r k) && !(r k).sent && mayGo (s k) 0 (r k)) = true ∧
    anyLost (s (.piece [1])) 0x5000 1 = false ∧ (anyLost lost 0x5000 1 = true ∧ 1 < 128 ∧ mayGo lost 0 (r (.piece [1])) = true) ∧ (readHome (s (.read 4 8)) 0x5000 8).isSome = true ∧ 0x5000 + 8 ≤ hbmEnd ∧ 0x5000 % 8 = 0 ∧
    (w.hp.inq[0]? = some (r (.piece [1])) ∧ (w.mem.replies.find? fun q => q.to_ == .piece 0 5) = some ⟨.piece 0 5, 0, false⟩) ∧
    (hpMode cxl 0 = 2 ∧ inHdm cxl 0 0xFFFFFC0 = true ∧ 0xFFFFFC0 % 64 = 0 ∧ isLost cxl (lineOf 0xFFFFFC0) = false ∧ (readHome cxl 0xFFFFFC0 64).isSome = true) := by decide +kernel

/-- A request that is out, with a read and an AtomicOp; links down and up; an idle function. -/
theorem witness_HostPortEventsComplete :
    let o (a : Option (Nat × Nat × Nat)) : OutReq := ⟨5, 0, 1, h0.id.uid, 0x123000, 8, a, false, .none, 0⟩
    let s (a : Option (Nat × Nat × Nat)) (clk : Nat) : State := { updMem base (fun m => { m with out := [o a] }) with clock := { base.clock with clk := clk } }
    ((s none 0).mem.out.find? fun o => o.id == 5 && o.port == 0 && outSent (s none 0) o) = some (o none) ∧ (o none).atomic = none ∧ (leBytes 8 0).length = (o none).size ∧
    ((s (some (1, 1, 0)) 0).mem.out.find? fun o => o.id == 5 && o.port == 0 && outSent (s none 0) o) = some (o (some (1, 1, 0))) ∧ (o (some (1, 1, 0))).atomic ≠ none ∧
    (o none).clk + regD (s none 90000000) (hpCto 0) 50000 * 1800 ≤ (s none 90000000).clock.clk ∧
    (hpMode base 0 = 0 ∧ base.booted = true ∧ 16 ∈ [1, 2, 4, 8, 16] ∧ 128 ∈ [2, 5, 8, 16, 32, 64, 128] ∧ ¬ ((reg base pfBoot).testBit 14 = true)) ∧
    hpMode (setReg base (hpBase 1) 1) 1 ≠ 0 ∧ base.fe.queues = [] ∧ liveAsids State.reset = [] ∧ 2047 < 2048 := by decide +kernel

/-- A port that is up with a descriptor of the shortest length at TX_HEAD, each stage of its write-back, each register at its bounds. -/
theorem witness_EthernetTransmitAndClocksComplete :
    let up := setReg (setReg (setReg (homeWrite base 0 0x5008 (leBytes 2 60)) (ethReg 3 0) 1) (ethReg 3 0x80) 0x5000) (ethReg 3 0x88) 16
    let s := setReg up (ethReg 3 0x90) 1
    let tx (st : Nat) := updEth s 3 fun x => { x with tx := some ⟨0, none, false, st, []⟩ }
    let d := peekHome s (reg s (ethReg 3 0x80) + 32 * (reg s (ethReg 3 0x98) % txSlots s 3)) 32
    (ethUp s 3 = true ∧ (reg s (ethReg 3 0x88)).testBit 4 = true ∧ reg s (ethReg 3 0x98) < reg s (ethReg 3 0x90) ∧ (ethAt s 3).tx = none ∧
      homeFree s 0x5000 32 = true ∧ homeFree s (leNat ((d.drop 0).take 8)) 60 = true ∧ homeFree (tx 1) 0x500A 1 = true ∧ 60 ≤ leNat ((d.drop 8).take 2) ∧ leNat ((d.drop 8).take 2) + 4 ≤ maxFr s 3) ∧
    ([0, 1, 2].all fun st => (ethAt (tx st) 3).tx == some ⟨0, none, false, st, []⟩) = true ∧
    (reg s (ethReg 3 0x90) ≤ 16 ∧ 16 ≤ reg s (ethReg 3 0x98) + txSlots s 3) ∧ ((reg base (ethReg 0 0x88)).testBit 4 = false ∧ 8 % 16 < 9 ∧ (8 : Nat).testBit 4 = false) ∧
    (reg base (rgReg 0 15 0x18) ≤ 0 ∧ 0 ≤ reg base (rgReg 0 15 0x20)) ∧ (reg (setReg base (rgReg 0 15 0x10) (2 ^ 24)) (rgReg 0 15 0x10)).testBit 24 = true ∧
    (ethAt { base with clock := { base.clock with clk := 1800 } } 0).sampled + 1800 ≤ 1800 ∧ base.booted = true ∧ (reg base pfBoot).testBit 16 = false := by decide +kernel

/-- A multicast frame of 64 bytes for a ring, one for another station, one with a bad check sequence. -/
theorem witness_EthernetReceiveCompletes_frames :
    let up := setReg (setReg (setReg base (ethReg 0 0) 1) (ethReg 0 8) 0x12400) (ethReg 0 0x10) 0x112233445566
    let f (d : Byte) : List Byte := let b := d :: (List.replicate 11 0 ++ [0x88, 0xB5] ++ List.replicate 46 0); b ++ leBytes 4 (crc32 b)
    let t := ethCount up 0 0x100
    let p := parseFrame (f 1)
    (ethUp up 0 = true ∧ crc32 ((f 1).take 60) = leNat ((f 1).drop 60) ∧ (f 1).length = 64 ∧ (f 1).length ≤ maxFr t 0 ∧ isPause (f 1) p = false ∧ sumsOk (f 1) p = true) ∧
    (forUs t 0 (f 1) = true ∧ isRoce t 0 (f 1) p = false ∧ takeFilter t 0 (f 1) p = some (0xFF, 0) ∧ bitsOf 0 4 2 ≠ 3) ∧
    (forUs t 0 (f 0) = false ∧ crc32 ((f 0).take 60) = leNat ((f 0).drop 60)) ∧
    (let b : List Byte := [1] ++ List.replicate 11 0 ++ [0x88, 0x08, 0, 1] ++ List.replicate 44 0
     let q := b ++ leBytes 4 (crc32 b)
     crc32 (q.take 60) = leNat (q.drop 60) ∧ isPause q (parseFrame q) = true) ∧
    crc32 ((List.replicate 64 (0 : Byte)).take 60) ≠ leNat ((List.replicate 64 (0 : Byte)).drop 60) := by decide +kernel

/-- A job at each of its stages, for each action, and a queue of its context that can take an Ibex launch. -/
theorem witness_EthernetReceiveCompletes_jobs :
    let j (st act : Nat) : RxJob := ⟨0, 0, st, [], 16 * act, 0, List.replicate 28 0⟩
    let s0 := setReg (homeWrite (queued [0] 1) 0 0x21010 (leBytes 8 0x40000)) (rgReg 0 0 0x10) 0x100
    let s (st act : Nat) : State := updEth s0 0 fun x => { x with rx := [j st act] }
    ([4, 0, 5].all fun st => (ethAt (s st 1) 0).rx[0]? == some (j st 1) && !((ethAt (s st 1) 0).rx.take 0).any (underWay 0) && (j st 1).reqs.all (reqDone (s st 1))) = true ∧
    (rxAt (s 1 1) 0 0 1 = some (j 1 1) ∧ rxAct (j 1 1) = 1 ∧ buffered64 (s 1 1) [] (ethAt (s 1 1) 0).imms < 64 ∧ ctxFree (s 1 1) (rgAsid (s 1 1) 0 0) = true) ∧
    (rxAt (s 1 2) 0 0 1 = some (j 1 2) ∧ rxAct (j 1 2) = 2 ∧ earlierLaunch (s 1 2) 0 0 = false ∧ qFree (s 1 2) (launchQid (s 1 2) 0 (j 1 2)) = true ∧
      homeFree (s 1 2) (tgReg (s 1 2) 0 (j 1 2) 0) 64 = true ∧ launchQueue (s 1 2) 0 (j 1 2) ≠ none) ∧
    (rxAt (s 2 2) 0 0 2 = some (j 2 2) ∧ qFree (s 2 2) (launchQid (s 2 2) 0 (j 2 2)) = true ∧ qcbOf (s 2 2) (launchQid (s 2 2) 0 (j 2 2)) = some 0x21000) ∧
    (rxAt (s 3 2) 0 0 3 = some (j 3 2) ∧ qFree (s 3 2) (launchQid (s 3 2) 0 (j 3 2)) = true ∧ launchQueue (s 3 2) 0 (j 3 2) ≠ none) := by decide +kernel

/-- Pair 0 of port 3 in `st`, its entry as the table holds it, with a READ (`op` 2) or a WRITE of 1,024 bytes at the head of its ring and a key that allows
both. -/
def roce (st op : Nat) (f : Qp → Qp) : State :=
  let qp : Qp := { head := 0, tail := 1, cq := 0, psn := 0, retries := 0, since := 0, work := [], epsn := 5, nakOut := false, wrs := [], acks := [],
                   ent := leBytes 1 st ++ [1] ++ leBytes 2 1 ++ leBytes 20 0 ++ leBytes 8 0x31000 ++ leBytes 32 0 }
  let s0 := setReg (setReg (setReg (setReg (setReg (setReg base (ethReg 3 0) 1) (ethReg 3 0xC00) 0x30000) (ethReg 3 0xC08) 1) (ethReg 3 0xC10) 0x32000)
    (ethReg 3 0xC18) 1) (ethReg 3 8) (0x2400 + 2 ^ 24)
  let s1 := homeWrite (homeWrite (homeWrite s0 0 0x30000 qp.ent) 0 0x31000 (leBytes 8 op ++ leBytes 8 0x5000 ++ leBytes 4 1024)) 0 0x32000
    (leBytes 8 0x5000 ++ leBytes 8 4096 ++ leBytes 2 1 ++ [7] ++ leBytes 5 0)
  updEth s1 3 fun x => { x with qps := [(0, f qp)] }

/-- The parts of a range are known. -/
def partsOk (r : RcRange × State) : Bool := match r.1 with
  | .ok _ => true
  | _ => false

/-- A doorbell at and past the end of a queue of 16; a READ and a WRITE at the head; a pair in ERROR. -/
theorem witness_RoceEventsComplete :
    let c (s : State) : State := updQp s 3 0 fun x => { x with ent := peekHome s (qpAt s 3 0) 64 }
    let s := roce 1 2 id
    (0 < reg s (ethReg 3 0xC08) ∧ homeFree s (qpAt s 3 0) 64 = true ∧ qpBad (c s) 3 0 = false ∧ qpState (c s) 3 0 ≠ 0) ∧
    (let x := qpOf (c s) 3 0
     let more (v : Nat) : Nat := (v + 2 ^ 32 - x.tail % 2 ^ 32) % 2 ^ 32
     x.tail + more 16 - x.head ≤ 2 ^ (qpField (c s) 3 0 0x14 1 + 4) ∧ 2 ^ (qpField (c s) 3 0 0x14 1 + 4) < x.tail + more 17 - x.head) ∧
    ([(1, 2), (1, 0), (2, 2)].all fun p =>
      let s := roce p.1 p.2 id
      let w := readWork s 3 0 0
      qpLive s 3 0 && decide ((qpOf s 3 0).head < (qpOf s 3 0).tail) && homeFree s (workAt s 3 0 0) 64 && qpState s 3 0 == p.1 && !workBad s 3 0 0 && w.op == p.2 &&
      !((qpOf s 3 0).work.any fun v => v.op != 2 && !v.acked) && partsOk (rcParts s (qpAsid s 3 0) w.lva w.len (if w.op = 2 then .store else .load))) = true := by
  decide +kernel

/-- A WRITE and a READ under way, each of one packet; retries at their bounds. -/
theorem witness_RoceResponsesComplete :
    let w (op : Nat) : QpWork := { j := 0, op := op, signal := false, first := 7, last := 7, lva := 0x5000, len := 4, moved := 0, reqs := [], acked := false, status := 0 }
    let s (op : Nat) : State := roce 1 0 fun x => { x with work := [w op] }
    let late (n : Nat) : State := { roce 1 0 (fun x => { x with work := [w 0], retries := n }) with clock := { base.clock with clk := 117000 } }
    (qpLive (s 0) 3 0 = true ∧ ethUp (s 0) 3 = true ∧ roceOn (s 0) 3 = true ∧ 0 < reg (s 0) (ethReg 3 0xC08)) ∧
    ((qpOf (s 0) 3 0).work.find? fun v => !v.acked && holdsPsn v 7) = some (w 0) ∧
    (qpLive (s 2) 3 0 = true ∧ qpState (s 2) 3 0 = 1 ∧ ((qpOf (s 2) 3 0).work.find? fun v => v.op == 2 && !v.acked) = some (w 2) ∧
      7 = ((w 2).first + (w 2).moved / qpMtu (s 2) 3 0) % 2 ^ 24 ∧ [1, 2, 3, (4 : Byte)].length = min (qpMtu (s 2) 3 0) ((w 2).len - (w 2).moved) ∧
      partsOk (rcParts (s 2) (qpAsid (s 2) 3 0) 0x5000 4 .store) = true) ∧
    ([6, 7].all fun n => qpLive (late n) 3 0 && ((qpOf (late n) 3 0).work.find? fun v => !v.acked) == some (w 0) &&
      decide ((qpOf (late n) 3 0).since + 117000 ≤ (late n).clock.clk) && (qpOf (late n) 3 0).retries == n) = true := by decide +kernel

/-- Requests of the PSN expected and past it, of a pair that is ready and of one that is not; a write with Immediate. -/
theorem witness_RoceRequestsComplete :
    let c (s : State) : State := updQp s 3 0 fun x => { x with ent := peekHome s (qpAt s 3 0) 64 }
    let s := roce 1 0 id
    let u := acksOut (c s) 3 0
    let v := updQp u 3 0 fun x => { x with wrs := (5, 0x5000, 0, 4) :: x.wrs }
    let i : ImmJob := { qp := 0, psn := 5, imm := 7, len := 8, reqs := [], dts := 0 }
    let m := updEth s 3 fun x => { x with imms := [i] }
    (ethUp s 3 = true ∧ roceOn s 3 = true ∧ 0 < reg s (ethReg 3 0xC08) ∧ homeFree s (qpAt s 3 0) 64 = true ∧ qpBad (c s) 3 0 = false ∧ qpState (c s) 3 0 = 1) ∧
    (homeFree (roce 2 0 id) (qpAt (roce 2 0 id) 3 0) 64 = true ∧ qpBad (c (roce 2 0 id)) 3 0 = false ∧ qpState (c (roce 2 0 id)) 3 0 = 2) ∧
    (5 % 2 ^ 24 = (qpOf u 3 0).epsn ∧ homeFree u (mrAt u 3 0) 32 = true ∧ keyOk u 3 0 0 0x5000 4 false = true ∧ partsOk (rcParts u (qpAsid u 3 0) 0x5000 4 .load) = true) ∧
    ([1, 2, 3, (4 : Byte)].length = 4 ∧ 4 ≤ qpMtu v 3 0 ∧ homeFree v (mrAt v 3 0) 32 = true ∧ keyOk v 3 0 0 0x5000 4 true = true ∧
      partsOk (rcPartsOf v (qpAsid v 3 0) 0x5000 4 0 4 .store) = true) ∧
    (6 % 2 ^ 24 ≠ (qpOf u 3 0).epsn ∧ psnAfter (qpOf u 3 0).epsn 6 = false ∧ (qpOf u 3 0).nakOut = false) ∧
    ((ethAt m 3).imms[0]? = some i ∧ i.reqs.all (reqDone m) = true ∧ (((ethAt m 3).imms.take 0).any fun k => k.qp == i.qp) = false ∧
      ctxFree m (qpAsid m 3 0) = true ∧ buffered64 m (ethAt m 3).rx [] < 64) := by decide +kernel

/-- An account at 0 and one whose grace is over; a deadline that has come; an Ibex grid that fits no core while a team holds its windows; a team of
an evicted context; an ended window; an event with room for one record; the registers at their bounds. -/
theorem witness_SchedulerEventsComplete :
    let ac : Acct := { asid := 1, team := none, units := 0, unlimited := false, carry := 0, graceEnd := none, closed := false }
    let s (a : Acct) : State := { base with work := { base.work with accts := [(0, a)] } }
    let due : Grid := { loadGrid loadSpec with dline := 0 }
    let ibex : Grid := { loadGrid { loadSpec with tiles := 0, vregs := 16, windows := 1 } with cls := 0, placed := false, origin := .queue 0 0, dline := 5 }
    let full := updFe { withTeam (fun t => { t with wins := List.range 176 }) base with work :=
      { (withTeam (fun t => { t with wins := List.range 176 }) base).work with grids := tput base.work.grids 77 ibex } } fun x => { x with rect := [(0, 0x1000)] }
    let tk := (base.work.teams.map (·.1)).headD 0
    let ev := updCtx base 1 fun c => { c with hold := true }
    let win := withTeam (fun t => { t with yieldEnd := some 8 }) { base with clock := { base.clock with clk := 9 } }
    let e : EvtRec := { type := 6, asid := 1, grid := 1, pa := 0, team := 0, core := 0xFF }
    let evs := { setReg (setReg base evtCfg 16) evtTail 15 with sch := { base.sch with evq := [e] } }
    let rel := withTeam (fun t => { t with handOver := true, stat := .saved }) base
    (atZero ac = true ∧ tget (s ac).work.accts 0 = some ac) ∧
    ((s { ac with graceEnd := some 0 }).harts.filter fun p => p.2.id.acct == 0).any (fun p => p.2.capture.isNone) = true ∧
    (due.missed = false ∧ due.retired = false ∧ due.dline < 2 ^ 64 - 1 ∧ due.dline ≤ timeNow base) ∧
    (tget full.work.grids 77 = some ibex ∧ mayPlace full ibex = true ∧ ibex.cls = 0 ∧ outrankedGrid full 77 ibex = false ∧ (match (dataHome full ibex).1 with
      | .any => true
      | _ => false) = true) ∧
    (bestClaim (dataHome full ibex).2 77 ibex none (List.range 1) none = none ∧ victimsFor (dataHome full ibex).2 77 ibex none = some [tk]) ∧
    ((tget ev.work.teams tk).any fun t => mustLeave ev t) = true ∧
    ((teamOf win (hOf win)).any fun t => t.yieldEnd == some 8 && t.stat == .live) = true ∧ 8 < slotClk win 0 ∧
    (evs.sch.evq = [e] ∧ evs.sch.evReqs = [] ∧ (linesOf (reg evs evtBase + 32 * (15 % evtSize evs)) 32).any (mustQueue evs) = false ∧ (reg evs evtCfg).testBit 4 = true ∧ reg evs evtTail < reg evs evtHead + evtSize evs) ∧
    ((teamOfRec rel (bitsOf (0x100000 + 1) 16 36 * 65536)).any fun p => p.2.handOver && p.2.stat != .restoring) = true ∧
    ((tget (withTeam (fun t => { t with released := true }) rel).work.teams tk).any fun t => t.stat != .restoring && t.handOver && t.released &&
      !(rel.sch.evq.any fun e => e.pa == t.recPa && (e.type == 2 || e.type == 3))) = true ∧
    ((0x40000 : Nat).testBit 18 = true ∧ (reg base schShstat).testBit 0 = false) ∧ (reg evs evtHead ≤ 15 ∧ 15 ≤ reg evs evtTail) ∧
    ((reg base evtCfg).testBit 4 = false ∧ 24 % 16 < 9 ∧ (24 : Nat).testBit 4 = true) := by decide +kernel

/-- A team whose harts can be captured and one whose saved state is written; a saved team that finds a place and one whose harts start
again; a handler to capture and a saved handler. -/
theorem witness_CaptureAndReturnComplete :
    let s (st : TeamStat) (told : Nat) : State := withTeam (fun t => { t with stat := st, told := told }) (queued [0] 2)
    let z (f : Hart → Hart) : SavedHart := { hart := f h0, slot := 0, pa := 0x100000, freed := false, claimed := false }
    let away (st : TeamStat) (f : Hart → Hart) : State := let u := s st 1
      { u with harts := [], work := { u.work with saves := [(h0.id.uid, z f)] } }
    let tk := (base.work.teams.map (·.1)).headD 0
    let hd := withH (fun h => { h with id := { h.id with handler := true, team := 5, uid := 40 }, capture := some 0 }) (queued [0] 2)
    let g0 (s : State) : Grid := (s.work.grids.map (·.2)).headD (loadGrid loadSpec)
    let t0 (s : State) : List Team := (s.work.teams.map (·.2)).take 1
    ((tget (s .capturing 0).work.teams tk).any fun t => t.stat == .capturing && gridOf (s .capturing 0) t == some (g0 base) && !ctxDead (s .capturing 0) t.asid && ctxFree (s .capturing 0) t.asid) = true ∧
    (((hartsOf (s .capturing 0) tk).all fun p => atBoundary (s .capturing 0) p.1 p.2 && p.2.vbad.isEmpty) && (hartsOf (s .capturing 0) tk).length == 1 &&
      (captureList (s .capturing 0) (hartsOf (s .capturing 0) tk) []).isSome) = true ∧
    ((t0 (away .saving id)).any fun t => t.stat == .saving && t.told == 1 && !evPending (away .saving id) t.recPa) = true ∧
    ((savesOf (away .saving id) tk).any fun p => !savePerformed (away .saving id) p.2) = false ∧ (savesOf (away .saving id) tk).length = 1 ∧
    ((t0 (away .saved id)).any fun t => mayReturn (away .saved id) t && noCommit (away .saved id) (g0 base).tenant &&
      !outrankedGrid (away .saved id) t.grid (g0 base) && !earlierReturn (away .saved id) t (g0 base) && !(g0 base).spec.gang && recFree (away .saved id) t (g0 base) &&
      (returnClaim (away .saved id) tk t (g0 base)).isSome) = true ∧
    ((t0 (away .restoring id)).any fun t => startReady (away .restoring id) tk t (g0 base) && !(g0 base).spec.gang) = true ∧
    ((savesOf (away .restoring id) tk).all fun p => awaitsClear p.2.hart && !lostRecord (away .restoring id) p.2) = true ∧
    ((savesOf (away .restoring id) tk).any fun p => lostRecord (updMem (away .restoring id) fun m =>
      { m with lost := [(64 * homeOf 0x100000, lineOf 0x100000)] }) p.2) = true ∧
    (tget hd.work.teams 40 = none ∧ slotOfUid hd 40 = some 0 ∧ ((hartAt hd 0).any fun h => h.id.handler && h.capture.isSome && !ctxDead hd h.id.asid && ctxFree hd h.id.asid &&
      atBoundary hd 0 h && h.vbad.isEmpty && (allocRec hd h.id.asid 1).isSome && (captureHart hd 0 h).isSome) = true) ∧
    (let u := z fun h => { h with id := { h.id with handler := true } }
     tget base.work.teams 40 = none ∧ u.hart.id.handler = true ∧ u.freed = false ∧ savePerformed base u = true) := by decide +kernel

/-- Flits of the numbers and kinds expected and one that fails its CRC, at seam 0 up; a direction with flits unacknowledged; replays at the
threshold; retrains due and under way. -/
theorem witness_SeamEventsComplete :
    let up := updDir (setReg base (smStat 0) 4) 0 true fun d => { d with credits := [(0, 1)] }
    let f (kind : Byte) : List Byte := let b : List Byte := [0, 0, kind, 64] ++ List.replicate 248 0
      b ++ leBytes 4 (crc32 b)
    let d : SeamDir := { blankSeam.ab with next := 1, buf := [(0, 0, none)] }
    let t := updDir up 0 true fun d => { d with turn := 0 }
    let clk (n : Nat) (s : State) : State := { s with clock := { s.clock with clk := n } }
    let seam (g : Seam → Seam) : State := updSeam (clk 18000 up) 0 g
    let due := seam fun x => { x with due := [.rate], began := some 0 }
    let thr := seam fun x => { x with ab := { x.ab with replays := List.replicate 16 18000 } }
    (smState up 0 = 1 ∧ nextModule up 0 true = some 0) ∧
    ((f 0).length = 256 ∧ flitGood (f 0) = true ∧ flitKind (f 0) = 0 ∧ flitFormed (f 0) = true ∧ (seamDir (seamAt t 0) true).buf[(seamDir (seamAt t 0) true).pos]? = none ∧
      flitSeq (f 0) = (seamDir (seamAt t 0) true).next ∧
      flitSeq (f 0) = (seamDir (seamAt (applyAck (updDir t 0 true (enterFlit t 0 (some (flitBody (f 0))))) 0 true (f 0)) 0) true).expect) ∧
    (flitGood (f 1) = true ∧ flitKind (f 1) = 1 ∧ flitFormed (f 1) = true ∧ (List.replicate 256 (0 : Byte)).length = 256 ∧ flitGood (List.replicate 256 0) = false) ∧
    (buffered (seamDir (seamAt (seam fun x => { x with ab := { d with progress := 16200 } }) 0) true) = 1 ∧ 16200 + 1800 ≤ (clk 18000 up).clock.clk) ∧
    (smState thr 0 = 1 ∧ (seamAt thr 0).due.any isDegrade = false ∧ overThr thr 0 true = true) ∧
    ((seamAt due 0).due.find? isDegrade = none ∧ (seamAt due 0).due.head? = some .rate ∧ smState due 0 = 1 ∧ (seamAt due 0).began = some 0 ∧ 0 + 18000 ≤ due.clock.clk) ∧
    (seamAt (seam fun x => { x with due := [.rate, .degrade 3] }) 0).due.find? isDegrade = some (.degrade 3) ∧
    (seamAt (seam fun x => { x with running := some .retest }) 0).running = some .retest := by decide +kernel

/-- A transmitter that holds a credit, whatever the credits it starts with. -/
theorem witness_SeamEventsComplete_credit :
    let s := updDir (updDir (setReg base (smStat 0) 4) 0 true fun d => { d with credits := [(0, 1)] }) 0 true fun d => { d with turn := 0 }
    maySend s 0 (seamDir (seamAt s 0) true) 0 = true := by
  intro s
  have h1 : decide (buffered (seamDir (seamAt s 0) true) < 512) = true := by decide +kernel
  have h2 : tgetD (seamDir (seamAt s 0) true).credits 0 0 = 1 := by decide +kernel
  have h3 : (!(s.plat.sealed_.any fun c => seamOf c 0)) = true := by decide +kernel
  have h4 : hasCredit (seamDir (seamAt s 0) true) 0 = true := by simp only [hasCredit, h2, decide_eq_true_eq]; omega
  simp only [maySend, h1, h3, h4, Bool.and_self]

/-- The machine at reset; a die in each state that a command or an end acts on; a faulted context; a lane steered out and one not; a hart that
the debugger halted and one that it steps. -/
theorem witness_PlatformEventsComplete :
    let die (v : Nat) : State := setReg base (dieStatOff 0) v
    let dbg := withH (fun h => { h with halted := true }) (setReg base pfDbg 0x20001)
    let stp := withH (fun h => { h with wait := some .wfi, stepping := some (stepCode 0 h.pc.toNat) }) (setReg { (one 0x10500073) with clock := { base.clock with clk := 1800 } } pfDbg 0x20001)
    (State.reset.booted = false ∧ inRecovery State.reset = false ∧ State.reset.plat.attempt = 1) ∧
    (dieState (die 0) 0 = 0 ∧ dieState { (die 1) with harts := [], work := { base.work with teams := [] } } 0 = 1 ∧ dieState (die 3) 0 = 3) ∧
    (let t := leaveDie { (die 1) with harts := [], work := { base.work with teams := [] } } 0
     t.plat.sealed_.contains 0 = false ∧ dieEmpty t 0 = true ∧ (sealDie t 0).plat.sealed_.contains 0 = true ∧ seamsQuiet (sealDie t 0) 0 = true) ∧ dieReserved { ten base with sch := { base.sch with rsv := [(0, 0)] } } 0 = false ∧
    dieReserved { ten base with sch := { base.sch with rsv := [(0, 8)] } } 0 = true ∧ tget base.plat.limit 0 = none ∧
    ((base.fe.queues.any fun p => !qFree base p.1) = false ∧ isFatal base = false ∧ ({ base with faulted := [(1, 6)] } : State).faulted.contains (1, 6) = true) ∧
    ((bitsOf (steerOf { base with steerCfg := [(0, 0x23)] } 0) 0 8).testBit 5 = true ∧ bitsOf (steerOf { base with steerCfg := [(0, 0x23)] } 0) 0 8 % 32 = 3 ∧
      (bitsOf (steerOf { base with steerCfg := [(0, 0x23)] } 0) 8 8).testBit 5 = false) ∧
    ((hartAt dbg 0).any fun h => dbgFor dbg h.id.asid && haltReported h) = true ∧
    ((hartAt stp 0).any fun h => h.stepping == some (stepCode 0 h.pc.toNat) && atWait stp 0 h && h.pc.toNat == stepPc (stepCode 0 h.pc.toNat) &&
      decide (stepClk (stepCode 0 h.pc.toNat) + 1800 ≤ slotClk stp 0)) = true := by decide +kernel

end Sys2Proof.Tests
end

section
/-! What the first parcel of the bytes at the pc names (R60), and what a step is that fetches bytes which fault or are no instruction
(R63). -/

namespace Sys2Proof.Machine

/-! ## Lengths (R60) -/

/-- The value of the low n bits gives every field among them. -/
theorem extractLsb'_of_low_bits {w n : Nat} {x : BitVec w} {v : BitVec n} (low : x.extractLsb' 0 n = v) {start len : Nat}
    (within : start + len ≤ n) : x.extractLsb' start len = v.extractLsb' start len := by
  rw [← low, BitVec.extractLsb'_extractLsb'_of_le within]

/-- A parcel that does not end in 11 is a 16-bit form. -/
theorem lengthOf_eq_two {p : BitVec 16} (low : p.extractLsb' 0 2 ≠ 3) : lengthOf p = 2 := if_pos low

/-- A parcel that ends in 11, with bits [4:2] not 111, begins a 32-bit form. -/
theorem lengthOf_eq_four {p : BitVec 16} (low : p.extractLsb' 0 2 = 3) (mid : p.extractLsb' 2 3 ≠ 7) : lengthOf p = 4 := by
  rw [lengthOf, if_neg (not_not.mpr low), if_pos mid]

/-- A parcel that ends in 011111 begins a 48-bit form. -/
theorem lengthOf_eq_six {p : BitVec 16} (low : p.extractLsb' 0 6 = 0x1F) : lengthOf p = 6 := by
  have low2 : p.extractLsb' 0 2 = 3 := extractLsb'_of_low_bits low (by decide)
  have mid : p.extractLsb' 2 3 = 7 := extractLsb'_of_low_bits low (by decide)
  simp [lengthOf, low2, mid, low]

/-- A parcel that ends in 0111111 begins a 64-bit form. -/
theorem lengthOf_eq_eight {p : BitVec 16} (low : p.extractLsb' 0 7 = 0x3F) : lengthOf p = 8 := by
  have low2 : p.extractLsb' 0 2 = 3 := extractLsb'_of_low_bits low (by decide)
  have mid : p.extractLsb' 2 3 = 7 := extractLsb'_of_low_bits low (by decide)
  have low6 : p.extractLsb' 0 6 = 0x3F := extractLsb'_of_low_bits low (by decide)
  simp [lengthOf, low2, mid, low6, low]

/-- A parcel that ends in 1111111 begins a form of 80 bits or more. -/
theorem lengthOf_eq_ten {p : BitVec 16} (low : p.extractLsb' 0 7 = 0x7F) : lengthOf p = 10 := by
  have low2 : p.extractLsb' 0 2 = 3 := extractLsb'_of_low_bits low (by decide)
  have mid : p.extractLsb' 2 3 = 7 := extractLsb'_of_low_bits low (by decide)
  have low6 : p.extractLsb' 0 6 = 0x3F := extractLsb'_of_low_bits low (by decide)
  simp [lengthOf, low2, mid, low6, low]

/-! ## What two words decode to, by the length (R60, R63) -/

theorem decodeWords_of_compressed {lo : BitVec 32} (hi : BitVec 32) (len : lengthOf (lo.extractLsb' 0 16) = 2) :
    decodeWords lo hi = .illegal .compressed ((lo.extractLsb' 0 16).setWidth 64) := by
  simp only [decodeWords, len]

theorem decodeWords_of_long48 {lo : BitVec 32} (hi : BitVec 32) (len : lengthOf (lo.extractLsb' 0 16) = 6) :
    decodeWords lo hi = .illegal .long48 (lo.setWidth 64) := by
  simp only [decodeWords, len]

theorem decodeWords_of_long80 {lo : BitVec 32} (hi : BitVec 32) (len : lengthOf (lo.extractLsb' 0 16) = 10) :
    decodeWords lo hi = .illegal .long80 (lo.setWidth 64) := by
  simp only [decodeWords, len]

/-- A 32-bit form is an instruction of 4 bytes, or is illegal with its own bits. -/
theorem decodeWords_of_word {lo : BitVec 32} (hi : BitVec 32) (len : lengthOf (lo.extractLsb' 0 16) = 4) :
    (∃ i, decodeWords lo hi = .ok i 4) ∨ ∃ e, decodeWords lo hi = .illegal e (lo.setWidth 64) := by
  simp only [decodeWords, len]
  cases decode32 lo with
  | ok i => exact .inl ⟨i, rfl⟩
  | error e => exact .inr ⟨e, rfl⟩

/-- A 64-bit form is an instruction of 8 bytes, or is illegal with its own bits. -/
theorem decodeWords_of_doubleWord {lo hi : BitVec 32} (len : lengthOf (lo.extractLsb' 0 16) = 8) :
    (∃ i, decodeWords lo hi = .ok i 8) ∨ ∃ e, decodeWords lo hi = .illegal e (hi ++ lo) := by
  simp only [decodeWords, len]
  cases decode64 (hi ++ lo) with
  | ok i => exact .inl ⟨i, rfl⟩
  | error e => exact .inr ⟨e, rfl⟩

/-! ## Fetching in M-mode (R103, R110) -/

/-- A fetch whose first four bytes fault is that fault. -/
theorem fetchInstr_of_fetch4_fault {s s' : State} {k asid c : Nat} {satp pc v : Word} {mode : Mode}
    (faults : fetch4 s k asid satp mode pc = (.fault c v, s')) : fetchInstr s k asid satp mode pc = (.fault c v, s') := by
  simp only [fetchInstr, faults]

/-- In M-mode no address past HBM holds instructions: the fetch raises cause 1 (R110, log 9). -/
theorem fetchFor_machine_pastHbm {s : State} {h : Hart} (k : Nat) (mode : h.mode = .m) (aligned : h.pc &&& 3 = 0)
    (canon : canonical h.pc = true) (past : hbmEnd ≤ h.pc.toNat) : fetchFor s k h = (.fault 1 h.pc, s) :=
  fetchInstr_of_fetch4_fault (by simpa [fetch4, mode, canon, Nat.not_lt.mpr past] using aligned)

/-- In M-mode too an address that is not canonical raises cause 12 (R103, R319). -/
theorem fetchFor_machine_noncanonical {s : State} {h : Hart} (k : Nat) (mode : h.mode = .m) (aligned : h.pc &&& 3 = 0)
    (noncanon : canonical h.pc = false) : fetchFor s k h = (.fault 12 h.pc, s) :=
  fetchInstr_of_fetch4_fault (by simpa [fetch4, mode, noncanon] using aligned)

/-! ## The step that fetches (R63, R110, R135) -/

/-- A turn that is due is the step. -/
theorem step_of_turnDue {s s0 : State} {k : Nat} (due : turnDue s s0 k) : step s = hartTurn s0 k := by
  obtain ⟨empty, rfl, rfl⟩ | ⟨rest, agenda, rfl⟩ := due
  · simp only [step, empty, turn]
  · simp only [step, agenda, turn]

/-- A hart that nothing holds back at its boundary, picked by the scalar arbiter, runs the instruction at its pc. -/
theorem activeTurn_of_picked {s : State} {k : Nat} {h : Hart} (going : stopped s h = false) (quiet : boundaryEvent s k h = none)
    (awake : h.wait = none) (isReady : ready s k h = true) (picked : scalarPick s k h = true) :
    activeTurn s k h = noteIssue s k h (runInstr s k h) := by
  simp [activeTurn, going, quiet, awake, isReady, picked]

/-- The turn of a hart that is not halted. -/
theorem hartTurn_of_running {s : State} {k : Nat} {h : Hart} (here : hartAt s k = some h) (running : h.halted = false) :
    hartTurn s k = activeTurn s k h := by
  simp [hartTurn, here, running]

/-- A fetch fault comes before anything the bytes could be. -/
theorem runInstr_of_fault {s s' : State} {k c : Nat} {h : Hart} {v : Word} (fetched : fetchFor s k h = (.fault c v, s')) :
    runInstr s k h = .next (trapAt s' k h c v) := by
  simp only [runInstr, fetched]

/-- Bytes that are no instruction raise cause 2. -/
theorem runInstr_of_illegal {s s' : State} {k : Nat} {h : Hart} {bs : List Byte} {e : DecodeError} {v : Word}
    (fetched : fetchFor s k h = (.ok bs, s')) (decoded : decode bs = .illegal e v) :
    runInstr s k h = .next (trapAt s' k h 2 v) := by
  simp only [runInstr, fetched, decoded]

/-- A state whose arbiters may have been written is the state but for its arbiters. -/
theorem ite_arbs_eq (b : Bool) (t : State) (a : Tbl Arb) :
    (if b then { t with arbs := a } else t) = { t with arbs := (if b then { t with arbs := a } else t).arbs } := by
  cases b <;> rfl

/-- Noting the arbiter's pick changes the arbiters alone. -/
theorem noteIssue_next (s t : State) (k : Nat) (h : Hart) :
    ∃ u, noteIssue s k h (.next t) = .next u ∧ u = { t with arbs := u.arbs } :=
  ⟨_, rfl, ite_arbs_eq _ t _⟩

/-- Settles O8: the length follows from the low bits of the first parcel, and a step that fetches is `runInstr` with the arbiter's pick
noted, in which the fetch fault stands before the decoding and an illegal encoding traps with its value. That M-mode fetches
nothing past HBM is the choice of log 9. -/
theorem lengthsAndIllegalEncodings : Obligations.LengthsAndIllegalEncodings := by
  unfold Obligations.LengthsAndIllegalEncodings
  refine ⟨fun lo hi => ?_, fun s s0 s' k h due here running going quiet awake isReady picked => ?_⟩
  · have field {start len : Nat} (within : start + len ≤ 16) :=
      BitVec.extractLsb'_extractLsb'_of_le (x := lo) within
    refine ⟨fun low => ?_, fun low mid => ?_, fun low => ?_, fun low => ?_, fun low => ?_⟩
    · exact decodeWords_of_compressed hi (lengthOf_eq_two (by rwa [field (by decide)]))
    · exact decodeWords_of_word hi (lengthOf_eq_four (by rwa [field (by decide)]) (by rwa [field (by decide)]))
    · exact decodeWords_of_long48 hi (lengthOf_eq_six (by rwa [field (by decide)]))
    · exact decodeWords_of_doubleWord (lengthOf_eq_eight (by rwa [field (by decide)]))
    · exact decodeWords_of_long80 hi (lengthOf_eq_ten (by rwa [field (by decide)]))
  · have runs : step s = noteIssue s0 k h (runInstr s0 k h) := by
      rw [step_of_turnDue due, hartTurn_of_running here running, activeTurn_of_picked going quiet awake isReady picked]
    have steps {t : State} (ran : runInstr s0 k h = .next t) : ∃ u, step s = .next u ∧ u = { t with arbs := u.arbs } := by
      rw [runs, ran]
      exact noteIssue_next s0 t k h
    refine ⟨fun c v fetched => ?_, fun bs e v fetched decoded => ?_, fun mode aligned canon past => ?_, fun mode aligned noncanon => ?_⟩
    · exact steps (runInstr_of_fault fetched)
    · exact steps (runInstr_of_illegal fetched decoded)
    · exact steps (runInstr_of_fault (fetchFor_machine_pastHbm k mode aligned canon past))
    · exact steps (runInstr_of_fault (fetchFor_machine_noncanonical k mode aligned noncanon))

end Sys2Proof.Machine
end

section
/-! What one write of a result does to the vector registers (R70, R90, R178): the lane that was written, every other lane, and
everything else that a hart holds. -/

namespace Sys2Proof.Machine

/-! ## One lane (R70) -/

/-- Lane l of register m after lane j of register n was written: v0 and lanes past 63 take no write. -/
theorem vlane_setLane (h : Hart) (n j : Nat) (v : Elem) (m l : Nat) :
    vlane (setLane h n j v) m l = if m = n ∧ l = j ∧ n ≠ 0 ∧ j < 64 then v else vlane h m l := by
  unfold setLane
  split
  case isTrue zero => simp [zero]
  case isFalse nonzero =>
    split
    case isFalse past => simp [past]
    case isTrue inside =>
      by_cases reg : m = n
      · subst reg
        by_cases lane : l = j
        · subst lane; simp [vlane, vget, nonzero, inside]
        · simp [vlane, vget, nonzero, lane, Ne.symm lane]
      · simp [vlane, vget, reg, tgetD_tput_other _ _ _ reg]

/-- A hart's state other than its vector registers and their parity is as before. -/
def sameButV (h g : Hart) : Prop := g = { h with v := g.v, vbad := g.vbad }

theorem sameButV_refl (h : Hart) : sameButV h h := rfl

theorem sameButV_trans {h g f : Hart} (first : sameButV h g) (second : sameButV g f) : sameButV h f := by
  unfold sameButV at *
  rw [second, first]

theorem sameButV_fields {h g : Hart} (same : sameButV h g) :
    g.l = h.l ∧ g.x = h.x ∧ g.m = h.m ∧ g.tm = h.tm ∧ g.stk = h.stk ∧ g.dep = h.dep ∧ g.pc = h.pc ∧ g.ring = h.ring := by
  unfold sameButV at same
  rw [same]
  exact ⟨rfl, rfl, rfl, rfl, rfl, rfl, rfl, rfl⟩

theorem sameButV_setLane (h : Hart) (n l : Nat) (v : Elem) : sameButV h (setLane h n l v) := by
  unfold setLane
  split
  · rfl
  · split <;> rfl

/-! ## One result (R90, R178) -/

/-- Writing a result changes vector registers alone. -/
theorem sameButV_setElem (h : Hart) (n l w r : Nat) : sameButV h (setElem h n l w r) := by
  unfold setElem setPair
  split
  · split
    · rfl
    · exact sameButV_trans (sameButV_setLane ..) (sameButV_setLane ..)
  · exact sameButV_setLane ..

/-- A register that is neither the destination nor the second of its pair stands. -/
theorem vlane_setElem_other (h : Hart) {n m w : Nat} (l r j : Nat) (reg : m ≠ n) (pair : w = 64 → m ≠ n + 1) :
    vlane (setElem h n l w r) m j = vlane h m j := by
  unfold setElem setPair
  split
  case isTrue wide =>
    split
    · rfl
    · simp [vlane_setLane, reg, pair wide]
  case isFalse => simp [vlane_setLane, reg]

/-- The two halves of a word make the word. -/
theorem halves_append (x : Word) : (x >>> 32).setWidth 32 ++ x.setWidth 32 = x := by
  apply BitVec.eq_of_toNat_eq
  rw [BitVec.toNat_append, ← Nat.shiftLeft_add_eq_or_of_lt (BitVec.isLt _)]
  simp only [BitVec.toNat_setWidth, BitVec.toNat_ushiftRight, Nat.shiftLeft_eq, Nat.shiftRight_eq_div_pow]
  omega

/-- A pair after one of its lanes was written: the pair named v0 takes no write. -/
theorem vpair_setPair (h : Hart) (n : Nat) {l : Nat} (x : Word) (j : Nat) (inside : l < 64) :
    vpair (setPair h n l x) n j = if n ≠ 0 ∧ j = l then x else vpair h n j := by
  by_cases zero : n = 0
  · simp [setPair, zero]
  · by_cases lane : j = l <;> simp [vpair, setPair, vlane_setLane, zero, lane, inside, halves_append]

/-- The destination after a result of 32 or 64 bits was written in lane l. -/
theorem velem_setElem (h : Hart) (n : Nat) {l w : Nat} (r j : Nat) (width : w = 32 ∨ w = 64) (inside : l < 64) :
    velem (setElem h n l w r) n j w = if n ≠ 0 ∧ j = l then r % 2 ^ w else velem h n j w := by
  obtain rfl | rfl := width
  · by_cases lane : j = l <;> by_cases zero : n = 0 <;> simp [velem, setElem, vlane_setLane, lane, zero, inside]
  · by_cases written : n ≠ 0 ∧ j = l
    · simp [velem, setElem, vpair_setPair _ _ _ _ inside, if_pos written]
    · simp only [velem, setElem, vpair_setPair _ _ _ _ inside, if_neg written, if_true]

end Sys2Proof.Machine
end

section
/-! How an issued compute entry finishes (R147, R178 to R180): its results go to the enabled lanes of the destination, its flags
accumulate, and it is DONE. -/

namespace Sys2Proof.Machine

/-! ## Results over lanes (R178) -/

@[simp] theorem mem_lanesOf {m : Mask} {l : Nat} : l ∈ lanesOf m ↔ l < 64 ∧ mbit m l = true := by
  simp [lanesOf]

/-- The results r written in the lanes ls of register n, lane by lane. -/
def writeLanes (h : Hart) (n w : Nat) (r : Nat → Nat) (ls : List Nat) : Hart :=
  ls.foldl (fun g l => setElem g n l w (r l)) h

theorem sameButV_writeLanes (h : Hart) (n w : Nat) (r : Nat → Nat) (ls : List Nat) : sameButV h (writeLanes h n w r ls) := by
  induction ls generalizing h with
  | nil => exact sameButV_refl h
  | cons l ls ih => exact sameButV_trans (sameButV_setElem h n l w (r l)) (ih _)

theorem vlane_writeLanes_other (h : Hart) {n m w : Nat} (r : Nat → Nat) (ls : List Nat) (j : Nat) (reg : m ≠ n)
    (pair : w = 64 → m ≠ n + 1) : vlane (writeLanes h n w r ls) m j = vlane h m j := by
  induction ls generalizing h with
  | nil => rfl
  | cons l ls ih => exact (ih _).trans (vlane_setElem_other h l (r l) j reg pair)

theorem velem_writeLanes (h : Hart) (n : Nat) {w : Nat} (r : Nat → Nat) {ls : List Nat} (j : Nat) (width : w = 32 ∨ w = 64)
    (inside : ∀ l ∈ ls, l < 64) :
    velem (writeLanes h n w r ls) n j w = if n ≠ 0 ∧ j ∈ ls then r j % 2 ^ w else velem h n j w := by
  induction ls generalizing h with
  | nil => simp [writeLanes]
  | cons l ls ih =>
    have tail := ih (setElem h n l w (r l)) fun i mem => inside i (List.mem_cons_of_mem _ mem)
    rw [velem_setElem h n _ _ width (inside l List.mem_cons_self)] at tail
    refine Eq.trans tail ?_
    by_cases here : j = l
    · subst here; by_cases zero : n = 0 <;> simp [zero]
    · simp [here]

/-! ## Flags (R95) -/

/-- The flag f of some lanes, accumulated. -/
theorem foldl_or_flIf (c : Nat → Bool) (f z : Fl) (ls : List Nat) :
    ls.foldl (fun z l => z ||| flIf (c l) f) z = z ||| flIf (ls.any c) f := by
  induction ls generalizing z with
  | nil => simp [flIf]
  | cons l ls ih =>
    rw [List.foldl_cons, ih, List.any_cons, BitVec.or_assoc]
    cases c l <;> cases ls.any c <;> simp [flIf]

theorem any_lanesOf (m : Mask) (c : Nat → Bool) : (lanesOf m).any c = (List.range 64).any fun l => mbit m l && c l :=
  List.any_filter

theorem orFlags_flIf_l (h : Hart) (b : Bool) (f : Fl) :
    (orFlags h (flIf b f)).l = { h.l with lflags := if b then h.l.lflags ||| f else h.l.lflags } := by
  cases b <;> simp [orFlags, flIf]

@[simp] theorem orFlags_zero (h : Hart) : orFlags h 0#6 = h := by simp [orFlags]

/-! ## The step (R147) -/

/-- Entry e of slot k has issued, and no older compute entry of its hart has: it may finish. -/
structure MayFinish (s : State) (k : Nat) (h : Hart) (e : Entry) : Prop where
  holds : Holds s k h e
  inflight : e.st = .inflight
  issued : e.stage = .issued
  eldest : olderCompute h e = false

/-- The step that finishes an entry of groups LI to LP writes the entry's effect on its hart and makes the entry DONE. -/
theorem exec_laneComputeDone_of_mayFinish {s : State} {k : Nat} {h : Hart} {e : Entry} (ready : MayFinish s k h e)
    (compute : isCompute e.instr = true) (notRed : ∀ o, e.instr ≠ .vredAdd o) :
    exec (.laneComputeDone k e.seq) s = .next (setHart s k (doneEntry (computeHart h e) e.seq)) := by
  obtain ⟨⟨here, entry⟩, inflight, issued, eldest⟩ := ready
  have effect : finishCompute s k h e = setHart s k (doneEntry (computeHart h e) e.seq) := by
    unfold finishCompute
    split
    case h_1 o red => exact absurd red (notRed o)
    case h_2 => rfl
  show execLaneComputeDone k e.seq s = _
  simp [execLaneComputeDone, here, entry, inflight, issued, eldest, compute, effect]

/-- The entry that finished is DONE, whatever its effect was on the rest of the hart. -/
theorem entryAt_doneEntry {h g : Hart} {e : Entry} (entry : entryAt h e.seq = some e) (ring : g.ring = h.ring) :
    ∃ f, entryAt (doneEntry g e.seq) e.seq = some f ∧ f.st = .done :=
  ⟨_, entryAt_updEntry_same _ (by rwa [entryAt, ring]) rfl, rfl⟩

/-! ## An entry with one result for each lane (R178 to R180) -/

/-- Where every lane's result has one width and no flag but f, the results are written and f is set when a lane has it. -/
theorem writeResults_of_laneResult {h : Hart} {e : Entry} {w : Nat} {r : Nat → Nat} {c : Nat → Bool} {f : Fl}
    (result : ∀ l, laneResult h e l = (w, r l, flIf (c l) f)) (n : Nat) :
    writeResults h e n = orFlags (writeLanes h n w r (lanesOf e.lmask)) (flIf ((lanesOf e.lmask).any c) f) := by
  simp [writeResults, writeLanes, result, List.foldl_map, foldl_or_flIf]

/-- Entry e is a compute entry that writes the w-bit register n, with result r l in lane l and SI where c l. -/
structure WritesEachLane (h : Hart) (e : Entry) (n w : Nat) (r : Nat → Nat) (c : Nat → Bool) : Prop where
  compute : isCompute e.instr = true
  notRed : ∀ o, e.instr ≠ .vredAdd o
  writes : computeHart h e = writeResults h e n
  result : ∀ l, laneResult h e l = (max 32 w, r l, flIf (c l) flSI)

/-- Such an entry writes each enabled lane's result, sets SI when one of them clamps, and leaves everything else. -/
theorem laneWrites_of_writesEachLane {s : State} {k : Nat} {h : Hart} {e : Entry} {n w : Nat} {r : Nat → Nat} {c : Nat → Bool}
    (ready : MayFinish s k h e) (entry : WritesEachLane h e n w r c) (width : w ≤ 32 ∨ w = 64) : LaneWrites s k h e n w r c := by
  have size : max 32 w = 32 ∨ max 32 w = 64 := by omega
  obtain ⟨g, written⟩ : ∃ g, g = writeLanes h n (max 32 w) r (lanesOf e.lmask) := ⟨_, rfl⟩
  obtain ⟨l, x, m, tm, stk, dep, pc, ring⟩ := sameButV_fields (written ▸ sameButV_writeLanes .. : sameButV h g)
  have step := exec_laneComputeDone_of_mayFinish ready entry.compute entry.notRed
  rw [entry.writes, writeResults_of_laneResult entry.result, ← written] at step
  refine ⟨_, step, fun l inside => ?_, fun m l inside reg pair => ?_, ?_, ?_, ?_, ?_, ?_, ?_, ?_, ?_⟩
  · show velem g n l _ = _
    rw [written, velem_writeLanes h n r l size fun _ mem => (mem_lanesOf.mp mem).1]
    simp [inside]
  · show vlane g m l = _
    rw [written, vlane_writeLanes_other h r _ l reg fun wide => pair (by omega)]
  · show (orFlags g _).l = _
    rw [orFlags_flIf_l, any_lanesOf, l]
  · exact x
  · exact m
  · exact tm
  · exact stk
  · exact dep
  · exact pc
  · exact entryAt_doneEntry ready.holds.2 ring

end Sys2Proof.Machine
end

section
/-! The integer lane instructions (R184): the w-bit operands, the result of each instruction, and the entry that finishes with it. -/

namespace Sys2Proof.Machine

/-! ## Operands of w bits (R71, R178) -/

theorem iWidth_le_or_eq (fmt : BitVec 3) : iWidth fmt ≤ 32 ∨ iWidth fmt = 64 := by
  revert fmt; decide

theorem iWidth_pos (fmt : BitVec 3) : 0 < iWidth fmt := by
  revert fmt; decide

theorem velem_lt (h : Hart) (n l : Nat) {w : Nat} (width : w ≤ 32 ∨ w = 64) : velem h n l w < 2 ^ w := by
  unfold velem
  split
  case isTrue wide => subst wide; exact BitVec.isLt _
  case isFalse => exact Nat.mod_lt _ (Nat.two_pow_pos w)

theorem wrapTo_lt (w : Nat) (z : Int) : wrapTo w z < 2 ^ w := by
  have pos : (0 : Int) < 2 ^ w := by positivity
  have small := Int.emod_lt_of_pos z pos
  unfold wrapTo
  zify
  rw [Int.toNat_of_nonneg (Int.emod_nonneg z pos.ne')]
  exact small

theorem bOperand_lt (h : Hart) (e : Entry) (o : Eops) (l : Nat) {w : Nat} (width : w ≤ 32 ∨ w = 64) :
    bOperand h e o l w < 2 ^ w := by
  unfold bOperand
  split
  · exact velem_lt h _ l width
  · split
    · exact Nat.mod_lt _ (Nat.two_pow_pos w)
    · exact wrapTo_lt w _

/-! ## Values of w bits (R72, R184) -/

theorem wrapTo_natCast (w x : Nat) : wrapTo w x = x % 2 ^ w := by
  unfold wrapTo
  rw [← Int.toNat_natCast (x % 2 ^ w)]
  push_cast
  rfl

/-- An operand is its value modulo 2^w. -/
theorem wrapTo_valOf (sg : Bool) {w x : Nat} (small : x < 2 ^ w) : wrapTo w (valOf sg w x) = x := by
  have whole : wrapTo w x = x := (wrapTo_natCast w x).trans (Nat.mod_eq_of_lt small)
  unfold valOf
  split
  · have wrapped : wrapTo w ((x : Int) - 2 ^ w) = wrapTo w x := by simp [wrapTo]
    exact wrapped.trans whole
  · exact whole

/-- The least value of a signed type and its -1, the operands whose quotient does not fit (R184). -/
theorem valOf_least {w : Nat} (pos : 0 < w) : valOf true w (2 ^ (w - 1)) = -2 ^ (w - 1) := by
  obtain ⟨n, rfl⟩ := Nat.exists_eq_succ_of_ne_zero pos.ne'
  simp [valOf, pow_succ]
  ring

theorem valOf_allOnes {w : Nat} (pos : 0 < w) : valOf true w (2 ^ w - 1) = -1 := by
  simp [valOf, pos]

/-! ## The result of each instruction (R184) -/

section
variable {sg : Bool} {w a b c : Nat} {o : Eops}

theorem intOp_vsubI (small : b < 2 ^ w) : intOp (.vsubI o) sg w a b c = (wrapTo w ((a : Int) - b), 0) := by
  have shifted : ((a + 2 ^ w - b : Nat) : Int) = (a : Int) - b + 2 ^ w := by
    push_cast [Nat.cast_sub (show b ≤ a + 2 ^ w by omega)]; ring
  show ((a + 2 ^ w - b) % 2 ^ w, 0) = _
  rw [← wrapTo_natCast, shifted]
  simp [wrapTo]

theorem intOp_vmulh : intOp (.vmulh o) sg w a b c = (wrapTo w (valOf sg w a * valOf sg w b / 2 ^ w), 0) := by
  simp [intOp]

/-- The quotient that does not fit is the least value again. -/
theorem intOp_vdivI (pos : 0 < w) :
    intOp (.vdivI o) sg w a b c = (if b = 0 then 2 ^ w - 1 else wrapTo w ((valOf sg w a).tdiv (valOf sg w b)), 0) := by
  by_cases overflow : (sg && a == 2 ^ (w - 1) && b == 2 ^ w - 1) = true
  · obtain ⟨⟨rfl, rfl⟩, rfl⟩ : (sg = true ∧ a = 2 ^ (w - 1)) ∧ b = 2 ^ w - 1 := by simpa using overflow
    have least : wrapTo w (2 ^ (w - 1)) = 2 ^ (w - 1) := by
      exact_mod_cast (wrapTo_natCast w (2 ^ (w - 1))).trans (Nat.mod_eq_of_lt (Nat.pow_lt_pow_right (by decide) (by omega)))
    simp [intOp, valOf_least pos, valOf_allOnes pos, Int.tdiv_neg, least]
  · simp [intOp, overflow]

theorem intOp_vrem (pos : 0 < w) :
    intOp (.vrem o) sg w a b c = (if b = 0 then a else wrapTo w ((valOf sg w a).tmod (valOf sg w b)), 0) := by
  by_cases overflow : (sg && a == 2 ^ (w - 1) && b == 2 ^ w - 1) = true
  · obtain ⟨⟨rfl, rfl⟩, rfl⟩ : (sg = true ∧ a = 2 ^ (w - 1)) ∧ b = 2 ^ w - 1 := by simpa using overflow
    simp [intOp, valOf_least pos, valOf_allOnes pos, Int.tmod_neg, wrapTo]
  · simp [intOp, overflow, Int.tmod_def]

theorem intOp_vminI (smallA : a < 2 ^ w) (smallB : b < 2 ^ w) :
    intOp (.vminI o) sg w a b c = (wrapTo w (min (valOf sg w a) (valOf sg w b)), 0) := by
  by_cases le : valOf sg w a ≤ valOf sg w b
  · simp [intOp, le, wrapTo_valOf sg smallA]
  · simp [intOp, le, min_eq_right (not_le.mp le).le, wrapTo_valOf sg smallB]

theorem intOp_vmaxI (smallA : a < 2 ^ w) (smallB : b < 2 ^ w) :
    intOp (.vmaxI o) sg w a b c = (wrapTo w (max (valOf sg w a) (valOf sg w b)), 0) := by
  by_cases le : valOf sg w b ≤ valOf sg w a
  · simp [intOp, le, wrapTo_valOf sg smallA]
  · simp [intOp, le, max_eq_right (not_le.mp le).le, wrapTo_valOf sg smallB]

theorem intOp_vabsI : intOp (.vabsI o) sg w a b c = (wrapTo w (valOf sg w a).natAbs, 0) := by
  have magnitude : (if valOf sg w a < 0 then -valOf sg w a else valOf sg w a) = ((valOf sg w a).natAbs : Int) := by
    split <;> omega
  show (wrapTo w (if valOf sg w a < 0 then -valOf sg w a else valOf sg w a), 0) = _
  rw [magnitude]

theorem intOp_vsll : intOp (.vsll o) sg w a b c = (a * 2 ^ (b % w) % 2 ^ w, 0) :=
  congrArg (fun x => (x % 2 ^ w, 0)) (Nat.shiftLeft_eq a (b % w))

theorem intOp_vsrl : intOp (.vsrl o) sg w a b c = (a / 2 ^ (b % w), 0) :=
  congrArg (·, 0) (Nat.shiftRight_eq_div_pow a (b % w))

end

/-! ## Clamping (R98) -/

/-- The least and the greatest value of a type. -/
def leastValue (sg : Bool) (w : Nat) : Int := if sg then -(2 ^ (w - 1)) else 0
def greatestValue (sg : Bool) (w : Nat) : Int := if sg then 2 ^ (w - 1) - 1 else 2 ^ w - 1

theorem leastValue_le_greatestValue (sg : Bool) (w : Nat) : leastValue sg w ≤ greatestValue sg w := by
  have half : (0 : Int) < 2 ^ (w - 1) := by positivity
  have whole : (0 : Int) < 2 ^ w := by positivity
  cases sg <;> simp only [leastValue, greatestValue, if_true, Bool.false_eq_true, if_false] <;> omega

theorem satInt_eq (sg : Bool) (w : Nat) (t : Int) :
    satInt sg w t = (wrapTo w (max (leastValue sg w) (min (greatestValue sg w) t)),
      flIf (decide (t < leastValue sg w ∨ greatestValue sg w < t)) flSI) := by
  have range := leastValue_le_greatestValue sg w
  show (if t > greatestValue sg w then (wrapTo w (greatestValue sg w), flSI)
    else if t < leastValue sg w then (wrapTo w (leastValue sg w), flSI) else (wrapTo w t, 0)) = _
  generalize leastValue sg w = lo, greatestValue sg w = hi at range
  by_cases above : t > hi
  · rw [if_pos above, min_eq_left above.le, max_eq_right range]; simp [flIf, above]
  · rw [if_neg above, min_eq_right (not_lt.mp above)]
    by_cases below : t < lo
    · rw [if_pos below, max_eq_left below.le]; simp [flIf, below]
    · rw [if_neg below, max_eq_right (not_lt.mp below)]; simp [flIf, above, below]

/-! ## The entry that finishes (R147, R184) -/

/-- The LI instructions with a fmt code. -/
def liInstrs (o : Eops) : List Instr :=
  [.vaddI o, .vsubI o, .vmulI o, .vmulh o, .vdivI o, .vrem o, .vminI o, .vmaxI o, .vadds o, .vsubs o, .vabsI o, .vnegI o, .vmad o,
    .vand o, .vor o, .vxor o, .vnot o, .vsll o, .vsrl o, .vsra o, .vmov o]

section
variable {s : State} {k : Nat} {h : Hart} {e : Entry} {o : Eops}

/-- What the step makes of an LI entry: in each lane the operation's result, widened (R90), written to the vector register vd. -/
theorem li_entry (li : e.instr ∈ liInstrs o) :
    isCompute e.instr = true ∧ (∀ p, e.instr ≠ .vredAdd p) ∧ computeHart h e = writeResults h e o.vd.toNat ∧
      ∀ l, let w := iWidth o.fmt
        let q := intOp e.instr (iSigned o.fmt) w (velem h o.vs1.toNat l w) (bOperand h e o l w) (velem h o.vs3.toNat l w)
        laneResult h e l = (max 32 w, widen (iSigned o.fmt) w q.1, q.2) := by
  simp only [liInstrs, List.mem_cons, List.not_mem_nil, or_false] at li
  unfold computeHart laneResult
  rcases li with i | i | i | i | i | i | i | i | i | i | i | i | i | i | i | i | i | i | i | i | i <;> rw [i] <;>
    exact ⟨rfl, nofun, rfl, fun _ => rfl⟩

/-- An LI entry that may finish writes its operation's results and sets SI when an enabled lane's operation does. -/
theorem laneWrites_li {i : Instr} (li : i ∈ liInstrs o) (is : e.instr = i) (ready : MayFinish s k h e) {r : Nat → Nat}
    {c : Nat → Bool}
    (value : ∀ l, intOp i (iSigned o.fmt) (iWidth o.fmt) (velem h o.vs1.toNat l (iWidth o.fmt)) (bOperand h e o l (iWidth o.fmt))
      (velem h o.vs3.toNat l (iWidth o.fmt)) = (r l, flIf (c l) flSI)) :
    LaneWrites s k h e o.vd.toNat (iWidth o.fmt) (fun l => widen (iSigned o.fmt) (iWidth o.fmt) (r l)) c := by
  subst is
  obtain ⟨compute, notRed, writes, result⟩ := li_entry (h := h) li
  exact laneWrites_of_writesEachLane ready ⟨compute, notRed, writes, fun l => by rw [result l, value l]⟩ (iWidth_le_or_eq o.fmt)

end

/-- Settles O37: each LI instruction's `intOp` is the result that R184 states, and an LI entry writes its `intOp` in the enabled lanes
(`laneWrites_li`). -/
theorem laneIntegerResults : Obligations.LaneIntegerResults := by
  unfold Obligations.LaneIntegerResults
  intro s k h e o holds inflight issued eldest w S b a c va vb lo hi writes clamps
  have ready : MayFinish s k h e := ⟨holds, inflight, issued, eldest⟩
  have width : w ≤ 32 ∨ w = 64 := iWidth_le_or_eq o.fmt
  have pos : 0 < w := iWidth_pos o.fmt
  have smallA (l : Nat) : a l < 2 ^ w := velem_lt h _ l width
  have smallB (l : Nat) : b l < 2 ^ w := bOperand_lt h e o l width
  have plain {i : Instr} (is : e.instr = i) {r : Nat → Nat} (value : ∀ l, intOp i S w (a l) (b l) (c l) = (r l, 0))
      (li : i ∈ liInstrs o := by simp [liInstrs]) : writes r :=
    laneWrites_li li is ready value
  have clamped {i : Instr} (is : e.instr = i) {t : Nat → Int} (value : ∀ l, intOp i S w (a l) (b l) (c l) = satInt S w (t l))
      (li : i ∈ liInstrs o := by simp [liInstrs]) : clamps t :=
    laneWrites_li li is ready fun l => (value l).trans (satInt_eq S w (t l))
  exact ⟨
    fun vaddI => plain vaddI fun _ => rfl,
    fun vsubI => plain vsubI fun l => intOp_vsubI (smallB l),
    fun vmulI => plain vmulI fun _ => rfl,
    fun vmulh => plain vmulh fun _ => intOp_vmulh,
    fun vdivI => plain vdivI fun _ => intOp_vdivI pos,
    fun vrem => plain vrem fun _ => intOp_vrem pos,
    fun vminI => plain vminI fun l => intOp_vminI (smallA l) (smallB l),
    fun vmaxI => plain vmaxI fun l => intOp_vmaxI (smallA l) (smallB l),
    fun vadds => clamped vadds fun _ => rfl,
    fun vsubs => clamped vsubs fun _ => rfl,
    fun vabsI => plain vabsI fun _ => intOp_vabsI,
    fun vnegI => plain vnegI fun _ => rfl,
    fun vmad => plain vmad fun _ => rfl,
    fun vand => plain vand fun _ => rfl,
    fun vor => plain vor fun _ => rfl,
    fun vxor => plain vxor fun _ => rfl,
    fun vnot => plain vnot fun _ => rfl,
    fun vsll => plain vsll fun _ => intOp_vsll,
    fun vsrl => plain vsrl fun _ => intOp_vsrl,
    fun vsra => plain vsra fun _ => rfl,
    fun vmov => plain vmov fun _ => rfl⟩

end Sys2Proof.Machine
end

section
/-! Integer compare, select and bit counts (R186, R188, R189). -/

namespace Sys2Proof.Machine

/-! ## Numbers and masks as sums of bits -/

theorem foldl_add_eq_sum (f : Nat → Nat) (n : Nat) :
    (List.range n).foldl (fun z k => z + f k) 0 = ∑ k ∈ Finset.range n, f k := by
  induction n with
  | zero => rfl
  | succ n ih => rw [List.range_succ, List.foldl_append, ih, Finset.sum_range_succ]; rfl

/-- The number whose low n bits are p. -/
theorem sum_bits_lt (p : Nat → Bool) (n : Nat) : ∑ k ∈ Finset.range n, (if p k then 2 ^ k else 0) < 2 ^ n := by
  induction n with
  | zero => simp
  | succ n ih =>
    rw [Finset.sum_range_succ, pow_succ]
    split <;> omega

theorem testBit_sum_bits (p : Nat → Bool) {n l : Nat} (below : l < n) :
    (∑ k ∈ Finset.range n, if p k then 2 ^ k else 0).testBit l = p l := by
  induction n with
  | zero => omega
  | succ n ih =>
    have rest := sum_bits_lt p n
    rw [Finset.sum_range_succ]
    obtain rfl | lower := Nat.lt_succ_iff_lt_or_eq.mp below |>.symm
    · cases p l <;> simp [Nat.testBit_lt_two_pow rest, Nat.add_comm _ (2 ^ l), Nat.testBit_two_pow_add_eq]
    · cases p n <;> simp [ih lower, Nat.add_comm _ (2 ^ n), Nat.testBit_two_pow_add_gt lower]

theorem mbit_maskOf (p : Nat → Bool) {l : Nat} (inside : l < 64) : mbit (maskOf p) l = p l := by
  simp only [mbit, maskOf, BitVec.getLsbD_ofNat, inside, decide_true, Bool.true_and]
  rw [foldl_add_eq_sum, testBit_sum_bits p inside]

/-! ## Bit counts (R189) -/

theorem popcount_eq (x w : Nat) : popcount x w = ((List.range w).filter fun n => x.testBit n).length := by
  unfold popcount
  rw [foldl_add_eq_sum]
  induction w with
  | zero => rfl
  | succ w ih =>
    rw [Finset.sum_range_succ, ih, List.range_succ, List.filter_append, List.length_append]
    cases bit : x.testBit w <;> simp [b2n, bit]

theorem popcount_le (x w : Nat) : popcount x w ≤ w := by
  rw [popcount_eq]
  exact (List.length_filter_le _ _).trans_eq List.length_range

/-- The first index below n where p holds, n when there is none. -/
theorem firstBelow_spec (n : Nat) (p : Nat → Bool) :
    firstBelow n p ≤ n ∧ (∀ j, j < firstBelow n p → p j = false) ∧ (firstBelow n p < n → p (firstBelow n p) = true) := by
  induction n with
  | zero => simp [firstBelow]
  | succ n ih =>
    obtain ⟨le, before, found⟩ := ih
    by_cases earlier : firstBelow n p < n
    · have same : firstBelow (n + 1) p = firstBelow n p := by simp [firstBelow, earlier]
      rw [same]
      exact ⟨by omega, before, fun _ => found earlier⟩
    · have all : firstBelow n p = n := by omega
      rw [all] at before
      cases last : p n
      · have same : firstBelow (n + 1) p = n + 1 := by simp [firstBelow, all, last]
        rw [same]
        refine ⟨le_rfl, fun j below => ?_, fun less => absurd less (lt_irrefl _)⟩
        obtain lower | rfl := Nat.lt_succ_iff_lt_or_eq.mp below
        · exact before j lower
        · exact last
      · have same : firstBelow (n + 1) p = n := by simp [firstBelow, all, last]
        rw [same]
        exact ⟨by omega, before, fun _ => last⟩

theorem brev_eq_sum (w x : Nat) : brev w x = ∑ k ∈ Finset.range w, if x.testBit (w - 1 - k) then 2 ^ k else 0 := by
  unfold brev
  rw [foldl_add_eq_sum, ← Finset.sum_range_reflect]
  refine Finset.sum_congr rfl fun k mem => ?_
  have below : k < w := Finset.mem_range.mp mem
  rw [show w - 1 - (w - 1 - k) = k by omega]
  cases x.testBit (w - 1 - k) <;> simp [b2n]

theorem brev_lt (w x : Nat) : brev w x < 2 ^ w := brev_eq_sum w x ▸ sum_bits_lt _ w

theorem testBit_brev {w n : Nat} (x : Nat) (below : n < w) : (brev w x).testBit n = x.testBit (w - 1 - n) := by
  rw [brev_eq_sum, testBit_sum_bits _ below]

/-- A count of at most w bits fits the element it is written to. -/
theorem lt_two_pow_max {w r : Nat} (le : r ≤ w) : r < 2 ^ max 32 w :=
  lt_of_le_of_lt le (lt_of_lt_of_le Nat.lt_two_pow_self (Nat.pow_le_pow_right (by decide) (le_max_right 32 w)))

/-- The bit-count instructions with what each makes of the width and the operand. -/
def countInstrs (o : Eops) : List (Instr × (Nat → Nat → Nat)) :=
  [(.vpopc o, fun w x => popcount x w), (.vclz o, clz), (.vctz o, ctz), (.vbrev o, brev)]

section
variable {s : State} {k : Nat} {h : Hart} {e : Entry} {o : Eops}

/-- A bit-count entry that may finish writes its count of each enabled lane's operand, a natural number. -/
theorem laneWrites_count {i : Instr} {g : Nat → Nat → Nat} (counts : (i, g) ∈ countInstrs o) (is : e.instr = i)
    (ready : MayFinish s k h e) :
    LaneWrites s k h e o.vd.toNat (iWidth o.fmt) (fun l => g (iWidth o.fmt) (velem h o.vs1.toNat l (iWidth o.fmt))) fun _ => false := by
  refine laneWrites_of_writesEachLane ready ?_ (iWidth_le_or_eq o.fmt)
  simp only [countInstrs, List.mem_cons, List.not_mem_nil, or_false, Prod.mk.injEq] at counts
  rcases counts with ⟨rfl, rfl⟩ | ⟨rfl, rfl⟩ | ⟨rfl, rfl⟩ | ⟨rfl, rfl⟩ <;>
    exact ⟨is ▸ rfl, is ▸ nofun, by rw [computeHart, is]; rfl, fun _ => by rw [laneResult, is]; rfl⟩

/-! ## Select (R188) -/

/-- A `vsel` of 32 or 64 bits that may finish writes in each enabled lane the operand that the mask register's bit chooses. -/
theorem laneWrites_vsel (is : e.instr = .vsel o) (wide : 32 ≤ iWidth o.fmt) (ready : MayFinish s k h e) :
    LaneWrites s k h e o.vd.toNat (iWidth o.fmt)
      (fun l => if mbit (rm h (o.vs3.setWidth 3)) l then velem h o.vs1.toNat l (iWidth o.fmt) else bOperand h e o l (iWidth o.fmt))
      fun _ => false := by
  refine laneWrites_of_writesEachLane ready ?_ (iWidth_le_or_eq o.fmt)
  exact ⟨is ▸ rfl, is ▸ nofun, by rw [computeHart, is]; rfl, fun _ => by rw [laneResult, is, max_eq_right wide]; rfl⟩

/-! ## Compare (R186) -/

/-- Tests that set no flag write the mask register, in the enabled lanes, and nothing else. -/
theorem writeTests_of_laneTest {t : Nat → Bool} (test : ∀ l, laneTest h e l = (t l, 0)) (d : MR) :
    writeTests h e d = wm h d (maskOf fun l => if mbit e.lmask l then t l else mbit (rm h d) l) := by
  simp [writeTests, test]

/-- A mask register after its written bits: m0 takes no write. -/
theorem mbit_rm_wm_maskOf (h : Hart) (d : MR) (p : Nat → Bool) {l : Nat} (inside : l < 64) :
    mbit (rm (wm h d (maskOf p)) d) l = if d ≠ 0 then p l else mbit (rm h d) l := by
  by_cases zero : d = 0
  · rw [zero, wm_zero, if_neg fun nonzero => nonzero rfl]
  · rw [rm_wm_same h d _ zero, mbit_maskOf p inside, if_pos zero]

/-- A `vcmp` that may finish sets the enabled lanes' bits of its mask register to its relation and leaves everything else. -/
theorem vcmp_done (is : e.instr = .vcmp o) (ready : MayFinish s k h e) {p : Nat → Prop}
    (relation : ∀ l, icmp o.rnd.toNat (valOf (iSigned o.fmt) (iWidth o.fmt) (velem h o.vs1.toNat l (iWidth o.fmt)))
      (valOf (iSigned o.fmt) (iWidth o.fmt) (bOperand h e o l (iWidth o.fmt))) = true ↔ p l) :
    let md : MR := o.vd.setWidth 3
    ∃ g, exec (.laneComputeDone k e.seq) s = .next (setHart s k g) ∧
      (∀ l, l < 64 → (mbit (rm g md) l = true ↔ if md ≠ 0 ∧ mbit e.lmask l = true then p l else mbit (rm h md) l = true)) ∧
      (∀ r, r ≠ md → rm g r = rm h r) ∧ g.x = h.x ∧ g.v = h.v ∧ g.l = h.l ∧ g.tm = h.tm ∧ g.stk = h.stk ∧ g.pc = h.pc ∧
      ∃ f, entryAt g e.seq = some f ∧ f.st = .done := by
  intro md
  obtain ⟨t, test⟩ : ∃ t : Nat → Bool, ∀ l, laneTest h e l = (t l, 0) ∧ (t l = true ↔ p l) := by
    refine ⟨_, fun l => ⟨?_, relation l⟩⟩
    unfold laneTest
    rw [is]
  have writes : computeHart h e = wm h md (maskOf fun l => if mbit e.lmask l then t l else mbit (rm h md) l) := by
    rw [← writeTests_of_laneTest (fun l => (test l).1) md]
    unfold computeHart
    rw [is]
  have step := exec_laneComputeDone_of_mayFinish ready (is ▸ rfl) (is ▸ nofun)
  rw [writes] at step
  refine ⟨_, step, fun l inside => ?_, fun r other => rm_wm_other h _ other, wm_x .., wm_v .., wm_l .., wm_tm .., wm_stk .., wm_pc ..,
    entryAt_doneEntry ready.holds.2 (wm_ring ..)⟩
  show mbit (rm (wm h md _) md) l = true ↔ _
  rw [mbit_rm_wm_maskOf h md _ inside]
  cases enabled : mbit e.lmask l <;> simp [(test l).2]

end

/-- Settles O38: the relations of `vcmp` (`vcmp_done`), the choice of `vsel` (`laneWrites_vsel`) and the counts, each by what its sum or
search of bits gives (`laneWrites_count`). -/
theorem laneCompareSelectAndBitCounts : Obligations.LaneCompareSelectAndBitCounts := by
  unfold Obligations.LaneCompareSelectAndBitCounts
  intro s k h e o holds inflight issued eldest w S b a va vb md tests counts
  have ready : MayFinish s k h e := ⟨holds, inflight, issued, eldest⟩
  have compares {p : Nat → Prop} (relation : ∀ l, icmp o.rnd.toNat (va l) (vb l) = true ↔ p l) : tests p :=
    fun is => vcmp_done is ready relation
  have counted {i : Instr} (is : e.instr = i) (g : Nat → Nat → Nat)
      (count : (i, g) ∈ countInstrs o := by simp [countInstrs]) :
      LaneWrites s k h e o.vd.toNat w (fun l => g w (a l)) fun _ => false :=
    laneWrites_count count is ready
  refine ⟨fun eq => ?_, fun ne => ?_, fun lt => ?_, fun le => ?_, fun gt => ?_, fun ge => ?_,
    fun vsel wide => laneWrites_vsel vsel wide ready,
    fun vpopc => ⟨fun l => popcount (a l) w, fun l => ⟨?_, popcount_eq (a l) w⟩, counted vpopc fun w x => popcount x w⟩,
    fun vclz => ⟨fun l => clz w (a l), fun l => ⟨?_, firstBelow_spec w _⟩, counted vclz clz⟩,
    fun vctz => ⟨fun l => ctz w (a l), fun l => ⟨?_, firstBelow_spec w _⟩, counted vctz ctz⟩,
    fun vbrev => ⟨fun l => brev w (a l), fun l => ⟨?_, brev_lt w (a l), fun _ below => testBit_brev (a l) below⟩,
      counted vbrev brev⟩⟩
  · exact compares fun l => by simp [eq, icmp]
  · exact compares fun l => by simp [ne, icmp]
  · exact compares fun l => by simp [lt, icmp]
  · exact compares fun l => by simp [le, icmp]
  · exact compares fun l => by simp [gt, icmp]
  · exact compares fun l => by simp [ge, icmp]
  · exact lt_two_pow_max (popcount_le (a l) w)
  · exact lt_two_pow_max (firstBelow_spec w _).1
  · exact lt_two_pow_max (firstBelow_spec w _).1
  · exact (brev_lt w (a l)).trans_le (Nat.pow_le_pow_right (by decide) (le_max_right 32 w))

end Sys2Proof.Machine
end

section
/-! Forwarding, said once (R145, R146): a forwarded instruction is the answer of its plan on the hart as the instruction finds it; and the
plans of the matrix instructions (R241). -/

namespace Sys2Proof.Machine

/-! ## The hart as the instruction finds it (R132) -/

/-- Closing the region first changes no x register and neither the identity, the lane state nor the reservations of the hart. -/
@[simp] theorem rx_entered (h : Hart) (i : Instr) (r : XR) : rx (entered h i) r = rx h r := by unfold entered; split <;> rfl
@[simp] theorem entered_id (h : Hart) (i : Instr) : (entered h i).id = h.id := by unfold entered; split <;> rfl
@[simp] theorem entered_l (h : Hart) (i : Instr) : (entered h i).l = h.l := by unfold entered; split <;> rfl
@[simp] theorem entered_msg (h : Hart) (i : Instr) : (entered h i).msg = h.msg := by unfold entered; split <;> rfl

/-! ## What forwarding does with each answer of the plan (R145, R146) -/

section
variable {s : State} {h g : Hart} {i : Instr} {sh : Shape} {o : Eops} {plan : Nat → Hart → Fwd} {opa w2 : Word} {opb : BitVec 32}

/-- An instruction that its plan lets go takes its ring entry, once its own checks pass and its engine can take it. -/
theorem forward_of_go (engine : engine? i = some (sh, o)) (runs : Runs s h i) (alloc : allocOk h.id.nv h.id.nt i = true)
    (rounds : (dynRounds sh o && h.l.lfrm.toNat > 4) = false) (free : forwardBlocked (entered h i) sh = false)
    (goes : plan s.cur (entered h i) = .go opa opb w2 g) :
    forward s i plan = .next (setHart s s.cur (forwarded s s.cur g
      { newEntry (entered h i) i sh o opa opb w2 with rsvd := sh.grp == 0x0A && g.msg.rsv != (entered h i).msg.rsv } i)) := by
  rw [forward, onHart_runs runs]
  simp [engine, alloc, rounds, free, goes]

/-- An instruction that its plan makes wait changes nothing. -/
theorem forward_of_wait (engine : engine? i = some (sh, o)) (runs : Runs s h i) (alloc : allocOk h.id.nv h.id.nt i = true)
    (rounds : (dynRounds sh o && h.l.lfrm.toNat > 4) = false) (waits : plan s.cur (entered h i) = .wait) :
    forward s i plan = .next s := by
  rw [forward, onHart_runs runs]
  simp [engine, alloc, rounds, waits]

/-- An instruction whose plan finds it illegal raises cause 2 with its bits, as it does when a check before the plan refuses it. -/
theorem forward_of_illegal (engine : engine? i = some (sh, o)) (runs : Runs s h i)
    (refused : plan s.cur (entered h i) = .trap 2 (instrBits i)) :
    forward s i plan = .next (trapAt s s.cur (entered h i) 2 (instrBits i)) := by
  rw [forward, onHart_runs runs]
  simp [engine, refused, illegal]

/-- An instruction that is forwarded by its plan forwards with what the plan answers. -/
theorem forwardsAs_of_plan {f : Hart → Hart} (planned : exec i s = forward s i plan)
    (goes : plan s.cur (entered h i) = .go opa opb w2 (f (entered h i))) : ForwardsAs s h i opa opb w2 f :=
  fun _ _ engine runs alloc rounds free => planned.trans (forward_of_go engine runs alloc rounds free goes)

end

/-! ## The multiplies (R240, R241) -/

/-- The plan of `mma`, `mmasp` and `mmabk`: illegal in a hart of arev 0, else an entry with nothing in it. -/
def multiplyPlan (i : Instr) (_ : Nat) (h : Hart) : Fwd := if h.id.arev = 0 then .trap 2 (instrBits i) else .go 0 0 0 h

theorem exec_multiply (s : State) {i : Instr} {o : Eops} (multiply : i ∈ [Instr.mma o, .mmasp o, .mmabk o]) :
    exec i s = forward s i (multiplyPlan i) := by
  simp only [List.mem_cons, List.not_mem_nil, or_false] at multiply
  obtain rfl | rfl | rfl := multiply <;> rfl

theorem forwardsAs_multiply {s : State} {h : Hart} {i : Instr} {o : Eops} (arrays : h.id.arev ≠ 0)
    (multiply : i ∈ [Instr.mma o, .mmasp o, .mmabk o]) : ForwardsAs s h i 0 0 0 id :=
  forwardsAs_of_plan (exec_multiply s multiply) (by simp [multiplyPlan, arrays])

/-- In a hart of arev 0 a multiply is illegal (R74, R240). -/
theorem exec_multiply_of_arev_zero {s : State} {h : Hart} {i : Instr} {o : Eops} {sh : Shape} (zero : h.id.arev = 0)
    (multiply : i ∈ [Instr.mma o, .mmasp o, .mmabk o]) (engine : engine? i = some (sh, o)) (runs : Runs s h i) :
    exec i s = .next (trapAt s s.cur (entered h i) 2 (instrBits i)) :=
  (exec_multiply s multiply).trans (forward_of_illegal engine runs (by simp [multiplyPlan, zero]))

/-! ## The drain (R244, R272) -/

/-- The hart with one more inbox reservation. -/
def reserving (h : Hart) : Hart := { h with msg := { h.msg with rsv := h.msg.rsv + 1 } }

/-- The plan of `tdrain`: OPA names the receiver, OPB and word 2 hold the offset; a drain to the hart itself waits for one of the 16
reservations and takes it. -/
def drainPlan (o : Eops) (k : Nat) (h : Hart) : Fwd :=
  let receiver := rx h (xreg o.vs1)
  let offset := rx h (xreg o.vs3)
  let self := slotOfHwhere receiver.toNat == k
  if self && h.msg.rsv ≥ 16 then .wait else .go receiver (offset.setWidth 32) offset (if self then reserving h else h)

theorem exec_tdrain (o : Eops) (s : State) : exec (.tdrain o) s = forward s (.tdrain o) (drainPlan o) := rfl

section
variable {s : State} {h : Hart} {o : Eops}

theorem forwardsAs_drain_other (other : slotOfHwhere (rx h (xreg o.vs1)).toNat ≠ s.cur) :
    ForwardsAs s h (.tdrain o) (rx h (xreg o.vs1)) ((rx h (xreg o.vs3)).setWidth 32) (rx h (xreg o.vs3)) id :=
  forwardsAs_of_plan (exec_tdrain o s) (by simp [drainPlan, other])

theorem forwardsAs_drain_self (self : slotOfHwhere (rx h (xreg o.vs1)).toNat = s.cur) (room : h.msg.rsv < 16) :
    ForwardsAs s h (.tdrain o) (rx h (xreg o.vs1)) ((rx h (xreg o.vs3)).setWidth 32) (rx h (xreg o.vs3)) reserving :=
  forwardsAs_of_plan (exec_tdrain o s) (by simp [drainPlan, self, room])

theorem exec_drain_self_of_full (self : slotOfHwhere (rx h (xreg o.vs1)).toNat = s.cur) (full : 16 ≤ h.msg.rsv)
    (alloc : allocOk h.id.nv h.id.nt (.tdrain o) = true) (runs : Runs s h (.tdrain o)) : exec (.tdrain o) s = .next s :=
  (exec_tdrain o s).trans (forward_of_wait rfl runs alloc rfl (by simp [drainPlan, self, full]))

end

/-- Settles O34: the multiplies forward or are illegal by `arev` (`forwardsAs_multiply`, `exec_multiply_of_arev_zero`), the drain
goes by its receiver and the reservations left (`forwardsAs_drain_other`, `forwardsAs_drain_self`, `exec_drain_self_of_full`), and the
plans of the others ask nothing. -/
theorem matrixInstructionsForward : Obligations.MatrixInstructionsForward := by
  unfold Obligations.MatrixInstructionsForward
  intro s h o a goes
  have empty {i : Instr} (planned : exec i s = forward s i fun _ g => .go 0 0 0 g) : goes i 0 := forwardsAs_of_plan planned rfl
  have based {i : Instr} (planned : exec i s = forward s i fun _ g => .go (rx g (xreg o.vs1)) 0 0 g) : goes i a :=
    forwardsAs_of_plan planned (by simp [a])
  have multiplied (arrays : h.id.arev ≠ 0) {i : Instr} (multiply : i ∈ [Instr.mma o, .mmasp o, .mmabk o] := by simp) : goes i 0 :=
    forwardsAs_multiply arrays multiply
  exact ⟨fun arrays => ⟨multiplied arrays, multiplied arrays, multiplied arrays⟩,
    empty rfl, empty rfl, empty rfl, based rfl, based rfl, empty rfl,
    ⟨forwardsAs_drain_other, forwardsAs_drain_self, exec_drain_self_of_full⟩,
    fun zero i multiply sh engine runs => exec_multiply_of_arev_zero zero multiply engine runs⟩

end Sys2Proof.Machine
end

section
/-! The 32-bit encodings, field by field (R62, R64, R65): what each field of a format reads, and the decoder as the inverse of the
encoder in both directions. -/

namespace Sys2Proof
open BitVec

/-! ## The fields of the formats -/

section
variable (f7 : BitVec 7) (b a : BitVec 5) (f3 : BitVec 3) (d : BitVec 5) (op : BitVec 7)

theorem encH_low {s n : Nat} (within : s + n ≤ 7) : (encH f7 b a f3 d op).extractLsb' s n = op.extractLsb' s n :=
  extractLsb'_append_eq_of_add_le within
@[simp] theorem encH_major : (encH f7 b a f3 d op).extractLsb' 2 5 = op.extractLsb' 2 5 := encH_low _ _ _ _ _ _ (by decide)
@[simp] theorem encH_d : (encH f7 b a f3 d op).extractLsb' 7 5 = d := by
  simp (disch := omega) only [encH, extractLsb'_append_eq_of_le, extractLsb'_append_eq_of_add_le, Nat.reduceSub, extractLsb'_eq_self]
theorem encH_within_d {s n : Nat} (above : 7 ≤ s) (within : s + n ≤ 12) :
    (encH f7 b a f3 d op).extractLsb' s n = d.extractLsb' (s - 7) n := by
  simp (disch := omega) only [encH, extractLsb'_append_eq_of_le, extractLsb'_append_eq_of_add_le]
@[simp] theorem encH_f3 : (encH f7 b a f3 d op).extractLsb' 12 3 = f3 := by
  simp (disch := omega) only [encH, extractLsb'_append_eq_of_le, extractLsb'_append_eq_of_add_le, Nat.reduceSub, extractLsb'_eq_self]
@[simp] theorem encH_a : (encH f7 b a f3 d op).extractLsb' 15 5 = a := by
  simp (disch := omega) only [encH, extractLsb'_append_eq_of_le, extractLsb'_append_eq_of_add_le, Nat.reduceSub, extractLsb'_eq_self]
@[simp] theorem encH_b : (encH f7 b a f3 d op).extractLsb' 20 5 = b := by
  simp (disch := omega) only [encH, extractLsb'_append_eq_of_le, extractLsb'_append_eq_of_add_le, Nat.reduceSub, extractLsb'_eq_self]
theorem encH_high {s n : Nat} (within : 25 ≤ s) : (encH f7 b a f3 d op).extractLsb' s n = f7.extractLsb' (s - 25) n := by
  simp (disch := omega) only [encH, extractLsb'_append_eq_of_le, Nat.sub_sub]
@[simp] theorem encH_f7 : (encH f7 b a f3 d op).extractLsb' 25 7 = f7 := by
  rw [encH_high _ _ _ _ _ _ (by decide), extractLsb'_eq_self]

end

section
variable (imm : BitVec 12) (a : BitVec 5) (f3 : BitVec 3) (d : BitVec 5) (op : BitVec 7)

theorem encHI_low {s n : Nat} (within : s + n ≤ 7) : (encHI imm a f3 d op).extractLsb' s n = op.extractLsb' s n :=
  extractLsb'_append_eq_of_add_le within
@[simp] theorem encHI_major : (encHI imm a f3 d op).extractLsb' 2 5 = op.extractLsb' 2 5 := encHI_low _ _ _ _ _ (by decide)
@[simp] theorem encHI_d : (encHI imm a f3 d op).extractLsb' 7 5 = d := by
  simp (disch := omega) only [encHI, extractLsb'_append_eq_of_le, extractLsb'_append_eq_of_add_le, Nat.reduceSub, extractLsb'_eq_self]
@[simp] theorem encHI_f3 : (encHI imm a f3 d op).extractLsb' 12 3 = f3 := by
  simp (disch := omega) only [encHI, extractLsb'_append_eq_of_le, extractLsb'_append_eq_of_add_le, Nat.reduceSub, extractLsb'_eq_self]
@[simp] theorem encHI_a : (encHI imm a f3 d op).extractLsb' 15 5 = a := by
  simp (disch := omega) only [encHI, extractLsb'_append_eq_of_le, extractLsb'_append_eq_of_add_le, Nat.reduceSub, extractLsb'_eq_self]
theorem encHI_high {s n : Nat} (within : 20 ≤ s) : (encHI imm a f3 d op).extractLsb' s n = imm.extractLsb' (s - 20) n := by
  simp (disch := omega) only [encHI, extractLsb'_append_eq_of_le, Nat.sub_sub]
@[simp] theorem encHI_imm : (encHI imm a f3 d op).extractLsb' 20 12 = imm := by
  rw [encHI_high _ _ _ _ _ (by decide), extractLsb'_eq_self]

end

/-- The words of format U: an immediate over a register and the opcode (R62). -/
def encU (imm : BitVec 20) (d : BitVec 5) (op : BitVec 7) : BitVec 32 := imm ++ d ++ op

section
variable (imm : BitVec 20) (d : BitVec 5) (op : BitVec 7)

theorem encU_low {s n : Nat} (within : s + n ≤ 7) : (encU imm d op).extractLsb' s n = op.extractLsb' s n :=
  extractLsb'_append_eq_of_add_le within
@[simp] theorem encU_major : (encU imm d op).extractLsb' 2 5 = op.extractLsb' 2 5 := encU_low _ _ _ (by decide)
@[simp] theorem encU_d : (encU imm d op).extractLsb' 7 5 = d := by
  simp (disch := omega) only [encU, extractLsb'_append_eq_of_le, extractLsb'_append_eq_of_add_le, Nat.reduceSub, extractLsb'_eq_self]
theorem encU_high {s n : Nat} (within : 12 ≤ s) : (encU imm d op).extractLsb' s n = imm.extractLsb' (s - 12) n := by
  simp (disch := omega) only [encU, extractLsb'_append_eq_of_le, Nat.sub_sub]
@[simp] theorem encU_imm : (encU imm d op).extractLsb' 12 20 = imm := by
  rw [encU_high _ _ _ (by decide), extractLsb'_eq_self]

end

/-- A word is the format H of its six fields. -/
theorem eq_encH_iff {w : BitVec 32} {f7 : BitVec 7} {b a : BitVec 5} {f3 : BitVec 3} {d : BitVec 5} {op : BitVec 7} :
    encH f7 b a f3 d op = w ↔ w.extractLsb' 25 7 = f7 ∧ w.extractLsb' 20 5 = b ∧ w.extractLsb' 15 5 = a ∧ w.extractLsb' 12 3 = f3 ∧
      w.extractLsb' 7 5 = d ∧ w.extractLsb' 0 7 = op := by
  constructor
  · rintro rfl
    simp [encH_low]
  · rintro ⟨rfl, rfl, rfl, rfl, rfl, rfl⟩
    simp (disch := omega) only [encH, extractLsb'_append_extractLsb'_eq_extractLsb']
    exact extractLsb'_eq_self

/-- A word is the format HI of its five fields. -/
theorem eq_encHI_iff {w : BitVec 32} {imm : BitVec 12} {a : BitVec 5} {f3 : BitVec 3} {d : BitVec 5} {op : BitVec 7} :
    encHI imm a f3 d op = w ↔ w.extractLsb' 20 12 = imm ∧ w.extractLsb' 15 5 = a ∧ w.extractLsb' 12 3 = f3 ∧
      w.extractLsb' 7 5 = d ∧ w.extractLsb' 0 7 = op := by
  constructor
  · rintro rfl
    simp [encHI_low]
  · rintro ⟨rfl, rfl, rfl, rfl, rfl⟩
    simp (disch := omega) only [encHI, extractLsb'_append_extractLsb'_eq_extractLsb']
    exact extractLsb'_eq_self

/-- A word is the format U of its three fields. -/
theorem eq_encU_iff {w : BitVec 32} {imm : BitVec 20} {d : BitVec 5} {op : BitVec 7} :
    encU imm d op = w ↔ w.extractLsb' 12 20 = imm ∧ w.extractLsb' 7 5 = d ∧ w.extractLsb' 0 7 = op := by
  constructor
  · rintro rfl
    simp [encU_low]
  · rintro ⟨rfl, rfl, rfl⟩
    simp (disch := omega) only [encU, extractLsb'_append_extractLsb'_eq_extractLsb']
    exact extractLsb'_eq_self

/-! ## Fields with bits that must be 0 (R64, R66) -/

theorem mField_eq_some {f : BitVec 5} {m : MR} : mField f = some m ↔ f = mBits m := by
  revert f m; decide
@[simp] theorem mField_mBits (m : MR) : mField (mBits m) = some m := mField_eq_some.2 rfl

theorem barField_eq_some {f : BitVec 5} {n : BitVec 4} : barField f = some n ↔ f = n.setWidth 5 := by
  revert f n; decide
@[simp] theorem barField_setWidth (n : BitVec 4) : barField (n.setWidth 5) = some n := barField_eq_some.2 rfl

theorem wordField_eq_some {f : BitVec 5} {n : BitVec 2} : wordField f = some n ↔ f = n.setWidth 5 := by
  revert f n; decide
@[simp] theorem wordField_setWidth (n : BitVec 2) : wordField (n.setWidth 5) = some n := wordField_eq_some.2 rfl

@[simp] theorem whenZero_zero {n : Nat} (i : Option Instr) : whenZero (0#n) i = i := if_pos rfl
theorem whenZero_eq_some {n : Nat} {f : BitVec n} {o : Option Instr} {i : Instr} : whenZero f o = some i ↔ f = 0 ∧ o = some i := by
  unfold whenZero; split <;> simp_all

@[simp] theorem fieldsOr_some (i : Instr) : fieldsOr (some i) = .ok i := rfl
@[simp] theorem fieldsOr_eq_ok {o : Option Instr} {i : Instr} : fieldsOr o = .ok i ↔ o = some i := by
  cases o <;> simp [fieldsOr]

/-- A word of format H as one of format HI. -/
theorem encHI_append (f7 : BitVec 7) (b a : BitVec 5) (f3 : BitVec 3) (d : BitVec 5) (op : BitVec 7) :
    encHI (f7 ++ b) a f3 d op = encH f7 b a f3 d op := rfl

/-! ## Immediates that a format scatters (R62) -/

theorem high_of_append {v w : Nat} (x : BitVec v) (y : BitVec w) : (x ++ y).extractLsb' w v = x := extractLsb'_append_eq_left
theorem low_of_append {v w : Nat} (x : BitVec v) (y : BitVec w) : (x ++ y).extractLsb' 0 w = y := extractLsb'_append_eq_right

/-- The three fields of a FENCE. -/
theorem fenceFields (imm : BitVec 12) : imm.extractLsb' 8 4 ++ imm.extractLsb' 4 4 ++ imm.extractLsb' 0 4 = imm := by
  simp only [extractLsb'_append_extractLsb'_eq_extractLsb', extractLsb'_eq_self]

theorem fenceField_fm (fm p q : BitVec 4) : (fm ++ p ++ q).extractLsb' 8 4 = fm := by
  simp (disch := omega) only [extractLsb'_append_eq_of_le, Nat.reduceSub, extractLsb'_eq_self]
theorem fenceField_pred (fm p q : BitVec 4) : (fm ++ p ++ q).extractLsb' 4 4 = p := by
  simp (disch := omega) only [extractLsb'_append_eq_of_le, extractLsb'_append_eq_of_add_le, Nat.reduceSub, extractLsb'_eq_self]
theorem fenceField_succ (fm p q : BitVec 4) : (fm ++ p ++ q).extractLsb' 0 4 = q := low_of_append (fm ++ p) q

/-- The offset of format B, gathered from the fields f7 and d. -/
def branchOff (f7 : BitVec 7) (d : BitVec 5) : BitVec 12 :=
  f7.extractLsb' 6 1 ++ d.extractLsb' 0 1 ++ f7.extractLsb' 0 6 ++ d.extractLsb' 1 4

theorem branchOff_scattered (off : BitVec 12) :
    branchOff (off.extractLsb' 11 1 ++ off.extractLsb' 4 6) (off.extractLsb' 0 4 ++ off.extractLsb' 10 1) = off := by
  simp (disch := omega) only [branchOff, extractLsb'_append_eq_of_le, extractLsb'_append_eq_of_add_le, Nat.reduceSub,
    extractLsb'_extractLsb'_of_le, extractLsb'_append_extractLsb'_eq_extractLsb', extractLsb'_eq_self]

theorem encBranch_eq_encH (c : BranchKind) (rs1 rs2 : XR) (off : BitVec 12) :
    encBranch c rs1 rs2 off = encH (off.extractLsb' 11 1 ++ off.extractLsb' 4 6) rs2 rs1 (branchF3 c)
      (off.extractLsb' 0 4 ++ off.extractLsb' 10 1) 0x63 := by
  simp only [encBranch, encH, BitVec.append_assoc, BitVec.cast_eq]

theorem encBranch_branchOff (c : BranchKind) (f7 : BitVec 7) (b a d : BitVec 5) :
    encBranch c a b (branchOff f7 d) = encH f7 b a (branchF3 c) d 0x63 := by
  rw [encBranch_eq_encH]
  simp (disch := omega) only [branchOff, extractLsb'_append_eq_of_le, extractLsb'_append_eq_of_add_le, Nat.reduceSub,
    extractLsb'_extractLsb'_of_le, extractLsb'_append_extractLsb'_eq_extractLsb', extractLsb'_eq_self]

/-- The bits of a JAL offset in the order that the word holds them. -/
def jalField (off : BitVec 20) : BitVec 20 := off.extractLsb' 19 1 ++ off.extractLsb' 0 10 ++ off.extractLsb' 10 1 ++ off.extractLsb' 11 8

theorem encJal_eq_encU (rd : XR) (off : BitVec 20) : encJal rd off = encU (jalField off) rd 0x6F := rfl

theorem jalOffset_encU (imm : BitVec 20) (rd : BitVec 5) (op : BitVec 7) :
    jalOffset (encU imm rd op) = imm.extractLsb' 19 1 ++ imm.extractLsb' 0 8 ++ imm.extractLsb' 8 1 ++ imm.extractLsb' 9 10 := by
  simp (disch := omega) only [jalOffset, encU_high]

theorem jalOffset_jalField (off : BitVec 20) (rd : BitVec 5) (op : BitVec 7) : jalOffset (encU (jalField off) rd op) = off := by
  simp (disch := omega) only [jalOffset_encU, jalField, extractLsb'_append_eq_of_le, extractLsb'_append_eq_of_add_le, Nat.reduceSub,
    extractLsb'_extractLsb'_of_le, extractLsb'_append_extractLsb'_eq_extractLsb', extractLsb'_eq_self]

theorem jalField_jalOffset (imm : BitVec 20) (rd : BitVec 5) (op : BitVec 7) : jalField (jalOffset (encU imm rd op)) = imm := by
  simp (disch := omega) only [jalOffset_encU, jalField, extractLsb'_append_eq_of_le, extractLsb'_append_eq_of_add_le, Nat.reduceSub,
    extractLsb'_extractLsb'_of_le, extractLsb'_append_extractLsb'_eq_extractLsb', extractLsb'_eq_self]

/-- An immediate below 16 stands in the low four bits. -/
theorem setWidth_twelve_eq_append (e : BitVec 4) : e.setWidth 12 = 0#8 ++ e := by
  revert e; decide

theorem setWidth_twelve_of_high_zero {imm : BitVec 12} (zero : imm.extractLsb' 4 8 = 0) : (imm.extractLsb' 0 4).setWidth 12 = imm := by
  have whole : imm.extractLsb' 4 8 ++ imm.extractLsb' 0 4 = imm :=
    (extractLsb'_append_extractLsb'_eq_extractLsb' rfl).trans extractLsb'_eq_self
  rwa [setWidth_twelve_eq_append, ← show imm.extractLsb' 4 8 = 0#8 from zero]

/-- The acquire and release bits below the operation of an AMO. -/
theorem amoFields (f7 : BitVec 7) :
    f7.extractLsb' 2 5 ++ BitVec.ofBool (f7.extractLsb' 1 1 == 1) ++ BitVec.ofBool (f7.extractLsb' 0 1 == 1) = f7 := by
  revert f7; decide

/-! ## Decoding an encoding -/

/-- The word of a well-formed 32-bit instruction decodes to it. -/
theorem decode32_of_encode32 {i : Instr} {w : BitVec 32} (wf : i.wf = true) (e : encode32 i = some w) : decode32 w = .ok i := by
  cases i <;> cases e
  case scalarLoad k rd rs1 imm => cases k <;> simp [decode32, decodeLoad, loadF3]
  case scalarStore k rs1 rs2 imm =>
    have whole : imm.extractLsb' 5 7 ++ imm.extractLsb' 0 5 = imm := (extractLsb'_append_extractLsb'_eq_extractLsb' rfl).trans extractLsb'_eq_self
    cases k <;> simp [decode32, decodeStore, storeF3, whole]
  case integerOp op =>
    cases op with
    | lui rd imm => exact (congrArg decode32 (show _ = encU imm rd 0x37 from rfl)).trans (by simp [decode32])
    | auipc rd imm => exact (congrArg decode32 (show _ = encU imm rd 0x17 from rfl)).trans (by simp [decode32])
    | jal rd off => simp [decode32, encIntOp, encJal_eq_encU, jalOffset_jalField]
    | jalr rd rs1 imm => simp [decode32, encIntOp]
    | branch c rs1 rs2 off =>
      have gathered := branchOff_scattered off
      rw [branchOff] at gathered
      cases c <;> simp [decode32, encIntOp, encBranch_eq_encH, decodeBranch, branchF3, encH_high, encH_within_d, gathered]
    | aluImm k rd rs1 imm => cases k <;> simp [decode32, encIntOp, decodeOpImm, immF3]
    | shiftImm k rd rs1 sh =>
      have high (x : BitVec 6) : (x ++ sh).extractLsb' 6 6 = x := high_of_append x sh
      have low (x : BitVec 6) : (x ++ sh).extractLsb' 0 6 = sh := low_of_append x sh
      cases k <;> simp [decode32, encIntOp, decodeOpImm, shiftF3, encHI_high, high, low]
    | addiw rd rs1 imm => simp [decode32, encIntOp, decodeOpImm32]
    | shiftImmW k rd rs1 sh => cases k <;> simp [decode32, encIntOp, decodeOpImm32, shiftF3]
    | alu k rd rs1 rs2 => cases k <;> simp [decode32, encIntOp, decodeOp, aluFunct]
    | aluW k rd rs1 rs2 => cases k <;> simp [decode32, encIntOp, decodeOp32, aluWFunct]
  case mul k rd rs1 rs2 => cases k <;> simp [decode32, encMul, decodeOp, decodeOp32]
  case div k rd rs1 rs2 => cases k <;> simp [decode32, encDiv, decodeOp, decodeOp32]
  case fence fm p q rd rs1 =>
    have ne : encHI (fm ++ p ++ q) rs1 0 rd 0x0F ≠ 0x0100000F#32 := by
      intro pause
      obtain ⟨imm, zero1, -, zero2, -⟩ := eq_encHI_iff.1 pause
      have fields := fenceField_fm fm p q
      have fieldsP := fenceField_pred fm p q
      have fieldsQ := fenceField_succ fm p q
      rw [← imm] at fields fieldsP fieldsQ
      subst zero1 zero2 fields fieldsP fieldsQ
      exact absurd wf (by decide)
    simp [decode32, decodeMiscMem, encHI_high, fenceField_fm, fenceField_pred, fenceField_succ, show encHI (fm ++ p ++ q) rs1 0#3 rd 0x0F#7 ≠ 0x0100000F#32 from ne]
  case amo k dbl aq rl rd rs1 rs2 =>
    cases k <;> cases dbl <;> cases aq <;> cases rl <;> simp [decode32, encAmo, decodeAmo, amoF5, encH_high]
  case lr dbl aq rl rd rs1 => cases dbl <;> cases aq <;> cases rl <;> simp [decode32, encAmo, decodeAmo, encH_high]
  case sc dbl aq rl rd rs1 rs2 => cases dbl <;> cases aq <;> cases rl <;> simp [decode32, encAmo, decodeAmo, encH_high]
  case csrAccess op u csr rd src =>
    have row : csrInstr op u csr rd src = .csrAccess op u csr rd src := by
      cases writes : csrWrites op src <;> simp_all [Instr.wf, csrInstr]
    cases op <;> cases u <;> simp [decode32, decodeSystem, csrF3, row]
  case steerWrite op u rd src =>
    have row : csrInstr op u 0x7C0 rd src = .steerWrite op u rd src := if_pos ⟨wf, rfl⟩
    cases op <;> cases u <;> simpa [decode32, decodeSystem, csrF3] using row
  case satpWrite op u rd src =>
    have row : csrInstr op u 0x180 rd src = .satpWrite op u rd src := (if_neg fun c => absurd c.2 (by decide)).trans (if_pos ⟨wf, rfl⟩)
    cases op <;> cases u <;> simpa [decode32, decodeSystem, csrF3] using row
  case hdrain e =>
    have high : (0#8 ++ e).extractLsb' 4 8 = 0 := high_of_append _ e
    have low : (0#8 ++ e).extractLsb' 0 4 = e := low_of_append _ e
    simp [decode32, decodeCustom1, encHI_high, setWidth_twelve_eq_append, high, low]
  all_goals simp [decode32, decodeCustom0, decodeCustom1, decodeCustom2, decodeMiscMem, decodeSystem, fieldsOr, encHI_high]

/-! ## Encoding what a word decodes to -/

theorem toNat_eq_iff {n k : Nat} {x : BitVec n} : x.toNat = k ↔ k < 2 ^ n ∧ x = BitVec.ofNat n k := by
  constructor
  · rintro rfl
    exact ⟨x.isLt, by simp⟩
  · rintro ⟨less, rfl⟩
    simp [Nat.mod_eq_of_lt less]

section
variable {f7 : BitVec 7} {b a : BitVec 5} {f3 : BitVec 3} {d : BitVec 5} {i : Instr}

theorem encH_imm (op : BitVec 7) : (encH f7 b a f3 d op).extractLsb' 20 12 = f7 ++ b := (eq_encHI_iff.1 rfl).1

/-- What a decoder of one major opcode gives for a word of format H encodes to that word. -/
def ReadsBack (dec : BitVec 32 → Dec) (op : BitVec 7) : Prop :=
  ∀ {f7 : BitVec 7} {b a : BitVec 5} {f3 : BitVec 3} {d : BitVec 5} {i : Instr}, dec (encH f7 b a f3 d op) = .ok i →
    encode32 i = some (encH f7 b a f3 d op) ∧ i.wf = true

/-- The value of a 3-bit field that is none of the other seven. -/
theorem eq_seven_of_toNat {f : BitVec 3} (n0 : f.toNat ≠ 0) (n1 : f.toNat ≠ 1) (n2 : f.toNat ≠ 2) (n3 : f.toNat ≠ 3) (n4 : f.toNat ≠ 4)
    (n5 : f.toNat ≠ 5) (n6 : f.toNat ≠ 6) : f = 7 := BitVec.eq_of_toNat_eq (by have := f.isLt; simp only [BitVec.reduceToNat]; omega)

theorem eq_five_of_toNat {f : BitVec 3} (n0 : f.toNat ≠ 0) (n1 : f.toNat ≠ 1) (n2 : f.toNat ≠ 2) (n3 : f.toNat ≠ 3) (n4 : f.toNat ≠ 4)
    (n6 : f.toNat ≠ 6) (n7 : f.toNat ≠ 7) : f = 5 := BitVec.eq_of_toNat_eq (by have := f.isLt; simp only [BitVec.reduceToNat]; omega)

theorem readsBack_decodeCustom0 : ReadsBack decodeCustom0 0x0B := by
  intro f7 b a f3 d i ok
  simp only [decodeCustom0, encH_f3, encH_f7, encH_a, encH_b, encH_d, encH_imm] at ok
  split at ok
  all_goals first | split at ok | skip
  all_goals
    simp only [fieldsOr_eq_ok, whenZero_eq_some, mField_eq_some, reduceCtorEq, bind, Option.bind_eq_some_iff, pure, Option.some.injEq,
      toNat_eq_iff] at *
  all_goals
    casesm* _ ∧ _, ∃ _, _
    subst_vars
    exact ⟨rfl, rfl⟩

theorem readsBack_decodeCustom1 : ReadsBack decodeCustom1 0x2B := by
  intro f7 b a f3 d i ok
  simp only [decodeCustom1, encH_f3, encH_f7, encH_a, encH_b, encH_d] at ok
  split at ok
  case h_3 is2 =>
    simp only [fieldsOr_eq_ok, whenZero_eq_some, Option.some.injEq] at ok
    obtain ⟨rfl, rfl, zero, rfl⟩ := ok
    obtain rfl := (toNat_eq_iff.1 is2).2
    rw [← encHI_append, encHI_high _ _ _ _ _ (by decide)] at zero
    rw [← encHI_append, encHI_high _ _ _ _ _ (by decide)]
    exact ⟨congrArg some (congrArg (encHI · 0 2 0 0x2B) (setWidth_twelve_of_high_zero zero)), rfl⟩
  all_goals first | split at ok | skip
  all_goals
    simp only [fieldsOr_eq_ok, whenZero_eq_some, barField_eq_some, reduceCtorEq, bind, Option.bind_eq_some_iff, pure, Option.some.injEq,
      toNat_eq_iff] at *
  all_goals
    casesm* _ ∧ _, ∃ _, _
    subst_vars
    exact ⟨rfl, rfl⟩

theorem readsBack_decodeCustom2 : ReadsBack decodeCustom2 0x5B := by
  intro f7 b a f3 d i ok
  simp only [decodeCustom2, encH_f3, encH_f7, encH_a, encH_b, encH_d, encH_imm] at ok
  split at ok
  all_goals first | split at ok | skip
  all_goals
    simp only [fieldsOr_eq_ok, whenZero_eq_some, mField_eq_some, wordField_eq_some, reduceCtorEq, bind, Option.bind_eq_some_iff, pure,
      Option.some.injEq, toNat_eq_iff] at *
  all_goals
    casesm* _ ∧ _, ∃ _, _
    subst_vars
    exact ⟨rfl, rfl⟩

theorem readsBack_decodeLoad : ReadsBack decodeLoad 0x03 := by
  intro f7 b a f3 d i ok
  simp only [decodeLoad, encH_f3, encH_a, encH_d, encH_imm] at ok
  split at ok <;> cases ok
  all_goals
    simp only [toNat_eq_iff] at *
    casesm* _ ∧ _
    subst_vars
    exact ⟨rfl, rfl⟩

theorem readsBack_decodeStore : ReadsBack decodeStore 0x23 := by
  intro f7 b a f3 d i ok
  simp only [decodeStore, encH_f3, encH_a, encH_b, encH_d, encH_f7] at ok
  have stored (k : StoreKind) : encode32 (.scalarStore k a b (f7 ++ d)) = some (encH f7 b a (storeF3 k) d 0x23) :=
    congrArg some (by rw [high_of_append, low_of_append])
  split at ok <;> cases ok
  all_goals
    simp only [toNat_eq_iff] at *
    casesm* _ ∧ _
    subst_vars
    exact ⟨stored _, rfl⟩

theorem readsBack_decodeBranch : ReadsBack decodeBranch 0x63 := by
  intro f7 b a f3 d i ok
  have off : (encH f7 b a f3 d 0x63).extractLsb' 31 1 ++ (encH f7 b a f3 d 0x63).extractLsb' 7 1 ++ (encH f7 b a f3 d 0x63).extractLsb' 25 6 ++
      (encH f7 b a f3 d 0x63).extractLsb' 8 4 = branchOff f7 d := by
    simp (disch := omega) only [encH_high, encH_within_d]; rfl
  simp only [decodeBranch, encH_f3, encH_a, encH_b, off] at ok
  split at ok <;> cases ok
  all_goals
    simp only [toNat_eq_iff] at *
    casesm* _ ∧ _
    subst_vars
    exact ⟨congrArg some (encBranch_branchOff _ f7 b a d), rfl⟩

/-- A 12-bit immediate of a shift is its operation over its amount. -/
theorem shiftFields (imm : BitVec 12) : imm.extractLsb' 6 6 ++ imm.extractLsb' 0 6 = imm := by
  simp only [extractLsb'_append_extractLsb'_eq_extractLsb', extractLsb'_eq_self]

theorem readsBack_decodeOpImm : ReadsBack decodeOpImm 0x13 := by
  intro f7 b a f3 d i ok
  rw [← encHI_append] at ok ⊢
  generalize f7 ++ b = imm at ok ⊢
  have fields : (encHI imm a f3 d 0x13).extractLsb' 26 6 = imm.extractLsb' 6 6 ∧ (encHI imm a f3 d 0x13).extractLsb' 20 6 = imm.extractLsb' 0 6 :=
    ⟨encHI_high _ _ _ _ _ (by decide), encHI_high _ _ _ _ _ (by decide)⟩
  have shifted {k : ShiftKind} (row : imm.extractLsb' 6 6 = if k = .sra then 16 else 0) :
      encode32 (.integerOp (.shiftImm k d a (imm.extractLsb' 0 6))) = some (encHI imm a (shiftF3 k) d 0x13) :=
    congrArg some (by rw [encIntOp, ← row, shiftFields])
  simp only [decodeOpImm, encHI_f3, encHI_a, encHI_d, encHI_imm, fields] at ok
  split at ok
  case h_7 one =>
    split at ok <;> cases ok
    case isTrue zero =>
      obtain rfl := (toNat_eq_iff.1 one).2
      exact ⟨shifted (k := .sll) (toNat_eq_iff.1 zero).2, rfl⟩
  case h_8 n0 n2 n3 n4 n6 n7 n1 =>
    obtain rfl := eq_five_of_toNat n0 n1 n2 n3 n4 n6 n7
    split at ok
    case isTrue zero =>
      cases ok
      exact ⟨shifted (k := .srl) (toNat_eq_iff.1 zero).2, rfl⟩
    case isFalse =>
      split at ok <;> cases ok
      case isTrue sixteen => exact ⟨shifted (k := .sra) (toNat_eq_iff.1 sixteen).2, rfl⟩
  all_goals
    cases ok
    simp only [toNat_eq_iff] at *
    casesm* _ ∧ _
    subst_vars
    exact ⟨rfl, rfl⟩

theorem readsBack_decodeOpImm32 : ReadsBack decodeOpImm32 0x1B := by
  intro f7 b a f3 d i ok
  simp only [decodeOpImm32, encH_f3, encH_a, encH_b, encH_d, encH_f7, encH_imm] at ok
  split at ok
  case h_3 =>
    split at ok
    case isTrue =>
      cases ok
      simp only [toNat_eq_iff] at *
      casesm* _ ∧ _
      subst_vars
      exact ⟨rfl, rfl⟩
    split at ok <;> cases ok
    simp only [toNat_eq_iff] at *
    casesm* _ ∧ _
    subst_vars
    exact ⟨rfl, rfl⟩
  case h_2 =>
    split at ok <;> cases ok
    simp only [toNat_eq_iff] at *
    casesm* _ ∧ _
    subst_vars
    exact ⟨rfl, rfl⟩
  all_goals cases ok
  simp only [toNat_eq_iff] at *
  casesm* _ ∧ _
  subst_vars
  exact ⟨rfl, rfl⟩

theorem readsBack_decodeOp : ReadsBack decodeOp 0x33 := by
  intro f7 b a f3 d i ok
  simp only [decodeOp, encH_f3, encH_a, encH_b, encH_d, encH_f7] at ok
  split at ok
  case h_4 => cases ok
  all_goals
    rename_i group
    obtain rfl := (toNat_eq_iff.1 group).2
    split at ok <;> cases ok
  case h_8.refl n0 n1 n2 n3 n4 n5 n6 =>
    obtain rfl := eq_seven_of_toNat n0 n1 n2 n3 n4 n5 n6
    exact ⟨rfl, rfl⟩
  case h_8.refl n0 n1 n2 n3 n4 n5 n6 =>
    obtain rfl := eq_seven_of_toNat n0 n1 n2 n3 n4 n5 n6
    exact ⟨rfl, rfl⟩
  all_goals
    rename_i funct
    obtain rfl := (toNat_eq_iff.1 funct).2
    exact ⟨rfl, rfl⟩

theorem readsBack_decodeOp32 : ReadsBack decodeOp32 0x3B := by
  intro f7 b a f3 d i ok
  simp only [decodeOp32, encH_f3, encH_a, encH_b, encH_d, encH_f7] at ok
  split at ok <;> (try split at ok) <;> cases ok
  all_goals
    simp only [toNat_eq_iff] at *
    casesm* _ ∧ _
    subst_vars
    exact ⟨rfl, rfl⟩

theorem readsBack_decodeMiscMem : ReadsBack decodeMiscMem 0x0F := by
  intro f7 b a f3 d i ok
  rw [← encHI_append] at ok ⊢
  generalize f7 ++ b = imm at ok ⊢
  have fields : (encHI imm a f3 d 0x0F).extractLsb' 28 4 = imm.extractLsb' 8 4 ∧ (encHI imm a f3 d 0x0F).extractLsb' 24 4 = imm.extractLsb' 4 4 ∧
      (encHI imm a f3 d 0x0F).extractLsb' 20 4 = imm.extractLsb' 0 4 :=
    ⟨encHI_high _ _ _ _ _ (by decide), encHI_high _ _ _ _ _ (by decide), encHI_high _ _ _ _ _ (by decide)⟩
  simp only [decodeMiscMem, encHI_f3, encHI_a, encHI_d, encHI_imm, fields] at ok
  split at ok
  case h_1 zero =>
    obtain rfl := (toNat_eq_iff.1 zero).2
    split at ok <;> cases ok
    case isTrue pause => exact ⟨pause ▸ rfl, rfl⟩
    case isFalse other =>
      refine ⟨congrArg some (congrArg (encHI · a 0 d 0x0F) (fenceFields imm)), ?_⟩
      by_contra pause
      simp only [Instr.wf, Bool.not_eq_true', Bool.not_eq_false, Bool.and_eq_true, beq_iff_eq] at pause
      obtain ⟨⟨⟨⟨fm, p⟩, q⟩, rfl⟩, rfl⟩ := pause
      refine other ?_
      rw [← fenceFields imm, fm, p, q]
      rfl
  case h_2 one =>
    cases ok
    obtain rfl := (toNat_eq_iff.1 one).2
    exact ⟨rfl, rfl⟩
  cases ok

theorem readsBack_decodeAmo : ReadsBack decodeAmo 0x2F := by
  intro f7 b a f3 d i ok
  have fields : (encH f7 b a f3 d 0x2F).extractLsb' 27 5 = f7.extractLsb' 2 5 ∧ (encH f7 b a f3 d 0x2F).extractLsb' 26 1 = f7.extractLsb' 1 1 ∧
      (encH f7 b a f3 d 0x2F).extractLsb' 25 1 = f7.extractLsb' 0 1 :=
    ⟨encH_high _ _ _ _ _ _ (by decide), encH_high _ _ _ _ _ _ (by decide), encH_high _ _ _ _ _ _ (by decide)⟩
  simp only [decodeAmo, encH_f3, encH_a, encH_b, encH_d, fields] at ok
  split at ok
  case isFalse => cases ok
  case isTrue width =>
    have word {f5 : BitVec 5} (op : (f7.extractLsb' 2 5).toNat = f5.toNat) :
        encAmo f5 (f3.toNat == 3) (f7.extractLsb' 1 1 == 1) (f7.extractLsb' 0 1 == 1) d a b = encH f7 b a f3 d 0x2F := by
      have size : (if (f3.toNat == 3) = true then 3 else 2) = f3 := by
        obtain two | three := width
        · rw [(toNat_eq_iff.1 two).2]; rfl
        · rw [(toNat_eq_iff.1 three).2]; rfl
      rw [encAmo, ← BitVec.eq_of_toNat_eq op, amoFields, size]
    split at ok
    case h_3 two =>
      simp only [fieldsOr_eq_ok, whenZero_eq_some, Option.some.injEq] at ok
      obtain ⟨rfl, rfl⟩ := ok
      exact ⟨congrArg some (word (f5 := 2) two), rfl⟩
    all_goals
      cases ok
    all_goals rename_i op; exact ⟨congrArg some (word op), rfl⟩

theorem encode32_csrInstr (op : CsrKind) (u : Bool) (csr : BitVec 12) (rd src : XR) :
    encode32 (csrInstr op u csr rd src) = some (encHI csr src (csrF3 op u) rd 0x73) := by
  unfold csrInstr
  split
  case isTrue is => rw [is.2]; rfl
  case isFalse =>
    split
    case isTrue is => rw [is.2]; rfl
    case isFalse => rfl

theorem wf_csrInstr (op : CsrKind) (u : Bool) (csr : BitVec 12) (rd src : XR) : (csrInstr op u csr rd src).wf = true := by
  unfold csrInstr
  split
  case isTrue is => exact is.1
  case isFalse notSteer =>
    split
    case isTrue is => exact is.1
    case isFalse notSatp => cases writes : csrWrites op src <;> simp_all [Instr.wf]

theorem readsBack_decodeSystem : ReadsBack decodeSystem 0x73 := by
  intro f7 b a f3 d i ok
  rw [decodeSystem, encH_f3, encH_a, encH_b, encH_d, encH_f7, encH_imm] at ok
  split at ok
  case h_1 zero =>
    obtain rfl := (toNat_eq_iff.1 zero).2
    split at ok
    case isTrue nine =>
      obtain rfl := (toNat_eq_iff.1 nine).2
      simp only [fieldsOr_eq_ok, whenZero_eq_some, Option.some.injEq] at ok
      obtain ⟨rfl, rfl⟩ := ok
      exact ⟨rfl, rfl⟩
    case isFalse =>
      split at ok <;> cases ok
      all_goals
        rename_i word
        rw [(toNat_eq_iff.1 word).2]
        exact ⟨rfl, rfl⟩
  all_goals cases ok
  all_goals
    rename_i row
    obtain rfl := (toNat_eq_iff.1 row).2
    exact ⟨encode32_csrInstr .., wf_csrInstr ..⟩

/-- The major opcode of a 32-bit form, whose two low bits are 11 (R60). -/
theorem opcode_of_major {op : BitVec 7} {n : Nat} (low : op.extractLsb' 0 2 = 3) (major : (op.extractLsb' 2 5).toNat = n) :
    op = BitVec.ofNat 5 n ++ (3 : BitVec 2) := by
  have whole : op.extractLsb' 2 5 ++ op.extractLsb' 0 2 = op :=
    (extractLsb'_append_extractLsb'_eq_extractLsb' rfl).trans extractLsb'_eq_self
  rw [← whole, low, (toNat_eq_iff.1 major).2]

/-- A 32-bit form that decodes is the encoding of what it decodes to. -/
theorem encode32_of_decode32 {w : BitVec 32} {i : Instr} (low : w.extractLsb' 0 2 = 3) (ok : decode32 w = .ok i) :
    encode32 i = some w ∧ i.wf = true := by
  obtain ⟨f7, b, a, f3, d, op, rfl⟩ : ∃ f7 b a f3 d op, encH f7 b a f3 d op = w := ⟨_, _, _, _, _, _, eq_encH_iff.2 ⟨rfl, rfl, rfl, rfl, rfl, rfl⟩⟩
  rw [encH_low _ _ _ _ _ _ (by decide)] at low
  rw [decode32, encH_major, encH_d, encH_f3, encH_a, encH_imm] at ok
  split at ok
  all_goals rename_i major
  case h_18 => cases ok
  case h_19 => cases ok
  all_goals
    obtain rfl := opcode_of_major low major
  case h_1 => exact readsBack_decodeLoad ok
  case h_2 => exact readsBack_decodeCustom0 ok
  case h_3 => exact readsBack_decodeMiscMem ok
  case h_4 => exact readsBack_decodeOpImm ok
  case h_5 => cases ok; exact ⟨congrArg some (eq_encU_iff.2 ⟨rfl, encH_d .., (encH_low _ _ _ _ _ _ (by decide)).trans (by decide)⟩), rfl⟩
  case h_6 => exact readsBack_decodeOpImm32 ok
  case h_7 => exact readsBack_decodeStore ok
  case h_8 => exact readsBack_decodeCustom1 ok
  case h_9 => exact readsBack_decodeAmo ok
  case h_10 => exact readsBack_decodeOp ok
  case h_11 => cases ok; exact ⟨congrArg some (eq_encU_iff.2 ⟨rfl, encH_d .., (encH_low _ _ _ _ _ _ (by decide)).trans (by decide)⟩), rfl⟩
  case h_12 => exact readsBack_decodeOp32 ok
  case h_13 => exact readsBack_decodeCustom2 ok
  case h_14 => exact readsBack_decodeBranch ok
  case h_15 =>
    split at ok <;> cases ok
    rename_i zero
    obtain rfl := (toNat_eq_iff.1 zero).2
    exact ⟨rfl, rfl⟩
  case h_16 =>
    cases ok
    exact ⟨congrArg some (congrArg (encU · d 0x6F) (jalField_jalOffset (f7 ++ b ++ a ++ f3) d _)), rfl⟩
  case h_17 => exact readsBack_decodeSystem ok

end

end Sys2Proof
end

section
/-! The 64-bit encodings (R67, R68, R74): the table of groups and opcodes read in both directions, and decoding bytes. -/

namespace Sys2Proof
open BitVec Machine

/-! ## The layout of a 64-bit word (R67) -/

section
variable (grp : BitVec 5) (opc : BitVec 8) (o : Eops)

theorem encEngine_low {s n : Nat} (within : s + n ≤ 7) : (encEngine grp opc o).extractLsb' s n = (0x3F : BitVec 7).extractLsb' s n :=
  extractLsb'_append_eq_of_add_le within

theorem encEngine_grp : (encEngine grp opc o).extractLsb' 7 5 = grp := by
  simp (disch := omega) only [encEngine, extractLsb'_append_eq_of_le, extractLsb'_append_eq_of_add_le, Nat.reduceSub, extractLsb'_eq_self]

theorem encEngine_opc : (encEngine grp opc o).extractLsb' 12 8 = opc := by
  simp (disch := omega) only [encEngine, extractLsb'_append_eq_of_le, extractLsb'_append_eq_of_add_le, Nat.reduceSub, extractLsb'_eq_self]

theorem eopsOf_encEngine : eopsOf (encEngine grp opc o) = o := by
  simp (disch := omega) only [eopsOf, encEngine, extractLsb'_append_eq_of_le, extractLsb'_append_eq_of_add_le, Nat.reduceSub,
    extractLsb'_eq_self]

end

/-- A word that ends in 0111111 is the layout of its group, opcode and operand fields. -/
theorem encEngine_fields {w : BitVec 64} (low : w.extractLsb' 0 7 = 0x3F) :
    encEngine (w.extractLsb' 7 5) (w.extractLsb' 12 8) (eopsOf w) = w := by
  rw [encEngine, ← low, eopsOf]
  simp (disch := omega) only [extractLsb'_append_extractLsb'_eq_extractLsb']
  exact extractLsb'_eq_self

/-! ## Groups and opcodes (R74) -/

/-- The row of an engine instruction names it, within the widths of the fields. -/
theorem ofGroup_of_engine? {i : Instr} {sh : Shape} {o : Eops} (row : engine? i = some (sh, o)) :
    ofGroup sh.grp sh.opc o = some i ∧ sh.grp < 32 ∧ sh.opc < 256 := by
  cases i
  all_goals cases row
  case vcvtFF.refl src | vcvtFI.refl src | vcvtIF.refl src =>
    obtain ⟨⟨n, below⟩⟩ := src
    interval_cases n <;> exact ⟨rfl, by simp, by simp⟩
  all_goals exact ⟨rfl, by decide, by decide⟩

theorem engine?_of_ofGroup {g c : Nat} {o : Eops} {i : Instr} (named : ofGroup g c o = some i) :
    ∃ sh, engine? i = some (sh, o) ∧ sh.grp = g ∧ sh.opc = c := by
  unfold ofGroup at named
  split at named
  all_goals
    simp only [ofGroup0, ofGroup1, ofGroup2, ofGroup3, ofGroup4, ofGroup5, ofGroup6, ofGroup7, ofGroup8, ofGroup9, ofGroup10, ofGroup11,
      ofGroup12, ofGroup13, reduceCtorEq] at named
  all_goals
    split at named <;> cases named <;> exact ⟨_, rfl, rfl, rfl⟩

/-! ## 32-bit and 64-bit forms apart -/

/-- An instruction of the 64-bit class has no 32-bit word. -/
theorem encode32_eq_none_of_engine? {i : Instr} {p : Shape × Eops} (row : engine? i = some p) : encode32 i = none := by
  cases i <;> cases row <;> rfl

theorem engine?_eq_none_of_encode32 {i : Instr} {w : BitVec 32} (word : encode32 i = some w) : engine? i = none := by
  cases row : engine? i with
  | none => rfl
  | some p => exact absurd word (by simp [encode32_eq_none_of_engine? row])

/-- Every 32-bit encoding ends in 11 with bits [4:2] not 111 (R60). -/
theorem encode32_low {i : Instr} {w : BitVec 32} (word : encode32 i = some w) : w.extractLsb' 0 2 = 3 ∧ w.extractLsb' 2 3 ≠ 7 := by
  cases i <;> cases word
  case integerOp op =>
    cases op with
    | lui rd imm => exact ⟨(encU_low imm rd 0x37 (by decide)).trans (by decide), (encU_low imm rd 0x37 (by decide)).trans_ne (by decide)⟩
    | auipc rd imm => exact ⟨(encU_low imm rd 0x17 (by decide)).trans (by decide), (encU_low imm rd 0x17 (by decide)).trans_ne (by decide)⟩
    | jal rd off => simp [encIntOp, encJal_eq_encU, encU_low]
    | branch c rs1 rs2 off => simp [encIntOp, encBranch_eq_encH, encH_low]
    | _ => simp [encIntOp, encH_low, encHI_low]
  case mul k rd rs1 rs2 => cases k <;> simp [encMul, encH_low]
  case div k rd rs1 rs2 => cases k <;> simp [encDiv, encH_low]
  all_goals simp [encH_low, encHI_low, encAmo]

theorem encode64_eq_some {i : Instr} {w : BitVec 64} :
    encode64 i = some w ↔ ∃ sh o, engine? i = some (sh, o) ∧ encEngine (BitVec.ofNat 5 sh.grp) (BitVec.ofNat 8 sh.opc) o = w := by
  simp [encode64]

theorem wf_of_engine? {i : Instr} {p : Shape × Eops} (row : engine? i = some p) : i.wf = engineOk i := by
  cases i <;> cases row <;> rfl

theorem decode64_of_encode64 {i : Instr} {w : BitVec 64} (wf : i.wf = true) (e : encode64 i = some w) : decode64 w = .ok i := by
  obtain ⟨sh, o, row, rfl⟩ := encode64_eq_some.1 e
  obtain ⟨named, grp, opc⟩ := ofGroup_of_engine? row
  have ok : engineOk i = true := wf_of_engine? row ▸ wf
  simp only [decode64, encEngine_grp, encEngine_opc, eopsOf_encEngine, BitVec.toNat_ofNat, Nat.mod_eq_of_lt grp, Nat.mod_eq_of_lt opc, named,
    ok, if_true]

theorem encode64_of_decode64 {i : Instr} {w : BitVec 64} (low : w.extractLsb' 0 7 = 0x3F) (ok : decode64 w = .ok i) :
    encode64 i = some w ∧ i.wf = true := by
  rw [decode64] at ok
  split at ok
  case h_1 => cases ok
  case h_2 named =>
    split at ok <;> cases ok
    case isTrue fields =>
      obtain ⟨sh, row, grp, opc⟩ := engine?_of_ofGroup named
      refine ⟨encode64_eq_some.2 ⟨sh, _, row, ?_⟩, wf_of_engine? row ▸ fields⟩
      rw [grp, opc, BitVec.ofNat_toNat, BitVec.ofNat_toNat, BitVec.setWidth_eq, BitVec.setWidth_eq, encEngine_fields low]

/-! ## Bytes (R4, R60) -/

@[simp] theorem wordOfBytes_bytes (w : BitVec 32) :
    wordOfBytes (w.extractLsb' 0 8) (w.extractLsb' 8 8) (w.extractLsb' 16 8) (w.extractLsb' 24 8) = w := by
  simp only [wordOfBytes, extractLsb'_append_extractLsb'_eq_extractLsb', extractLsb'_eq_self]

theorem bytesOf32_wordOfBytes (b0 b1 b2 b3 : Byte) : bytesOf32 (wordOfBytes b0 b1 b2 b3) = [b0, b1, b2, b3] := by
  simp (disch := omega) only [bytesOf32, wordOfBytes, extractLsb'_append_eq_of_le, extractLsb'_append_eq_of_add_le, Nat.reduceSub,
    extractLsb'_eq_self]

/-- The first parcel of a word, as its first two bytes hold it. -/
theorem parcel_bytes (w : BitVec 32) : w.extractLsb' 8 8 ++ w.extractLsb' 0 8 = w.extractLsb' 0 16 :=
  extractLsb'_append_extractLsb'_eq_extractLsb' rfl

theorem low_of_lengthOf_four {p : BitVec 16} (len : lengthOf p = 4) : p.extractLsb' 0 2 = 3 := by
  by_contra other
  rw [lengthOf, if_pos other] at len
  cases len

theorem low_of_lengthOf_eight {p : BitVec 16} (len : lengthOf p = 8) : p.extractLsb' 0 7 = 0x3F := by
  unfold lengthOf at len
  split at len
  · cases len
  split at len
  · cases len
  split at len
  · cases len
  split at len
  · assumption
  · cases len

theorem lengthOf_encode32 {i : Instr} {w : BitVec 32} (word : encode32 i = some w) : lengthOf (w.extractLsb' 0 16) = 4 := by
  obtain ⟨low, mid⟩ := encode32_low word
  refine lengthOf_eq_four ?_ ?_ <;> rw [extractLsb'_extractLsb'_of_le (by decide)] <;> assumption

theorem lengthOf_encEngine (grp : BitVec 5) (opc : BitVec 8) (o : Eops) :
    lengthOf (((encEngine grp opc o).extractLsb' 0 32).extractLsb' 0 16) = 8 := by
  refine lengthOf_eq_eight ?_
  rw [extractLsb'_extractLsb'_of_le (by decide), extractLsb'_extractLsb'_of_le (by decide)]
  exact encEngine_low grp opc o (by decide)

/-- Two words decode to an instruction as a 32-bit form or as a 64-bit form. -/
theorem decodeWords_eq_ok {lo hi : BitVec 32} {i : Instr} {n : Nat} (ok : decodeWords lo hi = .ok i n) :
    (n = 4 ∧ lengthOf (lo.extractLsb' 0 16) = 4 ∧ decode32 lo = .ok i) ∨
      (n = 8 ∧ lengthOf (lo.extractLsb' 0 16) = 8 ∧ decode64 (hi ++ lo) = .ok i) := by
  simp only [decodeWords] at ok
  split at ok
  case h_2 len =>
    split at ok <;> cases ok
    case h_1 form => exact .inl ⟨rfl, len, form⟩
  case h_4 len =>
    split at ok <;> cases ok
    case h_1 form => exact .inr ⟨rfl, len, form⟩
  all_goals cases ok

/-! ## Instructions and their bytes -/

theorem encode_eq_some {i : Instr} {bs : List Byte} : encode i = some bs ↔ (∃ w, encode32 i = some w ∧ bs = bytesOf32 w) ∨
    (encode32 i = none ∧ ∃ w, encode64 i = some w ∧ bs = bytesOf32 (w.extractLsb' 0 32) ++ bytesOf32 (w.extractLsb' 32 32)) := by
  unfold encode
  cases encode32 i <;> simp [eq_comm]

theorem instrLen_of_encode32 {i : Instr} {w : BitVec 32} (word : encode32 i = some w) : instrLen i = 4 := by
  simp [instrLen, engine?_eq_none_of_encode32 word]

theorem instrLen_of_engine? {i : Instr} {p : Shape × Eops} (row : engine? i = some p) : instrLen i = 8 := by
  simp [instrLen, row]

theorem decode_of_decode32 {w : BitVec 32} {i : Instr} (len : lengthOf (w.extractLsb' 0 16) = 4) (ok : decode32 w = .ok i)
    (rest : List Byte) : decode (bytesOf32 w ++ rest) = .ok i 4 := by
  have words (hi : BitVec 32) : decodeWords w hi = .ok i 4 := by simp only [decodeWords, len, ok]
  have short : lengthOf (w.extractLsb' 8 8 ++ w.extractLsb' 0 8) ≠ 8 := by rw [parcel_bytes, len]; decide
  match rest with
  | [] | [_] | [_, _] | [_, _, _] => simp [decode, bytesOf32, wordOfBytes_bytes, words, short]
  | _ :: _ :: _ :: _ :: _ => simp [decode, bytesOf32, wordOfBytes_bytes, words]

theorem decode_of_decode64 {w : BitVec 64} {i : Instr} (len : lengthOf ((w.extractLsb' 0 32).extractLsb' 0 16) = 8)
    (ok : decode64 w = .ok i) (rest : List Byte) :
    decode (bytesOf32 (w.extractLsb' 0 32) ++ bytesOf32 (w.extractLsb' 32 32) ++ rest) = .ok i 8 := by
  have halves : w.extractLsb' 32 32 ++ w.extractLsb' 0 32 = w :=
    (extractLsb'_append_extractLsb'_eq_extractLsb' rfl).trans extractLsb'_eq_self
  show decodeWords (wordOfBytes _ _ _ _) (wordOfBytes _ _ _ _) = _
  rw [wordOfBytes_bytes, wordOfBytes_bytes]
  simp only [decodeWords, len, show decode64 (w.extractLsb' 32 32 ++ w.extractLsb' 0 32) = .ok i from halves.symm ▸ ok]

/-- Settles O1: by the length of its form, an instruction decodes from its 32-bit word or from its 64-bit word. -/
theorem decodeOfEncodeIsTheInstruction : Obligations.DecodeOfEncodeIsTheInstruction := by
  intro i bs rest wf encoded
  obtain ⟨w, word, rfl⟩ | ⟨-, w, word, rfl⟩ := encode_eq_some.1 encoded
  · rw [instrLen_of_encode32 word]
    exact decode_of_decode32 (lengthOf_encode32 word) (decode32_of_encode32 wf word) rest
  · obtain ⟨sh, o, row, rfl⟩ := encode64_eq_some.1 word
    rw [instrLen_of_engine? row]
    exact decode_of_decode64 (lengthOf_encEngine _ _ _) (decode64_of_encode64 wf word) rest

theorem parcel_wordOfBytes (b0 b1 b2 b3 : Byte) : (wordOfBytes b0 b1 b2 b3).extractLsb' 0 16 = b1 ++ b0 := by
  rw [← parcel_bytes]
  simp (disch := omega) only [wordOfBytes, extractLsb'_append_eq_of_le, extractLsb'_append_eq_of_add_le, Nat.reduceSub, extractLsb'_eq_self]

theorem encode_of_decodeWords {b0 b1 b2 b3 b4 b5 b6 b7 : Byte} {i : Instr} {n : Nat}
    (ok : decodeWords (wordOfBytes b0 b1 b2 b3) (wordOfBytes b4 b5 b6 b7) = .ok i n) :
    (n = 4 ∧ encode i = some [b0, b1, b2, b3] ∨
      n = 8 ∧ lengthOf (b1 ++ b0) = 8 ∧ encode i = some [b0, b1, b2, b3, b4, b5, b6, b7]) ∧ i.wf = true ∧ n = instrLen i := by
  obtain ⟨rfl, len, form⟩ | ⟨rfl, len, form⟩ := decodeWords_eq_ok ok
  · have low := low_of_lengthOf_four len
    rw [extractLsb'_extractLsb'_of_le (by decide)] at low
    obtain ⟨word, wf⟩ := encode32_of_decode32 low form
    refine ⟨.inl ⟨rfl, encode_eq_some.2 (.inl ⟨_, word, (bytesOf32_wordOfBytes ..).symm⟩)⟩, wf, (instrLen_of_encode32 word).symm⟩
  · have low := low_of_lengthOf_eight len
    rw [extractLsb'_extractLsb'_of_le (by decide), ← extractLsb'_append_eq_of_add_le (xhi := wordOfBytes b4 b5 b6 b7) (by decide)] at low
    obtain ⟨word, wf⟩ := encode64_of_decode64 low form
    obtain ⟨sh, o, row, layout⟩ := encode64_eq_some.1 word
    refine ⟨.inr ⟨rfl, parcel_wordOfBytes b0 b1 b2 b3 ▸ len, encode_eq_some.2 (.inr ⟨encode32_eq_none_of_engine? row, _, word, ?_⟩)⟩, wf, (instrLen_of_engine? row).symm⟩
    rw [low_of_append, high_of_append, bytesOf32_wordOfBytes, bytesOf32_wordOfBytes]
    rfl

/-- Settles O2: the bytes that decode do so as a 32-bit or as a 64-bit form, each of which is the encoding of what it decodes to. -/
theorem encodeOfDecodeIsTheWord : Obligations.EncodeOfDecodeIsTheWord := by
  intro bs i n ok
  unfold decode at ok
  split at ok
  case h_1 =>
    obtain ⟨⟨rfl, word⟩ | ⟨rfl, -, word⟩, wf, len⟩ := encode_of_decodeWords ok
    · exact ⟨word, wf, len⟩
    · exact ⟨word, wf, len⟩
  case h_2 b0 b1 b2 b3 _ _ =>
    split at ok
    case isTrue => cases ok
    case isFalse short =>
      obtain ⟨⟨rfl, word⟩ | ⟨-, long, -⟩, wf, len⟩ := encode_of_decodeWords (b4 := 0) (b5 := 0) (b6 := 0) (b7 := 0) ok
      · exact ⟨word, wf, len⟩
      · exact absurd long short
  case h_3 => split at ok <;> cases ok
  case h_4 => cases ok

end Sys2Proof
end

section
/-! What forwarding may change of a hart, the slots that a fetch keeps occupied, and O7: no step stops. -/

namespace Sys2Proof.Machine

/-- Forwarding takes nothing from the hart and gives it nothing but message state: an inbox reservation, a send-queue entry, the reply
that was due (R145, R266, R272, R281). -/
def OnlyMsg (plan : Nat → Hart → Fwd) : Prop :=
  ∀ k h opa opb w2 g, plan k h = .go opa opb w2 g → g = { h with msg := g.msg }

theorem onlyMsg_go {opa : Hart → Word} {opb : Hart → BitVec 32} {w2 : Hart → Word} : OnlyMsg fun _ h => .go (opa h) (opb h) (w2 h) h := by
  intro k h a b w g e
  cases e
  rfl

theorem onlyMsg_go_msg {opa : Hart → Word} {opb : Hart → BitVec 32} {w2 : Hart → Word} (m : Hart → MsgState) :
    OnlyMsg fun _ h => .go (opa h) (opb h) (w2 h) { h with msg := m h } := by
  intro k h a b w g e
  cases e
  rfl

theorem onlyMsg_planCompute (i : Instr) : OnlyMsg fun _ h => planCompute i h := by
  intro k h a b w g e
  simp only [planCompute] at e
  split at e <;> cases e
  rfl

theorem onlyMsg_planCopy {opa : Hart → Word} {opb : Hart → BitVec 32} {w2 : Hart → Word} :
    OnlyMsg fun _ h => planCopy h (opa h) (opb h) (w2 h) := by
  intro k h a b w g e
  simp only [planCopy] at e
  split at e
  · cases e
    rfl
  · split at e <;> cases e
    rfl

theorem onlyMsg_planSend (i : Instr) (o : Eops) (n : Nat) : OnlyMsg (planSend i o n) := by
  intro k h a b w g e
  simp only [planSend] at e
  split at e
  · cases e
  · split at e
    · cases e
    · split at e <;> cases e
      rfl

/-- A plan that may turn the instruction away first. -/
theorem onlyMsg_ite {c : Nat → Hart → Prop} [∀ k h, Decidable (c k h)]
    {cause : Nat} {tval : Word} {plan : Nat → Hart → Fwd} (ok : OnlyMsg plan) :
    OnlyMsg fun k h => if c k h then .trap cause tval else plan k h := by
  intro k h a b w g e
  simp only at e
  split at e
  · cases e
  · exact ok k h a b w g e

theorem onlyMsg_drain (o : Eops) : OnlyMsg fun k h =>
    let self := slotOfHwhere (rx h (xreg o.vs1)).toNat == k
    if self && h.msg.rsv ≥ 16 then .wait
    else .go (rx h (xreg o.vs1)) ((rx h (xreg o.vs3)).setWidth 32) (rx h (xreg o.vs3))
      (if self then { h with msg := { h.msg with rsv := h.msg.rsv + 1 } } else h) := by
  intro k h a b w g e
  simp only at e
  split at e
  · cases e
  · cases e
    split <;> rfl

/-- A lane computation forwards by the one plan of groups 2 to 8 (R153). -/
theorem exec_eq_forwardCompute (s : State) {i : Instr} {sh : Shape} {o : Eops} (e : engine? i = some (sh, o)) (two : 2 ≤ sh.grp)
    (eight : sh.grp ≤ 8) : exec i s = forwardCompute i s := by
  cases i <;> cases e
  all_goals first | exact absurd two (of_decide_eq_false rfl) | exact absurd eight (of_decide_eq_false rfl) | exact rfl

/-- A lane memory instruction, of groups 0 and 1, forwards with a base and a stride (R165). -/
theorem exec_eq_forwardMem (s : State) {i : Instr} {sh : Shape} {o : Eops} (e : engine? i = some (sh, o)) (one : sh.grp ≤ 1) :
    ∃ opa opb, exec i s = forwardMem i o opa opb s := by
  cases i <;> cases e
  all_goals first | exact absurd one (of_decide_eq_false rfl) | (unfold exec; exact ⟨_, _, rfl⟩)

/-- Every instruction of groups 0 to 12 is forwarded, by a plan that leaves the hart's registers alone (R145). -/
theorem exec_eq_forward (s : State) {i : Instr} {sh : Shape} {o : Eops} (e : engine? i = some (sh, o)) (grp : sh.grp ≤ 0x0C) :
    ∃ plan, exec i s = forward s i plan ∧ OnlyMsg plan := by
  by_cases one : sh.grp ≤ 1
  · obtain ⟨opa, opb, eq⟩ := exec_eq_forwardMem s e one
    exact ⟨_, eq, onlyMsg_go⟩
  by_cases eight : sh.grp ≤ 8
  · exact ⟨_, exec_eq_forwardCompute s e (by omega) eight, onlyMsg_planCompute i⟩
  cases i
  case vredOpen | vredAdd | vredFlush | mma | mmasp | mmabk | mrecv | mackrd =>
    cases e; unfold exec; exact ⟨_, rfl, onlyMsg_ite onlyMsg_go⟩
  case cpgs | cpsg | cpgg | cpmc | cpfill | cpadd => cases e; unfold exec; exact ⟨_, rfl, onlyMsg_planCopy⟩
  case msend | msendb => cases e; unfold exec; exact ⟨_, rfl, onlyMsg_planSend _ _ _⟩
  case tdrain => cases e; unfold exec; exact ⟨_, rfl, onlyMsg_drain _⟩
  case tzero | tmovv | tmovt | tst | tld | twait => cases e; unfold exec; exact ⟨_, rfl, onlyMsg_go⟩
  case msendr => cases e; unfold exec; exact ⟨_, rfl, onlyMsg_ite (onlyMsg_go_msg fun h => { h.msg with rplDue := false })⟩
  case vcvtFF | vcvtFI | vcvtIF => cases e; exact absurd (of_decide_eq_true rfl) eight
  all_goals cases e <;> contradiction

/-- Every instruction of a hart is an effect on the hart in `cur` that waits behind what it needs. -/
theorem exec_eq_onHart (s : State) {i : Instr} (hart : isHartInstr i = true) : ∃ f, exec i s = onHart s i f := by
  by_cases fwd : ∃ sh o, engine? i = some (sh, o) ∧ sh.grp ≤ 0x0C
  · obtain ⟨sh, o, e, grp⟩ := fwd
    obtain ⟨plan, eq, -⟩ := exec_eq_forward s e grp
    exact ⟨_, eq⟩
  · cases i
    case barSync => exact ⟨_, by unfold exec execBarSync onBarrier; exact rfl⟩
    case barArrive => exact ⟨_, by unfold exec execBarArrive onBarrier; exact rfl⟩
    case barWait => exact ⟨_, by unfold exec execBarWait onBarrier; exact rfl⟩
    case vcvtFF | vcvtFI | vcvtIF => exact absurd ⟨_, _, rfl, of_decide_eq_true rfl⟩ fwd
    all_goals cases hart
    all_goals first | exact absurd ⟨_, _, rfl, of_decide_eq_true rfl⟩ fwd | exact ⟨_, by unfold exec; exact rfl⟩

/-- An instruction of a hart executes where a hart stands in `cur`. -/
theorem exec_next_of_hart {s : State} {h : Hart} {i : Instr} (hart : isHartInstr i = true) (here : hartAt s s.cur = some h) :
    ∃ t, exec i s = .next t := by
  obtain ⟨f, e⟩ := exec_eq_onHart s hart
  rw [e, onHart, withHart, here]
  exact ⟨_, rfl⟩

/-- Every other event goes on: what has nothing to do leaves the state. -/
theorem exec_next_of_event (s : State) {i : Instr} (event : isHartInstr i = false) : ∃ t, exec i s = .next t := by
  cases i
  case copy q =>
    change ∃ t, execCopy q s = .next t
    unfold execCopy
    split <;> exact ⟨_, rfl⟩
  case waitPoll q =>
    change ∃ t, execWaitPoll q s = .next t
    simp only [execWaitPoll]
    split <;> exact ⟨_, rfl⟩
  all_goals cases event
  all_goals exact ⟨_, rfl⟩

/-! ## The slots that hold a hart -/

/-- The same slots hold a hart. -/
def SameSlots (s t : State) : Prop := ∀ k, (hartAt t k).isSome = (hartAt s k).isSome

theorem SameSlots.refl (s : State) : SameSlots s s := fun _ => rfl

theorem SameSlots.trans {s t u : State} (st : SameSlots s t) (tu : SameSlots t u) : SameSlots s u := fun k => (tu k).trans (st k)

theorem SameSlots.of_harts_eq {s t : State} (e : t.harts = s.harts) : SameSlots s t := fun k => by rw [hartAt, hartAt, e]

theorem SameSlots.some {s t : State} (st : SameSlots s t) {k : Nat} {h : Hart} (here : hartAt s k = some h) :
    ∃ g, hartAt t k = some g := Option.isSome_iff_exists.mp (by rw [st k, here]; rfl)

theorem tget_map_isSome {α : Type} (l : Tbl α) (f : Nat × α → Nat × α) (key : ∀ p, (f p).1 = p.1) (k : Nat) :
    (tget (l.map f) k).isSome = (tget l k).isSome := by
  induction l with
  | nil => rfl
  | cons p l ih =>
    have kp := key p
    rcases p with ⟨j, a⟩
    rw [List.map_cons]
    rcases fp : f (j, a) with ⟨j', b⟩
    rw [fp] at kp
    cases kp
    simp only [tget]
    split
    · rfl
    · exact ih

/-! A read of memory may end reservations, and touches no other part of a hart. -/

theorem sameSlots_loseLine (s : State) (line writer : Nat) : SameSlots s (loseLine s line writer) := by
  intro k
  apply tget_map_isSome
  intro p
  split <;> rfl

theorem sameSlots_foldl {α : Type} (f : State → α → State) (keeps : ∀ s a, SameSlots s (f s a)) (l : List α) (s : State) :
    SameSlots s (l.foldl f s) := by
  induction l generalizing s with
  | nil => exact .refl s
  | cons a l ih => exact (keeps s a).trans (ih _)

theorem sameSlots_applyDirty (s : State) (line : Nat) (bs : List Byte) (late : List Nat) : SameSlots s (applyDirty s line bs late) :=
  (SameSlots.of_harts_eq rfl).trans (sameSlots_foldl (fun s u => loseLine s line u) (fun s u => sameSlots_loseLine s line u) late _)

theorem sameSlots_recallLine (s : State) (line : Nat) : SameSlots s (recallLine s line) := by
  unfold recallLine
  split
  · exact .refl s
  · split
    · exact (sameSlots_applyDirty _ _ _ _).trans (.of_harts_eq rfl)
    · exact .refl s

theorem sameSlots_fillLine (s : State) (die line : Nat) : SameSlots s (fillLine s die line) := by
  unfold fillLine
  split
  · split
    · exact .refl s
    · exact (sameSlots_recallLine s line).trans (.of_harts_eq rfl)
  · exact (sameSlots_recallLine s line).trans (.of_harts_eq rfl)

theorem sameSlots_contextFault (s : State) (asid cause : Nat) : SameSlots s (contextFault s asid cause) := by
  unfold contextFault
  split
  · exact .refl s
  · exact .of_harts_eq rfl

theorem sameSlots_lostFault (s : State) (asid pa n : Nat) : SameSlots s (lostFault s asid pa n) := by
  unfold lostFault
  split
  · exact sameSlots_contextFault s asid 3
  · exact .refl s

theorem sameSlots_readHome {s t : State} {pa n : Nat} {bs : List Byte} (e : readHome s pa n = some (bs, t)) : SameSlots s t := by
  unfold readHome at e
  split at e
  · cases e
    exact sameSlots_foldl _ (fun s l => sameSlots_fillLine s 4 l) _ s
  · cases e

/-! ## Translation and fetch keep the slots -/

theorem sameSlots_pteStep (s : State) (die sl asid vpn level table : Nat) : SameSlots s (pteStep s die sl asid vpn level table).2 := by
  simp only [pteStep]
  split
  · exact .refl s
  · split
    · exact sameSlots_lostFault s _ _ _
    · next p t got =>
      have kept : SameSlots s t := by
        split at got
        · cases got
          exact .refl s
        · simp only [Option.map_eq_some_iff] at got
          obtain ⟨⟨bs, u⟩, read, e⟩ := got
          cases e
          exact sameSlots_readHome read
      repeat' split
      all_goals exact kept

theorem sameSlots_walkFrom (s : State) (die sl asid vpn table : Nat) (read : List WalkEntry) (level : Nat) :
    SameSlots s (walkFrom s die sl asid vpn table read level).2 := by
  induction level generalizing s table read with
  | zero =>
    have kept := sameSlots_pteStep s die sl asid vpn 0 table
    simp only [walkFrom]
    split <;> simp_all
  | succ level ih =>
    have kept := sameSlots_pteStep s die sl asid vpn (level + 1) table
    simp only [walkFrom]
    split
    · next e => rw [e] at kept; exact kept
    · next e => rw [e] at kept; exact kept
    · next e => rw [e] at kept; exact kept
    · next e => rw [e] at kept; exact kept.trans (ih _ _ _)

theorem sameSlots_leafOf (s : State) (die asid : Nat) (satp va : Word) : SameSlots s (leafOf s die asid satp va).2 := by
  simp only [leafOf]
  split
  · exact .refl s
  · split
    · exact .refl s
    · split
      · exact .refl s
      · have kept := sameSlots_walkFrom s die (sliceOf va) asid (vpnOf va) (satp.toNat % 2 ^ 44 * 4096) [] 3
        split <;> next e => rw [e] at kept; exact kept

theorem sameSlots_atsAsk (s : State) (r : AtsReq) : SameSlots s (atsAsk s r) := by
  unfold atsAsk
  split
  · exact .refl s
  · exact .of_harts_eq rfl

theorem sameSlots_atsStep (s : State) (asid : Nat) (acc : Acc) (priv : Bool) (who : Option (Nat × Nat)) (port addr : Nat) :
    SameSlots s (atsStep s asid acc priv who port addr).2 := by
  simp only [atsStep]
  split
  · exact sameSlots_atsAsk s _
  · split
    · exact .refl s
    · split
      · exact (SameSlots.of_harts_eq rfl).trans (sameSlots_atsAsk _ _)
      · exact .of_harts_eq rfl

theorem sameSlots_xlate (s : State) (die asid : Nat) (satp va : Word) (acc : Acc) (mode : Mode) (sum mxr : Bool)
    (who : Option (Nat × Nat)) : SameSlots s (xlate s die asid satp va acc mode sum mxr who).2 := by
  have kept := sameSlots_leafOf s die asid satp va
  simp only [xlate]
  split
  · exact .refl s
  · split
    · exact .refl s
    · split
      · next e => rw [e] at kept; exact kept
      · next p level read w hit t e =>
        rw [e] at kept
        split
        · exact kept
        · split
          · exact kept
          · have cached : SameSlots s (if hit then t else cacheLeaf t die asid va p level read) := by
              split
              · exact kept
              · exact kept.trans (.of_harts_eq rfl)
            generalize (if hit then t else cacheLeaf t die asid va p level read) = u at cached ⊢
            split
            · exact cached
            · split
              · exact cached.trans (sameSlots_lostFault _ _ _ _)
              · split
                · exact cached.trans (sameSlots_atsStep _ _ _ _ _ _ _)
                · exact cached

theorem sameSlots_fetchLine {s t : State} {k asid pa : Nat} {bs : List Byte} (e : fetchLine s k asid pa = some (bs, t)) :
    SameSlots s t := by
  simp only [fetchLine] at e
  split at e
  · cases e
    exact .refl s
  · split at e
    · cases e
      exact (sameSlots_fillLine s _ _).trans (.of_harts_eq rfl)
    · cases e

theorem sameSlots_fetch4 (s : State) (k asid : Nat) (satp : Word) (mode : Mode) (pc : Word) :
    SameSlots s (fetch4 s k asid satp mode pc).2 := by
  have hbm (s : State) (pa : Nat) : SameSlots s (match fetchLine s k asid pa with
      | some (bs, s) => ((.ok bs, s) : Fetched × State)
      | none => (.wait, lostFault s asid pa 4)).2 := by
    split
    · next e => exact sameSlots_fetchLine e
    · exact sameSlots_lostFault s _ _ _
  have kept := sameSlots_xlate s (dieOfSlot k) asid satp pc .fetch mode false false none
  simp only [fetch4]
  split
  · exact .refl s
  · split
    · split
      · exact .refl s
      · split
        · exact hbm s _
        · exact .refl s
    · split <;> next e => rw [e] at kept; first | exact kept | exact kept.trans (hbm _ _)

theorem sameSlots_fetchInstr (s : State) (k asid : Nat) (satp : Word) (mode : Mode) (pc : Word) :
    SameSlots s (fetchInstr s k asid satp mode pc).2 := by
  have first := sameSlots_fetch4 s k asid satp mode pc
  simp only [fetchInstr]
  split
  · next e =>
    rw [e] at first
    split
    · have second := sameSlots_fetch4 (fetch4 s k asid satp mode pc).2 k asid satp mode (pc + 4)
      rw [e] at second
      split
      · next f => rw [f] at second; exact first.trans second
      · exact first.trans second
    · exact first
  · exact first

theorem sameSlots_fetchFor (s : State) (k : Nat) (h : Hart) : SameSlots s (fetchFor s k h).2 := sameSlots_fetchInstr s k _ _ _ _

/-! ## Every turn goes on -/

/-- What decodes is an instruction of a hart. -/
theorem isHartInstr_of_decode {bs : List Byte} {i : Instr} {n : Nat} (d : decode bs = .ok i n) : isHartInstr i = true := by
  obtain ⟨enc, -, -⟩ := encodeOfDecodeIsTheWord bs i n d
  unfold encode at enc
  unfold isHartInstr
  split at enc
  · next w e => rw [e]; rfl
  · next e =>
    cases e64 : encode64 i with
    | none => rw [e64] at enc; cases enc
    | some w =>
      obtain ⟨sh, o, e, -⟩ := encode64_eq_some.mp e64
      rw [e, Option.isSome_some, Bool.or_true]

theorem hartAt_atHart {s : State} {k : Nat} {h g : Hart} {i : Instr} (here : hartAt s k = some g) :
    ∃ g, hartAt (atHart s k h i) (atHart s k h i).cur = some g := by
  unfold atHart
  split
  · exact ⟨g, here⟩
  · exact ⟨_, hartAt_setHart_same _ _ _⟩

theorem runInstr_next {s : State} {k : Nat} {h g : Hart} (here : hartAt s k = some g) : ∃ t, runInstr s k h = .next t := by
  obtain ⟨g', here'⟩ := (sameSlots_fetchFor s k h).some here
  unfold runInstr
  split
  · exact ⟨_, rfl⟩
  · exact ⟨_, rfl⟩
  · next bs s' e =>
    rw [e] at here'
    split
    · next i n d =>
      obtain ⟨_, at_⟩ := hartAt_atHart (h := h) (i := i) here'
      exact exec_next_of_hart (isHartInstr_of_decode d) at_
    · exact ⟨_, rfl⟩
    · exact ⟨_, rfl⟩

theorem activeTurn_next {s : State} {k : Nat} {h g : Hart} (here : hartAt s k = some g) : ∃ t, activeTurn s k h = .next t := by
  obtain ⟨t, e⟩ := runInstr_next (h := h) here
  unfold activeTurn
  rw [e]
  repeat' split
  all_goals exact ⟨_, rfl⟩

theorem stepTurn_next (s : State) (k : Nat) (h : Hart) (n : Nat) : ∃ t, stepTurn s k h n = .next t := by
  obtain ⟨t, e⟩ := activeTurn_next (h := { h with halted := false }) (hartAt_setHart_same s k { h with halted := false })
  simp only [stepTurn]
  rw [e]
  repeat' split
  all_goals exact ⟨_, rfl⟩

theorem hartTurn_next (s : State) (k : Nat) : ∃ t, hartTurn s k = .next t := by
  unfold hartTurn
  split
  · exact ⟨_, rfl⟩
  · next h here =>
    split
    · split
      · exact stepTurn_next s k h _
      · exact ⟨_, rfl⟩
    · exact activeTurn_next here

theorem turn_next (t : Turn) (s : State) : ∃ u, turn t s = .next u := by
  cases t with
  | hart k => exact hartTurn_next s k
  | event i =>
    simp only [turn]
    split
    · exact ⟨_, rfl⟩
    · next event => exact exec_next_of_event s (by simpa using event)
  | _ => exact ⟨_, rfl⟩

/-- Settles O7: every event is an outcome of a state, and a turn of a hart executes what it decodes, an instruction of a hart, in a slot
that the fetch has kept occupied. -/
theorem noStepEverStops : Obligations.NoStepEverStops := by
  intro s
  unfold step
  split
  · exact turn_next _ _
  · exact turn_next _ _

end Sys2Proof.Machine
end

section
/-! The byte stores: what leaves them alone, what keeps them canonical; the passing of time; reset and the step (O3 to O6, O9, O10). -/

namespace Sys2Proof.Machine

/-! ## What leaves the byte stores and the clock as they are -/

/-- The four byte stores and the clock. -/
def ground (s : State) : Memory × Memory × Memory × Memory × Clock := (s.mem.hbm, s.mem.host, s.tstore, s.tiles, s.clock)

theorem ground_eq_iff {s t : State} : ground t = ground s ↔
    t.mem.hbm = s.mem.hbm ∧ t.mem.host = s.mem.host ∧ t.tstore = s.tstore ∧ t.tiles = s.tiles ∧ t.clock = s.clock := by
  simp only [ground, Prod.mk.injEq]

theorem sameBytes_of_ground {s t : State} (e : ground t = ground s) : sameBytes s t := by
  obtain ⟨hbm, host, tstore, tiles, -⟩ := ground_eq_iff.mp e
  simp only [sameBytes, hbm, host, tstore, tiles, implies_true, and_self]

theorem memoriesWf_of_ground {s t : State} (e : ground t = ground s) (wf : memoriesWf s) : memoriesWf t := by
  obtain ⟨hbm, host, tstore, tiles, -⟩ := ground_eq_iff.mp e
  simpa only [memoriesWf, hbm, host, tstore, tiles] using wf

/-- A step that leaves something of the state as it is leaves it so when repeated. -/
theorem foldl_keeps {α β : Type} {of : State → β} {f : State → α → State} (keeps : ∀ s a, of (f s a) = of s) (l : List α) (s : State) :
    of (l.foldl f s) = of s := by
  induction l generalizing s with
  | nil => rfl
  | cons a l ih => exact (ih _).trans (keeps s a)

@[simp] theorem ground_pushEvent (s : State) (e : EvtRec) : ground (pushEvent s e) = ground s := rfl
@[simp] theorem ground_raiseIrq (s : State) (n : Nat) (p : Hart → Bool) : ground (raiseIrq s n p) = ground s := rfl
@[simp] theorem ground_updAcct (s : State) (a : Nat) (f : Acct → Acct) : ground (updAcct s a f) = ground s := rfl
@[simp] theorem ground_updGrid (s : State) (g : Nat) (f : Grid → Grid) : ground (updGrid s g f) = ground s := rfl
@[simp] theorem ground_bumpReg (s : State) (off len n : Nat) : ground (bumpReg s off len n) = ground s := rfl
@[simp] theorem ground_updEth (s : State) (e : Nat) (f : Eth → Eth) : ground (updEth s e f) = ground s := rfl
@[simp] theorem ground_updHart (s : State) (k : Nat) (f : Hart → Hart) : ground (updHart s k f) = ground s := rfl
@[simp] theorem ground_setHart (s : State) (k : Nat) (h : Hart) : ground (setHart s k h) = ground s := rfl
@[simp] theorem ground_updCore (s : State) (c : Nat) (f : Core → Core) : ground (updCore s c f) = ground s := rfl
@[simp] theorem ground_pushReq (s : State) (r : HomeReq) : ground (pushReq s r) = ground s := rfl
@[simp] theorem ground_clearLost (s : State) (l : Nat) : ground (clearLost s l) = ground s := rfl
@[simp] theorem ground_loseLine (s : State) (l w : Nat) : ground (loseLine s l w) = ground s := rfl
@[simp] theorem ground_loseStoreLine (s : State) (c l w : Nat) : ground (loseStoreLine s c l w) = ground s := rfl

@[simp] theorem ground_wakeMonitors (s : State) (c l w : Nat) : ground (wakeMonitors s c l w) = ground s := by
  simp only [wakeMonitors]
  split <;> rfl

@[simp] theorem ground_teamEvent (s : State) (type tk : Nat) : ground (teamEvent s type tk) = ground s := by
  unfold teamEvent
  split <;> rfl

@[simp] theorem ground_stopPlacing (s : State) (p : Nat → Grid → Bool) : ground (stopPlacing s p) = ground s := rfl

theorem dropRdcLine_hbm (m : MemSys) (die line : Nat) : (dropRdcLine m die line).hbm = m.hbm := by
  simp only [dropRdcLine]
  split
  · rfl
  · split <;> rfl

theorem dropRdcLine_host (m : MemSys) (die line : Nat) : (dropRdcLine m die line).host = m.host := by
  simp only [dropRdcLine]
  split
  · rfl
  · split <;> rfl

theorem ground_updMem {s : State} {f : MemSys → MemSys} (hbm : (f s.mem).hbm = s.mem.hbm) (host : (f s.mem).host = s.mem.host) :
    ground (updMem s f) = ground s :=
  ground_eq_iff.mpr ⟨hbm, host, rfl, rfl, rfl⟩

@[simp] theorem ground_evictLine (s : State) (die line : Nat) : ground (evictLine s die line) = ground s :=
  ground_updMem (dropRdcLine_hbm _ _ _) (dropRdcLine_host _ _ _)

@[simp] theorem ground_notePick (s : State) (p : Point) (me : Cand) (others : List Cand) :
    ground (notePick s p me others) = ground s := by
  unfold notePick
  split <;> rfl

@[simp] theorem ground_noteOffer (s : State) (q : Nat) : ground (noteOffer s q) = ground s := by
  unfold noteOffer
  split
  · rfl
  · split
    · exact ground_notePick _ _ _ _
    · rfl

@[simp] theorem ground_overrun (s : State) (a : Nat) (ac : Acct) : ground (overrun s a ac) = ground s := by
  simp only [overrun]
  split
  · exact ground_teamEvent _ _ _
  · rfl

@[simp] theorem ground_charge (s : State) (a n : Nat) : ground (charge s a n) = ground s := by
  simp only [charge]
  split
  · rfl
  · split
    · rfl
    · split
      · exact ground_overrun _ _ _
      · rfl

@[simp] theorem ground_accountZero (s : State) (a : Nat) : ground (accountZero s a) = ground s := by
  unfold accountZero
  split
  · split
    · exact ground_overrun _ _ _
    · rfl
  · rfl

@[simp] theorem ground_deadlineMiss (s : State) (g : Nat) : ground (deadlineMiss s g) = ground s := by
  simp only [deadlineMiss]
  split
  · rfl
  · split <;> rfl

@[simp] theorem ground_graceTick (s : State) (a : Nat) : ground (graceTick s a) = ground s := by
  simp only [graceTick]
  split
  · rfl
  · split <;> rfl

@[simp] theorem ground_chargeResidency (ran : List Nat) (s : State) : ground (chargeResidency ran s) = ground s :=
  foldl_keeps (fun s a => ground_charge s a 1) _ s

@[simp] theorem ground_advanceClocks (s : State) (n : Nat) : ground (advanceClocks s n) = ground s :=
  foldl_keeps (fun s e => ground_updEth s e _) _ s

@[simp] theorem ground_noteOffers (s : State) : ground (noteOffers s) = ground s := foldl_keeps ground_noteOffer _ s

/-! ## Time (R5) -/

/-- The clock after a tick. -/
def tickClock (c : Clock) : Clock :=
  let r := c.nsRem + 5
  let c := { c with clk := c.clk + 1, nsRem := r % 9 }
  if r ≥ 9 then advanceTime c else c

/-- A tick writes no byte, and of the clock what `tickClock` says. -/
theorem ground_tick (s : State) : ground (tick s) = ground { s with clock := tickClock s.clock } := by
  have offers := ground_eq_iff.mp (ground_noteOffers s)
  obtain ⟨hbm, host, tstore, tiles, clock⟩ := offers
  simp only [tick]
  rw [foldl_keeps ground_graceTick, foldl_keeps ground_deadlineMiss, foldl_keeps ground_accountZero, ground_chargeResidency]
  simp only [tickClock, clock]
  split
  · rw [ground_advanceClocks]
    simp only [ground, hbm, host, tstore, tiles]
  · simp only [ground, hbm, host, tstore, tiles]

theorem ground_elapse (n : Nat) (s : State) : ground (elapse n s) = ground { s with clock := tickClock^[n] s.clock } := by
  induction n generalizing s with
  | zero => rfl
  | succ n ih =>
    obtain ⟨hbm, host, tstore, tiles, clock⟩ := ground_eq_iff.mp (ground_tick s)
    rw [elapse, ih, clock]
    simp only [ground, hbm, host, tstore, tiles, Function.iterate_succ_apply]

theorem elapse_clock (n : Nat) (s : State) : (elapse n s).clock = tickClock^[n] s.clock := (ground_eq_iff.mp (ground_elapse n s)).2.2.2.2

theorem sameBytes_elapse (n : Nat) (s : State) : sameBytes s (elapse n s) :=
  sameBytes_of_ground (t := { elapse n s with clock := s.clock }) (by
    obtain ⟨hbm, host, tstore, tiles, -⟩ := ground_eq_iff.mp (ground_elapse n s)
    simp only [ground, hbm, host, tstore, tiles])

theorem tickClock_clk (c : Clock) : (tickClock c).clk = c.clk + 1 := by
  simp only [tickClock]
  split <;> rfl

theorem tickClock_iterate_clk (n : Nat) (c : Clock) : (tickClock^[n] c).clk = c.clk + n := by
  induction n generalizing c with
  | zero => rfl
  | succ n ih => rw [Function.iterate_succ_apply, ih, tickClock_clk]; omega

/-- A tick of a clock that is not steered, with r ninths of a nanosecond left over. -/
theorem tickClock_unsteered {c : Clock} (steer : c.steer = 0) :
    (tickClock c).steer = 0 ∧ (tickClock c).nsRem = (c.nsRem + 5) % 9 ∧
      (tickClock c).time = if 9 ≤ c.nsRem + 5 then (c.time + 1) % 2 ^ 64 else c.time := by
  simp only [tickClock]
  split <;> simp_all [advanceTime]

/-- 9 clk are 5 ns (R5): the ninths left over come round. -/
theorem tickClock_nine {c : Clock} (steer : c.steer = 0) (rem : c.nsRem < 9) :
    (tickClock^[9] c).time = (c.time + 5) % 2 ^ 64 ∧ (tickClock^[9] c).nsRem = c.nsRem := by
  obtain ⟨s1, r1, t1⟩ := tickClock_unsteered steer
  obtain ⟨s2, r2, t2⟩ := tickClock_unsteered s1
  obtain ⟨s3, r3, t3⟩ := tickClock_unsteered s2
  obtain ⟨s4, r4, t4⟩ := tickClock_unsteered s3
  obtain ⟨s5, r5, t5⟩ := tickClock_unsteered s4
  obtain ⟨s6, r6, t6⟩ := tickClock_unsteered s5
  obtain ⟨s7, r7, t7⟩ := tickClock_unsteered s6
  obtain ⟨s8, r8, t8⟩ := tickClock_unsteered s7
  obtain ⟨-, r9, t9⟩ := tickClock_unsteered s8
  simp only [Function.iterate_succ_apply, Function.iterate_zero_apply]
  rw [r8, r7, r6, r5, r4, r3, r2, r1] at *
  generalize c.nsRem = r at *
  rw [t9, t8, t7, t6, t5, t4, t3, t2, t1, r9]
  interval_cases r <;> simp

/-- Settles O10. -/
theorem timePassesAndEvictionsWriteNoByte : Obligations.TimePassesAndEvictionsWriteNoByte := by
  refine ⟨fun s => ⟨fun n => ?_, fun steer rem => ?_⟩, fun s t rest head next => ?_⟩
  · rw [elapse_clock, tickClock_iterate_clk]
  · rw [elapse_clock]
    exact tickClock_nine steer rem
  · obtain ⟨n, e⟩ | ⟨d, l, e⟩ | ⟨c, l, e⟩ | ⟨c, k, e⟩ | ⟨d, sl, n, e⟩ | ⟨k, r, l, e⟩ := head
    all_goals
      simp only [step, e, turn, Host.Outcome.next.injEq] at next
      subst next
    · exact sameBytes_elapse n { s with agenda := rest }
    · exact sameBytes_of_ground (s := { s with agenda := rest }) (ground_evictLine _ d l)
    all_goals exact sameBytes_of_ground (s := { s with agenda := rest }) rfl

/-! ## Byte stores (R4, R11) -/

theorem rd8_wrBytes_other (m : Memory) {a b : Nat} (bs : List Byte) (out : b < a ∨ a + bs.length ≤ b) :
    rd8 (wrBytes m a bs) b = rd8 m b := by
  induction bs generalizing m a with
  | nil => rfl
  | cons c bs ih =>
    simp only [List.length_cons] at out
    rw [wrBytes, ih _ (by omega), rd8_wr8_other _ _ (by omega)]

theorem rdBytes_wrBytes (m : Memory) (a : Nat) (bs : List Byte) : rdBytes (wrBytes m a bs) a bs.length = bs := by
  induction bs generalizing m a with
  | nil => rfl
  | cons c bs ih => rw [wrBytes, List.length_cons, rdBytes, ih, rd8_wrBytes_other _ _ (by omega), rd8_wr8_same]

theorem length_leBytes (n v : Nat) : (leBytes n v).length = n := by
  induction n generalizing v with
  | zero => rfl
  | succ n ih => rw [leBytes, List.length_cons, ih]

theorem leNat_leBytes {n v : Nat} (small : v < 2 ^ (8 * n)) : leNat (leBytes n v) = v := by
  induction n generalizing v with
  | zero => simp_all [leBytes, leNat]
  | succ n ih =>
    have high : v / 256 < 2 ^ (8 * n) := Nat.div_lt_of_lt_mul (by rw [Nat.mul_succ, pow_add] at small; omega)
    rw [leBytes, leNat, ih high, BitVec.toNat_ofNat]
    omega

theorem rdN_wrN (m : Memory) (a : Nat) {n v : Nat} (small : v < 2 ^ (8 * n)) : rdN (wrN m a n v) a n = v := by
  have read := rdBytes_wrBytes m a (leBytes n v)
  rw [length_leBytes] at read
  rw [rdN, wrN, read, leNat_leBytes small]

/-- A write in a window writes its bytes in the team stores, and no other byte (R52, R282). -/
theorem ground_writeWin (s : State) (core win off writer : Nat) (bs : List Byte) :
    ground (writeWin s core win off writer bs) = ground { s with tstore := wrBytes s.tstore (winKey core win off) bs } := by
  simp only [writeWin, ground_wakeMonitors, ground_loseStoreLine]

theorem writeWin_tstore (s : State) (core win off writer : Nat) (bs : List Byte) :
    (writeWin s core win off writer bs).tstore = wrBytes s.tstore (winKey core win off) bs :=
  (ground_eq_iff.mp (ground_writeWin s core win off writer bs)).2.2.1

/-! ## The named writes keep the canonical form (log 6) -/

theorem memoriesWf_foldl {α : Type} {f : State → α → State} (keeps : ∀ s a, memoriesWf s → memoriesWf (f s a)) (l : List α) {s : State}
    (wf : memoriesWf s) : memoriesWf (l.foldl f s) := by
  induction l generalizing s with
  | nil => exact wf
  | cons a l ih => exact ih (keeps s a wf)

theorem memoriesWf_wrHbm {s : State} (wf : memoriesWf s) (a : Nat) (bs : List Byte) :
    memoriesWf (updMem s fun m => { m with hbm := wrBytes m.hbm a bs }) := by
  obtain ⟨hbm, host, tstore, tiles⟩ := wf
  exact ⟨wf_wrBytes a bs hbm, host, tstore, tiles⟩

@[simp] theorem ground_makeRoom (m : MemSys) (die : Nat) : (makeRoom m die).hbm = m.hbm ∧ (makeRoom m die).host = m.host := by
  simp only [makeRoom]
  split
  · split
    · exact ⟨rfl, rfl⟩
    · exact ⟨dropRdcLine_hbm _ _ _, dropRdcLine_host _ _ _⟩
  · exact ⟨rfl, rfl⟩

@[simp] theorem ground_setRdc (s : State) (die line : Nat) (r : Option RdcLine) : ground (setRdc s die line r) = ground s := by
  unfold setRdc
  split
  · exact ground_updMem (by simp only []; split <;> simp) (by simp only []; split <;> simp)
  · rfl

theorem memoriesWf_applyDirty {s : State} (wf : memoriesWf s) (line : Nat) (bs : List Byte) (late : List Nat) :
    memoriesWf (applyDirty s line bs late) :=
  memoriesWf_of_ground (foldl_keeps (fun s u => ground_loseLine s line u) late _)
    (memoriesWf_of_ground (ground_clearLost _ line) (memoriesWf_wrHbm wf (line * 128) bs))

theorem memoriesWf_recallLine {s : State} (wf : memoriesWf s) (line : Nat) : memoriesWf (recallLine s line) := by
  unfold recallLine
  split
  · exact wf
  · split
    · exact memoriesWf_of_ground (ground_setRdc _ _ _ _) (memoriesWf_applyDirty wf _ _ _)
    · exact wf

theorem memoriesWf_invalidateAll {s : State} (wf : memoriesWf s) (pa n : Nat) : memoriesWf (invalidateAll s pa n) :=
  memoriesWf_foldl (fun _ l wf =>
    memoriesWf_of_ground (foldl_keeps (fun s d => ground_setRdc s d l none) _ _) (memoriesWf_recallLine wf l)) _ wf

theorem touchMsc_stores (m : MemSys) (line : Nat) : ((touchMsc m line).hbm, (touchMsc m line).host) = (m.hbm, m.host) := by
  unfold touchMsc
  split <;> rfl

theorem foldl_touchMsc_stores (l : List Nat) (m : MemSys) : ((l.foldl touchMsc m).hbm, (l.foldl touchMsc m).host) = (m.hbm, m.host) := by
  induction l generalizing m with
  | nil => rfl
  | cons a l ih => exact (ih _).trans (touchMsc_stores m a)

theorem memoriesWf_writeAtHome {s : State} (wf : memoriesWf s) (uid pa : Nat) (bs : List Byte) : memoriesWf (writeAtHome s uid pa bs) := by
  have dropped := memoriesWf_invalidateAll wf pa bs.length
  simp only [writeAtHome]
  refine memoriesWf_of_ground (foldl_keeps (fun s l => ground_loseLine s l uid) _ _) ?_
  refine memoriesWf_of_ground (foldl_keeps ground_clearLost _ _) ?_
  obtain ⟨hbm, host⟩ := Prod.mk.injEq _ _ _ _ ▸ foldl_touchMsc_stores (linesOf pa bs.length)
    { (invalidateAll s pa bs.length).mem with hbm := wrBytes (invalidateAll s pa bs.length).mem.hbm pa bs }
  refine memoriesWf_of_ground ?_ (memoriesWf_wrHbm dropped pa bs)
  exact ground_eq_iff.mpr ⟨hbm, host, rfl, rfl, rfl⟩

theorem memoriesWf_homeWrite {s : State} (wf : memoriesWf s) (uid pa : Nat) (bs : List Byte) : memoriesWf (homeWrite s uid pa bs) := by
  unfold homeWrite
  split
  · exact wf
  · split
    · refine memoriesWf_foldl (fun s p wf => ?_) _ wf
      exact memoriesWf_of_ground (s := s) rfl wf
    · exact memoriesWf_writeAtHome wf uid pa bs

theorem memoriesWf_writeWin {s : State} (wf : memoriesWf s) (core win off writer : Nat) (bs : List Byte) :
    memoriesWf (writeWin s core win off writer bs) := by
  obtain ⟨hbm, host, tstore, tiles⟩ := wf
  exact memoriesWf_of_ground (ground_writeWin s core win off writer bs) ⟨hbm, host, wf_wrBytes _ bs tstore, tiles⟩

/-- Settles O9. -/
theorem storesReadBackAndStayCanonical : Obligations.StoresReadBackAndStayCanonical := by
  refine ⟨fun m a bs => ⟨rdBytes_wrBytes m a bs, fun b out => rd8_wrBytes_other m bs out, fun n v small => rdN_wrN m a small⟩,
    fun s core win off writer bs => ?_, fun s wf => ⟨fun md a bs => memoriesWf_homeWrite wf md a bs, fun a bs => ?_,
      fun core win off writer bs => memoriesWf_writeWin wf core win off writer bs, fun core tile vs => ?_⟩⟩
  · obtain ⟨hbm, -, tstore, tiles, -⟩ := ground_eq_iff.mp (ground_writeWin s core win off writer bs)
    rw [readWin, tstore]
    exact ⟨rdBytes_wrBytes _ _ bs, fun a out => rd8_wrBytes_other _ bs out, tiles, hbm⟩
  · obtain ⟨hbm, host, tstore, tiles⟩ := wf
    exact ⟨hbm, wf_wrBytes a bs host, tstore, tiles⟩
  · obtain ⟨hbm, host, tstore, tiles⟩ := wf
    exact ⟨hbm, host, tstore, wf_wrBytes _ _ tiles⟩

/-! ## Reset and the step -/

/-- Settles O4. -/
theorem resetLeavesNothingResident : Obligations.ResetLeavesNothingResident :=
  ⟨fun _ => rfl, rfl, rfl, rfl, rfl, fun _ => rfl, rfl, rfl, fun _ => ⟨rfl, rfl, rfl, rfl⟩, reset_memories_wf⟩

/-- Bytes that are an instruction execute at the hart, after the loads performed ahead that the instruction ends. -/
theorem runInstr_of_decoded {s s' : State} {k n : Nat} {h : Hart} {bs : List Byte} {i : Instr}
    (fetched : fetchFor s k h = (.ok bs, s')) (decoded : decode bs = .ok i n) : runInstr s k h = exec i (atHart s' k h i) := by
  simp only [runInstr, fetched, decoded]

/-- Settles O5: the step is `runInstr` with the arbiter's pick noted. -/
theorem stepRunsTheDecodedInstruction : Obligations.StepRunsTheDecodedInstruction := by
  intro s s0 s' k h bs i n due here running going quiet awake isReady picked fetched decoded
  have runs : step s = noteIssue s0 k h (exec i (atHart s' k h i)) := by
    rw [step_of_turnDue due, hartTurn_of_running here running, activeTurn_of_picked going quiet awake isReady picked,
      runInstr_of_decoded fetched decoded]
  refine ⟨runs, fun none => ?_, fun t next => ?_, fun some => ?_⟩
  · simp [atHart, none]
  · rw [runs, next]
    exact noteIssue_next s0 t k h
  · have ahead : h.ahead.isEmpty = false := by simpa using some
    rw [atHart, if_neg (by simp [ahead])]
    exact hartAt_setHart_same _ _ _

/-- Settles O6. -/
theorem stepTakesTheHeadOfTheAgenda : Obligations.StepTakesTheHeadOfTheAgenda := by
  refine fun s rest => ⟨fun i event head => ?_, fun i hart head => ?_, fun n head => ?_, fun c l head => ?_, fun none empty => ?_⟩
  · simp [step, head, turn, event]
  · simp [step, head, turn, hart]
  · simp only [step, head, turn]
  · simp only [step, head, turn]
  · simp only [step, empty, turn, hartTurn, none]

/-- Settles O3. -/
theorem sampleWordsDecode : Obligations.SampleWordsDecode := by
  unfold Obligations.SampleWordsDecode
  decide

end Sys2Proof.Machine
end

section
/-! Traps, returns from traps, privilege, interrupts and control registers (O11 to O16). -/

namespace Sys2Proof.Machine

/-! ## Bits of a status word -/

theorem wbit_setBit (w : Word) {n : Nat} (b : Bool) (m : Nat) (small : n < 64) : wbit (setBit w n b) m = if m = n then b else wbit w m := by
  have one : (BitVec.ofNat 64 (1 <<< n)).getLsbD m = decide (m = n) := by
    rw [BitVec.getLsbD_ofNat, Nat.one_shiftLeft, Nat.testBit_two_pow]
    by_cases e : n = m <;> simp [e, eq_comm]
    omega
  have high (_ : ¬ m < 64) : w.getLsbD m = false := BitVec.getLsbD_of_ge _ _ (by omega)
  by_cases e : m = n <;> by_cases lt : m < 64 <;> cases b <;> simp_all [wbit, setBit]

theorem wbit_set2 (w : Word) {n : Nat} (v m : Nat) (small : n < 63) :
    wbit (set2 w n v) m = if m = n + 1 then v.testBit 1 else if m = n then v.testBit 0 else wbit w m := by
  rw [set2, wbit_setBit _ _ _ (by omega), wbit_setBit _ _ _ (by omega)]

/-- A two-bit field as a number. -/
theorem toNat_field2 (w : Word) (n : Nat) : ((w >>> n) &&& 3).toNat = w.toNat / 2 ^ n % 4 := by
  rw [BitVec.toNat_and, BitVec.toNat_ushiftRight, Nat.shiftRight_eq_div_pow]
  exact Nat.and_two_pow_sub_one_eq_mod _ 2

theorem field2_eq (w : Word) (n : Nat) : (w >>> n) &&& 3 = BitVec.ofNat 64 (b2n (wbit w n) + 2 * b2n (wbit w (n + 1))) := by
  apply BitVec.eq_of_toNat_eq
  have bit (j : Nat) : b2n (wbit w j) = w.toNat / 2 ^ j % 2 := by
    rw [wbit, BitVec.getLsbD, Nat.testBit_eq_decide_div_mod_eq, b2n]
    split <;> simp_all
  rw [toNat_field2, bit, bit, pow_succ, ← Nat.div_div_eq_div_mul, BitVec.toNat_ofNat]
  omega

theorem field2_set2 (w : Word) {n v : Nat} (small : n < 63) (two : v < 4) : (set2 w n v >>> n) &&& 3 = BitVec.ofNat 64 v := by
  rw [field2_eq, wbit_set2 _ _ _ small, wbit_set2 _ _ _ small]
  interval_cases v <;> simp <;> rfl

theorem toNat_causeWord {cause : Nat} (small : cause < 63) (interrupt : Bool) :
    (causeWord cause interrupt).toNat = cause + if interrupt then 2 ^ 63 else 0 := by
  interval_cases cause <;> cases interrupt <;> rfl

theorem vectorPc_eq (tvec : Word) (cause : Nat) (interrupt : Bool) :
    vectorPc tvec cause interrupt = (tvec &&& ~~~ 3) + if interrupt ∧ tvec &&& 3 = 1 then BitVec.ofNat 64 (4 * cause) else 0 := by
  simp only [vectorPc]
  split <;> simp

/-! ## Machine CSRs of a slot -/

@[simp] theorem mcsrOf_setHart (s : State) (k j : Nat) (h : Hart) : mcsrOf (setHart s k h) j = mcsrOf s j := rfl

@[simp] theorem mcsrOf_loseResv (s : State) (h : Hart) (j : Nat) : mcsrOf (loseResv s h) j = mcsrOf s j := by
  rw [loseResv_eq]
  rfl

@[simp] theorem mcsrOf_updMcsr_same (s : State) (k : Nat) (f : MCsr → MCsr) : mcsrOf (updMcsr s k f) k = f (mcsrOf s k) :=
  tgetD_tput_same _ _ _ _

theorem mcsrOf_updMcsr_other (s : State) {k j : Nat} (f : MCsr → MCsr) (n : j ≠ k) : mcsrOf (updMcsr s k f) j = mcsrOf s j :=
  tgetD_tput_other _ _ _ n

theorem hartAt_updMcsr (s : State) (k j : Nat) (f : MCsr → MCsr) : hartAt (updMcsr s k f) j = hartAt s j := rfl

/-! ## Traps (R109, R110, R162) -/

theorem trapToS_status (h : Hart) (cause : Nat) (interrupt : Bool) (tval epc : Word) (n : Nat) :
    wbit (trapToS h cause interrupt tval epc).s.mstatus n =
      if n = msSPP then h.mode == .s else if n = msSIE then false else if n = msSPIE then wbit h.s.mstatus msSIE
      else wbit h.s.mstatus n := by
  simp only [trapToS, msSPP, msSIE, msSPIE]
  rw [wbit_setBit _ _ _ (by decide), wbit_setBit _ _ _ (by decide), wbit_setBit _ _ _ (by decide)]
  rfl

theorem trapToM_status (h : Hart) (c : MCsr) (cause : Nat) (interrupt : Bool) (n : Nat) :
    wbit (trapToM h c cause interrupt).s.mstatus n =
      if n = msMPP + 1 then (modeCode h.mode).testBit 1 else if n = msMPP then (modeCode h.mode).testBit 0
      else if n = msMIE then false else if n = msMPIE then wbit h.s.mstatus msMIE else wbit h.s.mstatus n := by
  simp only [trapToM, msMPP, msMIE, msMPIE]
  rw [wbit_set2 _ _ _ (by decide), wbit_setBit _ _ _ (by decide), wbit_setBit _ _ _ (by decide)]
  rfl

theorem trapToM_mpp (h : Hart) (c : MCsr) (cause : Nat) (interrupt : Bool) :
    ((trapToM h c cause interrupt).s.mstatus >>> msMPP) &&& 3 = BitVec.ofNat 64 (modeCode h.mode) :=
  field2_set2 _ (by decide) (by cases h.mode <;> decide)

/-- Settles O11: a trap is `trapToS` or `trapToM` of the hart with its wait, region and reservation ended. -/
theorem trapsSaveAndEnterTheirMode : Obligations.TrapsSaveAndEnterTheirMode := by
  refine ⟨fun s k h cause interrupt tval epc below small deleg => ?_, fun s k h cause interrupt tval epc small direct => ?_⟩
  · have toS : goesToS (mcsrOf s k) h cause interrupt = true := by simp [goesToS, below, deleg]
    have bytes := takeTrap_sameBytes s k h cause interrupt tval epc
    rw [takeTrap_toS tval epc toS] at bytes ⊢
    have status := trapToS_status (trapping h) cause interrupt tval epc
    refine ⟨_, hartAt_setHart_same _ _ _, rfl, rfl, rfl, toNat_causeWord small interrupt, ?_, ?_, ?_, fun n _ spie sie spp => ?_,
      vectorPc_eq _ _ _, rfl, rfl, rfl, rfl, rfl, rfl, rfl, rfl, rfl, rfl, ?_, bytes⟩
    · rw [status]; rfl
    · rw [status]; rfl
    · rw [status]; rfl
    · rw [status, if_neg spp, if_neg sie, if_neg spie]; rfl
    · rw [loseResv_eq]; rfl
  · have toM : goesToS (mcsrOf s k) h cause interrupt = false := by
      obtain mode | deleg := direct
      · simp [goesToS, mode]
      · rw [goesToS, deleg, Bool.and_false]
    have bytes := takeTrap_sameBytes s k h cause interrupt tval epc
    simp only
    rw [takeTrap_toM tval epc toM] at bytes ⊢
    have status := trapToM_status (trapping h) (mcsrOf s k) cause interrupt
    refine ⟨_, hartAt_setHart_same (loseResv s h) k _, rfl, ?_, ?_, ?_, ?_, ?_, ?_, ?_, fun n _ mpie mie mpp mpp1 => ?_,
      vectorPc_eq _ _ _, rfl, rfl, rfl, rfl, rfl, rfl, rfl, rfl, fun j other => ?_, bytes⟩
    · rw [mcsrOf_updMcsr_same]
    · rw [mcsrOf_updMcsr_same]
    · rw [mcsrOf_updMcsr_same]; exact toNat_causeWord small interrupt
    · rw [mcsrOf_updMcsr_same, mcsrOf_setHart, mcsrOf_loseResv]
    · rw [status]; rfl
    · rw [status]; rfl
    · rw [trapToM_mpp]; change BitVec.ofNat 64 (modeCode h.mode) = _; cases h.mode <;> rfl
    · rw [status, if_neg mpp1, if_neg mpp, if_neg mie, if_neg mpie]; rfl
    · rw [mcsrOf_updMcsr_other _ _ other, mcsrOf_setHart, mcsrOf_loseResv]

/-! ## MRET, SRET, ECALL and EBREAK (R107, R109, R141) -/

theorem retire_mstatus (s : State) (k : Nat) (h : Hart) : (retire s k h).s.mstatus = h.s.mstatus := by
  unfold retire
  split <;> rfl

theorem retire_eq (s : State) (k : Nat) (h : Hart) :
    retire s k h = { h with s := { h.s with instret := (retire s k h).s.instret } } := by
  unfold retire
  split <;> rfl

theorem exec_mret {s : State} {h : Hart} (r : Runs s h .mret) (mode : h.mode = .m) :
    exec .mret s = .next (setHart s s.cur (mretHart (retire s s.cur h) (mcsrOf s s.cur))) := by
  change execMret s = _
  rw [execMret, onHart_runs r, entered_of_not_closes rfl, if_neg (by simp [mode])]

theorem exec_sret {s : State} {h : Hart} (r : Runs s h .sret) (mode : h.mode = .m ∨ (h.mode = .s ∧ wbit h.s.mstatus msTSR = false)) :
    exec .sret s = .next (setHart s s.cur (sretHart (retire s s.cur h))) := by
  change execSret s = _
  rw [execSret, onHart_runs r, entered_of_not_closes rfl, if_neg (by rcases mode with mode | ⟨mode, tsr⟩ <;> simp [*])]

/-- mstatus after MRET. -/
theorem mretHart_status (h : Hart) (c : MCsr) (n : Nat) :
    wbit (mretHart h c).s.mstatus n =
      if n = msMPRV ∧ (mretHart h c).mode ≠ .m then false else if n = msMPP + 1 ∨ n = msMPP then false
      else if n = msMPIE then true else if n = msMIE then wbit h.s.mstatus msMPIE else wbit h.s.mstatus n := by
  have before (n : Nat) : wbit (set2 (setBit (setBit h.s.mstatus msMIE (wbit h.s.mstatus msMPIE)) msMPIE true) msMPP 0) n =
      if n = msMPP + 1 ∨ n = msMPP then false
      else if n = msMPIE then true else if n = msMIE then wbit h.s.mstatus msMPIE else wbit h.s.mstatus n := by
    rw [wbit_set2 _ _ _ (by decide), wbit_setBit _ _ _ (by decide), wbit_setBit _ _ _ (by decide)]
    by_cases mpp1 : n = msMPP + 1 <;> by_cases mpp : n = msMPP <;> simp [mpp1, mpp]
  simp only [mretHart]
  split
  · next toM => rw [before]; simp [toM]
  · next below =>
    rw [wbit_setBit _ _ _ (by decide), before]
    by_cases mprv : n = msMPRV <;> simp [mprv, below]

theorem mretHart_mpp (h : Hart) (c : MCsr) : ((mretHart h c).s.mstatus >>> msMPP) &&& 3 = 0 := by
  rw [field2_eq, mretHart_status, mretHart_status]
  rfl

theorem mretHart_mode (h : Hart) (c : MCsr) : (mretHart h c).mode = modeOfCode (((h.s.mstatus >>> msMPP) &&& 3).toNat) := by
  rw [toNat_field2]
  rfl

theorem mretHart_eq (s : State) (k : Nat) (h : Hart) (c : MCsr) :
    let g := mretHart (retire s k h) c
    g = { h with pc := g.pc, mode := g.mode, s := { h.s with mstatus := g.s.mstatus, instret := g.s.instret } } := by
  rw [retire_eq]
  rfl

theorem sretHart_status (h : Hart) (n : Nat) :
    wbit (sretHart h).s.mstatus n =
      if n = msMPRV then false else if n = msSPP then false else if n = msSPIE then true
      else if n = msSIE then wbit h.s.mstatus msSPIE else wbit h.s.mstatus n := by
  simp only [sretHart]
  rw [wbit_setBit _ _ _ (by decide), wbit_setBit _ _ _ (by decide), wbit_setBit _ _ _ (by decide), wbit_setBit _ _ _ (by decide)]

theorem sretHart_eq (s : State) (k : Nat) (h : Hart) :
    let g := sretHart (retire s k h)
    g = { h with pc := g.pc, mode := g.mode, s := { h.s with mstatus := g.s.mstatus, instret := g.s.instret } } := by
  rw [retire_eq]
  rfl

/-- Settles O12. -/
theorem trapReturnsEcallAndEbreak : Obligations.TrapReturnsEcallAndEbreak := by
  refine ⟨fun s h => ⟨fun r mode => ?_, fun r mode => ?_⟩,
    fun s h => ⟨fun r mode => ?_, fun r mode => ?_, fun r mode => ?_, fun r off => ?_, fun r on => ?_⟩⟩
  · refine ⟨_, exec_mret r mode, rfl, ?_, ?_, mretHart_mpp _ _, fun mpp => ?_, fun mpp => ?_, fun mpp => ?_, mretHart_eq _ _ _ _⟩
    · rw [mretHart_status, retire_mstatus]; rfl
    · rw [mretHart_status]; rfl
    all_goals
      have toMode := mretHart_mode (retire s s.cur h) (mcsrOf s s.cur)
      rw [retire_mstatus, mpp] at toMode
      refine ⟨toMode, ?_⟩
      rw [mretHart_status, retire_mstatus, toMode]
      rfl
  · refine ⟨_, exec_sret r mode, by rw [retire_eq]; rfl, ?_, ?_, ?_, ?_, ?_, sretHart_eq _ _ _⟩
    · rw [sretHart_status, retire_mstatus]; rfl
    · rw [sretHart_status]; rfl
    · rw [sretHart_status]; rfl
    · rw [sretHart, retire_mstatus]
    · rw [sretHart_status]; rfl
  all_goals
    first | change execEcall s = _ | change execEbreak s = _
  · rw [execEcall, onHart_runs r, entered_of_not_closes rfl, mode]
  · rw [execEcall, onHart_runs r, entered_of_not_closes rfl, mode]
  · rw [execEcall, onHart_runs r, entered_of_not_closes rfl, mode]
  · rw [execEbreak, onHart_runs r, entered_of_not_closes rfl, off]; rfl
  · rw [execEbreak, onHart_runs r, entered_of_not_closes rfl, on]; rfl

/-- Settles O14: what is open for a hart is pending, enabled, and meant for its mode. -/
theorem delegatedInterruptsWaitForTheirMode : Obligations.DelegatedInterruptsWaitForTheirMode := by
  intro s k h n next
  have opened := List.find?_some next
  simp only [interruptOpen, Bool.and_eq_true] at opened
  obtain ⟨pending, here⟩ := opened
  have both : wbit (effMip h) n = true ∧ wbit h.s.mie n = true := by simpa [wbit] using pending
  refine ⟨both.1, both.2, fun mode => ?_, fun mode deleg => ?_⟩
  · cases deleg : wbit (mcsrOf s k).mideleg n <;> simp_all
  · simpa [deleg, mode] using here

/-! ## Instructions below their mode or in the wrong hart (R105, R107, R127, R128, R133, R280, R325) -/

theorem entered_mode (h : Hart) (i : Instr) : (entered h i).mode = h.mode := by
  unfold entered
  split <;> rfl

theorem entered_s (h : Hart) (i : Instr) : (entered h i).s = h.s := by
  unfold entered
  split <;> rfl

theorem exec_barrier_of_handler {s : State} {h : Hart} {i : Instr} {f : Nat → Hart → Team → State} (r : Runs s h i)
    (handler : h.id.handler = true) : onBarrier s i f = .next (trapAt s s.cur (entered h i) 2 (instrBits i)) := by
  rw [onBarrier, onHart_runs r]
  simp [entered_id, handler, illegal]

/-- Settles O13: each of the instructions asks for its mode and its kind of hart before anything else. -/
theorem privilegedAndMisplacedInstructionsTrap : Obligations.PrivilegedAndMisplacedInstructionsTrap := by
  refine ⟨fun s h => ⟨fun i mem r mode => ?_, fun r mode => ?_, fun r mode tsr => ?_, fun r mode => ?_, fun a r mode => ?_,
    fun a b r mode => ?_, fun op u rd src r mode => ?_, fun op u rd src r mode => ?_, fun op u csr rd src r deny => ?_⟩,
    fun s h d a n => ⟨fun kind r => ?_, fun kind r => ?_, fun kind r => ?_, fun kind => ⟨fun r => ?_, fun r => ?_, ?_, ?_, ?_⟩⟩⟩
  · simp only [List.mem_cons, List.not_mem_nil, or_false] at mem
    obtain rfl | rfl | rfl := mem
    · change execMret s = _
      rw [execMret, onHart_runs r, entered_of_not_closes rfl, if_pos (by simp [mode])]; rfl
    · change execSret s = _
      rw [execSret, onHart_runs r, entered_of_not_closes rfl, if_pos (.inl mode)]; rfl
    · change execWfi s = _
      rw [execWfi, onHart_runs r, entered_of_not_closes rfl, if_pos mode]; rfl
  · change execMret s = _
    rw [execMret, onHart_runs r, entered_of_not_closes rfl, if_pos (by simp [mode])]; rfl
  · change execSret s = _
    rw [execSret, onHart_runs r, entered_of_not_closes rfl, if_pos (.inr ⟨mode, tsr⟩)]; rfl
  · change execFrrep s = _
    rw [execFrrep, onHart_runs r, entered_of_not_closes rfl, if_pos mode]; rfl
  · change execFrdrop a s = _
    rw [execFrdrop, onHart_runs r, entered_of_not_closes rfl, if_pos mode]; rfl
  · change execSfenceVma a b s = _
    rw [execSfenceVma, onHart_runs r, entered_of_not_closes rfl, if_pos mode]; rfl
  · change execSteerWrite op u rd src s = _
    simp only [execSteerWrite]
    rw [onHart_runs r, if_pos (by rwa [entered_mode])]; rfl
  · change execSatpWrite op u rd src s = _
    have deny : csrAllowed s s.cur (entered h (.satpWrite op u rd src)) 0x180 true = false := by
      rcases mode with mode | ⟨mode, tvm⟩
      · simp [csrAllowed, entered_mode, mode, modeRank]
      · simp [csrAllowed, entered_mode, entered_s, mode, tvm]
    simp only [execSatpWrite]
    rw [onHart_runs r, if_pos (by rw [deny]; rfl)]; rfl
  · change execCsrAccess op u csr rd src s = _
    simp only [execCsrAccess]
    rw [onHart_runs r, if_pos (by rw [csrWritesAt, deny]; rfl)]; rfl
  · change execHexit s = _
    rw [execHexit, onHart_runs r, if_pos (by simpa [entered_id, entered_mode] using kind)]; rfl
  · change execHret s = _
    rw [execHret, onHart_runs r, if_pos (by simpa [entered_id, entered_mode] using kind)]; rfl
  · change execGlaunch d a s = _
    simp only [execGlaunch]
    rw [onHart_runs r, if_pos (by simpa [entered_id, entered_mode, or_assoc] using kind)]; rfl
  · change execHwmsg s = _
    rw [execHwmsg, onHart_runs r, if_pos (by rwa [entered_id])]; rfl
  · change execGwait d a s = _
    rw [execGwait, onHart_runs r, if_pos (by rwa [entered_id])]; rfl
  · intro r
    change execBarSync a n s = _
    rw [execBarSync, exec_barrier_of_handler r kind]
  · intro r
    change execBarArrive a n s = _
    rw [execBarArrive, exec_barrier_of_handler r kind]
  · intro r
    change execBarWait n s = _
    rw [execBarWait, exec_barrier_of_handler r kind]

/-! ## CSR instructions (R105 to R109, R143, R144, R310) -/

theorem csrSource_entered (h : Hart) (i : Instr) (useImm : Bool) (src : XR) :
    csrSource (entered h i) useImm src = if useImm then src.setWidth 64 else rx h src := by
  rw [csrSource, rx_entered]

theorem any_steerQuads (old new : Nat) (p : Nat → Bool) :
    (steerQuads old new).any p = true ↔ ∃ q, q < 4 ∧ (bitsOf old (8 * q) 6 != bitsOf new (8 * q) 6) = true ∧ p q = true := by
  simp only [steerQuads, List.any_eq_true, List.mem_filter, List.mem_range, and_assoc]

theorem coreAt_updCore_same (s : State) (c : Nat) (f : Core → Core) : coreAt (updCore s c f) c = f (coreAt s c) := tgetD_tput_same _ _ _ _

/-- The MODE field of satp. -/
theorem satpMode_kept_iff (w : Word) : (w >>> 60 = 0 ∨ w >>> 60 = 15) ↔ (w.toNat / 2 ^ 60 = 0 ∨ w.toNat / 2 ^ 60 = 15) := by
  rw [← BitVec.toNat_inj, ← BitVec.toNat_inj, BitVec.toNat_ushiftRight, Nat.shiftRight_eq_div_pow]
  rfl

theorem exec_csrAccess {s : State} {h : Hart} {op : CsrKind} {u : Bool} {csr : BitVec 12} {rd src : XR} {old : Word}
    (r : Runs s h (.csrAccess op u csr rd src))
    (allowed : csrAllowed s s.cur (entered h (.csrAccess op u csr rd src)) csr.toNat (csrWrites op src) = true)
    (read : csrRead s s.cur (entered h (.csrAccess op u csr rd src)) csr.toNat = some old)
    (flags : csr = 0x801 ∨ csr = 0x803 → flagPending (entered h (.csrAccess op u csr rd src)) = false) :
    let g := adv s s.cur (wx (entered h (.csrAccess op u csr rd src)) rd old) 4
    exec (.csrAccess op u csr rd src) s =
      .next (if csrWrites op src then
        csrWrite s s.cur g csr.toNat (csrNew op old (csrSource (entered h (.csrAccess op u csr rd src)) u src))
      else setHart s s.cur g) := by
  have noFlag : ((csr.toNat == 0x801 || csr.toNat == 0x803) && flagPending (entered h (.csrAccess op u csr rd src))) = false := by
    by_cases named : csr = 0x801 ∨ csr = 0x803
    · rw [flags named, Bool.and_false]
    · have flags : csr.toNat ≠ 0x801 := fun e => named (.inl (BitVec.eq_of_toNat_eq e))
      have stat : csr.toNat ≠ 0x803 := fun e => named (.inr (BitVec.eq_of_toNat_eq e))
      simp [flags, stat]
  change execCsrAccess op u csr rd src s = _
  simp only [execCsrAccess]
  rw [onHart_runs r, if_neg (by rw [csrWritesAt, allowed]; decide), if_neg (by rw [noFlag]; decide), read]
  rfl

theorem exec_satpWrite {s : State} {h : Hart} {op : CsrKind} {u : Bool} {rd src : XR} (r : Runs s h (.satpWrite op u rd src))
    (allowed : csrAllowed s s.cur (entered h (.satpWrite op u rd src)) 0x180 true = true)
    (done : untranslated (entered h (.satpWrite op u rd src)) = false) :
    let h' := entered h (.satpWrite op u rd src)
    let old := (ctxOf s h'.id.asid).satp
    exec (.satpWrite op u rd src) s =
      .next (satpSet (setHart s s.cur (adv s s.cur (wx h' rd old) 4)) h'.id.asid (csrNew op old (csrSource h' u src))) := by
  change execSatpWrite op u rd src s = _
  simp only [execSatpWrite]
  rw [onHart_runs r, if_neg (by rw [allowed]; decide), if_neg (by rw [done]; decide)]

/-- The value of a steer write, with its four fields alone (R105). -/
def steerNew (s : State) (op : CsrKind) (v : Word) : Nat :=
  Nat.land (csrNew op (BitVec.ofNat 64 (steerOf s (coreOfSlot s.cur))) v).toNat 0x3F3F3F3F

/-- The note of a steer write that waits, with the quadrants that it changes. -/
def steerWait (s : State) (h : Hart) (new : Nat) : SteerWait :=
  ⟨s.cur, h.id.uid, h.pc, steerQuads (steerOf s (coreOfSlot s.cur)) new⟩

/-- The steer write waits for datapaths of quadrants that it changes, which start nothing meanwhile (R143). -/
theorem exec_steerWrite_busy {s : State} {h : Hart} {op : CsrKind} {u : Bool} {rd src : XR} (r : Runs s h (.steerWrite op u rd src))
    (mode : h.mode = .m)
    (busy : (steerQuads (steerOf s (coreOfSlot s.cur)) (steerNew s op (csrSource (entered h (.steerWrite op u rd src)) u src))).any
      (datapathBusy s (coreOfSlot s.cur)) = true) :
    let h' := entered h (.steerWrite op u rd src)
    let wait := steerWait s h' (steerNew s op (csrSource h' u src))
    exec (.steerWrite op u rd src) s = .next (updCore s (coreOfSlot s.cur) fun c =>
      { c with steering := (c.steering.filter fun w => w.uid != h'.id.uid) ++ [wait] }) := by
  change execSteerWrite op u rd src s = _
  simp only [execSteerWrite]
  rw [onHart_runs r, if_neg (by rw [entered_mode, mode]; simp)]
  exact congrArg Host.Outcome.next (if_pos busy)

theorem exec_steerWrite_idle {s : State} {h : Hart} {op : CsrKind} {u : Bool} {rd src : XR} (r : Runs s h (.steerWrite op u rd src))
    (mode : h.mode = .m)
    (idle : ¬ (steerQuads (steerOf s (coreOfSlot s.cur)) (steerNew s op (csrSource (entered h (.steerWrite op u rd src)) u src))).any
      (datapathBusy s (coreOfSlot s.cur)) = true) :
    let h' := entered h (.steerWrite op u rd src)
    let core := coreOfSlot s.cur
    let new := steerNew s op (csrSource h' u src)
    let t := setHart s s.cur (adv s s.cur (wx h' rd (BitVec.ofNat 64 (steerOf s core))) 4)
    let t := if new = steerOf s core then t else { t with plat := { t.plat with steerRec := tput t.plat.steerRec core new } }
    exec (.steerWrite op u rd src) s = .next (updCore { t with steerCfg := tput t.steerCfg core new } core fun c =>
      { c with steering := c.steering.filter fun w => w.uid != h'.id.uid }) := by
  change execSteerWrite op u rd src s = _
  simp only [execSteerWrite]
  rw [onHart_runs r, if_neg (by rw [entered_mode, mode]; simp)]
  exact congrArg Host.Outcome.next (if_neg idle)

/-- Settles O15. That satp keeps the context's own ASID is log 27. -/
theorem csrInstructionsComplete : Obligations.CsrInstructionsComplete := by
  refine ⟨fun s h op u csr rd src old r allowed read flags => ?_, fun s h op u rd src =>
    ⟨⟨fun r mode idle => ?_, fun r mode busy => ?_⟩, fun r allowed done => ?_⟩⟩
  · refine ⟨_, wroteX_adv s _ rd old 4, ?_⟩
    rw [exec_csrAccess r allowed read flags, csrSource_entered]
    cases op <;> rfl
  · rw [entered_mode] at mode
    have e := exec_steerWrite_idle r mode (by rw [any_steerQuads]; exact idle)
    refine ⟨_, _, e, wroteX_adv s _ rd _ 4, ?_, ?_, fun new => ?_, ?_, ?_⟩
    · split <;> exact hartAt_setHart_same _ _ _
    · split <;> exact tgetD_tput_same _ _ _ _
    · split
      · next same => exact absurd same new
      · exact tget_tput_same _ _ _
    · rw [coreAt_updCore_same]
      split <;> rfl
    · split <;> rfl
  · rw [entered_mode] at mode
    have e := exec_steerWrite_busy r mode (by rw [any_steerQuads]; exact busy)
    refine ⟨_, e, rfl, steerWait s _ (steerNew s op (csrSource (entered h (.steerWrite op u rd src)) u src)), ?_, rfl, fun q small => ?_⟩
    · rw [coreAt_updCore_same]
      exact List.mem_append_right _ (List.mem_singleton_self _)
    · simp only [steerWait, steerQuads, List.mem_filter, List.mem_range, small, true_and]
      rfl
  · refine ⟨_, _, exec_satpWrite r allowed done, wroteX_adv s _ rd _ 4, ?_, fun kept => ?_, fun other => ?_⟩
    · unfold satpSet
      split <;> exact hartAt_setHart_same _ _ _
    · rw [satpMode_kept_iff] at kept
      rw [satpSet, if_pos kept]
      exact congrArg Ctx.satp (tgetD_tput_same _ _ _ _)
    · rw [satpMode_kept_iff] at other
      rw [satpSet, if_neg other]

/-! What a CSR write leaves to be read: of a register of the hart, and of a machine CSR of its slot. -/

/-- What a read of CSR n gives after a write of it. -/
def readBack (s : State) (k : Nat) (h : Hart) (n : Nat) (w : Word) : Option Word :=
  match hartAt (csrWrite s k h n w) k with
  | some g => csrRead (csrWrite s k h n w) k g n
  | none => none

theorem readBack_of_hart (s : State) (k : Nat) (h : Hart) (w : Word) (n : Nat) {g : Hart} (writes : csrWrite s k h n w = setHart s k g) :
    readBack s k h n w = csrRead (setHart s k g) k g n := by
  simp only [readBack, writes, hartAt_setHart_same]

theorem readBack_of_machine (s : State) (k : Nat) (h : Hart) (w : Word) (n : Nat) {f : MCsr → MCsr}
    (writes : csrWrite s k h n w = updMcsr (setHart s k h) k f) :
    readBack s k h n w = csrRead (updMcsr (setHart s k h) k f) k h n := by
  simp only [readBack, writes, hartAt_updMcsr, hartAt_setHart_same]

theorem setWidth_three (w : Word) : (w.setWidth 3).setWidth 64 = w &&& 7 := by
  apply BitVec.eq_of_toNat_eq
  rw [BitVec.toNat_setWidth, BitVec.toNat_setWidth, BitVec.toNat_and]
  refine .trans ?_ (Nat.and_two_pow_sub_one_eq_mod w.toNat 3).symm
  omega

theorem setWidth_six (w : Word) : (w.setWidth 6).setWidth 64 = w &&& 0x3F := by
  apply BitVec.eq_of_toNat_eq
  rw [BitVec.toNat_setWidth, BitVec.toNat_setWidth, BitVec.toNat_and]
  refine .trans ?_ (Nat.and_two_pow_sub_one_eq_mod w.toNat 6).symm
  omega

theorem ofNat_lowBit (w : Word) : BitVec.ofNat 64 (b2n (wbit w 0)) = w &&& 1 := by
  apply BitVec.eq_of_toNat_eq
  rw [BitVec.toNat_and, wbit, BitVec.getLsbD, Nat.testBit_zero, b2n]
  have := Nat.and_two_pow_sub_one_eq_mod w.toNat 1
  split <;> simp_all

/-- Settles O16. That the vectors keep bit 1 clear is log 25. -/
theorem csrWritesKeepWhatTheirRulesAllow : Obligations.CsrWritesKeepWhatTheirRulesAllow := by
  intro s k h w
  refine ⟨?_, ?_, ?_, ?_, ?_, ?_, ?_, ?_, ?_, ?_, ?_, ?_, ?_, ?_, ?_, fun clear g here => ?_⟩
  · exact (readBack_of_hart s k h w 0x800 rfl).trans (congrArg some (setWidth_three w))
  · exact (readBack_of_hart s k h w 0x801 rfl).trans (congrArg some (setWidth_six w))
  · exact (readBack_of_hart s k h w 0x802 rfl).trans (congrArg some (ofNat_lowBit w))
  · exact readBack_of_hart s k h w 0x140 rfl
  · exact readBack_of_hart s k h w 0x141 rfl
  · exact readBack_of_hart s k h w 0x142 rfl
  · exact readBack_of_hart s k h w 0x143 rfl
  · exact readBack_of_hart s k h w 0x105 rfl
  · exact (readBack_of_machine s k h w 0x340 (f := fun m => { m with mscratch := w }) rfl).trans
      (congrArg (fun m : MCsr => some m.mscratch) (mcsrOf_updMcsr_same _ k _))
  · exact (readBack_of_machine s k h w 0x341 (f := fun m => { m with mepc := w &&& ~~~ 3 }) rfl).trans
      (congrArg (fun m : MCsr => some m.mepc) (mcsrOf_updMcsr_same _ k _))
  · exact (readBack_of_machine s k h w 0x342 (f := fun m => { m with mcause := w }) rfl).trans
      (congrArg (fun m : MCsr => some m.mcause) (mcsrOf_updMcsr_same _ k _))
  · exact (readBack_of_machine s k h w 0x343 (f := fun m => { m with mtval := w }) rfl).trans
      (congrArg (fun m : MCsr => some m.mtval) (mcsrOf_updMcsr_same _ k _))
  · exact (readBack_of_machine s k h w 0x305 (f := fun m => { m with mtvec := w &&& ~~~ 2 }) rfl).trans
      (congrArg (fun m : MCsr => some m.mtvec) (mcsrOf_updMcsr_same _ k _))
  · exact (readBack_of_machine s k h w 0x302 (f := fun m => { m with medeleg := (w &&& 0xB3FF) ||| 0xFF000000 }) rfl).trans
      (congrArg (fun m : MCsr => some m.medeleg) (mcsrOf_updMcsr_same _ k _))
  · exact (readBack_of_machine s k h w 0x303 (f := fun m => { m with mideleg := (w &&& 0x222) ||| 0x3F0000 }) rfl).trans
      (congrArg (fun m : MCsr => some m.mideleg) (mcsrOf_updMcsr_same _ k _))
  · cases (hartAt_setHart_same s k _).symm.trans here
    simp [clear]

end Sys2Proof.Machine
end

section
/-! Mask registers, the mask stack and the standard base (O17 to O22). -/

namespace Sys2Proof.Machine

/-! ## What completes -/

theorem completesM_of {s : State} {h : Hart} {i : Instr} {d : MR} {v : Mask}
    (e : Runs s h i → exec i s = .next (setHart s s.cur (adv s s.cur (wm h d v) 4))) : CompletesM s h i d v :=
  fun r => ⟨_, e r, wroteM_adv s h d v⟩

theorem completesX_of {s : State} {h : Hart} {i : Instr} {d : XR} {v : Word}
    (e : Runs s h i → exec i s = .next (setHart s s.cur (adv s s.cur (wx h d v) 4))) : CompletesX s h i d v (h.pc + 4) :=
  fun r => ⟨_, e r, wroteX_adv s h d v 4⟩

/-- The mask stack and its depth alone differ. -/
def OnlyStack (h g : Hart) : Prop := g = { h with stk := g.stk, dep := g.dep }

theorem onlyStack_dep (h : Hart) (n : Nat) : OnlyStack h { h with dep := n } := rfl

theorem onlyStack_setStk (h : Hart) (j : Nat) (e : StkEntry) : OnlyStack h (setStk h j e) := by
  unfold setStk
  split <;> rfl

theorem onlyStack_pushStk (h : Hart) (m : Mask) (rpc : BitVec 48) : OnlyStack h (pushStk h m rpc) := by
  unfold pushStk setStk
  split <;> rfl

theorem wroteStack_adv (s : State) {h g : Hart} {dep : Nat} {f : Nat → StkEntry} (only : OnlyStack h g) (depth : g.dep = dep)
    (entries : ∀ i, i < 32 → stkAt g i = f i) : WroteStack s h (adv s s.cur g 4) dep (h.pc + 4) f := by
  rw [OnlyStack] at only
  refine ⟨?_, ?_, ?_, ?_, fun i lt => ?_⟩
  · rw [only, sameButStack, adv, retire]; split <;> rfl
  · rw [← depth, adv, retire]; split <;> rfl
  · rw [only]; rfl
  · rw [only, adv, retire, nextInstret]; split <;> rfl
  · rw [stkAt_adv, entries i lt]

theorem wroteStack_jumpTo (s : State) {h g : Hart} (t : Word) {dep : Nat} {f : Nat → StkEntry} (only : OnlyStack h g) (depth : g.dep = dep)
    (entries : ∀ i, i < 32 → stkAt g i = f i) : WroteStack s h (jumpTo s s.cur g t) dep t f := by
  rw [OnlyStack] at only
  refine ⟨?_, ?_, ?_, ?_, fun i lt => ?_⟩
  · rw [only, sameButStack, jumpTo, retire]; split <;> rfl
  · rw [← depth, jumpTo, retire]; split <;> rfl
  · rfl
  · rw [only, jumpTo, retire, nextInstret]; split <;> rfl
  · rw [stkAt_jumpTo, entries i lt]

theorem setStk_dep (h : Hart) (j : Nat) (e : StkEntry) : (setStk h j e).dep = h.dep := by
  unfold setStk
  split <;> rfl

theorem stkAt_pushStk (h : Hart) (m : Mask) (rpc : BitVec 48) {i : Nat} (lt : i < 32) (room : h.dep < 32) :
    stkAt (pushStk h m rpc) i = if i = h.dep then ⟨m, rpc⟩ else stkAt h i := stkAt_setStk h ⟨m, rpc⟩ lt room

/-- An instruction that writes entry j of the mask stack and goes on, or to a label. -/
theorem completesStack_set {s : State} {h : Hart} {i : Instr} {j : Nat} {e : StkEntry} {label : Word} {c : Prop} [Decidable c]
    (lt : j < 32) (runs : Runs s h i → exec i s =
      .next (setHart s s.cur (if c then jumpTo s s.cur (setStk h j e) label else adv s s.cur (setStk h j e) 4))) :
    CompletesStack s h i h.dep (if c then label else h.pc + 4) (fun n => if n = j then e else stkAt h n) := by
  refine fun r => ⟨_, runs r, ?_⟩
  have entries (n : Nat) (small : n < 32) := stkAt_setStk h e small lt
  split
  · exact wroteStack_jumpTo s _ (onlyStack_setStk h j e) (setStk_dep h j e) entries
  · exact wroteStack_adv s (onlyStack_setStk h j e) (setStk_dep h j e) entries

theorem completesStack_push {s : State} {h : Hart} {i : Instr} {m : Mask} {rpc : BitVec 48} {label : Word} {c : Prop} [Decidable c]
    (room : h.dep < 32) (runs : Runs s h i → exec i s =
      .next (setHart s s.cur (if c then jumpTo s s.cur (pushStk h m rpc) label else adv s s.cur (pushStk h m rpc) 4))) :
    CompletesStack s h i (h.dep + 1) (if c then label else h.pc + 4) (fun n => if n = h.dep then ⟨m, rpc⟩ else stkAt h n) := by
  refine fun r => ⟨_, runs r, ?_⟩
  have entries (n : Nat) (small : n < 32) := stkAt_pushStk h m rpc small room
  split
  · exact wroteStack_jumpTo s _ (onlyStack_pushStk h m rpc) rfl entries
  · exact wroteStack_adv s (onlyStack_pushStk h m rpc) rfl entries

/-- The same where nothing is transferred. -/
theorem completesStack_write {s : State} {h : Hart} {i : Instr} {j : Nat} {e : StkEntry} (lt : j < 32)
    (runs : Runs s h i → exec i s = .next (setHart s s.cur (adv s s.cur (setStk h j e) 4))) :
    CompletesStack s h i h.dep (h.pc + 4) (fun n => if n = j then e else stkAt h n) :=
  fun r => ⟨_, runs r, wroteStack_adv s (onlyStack_setStk h j e) (setStk_dep h j e) fun _ small => stkAt_setStk h e small lt⟩

/-! ## Mask logic (R116, R117) -/

theorem popcount_eq_lanesOf (m : Mask) : popcount m.toNat 64 = (lanesOf m).length := by
  rw [popcount_eq]
  rfl

theorem lowestBit_eq {m : Mask} {n : Nat} (small : n < 64) (on : mbit m n = true) (below : ∀ j, j < n → mbit m j = false) :
    lowestBit m = n := by
  obtain ⟨le, off, found⟩ := firstBelow_spec 64 (mbit m)
  change lowestBit m < 64 → mbit m (lowestBit m) = true at found
  change ∀ j, j < lowestBit m → _ at off
  rcases Nat.lt_trichotomy (lowestBit m) n with lt | eq | gt
  · exact absurd (found (lt.trans small)) (by rw [below _ lt]; decide)
  · exact eq
  · exact absurd on (by rw [off n gt]; decide)

theorem lowestBit_zero : lowestBit 0 = 64 := by
  obtain ⟨le, -, found⟩ := firstBelow_spec 64 (mbit 0)
  by_contra ne
  exact absurd (found (lt_of_le_of_ne le ne)) (by simp [mbit])

/-- Settles O17. -/
theorem maskLogicCompletes : Obligations.MaskLogicCompletes := by
  intro s h md ma mb xd xa
  refine ⟨?_, ?_, ?_, ?_, ?_, ?_, ?_, ?_, ?_, fun zero => ?_, fun n small on below => ?_⟩
  iterate 6 exact completesM_of fun r => by unfold exec; exact onHart_runs r _
  · exact completesX_of fun r => by unfold exec; exact onHart_runs r _
  · rw [← popcount_eq_lanesOf]
    exact completesX_of fun r => by unfold exec; exact onHart_runs r _
  · exact completesX_of fun r => by unfold exec; exact onHart_runs r _
  · refine completesX_of fun r => ?_
    change execMffs xd ma s = _
    rw [execMffs, onHart_runs r, entered_of_not_closes rfl, zero, lowestBit_zero]
    rfl
  · refine completesX_of fun r => ?_
    change execMffs xd ma s = _
    rw [execMffs, onHart_runs r, entered_of_not_closes rfl, lowestBit_eq small on below]

/-! ## The mask stack (R118, R119) -/

theorem wm_dep_eq (h : Hart) (d : MR) (v : Mask) (n : Nat) : wm { h with dep := n } d v = { wm h d v with dep := n } := by
  unfold wm
  split <;> rfl

theorem adv_dep_eq (s : State) (k : Nat) (h : Hart) (n d : Nat) : adv s k { h with dep := d } n = { adv s k h n with dep := d } := by
  unfold adv retire
  split <;> rfl

/-- Settles O18. -/
theorem maskStackCompletes : Obligations.MaskStackCompletes := by
  intro s h a xb imm
  refine ⟨fun room => ⟨completesStack_push room fun r => ?_, fun r => ?_⟩, fun two full =>
    ⟨completesStack_set (by omega) fun r => ?_, fun r => ?_, fun r => ?_, fun stays => completesStack_set (by omega) fun r => ?_, fun r => ?_⟩⟩
  · change execMif a imm s = _
    rw [execMif, onHart_runs r, entered_of_not_closes rfl, if_neg (by omega)]
    rfl
  · change ∃ g, execMspush a xb s = _ ∧ _
    rw [execMspush, onHart_runs r, entered_of_not_closes rfl, if_neg (by omega)]
    exact ⟨_, rfl, wroteStack_adv s (onlyStack_pushStk _ _ _) rfl fun i lt => stkAt_pushStk _ _ _ lt room⟩
  · change execMelse imm s = _
    rw [execMelse, onHart_runs r, entered_of_not_closes rfl, if_neg (by omega)]
    rfl
  · have entries (n : Nat) (small : n < 32) :=
      stkAt_setStk h ⟨(topStk h).mask &&& rm h a, (topStk h).rpc⟩ small (show h.dep - 1 < 32 by omega)
    change ∃ g, execMwhile a imm s = _ ∧ _
    rw [execMwhile, onHart_runs r, entered_of_not_closes rfl, if_neg (by omega)]
    refine ⟨_, rfl, ?_⟩
    change WroteStack s h (if (topStk h).mask &&& rm h a = 0 then _ else _) _ (if (topStk h).mask &&& rm h a = 0 then _ else _) _
    split
    · exact wroteStack_adv s (onlyStack_setStk _ _ _) (setStk_dep _ _ _) entries
    · exact wroteStack_jumpTo s _ (onlyStack_setStk _ _ _) (setStk_dep _ _ _) entries
  · change ∃ g, execMend s = _ ∧ _
    rw [execMend, onHart_runs r, entered_of_not_closes rfl, if_neg (by omega)]
    exact ⟨_, rfl, wroteStack_adv s (onlyStack_dep h (h.dep - 1)) rfl fun _ _ => rfl⟩
  · change execMbrk a s = _
    rw [execMbrk, onHart_runs r, entered_of_not_closes rfl, if_neg (by omega)]
    by_cases none : (topStk h).mask &&& ~~~ rm h a = 0
    · have aligned := stays.resolve_left fun some => some none
      exact congrArg _ ((if_pos none).trans ((if_neg (not_not.mpr aligned)).trans (congrArg _ (if_pos none).symm)))
    · exact congrArg _ ((if_neg none).trans (congrArg _ (if_neg none).symm))
  · change ∃ g, execMspop a s = _ ∧ _
    rw [execMspop, onHart_runs r, entered_of_not_closes rfl, if_neg (by omega), wm_dep_eq, adv_dep_eq]
    exact ⟨_, rfl, wroteM_adv s h a _⟩

/-- Settles O19. -/
theorem maskStackIndexedAccessAndBounds : Obligations.MaskStackIndexedAccessAndBounds := by
  refine ⟨fun s h d a b full => ⟨fun within => ⟨completesX_of fun r => ?_, completesX_of fun r => ?_,
      completesStack_write (by omega) fun r => ?_, completesStack_write (by omega) fun r => ?_⟩,
    fun past => ⟨completesX_of fun r => ?_, completesX_of fun r => ?_, fun r => ?_, fun r => ?_⟩⟩, fun s h i r => ⟨fun full kind => ?_, fun one kind => ?_⟩⟩
  · change execMsrdm d a s = _
    simp only [execMsrdm]
    rw [onHart_runs r, entered_of_not_closes rfl, if_pos within]
  · change execMsrdp d a s = _
    simp only [execMsrdp]
    rw [onHart_runs r, entered_of_not_closes rfl, if_pos within]
  · change execMswrm a b s = _
    simp only [execMswrm]
    rw [onHart_runs r, entered_of_not_closes rfl, if_neg (by omega)]
  · change execMswrp a b s = _
    simp only [execMswrp]
    rw [onHart_runs r, entered_of_not_closes rfl, if_neg (by omega)]
  · change execMsrdm d a s = _
    simp only [execMsrdm]
    rw [onHart_runs r, entered_of_not_closes rfl, if_neg (by omega)]
  · change execMsrdp d a s = _
    simp only [execMsrdp]
    rw [onHart_runs r, entered_of_not_closes rfl, if_neg (by omega)]
  · change execMswrm a b s = _
    simp only [execMswrm]
    rw [onHart_runs r, entered_of_not_closes rfl, if_pos past]
  · change execMswrp a b s = _
    simp only [execMswrp]
    rw [onHart_runs r, entered_of_not_closes rfl, if_pos past]
  · obtain ⟨a, imm, rfl⟩ | ⟨a, b, rfl⟩ := kind
    · change execMif a imm s = _
      rw [execMif, onHart_runs r, entered_of_not_closes rfl, if_pos full]
    · change execMspush a b s = _
      rw [execMspush, onHart_runs r, entered_of_not_closes rfl, if_pos full]
  · obtain ⟨imm, rfl⟩ | ⟨a, imm, rfl⟩ | rfl | ⟨a, rfl⟩ | ⟨d, rfl⟩ := kind
    · change execMelse imm s = _
      rw [execMelse, onHart_runs r, entered_of_not_closes rfl, if_pos one]
    · change execMwhile a imm s = _
      rw [execMwhile, onHart_runs r, entered_of_not_closes rfl, if_pos one]
    · change execMend s = _
      rw [execMend, onHart_runs r, entered_of_not_closes rfl, if_pos one]
    · change execMbrk a s = _
      rw [execMbrk, onHart_runs r, entered_of_not_closes rfl, if_pos one]
    · change execMspop d s = _
      rw [execMspop, onHart_runs r, entered_of_not_closes rfl, if_pos one]

/-! ## The standard base (R61, R107) -/

theorem shiftLeft_eq_ofNat (x : Word) (n : Nat) : x <<< n = BitVec.ofNat 64 (x.toNat * 2 ^ n) := by
  apply BitVec.eq_of_toNat_eq
  rw [BitVec.toNat_shiftLeft, BitVec.toNat_ofNat, Nat.shiftLeft_eq]

theorem ushiftRight_eq_ofNat {w : Nat} (x : BitVec w) (n : Nat) : x >>> n = BitVec.ofNat w (x.toNat / 2 ^ n) := by
  apply BitVec.eq_of_toNat_eq
  rw [BitVec.toNat_ushiftRight, BitVec.toNat_ofNat, Nat.shiftRight_eq_div_pow, Nat.mod_eq_of_lt]
  exact lt_of_le_of_lt (Nat.div_le_self _ _) x.isLt

theorem sshiftRight_eq_ofInt {w : Nat} (x : BitVec w) (n : Nat) : x.sshiftRight n = BitVec.ofInt w (x.toInt / 2 ^ n) := by
  rw [BitVec.sshiftRight, Int.shiftRight_eq_div_pow]
  norm_cast

/-- A 32-bit shift to the left is the low word of the 64-bit one. -/
theorem shiftOpW_sll (x : Word) (n : Nat) : shiftOpW .sll x n = sextW (x <<< n) := by
  have low : x.setWidth 32 <<< n = (x <<< n).setWidth 32 := by
    ext i lt
    simp
  exact congrArg (BitVec.signExtend 64) low

theorem shiftOpW_srl (x : Word) (n : Nat) : shiftOpW .srl x n = sextW (BitVec.ofNat 64 (x.toNat % 2 ^ 32 / 2 ^ n)) := by
  have low : x.setWidth 32 >>> n = (BitVec.ofNat 64 (x.toNat % 2 ^ 32 / 2 ^ n)).setWidth 32 := by
    rw [ushiftRight_eq_ofNat, BitVec.toNat_setWidth, BitVec.setWidth_ofNat_of_le (by decide)]
  exact congrArg (BitVec.signExtend 64) low

theorem shiftOpW_sra (x : Word) (n : Nat) : shiftOpW .sra x n = BitVec.ofInt 64 ((sextW x).toInt / 2 ^ n) := by
  change BitVec.ofInt 64 ((x.setWidth 32).sshiftRight n).toInt = _
  rw [BitVec.toInt_sshiftRight, sextW, BitVec.toInt_signExtend_of_le (by decide), Int.shiftRight_eq_div_pow]
  norm_cast

theorem mulOp_mul (x y : Word) : mulOp .mul x y = BitVec.ofInt 64 (x.toInt * y.toInt) := by
  rw [BitVec.ofInt_mul, BitVec.ofInt_toInt, BitVec.ofInt_toInt]
  rfl

theorem mulOp_mulw (x y : Word) :
    mulOp .mulw x y = (BitVec.ofInt 32 ((x.setWidth 32).toInt * (y.setWidth 32).toInt)).signExtend 64 := by
  rw [BitVec.ofInt_mul, BitVec.ofInt_toInt, BitVec.ofInt_toInt, ← BitVec.setWidth_mul _ _ (by decide)]
  rfl

section
variable (s : State) (h : Hart) (rd a b : XR)

theorem completes_lui (up : BitVec 20) : CompletesX s h (.integerOp (.lui rd up)) rd ((up ++ (0 : BitVec 12)).signExtend 64) (h.pc + 4) :=
  completesX_of fun r => by unfold exec; exact onHart_runs r _

theorem completes_auipc (up : BitVec 20) :
    CompletesX s h (.integerOp (.auipc rd up)) rd (h.pc + (up ++ (0 : BitVec 12)).signExtend 64) (h.pc + 4) :=
  completesX_of fun r => by unfold exec; exact onHart_runs r _

theorem completes_aluImm (k : ImmKind) (imm : BitVec 12) :
    CompletesX s h (.integerOp (.aluImm k rd a imm)) rd (aluImmOp k (rx h a) (imm.signExtend 64)) (h.pc + 4) :=
  completesX_of fun r => by unfold exec; exact onHart_runs r _

theorem completes_shiftImm (k : ShiftKind) (n : BitVec 6) :
    CompletesX s h (.integerOp (.shiftImm k rd a n)) rd (shiftOp k (rx h a) n.toNat) (h.pc + 4) :=
  completesX_of fun r => by unfold exec; exact onHart_runs r _

theorem completes_addiw (imm : BitVec 12) :
    CompletesX s h (.integerOp (.addiw rd a imm)) rd (sextW (rx h a + imm.signExtend 64)) (h.pc + 4) :=
  completesX_of fun r => by unfold exec; exact onHart_runs r _

theorem completes_shiftImmW (k : ShiftKind) (n : BitVec 5) :
    CompletesX s h (.integerOp (.shiftImmW k rd a n)) rd (shiftOpW k (rx h a) n.toNat) (h.pc + 4) :=
  completesX_of fun r => by unfold exec; exact onHart_runs r _

theorem completes_alu (k : AluKind) : CompletesX s h (.integerOp (.alu k rd a b)) rd (aluOp k (rx h a) (rx h b)) (h.pc + 4) :=
  completesX_of fun r => by unfold exec; exact onHart_runs r _

theorem completes_aluW (k : AluWKind) : CompletesX s h (.integerOp (.aluW k rd a b)) rd (aluWOp k (rx h a) (rx h b)) (h.pc + 4) :=
  completesX_of fun r => by unfold exec; exact onHart_runs r _

theorem completes_mul (k : MulKind) : CompletesX s h (.mul k rd a b) rd (mulOp k (rx h a) (rx h b)) (h.pc + 4) :=
  completesX_of fun r => by unfold exec; exact onHart_runs r _

theorem completes_div (k : DivKind) : CompletesX s h (.div k rd a b) rd (divOp k (rx h a) (rx h b)) (h.pc + 4) :=
  completesX_of fun r => by unfold exec; exact onHart_runs r _

end

theorem completesX_value {s : State} {h : Hart} {i : Instr} {d : XR} {v w pc : Word} (e : v = w) (c : CompletesX s h i d v pc) :
    CompletesX s h i d w pc := e ▸ c

theorem slt_value (x y : Word) : (if x.slt y then (1 : Word) else 0) = if x.toInt < y.toInt then 1 else 0 := by
  simp [BitVec.slt]

/-- The quotients and remainders of a division by zero (R107). -/
theorem divOp_zero (x : Word) : divOp .div x 0 = BitVec.allOnes 64 ∧ divOp .divu x 0 = BitVec.allOnes 64 ∧ divOp .rem x 0 = x ∧
    divOp .remu x 0 = x := ⟨rfl, rfl, rfl, rfl⟩

theorem divOp_zero_low {y : Word} (x : Word) (zero : y.setWidth 32 = 0) :
    divOp .divw x y = BitVec.allOnes 64 ∧ divOp .divuw x y = BitVec.allOnes 64 ∧
      divOp .remw x y = (x.setWidth 32).signExtend 64 ∧ divOp .remuw x y = (x.setWidth 32).signExtend 64 := by
  simp only [divOp, zero]
  exact ⟨rfl, rfl, rfl, rfl⟩

/-- Settles O20. -/
theorem standardBaseComputationCompletes : Obligations.StandardBaseComputationCompletes := by
  refine ⟨fun s h rd a b imm up sh6 sh5 => ⟨completes_lui s h rd up, completes_auipc s h rd up, completes_aluImm s h rd a .addi imm, ?_, ?_,
      completes_aluImm s h rd a .xori imm, completes_aluImm s h rd a .ori imm, completes_aluImm s h rd a .andi imm, ?_, ?_, ?_,
      completes_addiw s h rd a imm, ?_, ?_, ?_, completes_alu s h rd a b .add, completes_alu s h rd a b .sub, ?_, ?_, ?_,
      completes_alu s h rd a b .xor, ?_, ?_, completes_alu s h rd a b .or, completes_alu s h rd a b .and,
      completes_aluW s h rd a b .addw, completes_aluW s h rd a b .subw, ?_, ?_, ?_⟩,
    fun s h rd a b => ⟨?_, completes_mul s h rd a b .mulh, completes_mul s h rd a b .mulhsu, completes_mul s h rd a b .mulhu, ?_,
      fun zero => ?_, fun zero => ?_, fun some => ?_, fun some => ?_⟩⟩
  · exact completesX_value (slt_value _ _) (completes_aluImm s h rd a .slti imm)
  · exact completes_aluImm s h rd a .sltiu imm
  · exact completesX_value (shiftLeft_eq_ofNat _ _) (completes_shiftImm s h rd a .sll sh6)
  · exact completesX_value (ushiftRight_eq_ofNat (rx h a) _) (completes_shiftImm s h rd a .srl sh6)
  · exact completesX_value (sshiftRight_eq_ofInt (rx h a) _) (completes_shiftImm s h rd a .sra sh6)
  · exact completesX_value (shiftOpW_sll _ _) (completes_shiftImmW s h rd a .sll sh5)
  · exact completesX_value (shiftOpW_srl _ _) (completes_shiftImmW s h rd a .srl sh5)
  · exact completesX_value (shiftOpW_sra _ _) (completes_shiftImmW s h rd a .sra sh5)
  · exact completesX_value (shiftLeft_eq_ofNat _ _) (completes_alu s h rd a b .sll)
  · exact completesX_value (slt_value _ _) (completes_alu s h rd a b .slt)
  · exact completes_alu s h rd a b .sltu
  · exact completesX_value (ushiftRight_eq_ofNat (rx h a) _) (completes_alu s h rd a b .srl)
  · exact completesX_value (sshiftRight_eq_ofInt (rx h a) _) (completes_alu s h rd a b .sra)
  · exact completesX_value (shiftOpW_sll _ _) (completes_aluW s h rd a b .sllw)
  · exact completesX_value (shiftOpW_srl _ _) (completes_aluW s h rd a b .srlw)
  · exact completesX_value (shiftOpW_sra _ _) (completes_aluW s h rd a b .sraw)
  · exact completesX_value (mulOp_mul _ _) (completes_mul s h rd a b .mul)
  · exact completesX_value (mulOp_mulw _ _) (completes_mul s h rd a b .mulw)
  · obtain ⟨div, divu, rem, remu⟩ := divOp_zero (rx h a)
    rw [← zero] at div divu rem remu
    exact ⟨completesX_value div (completes_div s h rd a b .div), completesX_value divu (completes_div s h rd a b .divu),
      completesX_value rem (completes_div s h rd a b .rem), completesX_value remu (completes_div s h rd a b .remu)⟩
  · obtain ⟨div, divu, rem, remu⟩ := divOp_zero_low (rx h a) zero
    exact ⟨completesX_value div (completes_div s h rd a b .divw), completesX_value divu (completes_div s h rd a b .divuw),
      completesX_value rem (completes_div s h rd a b .remw), completesX_value remu (completes_div s h rd a b .remuw)⟩
  · exact ⟨completesX_value (if_neg some) (completes_div s h rd a b .div), completesX_value (if_neg some) (completes_div s h rd a b .divu),
      completesX_value (if_neg some) (completes_div s h rd a b .rem), completesX_value (if_neg some) (completes_div s h rd a b .remu)⟩
  · exact ⟨completesX_value (congrArg (BitVec.signExtend 64) (if_neg some)) (completes_div s h rd a b .divw),
      completesX_value (congrArg (BitVec.signExtend 64) (if_neg some)) (completes_div s h rd a b .divuw),
      completesX_value (congrArg (BitVec.signExtend 64) (if_neg some)) (completes_div s h rd a b .remw),
      completesX_value (congrArg (BitVec.signExtend 64) (if_neg some)) (completes_div s h rd a b .remuw)⟩

/-! Transfers -/

theorem transfer_aligned {s : State} {k : Nat} {h : Hart} {link : Option (XR × Word)} {t : Word} (aligned : t &&& 3 = 0) :
    transfer s k h link t = setHart s k (jumpTo s k (match link with
      | some (rd, w) => wx h rd w
      | none => h) t) := if_neg (not_not.mpr aligned)

theorem transfer_misaligned {s : State} {k : Nat} {h : Hart} {link : Option (XR × Word)} {t : Word} (misaligned : t &&& 3 ≠ 0) :
    transfer s k h link t = trapAt s k h 0 t := if_pos misaligned

theorem branchTaken_iff (c : BranchKind) (x y : Word) : branchTaken c x y = true ↔ (match c with
    | .beq => x = y | .bne => x ≠ y | .blt => x.toInt < y.toInt | .bge => y.toInt ≤ x.toInt
    | .bltu => x.toNat < y.toNat | .bgeu => y.toNat ≤ x.toNat) := by
  cases c <;> simp [branchTaken, BitVec.slt, BitVec.lt_def]

theorem exec_jal {s : State} {h : Hart} {rd : XR} {off : BitVec 20} (r : Runs s h (.integerOp (.jal rd off))) :
    exec (.integerOp (.jal rd off)) s = .next (transfer s s.cur h (some (rd, h.pc + 4)) (h.pc + off.signExtend 64 * 2)) := by
  unfold exec; exact onHart_runs r _

theorem exec_jalr {s : State} {h : Hart} {rd a : XR} {imm : BitVec 12} (r : Runs s h (.integerOp (.jalr rd a imm))) :
    exec (.integerOp (.jalr rd a imm)) s =
      .next (transfer s s.cur h (some (rd, h.pc + 4)) ((rx h a + imm.signExtend 64) &&& ~~~ 1)) := by
  unfold exec; exact onHart_runs r _

theorem exec_branch {s : State} {h : Hart} {c : BranchKind} {a b : XR} {off : BitVec 12} (r : Runs s h (.integerOp (.branch c a b off))) :
    exec (.integerOp (.branch c a b off)) s =
      .next (if branchTaken c (rx h a) (rx h b) then transfer s s.cur h none (h.pc + off.signExtend 64 * 2)
        else setHart s s.cur (adv s s.cur h 4)) := by
  unfold exec; exact onHart_runs r _

/-- Settles O21. -/
theorem transfersGoToAlignedTargets : Obligations.TransfersGoToAlignedTargets := by
  intro s h rd a b imm off12 off20 c
  have decides := branchTaken_iff c (rx h a) (rx h b)
  refine ⟨fun aligned r => ?_, fun aligned r => ?_, fun taken aligned r => ?_, fun goesOn r => ?_, fun mis r => ?_, fun mis r => ?_,
    fun taken mis r => ?_⟩
  · rw [exec_jal r, transfer_aligned aligned]
    exact ⟨_, rfl, wroteX_jump s h rd _ _⟩
  · rw [exec_jalr r, transfer_aligned aligned]
    exact ⟨_, rfl, wroteX_jump s h rd _ _⟩
  · rw [exec_branch r, if_pos (decides.mpr taken), transfer_aligned aligned]
    exact ⟨_, rfl, wroteX_jump s h 0 0 _⟩
  · rw [exec_branch r, if_neg (fun t => goesOn (decides.mp t))]
    exact ⟨_, rfl, wroteX_adv s h 0 0 4⟩
  · rw [exec_jal r, transfer_misaligned mis]
  · rw [exec_jalr r, transfer_misaligned mis]
  · rw [exec_branch r, if_pos (decides.mpr taken), transfer_misaligned mis]

/-! ## What an instruction of a hart may change outside the hart -/

/-- The state t differs from s in the hart of slot k, in machine CSRs and in reservations alone. -/
structure HartAlone (s : State) (k : Nat) (t : State) : Prop where
  rest : t = { s with harts := t.harts, mcsrs := t.mcsrs, mem := t.mem }
  bytes : sameBytes s t
  others : ∀ j, j ≠ k → hartAt t j = hartAt s j

theorem HartAlone.refl (s : State) (k : Nat) : HartAlone s k s :=
  ⟨rfl, sameBytes_of_ground rfl, fun _ _ => rfl⟩

theorem hartAlone_setHart (s : State) (k : Nat) (h : Hart) : HartAlone s k (setHart s k h) :=
  ⟨rfl, sameBytes_of_ground rfl, fun _ n => hartAt_setHart_other s h n⟩

theorem hartAlone_trapAt (s : State) (k : Nat) (h : Hart) (c : Nat) (v : Word) : HartAlone s k (trapAt s k h c v) := by
  refine ⟨?_, takeTrap_sameBytes s k h c false v h.pc, fun j n => takeTrap_other s h c false v h.pc n⟩
  obtain ⟨g, m, e⟩ := takeTrap_eq s k h c false v h.pc
  rw [trapAt_eq, e, loseResv_eq]
  rfl

/-- A trap changes the supervisor CSRs, the mode and the pc of its hart, and ends what a trap ends. -/
theorem hartAt_trapAt (s : State) (k : Nat) (h : Hart) (c : Nat) (v : Word) :
    ∃ g, hartAt (trapAt s k h c v) k = some g ∧ g = { trapping h with s := g.s, mode := g.mode, pc := g.pc } := by
  rw [trapAt_eq]
  cases d : goesToS (mcsrOf s k) h c false
  · rw [takeTrap_toM v h.pc d]
    exact ⟨_, hartAt_setHart_same _ _ _, rfl⟩
  · rw [takeTrap_toS v h.pc d]
    exact ⟨_, hartAt_setHart_same _ _ _, rfl⟩

/-! ## The frame of register instructions -/

/-- Of a hart, what an instruction on x and m registers and the mask stack leaves. -/
def EnginesAlike (h g : Hart) : Prop :=
  g.v = h.v ∧ g.tm = h.tm ∧ g.tickets = h.tickets ∧ g.msg = h.msg ∧ g.laneQ = h.laneQ ∧ g.l.lfrm = h.l.lfrm ∧ g.l.lflags = h.l.lflags ∧
    g.l.ftz = h.l.ftz ∧ g.id = h.id

theorem EnginesAlike.refl (h : Hart) : EnginesAlike h h := ⟨rfl, rfl, rfl, rfl, rfl, rfl, rfl, rfl, rfl⟩

theorem EnginesAlike.trans {h g f : Hart} (hg : EnginesAlike h g) (gf : EnginesAlike g f) : EnginesAlike h f := by
  obtain ⟨v, tm, tickets, msg, laneQ, lfrm, lflags, ftz, id⟩ := hg
  obtain ⟨v', tm', tickets', msg', laneQ', lfrm', lflags', ftz', id'⟩ := gf
  exact ⟨v'.trans v, tm'.trans tm, tickets'.trans tickets, msg'.trans msg, laneQ'.trans laneQ, lfrm'.trans lfrm, lflags'.trans lflags,
    ftz'.trans ftz, id'.trans id⟩

theorem enginesAlike_adv (s : State) (k n : Nat) {h g : Hart} (a : EnginesAlike h g) : EnginesAlike h (adv s k g n) :=
  a.trans (by unfold adv retire; split <;> exact .refl _)

theorem enginesAlike_jumpTo (s : State) (k : Nat) (t : Word) {h g : Hart} (a : EnginesAlike h g) : EnginesAlike h (jumpTo s k g t) :=
  a.trans (by unfold jumpTo retire; split <;> exact .refl _)

theorem enginesAlike_wx (d : XR) (w : Word) (h : Hart) : EnginesAlike h (wx h d w) := by unfold wx; split <;> exact .refl _

theorem enginesAlike_wm (d : MR) (m : Mask) (h : Hart) : EnginesAlike h (wm h d m) := by unfold wm; split <;> exact .refl _

theorem enginesAlike_stack {h g : Hart} (only : OnlyStack h g) : EnginesAlike h g := by rw [OnlyStack] at only; rw [only]; exact .refl _

theorem enginesAlike_closeRegion (h : Hart) : EnginesAlike h (closeRegion h) := ⟨rfl, rfl, rfl, rfl, rfl, rfl, rfl, rfl, rfl⟩

theorem enginesAlike_ite {c : Prop} [Decidable c] {h g g' : Hart} (a : EnginesAlike h g) (b : EnginesAlike h g') :
    EnginesAlike h (if c then g else g') := by split <;> assumption

/-- The state t is s, or s with the hart in `cur` changed outside its engines, or a trap of such a hart. -/
def Quiet (s : State) (h : Hart) (t : State) : Prop :=
  t = s ∨ ∃ g, EnginesAlike h g ∧ (t = setHart s s.cur g ∨ ∃ c v, t = trapAt s s.cur g c v)

section
variable {s : State} {h g : Hart}

theorem quiet_put (a : EnginesAlike h g) : Quiet s h (setHart s s.cur g) := .inr ⟨g, a, .inl rfl⟩

theorem quiet_trap (a : EnginesAlike h g) (c : Nat) (v : Word) : Quiet s h (trapAt s s.cur g c v) := .inr ⟨g, a, .inr ⟨c, v, rfl⟩⟩

theorem quiet_ite {c : Prop} [Decidable c] {t u : State} (a : Quiet s h t) (b : Quiet s h u) : Quiet s h (if c then t else u) := by
  split <;> assumption

theorem quiet_wx (d : XR) (w : Word) : Quiet s h (setHart s s.cur (adv s s.cur (wx h d w) 4)) :=
  quiet_put (enginesAlike_adv _ _ _ (enginesAlike_wx d w h))

theorem quiet_wm (d : MR) (m : Mask) : Quiet s h (setHart s s.cur (adv s s.cur (wm h d m) 4)) :=
  quiet_put (enginesAlike_adv _ _ _ (enginesAlike_wm d m h))

theorem quiet_adv (only : OnlyStack h g) : Quiet s h (setHart s s.cur (adv s s.cur g 4)) :=
  quiet_put (enginesAlike_adv _ _ _ (enginesAlike_stack only))

theorem quiet_branch {c : Prop} [Decidable c] (only : OnlyStack h g) (t : Word) :
    Quiet s h (setHart s s.cur (if c then jumpTo s s.cur g t else adv s s.cur g 4)) :=
  quiet_put (enginesAlike_ite (enginesAlike_jumpTo _ _ _ (enginesAlike_stack only)) (enginesAlike_adv _ _ _ (enginesAlike_stack only)))

theorem quiet_transfer (link : Option (XR × Word)) (t : Word) : Quiet s h (transfer s s.cur h link t) := by
  unfold transfer
  refine quiet_ite (quiet_trap (.refl h) _ _) (quiet_put (enginesAlike_jumpTo _ _ _ ?_))
  split
  · exact enginesAlike_wx _ _ h
  · exact .refl h

end

/-- Whatever an instruction on registers does is quiet. -/
theorem quiet_of_registerOnly (s : State) {i : Instr} (only : isRegisterOnly i = true) :
    ∃ f, exec i s = onHart s i f ∧ ∀ h, Quiet s h (f s.cur h) := by
  cases i
  case mand | mor | mxor | mandn | mnot | mwr => exact ⟨_, by unfold exec; exact rfl, fun h => quiet_wm _ _⟩
  case mrd | mcnt | mffs | mtop | msrdm | msrdp | mul | div => exact ⟨_, by unfold exec; exact rfl, fun h => quiet_wx _ _⟩
  case mif =>
    exact ⟨_, by unfold exec; exact rfl, fun h => quiet_ite (quiet_trap (.refl h) _ _) (quiet_branch (onlyStack_pushStk h _ _) _)⟩
  case melse =>
    exact ⟨_, by unfold exec; exact rfl, fun h => quiet_ite (quiet_trap (.refl h) _ _) (quiet_branch (onlyStack_setStk h _ _) _)⟩
  case mwhile =>
    refine ⟨_, by unfold exec; exact rfl, fun h => quiet_ite (quiet_trap (.refl h) _ _) (quiet_put (enginesAlike_ite ?_ ?_))⟩
    · exact enginesAlike_adv _ _ _ (enginesAlike_stack (onlyStack_setStk h _ _))
    · exact enginesAlike_jumpTo _ _ _ (enginesAlike_stack (onlyStack_setStk h _ _))
  case mend => exact ⟨_, by unfold exec; exact rfl, fun h => quiet_ite (quiet_trap (.refl h) _ _) (quiet_adv (onlyStack_dep h _))⟩
  case mbrk =>
    refine ⟨_, by unfold exec; exact rfl, fun h => quiet_ite (quiet_trap (.refl h) _ _) (quiet_ite (quiet_ite ?_ ?_) ?_)⟩
    · exact quiet_trap (enginesAlike_stack (onlyStack_setStk h _ _)) _ _
    · exact quiet_put (enginesAlike_jumpTo _ _ _ (enginesAlike_stack (onlyStack_setStk h _ _)))
    · exact quiet_adv (onlyStack_setStk h _ _)
  case mspush => exact ⟨_, by unfold exec; exact rfl, fun h => quiet_ite (quiet_trap (.refl h) _ _) (quiet_adv (onlyStack_pushStk h _ _))⟩
  case mspop =>
    exact ⟨_, by unfold exec; exact rfl, fun h => quiet_ite (quiet_trap (.refl h) _ _)
      (quiet_put (enginesAlike_adv _ _ _ ((enginesAlike_stack (onlyStack_dep h _)).trans (enginesAlike_wm _ _ _))))⟩
  case mswrm | mswrp =>
    exact ⟨_, by unfold exec; exact rfl, fun h => quiet_ite (quiet_trap (.refl h) _ _) (quiet_adv (onlyStack_setStk h _ _))⟩
  case tmaddr => exact ⟨_, by unfold exec; exact rfl, fun h => quiet_ite (quiet_trap (.refl h) _ _) (quiet_wx _ _)⟩
  case bst =>
    refine ⟨_, by unfold exec; exact rfl, fun h => quiet_ite (.inl rfl) ?_⟩
    refine quiet_put (enginesAlike_adv _ _ _ ?_)
    exact ⟨rfl, rfl, rfl, rfl, rfl, rfl, rfl, rfl, rfl⟩
  case bend =>
    refine ⟨_, by unfold exec; exact rfl, fun h => quiet_ite (.inl rfl) ?_⟩
    exact quiet_put (enginesAlike_adv _ _ _ (enginesAlike_ite (enginesAlike_closeRegion h) (.refl h)))
  case pause =>
    refine ⟨_, by unfold exec; exact rfl, fun h => ?_⟩
    exact quiet_put ((enginesAlike_adv s s.cur 4 (.refl h)).trans ⟨rfl, rfl, rfl, rfl, rfl, rfl, rfl, rfl, rfl⟩)
  case frrd =>
    refine ⟨_, by unfold exec; exact rfl, fun h => ?_⟩
    split
    · exact quiet_trap (.refl h) _ _
    · exact quiet_wx _ _
  case integerOp op =>
    refine ⟨_, by unfold exec; exact rfl, fun h => ?_⟩
    cases op
    case jal | jalr => exact quiet_transfer _ _
    case branch => exact quiet_ite (quiet_transfer _ _) (quiet_adv rfl)
    all_goals exact quiet_wx _ _
  all_goals cases only

theorem hartAlone_of_quiet {s t : State} {h : Hart} (q : Quiet s h t) : HartAlone s s.cur t := by
  obtain rfl | ⟨g, -, rfl | ⟨c, v, rfl⟩⟩ := q
  · exact .refl _ _
  · exact hartAlone_setHart s s.cur g
  · exact hartAlone_trapAt s s.cur g c v

theorem enginesAlike_of_quiet {s t : State} {h : Hart} (here : hartAt s s.cur = some h) (q : Quiet s h t) :
    ∃ g, hartAt t s.cur = some g ∧ EnginesAlike h g := by
  obtain rfl | ⟨g, a, rfl | ⟨c, v, rfl⟩⟩ := q
  · exact ⟨h, here, .refl h⟩
  · exact ⟨g, hartAt_setHart_same _ _ _, a⟩
  · obtain ⟨g', at_, e⟩ := hartAt_trapAt s s.cur g c v
    exact ⟨g', at_, a.trans (by rw [e]; exact .refl g)⟩

theorem closesRegion_of_registerOnly {i : Instr} (only : isRegisterOnly i = true) : closesRegion i = false := by
  cases i <;> first | rfl | cases only

/-- Settles O22. -/
theorem registerInstructionsTouchNothingElse : Obligations.RegisterInstructionsTouchNothingElse := by
  intro s t i h only here next
  obtain ⟨f, e, quiet⟩ := quiet_of_registerOnly s only
  have q : Quiet s h t := by
    rw [e] at next
    obtain rfl | ⟨h', ⟨here', -, -⟩, rfl⟩ := onHart_next next
    · exact .inl rfl
    · cases here.symm.trans here'
      rw [entered_of_not_closes (closesRegion_of_registerOnly only)]
      exact quiet h
  obtain ⟨rest, bytes, others⟩ := hartAlone_of_quiet q
  refine ⟨bytes, others, ?_, ?_, ?_, ?_, ?_, ?_, enginesAlike_of_quiet here q⟩
  all_goals rw [rest]

end Sys2Proof.Machine
end

section
/-! Waits, fences, barriers, ends and the ring (O23 to O27). -/

namespace Sys2Proof.Machine

/-! ## Waits (R107, R120 to R122, R126, R281) -/

theorem startWrs_of_unreserved {s : State} {k : Nat} {h : Hart} (u : Option Nat) (none : resvOf s h = none) :
    startWrs s k h u = setHart s k (adv s k h 4) := by
  simp only [startWrs, none]

theorem startWrs_of_reserved {s : State} {k : Nat} {h : Hart} {line : Nat} {p : ResvAt} (u : Option Nat) (held : resvOf s h = some (line, p))
    (room : (coreAt s (coreOfSlot k)).monitors.length < 64) :
    startWrs s k h u = updCore (setHart s k { h with wait := some (.wrs line u) }) (coreOfSlot k) fun c =>
      { c with monitors := c.monitors ++ [⟨h.id.uid, line⟩] } := by
  simp only [startWrs, held]
  exact if_neg (by omega)

/-- Settles O23. -/
theorem waitsCompleteOrStand : Obligations.WaitsCompleteOrStand := by
  intro s h a e
  refine ⟨fun kernel some r => ?_, fun due r => ?_, fun early r => ?_, fun mode some r => ?_, fun mode none r => ?_, fun r => ?_,
    fun none => ⟨fun r => ?_, fun r => ?_⟩, fun line p held room => ⟨fun r => ?_, fun r => ?_⟩, fun kernel done r => ?_,
    fun handler done r => ?_, fun busy r => ?_⟩
  · change execHwmsg s = _
    rw [execHwmsg, onHart_runs r, entered_of_not_closes rfl, if_neg (by simp [kernel]), if_neg (by simpa using some)]
  · change execHwtime a s = _
    rw [execHwtime, onHart_runs r, entered_of_not_closes rfl, if_pos due]
  · change execHwtime a s = _
    rw [execHwtime, onHart_runs r, entered_of_not_closes rfl, if_neg (by omega)]
  · change execWfi s = _
    rw [execWfi, onHart_runs r, entered_of_not_closes rfl, if_neg mode, if_pos some]
  · change execWfi s = _
    rw [execWfi, onHart_runs r, entered_of_not_closes rfl, if_neg mode, if_neg (not_not.mpr none)]
  · change execPause s = _
    rw [execPause, onHart_runs r, entered_of_not_closes rfl]
  · change execWrsNto s = _
    rw [execWrsNto, onHart_runs r, entered_of_not_closes rfl, startWrs_of_unreserved _ none]
  · change execWrsSto s = _
    rw [execWrsSto, onHart_runs r, entered_of_not_closes rfl, startWrs_of_unreserved _ none]
  · change execWrsNto s = _
    rw [execWrsNto, onHart_runs r, entered_of_not_closes rfl, startWrs_of_reserved _ held room]
  · change execWrsSto s = _
    rw [execWrsSto, onHart_runs r, entered_of_not_closes rfl, startWrs_of_reserved _ held room]
  · change execHdrain e s = _
    rw [execHdrain, onHart_runs r, entered_of_not_closes rfl, if_neg (by simp [done])]
    simp [kernel]
  · change execHdrain e s = _
    rw [execHdrain, onHart_runs r, entered_of_not_closes rfl, if_neg (by simp [done])]
    simp [handler]
  · change execHdrain e s = _
    rw [execHdrain, onHart_runs r, entered_of_not_closes rfl, if_pos (by simp [busy])]

/-! ## Fences (R10, R46, R51, R107, R296, R325) -/

/-- FENCE with its two sets as they act (R107). -/
theorem exec_fence {s : State} {h : Hart} {fm p q : BitVec 4} {rd rs1 : XR} (r : Runs s h (.fence fm p q rd rs1)) :
    let pred := withFiom (fiom s s.cur h) (fenceSet fm p)
    let succ := withFiom (fiom s s.cur h) (fenceSet fm q)
    exec (.fence fm p q rd rs1) s = .next (
      if !drained h || (pred &&& 0b0101 ≠ 0 && !storesDone s h.id.uid .device) || (decide (pred &&& 0b1100 ≠ 0) && hostPending s h.id.uid) then s
      else
        let t := setHart s s.cur (adv s s.cur (if succ &&& 0b0101 ≠ 0 then releaseDeps s h .device else h) 4)
        if pred.getLsbD 1 && succ &&& 0b0011 ≠ 0 then (if succ.getLsbD 1 then acquireAt t s.cur .device else observeDie t s.cur) else t) := by
  change execFence fm p q rd rs1 s = _
  rw [execFence, onHart_runs r, entered_of_not_closes rfl]

theorem drained_eq (h : Hart) : drained h = laneDrained h := rfl

/-- A FENCE before which everything has performed. -/
theorem exec_fence_of_performed {s : State} {h : Hart} {fm p q : BitVec 4} {rd rs1 : XR} (r : Runs s h (.fence fm p q rd rs1))
    (lanes : laneDrained h = true) (stores : storesDone s h.id.uid .device = true) (host : hostPending s h.id.uid = false) :
    let pred := withFiom (fiom s s.cur h) (fenceSet fm p)
    let succ := withFiom (fiom s s.cur h) (fenceSet fm q)
    let t := setHart s s.cur (adv s s.cur (if succ &&& 0b0101 ≠ 0 then releaseDeps s h .device else h) 4)
    exec (.fence fm p q rd rs1) s = .next (
      if pred.getLsbD 1 && succ &&& 0b0011 ≠ 0 then (if succ.getLsbD 1 then acquireAt t s.cur .device else observeDie t s.cur) else t) := by
  refine (exec_fence r).trans (congrArg Host.Outcome.next (if_neg ?_))
  rw [drained_eq, lanes, stores, host]
  simp

/-- FENCE.TSO and the reserved modes act as FENCE rw,rw, with FIOM or without (R107). -/
theorem withFiom_fenceSet_of_ne {fm : BitVec 4} (ne : fm ≠ 0) (on : Bool) (set : BitVec 4) : withFiom on (fenceSet fm set) = 3 := by
  rw [fenceSet, if_neg ne]
  cases on <;> rfl

theorem withFiom_writes (on : Bool) : ∀ set : BitVec 4, set.getLsbD 0 = true → withFiom on set &&& 0b0101 ≠ 0 := by
  cases on <;> decide

theorem scopedFence_of_performed {s : State} {k : Nat} {h : Hart} {sc : Scope} (lanes : laneDrained h = true)
    (stores : performedAt s h sc = true) : scopedFence s k h sc = acquireAt (setHart s k (adv s k (releaseDeps s h sc) 8)) k sc :=
  if_neg (by simp [drained_eq, lanes, stores])

/-- Settles O24. That the fence observes what is visible to the die is log 100. -/
theorem fencesCompleteWhenEarlierWorkPerformed : Obligations.FencesCompleteWhenEarlierWorkPerformed := by
  refine ⟨fun s h fm p q rd rs1 a b imm o => ⟨fun lanes stores host => ⟨fun tso r => ?_, fun plain fiomOff r => ?_⟩, fun lanes stores r => ?_,
      fun lanes stores => ⟨fun r => ?_, fun die r => ?_, fun near r => ?_⟩, fun lanes stores mode r => ?_⟩,
    fun s h fm p q rd rs1 o => ⟨fun r wait => ?_, fun r wait => ?_, fun imm r wait => ?_⟩⟩
  · rw [exec_fence_of_performed r lanes stores host, withFiom_fenceSet_of_ne tso, withFiom_fenceSet_of_ne tso]
    rfl
  · rw [exec_fence_of_performed r lanes stores host, fiomOff, plain]
    change Host.Outcome.next (if (p.getLsbD 1 && decide (q &&& 3 ≠ 0)) = true then _ else _) = _
    have sets : (if q &&& 5 ≠ 0 then releaseDeps s h .device else h) = if q &&& 5 = 0 then h else releaseDeps s h .device := ite_not _ _ _
    by_cases acquires : p.getLsbD 1 = false ∨ q &&& 3 = 0
    · rw [if_pos acquires, if_neg (by rcases acquires with off | off <;> rw [off] <;> simp)]
      exact congrArg (fun g => Host.Outcome.next (setHart s s.cur (adv s s.cur g 4))) sets
    · rw [if_neg acquires, if_pos (by simpa [not_or] using acquires)]
      exact congrArg (fun g => Host.Outcome.next (if q.getLsbD 1 = true then acquireAt (setHart s s.cur (adv s s.cur g 4)) s.cur .device
        else observeDie (setHart s s.cur (adv s s.cur g 4)) s.cur)) sets
  · change execFenceI imm rd rs1 s = _
    rw [execFenceI, onHart_runs r, entered_of_not_closes rfl, if_neg (by simp [drained_eq, lanes, stores])]
    rfl
  · change execXfence o s = _
    rw [execXfence, onHart_runs r, entered_of_not_closes rfl, scopedFence_of_performed lanes stores]
  · change execXfenceSc o s = _
    rw [execXfenceSc, onHart_runs r, entered_of_not_closes rfl, if_neg (by simp [die]), scopedFence_of_performed lanes stores]
  · change execXfenceSc o s = _
    rw [execXfenceSc, onHart_runs r, entered_of_not_closes rfl, if_neg (by rcases near with near | near <;> simp [near]),
      scopedFence_of_performed lanes stores]
  · change execSfenceVma a b s = _
    rw [execSfenceVma, onHart_runs r, entered_of_not_closes rfl, if_neg (by rcases mode with mode | ⟨mode, tvm⟩ <;> simp [*]),
      if_neg (by simp [lanes, stores])]
    rfl
  · refine (exec_fence r).trans (congrArg Host.Outcome.next (if_pos ?_))
    obtain lanes | ⟨writes, stores⟩ := wait
    · simp [drained_eq, lanes]
    · have ordered : withFiom (fiom s s.cur h) (fenceSet fm p) &&& 0b0101 ≠ 0 := by
        by_cases plain : fm = 0
        · rw [fenceSet, if_pos plain]
          exact withFiom_writes _ _ (writes.resolve_left (not_not.mpr plain))
        · rw [withFiom_fenceSet_of_ne plain]
          decide
      rw [stores, decide_eq_true ordered]
      simp
  · change execXfence o s = _
    rw [execXfence, onHart_runs r, entered_of_not_closes rfl]
    exact congrArg _ (if_pos (by rcases wait with wait | wait <;> simp [drained_eq, wait]))
  · change execFenceI imm rd rs1 s = _
    rw [execFenceI, onHart_runs r, entered_of_not_closes rfl, if_pos (by rcases wait with wait | wait <;> simp [drained_eq, wait])]

/-! ## Team barriers (R123 to R125) -/

@[simp] theorem barAt_setBar (t : Team) (n : BitVec 4) (b : Barrier) : barAt (setBar t n b) n = b := by simp [barAt, setBar]

@[simp] theorem ticketAt_setTicket (h : Hart) (n : BitVec 4) (t : Ticket) : ticketAt (setTicket h n t) n = t := by
  simp [ticketAt, setTicket]

theorem onBarrier_runs {s : State} {h : Hart} {tm : Team} {i : Instr} (r : Runs s h i) (open_ : closesRegion i = false)
    (kernel : h.id.handler = false) (team : tget s.work.teams h.id.team = some tm) (f : Nat → Hart → Team → State) :
    onBarrier s i f = .next (f s.cur h tm) := by
  rw [onBarrier, onHart_runs r, entered_of_not_closes open_]
  simp [kernel, teamOf, team]

/-- The barrier after an arrival (R124). -/
def barrierAfter (b : Barrier) (c hidx : Nat) : Barrier :=
  if b.count + 1 = c then ⟨0, 0, !b.p, 0⟩ else ⟨c, b.count + 1, b.p, Nat.lor b.arrived (2 ^ hidx)⟩

section
variable {s : State} {h : Hart} {tm : Team} {n : BitVec 4} {c : Word}

theorem arrive_count (bad : c.toNat = 0 ∨ h.id.size < c.toNat) : arrive s h tm n c = .bad 1 := by
  refine if_pos ?_
  rwa [← BitVec.toNat_inj]

theorem count_ok (one : 1 ≤ c.toNat) (size : c.toNat ≤ h.id.size) : ¬ (c = 0 ∨ c.toNat > h.id.size) := by
  rw [← BitVec.toNat_inj]
  change ¬ (c.toNat = 0 ∨ _)
  omega

theorem arrive_expected (one : 1 ≤ c.toNat) (size : c.toNat ≤ h.id.size) (set : (barAt tm n).e ≠ 0) (other : (barAt tm n).e ≠ c.toNat) :
    arrive s h tm n c = .bad 2 := (if_neg (count_ok one size)).trans (if_pos ⟨set, other⟩)

theorem arrive_again (one : 1 ≤ c.toNat) (size : c.toNat ≤ h.id.size) (same : (barAt tm n).e = 0 ∨ (barAt tm n).e = c.toNat)
    (again : (ticketAt h n).valid = true ∧ (ticketAt h n).phase = (barAt tm n).p) : arrive s h tm n c = .bad 3 :=
  (if_neg (count_ok one size)).trans ((if_neg fun both => same.elim both.1 both.2).trans (if_pos again))

theorem arrive_done (one : 1 ≤ c.toNat) (size : c.toNat ≤ h.id.size) (same : (barAt tm n).e = 0 ∨ (barAt tm n).e = c.toNat)
    (first : ¬ ((ticketAt h n).valid = true ∧ (ticketAt h n).phase = (barAt tm n).p)) (lanes : laneDrained h = true)
    (stores : performedAt s h .team = true) :
    arrive s h tm n c = .done (setTicket h n ⟨true, (barAt tm n).p⟩) (setBar tm n (barrierAfter (barAt tm n) c.toNat h.id.hidx)) := by
  refine (if_neg (count_ok one size)).trans ((if_neg fun both => same.elim both.1 both.2).trans ((if_neg first).trans (if_neg ?_)))
  simp [drained_eq, lanes, stores]

/-- An arrival that completes the phase, and no other, leaves a barrier with nothing expected; it turns the phase. -/
theorem barrierAfter_e (b : Barrier) {c hidx : Nat} (one : 1 ≤ c) : (barrierAfter b c hidx).e = 0 ↔ b.count + 1 = c := by
  unfold barrierAfter
  split
  · simp [*]
  · simp only [*, iff_false]
    omega

theorem barrierAfter_p (b : Barrier) (c hidx : Nat) : ((barrierAfter b c hidx).p != b.p) = decide (b.count + 1 = c) := by
  unfold barrierAfter
  split <;> simp [*]

theorem arrived_eq (u : State) (team : Nat) (b : Barrier) {k hidx : Nat} (one : 1 ≤ k) :
    arrived u team (setBar tm n (barrierAfter b k hidx)) n =
      if b.count + 1 = k then
        (barWaiters (updTeam u team fun _ => setBar tm n (barrierAfter b k hidx)) team n).foldl (fun u p => passBarrier u p.1 p.2 n)
          (updTeam u team fun _ => setBar tm n (barrierAfter b k hidx))
      else updTeam u team fun _ => setBar tm n (barrierAfter b k hidx) := by
  simp only [arrived, barAt_setBar, barrierAfter_e b one]

theorem barWaitDone_iff : barWaitDone h tm n = true ↔ (barAt tm n).p ≠ (ticketAt h n).phase := by simp [barWaitDone]

/-- `bar.sync` in its first phase arrives. -/
theorem exec_barSync_first {a : XR} (r : Runs s h (.barSync a n)) (kernel : h.id.handler = false)
    (team : tget s.work.teams h.id.team = some tm) (fresh : h.syncw = false) :
    exec (.barSync a n) s = .next (match arrive s h tm n (rx h a) with
      | .bad r => barFault s s.cur h n r
      | .wait => s
      | .done h' t' =>
        let u := arrived (setHart s s.cur h') h.id.team t' n
        if barWaitDone h' t' n then passBarrier u s.cur h' n else setHart u s.cur { h' with syncw := true, wait := some (.bar n) }) := by
  change execBarSync a n s = _
  rw [execBarSync, onBarrier_runs r rfl kernel team]
  exact congrArg _ (if_neg (by rw [fresh]; exact Bool.false_ne_true))

/-- In its second phase it waits. -/
theorem exec_barSync_second {a : XR} (r : Runs s h (.barSync a n)) (kernel : h.id.handler = false)
    (team : tget s.work.teams h.id.team = some tm) (again : h.syncw = true) :
    exec (.barSync a n) s = .next (if barWaitDone h tm n then passBarrier s s.cur h n else setHart s s.cur { h with wait := some (.bar n) }) := by
  change execBarSync a n s = _
  rw [execBarSync, onBarrier_runs r rfl kernel team]
  exact congrArg _ (if_pos again)

end

/-- Settles O25. -/
theorem barriersArrivePassAndFault : Obligations.BarriersArrivePassAndFault := by
  refine ⟨fun s h tm a n kernel team => ⟨fun one size same first lanes stores => ⟨fun r => ?_, fun r fresh => ?_⟩, fun r again turned => ?_,
      fun r again stands => ?_, fun r valid turned => ?_, fun r valid stands => ?_⟩,
    fun s h tm a n kernel team => ⟨fun bad => ⟨fun r => ?_, fun fresh r => ?_⟩, fun one size set other => ⟨fun r => ?_, fun fresh r => ?_⟩,
      fun one size same valid phase => ⟨fun r => ?_, fun fresh r => ?_⟩, fun invalid r => ?_⟩⟩
  · change execBarArrive a n s = _
    rw [execBarArrive, onBarrier_runs r rfl kernel team, arrive_done one size same first lanes stores]
    exact congrArg _ (arrived_eq _ _ _ one)
  · rw [exec_barSync_first r kernel team fresh, arrive_done one size same first lanes stores]
    have ends : barWaitDone (setTicket h n ⟨true, (barAt tm n).p⟩)
        (setBar tm n (barrierAfter (barAt tm n) (rx h a).toNat h.id.hidx)) n = true ↔ (barAt tm n).count + 1 = (rx h a).toNat := by
      rw [barWaitDone, barAt_setBar, ticketAt_setTicket, barrierAfter_p, decide_eq_true_iff]
    simp only [arrived_eq _ _ _ one]
    by_cases last : (barAt tm n).count + 1 = (rx h a).toNat
    · exact congrArg _ ((if_pos (ends.mpr last)).trans (if_pos last).symm)
    · exact congrArg _ ((if_neg (mt ends.mp last)).trans (if_neg last).symm)
  · rw [exec_barSync_second r kernel team again, if_pos (barWaitDone_iff.mpr turned)]
    rfl
  · rw [exec_barSync_second r kernel team again, if_neg fun w => barWaitDone_iff.mp w stands]
  · change execBarWait n s = _
    rw [execBarWait, onBarrier_runs r rfl kernel team, valid]
    exact congrArg _ (if_pos (barWaitDone_iff.mpr turned))
  · change execBarWait n s = _
    rw [execBarWait, onBarrier_runs r rfl kernel team, valid]
    exact congrArg _ (if_neg fun w => barWaitDone_iff.mp w stands)
  · change execBarArrive a n s = _
    rw [execBarArrive, onBarrier_runs r rfl kernel team, arrive_count bad]; rfl
  · rw [exec_barSync_first r kernel team fresh, arrive_count bad]; rfl
  · change execBarArrive a n s = _
    rw [execBarArrive, onBarrier_runs r rfl kernel team, arrive_expected one size set other]; rfl
  · rw [exec_barSync_first r kernel team fresh, arrive_expected one size set other]; rfl
  · change execBarArrive a n s = _
    rw [execBarArrive, onBarrier_runs r rfl kernel team, arrive_again one size same ⟨valid, phase⟩]; rfl
  · rw [exec_barSync_first r kernel team fresh, arrive_again one size same ⟨valid, phase⟩]; rfl
  · change execBarWait n s = _
    rw [execBarWait, onBarrier_runs r rfl kernel team, invalid]; rfl

/-! ## Ends, yields and child grids (R127 to R130, R413) -/

theorem entered_parts (h : Hart) (i : Instr) : (entered h i).parts = h.parts := by unfold entered; split <;> rfl

/-- A read of one part of HBM that has no answer yet is made at once, and the access finishes with its bytes. -/
theorem gather_hbm {s t : State} {k : Nat} {h : Hart} {va : Word} {n pa : Nat} {c : Bool} {bs : List Byte} {ids : List Nat}
    (fin : State → List Byte → State) (fresh : h.parts = [])
    (read : readHbm s (dieOfSlot k) h.id.uid pa n c = some (bs, ids, t)) :
    gather s k h [(va, n, .hbm pa c)] fin =
      fin (updHart (if c then noteDcache t (coreOfSlot k) (linesOf pa n) else t) k fun x => { sawEarly x ids with parts := [] }) bs := by
  simp [gather, unasked, isFar, blockedOf, readLocs, readLoc, fresh, read]

section
variable {s : State} {h : Hart}

theorem exec_hexit (r : Runs s h .hexit) (kernel : h.id.handler = false) (user : h.mode = .u)
    (drained : hdrainDone s (entered h .hexit) 0xF = true) :
    exec .hexit s = .next (setHart s s.cur { retire s s.cur (entered h .hexit) with ending := true }) := by
  unfold exec
  exact (onHart_runs r _).trans (congrArg _ ((if_neg (by simp [entered_mode, kernel, user])).trans (if_neg (by rw [drained]; decide))))

theorem exec_hret (r : Runs s h .hret) (handler : h.id.handler = true) (user : h.mode = .u)
    (drained : hdrainDone s (entered h .hret) 0xF = true) (seen : h.msg.rplDue = true → liveSeen s (entered h .hret) = []) :
    let t := if h.msg.rplDue then sendReply s s.cur (entered h .hret) h.l.nseq (BitVec.allOnes 64) (BitVec.allOnes 64) else s
    exec .hret s = .next (setHart t s.cur
      { retire t s.cur (entered h .hret) with ending := true, msg := { h.msg with rplDue := false } }) := by
  unfold exec
  refine (onHart_runs r _).trans (congrArg _ ((if_neg (by simp [entered_mode, handler, user])).trans ((if_neg ?_).trans ?_)))
  · rw [drained, entered_msg]
    cases due : h.msg.rplDue with
    | false => simp
    | true => simp [seen due]
  · simp only [entered_msg, entered_l]

theorem exec_hyield (r : Runs s h .hyield) :
    exec .hyield s = .next (match yieldWindow s (entered h .hyield) with
      | some e => if slotClk s s.cur ≤ e then
          bumpReg (forceAll (setHart s s.cur (adv s s.cur (entered h .hyield) 4)) (entered h .hyield).id.team) cntCoop 63 1 else s
      | none => setHart s s.cur { adv s s.cur (entered h .hyield) 4 with notReady := slotClk s s.cur + 1 }) := by
  unfold exec
  exact onHart_runs r _

theorem exec_gwait {d a : XR} (r : Runs s h (.gwait d a)) (kernel : h.id.handler = false) :
    exec (.gwait d a) s = .next (match childOf s h.id.team (rx h a).toNat with
      | none => setHart s s.cur (adv s s.cur (wx h d (BitVec.allOnes 64)) 4)
      | some (g, gr) =>
        if !gr.retired then s
        else acquireAt (setHart (forgetGrid s g) s.cur (adv s s.cur (wx h d (BitVec.ofNat 64 gr.status)) 4)) s.cur .device) := by
  unfold exec
  refine (onHart_runs r _).trans ?_
  rw [entered_of_not_closes rfl]
  exact congrArg Host.Outcome.next (if_neg (by simp [kernel]))

/-- What `glaunch` does with the descriptor that it has read (R129). -/
def launchWith (k : Nat) (d : XR) (va : Word) (s : State) (bs : List Byte) : State :=
  match hartAt s k with
  | none => s
  | some h =>
    match descBad bs none with
    | some o => trapAt s k h 31 (BitVec.ofNat 64 o)
    | none => goPending (updFe { s with nextUid := s.nextUid + 1 } fun x =>
        { x with greqs := x.greqs ++ [(⟨h.id.uid, k, s.nextUid, h.id.team, bs⟩ : GReq)] }) k h 4 d s.nextUid va none

theorem exec_glaunch {d a : XR} {s1 : State} {l : Loc} (r : Runs s h (.glaunch d a)) (kernel : h.id.handler = false)
    (leader : h.id.hidx = 0) (user : h.mode = .u) (aligned : (rx h a).toNat % 64 = 0)
    (idle : writerPending (entered h (.glaunch d a)) = false)
    (placed : xlateHart (setHart s s.cur (entered h (.glaunch d a))) s.cur (entered h (.glaunch d a)) (rx h a) .load = (.ok l, s1)) :
    exec (.glaunch d a) s =
      .next (gather s1 s.cur (entered h (.glaunch d a)) [(rx h a, 64, l)] (launchWith s.cur d (rx h a))) := by
  change execGlaunch d a s = _
  rw [execGlaunch, onHart_runs r]
  simp [entered_mode, kernel, leader, user, aligned, idle, placed, freshUid]
  rfl

end

/-- Settles O26. The reply that `hret` sends when one is due carries the handler's NSEQ (log 111), and `hyield` without a window makes the
hart not ready for its next pick (log 57): both are the model's choices. -/
theorem endsYieldsAndChildGridsComplete : Obligations.EndsYieldsAndChildGridsComplete := by
  intro s h0 d a k h
  refine ⟨fun r kernel user drained => exec_hexit r kernel user drained, fun r handler user drained due => ?_,
    fun r handler user drained due seen => ?_, fun r offered => ?_, fun e r offered late => ?_, fun e r offered within => ?_,
    fun r kernel child => ?_, fun g gr r kernel child retired => ?_, fun g gr r kernel child retired => ?_,
    fun s1 s2 s3 pa c bs ids g r kernel leader user fresh aligned idle placed read after found good => ?_⟩
  · rw [exec_hret r handler user drained (by simp [due]), due]; rfl
  · rw [exec_hret r handler user drained fun _ => seen, due]; rfl
  · rw [exec_hyield r, offered]
  · rw [exec_hyield r, offered]
    exact congrArg _ (if_neg (Nat.not_le.mpr late))
  · rw [exec_hyield r, offered, entered_id]
    exact congrArg _ (if_pos within)
  · rw [exec_gwait r kernel, child]
  · rw [exec_gwait r kernel, child]
    exact congrArg _ (if_neg (by simp [retired]))
  · rw [exec_gwait r kernel, child]
    exact congrArg _ (if_pos (by simp [retired]))
  · rw [exec_glaunch r kernel leader user aligned idle placed,
      gather_hbm _ ((entered_parts _ _).trans fresh) ((congrArg (readHbm s1 _ ·.uid pa 64 c) (entered_id _ _)).trans read), ← after, launchWith,
      found, good]

/-! ## Basting and the fault ring (R132, R133, R153) -/

theorem adv_frame (s : State) (k : Nat) (h : Hart) (n : Nat) :
    adv s k h n = { h with pc := h.pc + BitVec.ofNat 64 n, s := { h.s with instret := (retire s k h).s.instret } } := by
  rw [adv, retire_eq]

section
variable {s : State} {h : Hart} {d a : XR}

theorem exec_bst (r : Runs s h .bst) (checked : h.snap.isSome → regionChecked h = true) :
    exec .bst s = .next (setHart s s.cur (adv s s.cur
      { closeRegion h with snap := some ⟨h.x, h.m, h.stk, h.dep⟩, l := { h.l with bstpc := h.pc + 4 } } 4)) := by
  unfold exec
  refine (onHart_runs r _).trans (congrArg _ (if_neg ?_))
  rw [entered_of_not_closes rfl]
  cases open_ : h.snap.isSome <;> simp_all

theorem exec_bend (r : Runs s h .bend) (checked : h.snap.isSome → regionChecked h = true) :
    exec .bend s = .next (setHart s s.cur (adv s s.cur (if h.snap.isSome then closeRegion h else h) 4)) := by
  unfold exec
  refine (onHart_runs r _).trans (congrArg _ (if_neg ?_))
  rw [entered_of_not_closes rfl]
  cases open_ : h.snap.isSome <;> simp_all

theorem exec_frrd {kk : BitVec 2} (r : Runs s h (.frrd d a kk)) :
    exec (.frrd d a kk) s = .next (match ringNamed h (rx h a) with
      | none => trapAt s s.cur h 29 (rx h a)
      | some e => setHart s s.cur (adv s s.cur (wx h d (ringWord e kk.toNat)) 4)) := by
  unfold exec
  exact onHart_runs r _

theorem exec_frdrop (r : Runs s h (.frdrop a)) (supervisor : h.mode = .s) :
    exec (.frdrop a) s = .next (match ringNamed h (rx h a) with
      | none => trapAt s s.cur h 29 (rx h a)
      | some e => if e.st ≠ .held then trapAt s s.cur h 29 (rx h a)
          else dropEffect s s.cur (adv s s.cur (updEntry h e.seq fun e => { e with st := .done, await := false }) 4) e) := by
  unfold exec
  refine (onHart_runs r _).trans ?_
  rw [entered_of_not_closes rfl]
  exact congrArg Host.Outcome.next (if_neg (by simp [supervisor]))

theorem exec_frrep (r : Runs s h .frrep) (supervisor : h.mode = .s) :
    exec .frrep s = .next (setHart s s.cur (adv s s.cur (((ringOldest h).filter fun e => e.st == .held).foldl requeue h) 4)) := by
  change execFrrep s = _
  rw [execFrrep, onHart_runs r, entered_of_not_closes rfl, if_neg (by simp [supervisor])]

theorem ringNamed_of_entryAt {q : Word} {e : Entry} (small : q.toNat < 65536) (found : entryAt h q.toNat = some e) :
    ringNamed h q = some e := by rw [ringNamed, if_pos small, found]

theorem ringNamed_eq_none {q : Word} (bad : 65536 ≤ q.toNat ∨ entryAt h q.toNat = none) : ringNamed h q = none := by
  unfold ringNamed
  split
  · exact bad.resolve_left (by omega)
  · rfl

end

/-- Settles O27. -/
theorem bastingAndRingInstructionsComplete : Obligations.BastingAndRingInstructionsComplete := by
  intro s h d a kk e checked
  refine ⟨fun r => ⟨_, exec_bst r checked, ?_⟩, fun r => ⟨_, exec_bend r checked, ?_⟩,
    fun small found => ⟨completesX_of fun r => ?_, fun supervisor held r => ?_, fun supervisor held r => ?_⟩,
    fun bad => ⟨fun r => ?_, fun supervisor r => ?_⟩, fun supervisor r => exec_frrep r supervisor⟩
  · rw [adv_frame]
    exact ⟨rfl, rfl, rfl, rfl, rfl, rfl, rfl, rfl, rfl, rfl⟩
  · rw [adv_frame]
    split
    · exact ⟨rfl, rfl, rfl, rfl, rfl, rfl, rfl, rfl, rfl⟩
    · next shut => exact ⟨Option.not_isSome_iff_eq_none.mp shut, rfl, rfl, rfl, rfl, rfl, rfl, rfl, rfl⟩
  · rw [exec_frrd r, ringNamed_of_entryAt small found]
  · rw [exec_frdrop r supervisor, ringNamed_of_entryAt small found]
    exact congrArg _ (if_neg (by simp [held]))
  · rw [exec_frdrop r supervisor, ringNamed_of_entryAt small found]
    exact congrArg _ (if_pos held)
  · rw [exec_frrd r, ringNamed_eq_none bad]
  · rw [exec_frdrop r supervisor, ringNamed_eq_none bad]

end Sys2Proof.Machine
end

section
/-! Scalar memory accesses (O28 to O32). -/

namespace Sys2Proof.Machine

/-! ## Bytes as a register value (R4, R107) -/

theorem leNat_lt (bs : List Byte) : leNat bs < 2 ^ (8 * bs.length) := by
  induction bs with
  | nil => simp [leNat]
  | cons b bs ih =>
    rw [leNat, List.length_cons, Nat.mul_succ, Nat.pow_add]
    have := b.isLt
    omega

theorem length_rdBytes (m : Memory) (a n : Nat) : (rdBytes m a n).length = n := by
  induction n generalizing a with
  | zero => rfl
  | succ n ih => rw [rdBytes, List.length_cons, ih]

/-- The value of w bits read with a sign is that of the two's complement word. -/
theorem valOf_true_eq_toInt {w x : Nat} (small : x < 2 ^ w) : valOf true w x = (BitVec.ofNat w x).toInt := by
  have whole : x % 2 ^ w = x := Nat.mod_eq_of_lt small
  rw [BitVec.toInt_eq_msb_cond, BitVec.msb_eq_getLsbD_last, BitVec.getLsbD, BitVec.toNat_ofNat, whole, valOf, Bool.true_and]
  push_cast
  rfl

theorem extend_true {n : Nat} {bs : List Byte} (length : bs.length = n) :
    extend true bs = (BitVec.ofNat (8 * n) (leNat bs)).signExtend 64 := by
  subst length
  rw [extend, putDest.widen64, if_pos rfl, valOf_true_eq_toInt (leNat_lt bs), BitVec.signExtend]
  apply BitVec.eq_of_toNat_eq
  rw [BitVec.toNat_ofInt, BitVec.toNat_ofNat, Nat.mod_eq_of_lt (wrapTo_lt 64 _), wrapTo]
  norm_cast

theorem extend_false (bs : List Byte) : extend false bs = BitVec.ofNat 64 (leNat bs) := rfl

/-! ## Where an access goes (R107) -/

theorem cutPages_within {a : Word} {n : Nat} (within : a.toNat % 4096 + n ≤ 4096) : cutPages a n = [(a, n)] :=
  if_pos (by omega)

theorem placeParts_ok {s s1 : State} {k n : Nat} {h : Hart} {acc : Acc} {va : Word} {l : Loc}
    (placed : xlateHart s k h va acc = (.ok l, s1)) : placeParts s k h acc [(va, n)] = (.ok [(va, n, l)], s1) := by
  simp [placeParts, placed]

theorem placeParts_fault {s s1 : State} {k n c : Nat} {h : Hart} {acc : Acc} {va : Word}
    (faults : xlateHart s k h va acc = (.fault c, s1)) : placeParts s k h acc [(va, n)] = (.fault c va, s1) := by
  simp [placeParts, faults]

theorem inReach_own (s : State) (k : Nat) (h : Hart) : inReach s k h (coreOfSlot k) = true := by simp [inReach]

theorem inReach_other {s : State} {k : Nat} {h : Hart} {core : Nat} (other : core ≠ coreOfSlot k) :
    inReach s k h core = inTenant s h.id.tenant core := by simp [inReach, other]

theorem viaMessage_other {s : State} {core w asid own : Nat} (other : core ≠ own) : viaMessage s core w asid own = true := by
  simp [viaMessage, other]

theorem viaMessage_own_open {s : State} {core w asid : Nat} (opened : winState s core w asid = .open_) :
    viaMessage s core w asid core = false := by simp [viaMessage, opened]

/-- A read of an open window of the hart's own core is made at once. -/
theorem gather_ownWindow {s : State} {k : Nat} {h : Hart} {va : Word} {n w off : Nat}
    (fin : State → List Byte → State) (fresh : h.parts = []) (opened : winState s (coreOfSlot k) w h.id.asid = .open_) :
    gather s k h [(va, n, .win (coreOfSlot k) w off)] fin =
      fin (updHart s k fun x => { sawEarly x [] with parts := [] }) (readWin s (coreOfSlot k) w off n) := by
  simp [gather, unasked, isFar, blockedOf, readLocs, readLoc, fresh, opened, viaMessage_own_open opened]

/-! ## Scalar loads (R45, R107) -/

/-- What a scalar load of one part does at the place that its translation names. -/
def scalarLoadAt (s : State) (k : Nat) (h : Hart) (rd rs : XR) (a : Word) (n : Nat) (sx : Bool) (l : Loc) : State :=
  match l with
  | .hbm pa c => loadHbm s k h rd rs a n sx pa c
  | l => if ioWaits s h [(a, n, l)] then s else loadOne s k h rd a n sx l

/-- A load that takes its bytes at once. -/
def loaded (s : State) (k : Nat) (rd : XR) (sx : Bool) (ids : List Nat) (bs : List Byte) : State :=
  let u := updHart s k fun x => { sawEarly x ids with parts := [] }
  updHart u k fun x => adv u k (wx x rd (extend sx bs)) 4

section
variable {s s1 : State} {h : Hart} {kd : LoadKind} {rd rs1 : XR} {imm : BitVec 12} {a : Word} {n : Nat} {sx : Bool}

theorem exec_scalarLoad (r : Runs s h (.scalarLoad kd rd rs1 imm)) (addr : a = rx h rs1 + imm.signExtend 64)
    (size : loadSize kd = (n, sx)) (idle : writerPending h = false) (free : laneReads h a n = false) {l : Loc}
    (within : a.toNat % 4096 + n ≤ 4096) (placed : xlateHart s s.cur h a .load = (.ok l, s1)) :
    exec (.scalarLoad kd rd rs1 imm) s = .next (scalarLoadAt s1 s.cur h rd rs1 a n sx l) := by
  subst addr
  change execScalarLoad kd rd rs1 imm s = _
  simp only [execScalarLoad]
  rw [onHart_runs r, entered_of_not_closes rfl]
  simp only [sext12, size, idle, free, cutPages_within within, placeParts_ok placed]
  cases l <;> rfl

theorem exec_scalarLoad_fault (r : Runs s h (.scalarLoad kd rd rs1 imm)) (addr : a = rx h rs1 + imm.signExtend 64)
    (size : loadSize kd = (n, sx)) (idle : writerPending h = false) (free : laneReads h a n = false) {c : Nat}
    (within : a.toNat % 4096 + n ≤ 4096) (faults : xlateHart s s.cur h a .load = (.fault c, s1)) :
    exec (.scalarLoad kd rd rs1 imm) s = .next (trapAt s1 s.cur h (causeOf .load c) a) := by
  subst addr
  change execScalarLoad kd rd rs1 imm s = _
  simp only [execScalarLoad]
  rw [onHart_runs r, entered_of_not_closes rfl]
  simp only [sext12, size, idle, free, cutPages_within within, placeParts_fault faults]
  rfl

end

section
variable {s : State} {k : Nat} {h : Hart} {rd rs : XR} {a : Word} {n : Nat} {sx : Bool}

theorem scalarLoadAt_hbm {pa : Nat} {c : Bool} {bs : List Byte} {ids : List Nat} {t : State} (now : aheadFor h rs a pa n = none)
    (fresh : h.parts = [])
    (read : readHbm (setHart s k { h with ahead := aheadAfter h rd pa n }) (dieOfSlot k) h.id.uid pa n c = some (bs, ids, t)) :
    scalarLoadAt s k h rd rs a n sx (.hbm pa c) = loaded (if c then noteDcache t (coreOfSlot k) (linesOf pa n) else t) k rd sx ids bs := by
  simp only [scalarLoadAt, loadHbm, now, loadOne]
  exact gather_hbm (h := { h with ahead := aheadAfter h rd pa n }) _ fresh read

theorem scalarLoadAt_hbm_ahead {pa : Nat} {c : Bool} {z : Ahead} (ahead : aheadFor h rs a pa n = some z) :
    scalarLoadAt s k h rd rs a n sx (.hbm pa c) =
      setHart s k (adv s k (wx (sawEarly { h with ahead := aheadAfter h rd pa n } z.ids) rd (extend sx z.bytes)) 4) := by
  simp only [scalarLoadAt, loadHbm, ahead]

theorem ioWaits_win (core w off : Nat) : ioWaits s h [(a, n, .win core w off)] = false := by simp [ioWaits]

theorem scalarLoadAt_win (core w off : Nat) : scalarLoadAt s k h rd rs a n sx (.win core w off) = loadOne s k h rd a n sx (.win core w off) :=
  by simp [scalarLoadAt, ioWaits_win]

theorem scalarLoadAt_ownWindow {w off : Nat} (fresh : h.parts = []) (opened : winState s (coreOfSlot k) w h.id.asid = .open_) :
    scalarLoadAt s k h rd rs a n sx (.win (coreOfSlot k) w off) = loaded s k rd sx [] (readWin s (coreOfSlot k) w off n) := by
  rw [scalarLoadAt_win]
  simp only [loadOne, inReach_own, viaMessage_own_open opened, Bool.not_true, Bool.false_eq_true, if_false]
  exact gather_ownWindow _ fresh opened

theorem scalarLoadAt_otherWindow {core w off : Nat} (other : core ≠ coreOfSlot k) :
    scalarLoadAt s k h rd rs a n sx (.win core w off) =
      if inTenant s h.id.tenant core then awaitWin s k h a core w off n .load sx rd.toNat else trapAt s k h 5 a := by
  rw [scalarLoadAt_win]
  simp only [loadOne, inReach_other other, viaMessage_other other]
  cases inTenant s h.id.tenant core <;> rfl

theorem scalarLoadAt_host {port asid addr : Nat} (calm : ioWaits s h [(a, n, .host port asid addr)] = false) (opened : hostOpen s port = true) :
    scalarLoadAt s k h rd rs a n sx (.host port asid addr) =
      goPending (hostSend { s with nextUid := s.nextUid + 1 } port asid h.id.uid addr n none sx (.xreg h.id.uid s.nextUid))
        k h 4 rd s.nextUid a none :=
  (if_neg (by simp [calm])).trans (if_neg (by simp [opened]))

theorem scalarLoadAt_mmio {pa v : Nat} {t : State} (calm : ioWaits s h [(a, n, .mmio pa)] = false) (free : paFree s pa 0 = true)
    (read : mmioLoad s pa n = some (v, t)) :
    scalarLoadAt s k h rd rs a n sx (.mmio pa) =
      goPending (pushReply { t with nextUid := t.nextUid + 1 } h.id.uid t.nextUid (extend sx (leBytes n v))) k h 4 rd t.nextUid a none := by
  refine (if_neg (by simp [calm])).trans ((if_neg (by simp [free])).trans ?_)
  rw [read]
  rfl

end

theorem aheadFor_length {h : Hart} {rs : XR} {va : Word} {pa n : Nat} {z : Ahead} (found : aheadFor h rs va pa n = some z) :
    z.bytes.length = n := by
  have holds := List.find?_some found
  simp only [Bool.and_eq_true, beq_iff_eq] at holds
  exact holds.2

/-- Settles O28. That a load from the window of a core outside the tenant traps with cause 5 is the model's reading of R261 (log 108). -/
theorem scalarLoadsComplete : Obligations.ScalarLoadsComplete := by
  intro s s1 h kd rd rs1 imm k a n sg i value done r idle free within fresh
  have size : loadSize kd = (n, sg) := by cases kd <;> rfl
  have widened : ∀ bs : List Byte, bs.length = n → extend sg bs = value bs := fun bs length => by
    cases kd
    · exact extend_true (n := 1) length
    · exact extend_true (n := 2) length
    · exact extend_true (n := 4) length
    all_goals exact extend_false bs
  clear_value n sg value
  have runs {l : Loc} := exec_scalarLoad (s1 := s1) (l := l) r rfl size idle free within
  have complete {t : State} {ids : List Nat} {bs : List Byte} (length : bs.length = n) : loaded t k rd sg ids bs = done t ids bs := by
    rw [loaded, widened bs length]
  refine ⟨fun pa c placed => ⟨fun bs ids s2 now read length => ?_, fun z ahead => ?_⟩, fun w off placed opened => ?_,
    fun port asid addr placed calm opened => (runs placed).trans (congrArg _ (scalarLoadAt_host calm opened)),
    fun pa v s2 placed calm freed read => (runs placed).trans (congrArg _ (scalarLoadAt_mmio calm freed read)),
    fun core w off other placed => (runs placed).trans (congrArg _ (scalarLoadAt_otherWindow other)),
    fun c faults => exec_scalarLoad_fault r rfl size idle free within faults⟩
  · exact (runs placed).trans (congrArg _ ((scalarLoadAt_hbm now fresh read).trans (complete length)))
  · rw [← widened _ (aheadFor_length ahead)]
    exact (runs placed).trans (congrArg _ (scalarLoadAt_hbm_ahead ahead))
  · exact (runs placed).trans (congrArg _ ((scalarLoadAt_ownWindow fresh opened).trans (complete (length_rdBytes _ _ _))))

/-! ## Scalar stores (R107, R110, R151) -/

theorem ground_trapAt (s : State) (k : Nat) (h : Hart) (cause : Nat) (tval : Word) : ground (trapAt s k h cause tval) = ground s := by
  obtain ⟨g, m, e⟩ := takeTrap_eq s k h cause false tval h.pc
  rw [trapAt, e]
  show ground (loseResv s h) = ground s
  exact ground_eq_iff.mpr ⟨loseResv_hbm s h, loseResv_host s h, by rw [loseResv_eq], by rw [loseResv_eq], by rw [loseResv_eq]⟩

theorem ground_accTrap (s : State) (k : Nat) (h : Hart) (cause : Nat) (va : Word) (code : Nat) :
    ground (accTrap s k h cause va code) = ground s := ground_trapAt _ _ _ _ _

theorem ground_noteDcache (s : State) (core : Nat) (lines : List Nat) : ground (noteDcache s core lines) = ground s := rfl

theorem ground_sendWin (s : State) (h : Hart) (va : Word) (mode : Mode) (core win off size : Nat) (op : WinOp) (data : List Byte)
    (sx : Bool) (r : ReplyTo) : ground (sendWin s h va mode core win off size op data sx r) = ground s := rfl

theorem ground_pushStore (s : State) (k : Nat) (h : Hart) (pa : Nat) (c : Bool) (bs : List Byte) :
    ground (pushStore s k h pa c bs) = ground s := by
  unfold pushStore pushStoreAs
  generalize splitLines pa bs = parts
  induction parts generalizing s with
  | nil => rfl
  | cons p parts ih => exact (ih _).trans rfl

/-- A store of one part goes by its check alone. -/
theorem storeParts_one (s : State) (k : Nat) (h : Hart) (va : Word) (l : Loc) {n : Nat} {bs : List Byte} (length : bs.length = n) :
    storeParts s k h [(va, n, l)] bs = match checkStore s k h l with
      | .bad code => accTrap s k h 7 va code
      | .wait => s
      | .go => updHart (storePart s k h va l bs) k fun x => adv (storePart s k h va l bs) k x 4 := by
  subst length
  cases check : checkStore s k h l <;> simp [storeParts, partBytes, check]

/-- A part of HBM leaves every byte: its home writes it later. -/
theorem ground_storePart_hbm (s : State) (k : Nat) (h : Hart) (va : Word) (pa : Nat) (c : Bool) (bs : List Byte) :
    ground (storePart s k h va (.hbm pa c) bs) = ground s := by
  refine (ground_pushStore _ _ _ _ _ _).trans ?_
  split <;> rfl

/-- A part of a window is written there, or nothing is. -/
theorem ground_storePart_win (s : State) (k : Nat) (h : Hart) (va : Word) (core w off : Nat) (bs : List Byte) :
    ground (storePart s k h va (.win core w off) bs) = ground s ∨
      ground (storePart s k h va (.win core w off) bs) = ground { s with tstore := wrBytes s.tstore (winKey core w off) bs } := by
  simp only [storePart]
  split
  · exact .inl rfl
  · split
    · exact .inr (ground_writeWin _ _ _ _ _ _)
    · exact .inl rfl

/-- A store of one part, whatever its check says. -/
theorem ground_storeParts_one (s : State) (k : Nat) (h : Hart) (va : Word) (l : Loc) {n : Nat} {bs : List Byte} (length : bs.length = n) :
    ground (storeParts s k h [(va, n, l)] bs) = ground s ∨ ground (storeParts s k h [(va, n, l)] bs) = ground (storePart s k h va l bs) := by
  rw [storeParts_one s k h va l length]
  split
  · exact .inl (ground_accTrap _ _ _ _ _ _)
  · exact .inl rfl
  · exact .inr rfl

section
variable {s s1 : State} {h0 : Hart} {kd : StoreKind} {rs1 rs2 : XR} {imm : BitVec 12}

/-- What a scalar store of one part does at the place that its translation names. -/
def scalarStoreAt (s : State) (k : Nat) (h : Hart) (a : Word) (n v : Nat) (l : Loc) : State :=
  match l with
  | .mmio pa => storeMmio s k h a pa n (leNat (leBytes n v))
  | l => storeParts s k h [(a, n, l)] (leBytes n v)

theorem exec_scalarStore {h : Hart} (r : Runs s h0 (.scalarStore kd rs1 rs2 imm)) (entry : h = entered h0 (.scalarStore kd rs1 rs2 imm))
    {a : Word} (addr : a = rx h rs1 + imm.signExtend 64) (idle : memPending h = false)
    {n : Nat} (size : n = storeSize kd) (within : a.toNat % 4096 + n ≤ 4096) {l : Loc}
    (placed : xlateHart (setHart s s.cur h) s.cur h a .store = (.ok l, s1)) :
    exec (.scalarStore kd rs1 rs2 imm) s = .next (scalarStoreAt s1 s.cur h a n (rx h rs2).toNat l) := by
  subst addr entry size
  change execScalarStore kd rs1 rs2 imm s = _
  simp only [execScalarStore]
  rw [onHart_runs r]
  simp only [sext12, idle, cutPages_within within, placeParts_ok placed]
  cases l <;> rfl

theorem exec_scalarStore_fault {h : Hart} (r : Runs s h0 (.scalarStore kd rs1 rs2 imm))
    (entry : h = entered h0 (.scalarStore kd rs1 rs2 imm)) {a : Word} (addr : a = rx h rs1 + imm.signExtend 64)
    (idle : memPending h = false) (within : a.toNat % 4096 + storeSize kd ≤ 4096) {c : Nat}
    (faults : xlateHart (setHart s s.cur h) s.cur h a .store = (.fault c, s1)) :
    exec (.scalarStore kd rs1 rs2 imm) s = .next (trapAt s1 s.cur h (causeOf .store c) a) := by
  subst addr entry
  change execScalarStore kd rs1 rs2 imm s = _
  simp only [execScalarStore]
  rw [onHart_runs r]
  simp only [sext12, idle, cutPages_within within, placeParts_fault faults]
  rfl

end

section
variable {s : State} {k : Nat} {h : Hart} {a : Word} {n v : Nat}

/-- The hart goes on after the store. -/
def storedOn (t : State) (k : Nat) : State := updHart t k fun x => adv t k x 4

/-- A store of one part whose check lets it go is performed as its place has it. -/
theorem scalarStoreAt_go {l : Loc} (memory : ∀ pa, l ≠ .mmio pa) (go : checkStore s k h l = .go) :
    scalarStoreAt s k h a n v l = storedOn (storePart s k h a l (leBytes n v)) k := by
  have one : scalarStoreAt s k h a n v l = storeParts s k h [(a, n, l)] (leBytes n v) := by
    cases l with
    | mmio pa => exact absurd rfl (memory pa)
    | _ => rfl
  rw [one, storeParts_one s k h a l (length_leBytes n v), go]
  rfl

theorem checkStore_hbm {pa : Nat} {c : Bool} (here : movedOut s h.id.uid = false) : checkStore s k h (.hbm pa c) = .go :=
  if_neg (by simp [here])

theorem checkStore_win {core w off : Nat} (reach : inReach s k h core = true) (leaves : mayLeave s h (.win core w off) = true) :
    checkStore s k h (.win core w off) = .go := by
  simp [checkStore, reach, leaves]

theorem checkStore_win_outside {core w off : Nat} (outside : inReach s k h core = false) : checkStore s k h (.win core w off) = .bad 0 := by
  simp [checkStore, outside]

theorem checkStore_host {port asid addr : Nat} (opened : hostOpen s port = true) (leaves : mayLeave s h (.host port asid addr) = true) :
    checkStore s k h (.host port asid addr) = .go := by
  simp [checkStore, opened, leaves]

theorem storePart_ownWindow_open {w off : Nat} (bs : List Byte) (opened : winState s (coreOfSlot k) w h.id.asid = .open_) :
    storePart s k h a (.win (coreOfSlot k) w off) bs = writeWin s (coreOfSlot k) w off h.id.uid bs := by
  simp [storePart, viaMessage_own_open opened, opened]

theorem storePart_ownWindow_closed {w off : Nat} (bs : List Byte) (shut : winState s (coreOfSlot k) w h.id.asid = .closed) :
    storePart s k h a (.win (coreOfSlot k) w off) bs = updHart s k fun x => countDrop x 1 := by
  simp [storePart, viaMessage, shut]

theorem storePart_otherWindow {core w off : Nat} (bs : List Byte) (other : core ≠ coreOfSlot k) :
    storePart s k h a (.win core w off) bs = sendWin s h a (dataMode h) core w off bs.length .store bs false .none := by
  simp [storePart, viaMessage_other other]

end

/-- Settles O29. That a store to the window of a core outside the tenant traps with cause 7 is the model's reading of R261 (log 108). -/
theorem scalarStoresCompleteAndWriteTheirBytes : Obligations.ScalarStoresCompleteAndWriteTheirBytes := by
  constructor
  · intro s s1 h0 kd rs1 rs2 imm k i h a n bs on place r idle within
    have size : n = storeSize kd := by cases kd <;> rfl
    have length : bs.length = n := length_leBytes _ _
    have runs {l : Loc} := exec_scalarStore (s1 := s1) (l := l) r rfl rfl idle size within
    have goes {l : Loc} (placed : place l) (memory : ∀ pa, l ≠ .mmio pa) (go : checkStore s1 k h l = .go) :
        exec i s = .next (on (storePart s1 k h a l bs)) := (runs placed).trans (congrArg _ (scalarStoreAt_go memory go))
    refine ⟨fun pa c placed here => ?_, fun w off placed leaves => ⟨fun opened => ?_, fun shut => ?_⟩,
      fun core w off other placed inside leaves => ?_, fun core w off other placed outside => ?_,
      fun port asid addr placed opened leaves => goes placed (fun _ => nofun) (checkStore_host opened leaves),
      fun c faults => exec_scalarStore_fault r rfl rfl idle (size ▸ within) faults⟩
    · rw [← length]
      exact goes placed (fun _ => nofun) (checkStore_hbm here)
    · rw [← storePart_ownWindow_open bs opened]
      exact goes placed (fun _ => nofun) (checkStore_win (inReach_own _ _ _) leaves)
    · rw [← storePart_ownWindow_closed bs shut]
      exact goes placed (fun _ => nofun) (checkStore_win (inReach_own _ _ _) leaves)
    · rw [← length, ← storePart_otherWindow bs other]
      exact goes placed (fun _ => nofun) (checkStore_win ((inReach_other other).trans inside) leaves)
    · refine (runs placed).trans (congrArg _ ((storeParts_one s1 k h a _ length).trans ?_))
      rw [checkStore_win_outside ((inReach_other other).trans outside)]
      rfl
  · intro s s1 t h0 kd rs1 rs2 imm k i h a n place r idle within done
    have length : (leBytes n (rx h rs2).toNat).length = n := length_leBytes _ _
    have runs {l : Loc} (placed : place l) : scalarStoreAt s1 k h a n (rx h rs2).toNat l = t :=
      Host.Outcome.next.inj ((exec_scalarStore r rfl rfl idle rfl within placed).symm.trans done)
    have leaves {l : Loc} (placed : place l) (parts : scalarStoreAt s1 k h a n (rx h rs2).toNat l =
          storeParts s1 k h [(a, n, l)] (leBytes n (rx h rs2).toNat)) :
        ground t = ground s1 ∨ ground t = ground (storePart s1 k h a l (leBytes n (rx h rs2).toNat)) := by
      rw [← runs placed, parts]
      exact ground_storeParts_one s1 k h a l length
    refine ⟨fun pa c placed => ?_, fun w off placed => ?_, fun port asid addr placed => ?_⟩
    · obtain e | e := leaves placed rfl
      · exact sameBytes_of_ground e
      · exact sameBytes_of_ground (e.trans (ground_storePart_hbm _ _ _ _ _ _ _))
    · have written : ground t = ground s1 ∨
          ground t = ground { s1 with tstore := wrBytes s1.tstore (winKey (coreOfSlot k) w off) (leBytes n (rx h rs2).toNat) } :=
        (leaves placed rfl).elim .inl fun e => (ground_storePart_win _ _ _ _ _ _ _ _).imp e.trans e.trans
      obtain e | e := written
      · obtain ⟨hbm, host, tstore, tiles, -⟩ := ground_eq_iff.mp e
        exact ⟨fun b _ => by rw [tstore], hbm, host, tiles⟩
      · obtain ⟨hbm, host, tstore, tiles, -⟩ := ground_eq_iff.mp e
        refine ⟨fun b out => ?_, hbm, host, tiles⟩
        rw [tstore]
        exact rd8_wrBytes_other _ _ (by rw [length]; exact out)
    · obtain e | e := leaves placed rfl
      · obtain ⟨hbm, host, tstore, tiles, -⟩ := ground_eq_iff.mp e
        exact ⟨fun b _ => by rw [host], hbm, tstore, tiles⟩
      · simp only [ground, Prod.mk.injEq] at e
        obtain ⟨hbm, host, tstore, tiles, -⟩ := e
        refine ⟨fun b out => ?_, hbm, tstore, tiles⟩
        rw [host]
        exact rd8_wrBytes_other _ _ (by rw [length]; exact out)

/-! ## Tensor maps (R131, R211) -/

section
variable {s s1 : State} {h : Hart} {d : XR} {a : MR} {b : XR}

/-- The coordinates of a word lie within a tensor map of this rank: below the size in each of its dimensions, 0 beyond. -/
def coordsWithin (t : TMap) (x : Word) : Prop := ∀ i, i < 4 → if i < tmRank t then coordOf x i < tmSize t i else coordOf x i = 0

theorem coordOf_lt (x : Word) {i : Nat} (small : i < 4) : coordOf x i = x.toNat / 2 ^ (16 * i) % 2 ^ 16 := by
  rw [coordOf, if_pos small, bitsOf, Nat.shiftRight_eq_div_pow]

/-- What `tmaddr` finds wrong. -/
def coordsBad (t : TMap) (x : Word) : Bool :=
  !tmValid t || (List.range (min (tmRank t) 4)).any (fun i => coordOf x i ≥ tmSize t i) ||
    (List.range 4).any (fun i => i ≥ tmRank t && coordOf x i != 0)

theorem coordsBad_iff {t : TMap} {x : Word} : coordsBad t x = true ↔ tmValid t = false ∨ ¬ coordsWithin t x := by
  have outside : ¬ coordsWithin t x ↔
      (∃ i, i < min (tmRank t) 4 ∧ tmSize t i ≤ coordOf x i) ∨ ∃ i, i < 4 ∧ tmRank t ≤ i ∧ coordOf x i ≠ 0 := by
    simp only [coordsWithin, not_forall]
    constructor
    · rintro ⟨i, small, bad⟩
      split at bad
      · next within => exact .inl ⟨i, lt_min within small, not_lt.mp bad⟩
      · next beyond => exact .inr ⟨i, small, not_lt.mp beyond, bad⟩
    · rintro (⟨i, within, bad⟩ | ⟨i, small, beyond, bad⟩)
      · exact ⟨i, (lt_min_iff.mp within).2, by rw [if_pos (lt_min_iff.mp within).1]; exact not_lt.mpr bad⟩
      · exact ⟨i, small, by rw [if_neg (not_lt.mpr beyond)]; exact bad⟩
  simp only [coordsBad, Bool.or_eq_true, Bool.not_eq_true', List.any_eq_true, List.mem_range, decide_eq_true_eq, Bool.and_eq_true, bne_iff_ne,
    outside, or_assoc, ge_iff_le]

/-- A sum over the first r of four dimensions, written out. -/
theorem foldl_range_min_four (f : Nat → Nat) (r : Nat) : (List.range (min r 4)).foldl (fun z i => z + f i) 0 =
    (if 0 < r then f 0 else 0) + (if 1 < r then f 1 else 0) + (if 2 < r then f 2 else 0) + (if 3 < r then f 3 else 0) := by
  match r with
  | 0 | 1 | 2 | 3 => simp [List.range_succ]
  | r + 4 => simp [List.range_succ]

theorem exec_tmaddr (r : Runs s h (.tmaddr d a b)) :
    exec (.tmaddr d a b) s = .next (if coordsBad (rtm h a) (rx h b) then trapAt s s.cur h 30 (rx h b) else
      setHart s s.cur (adv s s.cur (wx h d (BitVec.ofNat 64 (tmBase (rtm h a) +
        (List.range (min (tmRank (rtm h a)) 4)).foldl (fun z i => z + coordOf (rx h b) i * tmStride (rtm h a) i) 0))) 4)) := by
  unfold exec
  exact onHart_runs r _

end

section
variable {s s1 : State} {h : Hart} {d : MR} {a : XR} {imm : BitVec 12} {va : Word}

theorem exec_tmld_misaligned (r : Runs s h (.tmld d a imm)) (misaligned : (rx h a + imm.signExtend 64).toNat % 128 ≠ 0) :
    exec (.tmld d a imm) s = .next (trapAt s s.cur h 4 (rx h a + imm.signExtend 64)) := by
  unfold exec
  exact (onHart_runs r _).trans (congrArg _ (if_pos misaligned))

theorem exec_tmst_misaligned (r : Runs s h (.tmst d a imm)) (misaligned : (rx h a + imm.signExtend 64).toNat % 128 ≠ 0) :
    exec (.tmst d a imm) s = .next (trapAt s s.cur (entered h (.tmst d a imm)) 6 (rx h a + imm.signExtend 64)) := by
  rw [← rx_entered h (.tmst d a imm)] at misaligned ⊢
  unfold exec
  exact (onHart_runs r _).trans (congrArg _ (if_pos misaligned))

theorem exec_tmld_hbm (r : Runs s h (.tmld d a imm)) (addr : va = rx h a + imm.signExtend 64) (aligned : va.toNat % 128 = 0)
    (idle : writerPending h = false) (free : laneReads h va 128 = false) (unlocked : tmLocked h d = false) {pa : Nat} {c : Bool}
    (placed : xlateHart s s.cur h va .load = (.ok (.hbm pa c), s1)) :
    exec (.tmld d a imm) s = .next (gather s1 s.cur h [(va, 128, .hbm pa c)] fun t bs =>
      updHart t s.cur fun x => adv t s.cur (wtm x d (BitVec.ofNat 1024 (leNat bs))) 4) := by
  subst addr
  change execTmld d a imm s = _
  simp only [execTmld]
  rw [onHart_runs r, entered_of_not_closes rfl]
  simp only [sext12, aligned, idle, free, unlocked, placed]
  rfl

theorem exec_tmst {g : Hart} (r : Runs s h (.tmst d a imm)) (entry : g = entered h (.tmst d a imm))
    (addr : va = rx h a + imm.signExtend 64) (aligned : va.toNat % 128 = 0) (idle : memPending g = false) {l : Loc}
    (placed : xlateHart (setHart s s.cur g) s.cur g va .store = (.ok l, s1)) :
    exec (.tmst d a imm) s = .next (storeParts s1 s.cur g [(va, 128, l)] (leBytes 128 (rtm g d).toNat)) := by
  subst addr entry
  change execTmst d a imm s = _
  simp only [execTmst]
  rw [onHart_runs r]
  simp only [sext12, rx_entered, aligned, idle, placed]
  rfl

end

theorem rtm_entered (h : Hart) (i : Instr) (d : MR) : rtm (entered h i) d = rtm h d := by unfold entered; split <;> rfl

/-- Settles O30. -/
theorem tensorMapInstructionsComplete : Obligations.TensorMapInstructionsComplete := by
  constructor
  · intro s h d a b t c inside term
    have coord : ∀ i, i < 4 → coordOf (rx h b) i = c i := fun i small => coordOf_lt _ small
    have within : coordsWithin t (rx h b) ↔ inside := by
      refine forall_congr' fun i => imp_congr_right fun small => ?_
      rw [coord i small]
    refine ⟨fun valid fits => completesX_of fun r => ?_, fun bad r => ?_⟩
    · have good : coordsBad (rtm h a) (rx h b) = false := by
        rw [Bool.eq_false_iff, Ne, coordsBad_iff, not_or, not_not]
        exact ⟨by simp [t, valid], within.mpr fits⟩
      rw [exec_tmaddr r, foldl_range_min_four]
      refine congrArg _ ((if_neg (by simp [good])).trans ?_)
      simp only [coord 0 (by omega), coord 1 (by omega), coord 2 (by omega), coord 3 (by omega)]
      rfl
    · rw [exec_tmaddr r]
      exact congrArg _ (if_pos (coordsBad_iff.mpr (bad.imp_right (mt within.mp))))
  · intro s s1 h0 d a imm k va ld st h
    refine ⟨fun aligned r idle free unlocked fresh pa c bs ids s2 placed read => ?_, fun aligned r idle pa c placed here => ?_,
      fun misaligned => ⟨fun r => exec_tmld_misaligned r misaligned, fun r => exec_tmst_misaligned r misaligned⟩⟩
    · exact (exec_tmld_hbm r rfl aligned idle free unlocked placed).trans (congrArg _ (gather_hbm _ fresh read))
    · refine (exec_tmst r rfl rfl aligned idle placed).trans (congrArg _ ?_)
      rw [storeParts_one _ _ _ _ _ (length_leBytes _ _), checkStore_hbm here, rtm_entered]
      simp only [storePart, length_leBytes]
      rfl

/-! ## LR and SC (R107, R297) -/

theorem releaseIf_id (s : State) (h : Hart) (rl : Bool) (sc : Scope) : (releaseIf s h rl sc).id = h.id := by
  unfold releaseIf releaseDeps
  split
  · split <;> rfl
  · rfl

section
variable {s s1 : State} {h g : Hart} {dbl aq rl : Bool} {rd rs1 rs2 : XR} {va : Word} {n : Nat}

theorem exec_lr_hbm (r : Runs s h (.lr dbl aq rl rd rs1)) (size : n = if dbl then 8 else 4) (aligned : (rx h rs1).toNat % n = 0)
    (idle : writerPending h = false) (free : laneReads h (rx h rs1) n = false) (ordered : orderedAt s h aq rl .device = true)
    {pa : Nat} {c : Bool} {bs : List Byte} {t : State} (placed : xlateHart s s.cur h (rx h rs1) .load = (.ok (.hbm pa c), s1))
    (own : ((ownStores s1 h.id.uid).any fun r => lineOf r.pa == lineOf pa) = false) (read : readHome s1 pa n = some (bs, t)) :
    let u := reserve (updHart t s.cur fun x => releaseIf t x rl .device) h.id.uid (lineOf pa) (.home (homeOf pa))
    exec (.lr dbl aq rl rd rs1) s =
      .next (acqIf (updHart u s.cur fun x => adv u s.cur (wx x rd (extend (!dbl) bs)) 4) s.cur (acqOf aq .device)) := by
  subst size
  change execLr dbl aq rl rd rs1 s = _
  simp only [execLr]
  rw [onHart_runs r, entered_of_not_closes rfl]
  simp only [aligned, idle, free, ordered, placed, own, read]
  rfl

/-- Whether SC's store succeeds: the window is open and the hart's reservation stands (R297). -/
def scHeld (s : State) (h : Hart) (core w off : Nat) : Bool :=
  winState s core w h.id.asid == .open_ &&
    (tgetD s.mem.resvStore core []).any fun r => r.uid == h.id.uid && r.line == winLine core w off

/-- What SC does at the place that its translation names. -/
theorem exec_sc_ownWindow {h0 : Hart} (r : Runs s h0 (.sc dbl aq rl rd rs1 rs2)) (entry : h = entered h0 (.sc dbl aq rl rd rs1 rs2))
    (released : g = releaseIf s h rl .device) (size : n = if dbl then 8 else 4) (aligned : (rx h0 rs1).toNat % n = 0)
    (idle : memPending h = false) (ordered : orderedAt s h aq rl .device = true) {w off : Nat}
    (placed : xlateHart (setHart s s.cur g) s.cur g (rx h0 rs1) .store = (.ok (.win (coreOfSlot s.cur) w off), s1))
    (leaves : mayLeave s1 g (.win (coreOfSlot s.cur) w off) = true) :
    let held := scHeld s1 g (coreOfSlot s.cur) w off
    let freed := updHart (delResv s1 g.id.uid) s.cur fun x => { x with resv := none }
    let u := if held then writeWin freed (coreOfSlot s.cur) w off g.id.uid (leBytes n (rx h0 rs2).toNat) else freed
    exec (.sc dbl aq rl rd rs1 rs2) s =
      .next (acqIf (updHart u s.cur fun x => adv u s.cur (wx x rd (if held then 0 else 1)) 4) s.cur (acqOf aq .device)) := by
  subst entry released size
  change execSc dbl aq rl rd rs1 rs2 s = _
  simp only [execSc]
  rw [onHart_runs r]
  simp only [rx_entered, aligned, idle, ordered, placed, leaves, inReach_own, scHeld]
  simp

theorem exec_sc_hbm {h0 : Hart} (r : Runs s h0 (.sc dbl aq rl rd rs1 rs2)) (entry : h = entered h0 (.sc dbl aq rl rd rs1 rs2))
    (released : g = releaseIf s h rl .device) (size : n = if dbl then 8 else 4) (aligned : (rx h0 rs1).toNat % n = 0)
    (idle : memPending h = false) (ordered : orderedAt s h aq rl .device = true) {pa : Nat} {c : Bool}
    (placed : xlateHart (setHart s s.cur g) s.cur g (rx h0 rs1) .store = (.ok (.hbm pa c), s1)) :
    exec (.sc dbl aq rl rd rs1 rs2) s = .next (askAtomic s1 s.cur g 4 rd (rx h0 rs1) (acqOf aq .device) fun s' r =>
      let (id, s') := freshUid s'
      pushReq s' { id := id, die := dieOfSlot s.cur, core := coreOfSlot s.cur, uid := g.id.uid, asid := g.id.asid, pa := pa, kind := .sc,
                   data := leBytes n (rx h0 rs2).toNat, reply := r, sx := false, deps := g.deps }) := by
  subst entry released size
  change execSc dbl aq rl rd rs1 rs2 s = _
  simp only [execSc]
  rw [onHart_runs r]
  simp only [rx_entered, aligned, idle, ordered, placed]
  rfl

end

/-- Settles O31. -/
theorem loadReservedAndStoreConditionalComplete : Obligations.LoadReservedAndStoreConditionalComplete := by
  intro s s1 h0 dbl aq rl rd rs1 rs2 k n va lr sc h g acq aligned
  exact ⟨fun pa c bs s2 r idle free ordered placed own read => exec_lr_hbm r rfl aligned idle free ordered placed own read,
    fun r idle ordered => ⟨fun w off placed leaves => exec_sc_ownWindow r rfl rfl rfl aligned idle ordered placed leaves,
      fun pa c placed => exec_sc_hbm r rfl rfl rfl aligned idle ordered placed⟩⟩

/-! ## Atomics (R172, R293 to R297) -/

section
variable {s s1 : State} {k : Nat} {h g : Hart} {x : Atom}

theorem scalarAtomic_misaligned (misaligned : x.va.toNat % x.bytes ≠ 0) : scalarAtomic s k h x = trapAt s k h 6 x.va := if_pos misaligned

theorem scalarAtomic_hbm (released : g = releaseIf s h x.rl x.sc) (aligned : x.va.toNat % x.bytes = 0) (idle : memPending h = false)
    (ordered : orderedAt s h x.aq x.rl x.sc = true) {pa : Nat} {c : Bool}
    (placed : xlateHart (setHart s k g) k g x.va .amo = (.ok (.hbm pa c), s1)) :
    scalarAtomic s k h x = goPending (pushAtomic { s1 with nextUid := s1.nextUid + 1 } k g pa
      (hbmAtomicKind c x.sc x.op x.bytes x.signed x.val x.cmp) x.sx (.xreg g.id.uid s1.nextUid)) k g x.len x.dest s1.nextUid x.va
      (acqOf x.aq x.sc) := by
  subst released
  simp only [scalarAtomic, aligned, idle, ordered, placed]
  rfl

/-- A write to a window changes no machine CSR, so that an instruction retires after it as before. -/
theorem mcsrOf_writeWin (s : State) (core w off writer : Nat) (bs : List Byte) (k : Nat) :
    mcsrOf (writeWin s core w off writer bs) k = mcsrOf s k := by
  simp only [writeWin, wakeMonitors]
  split <;> rfl

theorem adv_writeWin (s : State) (core w off writer : Nat) (bs : List Byte) (k : Nat) (h : Hart) (n : Nat) :
    adv (writeWin s core w off writer bs) k h n = adv s k h n := by
  rw [adv, retire, mcsrOf_writeWin]
  rfl

theorem scalarAtomic_ownWindow (released : g = releaseIf s h x.rl x.sc) (aligned : x.va.toNat % x.bytes = 0) (idle : memPending h = false)
    (ordered : orderedAt s h x.aq x.rl x.sc = true) {w off : Nat}
    (placed : xlateHart (setHart s k g) k g x.va .amo = (.ok (.win (coreOfSlot k) w off), s1))
    (leaves : mayLeave s1 g (.win (coreOfSlot k) w off) = true) (opened : winState s1 (coreOfSlot k) w g.id.asid = .open_) :
    let old := leNat (readWin s1 (coreOfSlot k) w off x.bytes)
    let u := writeWin s1 (coreOfSlot k) w off g.id.uid (leBytes x.bytes (amoNew x.op x.signed x.bytes old x.val x.cmp))
    scalarAtomic s k h x =
      acqIf (updHart u k fun y => adv u k (wx y x.dest (extend x.sx (leBytes x.bytes old))) x.len) k (acqOf x.aq x.sc) := by
  subst released
  simp [scalarAtomic, aligned, idle, ordered, placed, leaves, inReach_own, viaMessage_own_open opened, opened, amoWin, adv_writeWin]

end

/-- The value of an operand as min and max compare it. -/
theorem amoNew_minmax (n : Nat) (sg : Bool) (old v cmp : Nat) :
    amoNew 5 sg n old v cmp = (if valOf sg (8 * n) old ≤ valOf sg (8 * n) v then old else v) ∧
      amoNew 6 sg n old v cmp = (if valOf sg (8 * n) v ≤ valOf sg (8 * n) old then old else v) := ⟨rfl, rfl⟩

theorem valOf_true_toNat {w : Nat} (a : BitVec w) : valOf true w a.toNat = a.toInt := by
  rw [valOf_true_eq_toInt a.isLt, BitVec.ofNat_toNat, BitVec.setWidth_eq]

/-- A standard AMO is the scalar atomic of its kind. -/
theorem exec_amo {s : State} {h : Hart} {kd : AmoKind} {dbl aq rl : Bool} {rd rs1 rs2 : XR} (r : Runs s h (.amo kd dbl aq rl rd rs1 rs2)) :
    exec (.amo kd dbl aq rl rd rs1 rs2) s = .next (scalarAtomic s s.cur (entered h (.amo kd dbl aq rl rd rs1 rs2))
      ⟨4, (amoCode kd).1, if dbl then 8 else 4, (amoCode kd).2, !dbl, (rx h rs2).toNat % 2 ^ (8 * (if dbl then 8 else 4)), 0, .device, aq, rl, rd,
        rx h rs1⟩) := by
  rw [← rx_entered h (.amo kd dbl aq rl rd rs1 rs2) rs1, ← rx_entered h (.amo kd dbl aq rl rd rs1 rs2) rs2]
  unfold exec
  exact onHart_runs r _

/-- What a scoped atomic asks for (R293). -/
def scopedAtom (h : Hart) (o : Eops) (aq rl : Bool) : Atom :=
  ⟨8, o.rnd.toNat, iWidth o.fmt / 8, iSigned o.fmt, iSigned o.fmt && iWidth o.fmt / 8 == 4,
    (rx h (xreg o.vs2)).toNat % 2 ^ (8 * (iWidth o.fmt / 8)), (rx h (xreg o.vs3)).toNat % 2 ^ (8 * (iWidth o.fmt / 8)),
    scopeOf o.ks, aq, rl, xreg o.vd, rx h (xreg o.vs1)⟩

theorem scopedAtom_entered (h : Hart) (i : Instr) (o : Eops) (aq rl : Bool) : scopedAtom (entered h i) o aq rl = scopedAtom h o aq rl := by
  simp only [scopedAtom, rx_entered]

/-- A scoped atomic, ordered as its form says, is the scalar atomic of its operands. -/
theorem exec_xamo {s : State} {h : Hart} {i : Instr} {o : Eops} {aq rl : Bool} (r : Runs s h i)
    (form : match aq, rl with
      | false, false => i = .xamo o | true, false => i = .xamoAq o | false, true => i = .xamoRl o | true, true => i = .xamoAqrl o) :
    exec i s = .next (scalarAtomic s s.cur (entered h i) (scopedAtom h o aq rl)) := by
  rw [← scopedAtom_entered h i]
  cases aq <;> cases rl <;> (subst form; unfold exec; exact onHart_runs r _)

/-- Settles O32. -/
theorem atomicsCompleteAndCompute : Obligations.AtomicsCompleteAndCompute := by
  constructor
  · intro s s1 h0 i x k h amo xamo form g acq r
    have runs : exec i s = .next (scalarAtomic s k h x) := by
      obtain ⟨kd, dbl, aq, rl, rd, rs1, rs2, rfl, rfl⟩ | ⟨o, aq, rl, form, rfl⟩ := form
      · exact exec_amo r
      · refine exec_xamo r ?_
        cases aq <;> cases rl <;> exact form
    refine ⟨fun misaligned => ?_, fun aligned idle ordered => ⟨fun pa c placed => ?_, fun w off placed leaves opened => ?_⟩⟩
    · rw [runs, scalarAtomic_misaligned misaligned]
    · rw [runs, scalarAtomic_hbm rfl aligned idle ordered placed]
      rfl
    · rw [runs, scalarAtomic_ownWindow rfl aligned idle ordered placed leaves opened]
      rfl
  · intro n a b c pos f
    have least (sg : Bool) := (amoNew_minmax n sg a.toNat b.toNat c.toNat).1
    have most (sg : Bool) := (amoNew_minmax n sg a.toNat b.toNat c.toNat).2
    have plain (v : Nat) : valOf false (8 * n) v = v := rfl
    refine ⟨fun sg => ⟨rfl, (BitVec.toNat_add a b).symm, (BitVec.toNat_and a b).symm, (BitVec.toNat_or a b).symm, (BitVec.toNat_xor a b).symm, ?_⟩,
      ?_, ?_, ?_, ?_⟩
    · show (if a.toNat = c.toNat then b.toNat else a.toNat) = _
      simp only [BitVec.toNat_inj, apply_ite BitVec.toNat]
    · refine (least false).trans ?_
      simp only [plain, Nat.cast_le, min_def]
    · refine (most false).trans ?_
      simp only [plain, Nat.cast_le, max_def]
      split <;> split <;> omega
    · refine (least true).trans ?_
      simp only [valOf_true_toNat, apply_ite BitVec.toNat]
    · refine (most true).trans ?_
      simp only [valOf_true_toNat, apply_ite BitVec.toNat]

end Sys2Proof.Machine
end

section
/-! Forwarding: lane instructions, copies and messages, and its frame (O33, O35, O36). -/

namespace Sys2Proof.Machine

/-! ## Forwarding: the operands as the instruction finds them (R145, R153) -/

theorem topStk_entered (h : Hart) (i : Instr) : topStk (entered h i) = topStk h := by unfold entered; split <;> rfl

theorem execMask_entered (h : Hart) (i : Instr) (o : Eops) : execMask (entered h i) o = execMask h o := by unfold entered; split <;> rfl

section
variable {s : State} {h : Hart} {i : Instr} {sh : Shape} {o : Eops} {plan : Nat → Hart → Fwd}

/-- A register outside the allocation, or an illegal dynamic rounding mode, is refused before any plan (R63, R69, R94). -/
theorem forward_of_unchecked (engine : engine? i = some (sh, o)) (runs : Runs s h i)
    (bad : allocOk h.id.nv h.id.nt i = false ∨ (dynRounds sh o = true ∧ 4 < h.l.lfrm.toNat)) :
    forward s i plan = .next (trapAt s s.cur (entered h i) 2 (instrBits i)) := by
  rw [forward, onHart_runs runs]
  rcases bad with alloc | ⟨dyn, mode⟩
  · simp [engine, alloc, illegal]
  · simp [engine, dyn, mode, illegal]

/-- An instruction that its plan refuses raises the plan's exception once its checks have passed. -/
theorem forward_of_trap {cause : Nat} {tval : Word} (engine : engine? i = some (sh, o)) (runs : Runs s h i)
    (alloc : allocOk h.id.nv h.id.nt i = true) (rounds : (dynRounds sh o && h.l.lfrm.toNat > 4) = false)
    (refused : plan s.cur (entered h i) = .trap cause tval) :
    forward s i plan = .next (trapAt s s.cur (entered h i) cause tval) := by
  rw [forward, onHart_runs runs]
  simp [engine, alloc, rounds, refused]

/-- A lane memory instruction forwards with its base, its stride and the execution mask. -/
theorem forwardsAs_mem {opa : Hart → Word} {opb : Hart → BitVec 32} {a : Word} {b : BitVec 32} (planned : exec i s = forwardMem i o opa opb s)
    (base : opa (entered h i) = a) (stride : opb (entered h i) = b) : ForwardsAs s h i a b (execMask h o) id :=
  forwardsAs_of_plan planned (by subst base stride; exact congrArg (Fwd.go _ _ · _) (execMask_entered h i o))

end

/-! ## Lane instructions (R163 to R175, R203 to R206) -/

theorem baseDisp_entered (h : Hart) (i : Instr) (o : Eops) (unit : Nat) : baseDisp (entered h i) o unit = baseDisp h o unit := by
  rw [baseDisp, rx_entered]; rfl

theorem strideOf_entered (h : Hart) (i : Instr) (o : Eops) : strideOf (entered h i) o = strideOf h o := by
  rw [strideOf, rx_entered]; rfl

/-- A lane computation forwards with its broadcast operand (R153). -/
theorem forwardsAs_compute (s : State) (h : Hart) {i : Instr} {sh : Shape} {o : Eops} (engine : engine? i = some (sh, o))
    (two : 2 ≤ sh.grp) (eight : sh.grp ≤ 8) :
    ForwardsAs s h i (if sh.vs2 = .b ∧ o.ks = 1 then rx h (xreg o.vs2) else 0) 0 (execMask h o) id := by
  refine forwardsAs_of_plan (exec_eq_forwardCompute s engine two eight) ?_
  simp only [planCompute, engine, rx_entered, execMask_entered, id_eq]

/-- The plan of a reduction instruction: illegal in an open basting region (R206). -/
def reductionPlan (i : Instr) (second : Nat → Hart → Bool) (opa : Hart → Word) (opb : Hart → BitVec 32) (w2 : Hart → Mask) (k : Nat)
    (h : Hart) : Fwd :=
  if h.snap.isSome || second k h then .trap 2 (instrBits i) else .go (opa h) (opb h) (w2 h) h

section
variable {s : State} {h : Hart} {o : Eops}

/-- A key other than the open one, or than that of a lost fragment (R205). -/
def otherKey (o : Eops) (k : Nat) (h : Hart) : Bool := ((openKey s k h).any (· != redKey h o)) || h.frag.any (· != redKey h o)

theorem option_any_ne_iff {α : Type} [BEq α] [LawfulBEq α] {x : Option α} {key : α} :
    x.any (· != key) = true ↔ ∃ y, x = some y ∧ y ≠ key := by
  cases x <;> simp

theorem otherKey_iff {k : Nat} : otherKey (s := s) o k h = true ↔
    (∃ key, openKey s k h = some key ∧ key ≠ redKey h o) ∨ ∃ key, h.frag = some key ∧ key ≠ redKey h o := by
  rw [otherKey, Bool.or_eq_true, option_any_ne_iff, option_any_ne_iff]

theorem exec_vredAdd (s : State) (o : Eops) : exec (.vredAdd o) s =
    forward s (.vredAdd o) (reductionPlan (.vredAdd o) (otherKey (s := s) o) (fun h => rx h (xreg o.vs1)) (fun _ => 0) (execMask · o)) := rfl

theorem exec_vredOpen (s : State) (o : Eops) : exec (.vredOpen o) s =
    forward s (.vredOpen o) fun _ h => if h.snap.isSome then .trap 2 (instrBits (.vredOpen o))
      else .go (rx h (xreg o.vs1)) (BitVec.ofNat 32 (min (rx h (xreg o.vs3)).toNat (2 ^ 32 - 1))) (topStk h).mask h := rfl

theorem exec_vredFlush (s : State) (o : Eops) : exec (.vredFlush o) s =
    forward s (.vredFlush o) fun _ h => if h.snap.isSome then .trap 2 (instrBits (.vredFlush o))
      else .go (rx h (xreg o.vs1)) 0 (topStk h).mask h := rfl

end

/-- Settles O33. What OPA and OPB of `vred.open` hold, and the copy of the open key by which `vred.add` is let go, are the model's choices
(logs 107, 105 and 124). -/
theorem laneInstructionsForward : Obligations.LaneInstructionsForward := by
  refine ⟨fun s h i sh o engine two eight => forwardsAs_compute s h engine two eight, ?_, ?_⟩
  · intro s h o base size disp stride pitch goes
    have plain {i : Instr} (planned : exec i s = forwardMem i o (fun h => rx h (xreg o.vs1)) (fun _ => 0) s) : goes i base 0 :=
      forwardsAs_mem planned (rx_entered h i _) rfl
    have displaced {i : Instr} {unit : Nat} (planned : exec i s = forwardMem i o (fun h => baseDisp h o unit) (fun _ => 0) s) :
        goes i (disp unit) 0 := forwardsAs_mem planned (baseDisp_entered h i o unit) rfl
    have strided {i : Instr} (planned : exec i s = forwardMem i o (fun h => rx h (xreg o.vs1)) (fun h => strideOf h o) s) :
        goes i base stride := forwardsAs_mem planned (rx_entered h i _) (strideOf_entered h i o)
    have pitched {i : Instr} (planned : exec i s =
          forwardMem i o (fun h => rx h (xreg o.vs1)) (fun h => (rx h (xreg o.vs3)).setWidth 32) s) :
        goes i base pitch := forwardsAs_mem planned (rx_entered h i _) (congrArg (BitVec.setWidth 32) (rx_entered h i _))
    exact ⟨displaced rfl, displaced rfl, strided rfl, strided rfl, plain rfl, plain rfl, displaced rfl, displaced rfl,
      pitched rfl, pitched rfl, displaced rfl, displaced rfl, plain rfl, plain rfl, plain rfl, plain rfl, plain rfl,
      forwardsAs_mem (opa := fun _ => 0) (opb := fun _ => 0) rfl rfl rfl⟩
  · intro s h o key base
    refine ⟨fun shut => ⟨forwardsAs_of_plan (exec_vredOpen s o) ?_, forwardsAs_of_plan (exec_vredFlush s o) ?_, fun keyed fragment => ?_⟩,
      fun shut other r alloc => ?_, fun i mem r opened => ?_⟩
    · rw [entered_of_not_closes rfl, shut]; rfl
    · rw [entered_of_not_closes rfl, shut]; rfl
    · have same : otherKey (s := s) o s.cur h = false := by
        rw [Bool.eq_false_iff, Ne, otherKey_iff]
        rintro (⟨key', e, ne⟩ | ⟨key', e, ne⟩)
        · rw [e] at keyed
          exact ne (Option.some.inj (keyed.resolve_left nofun))
        · rw [e] at fragment
          exact ne (Option.some.inj (fragment.resolve_left nofun))
      refine forwardsAs_of_plan (exec_vredAdd s o) ?_
      rw [entered_of_not_closes rfl, reductionPlan, shut, same]
      rfl
    · rw [exec_vredAdd, ← entered_of_not_closes (i := .vredAdd o) (h := h) rfl]
      refine forward_of_trap rfl r alloc rfl ?_
      rw [entered_of_not_closes rfl, reductionPlan, otherKey_iff.mpr other, Bool.or_true]
      rfl
    · simp only [List.mem_cons, List.not_mem_nil, or_false] at mem
      obtain rfl | rfl | rfl := mem
      · rw [exec_vredOpen]
        exact forward_of_illegal rfl r (by rw [entered_of_not_closes rfl, opened]; rfl)
      · rw [exec_vredAdd]
        exact forward_of_illegal rfl r (by rw [entered_of_not_closes rfl, reductionPlan, opened]; rfl)
      · rw [exec_vredFlush]
        exact forward_of_illegal rfl r (by rw [entered_of_not_closes rfl, opened]; rfl)

/-! ## Copies and messages (R215, R266, R272, R275, R276, R280, R281) -/

section
variable {s : State} {h : Hart} {i : Instr} {o : Eops} {sh : Shape}

theorem planCopy_handler {opa w2 : Word} {opb : BitVec 32} (handler : h.id.handler = true) : planCopy h opa opb w2 = .go opa opb w2 h :=
  if_pos handler

theorem planCopy_kernel {opa w2 : Word} {opb : BitVec 32} (kernel : h.id.handler = false) (room : h.msg.rsv < 16) :
    planCopy h opa opb w2 = .go opa opb w2 (reserving h) :=
  (if_neg (by simp [kernel])).trans (if_neg (by omega))

theorem planCopy_full {opa w2 : Word} {opb : BitVec 32} (kernel : h.id.handler = false) (full : 16 ≤ h.msg.rsv) :
    planCopy h opa opb w2 = .wait :=
  (if_neg (by simp [kernel])).trans (if_pos full)

/-- A copy forwards by whether its hart is a handler and has a reservation left. -/
theorem forwardsAs_copy {opa w2 : Hart → Word} {opb : Hart → BitVec 32} {a c : Word} {b : BitVec 32}
    (planned : exec i s = forward s i fun _ h => planCopy h (opa h) (opb h) (w2 h)) (engine : engine? i = some (sh, o))
    (rounds : dynRounds sh o = false)
    (ops : opa (entered h i) = a ∧ opb (entered h i) = b ∧ w2 (entered h i) = c) :
    (h.id.handler = true → ForwardsAs s h i a b c id) ∧
    (h.id.handler = false → h.msg.rsv < 16 → ForwardsAs s h i a b c reserving) ∧
    (h.id.handler = false → 16 ≤ h.msg.rsv → allocOk h.id.nv h.id.nt i = true → Runs s h i → exec i s = .next s) := by
  obtain ⟨rfl, rfl, rfl⟩ := ops
  refine ⟨fun handler => forwardsAs_of_plan planned (planCopy_handler (by simp [handler])),
    fun kernel room => forwardsAs_of_plan planned (planCopy_kernel (by simp [kernel]) (by simp [room])),
    fun kernel full alloc runs => planned.trans (forward_of_wait engine runs alloc (by simp [rounds])
      (planCopy_full (by simp [kernel]) (by simp [full])))⟩

/-- The hart whose send-queue entry q holds the message of a send of n payload words (R266). -/
def queuedSend (h : Hart) (o : Eops) (n q : Nat) (free : q < 8) (g : Hart) : Hart :=
  let t := rx h (xreg o.vd)
  { g with msg := { g.msg with
    sendq := g.msg.sendq.set q { used := true, seq := h.l.nseq, target := t, handler := rx h (xreg o.vs1),
                                 p := (List.range n).map fun j => rx h (xreg o.vs3 + BitVec.ofNat 5 j), sent := false },
    rsv := if wbit t 61 then g.msg.rsv + 1 else g.msg.rsv } }

theorem planSend_go {n k q : Nat} (free : q < 8) (first : freeSendIdx h = q) (mayAsk : h.id.handler = false ∨ wbit (rx h (xreg o.vd)) 61 = false)
    (room : wbit (rx h (xreg o.vd)) 61 = true → h.msg.rsv < 16) :
    planSend i o n k h = .go (rx h (xreg o.vd)) (BitVec.ofNat 32 q) (rx h (xreg o.vs1)) (queuedSend h o n q free h) := by
  subst first
  simp only [planSend]
  rw [if_neg, if_neg, if_neg (by omega), dif_pos free]
  · rfl
  · simpa using room
  · rcases mayAsk with kernel | quiet
    · simp [kernel]
    · simp [quiet]

theorem planSend_full {n k : Nat} (full : 8 ≤ freeSendIdx h) (quiet : wbit (rx h (xreg o.vd)) 61 = false) :
    planSend i o n k h = .trap 27 (rx h (xreg o.vd)) := by
  simp only [planSend]
  rw [if_neg (by simp [quiet]), if_neg (by simp [quiet]), if_pos full]

theorem freeSendIdx_entered (h : Hart) (i : Instr) : freeSendIdx (entered h i) = freeSendIdx h := by rw [freeSendIdx, entered_msg]; rfl

/-- A send forwards with the lowest free entry of its queue, or raises SENDQ_FULL. -/
theorem forwardsAs_send {n : Nat} (planned : exec i s = forward s i (planSend i o n)) (engine : engine? i = some (sh, o))
    (rounds : dynRounds sh o = false) :
    (∀ q, ∀ free : q < 8, freeSendIdx h = q → (h.id.handler = false ∨ wbit (rx h (xreg o.vd)) 61 = false) →
      (wbit (rx h (xreg o.vd)) 61 = true → h.msg.rsv < 16) →
      ForwardsAs s h i (rx h (xreg o.vd)) (BitVec.ofNat 32 q) (rx h (xreg o.vs1)) (queuedSend h o n q free)) ∧
    (8 ≤ freeSendIdx h → wbit (rx h (xreg o.vd)) 61 = false → allocOk h.id.nv h.id.nt i = true → Runs s h i →
      exec i s = .next (trapAt s s.cur (entered h i) 27 (rx h (xreg o.vd)))) := by
  refine ⟨fun q free first mayAsk room => forwardsAs_of_plan planned ?_, fun full quiet alloc runs => planned.trans ?_⟩
  · refine (planSend_go free ((freeSendIdx_entered h i).trans first) (by simpa using mayAsk) (by simpa using room)).trans ?_
    simp only [queuedSend, rx_entered, entered_l]
  · refine forward_of_trap engine runs alloc (by simp [rounds]) ?_
    rw [planSend_full ((freeSendIdx_entered h i).symm ▸ full) (by simpa using quiet), rx_entered]

end

/-- The plan of `msendr`: the reply that is due is taken (R276, R280). -/
def replyPlan (o : Eops) (_ : Nat) (h : Hart) : Fwd :=
  if !h.id.handler || !h.msg.rplAsked || !h.msg.rplDue then .trap 2 (instrBits (.msendr o))
  else .go (rx h (xreg o.vs3)) 0 (rx h (xreg o.vs3 + 1)) { h with msg := { h.msg with rplDue := false } }

theorem exec_msendr (s : State) (o : Eops) : exec (.msendr o) s = forward s (.msendr o) (replyPlan o) := rfl

theorem exec_mrecv (s : State) (o : Eops) : exec (.mrecv o) s =
    forward s (.mrecv o) fun _ h => if h.id.handler then .trap 2 (instrBits (.mrecv o)) else .go 0 0 0 h := rfl

theorem exec_mackrd (s : State) (o : Eops) : exec (.mackrd o) s =
    forward s (.mackrd o) fun _ h => if o.vs3 = 6 ∧ h.mode ≠ .s then .trap 2 (instrBits (.mackrd o)) else .go 0 0 0 h := rfl

/-- Settles O35. -/
theorem copiesAndMessagesForward : Obligations.CopiesAndMessagesForward := by
  constructor
  · intro s h o d a b goes
    have reads (i : Instr) (r : XR) : rx (entered h i) r = rx h r := rx_entered h i r
    have low (i : Instr) (r : XR) : (rx (entered h i) r).setWidth 32 = (rx h r).setWidth 32 := congrArg _ (reads i r)
    refine ⟨forwardsAs_copy rfl rfl rfl ⟨reads _ _, low _ _, rfl⟩, forwardsAs_copy rfl rfl rfl ⟨reads _ _, low _ _, rfl⟩,
      forwardsAs_copy rfl rfl rfl ⟨reads _ _, low _ _, reads _ _⟩, forwardsAs_copy rfl rfl rfl ⟨reads _ _, low _ _, ?_⟩,
      forwardsAs_copy rfl rfl rfl ⟨reads _ _, low _ _, reads _ _⟩, forwardsAs_copy rfl rfl rfl ⟨reads _ _, low _ _, reads _ _⟩⟩
    rw [reads, bitsOf, Nat.shiftRight_eq_div_pow]
  · intro s h o t pay queued sends
    refine ⟨forwardsAs_send rfl rfl rfl, forwardsAs_send rfl rfl rfl, fun handler asked due => forwardsAs_of_plan (exec_msendr s o) ?_,
      fun kernel => forwardsAs_of_plan (exec_mrecv s o) ?_, fun mayRead => forwardsAs_of_plan (exec_mackrd s o) ?_⟩
    · refine (if_neg (by simp [handler, asked, due])).trans ?_
      rw [rx_entered, rx_entered]
    · exact if_neg (by simp [kernel])
    · exact if_neg (by rw [entered_mode]; exact fun refused => mayRead.elim (· refused.1) refused.2)

/-! ## The frame of forwarding (R63, R69, R94) -/

/-- Of a hart, what forwarding leaves. -/
def RegistersAlike (h g : Hart) : Prop :=
  g.x = h.x ∧ g.m = h.m ∧ g.v = h.v ∧ g.tm = h.tm ∧ g.stk = h.stk ∧ g.dep = h.dep ∧ g.l.lfrm = h.l.lfrm ∧ g.l.lflags = h.l.lflags ∧
    g.l.ftz = h.l.ftz ∧ g.id = h.id

theorem RegistersAlike.refl (h : Hart) : RegistersAlike h h := ⟨rfl, rfl, rfl, rfl, rfl, rfl, rfl, rfl, rfl, rfl⟩

theorem RegistersAlike.trans {h g f : Hart} (hg : RegistersAlike h g) (gf : RegistersAlike g f) : RegistersAlike h f := by
  obtain ⟨x, m, v, tm, stk, dep, lfrm, lflags, ftz, id⟩ := hg
  obtain ⟨x', m', v', tm', stk', dep', lfrm', lflags', ftz', id'⟩ := gf
  exact ⟨x'.trans x, m'.trans m, v'.trans v, tm'.trans tm, stk'.trans stk, dep'.trans dep, lfrm'.trans lfrm, lflags'.trans lflags,
    ftz'.trans ftz, id'.trans id⟩

theorem registersAlike_entered (h : Hart) (i : Instr) : RegistersAlike h (entered h i) := by
  unfold entered
  split <;> exact ⟨rfl, rfl, rfl, rfl, rfl, rfl, rfl, rfl, rfl, rfl⟩

theorem registersAlike_forwarded (s : State) (k : Nat) {h g : Hart} (msg : g = { h with msg := g.msg }) (e : Entry) (i : Instr) :
    RegistersAlike h (forwarded s k g e i) := by
  simp only [forwarded, adv_frame]
  rw [msg]
  exact ⟨rfl, rfl, rfl, rfl, rfl, rfl, rfl, rfl, rfl, rfl⟩

/-- The state t is s with the hart in `cur` changed outside its registers, or a trap of such a hart. -/
def ForwardedFrom (s : State) (h : Hart) (t : State) : Prop :=
  HartAlone s s.cur t ∧ ∃ g, hartAt t s.cur = some g ∧ RegistersAlike h g

theorem forwardedFrom_refl {s : State} {h : Hart} (here : hartAt s s.cur = some h) : ForwardedFrom s h s :=
  ⟨.refl s _, h, here, .refl h⟩

theorem forwardedFrom_setHart {s : State} {h g : Hart} (alike : RegistersAlike h g) : ForwardedFrom s h (setHart s s.cur g) :=
  ⟨hartAlone_setHart s _ g, g, hartAt_setHart_same s s.cur g, alike⟩

theorem forwardedFrom_trapAt {s : State} {h g : Hart} (c : Nat) (v : Word) (alike : RegistersAlike h g) :
    ForwardedFrom s h (trapAt s s.cur g c v) := by
  obtain ⟨f, there, changed⟩ := hartAt_trapAt s s.cur g c v
  refine ⟨hartAlone_trapAt s _ g c v, f, there, alike.trans ?_⟩
  rw [changed]
  exact ⟨rfl, rfl, rfl, rfl, rfl, rfl, rfl, rfl, rfl, rfl⟩

/-- What a forwarded instruction does, whatever its plan answers. -/
theorem forward_from {s t : State} {h : Hart} {i : Instr} {plan : Nat → Hart → Fwd} (here : hartAt s s.cur = some h) (msg : OnlyMsg plan)
    (next : forward s i plan = .next t) : ForwardedFrom s h t := by
  obtain rfl | ⟨h', ⟨there, -, -⟩, rfl⟩ := onHart_next next
  · exact forwardedFrom_refl here
  · obtain rfl := Option.some.inj (here.symm.trans there)
    have entry := registersAlike_entered h i
    split
    · exact forwardedFrom_refl here
    · split
      · exact forwardedFrom_trapAt 2 _ entry
      · split
        · exact forwardedFrom_trapAt _ _ entry
        · exact forwardedFrom_refl here
        · next planned =>
          split
          · exact forwardedFrom_refl here
          · exact forwardedFrom_setHart (entry.trans (registersAlike_forwarded s _ (msg _ _ _ _ _ _ planned) _ i))

/-- Settles O36. -/
theorem forwardingChecksFirstAndChangesNoRegister : Obligations.ForwardingChecksFirstAndChangesNoRegister := by
  refine ⟨fun s h i sh o engine grp runs bad => ?_, fun s t h i sh o engine grp here next => ?_⟩
  · obtain ⟨plan, planned, -⟩ := exec_eq_forward s engine grp
    exact planned.trans (forward_of_unchecked engine runs bad)
  · obtain ⟨plan, planned, msg⟩ := exec_eq_forward s engine grp
    obtain ⟨⟨rest, bytes, others⟩, g, there, alike⟩ := forward_from here msg (planned.symm.trans next)
    refine ⟨bytes, others, ?_, ?_, ?_, ?_, g, there, alike⟩ <;> rw [rest]

end Sys2Proof.Machine
end

section
/-! Boundary events of a hart, and the lane, matrix and copy engines (O40 to O42). -/

namespace Sys2Proof.Machine

/-! ## Boundary events of a hart (R107, R111, R113, R120 to R122, R139) -/

section
variable {s : State} {k : Nat} {h : Hart}

theorem exec_takeInterrupt (here : hartAt s k = some h) {n : Nat} (due : nextInterrupt s k h = some n) (runs : h.halted = false)
    (free : h.pend = none) :
    exec (.takeInterrupt k) s = .next (takeTrap (freeMonitor s k h) k h n true 0 (waitPc h)) := by
  change execTakeInterrupt k s = _
  simp [execTakeInterrupt, stepOf, here, due, runs, free]

/-- The hart with the report of a late fault (R158). -/
def reporting (h : Hart) (e : Entry) : Hart :=
  let g := updEntry h e.seq fun e => { e with dlv := true }
  { g with l := { g.l with fseq := e.seq, lfcode := e.code, lfengine := engineCode e.eng, lfaddr := e.fltAddr, lflanes := e.fltLanes } }

theorem exec_lateFaultDelivery (here : hartAt s k = some h) {e : Entry} (due : deliverable h = some e) (runs : h.halted = false)
    (free : h.pend = none) :
    exec (.lateFaultDelivery k) s = .next (trapAt (freeMonitor s k h) k (reporting h e) 24 e.fltAddr) := by
  change execLateFaultDelivery k s = _
  simp [execLateFaultDelivery, stepOf, here, due, runs, free, reporting]

theorem exec_monitorWake (here : hartAt s k = some h) {w : Wake} {t : Option Nat} (waits : h.wait = some (.wrs w.line t))
    (woken : (s.mem.wakes.find? fun w => w.uid == h.id.uid) = some w) :
    exec (.monitorWake k) s = .next (endWrs (updMem s fun m => { m with wakes := delFirst m.wakes (· == w) }) k h) := by
  change execMonitorWake k s = _
  simp [execMonitorWake, stepOf, here, woken, waits]

theorem exec_wrsTimeout (here : hartAt s k = some h) {l t : Nat} (waits : h.wait = some (.wrs l (some t))) (elapsed : t ≤ slotClk s k) :
    exec (.wrsTimeout k) s = .next (endWrs s k h) := by
  change execWrsTimeout k s = _
  simp [execWrsTimeout, stepOf, here, waits, elapsed]

theorem exec_hwtimeExpiry (here : hartAt s k = some h) {t : Nat} (waits : h.wait = some (.hwtime t)) (elapsed : t ≤ s.clock.time) :
    exec (.hwtimeExpiry k) s = .next (setHart s k (adv s k { h with wait := none } 4)) := by
  change execHwtimeExpiry k s = _
  simp [execHwtimeExpiry, stepOf, here, waits, elapsed]

theorem exec_hartEnd_handler (here : hartAt s k = some h) (ends : h.ending = true) (handler : h.id.handler = true) :
    exec (.hartEnd k) s = .next (freeSlot s k h) := by
  change execHartEnd k s = _
  simp [execHartEnd, stepOf, here, ends, handler]

theorem exec_hartEnd_kernel (here : hartAt s k = some h) (ends : h.ending = true) (kernel : h.id.handler = false) {t : Team} {u : State}
    (left : u = updTeam (freeSlot s k h) h.id.team fun t => { t with hartsLeft := t.hartsLeft - 1 })
    (team : tget u.work.teams h.id.team = some t) :
    exec (.hartEnd k) s = .next (if t.hartsLeft = 0 then endTeam u h.id.team else u) := by
  subst left
  change execHartEnd k s = _
  simp [execHartEnd, stepOf, here, ends, kernel, team]

theorem exec_scalarReply (here : hartAt s k = some h) {i id : Nat} {v : Word} {p : Pend}
    (reply : s.mem.replies[i]? = some ⟨.xreg h.id.uid id, v, false⟩) (slot : slotOfUid s h.id.uid = some k) (ready : h.wait = none)
    (pending : h.pend = some p) (mine : p.id = id) {t : State} (taken : t = updMem s fun m => { m with replies := dropAt m.replies i }) :
    exec (.scalarReply i) s = .next (acqIf
      (setHart t k { putDest (retire t k h) p.reg.toNat (leBytes 8 v.toNat) false with pend := none, parts := [] }) k p.acq) := by
  subst taken
  change execScalarReply i s = _
  simp only [execScalarReply, stepOf, reply]
  have there : hartAt (updMem s fun m => { m with replies := dropAt m.replies i }) k = some h := here
  have slot' : slotOfUid (updMem s fun m => { m with replies := dropAt m.replies i }) h.id.uid = some k := slot
  simp [scalarData, slot', there, ready, pending, mine]

end

/-! ## Steps of the lane engine (R147 to R161, R175, R205) -/

section
variable {s s1 : State} {k : Nat} {h : Hart} {e : Entry}

/-- An instruction with an x result goes through the engine whatever its mask. -/
def laneToX (i : Instr) : Bool := match i with
  | .vmvx _ | .vredOpen _ | .vredFlush _ => true
  | _ => false

theorem laneHead_of {q : List Nat} (queue : h.laneQ = e.seq :: q) (entry : entryAt h e.seq = some e) (inflight : e.st = .inflight)
    (queued : e.stage = .queued) (lane : e.eng = .lane) (resident : h.capture = none) (free : lockedFor h e = false)
    (steady : steerStops s k = false) (ordered : (isRedAdd e.instr && olderFlush h e) = false) : laneHead s k h = some e := by
  simp [laneHead, queue, entry, inflight, queued, lane, resident, free, steady, ordered]

theorem exec_laneIssue {q : List Nat} (here : hartAt s k = some h) (entry : entryAt h e.seq = some e) (queue : h.laneQ = e.seq :: q)
    (head : laneHead s k h = some e) (turn : picks s (.lane (k / 64)) (hartCand k h) (laneRivals s k) = true) :
    exec (.laneIssue k) s = .next (laneIssue (notePick s (.lane (k / 64)) (hartCand k h) (laneRivals s k)) k h e) := by
  change execLaneIssue k s = _
  simp [execLaneIssue, stepOf, here, queue, entry, head, turn]

theorem laneIssue_empty (parity : parityBad h e = false) (empty : e.lmask = 0) (toX : laneToX e.instr = false) :
    laneIssue s k h e = setHart s k (doneEntry { h with laneQ := h.laneQ.drop 1 } e.seq) := by
  unfold laneIssue
  refine (if_neg (by simp [parity])).trans (if_pos ?_)
  show (decide (e.lmask = 0) && !laneToX e.instr) = true
  rw [empty, toX]
  rfl

theorem laneIssue_issues (parity : parityBad h e = false) (goes : e.lmask ≠ 0 ∨ laneToX e.instr = true) (notPf : ∀ o, e.instr ≠ .vpf o) :
    laneIssue s k h e = setHart s k (updEntry { h with laneQ := h.laneQ.drop 1 } e.seq fun e =>
      { e with stage := .issued, started := e.started || isCompute e.instr }) := by
  have through : ¬ (decide (e.lmask = 0) && !laneToX e.instr) = true := by
    rcases goes with mask | toX
    · rw [decide_eq_false mask]; exact Bool.false_ne_true
    · rw [toX]; simp
  unfold laneIssue
  refine (if_neg (by simp [parity])).trans ((if_neg through).trans ?_)
  split
  · next o pf => exact absurd pf (notPf o)
  · rfl

theorem exec_laneElementResponse (here : hartAt s k = some h) (entry : entryAt h e.seq = some e) (inflight : e.st = .inflight)
    (issued : e.stage = .issued) (lane : e.eng = .lane) (resident : h.capture = none) (lanes : Mask) (fresh : Bool) :
    exec (.laneElementResponse k e.seq lanes fresh) s = .next (laneRespond s k h e lanes fresh) := by
  change execLaneElementResponse k e.seq lanes fresh s = _
  simp [execLaneElementResponse, stepOf, here, entry, inflight, issued, lane, resident]

theorem laneRespond_load {lanes : Mask} {fresh : Bool} {o : Eops} (load : e.instr ∈ [Instr.vld o, .vlds o, .vldg o, .vldt o, .vldf o])
    (first : laneWaits h e = false) : laneRespond s k h e lanes fresh = stepLoad s k e.seq lanes fresh := by
  simp only [List.mem_cons, List.not_mem_nil, or_false] at load
  rcases load with i | i | i | i | i <;> simp [laneRespond, first, i]

theorem laneRespond_store {lanes : Mask} {fresh : Bool} {o : Eops} (store : e.instr ∈ [Instr.vst o, .vsts o, .vstg o, .vstt o, .vstf o])
    (first : laneWaits h e = false) : laneRespond s k h e lanes fresh = stepStore s k h e lanes := by
  simp only [List.mem_cons, List.not_mem_nil, or_false] at store
  rcases store with i | i | i | i | i <;> simp [laneRespond, first, i]

theorem laneRespond_vfence {lanes : Mask} {fresh : Bool} {o : Eops} (fence : e.instr = .vfence o) (first : laneWaits h e = false) :
    laneRespond s k h e lanes fresh = stepVfence s k h e o := by
  simp [laneRespond, first, fence]

/-- A store all of whose elements pass their checks writes those that may go now. -/
theorem stepStore_passes {lanes : Mask} {ok : List (Nat × Word × Loc)} (issued : e.stage = .issued)
    (checked : checkAll s k h e .store (lanesOf e.lmask) = ((false, ok, []), s1))
    (leave : (ok.all fun p => mayLeave s1 (laneSide h) p.2.2) = true) :
    stepStore s k h e lanes = settleStore ((goesNow lanes ok).foldl
      (fun s p => storeAt s k e.seq p.2.1 p.1 p.2.2 (storeBytes h e.instr p.1)) (updE s1 k e.seq fun e => { e with stage := .running })) k e.seq := by
  have none : (ok.any fun p => !mayLeave s1 (laneSide h) p.2.2) = false := by
    rw [← Bool.not_eq_true', List.not_any_eq_all_not]
    simpa using leave
  have fresh : (e.stage == .running) = false := by rw [issued]; rfl
  unfold stepStore
  simp only [fresh, Bool.false_eq_true, if_false, checked, none]

theorem settleStore_done {q : Nat} {g : Hart} {f : Entry} (now : entryNow s k q = some (g, f)) (done : f.lmask = 0) :
    settleStore s k q = setHart s k (doneEntry g q) := by
  simp [settleStore, now, done]

theorem stepVfence_done {o : Eops} (first : olderAccess h e = false) (performed : lanePerformed s h (scopeOf o.ks) = true) :
    stepVfence s k h e o = acquireLane (setHart s k (doneEntry (releaseLane s h (scopeOf o.ks)) e.seq)) k (scopeOf o.ks) := by
  simp [stepVfence, first, performed]

theorem exec_entryReplay_ok (here : hartAt s k = some h) (entry : entryAt h e.seq = some e) (due : refetchDue h e = true)
    (resident : h.capture = none) {bs : List Byte} (fetched : refetch s k h e = (.ok bs, s1)) :
    exec (.entryReplay k e.seq) s = .next (replayFetched s1 k h e) := by
  change execEntryReplay k e.seq s = _
  simp [execEntryReplay, stepOf, here, entry, due, resident, fetched]

theorem exec_entryReplay_fault (here : hartAt s k = some h) (entry : entryAt h e.seq = some e) (due : refetchDue h e = true)
    (resident : h.capture = none) {c : Nat} {v : Word} (fetched : refetch s k h e = (.fault c v, s1)) :
    exec (.entryReplay k e.seq) s = .next (holdEntry s1 k h e 0x0006 0 (e.pc.signExtend 64)) := by
  change execEntryReplay k e.seq s = _
  simp [execEntryReplay, stepOf, here, entry, due, resident, fetched]

theorem replayFetched_eq : replayFetched s k h e =
    (if e.st = .inflight then setHart s k (updEntry h e.seq fun e => { e with stage := .queued })
     else if e.eng = .lane ∧ parityBad h e = true then parityError s k h e else replayNow s k h e) := by
  simp [replayFetched]

end

/-- Settles O40. A late fault is delivered in any wait of its hart: that is the model's reading (log 21). -/
theorem hartAndLaneEventsComplete : Obligations.HartAndLaneEventsComplete := by
  refine ⟨fun s k h here => ⟨fun n due runs free => exec_takeInterrupt here due runs free,
      fun e due runs free => ⟨_, exec_lateFaultDelivery here due runs free, rfl, rfl, rfl, rfl, rfl, rfl, rfl, rfl, rfl, rfl⟩,
      fun w t waits woken => exec_monitorWake here waits woken, fun l t waits elapsed => exec_wrsTimeout here waits elapsed,
      fun t waits elapsed => exec_hwtimeExpiry here waits elapsed, fun ends handler => exec_hartEnd_handler here ends handler,
      fun t ends kernel team => exec_hartEnd_kernel here ends kernel rfl team,
      fun i id v p reply slot ready pending mine => exec_scalarReply here reply slot ready pending mine rfl⟩, ?_⟩
  rintro s s1 k h e ⟨here, entry⟩ out toX picked
  refine ⟨fun q queue inflight queued lane resident free steady ordered parity turn => ?_,
    fun inflight issued compute eldest => ⟨fun notRed => ?_, fun o red => ?_⟩,
    fun lanes fresh lane inflight issued resident first => ?_, fun due resident => ⟨fun bs fetched => ?_, fun c v fetched => exec_entryReplay_fault here entry due resident fetched⟩⟩
  · have issues := exec_laneIssue here entry queue (laneHead_of queue entry inflight queued lane resident free steady ordered) turn
    exact ⟨fun empty toX => issues.trans (congrArg _ (laneIssue_empty parity empty toX)),
      fun goes notPf => issues.trans (congrArg _ (laneIssue_issues parity goes notPf))⟩
  · exact exec_laneComputeDone_of_mayFinish ⟨⟨here, entry⟩, inflight, issued, eldest⟩ compute notRed
  · change execLaneComputeDone k e.seq s = _
    have effect : finishCompute s k h e = vredAddEffect s k h e o := by simp [finishCompute, red]
    simp [execLaneComputeDone, stepOf, here, entry, inflight, issued, eldest, compute, effect]
  · have responds := exec_laneElementResponse here entry inflight issued lane resident lanes fresh
    refine ⟨fun o load => responds.trans (congrArg _ (laneRespond_load load first)),
      fun o ok store checked leave => ⟨responds.trans (congrArg _ ((laneRespond_store store first).trans (stepStore_passes issued checked leave))),
        fun g f now done => settleStore_done now done⟩,
      fun o fence older performed => responds.trans (congrArg _ ((laneRespond_vfence fence first).trans (stepVfence_done older performed)))⟩
  · exact (exec_entryReplay_ok here entry due resident fetched).trans (congrArg _ replayFetched_eq)

/-! ## Steps of the matrix engine (R247 to R253) -/

section
variable {s : State} {k core : Nat} {h : Hart} {e : Entry} {o : Eops}

theorem exec_matrixDispatch {rest : List Nat} (here : hartAt s k = some h) (entry : entryAt h e.seq = some e) (queue : h.laneQ = e.seq :: rest)
    (matrix : e.eng = .matrix) (inflight : e.st = .inflight) (queued : e.stage = .queued) (resident : h.capture = none)
    (free : lockedFor h e = false) (room : (mdqOf s k).length < 8)
    (share : h.id.cls = 0 ∨ ((mdqOf s k).filter fun m => !isIbexSlot s m.slot).length < 6) :
    exec (.matrixDispatch k) s = .next
      (updCore (setHart s k (updEntry { h with laneQ := rest } e.seq fun e => { e with stage := .dispatched })) (coreOfSlot k) fun x =>
        { x with mdq := tput x.mdq (quadOfSlot k) (mdqOf s k ++ [⟨k, e.seq⟩]) }) := by
  change execMatrixDispatch k s = _
  simp [execMatrixDispatch, stepOf, here, queue, entry, matrix, inflight, queued, resident, free, room, share]

theorem isArrayOp_of_mem (multiply : e.instr ∈ [Instr.mma o, .mmasp o, .mmabk o]) : isArrayOp e.instr = true := by
  simp only [List.mem_cons, List.not_mem_nil, or_false] at multiply
  rcases multiply with i | i | i <;> rw [i] <;> rfl

theorem exec_arrayStart (oldest : mxOldest s k = some (h, e)) (ready : mxReady s k h e = true)
    (multiply : e.instr ∈ [Instr.mma o, .mmasp o, .mmabk o]) (free : (coreAt s (coreOfSlot k)).arrayFree ≤ slotClk s k)
    (turn : mxOutranked s k h true = false) :
    exec (.arrayStart k) s = .next (arrayStart (noteMx s k h true) k h e o) := by
  change execArrayStart k s = _
  have array := isArrayOp_of_mem multiply
  simp only [execArrayStart, stepOf, oldest]
  refine congrArg Host.Outcome.next ((if_neg (by simp [array, ready, turn, free])).trans ?_)
  simp only [List.mem_cons, List.not_mem_nil, or_false] at multiply
  rcases multiply with i | i | i <;> rw [i]

theorem exec_tilePortStart (oldest : mxOldest s k = some (h, e)) (ready : mxReady s k h e = true) (notArray : isArrayOp e.instr = false)
    (free : (coreAt s (coreOfSlot k)).port = none) (turn : mxOutranked s k h false = false) :
    exec (.tilePortStart k) s = .next (portStart (noteMx s k h false) k h e) := by
  change execTilePortStart k s = _
  simp [execTilePortStart, stepOf, oldest, ready, notArray, free, turn]

/-- The tile port takes an entry. -/
def portStarted (s : State) (k : Nat) (h : Hart) (e : Entry) (vals : List Int) : State :=
  let s := leaveMdq s k e.seq
  let s := updCore s (coreOfSlot k) fun c => { c with port := some { uid := h.id.uid, seq := e.seq, fin := slotClk s k + portClks e, vals := vals } }
  updE s k e.seq fun e => { e with stage := .running, started := e.started || (match e.instr with
    | .twait _ => false
    | _ => true) }

theorem portStart_plain (plain : e.instr ∈ [Instr.tzero o, .tmovv o, .twait o]) : portStart s k h e = portStarted s k h e [] := by
  simp only [List.mem_cons, List.not_mem_nil, or_false] at plain
  unfold portStart
  rcases plain with i | i | i <;> simp only [i] <;> rfl

theorem portStart_tmovt (tmovt : e.instr = .tmovt o) (parity : parityBad h e = false) :
    portStart s k h e = portStarted s k h e ((fragElems h o.vs1.toNat).map Int.ofNat) := by
  simp only [portStart, tmovt, parity]
  rfl

theorem portStart_tile (tile : e.instr ∈ [Instr.tst o, .tld o]) (inside : tileOffCheck s h e = none) :
    portStart s k h e = portStarted s k h e [] := by
  simp only [List.mem_cons, List.not_mem_nil, or_false] at tile
  rcases tile with i | i <;> simp only [portStart, i, inside] <;> rfl

theorem portStart_tdrain (drain : e.instr = .tdrain o) (checked : e.part = true ∨ drainCheck e = none) :
    portStart s k h e = portStarted s k h e [] := by
  have none : (if e.part then none else drainCheck e) = none := by
    rcases checked with part | good
    · rw [if_pos part]
    · rw [good, ite_self]
  simp only [portStart, drain, none]
  rfl

theorem exec_arrayWriteback {op : MxOp} {rest : List MxOp} (pipe : (coreAt s core).arrayPipe = op :: rest) (done : op.fin ≤ coreClk s core)
    (slot : slotOfUid s op.uid = some k) (now : entryNow s k op.seq = some (h, e)) (multiply : e.instr ∈ [Instr.mma o, .mmasp o, .mmabk o]) :
    exec (.arrayWriteback core) s = .next
      (updHart (mxWrite (updCore s core fun x => { x with arrayPipe := rest }) core (tileOf h o.vd.toNat) o.fmt.toNat op.vals) k fun h =>
        doneEntry h e.seq) := by
  change execArrayWriteback core s = _
  have slot' : slotOfUid (updCore s core fun x => { x with arrayPipe := rest }) op.uid = some k := slot
  have now' : entryNow (updCore s core fun x => { x with arrayPipe := rest }) k op.seq = some (h, e) := now
  simp only [execArrayWriteback, stepOf, pipe]
  refine congrArg Host.Outcome.next ((if_neg (by omega)).trans ?_)
  simp only [slot', now']
  simp only [List.mem_cons, List.not_mem_nil, or_false] at multiply
  rcases multiply with i | i | i <;> rw [i]

theorem exec_tilePortDone {op : MxOp} (busy : (coreAt s core).port = some op) (done : op.fin ≤ coreClk s core)
    (slot : slotOfUid s op.uid = some k) (now : entryNow s k op.seq = some (h, e)) :
    exec (.tilePortDone core) s = .next (portDone (updCore s core fun x => { x with port := none }) k h e op) := by
  change execTilePortDone core s = _
  have slot' : slotOfUid (updCore s core fun x => { x with port := none }) op.uid = some k := slot
  have now' : entryNow (updCore s core fun x => { x with port := none }) k op.seq = some (h, e) := now
  simp only [execTilePortDone, stepOf, busy]
  refine congrArg Host.Outcome.next ((if_neg (by omega)).trans ?_)
  simp only [slot', now']

end

/-! ## Arrivals of tile drains (R244, R245, R272, R284) -/

section
variable {s t : State} {i k : Nat} {h : Hart} {e : Entry}

theorem exec_drainImageArrival {d : DrainMsg} (drain : s.net.drains[i]? = some d)
    (first : ((s.net.drains.take i).any fun x => x.uid == d.uid && x.dst == d.dst) = false) (free : divBlocked s d.asid = false) :
    exec (.drainImageArrival i) s = .next (drainArrive { s with net := { s.net with drains := dropAt s.net.drains i } } d) := by
  change execDrainImageArrival i s = _
  simp [execDrainImageArrival, stepOf, drain, first, free]

theorem drainArrive_gone {d : DrainMsg} (inside : inTenant t d.tenant (coreOfHwhere d.dst) = true)
    (gone : hartAt t (slotOfHwhere d.dst) = none) : drainArrive t d = ackDrain t d 0 true := by
  simp [drainArrive, inside, gone]

theorem drainArrive_resident {d : DrainMsg} {tm : Team} (inside : inTenant t d.tenant (coreOfHwhere d.dst) = true)
    (there : hartAt t (slotOfHwhere d.dst) = some h) (kernel : h.id.handler = false) (context : h.id.asid = d.asid)
    (team : teamOf t h = some tm) (alive : tm.stat ≠ .ended) (image : d.wakeOnly = false) (within : d.off + 1024 ≤ 4096 * tm.wins.length) :
    drainArrive t d = postWake (writeWins t (coreOfHwhere d.dst) tm.wins d.off d.uid d.data) d (slotOfHwhere d.dst) := by
  simp [drainArrive, inside, there, kernel, context, team, alive, image, within]

theorem exec_drainAck_done {a : DrainAckMsg} (ack : s.net.drainAcks[i]? = some a) (hart : hartOfUid s a.uid = some h)
    (entry : entryAt h a.seq = some e) (matrix : e.eng = .matrix) (inflight : e.st = .inflight) (ok : a.code = 0)
    (taken : t = { s with net := { s.net with drainAcks := dropAt s.net.drainAcks i } }) :
    exec (.drainAck i) s = .next
      (answerHart t a.uid fun h => countDrop (releaseRsv (doneEntry h a.seq) a.seq) (b2n a.dropped)) := by
  subst taken
  change execDrainAck i s = _
  have hart' : hartOfUid { s with net := { s.net with drainAcks := dropAt s.net.drainAcks i } } a.uid = some h := hart
  simp [execDrainAck, stepOf, ack, hart', entry, matrix, inflight, ok]

theorem exec_drainAck_held {a : DrainAckMsg} (ack : s.net.drainAcks[i]? = some a) (hart : hartOfUid s a.uid = some h)
    (entry : entryAt h a.seq = some e) (matrix : e.eng = .matrix) (inflight : e.st = .inflight) (refused : a.code ≠ 0)
    (slot : slotOfUid s a.uid = some k) (taken : t = { s with net := { s.net with drainAcks := dropAt s.net.drainAcks i } }) :
    exec (.drainAck i) s = .next
      (holdEntry t k h { e with part := e.part || a.code == 0x0205, await := false } a.code 0 e.lmask) := by
  subst taken
  change execDrainAck i s = _
  have hart' : hartOfUid { s with net := { s.net with drainAcks := dropAt s.net.drainAcks i } } a.uid = some h := hart
  have slot' : slotOfUid { s with net := { s.net with drainAcks := dropAt s.net.drainAcks i } } a.uid = some k := slot
  simp only [execDrainAck, stepOf, ack, hart', entry]
  refine congrArg Host.Outcome.next ((if_neg (by simp [matrix, inflight])).trans ((if_neg refused).trans ?_))
  rw [slot']

end

/-- Settles O41. -/
theorem matrixAndDrainEventsComplete : Obligations.MatrixAndDrainEventsComplete := by
  constructor
  · intro s k h e o c
    refine ⟨fun rest ⟨here, entry⟩ queue matrix inflight queued resident free room share =>
        exec_matrixDispatch here entry queue matrix inflight queued resident free room share,
      fun oldest ready => ⟨fun multiply free turn parity => exec_arrayStart oldest ready multiply free turn, fun free turn => ?_⟩,
      fun core op rest pipe done slot now multiply => exec_arrayWriteback pipe done slot now multiply,
      fun core op busy done slot now _ => exec_tilePortDone busy done slot now⟩
    have starts (notArray : isArrayOp e.instr = false) := exec_tilePortStart oldest ready notArray free turn
    refine ⟨fun plain => (starts ?_).trans (congrArg _ (portStart_plain plain)),
      fun tmovt parity => (starts (by rw [tmovt]; rfl)).trans (congrArg _ (portStart_tmovt tmovt parity)),
      fun tile inside => (starts ?_).trans (congrArg _ (portStart_tile tile inside)),
      fun drain checked => (starts (by rw [drain]; rfl)).trans (congrArg _ (portStart_tdrain drain checked))⟩
    · simp only [List.mem_cons, List.not_mem_nil, or_false] at plain
      rcases plain with i | i | i <;> rw [i] <;> rfl
    · simp only [List.mem_cons, List.not_mem_nil, or_false] at tile
      rcases tile with i | i <;> rw [i] <;> rfl
  · intro s i
    constructor
    · intro d drain first free t k inside
      have arrives := exec_drainImageArrival drain first free
      exact ⟨fun gone => arrives.trans (congrArg _ (drainArrive_gone inside gone)),
        fun h tm there kernel context team alive image within =>
          arrives.trans (congrArg _ (drainArrive_resident inside there kernel context team alive image within))⟩
    · intro a h e k ack hart entry matrix inflight t
      exact ⟨fun ok => exec_drainAck_done ack hart entry matrix inflight ok rfl,
        fun refused slot => exec_drainAck_held ack hart entry matrix inflight refused slot rfl⟩

/-! ## Steps of the copy engine (R216, R218, R224, R226, R281) -/

section
variable {s s1 s2 : State} {k : Nat} {h : Hart} {e : Entry} {j : CopyJob}

theorem entryNow_of_holds (holds : Holds s k h e) : entryNow s k e.seq = some (h, e) := by
  obtain ⟨here, entry⟩ := holds
  simp [entryNow, here, entry]

/-- A copy entry in flight at this stage takes its step. -/
theorem onCopy_of {stage : Stage} {f : Hart → Entry → State} (holds : Holds s k h e) (copy : e.eng = .copy) (inflight : e.st = .inflight)
    (alive : ctxDead s h.id.asid = false) (staged : e.stage = stage) : onCopy s k e.seq stage f = .next (f h e) := by
  simp [onCopy, stepOf, entryNow_of_holds holds, copy, inflight, alive, staged]

theorem copyStart_begins (mayBegin : copyMayBegin s k h e = true) (turn : outrankedCopy s k h = false)
    (free : ((coreAt s (coreOfSlot k)).copies.any fun j => !j.ready && !j.fin) = false) (checked : copyCheck s h e = none)
    (more : chunksLeft h e = true) :
    copyStart s k h e = updE (updCore { s with arbs := (notePick s (.copy (coreOfSlot k)) (hartCand k h) (copyRivals s k)).arbs }
      (coreOfSlot k) fun x => { x with copies := x.copies ++ [⟨h.id.uid, e.seq, mcTeams s h e, false, false, false, [], none, [], 0, 0, 0⟩] })
      k e.seq fun e => { e with stage := .running } := by
  simp [copyStart, mayBegin, turn, free, checked, more]

/-- The instruction adds to what its destination holds. -/
def copyAdds (i : Instr) : Bool := match copyForm i with
  | some (.add _ _, _) => true
  | _ => false

/-- A chunk whose pieces pass their checks and have been read is ready. -/
theorem phaseADone_read {oks : List (Piece × Option Loc × Option Loc)} {ws : List CopyWrite} (noError : j.hostErr = none)
    (checked : checkPieces s k h e (copyAdds e.instr) (chunkPieces h e) 0 = ((false, oks, []), s1))
    (read : readPieces s1 k h e.seq j oks 0 = (some ws, s2)) :
    phaseADone s k h e j = updJob s2 (coreOfSlot k) h.id.uid e.seq fun j =>
      { j with ready := true, writes := ws, advance := if isTensor ((copyForm e.instr).getD (.gg, 0)).1 then 1 else flatLen e, hostBuf := [] } := by
  unfold phaseADone
  split
  next w ty r form =>
    rw [show copyAdds e.instr = true by simp [copyAdds, form]] at checked
    simp only [checked, noError, read]
  next form =>
    rw [show copyAdds e.instr = false by unfold copyAdds; split; exacts [absurd ‹_› (form _ _ _), rfl]] at checked
    simp only [checked, noError, read]

theorem exec_copyPhaseADone (holds : Holds s k h e) (copy : e.eng = .copy) (inflight : e.st = .inflight) (alive : ctxDead s h.id.asid = false)
    (running : e.stage = .running) (job : (coreAt s (coreOfSlot k)).copies.find? (isJob h.id.uid e.seq) = some j) (notReady : j.ready = false)
    (notFin : j.fin = false) : exec (.copyPhaseADone k e.seq) s = .next (phaseADone s k h e j) := by
  change execCopyPhaseADone k e.seq s = _
  rw [execCopyPhaseADone, onCopy_of holds copy inflight alive running]
  simp only [job]
  exact congrArg _ (if_neg (by simp [notReady, notFin]))

theorem exec_copyPhaseBDone (holds : Holds s k h e) (copy : e.eng = .copy) (inflight : e.st = .inflight) (alive : ctxDead s h.id.asid = false)
    (running : e.stage = .running) (job : (coreAt s (coreOfSlot k)).copies.find? (isJob h.id.uid e.seq) = some j) (ready : j.ready = true) :
    exec (.copyPhaseBDone k e.seq) s = .next (phaseBDone s k h e j) := by
  change execCopyPhaseBDone k e.seq s = _
  rw [execCopyPhaseBDone, onCopy_of holds copy inflight alive running]
  simp only [job]
  exact congrArg _ (if_pos ready)

/-- The copy is over in its hart, if it is still in flight there. -/
def endCopy (g : Hart) (seq : Nat) : Hart := match entryAt g seq with
  | some e' => if e'.eng == .copy && e'.st == .inflight then doneEntry g seq else g
  | none => g

theorem exec_copyCompletion (holds : Holds s k h e)
    (job : (coreAt s (coreOfSlot k)).copies.find? (fun j => isJob h.id.uid e.seq j && j.fin) = some j)
    (performed : storesDone s (copyUid h.id.uid) .device = true) (first : earlierCopy s h e.seq = false) (free : divBlocked s h.id.asid = false) :
    exec (.copyCompletion k e.seq) s = .next (if h.id.handler then
      updUid (dropJob s (coreOfSlot k) h.id.uid e.seq) h.id.uid fun g => endCopy g e.seq
    else postAnywhere (dropJob s (coreOfSlot k) h.id.uid e.seq) h
      (copyMessage e.seq (j.closed.testBit 16) j.dropped (j.closed % 2 ^ 16) j.total 2) (hwhereOf k false) e.seq) := by
  change execCopyCompletion k e.seq s = _
  have found : ((hartOfSlot s k).findSome? fun hh =>
      ((coreAt s (coreOfSlot k)).copies.find? fun j => isJob hh.id.uid e.seq j && j.fin).map fun j => (hh, j)) = some (h, j) := by
    simp [hartOfSlot, holds.1, job]
  simp only [execCopyCompletion, found]
  exact congrArg Host.Outcome.next (if_neg (by simp [performed, first, free]))

end

/-! ## Window accesses and their answers (R262, R282 to R284) -/

section
variable {s : State} {i : Nat}

/-- The core that an access comes from, as the routers see it. -/
def accessSource (s : State) (a : WinAcc) : Nat := match slotAny s (a.uid % 2 ^ 60) with
  | some k => coreOfSlot k
  | none => a.core

/-- The access is answered. -/
def answerAccess (i : Nat) (a : WinAcc) (t : State) (r : WinAns) : State :=
  { t with net := { t.net with wins := dropAt t.net.wins i, winReps := t.net.winReps ++ [⟨a, r⟩] } }

/-- What an access that the routers pass is answered (R282, R283, R297). -/
def accessAnswer (s : State) (i : Nat) (a : WinAcc) : State :=
  let refused (r : WinAns) : State := if a.op = .sc then answerAccess i a (failSc s a).2 (.data (failSc s a).1) else answerAccess i a s r
  match accState s a with
  | .open_ => let r := performWin s a; answerAccess i a r.2 (.data r.1)
  | .loading => s
  | .closed => refused .closed
  | .moved => refused .moved

theorem exec_windowAccessArrival_passes {a : WinAcc} (access : s.net.wins[i]? = some a)
    (first : ((s.net.wins.take i).any fun x => x.uid == a.uid && x.core == a.core) = false)
    (passes : routersPass s a.tenant (some (accessSource s a)) a.core = true) :
    exec (.windowAccessArrival i) s = .next (accessAnswer s i a) := by
  change execWindowAccessArrival i s = _
  simp only [execWindowAccessArrival, stepOf, access]
  exact congrArg Host.Outcome.next ((if_neg (by simp [first])).trans (if_neg (Bool.eq_false_iff.mp ((congrArg (!·) passes).trans rfl))))

theorem exec_windowAccessArrival_blocked {a : WinAcc} (access : s.net.wins[i]? = some a)
    (first : ((s.net.wins.take i).any fun x => x.uid == a.uid && x.core == a.core) = false)
    (blocked : routersPass s a.tenant (some (accessSource s a)) a.core = false) :
    exec (.windowAccessArrival i) s = .next (contextFault { s with net := { s.net with wins := dropAt s.net.wins i } } a.asid 4) := by
  change execWindowAccessArrival i s = _
  simp only [execWindowAccessArrival, stepOf, access]
  exact congrArg Host.Outcome.next ((if_neg (by simp [first])).trans (if_pos ((congrArg (!·) blocked).trans rfl)))

theorem accessAnswer_open {a : WinAcc} (opened : accState s a = .open_) :
    accessAnswer s i a = answerAccess i a (performWin s a).2 (.data (performWin s a).1) := by
  simp only [accessAnswer, opened]

theorem accessAnswer_closed {a : WinAcc} (shut : accState s a = .closed) :
    accessAnswer s i a = if a.op = .sc then answerAccess i a (failSc s a).2 (.data (failSc s a).1) else answerAccess i a s .closed := by
  simp only [accessAnswer, shut]

theorem accessAnswer_moved {a : WinAcc} (moved : accState s a = .moved) :
    accessAnswer s i a = if a.op = .sc then answerAccess i a (failSc s a).2 (.data (failSc s a).1) else answerAccess i a s .moved := by
  simp only [accessAnswer, moved]

theorem exec_windowReply_data {r : WinRep} {bs : List Byte} (reply : s.net.winReps[i]? = some r) (data : r.ans = .data bs) :
    exec (.windowReply i) s = .next (deliverWin { s with net := { s.net with winReps := dropAt s.net.winReps i } } r.acc bs) := by
  change execWindowReply i s = _
  simp only [execWindowReply, stepOf, reply, data]

theorem exec_windowReply_closed {r : WinRep} (reply : s.net.winReps[i]? = some r) (shut : r.ans = .closed) :
    exec (.windowReply i) s = .next (refuseWin { s with net := { s.net with winReps := dropAt s.net.winReps i } } r.acc) := by
  change execWindowReply i s = _
  simp only [execWindowReply, stepOf, reply, shut]

end

/-- Settles O42. -/
theorem copyAndWindowEventsComplete : Obligations.CopyAndWindowEventsComplete := by
  constructor
  · intro s k h e c job holds copy inflight alive
    refine ⟨fun queued resident mayBegin turn free checked more => ?_, fun j running found => ⟨fun s1 s2 oks ws notReady notFin noError checked read => ?_,
      fun ready => exec_copyPhaseBDone holds copy inflight alive running found ready⟩, fun j found performed first free => ⟨fun handler => ?_, fun kernel => ?_⟩⟩
    · change execCopyStart k e.seq s = _
      rw [execCopyStart, onCopy_of holds copy inflight alive queued]
      exact congrArg Host.Outcome.next ((if_neg (by simp [resident])).trans (copyStart_begins mayBegin turn free checked more))
    · exact (exec_copyPhaseADone holds copy inflight alive running found notReady notFin).trans (congrArg _ (phaseADone_read noError checked read))
    · exact (exec_copyCompletion holds found performed first free).trans (congrArg _ (if_pos handler))
    · exact (exec_copyCompletion holds found performed first free).trans (congrArg _ (if_neg (by simp [kernel])))
  · intro s i
    constructor
    · intro a access first reply passes
      have answered (p : passes = true) := exec_windowAccessArrival_passes access first p
      refine ⟨fun blocked => exec_windowAccessArrival_blocked access first blocked,
        fun p opened => (answered p).trans (congrArg _ (accessAnswer_open opened)),
        fun p shut sc => (answered p).trans (congrArg _ ((accessAnswer_closed shut).trans (if_pos sc))),
        fun p shut notSc => (answered p).trans (congrArg _ ((accessAnswer_closed shut).trans (if_neg notSc))),
        fun p moved notSc => (answered p).trans (congrArg _ ((accessAnswer_moved moved).trans (if_neg notSc)))⟩
    · intro r reply t
      exact ⟨fun bs data => exec_windowReply_data reply data, fun shut => exec_windowReply_closed reply shut⟩

end Sys2Proof.Machine
end

section
/-! Messages, reduction slots and homes (O43, O44). -/

namespace Sys2Proof.Machine

/-! ## The message engine (R266, R267, R269, R270, R275, R276) -/

section
variable {s s1 t : State} {i k core : Nat} {h : Hart} {e : Entry} {o : Eops} {m : Msg}

/-- The engine notes its pick unless the entry stays as it was. -/
def servedWith (s : State) (k : Nat) (h : Hart) (e : Entry) (t : State) : State :=
  if entryNow t k e.seq ≠ some (h, e) then { t with arbs := (notePick s (.send (coreOfSlot k)) (hartCand k h) (sendRivals s k)).arbs } else t

theorem exec_sendService (holds : Holds s k h e) (message : e.eng = .message) (inflight : e.st = .inflight) (queued : e.stage = .queued)
    (resident : h.capture = none) (first : olderMessage h e = false) (alive : ctxDead s h.id.asid = false)
    (turn : picks s (.send (coreOfSlot k)) (hartCand k h) (sendRivals s k) = true) (served : serveEntry s k h e = t) :
    exec (.sendService k e.seq) s = .next (servedWith s k h e t) := by
  subst served
  change execSendService k e.seq s = _
  have may : servable s h e = true := by simp [servable, message, inflight, queued, resident, first, alive]
  simp only [execSendService, stepOf, entryNow_of_holds holds]
  exact congrArg Host.Outcome.next ((if_neg (by simp [may, turn])).trans (if_congr bne_iff_ne rfl rfl))

theorem serveEntry_msend {q : SendEntry} (send : e.instr = .msend o) (queue : sendEntryOf h e.seq = some q)
    (good : targetBad e.opa.toNat e.lmask.toNat = false) (target : sendTarget s k h e = (.core core, s1))
    (inside : inTenant s1 h.id.tenant core = true) (released : sendReleased s1 h e (coverScope (coreOfSlot k) core) = true) :
    serveEntry s k h e = inject s1 k e.seq (sendMessage s1 k h e core (coverScope (coreOfSlot k) core) q [] 0) := by
  simp [serveEntry, send, serveSend, queue, good, target, inside, released]

theorem serveEntry_msendr (reply : e.instr = .msendr o)
    (released : sendReleased s h e (coverScope (coreOfSlot k) (coreOfHwhere h.msg.origin.toNat)) = true) :
    serveEntry s k h e = sendReply (updHart s k fun h => doneEntry h e.seq) k h e.seq e.opa e.lmask := by
  simp [serveEntry, reply, released]

theorem serveEntry_mrecv {msg : InboxMsg} {rest : List InboxMsg} (recv : e.instr = .mrecv o) (inbox : h.msg.inbox = msg :: rest) :
    serveEntry s k h e = acquireAt (setHart s k (doneEntry
      (deliverX (wx { h with msg := { h.msg with inbox := rest } } (xreg o.vd) msg.w0) e.seq (xreg o.vs1) msg.w1) e.seq)) k
      (scopeNat msg.scope) := by
  simp [serveEntry, recv, serveRecv, inbox]

theorem serveEntry_mackrd (read : e.instr = .mackrd o)
    (first : ((pendingEntries h).any fun f => before f e && f.eng == .matrix && inQueue f) = false) :
    serveEntry s k h e = setHart s k (doneEntry
      (deliverX (if o.vs3 = 6 then { h with msg := { h.msg with event := 0 } } else h) e.seq (xreg o.vd)
        (BitVec.ofNat 64 (ackValue h o.vs3.toNat))) e.seq) := by
  have serves : serveEntry s k h e = serveAck s k h e o := by simp only [serveEntry, read]
  exact serves.trans (if_neg (by rw [first]; exact Bool.false_ne_true))

/-! ## Acknowledgements and arrivals (R268, R272, R274, R278, R279) -/

theorem exec_messageAck_done {a : AckMsg} (ack : s.net.acks[i]? = some a) (hart : hartOfUid s a.uid = some h) (entry : entryAt h a.seq = some e)
    (message : e.eng = .message) (inflight : e.st = .inflight) (ok : a.code = 0)
    (taken : t = { s with net := { s.net with acks := dropAt s.net.acks i } }) :
    exec (.messageAck i) s = .next (answerHart t a.uid fun h => freeSend (doneEntry h a.seq) a.seq) := by
  subst taken
  change execMessageAck i s = _
  have hart' : hartOfUid { s with net := { s.net with acks := dropAt s.net.acks i } } a.uid = some h := hart
  simp only [execMessageAck, stepOf, ack, hart', entry]
  exact congrArg Host.Outcome.next ((if_neg (by simp [message, inflight])).trans (if_pos ok))

theorem exec_messageAck_held {a : AckMsg} (ack : s.net.acks[i]? = some a) (hart : hartOfUid s a.uid = some h) (entry : entryAt h a.seq = some e)
    (message : e.eng = .message) (inflight : e.st = .inflight) (refused : a.code ≠ 0) (slot : slotOfUid s a.uid = some k)
    (taken : t = { s with net := { s.net with acks := dropAt s.net.acks i } }) :
    exec (.messageAck i) s = .next (holdEntry t k
      { h with msg := { h.msg with sendq := h.msg.sendq.map fun q => if q.used && q.seq == a.seq then { q with sent := false } else q } }
      { e with await := false } a.code 0 e.opa) := by
  subst taken
  change execMessageAck i s = _
  have hart' : hartOfUid { s with net := { s.net with acks := dropAt s.net.acks i } } a.uid = some h := hart
  have slot' : slotOfUid { s with net := { s.net with acks := dropAt s.net.acks i } } a.uid = some k := slot
  simp only [execMessageAck, stepOf, ack, hart', entry]
  refine congrArg Host.Outcome.next ((if_neg (by simp [message, inflight])).trans ((if_neg refused).trans ?_))
  rw [slot']

theorem exec_inboxMessageArrival (msg : s.net.msgs[i]? = some m) (inbox : m.kind = .inbox) (ordered : outOfOrder s i m = false)
    (free : divBlocked s m.asid = false) (context : ctxFree s m.asid = true)
    (home : homeFree s (awayBase s m.asid + 16 * slotOfHwhere m.dst) 16 = true)
    (passes : routersPass s m.tenant (srcCore m) (coreOfHwhere m.dst) = true)
    (taken : t = { s with net := { s.net with msgs := dropAt s.net.msgs i } }) :
    exec (.inboxMessageArrival i) s = .next (arriveInbox t m) := by
  subst taken
  change execInboxMessageArrival i s = _
  have passes' : routersPass { s with net := { s.net with msgs := dropAt s.net.msgs i } } m.tenant (srcCore m) (coreOfHwhere m.dst) = true := passes
  simp only [execInboxMessageArrival, stepOf, msg]
  exact congrArg Host.Outcome.next ((if_neg (by simp [inbox, ordered, free, context, home])).trans (if_neg (by simp [passes'])))

theorem arriveInbox_resident {tm : Team} {u : State} (there : hartAt s (slotOfHwhere m.dst) = some h) (kernel : h.id.handler = false)
    (context : h.id.asid = m.asid) (team : h.id.teamNo % 2 ^ 24 = m.teamNo)
    (reserved : m.reserved = true → h.id.uid = m.forUid ∧ (hartOfUid s m.forUid).isSome = true) (of : teamOf s h = some tm)
    (within : m.off + m.body.length ≤ 4096 * tm.wins.length) (posted : postHart s (slotOfHwhere m.dst) h (inboxOf m) m.src m.seq = some u) :
    arriveInbox s m = ackMsg (writeBody u tm m.off m.uid m.body false) m 0 := by
  have asker : (m.reserved && (hartOfUid s m.forUid).isNone) = false := by
    cases r : m.reserved
    · rfl
    · simp [Option.isNone_eq_false_iff, (reserved r).2]
  have mine : (!m.reserved || h.id.uid == m.forUid) = true := by
    cases r : m.reserved
    · rfl
    · simp [(reserved r).1]
  simp only [arriveInbox]
  rw [if_neg (by rw [asker]; exact Bool.false_ne_true)]
  simp only [there, kernel, context, team, mine, of, posted]
  exact (if_pos (by simp)).trans (if_neg (by omega))

theorem exec_handlerMessageArrival (msg : s.net.msgs[i]? = some m) (handler : m.kind = .handler) (ordered : outOfOrder s i m = false)
    (passes : routersPass s m.tenant (srcCore m) (coreOfHwhere m.dst) = true) (room : (coreAt s (coreOfHwhere m.dst)).hq.length < 64)
    (share : m.net = 0 ∨ ((coreAt s (coreOfHwhere m.dst)).hq.filter fun q => q.msg.net != 0).length < 60)
    (taken : t = { s with net := { s.net with msgs := dropAt s.net.msgs i } }) :
    exec (.handlerMessageArrival i) s = .next (ackMsg (updCore t (coreOfHwhere m.dst) fun c =>
      { c with hq := c.hq ++ [{ msg := m, clk := coreClk t (coreOfHwhere m.dst) }] }) m 0) := by
  subst taken
  change execHandlerMessageArrival i s = _
  simp only [execHandlerMessageArrival, stepOf, msg]
  refine congrArg Host.Outcome.next ((if_neg (by simp [handler, ordered])).trans ((if_neg (by simp [passes])).trans (if_neg ?_)))
  rcases share with first | share
  · simp [first, room]
  · simp [room, share]

theorem exec_handlerMessageArrival_blocked (msg : s.net.msgs[i]? = some m) (handler : m.kind = .handler) (ordered : outOfOrder s i m = false)
    (blocked : routersPass s m.tenant (srcCore m) (coreOfHwhere m.dst) = false) :
    exec (.handlerMessageArrival i) s = .next (tenantViolation { s with net := { s.net with msgs := dropAt s.net.msgs i } } m) := by
  change execHandlerMessageArrival i s = _
  simp only [execHandlerMessageArrival, stepOf, msg]
  exact congrArg Host.Outcome.next ((if_neg (by simp [handler, ordered])).trans (if_pos (by simp [blocked])))

theorem exec_diversionRefill {tm : Team} (here : hartAt s k = some h) (team : teamOf s h = some tm) (room : h.msg.inbox.length < 16)
    (diverted : 0 < h.msg.divRecs) (resident : h.capture = none) (free : homeFree s (divBase tm.recPa) 0x10000 = true)
    (whole : lostRead s (divBase tm.recPa) 0x10000 = false) : exec (.diversionRefill k) s = .next (refill s k h tm.recPa) := by
  change execDiversionRefill k s = _
  simp only [execDiversionRefill, stepOf, here, team]
  exact congrArg Host.Outcome.next ((if_pos (by simp [room, diverted, resident, free])).trans (if_neg (by simp [whole])))

theorem exec_handlerStart {q : HqEntry} {rest : List Nat} (waiting : (coreAt s core).hq[i]? = some q) (slots : freeHandlerSlots s core = k :: rest)
    (alive : ctxDead s q.msg.asid = false) (turn : handlerTurn s core i q.msg = true) (saved : savedHandlerFirst s core q.msg = false)
    (loose : (ctxOf s q.msg.asid).hold = false) :
    exec (.handlerStart core i) s = .next
      (startHandler { s with arbs := (notePick s (.handler core) (msgCand i q.msg) (handlerRivals s (coreAt s core).hq i)).arbs } core i k q.msg) := by
  change execHandlerStart core i s = _
  simp only [execHandlerStart, stepOf, waiting, slots]
  exact congrArg Host.Outcome.next ((if_neg (by simp [alive])).trans (if_neg (by simp [turn, saved, loose])))

theorem exec_handlerCaptureTimeout {pool : List (Nat × Hart)} (pooled : pool = s.harts.filter fun p => coreOfSlot p.1 == core && p.2.id.handler)
    (waits : ((coreAt s core).hq.any fun q => q.msg.cls == 0 && q.clk + 256 ≤ coreClk s core) = true) (full : freeHandlerSlots s core = [])
    (lower : (pool.any fun p => p.2.id.cls == 0 || p.2.capture.isSome) = false) :
    exec (.handlerCaptureTimeout core) s = .next
      (updUid s (pool.foldl (fun a p => max a p.2.id.uid) 0) fun h => { h with capture := some s.clock.clk }) := by
  subst pooled
  change execHandlerCaptureTimeout core s = _
  simp only [execHandlerCaptureTimeout, stepOf]
  exact congrArg Host.Outcome.next (if_neg (by rw [waits, full, lower]; simp))

end

/-- Settles O43. The address that a refused send reports is its target word: that is the model's reading (log 63). -/
theorem sendsAndArrivalsComplete : Obligations.SendsAndArrivalsComplete := by
  constructor
  · intro s k h e o holds message inflight
    constructor
    · intro queued resident first alive turn serves
      have served {t : State} (e' : serveEntry s k h e = t) := exec_sendService holds message inflight queued resident first alive turn e'
      exact ⟨fun q s1 core send queue good target inside released => served (serveEntry_msend send queue good target inside released),
        fun reply released => served (serveEntry_msendr reply released), fun m rest recv inbox => served (serveEntry_mrecv recv inbox),
        fun read older => served (serveEntry_mackrd read older)⟩
    · intro i a ack same hart t
      have entry : entryAt h a.seq = some e := same ▸ holds.2
      exact ⟨fun ok => exec_messageAck_done ack hart entry message inflight ok rfl,
        fun refused slot => exec_messageAck_held ack hart entry message inflight refused slot rfl⟩
  · intro s i k core
    refine ⟨?_, fun h tm j here team room diverted resident free whole _ _ _ => ?_,
      fun q rest waiting slots alive turn saved loose => exec_handlerStart waiting slots alive turn saved loose, ?_⟩
    · intro m msg ordered ready t
      refine ⟨fun h tm u inbox passes slot here kernel context team reserved of within posted => ?_,
        fun handler passes room share => exec_handlerMessageArrival msg handler ordered passes room share rfl,
        fun handler blocked => exec_handlerMessageArrival_blocked msg handler ordered blocked⟩
      obtain ⟨free, ctx, home⟩ := ready inbox
      subst slot
      exact (exec_inboxMessageArrival msg inbox ordered free ctx home passes rfl).trans
        (congrArg _ (arriveInbox_resident (s := t) here kernel context team reserved of within posted))
    · exact exec_diversionRefill here team room diverted resident free whole
    · intro pool waits full lower
      exact exec_handlerCaptureTimeout rfl waits full lower

/-! ## The reduction slots (R204, R206 to R208, R303) -/

section
variable {s : State} {i md : Nat}

/-- What an open request is answered (R204). -/
def openAnswer (t : State) (uid seq asid pa fmt count : Nat) : State :=
  let n := firstBelow 1024 fun j => (tget t.reds.slots (1024 * homeOf pa + j)).isNone
  if (slotFor t pa).isSome then redReply t uid seq 2
  else if n ≥ 1024 || csFree t (homeOf pa) < count then redReply t uid seq 1
  else redReply { t with reds := { t.reds with slots := tput t.reds.slots (1024 * homeOf pa + n) ⟨.open_, pa, asid, fmt, count, 0, []⟩ } } uid seq 0

theorem exec_vredOpenRequest {uid seq asid pa fmt count : Nat} (request : s.reds.auq[i]? = some (.openReq uid seq asid pa fmt count))
    (first : auFirst s i uid pa = true) : exec (.vredOpenRequest i) s = .next (openAnswer (dropAu s i) uid seq asid pa fmt count) := by
  change execVredOpenRequest i s = _
  simp only [execVredOpenRequest, stepOf, request]
  exact congrArg Host.Outcome.next (if_neg (by simp [first]))

theorem exec_contributionArrival {uid seq asid pa fmt : Nat} {c : Contrib}
    (request : s.reds.auq[i]? = some (.contribution uid seq asid pa fmt c)) (first : auFirst s i uid pa = true) {t : State}
    (taken : t = dropAu s i) : exec (.contributionArrival i) s = .next
      (redReply (if contribStatus t asid pa fmt = 0 then storeContrib t pa c else t) uid seq (contribStatus t asid pa fmt)) := by
  subst taken
  change execContributionArrival i s = _
  simp only [execContributionArrival, stepOf, request]
  exact congrArg Host.Outcome.next (if_neg (by simp [first]))

theorem exec_fragmentArrival {uid asid pa fmt : Nat} {c : Contrib} (request : s.reds.auq[i]? = some (.fragment uid asid pa fmt c)) :
    exec (.fragmentArrival i) s = .next (if contribStatus s asid pa fmt ≠ 0 then dropAu s i
      else if csFree s (homeOf pa) = 0 then s else storeContrib (dropAu s i) pa c) := by
  change execFragmentArrival i s = _
  simp only [execFragmentArrival, stepOf, request]

/-- Bytes of a slot's sum. -/
def sumBytes (z : RedSlot) : Nat := if z.fmt = 0 ∨ z.fmt = 2 then 4 else 8

/-- A line of the sum or of a contribution is lost (R305). -/
def slotLost (s : State) (md : Nat) (z : RedSlot) : Bool :=
  lostRead s z.pa (sumBytes z) || z.contribs.any fun c => isLost s (lineOf (areaLine s md c.line))

theorem exec_slotApply_lost {z : RedSlot} (slot : tget s.reds.slots (1024 * md + i) = some z) (applying : z.st = .applying) (small : i < 1024)
    (gone : slotLost s md z = true) : exec (.slotApply md i) s = .next (contextFault s z.asid 3) := by
  change execSlotApply md i s = _
  simp only [execSlotApply, stepOf, slot]
  exact congrArg Host.Outcome.next ((if_neg (by simp [applying, small])).trans (if_pos gone))

theorem exec_slotApply {z : RedSlot} (slot : tget s.reds.slots (1024 * md + i) = some z) (applying : z.st = .applying) (small : i < 1024)
    (whole : slotLost s md z = false) (ready : readyAll s 4 z.pa (sumBytes z) = true) {t : State}
    (written : t = homeWrite s 0 z.pa (leBytes (sumBytes z) (slotSum z))) :
    exec (.slotApply md i) s = .next { t with reds := { t.reds with slots := tdel t.reds.slots (1024 * md + i) } } := by
  subst written
  change execSlotApply md i s = _
  simp only [execSlotApply, stepOf, slot]
  refine congrArg Host.Outcome.next ((if_neg (by simp [applying, small])).trans ((if_neg ?_).trans (if_neg ?_)))
  · exact Bool.eq_false_iff.mp whole
  · exact Bool.eq_false_iff.mp (congrArg (!·) ready)

theorem exec_vredReply {r : VredReply} (reply : s.reds.vreps[i]? = some r) :
    exec (.vredReply i) s = .next (answerHart { s with reds := { s.reds with vreps := dropAt s.reds.vreps i } } r.uid fun h =>
      match entryAt h r.seq with
      | some e => (match e.instr with
        | .vredOpen o | .vredFlush o =>
          if e.st == .inflight && e.await then doneEntry (deliverX h r.seq (xreg o.vd) (BitVec.ofNat 64 r.status)) r.seq else h
        | _ => h)
      | none => h) := by
  refine (rfl : _ = execVredReply i s).trans ?_
  unfold execVredReply
  rw [reply]
  exact rfl

end

/-! ## The homes (R49, R289 to R291, R294, R299, R306, R307, R355) -/

section
variable {s t : State} {i md : Nat}

theorem touchMsc_lost (m : MemSys) (line : Nat) : (touchMsc m line).lost = m.lost := by
  unfold touchMsc
  split <;> rfl

/-- Without an error at its reading, a line loses nothing. -/
theorem takeAt_whole {r : HomeReq} (may : canTake s i r = true)
    (whole : isLost s (lineOf r.pa) = false ∨ wholeLine r = true ∨ r.kind = .scrub)
    (taken : t = updMem s fun m => { m with homeq := dropAt m.homeq i }) :
    takeAt s i 0 r = takeReq (if r.kind = .scrub then t else updMem t fun m => touchMsc m (lineOf r.pa)) r := by
  have same : isLost (if r.kind = .scrub then t else updMem t fun m => touchMsc m (lineOf r.pa)) (lineOf r.pa) = isLost s (lineOf r.pa) := by
    subst taken
    split
    · rfl
    · simp only [isLost, lostOf, updMem, touchMsc_lost]
  subst taken
  simp only [takeAt]
  rw [if_neg (by simp [may])]
  have quiet : eccEvent (updMem s fun m => { m with homeq := dropAt m.homeq i }) (lineOf r.pa) 0 =
      updMem s fun m => { m with homeq := dropAt m.homeq i } := rfl
  simp only [quiet, ite_self, beq_iff_eq]
  refine if_neg ?_
  rw [same]
  rcases whole with w | w | w <;> simp [w]

theorem exec_homeRequest {r : HomeReq} (request : s.mem.homeq[i]? = some r) (home : isAu r = false) :
    exec (.homeRequest i 0) s = .next (takeAt s i 0 r) := by
  change execHomeRequest i 0 s = _
  simp only [execHomeRequest, stepOf, request]
  exact congrArg Host.Outcome.next (if_neg (by simp [home]))

theorem exec_auAtomic {r : HomeReq} (request : s.mem.homeq[i]? = some r) (au : isAu r = true) :
    exec (.auAtomic i 0) s = .next (takeAt s i 0 r) := by
  change execAuAtomic i 0 s = _
  simp only [execAuAtomic, stepOf, request]
  exact congrArg Host.Outcome.next (if_pos au)

/-- A held request no longer waits for a write-back that has come. -/
def heardBack (w : WriteBackMsg) (b : Busy) : Busy :=
  if lineOf b.req.pa == w.line then { b with waitWb := b.waitWb.filter (· != w.die) } else b

theorem exec_writeBack {w : WriteBackMsg} (write : s.mem.wbs[i]? = some w)
    (applied : t = applyDirty (updMem s fun m => { m with wbs := dropAt m.wbs i }) w.line w.data w.late) :
    exec (.writeBack i) s = .next (advanceBusy (updMem t fun m => { m with busy := m.busy.map (heardBack w) }) w.line) := by
  subst applied
  change execWriteBack i s = _
  unfold execWriteBack
  rw [write]
  exact rfl

/-- A slice gives a snooped line up with its answer. -/
def snooped (s : State) (i : Nat) (q : SnoopMsg) (a : SnoopAns) (late : List Nat) : State :=
  updMem (setRdc s q.die q.line none) fun m => { m with snoops := dropAt m.snoops i, sreps := m.sreps ++ [⟨q.die, q.line, a, late⟩] }

theorem exec_snoop_dirty {q : SnoopMsg} {bs : List Byte} {late : List Nat} (snoop : s.mem.snoops[i]? = some q)
    (dirty : rdcAt s q.die q.line = some ⟨some bs, late⟩) : exec (.snoop i) s = .next (snooped s i q (.data bs) late) := by
  change execSnoop i s = _
  simp only [execSnoop, stepOf, snoop, dirty, snooped]

theorem exec_snoop_clean {q : SnoopMsg} (snoop : s.mem.snoops[i]? = some q)
    (clean : ∀ bs late, rdcAt s q.die q.line ≠ some ⟨some bs, late⟩) :
    exec (.snoop i) s = .next (snooped s i q (if (wbDies s q.line).contains q.die then .wbPending else .miss) []) := by
  change execSnoop i s = _
  cases found : rdcAt s q.die q.line with
  | none => simp only [execSnoop, stepOf, snoop, snooped, found]
  | some r =>
    obtain ⟨data, late⟩ := r
    cases data with
    | none => simp only [execSnoop, stepOf, snoop, snooped, found]
    | some bs => exact absurd found (clean bs late)

theorem exec_snoopReply_data {r : SnoopRep} {bs : List Byte} (reply : s.mem.sreps[i]? = some r) (data : r.ans = .data bs)
    (taken : t = updMem s fun m => { m with sreps := dropAt m.sreps i }) :
    exec (.snoopReply i) s = .next (advanceBusy (answered (applyDirty t r.line bs r.late) r.line r.die false) r.line) := by
  subst taken
  change execSnoopReply i s = _
  simp only [execSnoopReply, stepOf, reply, data]
  rfl

theorem exec_snoopReply_empty {r : SnoopRep} (reply : s.mem.sreps[i]? = some r) (empty : ∀ bs, r.ans ≠ .data bs)
    (taken : t = updMem s fun m => { m with sreps := dropAt m.sreps i }) :
    exec (.snoopReply i) s =
      .next (advanceBusy (answered t r.line r.die (r.ans == .wbPending && (wbDies t r.line).contains r.die)) r.line) := by
  subst taken
  change execSnoopReply i s = _
  cases answer : r.ans with
  | data bs => exact absurd answer (empty bs)
  | _ => simp only [execSnoopReply, stepOf, reply, answer]

theorem exec_patrolScrub (stack : md < 8) (on : (regD s (mdBase md + 0x68) 0x1801).testBit 0 = true)
    (idle : (s.mem.homeq.any fun r => r.kind == .scrub && homeOf r.pa == md) = false) :
    exec (.patrolScrub md 0) s = .next (pushReq { s with nextUid := s.nextUid + 1 }
      ⟨s.nextUid, 4, 0, 0, noAsid, paOfStack md (reg s (mdBase md + 0x70)), .scrub, leBytes 1 0, .none, false, [], false⟩) := by
  change execPatrolScrub md 0 s = _
  simp only [execPatrolScrub, stepOf]
  exact congrArg Host.Outcome.next ((if_neg (by simp [stack, on])).trans (if_neg (by rw [idle]; exact Bool.false_ne_true)))

theorem exec_bisnpAnswer {port line : Nat} (data : List Byte) (held : s.mem.hostHeld.contains (port, line) = true)
    (taken : t = updMem s fun m => { m with hostHeld := m.hostHeld.filter (· != (port, line)) }) :
    exec (.bisnpAnswer port line data) s = .next
      (advanceBusy (answered (if data.length = 128 then applyDirty t line data [] else t) line (4 + port) false) line) := by
  subst taken
  change execBisnpAnswer port line data s = _
  simp only [execBisnpAnswer, stepOf]
  exact congrArg Host.Outcome.next (if_pos held)

end

/-- Settles O44. -/
theorem reductionAndHomeEventsComplete : Obligations.ReductionAndHomeEventsComplete := by
  constructor
  · intro s i md
    refine ⟨?_, ?_, ?_, ?_, fun r reply => exec_vredReply reply, rfl, fun asid => rfl⟩
    · intro uid seq asid pa fmt count request first t n
      have answers := exec_vredOpenRequest request first
      exact ⟨fun busy => answers.trans (congrArg _ (if_pos busy)),
        fun none full => answers.trans (congrArg _ ((if_neg (by rw [none]; exact Bool.false_ne_true)).trans (if_pos (by simp only [Bool.or_eq_true, decide_eq_true_eq]; exact full)))),
        fun none slot room => answers.trans (congrArg _ ((if_neg (by rw [none]; exact Bool.false_ne_true)).trans
          (if_neg (by simp only [Bool.or_eq_true, decide_eq_true_eq]; exact not_or.mpr ⟨not_le.mpr slot, not_lt.mpr room⟩))))⟩
    · intro uid seq asid pa fmt c request first t
      exact exec_contributionArrival request first rfl
    · intro uid asid pa fmt c request
      have arrives := exec_fragmentArrival request
      exact ⟨fun refused => arrives.trans (congrArg _ (if_pos refused)),
        fun ok room => arrives.trans (congrArg _ ((if_neg (not_not.mpr ok)).trans (if_neg room)))⟩
    · intro z slot applying small n gone
      exact ⟨fun lost => exec_slotApply_lost slot applying small lost, fun whole ready => exec_slotApply slot applying small whole ready rfl⟩
  · intro s i md
    refine ⟨?_, ?_, ?_, ?_, fun stack => ⟨fun on idle => exec_patrolScrub stack on idle, ?_, ?_⟩, ?_⟩
    · intro r request may whole t u
      have taken := takeAt_whole may whole rfl
      exact ⟨fun home => (exec_homeRequest request home).trans (congrArg _ taken), fun au => (exec_auAtomic request au).trans (congrArg _ taken)⟩
    · intro w write t heard
      exact exec_writeBack write rfl
    · intro q snoop goes
      exact ⟨fun bs late dirty => exec_snoop_dirty snoop dirty, fun clean => exec_snoop_clean snoop clean⟩
    · intro r reply t
      refine ⟨fun bs data => exec_snoopReply_data reply data rfl, fun miss => ?_, fun pending => ?_⟩
      · refine (exec_snoopReply_empty reply (by simp [miss]) rfl).trans ?_
        rw [miss]
        rfl
      · refine (exec_snoopReply_empty reply (by simp [pending]) rfl).trans ?_
        rw [pending]
        rfl
    · exact congrArg Host.Outcome.next (if_pos stack)
    · exact congrArg Host.Outcome.next (if_pos stack)
    · intro port line data held t
      exact exec_bisnpAnswer data held rfl

end Sys2Proof.Machine
end

section
/-! Translation, page requests and the front end's queues (O45 to O48). -/

namespace Sys2Proof.Machine

/-! ## Table walks and fault records (R312 to R316, R321 to R323) -/

section
variable {s s1 t : State} {i : Nat}

theorem exec_translationRequest {k : Nat} {h : Hart} {va : Word} {wr : Bool} {satp : Word} {here : List Walk} (there : hartAt s k = some h)
    (canon : canonical va = true) (translated : dataMode h ≠ .m) (table : satp = (ctxOf s h.id.asid).satp)
    (walking : here = slicesWalks s (dieOfSlot k) (sliceOf va)) (mode : satp.toNat / 2 ^ 60 = 15)
    (misses : ((sliceAt s (dieOfSlot k) (sliceOf va)).tlb.any (tlbHit h.id.asid (vpnOf va))) = false)
    (first : (here.any fun w => w.asid == h.id.asid && w.vpn == vpnOf va) = false) (room : here.length < 4) :
    exec (.translationRequest k va wr) s = .next (updXl s fun x => { x with walks := x.walks ++
      [⟨dieOfSlot k, sliceOf va, h.id.asid, vpnOf va, 3, satp.toNat % 2 ^ 44 * 4096, [], wr, dataMode h,
        wbit h.s.mstatus msSUM, wbit h.s.mstatus msMXR⟩] }) := by
  subst table walking
  change execTranslationRequest k va wr s = _
  simp only [execTranslationRequest, stepOf, there]
  refine congrArg Host.Outcome.next (if_neg ?_)
  rw [misses, first, canon, decide_eq_false translated, decide_eq_false (not_not.mpr mode), decide_eq_false (not_le.mpr room)]
  exact Bool.false_ne_true

/-- The walk is over. -/
def dropWalk (i : Nat) (t : State) : State := updXl t fun x => { x with walks := dropAt x.walks i }

theorem exec_pteReadResponse_fault {w : Walk} {c : Nat} (walk : s.xl.walks[i]? = some w)
    (read : pteStep s w.die w.slice w.asid w.vpn w.level w.table = (.fault c, s1)) :
    exec (.pteReadResponse i) s = .next (dropWalk i s1) := by
  change execPteReadResponse i s = _
  simp only [execPteReadResponse, stepOf, walk, read, dropWalk]

theorem exec_pteReadResponse_next {w : Walk} {a : Nat} {entries : List WalkEntry} (walk : s.xl.walks[i]? = some w)
    (read : pteStep s w.die w.slice w.asid w.vpn w.level w.table = (.next a entries, s1)) (inner : w.level ≠ 0) :
    exec (.pteReadResponse i) s = .next (updXl s1 fun x => { x with walks := updAt x.walks i fun w =>
      { w with level := w.level - 1, table := a, ptrs := entries ++ w.ptrs } }) := by
  change execPteReadResponse i s = _
  simp only [execPteReadResponse, stepOf, walk, read]
  exact congrArg Host.Outcome.next (if_neg inner)

/-- A leaf grants the access that the walk is for. -/
def leafGrants (w : Walk) (p : Nat) : Bool :=
  (leafFault w.vpn w.level 0 p).isNone && (permFault p (if w.write then .store else .load) w.mode w.sum w.mxr).isNone

theorem exec_pteReadResponse_leaf {w : Walk} {p : Nat} (walk : s.xl.walks[i]? = some w)
    (read : pteStep s w.die w.slice w.asid w.vpn w.level w.table = (.leaf p, s1)) :
    exec (.pteReadResponse i) s = .next (if leafGrants w p = true then
      cacheLeaf (dropWalk i s1) w.die w.asid (BitVec.ofNat 64 (w.vpn * 4096)) p w.level w.ptrs else dropWalk i s1) := by
  change execPteReadResponse i s = _
  simp only [execPteReadResponse, stepOf, walk, read]
  refine congrArg Host.Outcome.next ?_
  rw [leafGrants]
  cases leafFault w.vpn w.level 0 p
  · cases permFault p (if w.write then .store else .load) w.mode w.sum w.mxr <;> rfl
  · rfl

theorem exec_sliceFaultRecord {r : SliceRec} (record : s.xl.recs[i]? = some r) (fresh : r.sent = false)
    (room : (s.xl.fq.any (fun f => f.asid == r.asid && f.vpn == r.vpn) || s.xl.fqIn.any fun f => f.asid == r.asid && f.vpn == r.vpn) = true ∨
      s.xl.fq.length + s.xl.fqIn.length < 1024) :
    exec (.sliceFaultRecord i) s = .next
      (updXl s fun x => { x with recs := updAt x.recs i fun r => { r with sent := true }, fqIn := x.fqIn ++ [r] }) := by
  change execSliceFaultRecord i s = _
  simp only [execSliceFaultRecord, stepOf, record]
  refine congrArg Host.Outcome.next (if_neg ?_)
  rcases room with known | room
  · rw [fresh, known]
    exact Bool.false_ne_true
  · rw [fresh, decide_eq_false (not_le.mpr room), Bool.and_false]
    exact Bool.false_ne_true

/-- A page's record at the fault queue: answered while PRI is off, merged into the record of the page, or new. -/
def queueRecord (s t : State) (r : SliceRec) : State :=
  let same (f : FqRec) : Bool := f.asid == r.asid && f.vpn == r.vpn
  if (reg s rPriStat).testBit (xctPort t r.asid) then settlePage t r.asid r.vpn 0x010F
  else if s.xl.fq.any same then
    updXl t fun x => { x with fq := updFirst x.fq same fun f =>
      { f with r := f.r || r.r, w := f.w || r.w, priv := f.priv || r.priv, dies := if f.dies.contains r.die then f.dies else f.dies ++ [r.die] } }
  else formGroups (updXl t fun x => { x with fq := x.fq ++ [⟨r.asid, r.vpn, r.r, r.w, r.priv, [r.die], none⟩] })

theorem exec_faultQueueRecord {r : SliceRec} (record : s.xl.fqIn[i]? = some r) (taken : t = updXl s fun x => { x with fqIn := dropAt x.fqIn i }) :
    exec (.faultQueueRecord i) s = .next (queueRecord s t r) := by
  subst taken
  change execFaultQueueRecord i s = _
  unfold execFaultQueueRecord
  rw [record]
  exact rfl

theorem exec_faultNotice {n : Notice} (notice : s.xl.notices[i]? = some n)
    (taken : t = updXl s fun x => { x with notices := dropAt x.notices i }) :
    exec (.faultNotice i) s = .next (if n.core = feCore then updXl t fun x => { x with feNotes := x.feNotes ++ [(n.asid, n.vpn, n.code)] }
      else ((s.harts.filter fun p => coreOfSlot p.1 == n.core && p.2.id.asid == n.asid).map (·.1)).foldl
        (fun t k => settleEntries t k n.vpn n.code) t) := by
  subst taken
  change execFaultNotice i s = _
  unfold execFaultNotice
  rw [notice]
  exact rfl

end

/-- Settles O45. -/
theorem walksAndFaultRecordsComplete : Obligations.WalksAndFaultRecordsComplete := by
  intro s s1 i
  refine ⟨?_, ?_, fun r record fresh room => exec_sliceFaultRecord record fresh room, ?_, ?_⟩
  · intro k h va wr there canon translated satp here mode misses first room
    exact exec_translationRequest there canon translated rfl rfl mode misses first room
  · intro w walk drop
    refine ⟨fun c read => exec_pteReadResponse_fault walk read, fun a entries read inner => exec_pteReadResponse_next walk read inner, ?_⟩
    intro p read grants
    exact exec_pteReadResponse_leaf walk read
  · intro r record t same off
    have queued := exec_faultQueueRecord record (t := t) rfl
    exact ⟨fun answered => queued.trans (congrArg _ (if_pos answered)),
      fun on known => queued.trans (congrArg _ ((if_neg (Bool.eq_false_iff.mp on)).trans (if_pos known))),
      fun on new => queued.trans (congrArg _ ((if_neg (Bool.eq_false_iff.mp on)).trans (if_neg (Bool.eq_false_iff.mp new))))⟩
  · intro n notice t
    have noticed := exec_faultNotice notice (t := t) rfl
    exact ⟨fun fe => noticed.trans (congrArg _ (if_pos fe)), fun core => noticed.trans (congrArg _ (if_neg core))⟩

/-! ## Page request groups, ATS and shoot-downs (R315, R322, R325 to R329) -/

section
variable {s t u : State} {port : Nat}

/-- A port that cannot park sends no group. -/
theorem exec_prgGroupSend_off (trimmed : u = trimGroup (formGroup s port) port) (off : portCanPark u port = false) :
    exec (.prgGroupSend port) s = .next u := by
  subst trimmed
  exact congrArg Host.Outcome.next (if_pos (by rw [off]; rfl))

theorem exec_prgGroupSend {g : Group} (trimmed : u = trimGroup (formGroup s port) port) (parks : portCanPark u port = true)
    (unsent : (u.xl.groups.find? fun g => g.port == port && !g.sent) = some g) (pages : g.pages ≠ [])
    (due : 32 ≤ g.pages.length ∨ allowanceLeft u port ≤ g.pages.length ∨ g.openClk + 460 ≤ u.clock.clk)
    (sent : t = updXl u fun x => { x with groups := updFirst x.groups (· == g) fun g => { g with sent := true } }) :
    exec (.prgGroupSend port) s = .next
      (formGroup (bumpReg (setReg t (rPriOut port) (reg t (rPriOut port) + g.pages.length)) rPrgSent 32 1) port) := by
  subst trimmed sent
  change execPrgGroupSend port s = _
  simp only [execPrgGroupSend, stepOf, unsent]
  refine congrArg Host.Outcome.next ((if_neg (by simp [parks])).trans (if_pos ?_))
  simp only [Bool.and_eq_true, Bool.or_eq_true, decide_eq_true_eq, or_assoc]
  exact ⟨by simp [pages], due⟩

theorem exec_prgResponse {grp : Nat} {g : Group}
    (waiting : (s.xl.groups.find? fun g => g.port == port && g.sent && g.index == grp) = some g)
    (left : u = updXl s fun x => { x with groups := delFirst x.groups (· == g) })
    (taken : t = setReg u (rPriOut port) (reg u (rPriOut port) - g.pages.length)) :
    exec (.prgResponse port grp 0) s = .next (if g.dead = true then formGroups t
      else formGroups ((g.pages.filter fun vpn => t.xl.fq.any fun f => f.asid == g.asid && f.vpn == vpn && f.group == some (port, grp)).foldl
        (fun t v => settlePage t g.asid v 0) t)) := by
  subst taken left
  change execPrgResponse port grp 0 s = _
  simp only [execPrgResponse, stepOf, waiting, true_or, if_true]

theorem exec_atsCompletion {va : Word} {asid pa perm : Nat} {r : AtsReq}
    (asked : (s.xl.atsReqs.find? fun r => r.port == port && r.asid == asid && r.page == va.toNat / 4096) = some r) :
    exec (.atsCompletion port va asid pa perm) s = .next (updXl s fun x => { x with
      atsReqs := x.atsReqs.filter (· != r),
      atc := tput x.atc port ((⟨asid, va.toNat / 4096, pa / 4096, perm.testBit 0, perm.testBit 1, r.priv, none⟩ ::
        (tgetD x.atc port []).filter fun e => !atcFor r e).take 4096) }) := by
  change execAtsCompletion port va asid pa perm s = _
  simp only [execAtsCompletion, stepOf, asked]

theorem exec_atsInvalidate {asid size : Nat} {va : Word} {hit : AtcEntry → Bool}
    (room : (s.xl.invs.filter fun v => v.port == port).length < 32)
    (hits : hit = fun e => (asid ≥ 2 ^ 16 || e.asid == asid) && va.toNat / 4096 ≤ e.page && e.page * 4096 < va.toNat + size)
    (noPost : (postsLeft s port fun a hp => ((tgetD s.xl.atc port []).filter hit).any fun e => e.asid == a && e.hpage == hp) = false)
    (noOut : (s.mem.out.filter fun o => o.port == port) = []) :
    exec (.atsInvalidate port asid va size) s = .next
      (updXl s fun x => { x with atc := tput x.atc port ((tgetD s.xl.atc port []).filter fun e => !hit e) }) := by
  subst hits
  have waits (f : OutReq → Bool) : (s.mem.out.filter fun o => o.port == port && f o) = [] := by
    rw [List.filter_eq_nil_iff] at noOut ⊢
    intro o mem both
    exact noOut o mem (Bool.and_eq_true_iff.mp both).1
  change execAtsInvalidate port asid va size s = _
  simp only [execAtsInvalidate, stepOf]
  refine congrArg Host.Outcome.next ((if_neg (not_le.mpr room)).trans ((if_neg (Bool.eq_false_iff.mp noPost)).trans (if_pos ?_)))
  rw [waits]
  rfl

section
variable {id die k : Nat} {q : Shoot} {h : Hart}

theorem exec_shootdownArrival (shoot : (s.xl.shoots.find? fun q => q.id == id) = some q) (awaited : q.dies.contains die = true)
    (quiet : dieQuiet s die q.asid = true) :
    exec (.shootdownArrival id die) s = .next (updXl (shootDie s die q.va q.asid) fun x =>
      { x with shoots := updFirst x.shoots (fun q => q.id == id) fun q => { q with dies := q.dies.filter (· != die) } }) := by
  change execShootdownArrival id die s = _
  simp only [execShootdownArrival, stepOf, shoot]
  exact congrArg Host.Outcome.next ((if_neg (by rw [awaited]; decide)).trans (if_neg (by simp [quiet])))

/-- A shoot-down of the register block ends its busy bit. -/
theorem exec_shootdownComplete_register (shoot : (s.xl.shoots.find? fun q => q.id == id) = some q) (answered : q.dies = [])
    (quiet : iodQuiet s q.asid = true) (register : q.uid = 0) (left : t = updXl s fun x => { x with shoots := delFirst x.shoots (· == q) }) :
    exec (.shootdownComplete id) s = .next (setReg t schShstat 0) := by
  subst left
  change execShootdownComplete id s = _
  simp only [execShootdownComplete, stepOf, shoot]
  exact congrArg Host.Outcome.next ((if_neg (by simp [answered, quiet])).trans (if_pos register))

/-- A shoot-down of a hart ends the hart's wait. -/
theorem exec_shootdownComplete_hart (shoot : (s.xl.shoots.find? fun q => q.id == id) = some q) (answered : q.dies = [])
    (quiet : iodQuiet s q.asid = true) (ofHart : q.uid ≠ 0) (slot : slotOfUid s q.uid = some k) (there : hartAt s k = some h)
    (waits : h.wait = some (.shoot id)) (left : t = updXl s fun x => { x with shoots := delFirst x.shoots (· == q) }) :
    exec (.shootdownComplete id) s = .next (setHart t k (adv t k { h with wait := none } 4)) := by
  subst left
  have slot' : slotOfUid (updXl s fun x => { x with shoots := delFirst x.shoots (· == q) }) q.uid = some k := slot
  have there' : hartAt (updXl s fun x => { x with shoots := delFirst x.shoots (· == q) }) k = some h := there
  change execShootdownComplete id s = _
  simp only [execShootdownComplete, stepOf, shoot, slot', there']
  refine congrArg Host.Outcome.next ((if_neg ?_).trans ((if_neg ofHart).trans (if_pos ?_)))
  · simp [answered, quiet]
  · simp [waits]

end

theorem exec_priEnable {v : Nat} (real : port < 2) (written : t = setReg s (hpBase port) (setBits (hpStat s port) 17 1 (v % 2))) :
    exec (.priEnable port v) s = .next (formGroups
      (if v % 2 = 1 && !(hpStat s port).testBit 17 then setReg t rPriStat (setBits (reg t rPriStat) port 1 0) else t)) := by
  subst written
  exact congrArg Host.Outcome.next (if_neg (not_le.mpr real))

end

/-- Settles O46. A completion keeps 4096 translations, and gives up the oldest (log 102, the model's choice). -/
theorem pageRequestsAndShootdownsComplete : Obligations.PageRequestsAndShootdownsComplete := by
  intro s port
  refine ⟨exec_prgGroupSend_off rfl, ?_, ?_, fun va asid pa perm r asked => exec_atsCompletion asked, ?_, ?_,
    fun asid => rfl, rfl, rfl, ?_⟩
  · intro g u trimmed parks unsent pages due t
    exact exec_prgGroupSend trimmed parks unsent pages due rfl
  · intro grp g waiting u t live
    exact exec_prgResponse waiting rfl rfl
  · intro asid va size room hit noPost noOut
    exact exec_atsInvalidate room rfl noPost noOut
  · intro id q die shoot
    refine ⟨fun awaited quiet => exec_shootdownArrival shoot awaited quiet, ?_⟩
    intro answered quiet t
    exact ⟨fun register => exec_shootdownComplete_register shoot answered quiet register rfl,
      fun k h ofHart slot there waits => exec_shootdownComplete_hart shoot answered quiet ofHart slot there waits rfl⟩
  · intro v real t
    exact exec_priEnable real rfl

/-! ## Doorbells and queue control (R333, R334, R335, R337) -/

section
variable {s t : State} {port q v qcb : Nat}

theorem doorbellTail_of (known : qcbOf s q = some qcb) (open_ : qState s qcb ∈ [1, 2, 3, 5])
    (ahead : (v + 2 ^ 64 - qW s qcb 0x20) % 2 ^ 64 ≤ qSize (qW s qcb 0x10))
    (behind : (v + 2 ^ 64 - qW s qcb 0x28) % 2 ^ 64 ≤ qSize (qW s qcb 0x10)) (moved : t = setQW s qcb 0x28 v) :
    doorbellTail s q v = if qState s qcb = 1 ∧ v ≠ qW t qcb 0x20 then setQState t q qcb 2 0 else t := by
  subst moved
  have live : ¬ (qState s qcb = 0 ∨ qState s qcb = 4) := by
    rintro (e | e) <;> rw [e] at open_ <;> exact absurd open_ (by decide)
  unfold doorbellTail
  rw [known]
  exact (if_neg live).trans (if_neg (not_or.mpr ⟨not_lt.mpr ahead, not_lt.mpr behind⟩))

theorem doorbellCrHead_of (known : qcbOf s q = some qcb) (enabled : qState s qcb ≠ 0) : doorbellCrHead s q v = setQW s qcb 0x38 v := by
  unfold doorbellCrHead
  rw [known]
  exact if_neg enabled

section
variable (free : qFree s q = true) (drained : portDrained s port = true) (alive : isFatal s = false) (word : v < 2 ^ 64)
include free drained alive word

theorem exec_doorbellTail : exec (.doorbellTail port q v) s = .next (doorbellTail s q v) := by
  refine congrArg Host.Outcome.next ((if_pos (by simp [free, drained, alive])).trans ?_)
  rw [Nat.mod_eq_of_lt word]

theorem exec_doorbellCrHead : exec (.doorbellCrHead port q v) s = .next (doorbellCrHead s q v) := by
  refine congrArg Host.Outcome.next ((if_pos (by simp [free, drained, alive])).trans ?_)
  rw [Nat.mod_eq_of_lt word]

end

section
variable (free : qFree s q = true) (known : qcbOf s q = some qcb)
include free known

theorem exec_qctlEnable (disabled : qState s qcb = 0) (valid : qcbOk s q qcb = true) (blank : t = updQueue s q fun _ => blankQueue) :
    exec (.qctlEnable q) s = .next (qstat (setQState t q qcb (if qW t qcb 0x28 = qW t qcb 0x20 then 1 else 2) 0) 0) := by
  subst blank
  change execQctlEnable q s = _
  simp only [execQctlEnable, stepOf, known]
  exact congrArg Host.Outcome.next ((if_neg (by simp [free])).trans ((if_neg (not_not.mpr disabled)).trans (if_neg (by simp [valid]))))

theorem exec_qctlDisable (enabled : qState s qcb ≠ 0) : exec (.qctlDisable q) s = .next (qstat (disableQueue s q qcb) 0) := by
  change execQctlDisable q s = _
  simp only [execQctlDisable, stepOf, known]
  exact congrArg Host.Outcome.next ((if_neg (by simp [free])).trans (if_neg enabled))

theorem exec_qctlReset {n : Nat} (stopped : qState s qcb ∈ [0, 4, 5]) (idle : noneOutstanding s (queueAt s q) = true) (base : n = reg s 0x18)
    (reset : t = setQW (setQW (setQW (setQW s qcb 0x20 n) qcb 0x28 n) qcb 0x30 n) qcb 0x38 n) :
    exec (.qctlReset q) s = .next (qstat (setQState (updQueue t q fun _ => blankQueue) q qcb 0 0) 0) := by
  subst reset base
  change execQctlReset q s = _
  simp only [execQctlReset, stepOf, known]
  exact congrArg Host.Outcome.next ((if_neg (by simp [free])).trans (if_pos ⟨by simpa using stopped, idle⟩))

theorem exec_disableDone (disabling : (queueAt s q).disabling = true) (idle : noneOutstanding s (queueAt s q) = true) :
    exec (.disableDone q) s = .next (setQState (updQueue s q fun _ => blankQueue) q qcb 0 0) := by
  change execDisableDone q s = _
  simp only [execDisableDone, stepOf, known]
  exact congrArg Host.Outcome.next ((if_neg (by simp [free])).trans (if_pos (by simp [disabling, idle])))

end

section
variable {l : Nat} (real : l < 9)
include real

/-- A pass over an empty run list counts at the end of its microsecond. -/
theorem exec_rlPassTick_empty (none_ : (walkAt s l).1 = 0) (empty : rlHead s l = 0) (due : (walkAt s l).2 + 1000 ≤ timeNow s) :
    exec (.rlPassTick l) s = .next (updFe (setReg s (0xC0 + 8 * l) ((reg s (0xC0 + 8 * l) + 1) % 2 ^ 32)) fun x =>
      { x with walks := tput x.walks l (0, (walkAt s l).2 + 1000) }) := by
  have empty' : rlHead (updFe (bumpPass s l) fun x => { x with walks := tput x.walks l (0, (walkAt s l).2 + 1000) }) l = 0 :=
    (tgetD_tput_other _ _ _ (by omega)).trans empty
  change execRlPassTick l s = _
  simp only [execRlPassTick, stepOf]
  refine congrArg Host.Outcome.next ((if_neg ?_).trans ((if_pos none_).trans ?_))
  · simp [none_, not_le.mpr real]
  · rw [decide_eq_true due]
    exact if_pos empty'

theorem exec_rlPassTick_on (some_ : (walkAt s l).1 ≠ 0) (free : homeFree s (walkAt s l).1 8 = true)
    (unserved : l = 0 ∨ servedAt s l (walkAt s l).1 = false) : exec (.rlPassTick l) s = .next (walkOn s l) := by
  change execRlPassTick l s = _
  simp only [execRlPassTick, stepOf]
  refine congrArg Host.Outcome.next ((if_neg ?_).trans ((if_neg some_).trans (if_neg ?_)))
  · simp [free, not_le.mpr real]
  · rcases unserved with e | e <;> simp [e]

end
end

/-- Settles O47. -/
theorem queueControlCompletes : Obligations.QueueControlCompletes := by
  intro s port q v qcb known free
  refine ⟨fun drained alive word => ⟨?_, ?_⟩, ?_, exec_qctlDisable free known, ?_, exec_disableDone free known, ?_⟩
  · intro live ahead behind t
    exact (exec_doorbellTail free drained alive word).trans (congrArg _ (doorbellTail_of known live ahead behind rfl))
  · intro enabled
    exact (exec_doorbellCrHead free drained alive word).trans (congrArg _ (doorbellCrHead_of known enabled))
  · intro disabled valid t
    exact exec_qctlEnable free known disabled valid rfl
  · intro stopped idle n t
    exact exec_qctlReset free known stopped idle rfl rfl
  · intro l real
    exact ⟨exec_rlPassTick_empty real, exec_rlPassTick_on real⟩

/-! ## A poll of a WAIT and an answer that has not been taken (R339, R342, R346)

`execWaitPoll` asks whether the queue may be taken before it takes the answers that pages have had, and `HeadReady` asks it of the state after
them. A queue whose head still waits for a page whose answer stands in the notes is therefore ready and not polled. -/

def writeHomeWord (s : State) (p : Nat × Nat) : State := homeWrite s 0 p.1 (leBytes 8 p.2)

/-- Queue 0 in HOLD with a WAIT of context 1 at its head: the word at 0x5000 under the mask 0xFF is to be 0, which it is. -/
def waitQueued : State :=
  [(0x20000, 0x21001), (0x21008, 0x22000), (0x21010, 0x40020), (0x21018, 0x23000), (0x21028, 1), (0x21040, 3),
    (0x22000, 5), (0x22008, 0x5000), (0x22018, 0xFF)].foldl writeHomeWord
    (setReg (setReg (State.reset.withFetchWord 32 0x13) 0x8 0x20000) 0x10 0x24000)

def waitCommand : List Byte := [5, 0x5000, 0, 0xFF, 0, 0, 0, 0].flatMap (leBytes 8)

/-- The queue polls its WAIT, its head waits for page 6, and the page's answer stands in the notes. -/
def pollNoted : State :=
  updXl (updQueue waitQueued 0 fun x => { x with waiting := true, held := true, hd := { x.hd with page := some 6 } })
    fun x => { x with feNotes := [(1, 6, 0)] }

/-- The state that the poll looks at: WAITING is cleared. -/
def pollCleared : State := updQueue pollNoted 0 fun x => { x with waiting := false }
def pollHead : State := takeTurn (headRead (takeNotes pollCleared) 0 0x21000).2 0x21000
def pollRead : FeRead × State := feRead pollHead 0 false (headAsid pollCleared 0x21000) 0x5000 8

def FeRead.bytes? : FeRead → Option (List Byte)
  | .ok bs => some bs
  | _ => none

theorem FeRead.eq_ok_of_bytes {r : FeRead} {bs : List Byte} (read : r.bytes? = some bs) : r = .ok bs := by
  cases r with
  | ok b => exact congrArg _ (Option.some.inj read)
  | fault c => cases read
  | wait => cases read

theorem pair_eq_of_bytes {r : FeRead × State} {bs : List Byte} (read : r.1.bytes? = some bs) : r = (.ok bs, r.2) :=
  Prod.ext (FeRead.eq_ok_of_bytes read) rfl

/-- A queue that may not be taken is not polled. -/
theorem exec_waitPoll_of_not_mayTake {s : State} {q qcb : Nat} (known : qcbOf s q = some qcb)
    (waits : mayTake (updQueue s q fun x => { x with waiting := false }) q qcb = false) : exec (.waitPoll q) s = .next s := by
  refine if_neg ?_
  rw [known]
  intro polls
  exact Bool.eq_false_iff.mp waits (Bool.and_eq_true_iff.mp polls).2

theorem headReady_pollCleared : HeadReady pollCleared 0 5 0x21000 waitCommand pollHead := by
  have free : qFree pollCleared 0 = true := by decide +kernel
  have kept : lostRead (takeNotes pollCleared) 0x21000 256 = false := by decide +kernel
  have known : qcbOf pollCleared 0 = some 0x21000 := by decide +kernel
  have taken : mayTake (takeNotes pollCleared) 0 0x21000 = true := by decide +kernel
  have noStop : stopHit (takeNotes pollCleared) 0 0x21000 = none := by decide +kernel
  have some_ : ringHead (takeNotes pollCleared) 0x21000 ≠ qW (takeNotes pollCleared) 0x21000 0x28 := by decide +kernel
  have room : (ringHead (takeNotes pollCleared) 0x21000 + 2 ^ 64 - qW (takeNotes pollCleared) 0x21000 0x38) % 2 ^ 64 <
      qCrSize (qW (takeNotes pollCleared) 0x21000 0x10) := by decide +kernel
  have read : (headRead (takeNotes pollCleared) 0 0x21000).1.bytes? = some waitCommand := by decide +kernel
  have op : cw waitCommand 0 % 256 = 5 := by decide +kernel
  have valid : cmdBad waitCommand = false := by decide +kernel
  have noFence : (cw waitCommand 0).testBit 10 = false := by decide +kernel
  exact ⟨free, kept, known, taken, noStop, Or.inr some_, room, FeRead.eq_ok_of_bytes read, rfl, op, valid,
    fun fence => absurd fence (Bool.eq_false_iff.mp noFence)⟩

theorem pollRead_ok : pollRead = (.ok (leBytes 8 0), pollRead.2) := pair_eq_of_bytes (by decide +kernel)

/-- The poll leaves the state as it is: before the answers are taken the queue waits for its page. -/
theorem exec_waitPoll_pollNoted : exec (.waitPoll 0) pollNoted = .next pollNoted :=
  exec_waitPoll_of_not_mayTake (qcb := 0x21000) (by decide +kernel) (by decide +kernel)

/-- Refutes O48: `pollNoted` meets every hypothesis of the clause on polls, its WAIT holds, and the poll leaves it waiting. Its
queue both polls and waits for a page (`tryWait` clears WAITING where it parks on one, but no hypothesis of the clause says so). -/
theorem not_queueCommandsComplete : ¬ Obligations.QueueCommandsComplete := by
  intro completes
  obtain ⟨-, -, -, -, -, -, -, polls, -⟩ := completes pollNoted pollHead pollRead.2 0 0x21000 waitCommand
  have polled := polls (leBytes 8 0) (by decide +kernel) headReady_pollCleared pollRead_ok (by decide +kernel)
  have same := Host.Outcome.next.inj (exec_waitPoll_pollNoted.symm.trans polled)
  have waiting : (queueAt pollNoted 0).waiting = true := by decide +kernel
  rw [same] at waiting
  revert waiting
  decide +kernel

end Sys2Proof.Machine
end

section
/-! Placement, tenants and the host port (O49 to O51). -/

namespace Sys2Proof.Machine

/-! ## Placement, launches, tenants and patches (R24, R25, R129, R347, R350, R351) -/

section
variable {s s1 t u : State} {gk : Nat} {g : Grid} {r : HomeRes}

section
variable (known : tget s.work.grids gk = some g)
include known

section
variable (may : mayPlace s g = true) (first : outrankedGrid s gk g = false) (noSaved : savedFirst s g = false) (home : dataHome s g = (r, s1))
  (found : r = .any ∨ ∃ c, r = .core c) (room : recUnits g.spec ≤ saveUnits s1 g.asid)
include may first noSaved home found room

theorem exec_teamPlacement {cl : Claim} {rec : Nat} (single : g.spec.gang = false)
    (claim : bestClaim s1 gk g (homeCore? r) (List.range g.spec.harts) none = some cl) (alloc : allocRec s1 g.asid (recUnits g.spec) = some rec) :
    exec (.teamPlacement gk) s = .next (claimTeam (notePlaced s1 gk g) gk g cl rec) := by
  have placed : placeTeam s gk g = claimTeam (notePlaced s1 gk g) gk g cl rec := by
    rcases found with rfl | ⟨c, rfl⟩ <;> simp only [placeTeam, home, claim, alloc] <;> exact if_neg (not_lt.mpr room)
  change execTeamPlacement gk s = _
  simp only [execTeamPlacement, stepOf, known]
  exact congrArg Host.Outcome.next ((if_neg (by simp [may, single, first, noSaved])).trans placed)

theorem exec_gangRetest (gang : g.spec.gang = true) (placed : placeGang gk (homeCore? r) g.spec.teams s1 = some t) :
    exec (.gangRetest gk) s = .next { t with arbs := (notePlaced s1 gk g).arbs } := by
  change execGangRetest gk s = _
  simp only [execGangRetest, stepOf, known]
  refine congrArg Host.Outcome.next ((if_neg (by simp [may, gang, first, noSaved])).trans ?_)
  rcases found with rfl | ⟨c, rfl⟩ <;> simp only [home, placed] <;> exact if_neg (not_lt.mpr room)

end

section
variable {q qcb : Nat} (placing : (queueAt s q).placing = some gk) (linked : qcbOf s q = some qcb) (free : qFree s q = true)
include placing linked free

/-- The release time of a grid that waits for it makes it ready. -/
theorem exec_releaseTime_due (waits : g.placed = false) (due : g.release ≤ timeNow s) :
    exec (.releaseTime q) s = .next (updGrid s gk fun g => { g with release := 0 }) := by
  change execReleaseTime q s = _
  simp only [execReleaseTime, stepOf, placing, linked, known]
  exact congrArg Host.Outcome.next ((if_neg (by simp [free])).trans ((if_neg (Bool.eq_false_iff.mp waits)).trans (if_pos due)))

/-- A placed launch lets its queue go on. -/
theorem exec_releaseTime_placed (placed : g.placed = true) : exec (.releaseTime q) s = .next (passPlaced s q qcb gk g) := by
  change execReleaseTime q s = _
  simp only [execReleaseTime, stepOf, placing, linked, known]
  exact congrArg Host.Outcome.next ((if_neg (by simp [free])).trans (if_pos placed))

end

theorem exec_launchMessage {i tk : Nat} {m : Team} (message : s.fe.lmsgs[i]? = some tk) (team : tget s.work.teams tk = some m)
    (ofGrid : m.grid = gk) (claimed : m.stat = .placed) (taken : u = { s with fe := { s.fe with lmsgs := dropAt s.fe.lmsgs i } }) :
    exec (.launchMessage i) s = .next (if g.spec.gang
      then (s.work.teams.filter fun p => p.2.grid == gk && p.2.stat == .placed).foldl (fun u p => startTeam u p.1 p.2 g) u
      else startTeam u tk m g) := by
  subst taken ofGrid
  have grid : gridOf { s with fe := { s.fe with lmsgs := dropAt s.fe.lmsgs i } } m = some g := known
  change execLaunchMessage i s = _
  simp only [execLaunchMessage, stepOf, message, team, grid]
  refine congrArg Host.Outcome.next ((if_pos (by rw [claimed]; decide)).trans ?_)
  unfold startsWith
  split <;> rfl

theorem exec_glaunchRequest {i : Nat} {a : GReq} {m : Team} (request : s.fe.greqs[i]? = some a) (team : tget s.work.teams a.team = some m)
    (ofGrid : m.grid = gk) (free : ctxFree s m.asid = true) (homed : gangHomeWaits s (askedGrid a m g) = false) :
    exec (.glaunchRequest i) s = .next (childGrid (updFe s fun x => { x with greqs := dropAt x.greqs i }) a m g) := by
  subst ofGrid
  have grid : gridOf s m = some g := known
  change execGlaunchRequest i s = _
  simp only [execGlaunchRequest, stepOf, request, team, grid]
  exact congrArg Host.Outcome.next ((if_neg (by simp [free])).trans (if_neg (Bool.eq_false_iff.mp homed)))

section
variable (live : g.retired = false) (placed : g.placed = true) (ended : g.liveTeams = 0) (childless : g.children = 0)
  (noMiss : missDue s g = false) (noZero : zeroDue s gk g = false)
  (retired : t = updGrid s gk fun g => { g with retired := true, status := gridStatus g })
include live placed ended childless noMiss noZero retired

theorem exec_gridRetire_queue {q i : Nat} (origin : g.origin = .queue q i) : exec (.gridRetire gk) s = .next t := by
  subst retired
  change execGridRetire gk s = _
  simp only [execGridRetire, stepOf, known, origin]
  exact congrArg Host.Outcome.next (if_neg (by simp [live, placed, ended, childless, noMiss, noZero]))

/-- A child leaves its parent's count of children, and its account is settled. -/
theorem exec_gridRetire_team {p : Nat} {m : Team} (origin : g.origin = .team p) (team : tget s.work.teams p = some m) :
    exec (.gridRetire gk) s = .next (settleAcct (updGrid t m.grid fun q => { q with children := q.children - 1 }) g.acct) := by
  subst retired
  have team' : tget (updGrid s gk fun g => { g with retired := true, status := gridStatus g }).work.teams p = some m := team
  change execGridRetire gk s = _
  simp only [execGridRetire, stepOf, known, origin, team']
  exact congrArg Host.Outcome.next (if_neg (by simp [live, placed, ended, childless, noMiss, noZero]))

end
end

section
variable {v : Nat}

theorem exec_tenantCommit_refused (go : v.testBit 4 = true) (bad : commitResult s (v % 16) ≠ 0) :
    exec (.tenantCommit v) s = .next (setReg s 0x308 (commitResult s (v % 16) + if s.fe.commit.isEmpty then 0 else 4)) :=
  congrArg Host.Outcome.next ((if_neg (by simp [go])).trans (if_pos bad))

/-- The rectangle, the class and the reserve change at once, and PENDING stands for 20 µs. -/
theorem exec_tenantCommit {k : Nat} (go : v.testBit 4 = true) (good : commitResult s (v % 16) = 0) (tenant : k = v % 16)
    (written : u = updFe s fun x => { x with rect := tput x.rect k (reg s (tenRectReg k)), cls := tput x.cls k (regD s (tenClsReg k) 7 % 8),
                                             commit := s.fe.commit.filter (·.1 != k) ++ [(k, s.clock.time + 20000)] }) :
    exec (.tenantCommit v) s = .next
      (setReg (fullClock { u with sch := { u.sch with rsv := tput u.sch.rsv k (regD u (rsvReg k) rsvReset) } }) 0x308 4) := by
  subst tenant written
  exact congrArg Host.Outcome.next ((if_neg (by simp [go])).trans (if_neg (not_not.mpr good)))

theorem exec_tenantCommitDone {c : Nat × Nat} {rest : List (Nat × Nat)} (pending : s.fe.commit = c :: rest) :
    exec .tenantCommitDone s = .next
      (setReg (updFe s fun x => { x with commit := rest }) 0x308 (setBits (reg s 0x308) 2 1 (if rest.isEmpty then 0 else 1))) := by
  change execTenantCommitDone s = _
  simp only [execTenantCommitDone, stepOf, pending]

theorem exec_patchGo {img : List Byte} (go : v % 2 = 1) (idle : reg s 0x190 ≠ 1) (free : homeFree s (reg s 0x180) 0x1170 = true)
    (image : img = peekHome s (reg s 0x180) 0x1170) :
    exec (.patchGo v) s = .next (if Config.sigOk img = false then setReg s 0x190 2 else if patchOk img = false then setReg s 0x190 3
      else if leNat ((img.drop 4).take 4) ≤ reg s 0x198 then setReg s 0x190 4
      else updFe (setReg s 0x190 1) fun x => { x with patchNext := some (img.take 0x1110) }) := by
  subst image
  change execPatchGo v s = _
  simp only [execPatchGo, stepOf]
  refine congrArg Host.Outcome.next ((if_neg (by simp [go, idle])).trans ((if_neg (by simp [free])).trans ?_))
  exact if_congr (by simp) rfl (if_congr (by simp) rfl rfl)

theorem exec_patchSwap {img : List Byte} (next : s.fe.patchNext = some img) : exec .patchSwap s = .next
    (setReg (setReg (updFe s fun x => { x with patch := img, patchNext := none }) 0x190 5) 0x198 (leNat ((img.drop 4).take 4))) := by
  change execPatchSwap s = _
  simp only [execPatchSwap, stepOf, next]

end
end

/-- Settles O49. The registers of a tenant are replaced in the step of its commit (log 71, the model's choice). -/
theorem placementAndTenantsComplete : Obligations.PlacementAndTenantsComplete := by
  intro s s1 gk g known
  refine ⟨?_, ?_, ?_, fun i r t request team ofGrid free homed => exec_glaunchRequest known request team ofGrid free homed,
    fun v go bad => exec_tenantCommit_refused go bad, ?_, fun c rest pending => exec_tenantCommitDone pending, ?_,
    fun img next => exec_patchSwap next, rfl, rfl, ?_⟩
  · intro may first noSaved r home found room
    exact ⟨fun cl rec single claim alloc => exec_teamPlacement known may first noSaved home found room single claim alloc,
      fun t gang placed => exec_gangRetest known may first noSaved home found room gang placed⟩
  · intro q qcb placing linked free
    exact ⟨exec_releaseTime_due known placing linked free, exec_releaseTime_placed known placing linked free⟩
  · intro i tk t message team ofGrid claimed u
    exact exec_launchMessage known message team ofGrid claimed rfl
  · intro v go good t u
    exact exec_tenantCommit go good rfl rfl
  · intro v go idle free img
    exact exec_patchGo go idle free rfl
  · intro live placed ended childless noMiss noZero t
    exact ⟨fun q i origin => exec_gridRetire_queue known live placed ended childless noMiss noZero rfl origin,
      fun p m origin team => exec_gridRetire_team known live placed ended childless noMiss noZero rfl origin team⟩

/-! ## Inbound traffic at the host port (R354, R355, R358, R360 to R364) -/

section
variable {s : State} {port rid addr : Nat} {ro : Bool} {data : List Byte}

section
variable (real : port < 2) (up : hpMode s port ≠ 0)
include real up

theorem not_down : ¬ ((decide (port ≥ 2) || decide (hpMode s port = 0)) = true) := by simp [real, up]

section
variable (some_ : data ≠ [])
include some_

theorem not_down_or_empty : ¬ ((decide (port ≥ 2) || decide (hpMode s port = 0) || data.isEmpty) = true) := by simp [real, up, some_]

theorem exec_inboundWrite_ecrc {bar : Nat} (bad : ecrcFails rid = true) :
    exec (.inboundWrite port bar rid ro addr data) s = .next (aerReport s port .ecrc) :=
  congrArg Host.Outcome.next ((if_neg (not_down_or_empty real up some_)).trans (if_pos bad))

section
variable (good : ecrcFails rid = false)
include good

theorem exec_inboundWrite_malformed {bar : Nat} (long : maxPayload s port < data.length) :
    exec (.inboundWrite port bar rid ro addr data) s = .next (aerReport s port .malformed) :=
  congrArg Host.Outcome.next ((if_neg (not_down_or_empty real up some_)).trans ((if_neg (Bool.eq_false_iff.mp good)).trans (if_pos long)))

section
variable (fits : data.length ≤ maxPayload s port)
include fits

theorem exec_inboundWrite_hbm (within : addr + data.length ≤ hbmEnd) : exec (.inboundWrite port 4 rid ro addr data) s = .next
    ((splitLines addr data).foldl (fun u p => arriveIn u (freshUid s).1 port rid ro p.1 (.piece p.2)) (freshUid s).2) :=
  congrArg Host.Outcome.next ((if_neg (not_down_or_empty real up some_)).trans ((if_neg (Bool.eq_false_iff.mp good)).trans
    ((if_neg (not_lt.mpr fits)).trans ((if_pos rfl).trans (if_neg (not_lt.mpr within))))))

/-- A write that ends past the end of HBM is discarded whole. -/
theorem exec_inboundWrite_past (past : hbmEnd < addr + data.length) :
    exec (.inboundWrite port 4 rid ro addr data) s = .next (aerReport (inErr s port 0) port .ur) :=
  congrArg Host.Outcome.next ((if_neg (not_down_or_empty real up some_)).trans ((if_neg (Bool.eq_false_iff.mp good)).trans
    ((if_neg (not_lt.mpr fits)).trans ((if_pos rfl).trans (if_pos past)))))

theorem exec_inboundWrite_regs : exec (.inboundWrite port 0 rid ro addr data) s = .next
    (if data.length = 8 ∧ addr % 8 = 0 then arriveIn (freshUid s).2 (freshUid s).1 port rid ro addr (.mmio 0 data) else inErr s port 32) :=
  congrArg Host.Outcome.next ((if_neg (not_down_or_empty real up some_)).trans ((if_neg (Bool.eq_false_iff.mp good)).trans
    ((if_neg (not_lt.mpr fits)).trans ((if_neg (by decide)).trans ((if_pos rfl).trans (if_congr (by simp) rfl rfl))))))

theorem exec_inboundWrite_doorbell : exec (.inboundWrite port 2 rid ro addr data) s = .next
    (arriveIn (freshUid s).2 (freshUid s).1 port rid ro addr (.mmio 2 data)) :=
  congrArg Host.Outcome.next ((if_neg (not_down_or_empty real up some_)).trans ((if_neg (Bool.eq_false_iff.mp good)).trans
    ((if_neg (not_lt.mpr fits)).trans ((if_neg (by decide)).trans ((if_neg (by decide)).trans (if_pos rfl))))))

end
end
end

section
variable (good : ecrcFails rid = false)
include good

theorem exec_inboundRead {bar len : Nat} : exec (.inboundRead port bar rid addr len) s = .next
    (arriveIn (freshUid s).2 (freshUid s).1 port rid false addr (.read bar len)) :=
  congrArg Host.Outcome.next ((if_neg (not_down real up)).trans (if_neg (Bool.eq_false_iff.mp good)))

theorem exec_inboundAtomicop {op len : Nat} {a b : Word} (known : op ∈ [0, 1, 7]) (size : len ∈ [4, 8]) :
    exec (.inboundAtomicop port 4 rid addr op len a b) s = .next
      (arriveIn (freshUid s).2 (freshUid s).1 port rid false addr (.atomic op len a.toNat b.toNat)) := by
  have op' : [0, 1, 7].contains op = true := List.contains_iff_mem.mpr known
  have len' : [4, 8].contains len = true := List.contains_iff_mem.mpr size
  exact congrArg Host.Outcome.next ((if_neg (not_down real up)).trans ((if_neg (Bool.eq_false_iff.mp good)).trans (if_neg (by rw [op', len']; decide))))

theorem exec_inboundAtomicop_unsupported {op len : Nat} {a b : Word} (bad : op ∉ [0, 1, 7] ∨ len ∉ [4, 8]) :
    exec (.inboundAtomicop port 4 rid addr op len a b) s = .next (inFail s port rid 1) := by
  refine congrArg Host.Outcome.next ((if_neg (not_down real up)).trans ((if_neg (Bool.eq_false_iff.mp good)).trans (if_pos ?_)))
  rcases bad with op' | len'
  · have : [0, 1, 7].contains op = false := Bool.eq_false_iff.mpr fun c => op' (List.contains_iff_mem.mp c)
    rw [this]
    rfl
  · have : [4, 8].contains len = false := Bool.eq_false_iff.mpr fun c => len' (List.contains_iff_mem.mp c)
    rw [this]
    exact Bool.or_true _

end
end

section
variable {i : Nat} {r : InReq}

theorem not_held (unsent : r.sent = false) (may : mayGo s i r = true) : ¬ ((r.sent || !mayGo s i r) = true) := by simp [unsent, may]

section
variable (arrived : s.hp.inq[i]? = some r)
include arrived

section
variable (unsent : r.sent = false) (may : mayGo s i r = true)
include unsent may

theorem exec_pieceSend_piece {bs : List Byte} (piece : r.kind = .piece bs) (whole : 128 ≤ bs.length ∨ anyLost s r.addr bs.length = false) :
    exec (.pieceSend i) s = .next (pushIn s r .homeWrite bs) := by
  change execPieceSend i s = _
  simp only [execPieceSend, stepOf, arrived, piece]
  refine congrArg Host.Outcome.next ((if_neg (not_held unsent may)).trans (if_neg ?_))
  rcases whole with long | kept
  · simp [long]
  · simp [kept]

/-- A write of a part of a line that is lost is an error. -/
theorem exec_pieceSend_lost {bs : List Byte} (piece : r.kind = .piece bs) (part : bs.length < 128) (lost : anyLost s r.addr bs.length = true) :
    exec (.pieceSend i) s = .next (lostWrite (inDone s r) r.port) := by
  change execPieceSend i s = _
  simp only [execPieceSend, stepOf, arrived, piece]
  exact congrArg Host.Outcome.next ((if_neg (not_held unsent may)).trans (if_pos (by simp [part, lost])))

theorem exec_pieceSend_mmio {bar : Nat} {bs : List Byte} (write : r.kind = .mmio bar bs) (free : mmioFree s bar r.addr (leNat bs) = true) :
    exec (.pieceSend i) s = .next (mmioWrite (inDone s r) bar r.addr bs) := by
  change execPieceSend i s = _
  simp only [execPieceSend, stepOf, arrived, write]
  exact congrArg Host.Outcome.next ((if_neg (not_held unsent may)).trans (if_pos free))

theorem exec_pieceSend_mmioRead {bar len : Nat} (read : r.kind = .read bar len) (device : bar ≠ 4)
    (free : bar < 4 → mmioFree s bar r.addr 0 = true) : exec (.pieceSend i) s = .next
      (complete (mmioRead (inDone s r) r.port bar r.addr len).2 r.port r.rid 0 r.addr (mmioRead (inDone s r) r.port bar r.addr len).1) := by
  change execPieceSend i s = _
  simp only [execPieceSend, stepOf, arrived, read]
  refine congrArg Host.Outcome.next ((if_neg (not_held unsent may)).trans ((if_pos device).trans (if_neg ?_)))
  simpa using free

theorem exec_pieceSend_read {len : Nat} {bs : List Byte} {t : State} (read : r.kind = .read 4 len) (within : r.addr + len ≤ hbmEnd)
    (kept : anyLost s r.addr len = false) (home : readHome s r.addr len = some (bs, t)) :
    exec (.pieceSend i) s = .next (complete (inDone t r) r.port r.rid 0 r.addr bs) := by
  change execPieceSend i s = _
  simp only [execPieceSend, stepOf, arrived, read, home]
  exact congrArg Host.Outcome.next ((if_neg (not_held unsent may)).trans ((if_neg (not_not.mpr rfl)).trans
    ((if_neg (not_lt.mpr within)).trans (if_neg (Bool.eq_false_iff.mp kept)))))

theorem exec_pieceSend_readPast {len : Nat} (read : r.kind = .read 4 len) (past : hbmEnd < r.addr + len) :
    exec (.pieceSend i) s = .next (inFail (inDone s r) r.port r.rid 1) := by
  change execPieceSend i s = _
  simp only [execPieceSend, stepOf, arrived, read]
  exact congrArg Host.Outcome.next ((if_neg (not_held unsent may)).trans ((if_neg (not_not.mpr rfl)).trans (if_pos past)))

theorem exec_pieceSend_readLost {len : Nat} (read : r.kind = .read 4 len) (within : r.addr + len ≤ hbmEnd) (lost : anyLost s r.addr len = true) :
    exec (.pieceSend i) s = .next (inFail (inDone s r) r.port r.rid 2) := by
  change execPieceSend i s = _
  simp only [execPieceSend, stepOf, arrived, read]
  exact congrArg Host.Outcome.next ((if_neg (not_held unsent may)).trans ((if_neg (not_not.mpr rfl)).trans
    ((if_neg (not_lt.mpr within)).trans (if_pos lost))))

theorem exec_pieceSend_atomic {op n a b : Nat} (atomic : r.kind = .atomic op n a b) (within : r.addr + n ≤ hbmEnd) (aligned : r.addr % n = 0)
    (kept : anyLost s r.addr n = false) :
    exec (.pieceSend i) s = .next (pushIn s r (.auAtomic op n false (a % 2 ^ (8 * n)) (b % 2 ^ (8 * n))) []) := by
  change execPieceSend i s = _
  simp only [execPieceSend, stepOf, arrived, atomic]
  refine congrArg Host.Outcome.next ((if_neg (not_held unsent may)).trans ((if_neg ?_).trans (if_neg (Bool.eq_false_iff.mp kept))))
  simp [within, aligned]

end

section
variable {q : Reply} {t : State} (reply : (s.mem.replies.find? fun q => q.to_ == .piece r.port r.id) = some q)
  (done : t = inDone (updMem s fun m => { m with replies := m.replies.filter fun p => !(p.to_ == .piece r.port r.id) }) r)
include reply done

theorem exec_pieceAck_piece {bs : List Byte} (piece : r.kind = .piece bs) :
    exec (.pieceAck i) s = .next (if q.unsup = true then lostWrite t r.port else t) := by
  subst done
  change execPieceAck i s = _
  simp only [execPieceAck, stepOf, arrived, reply, piece]

theorem exec_pieceAck_atomic {op n a b : Nat} (atomic : r.kind = .atomic op n a b) : exec (.pieceAck i) s = .next
    (if q.unsup = true then inFail t r.port r.rid 2 else complete t r.port r.rid 0 0 (leBytes n q.value.toNat)) := by
  subst done
  change execPieceAck i s = _
  simp only [execPieceAck, stepOf, arrived, reply, atomic]

end
end
end

section
variable {line : Nat} {own : State} (real : port < 2) (cxl : hpMode s port = 2) (window : inHdm s port addr = true) (aligned : addr % 64 = 0)
  (at_ : line = lineOf addr) (kept : isLost s line = false)
  (taken : own = updMem s fun m => { m with hostHeld := m.hostHeld.filter (· != (port, line)) })
include real cxl window aligned at_ kept taken

theorem exec_cxlMemAccess_write (whole : data.length = 64) :
    exec (.cxlMemAccess port addr true data) s = .next (feStore own noAsid addr data).2 := by
  subst at_ taken
  exact congrArg Host.Outcome.next ((if_neg (by simp [real, cxl])).trans ((if_neg (by simp [window, aligned])).trans
    ((if_neg (Bool.eq_false_iff.mp kept)).trans ((if_pos rfl).trans (if_pos whole)))))

/-- A read gives the host the line. -/
theorem exec_cxlMemAccess_read {bs : List Byte} {t : State} (home : readHome own addr 64 = some (bs, t)) :
    exec (.cxlMemAccess port addr false data) s = .next
      (complete (updMem t fun m => { m with hostHeld := m.hostHeld ++ [(port, line)] }) port 0 0 addr bs) := by
  subst at_ taken
  change execCxlMemAccess port addr false data s = _
  simp only [execCxlMemAccess, stepOf, home]
  exact congrArg Host.Outcome.next ((if_neg (by simp [real, cxl])).trans ((if_neg (by simp [window, aligned])).trans
    ((if_neg (Bool.eq_false_iff.mp kept)).trans (if_neg Bool.false_ne_true))))

end
end

/-- Settles O50. Bit 16 of the requester stands for a failed ECRC (log 112) and a write that ends past HBM is discarded whole (log 94): the
model's choices. -/
theorem inboundTrafficCompletes : Obligations.InboundTrafficCompletes := by
  intro s port
  refine ⟨fun rid addr data ro real up some_ bad => exec_inboundWrite_ecrc real up some_ bad, ?_,
    fun bar rid addr len real up good => exec_inboundRead real up good, ?_, ?_, ?_, ?_⟩
  · intro bar rid addr data ro real up some_ good
    refine ⟨fun long => exec_inboundWrite_malformed real up some_ good long, fun fits => ?_⟩
    have regs := exec_inboundWrite_regs (ro := ro) (addr := addr) real up some_ good fits
    refine ⟨exec_inboundWrite_hbm real up some_ good fits, exec_inboundWrite_past real up some_ good fits, ?_, ?_,
      exec_inboundWrite_doorbell real up some_ good fits⟩
    · exact fun eight aligned => regs.trans (congrArg _ (if_pos ⟨eight, aligned⟩))
    · exact fun bad => regs.trans (congrArg _ (if_neg (by omega)))
  · intro rid addr op len a b real up good
    exact ⟨exec_inboundAtomicop real up good, exec_inboundAtomicop_unsupported real up good⟩
  · intro i r arrived unsent may
    exact ⟨fun bs piece whole => exec_pieceSend_piece arrived unsent may piece whole,
      fun bs piece part lost => exec_pieceSend_lost arrived unsent may piece part lost,
      fun bar bs write free => exec_pieceSend_mmio arrived unsent may write free,
      fun bar len read device free => exec_pieceSend_mmioRead arrived unsent may read device free,
      fun len bs t read within kept home => exec_pieceSend_read arrived unsent may read within kept home,
      fun len read => ⟨exec_pieceSend_readPast arrived unsent may read, exec_pieceSend_readLost arrived unsent may read⟩,
      fun op n a b atomic within aligned kept => exec_pieceSend_atomic arrived unsent may atomic within aligned kept⟩
  · intro i r q arrived reply t
    exact ⟨fun bs piece => exec_pieceAck_piece arrived reply rfl piece, fun op n a b atomic => exec_pieceAck_atomic arrived reply rfl atomic⟩
  · intro addr real cxl window aligned line own
    exact ⟨fun data kept whole => exec_cxlMemAccess_write real cxl window aligned rfl kept rfl whole,
      fun data bs t kept home => exec_cxlMemAccess_read real cxl window aligned rfl kept rfl home⟩

/-! ## Outbound answers, links, resets, MSI-X and the service queue (R353, R359, R366, R367, R370, R373, R375) -/

section
variable {s t : State} {port : Nat}

section
variable {i : Nat} {o : OutReq} (sent : (s.mem.out.find? fun o => o.id == i && o.port == port && outSent s o) = some o)
include sent

theorem exec_outboundCompletion_data {data : List Byte} (whole : data.length = o.size) :
    exec (.outboundCompletion port i 0 data) s = .next (hostAnswer (hostView (dropOut s o) o data) o 0 data) := by
  change execOutboundCompletion port i 0 data s = _
  simp only [execOutboundCompletion, stepOf, sent]
  exact congrArg Host.Outcome.next ((if_pos trivial).trans (if_pos whole))

/-- An unsupported request is an error of reads and writes, and one of atomics of its own. -/
theorem exec_outboundCompletion_unsupported {data : List Byte} : exec (.outboundCompletion port i 1 data) s = .next
    (if o.atomic.isSome then hostAnswer (bumpField (dropOut s o) (hpErr port) 0 16 1) o 0x0501 []
      else hostAnswer (bumpField (dropOut s o) (hpErr port) 16 16 1) o 0x0502 []) := by
  change execOutboundCompletion port i 1 data s = _
  simp only [execOutboundCompletion, stepOf, sent]
  exact congrArg Host.Outcome.next ((if_neg (by decide)).trans (if_pos trivial))

theorem exec_outboundCompletion_poisoned {data : List Byte} : exec (.outboundCompletion port i 3 data) s = .next
    (contextFault (bumpField (dropOut s o) (hpErr port) 48 16 1) o.asid 5) := by
  change execOutboundCompletion port i 3 data s = _
  simp only [execOutboundCompletion, stepOf, sent]
  exact congrArg Host.Outcome.next ((if_neg (by decide)).trans ((if_neg (by decide)).trans ((if_neg (by decide)).trans (if_pos trivial))))

theorem exec_completionTimeout (late : o.clk + regD s (hpCto port) 50000 * 1800 ≤ s.clock.clk) : exec (.completionTimeout port i) s = .next
    (contextFault (bumpField (dropOut s o) (hpErr port) 32 16 1) o.asid 5) := by
  change execCompletionTimeout port i s = _
  simp only [execCompletionTimeout, stepOf, sent]
  exact congrArg Host.Outcome.next (if_neg (not_lt.mpr late))

end

section
variable (real : port < 2)
include real

/-- A link of a width and a rate that PCIe has trains, unless the device is narrowed to 8 lanes and the link is wider. -/
theorem exec_linkTraining {width rate : Nat} (down : hpMode s port = 0) (booted : s.booted = true) (lanes : width ∈ [1, 2, 4, 8, 16])
    (speed : rate ∈ [2, 5, 8, 16, 32, 64, 128])
    (allowed : ¬ ((reg s pfBoot).testBit 14 = true ∧ reg s pfBoot % 4 = 3 ∧ 8 < width)) :
    exec (.linkTraining port 1 width rate) s = .next
      (setReg s (hpBase port) (setBits (setBits (setBits (hpStat s port) 0 2 1) 2 5 width) 8 8 rate)) := by
  have lanes' : [1, 2, 4, 8, 16].contains width = true := List.contains_iff_mem.mpr lanes
  have speed' : [2, 5, 8, 16, 32, 64, 128].contains rate = true := List.contains_iff_mem.mpr speed
  have allowed' : ((reg s pfBoot).testBit 14 && reg s pfBoot % 4 == 3 && decide (width > 8)) = false := by
    simpa [and_assoc] using allowed
  refine congrArg Host.Outcome.next (if_neg ?_)
  rw [lanes', speed', allowed', down, booted]
  simp [real]

theorem exec_linkDown (up : hpMode s port ≠ 0) :
    exec (.linkDown port) s = .next (killPort (setReg s (hpBase port) (setBits (setBits (hpStat s port) 0 7 0) 8 8 0)) port) :=
  congrArg Host.Outcome.next (if_neg (by simp [real, up]))

/-- A reset of a function without queues clears its caches, counts and vectors, and kills its contexts. -/
theorem exec_functionLevelReset (noQueues : s.fe.queues = [])
    (cleared : t = updHp (updXl s fun x => { x with atc := tput x.atc port [] }) fun h => { h with svc := tput h.svc port [] }) :
    exec (.functionLevelReset port) s = .next
      (killPort (msixReset (setReg (setReg (setReg t (hpErr port) 0) (hpInerr port) 0) (svcStat port) 0) port) port) := by
  subst cleared
  refine congrArg Host.Outcome.next ((if_neg (by simp [real, noQueues])).trans ?_)
  refine congrArg (fun u => killPort u port) ?_
  rw [show ∀ u : State, u.fe.queues = s.fe.queues → u.fe.queues.map (·.1) = [] from fun u same => by rw [same, noQueues]; rfl]
  · rfl
  · rfl

theorem exec_d3hotRequest (idle : liveAsids s = []) :
    exec (.d3hotRequest port true) s = .next (updHp s fun h => { h with d3 := h.d3.filter (· != port) ++ [port] }) :=
  congrArg Host.Outcome.next ((if_neg (by decide)).trans (if_pos (by simp [idle, real])))

theorem exec_msixUnmask {v : Nat} (vector : v < 2048) :
    exec (.msixUnmask port v) s = .next (msixWrite s port v 1 (setBits (msixWord s port v 1) 32 1 0)) :=
  congrArg Host.Outcome.next (if_pos (by simp [real, vector]))

theorem exec_svcDb {hart : Nat} : exec (.svcDb port hart) s = .next (svcPush s port (hart % 2 ^ 16)) :=
  congrArg Host.Outcome.next (if_pos real)

end
end

/-- Settles O51. What a reset of a function does to its contexts, and the state of D3hot, are log 90 (the model's choice). -/
theorem hostPortEventsComplete : Obligations.HostPortEventsComplete := by
  intro s port
  refine ⟨?_, fun real => ⟨?_, exec_linkDown real, ?_, exec_d3hotRequest real, fun v vector => exec_msixUnmask real vector,
    fun hart => exec_svcDb real⟩, rfl, rfl, rfl, rfl, rfl⟩
  · intro i o sent
    refine ⟨fun data whole => exec_outboundCompletion_data sent whole, ?_, ?_, fun data => exec_outboundCompletion_poisoned sent,
      exec_completionTimeout sent⟩
    · exact fun data plain => (exec_outboundCompletion_unsupported sent).trans (congrArg _ (if_neg (by simp [plain])))
    · exact fun data atomic => (exec_outboundCompletion_unsupported sent).trans (congrArg _ (if_pos (Option.isSome_iff_ne_none.mpr atomic)))
  · intro width rate down booted lanes speed allowed
    exact exec_linkTraining real down booted lanes speed allowed
  · intro noQueues t
    exact exec_functionLevelReset real noQueues rfl

end Sys2Proof.Machine
end

section
/-! The Ethernet ports (O52 to O56). -/

namespace Sys2Proof.Machine

/-! ## Transmit ring, port clocks and port registers (R377 to R382, R395) -/

section
variable {s t u : State} {e : Nat}

/-- The descriptor at TX_HEAD is sent, with its stamp where it asks for one. -/
theorem exec_frameTransmit {i at_ len : Nat} {d : List Byte} (up : ethUp s e = true) (on : (reg s (ethReg e 0x88)).testBit 4 = true)
    (ahead : reg s (ethReg e 0x98) < reg s (ethReg e 0x90)) (idle : (ethAt s e).tx = none) (head : i = reg s (ethReg e 0x98))
    (place : at_ = reg s (ethReg e 0x80) + 32 * (i % txSlots s e)) (desc : d = peekHome s at_ 32) (length : len = leNat ((d.drop 8).take 2))
    (least : 60 ≤ len) (most : len + 4 ≤ maxFr s e) (free : homeFree s at_ 32 = true) (body : homeFree s (leNat ((d.drop 0).take 8)) len = true) :
    exec (.frameTransmit e) s = .next (updEth (ethCount (takeStamp s e).2 e 0x130) e fun x => { x with
      sent := wireFrame (peekHome s (leNat ((d.drop 0).take 8)) len),
      tx := some ⟨i, if (leNat ((d.drop 0xA).take 1)).testBit 0 then some (nsOf (takeStamp s e).1, secOf (takeStamp s e).1) else none,
        false, 0, []⟩ }) := by
  subst head place desc length
  refine congrArg Host.Outcome.next ((if_neg ?_).trans ((if_neg ?_).trans (if_neg ?_)))
  · simp [up, on, ahead, idle, free]
  · simp only [Bool.or_eq_true, decide_eq_true_eq, not_or, not_lt]
    exact ⟨least, most⟩
  · rw [body]
    decide

theorem not_unacked {ids : List Nat} (acked : ids.all (reqDone s) = true) : ¬ ((!ids.all (reqDone s)) = true) := by rw [acked]; decide

section
variable {j : TxJob} (job : (ethAt s e).tx = some j) (acked : j.reqs.all (reqDone s) = true)
include job acked

/-- The write-back of a descriptor without a stamp goes on to its flags. -/
theorem exec_txWriteback_plain (stage : j.stage = 0) (plain : j.stamp = none) :
    exec (.txWriteback e) s = .next (updEth s e fun x => { x with tx := some { j with stage := 1 } }) := by
  change execTxWriteback e s = _
  simp only [execTxWriteback, stepOf, job, plain]
  exact congrArg Host.Outcome.next ((if_neg (not_unacked acked)).trans (if_pos stage))

theorem exec_txWriteback_flags {at_ : Nat} {r : List Nat × State} (stage : j.stage = 1)
    (place : at_ = reg s (ethReg e 0x80) + 32 * (j.idx % txSlots s e)) (free : homeFree s (at_ + 0xA) 1 = true)
    (stored : r = feStore s noAsid (at_ + 0xA) (leBytes 1 (leNat (peekHome s (at_ + 0xA) 1) % 2 + 2 + 4 * b2n j.err))) :
    exec (.txWriteback e) s = .next (updEth r.2 e fun x => { x with tx := some { j with stage := 2, reqs := r.1 } }) := by
  subst place stored
  change execTxWriteback e s = _
  simp only [execTxWriteback, stepOf, job]
  refine congrArg Host.Outcome.next ((if_neg (not_unacked acked)).trans ((if_neg ?_).trans ((if_neg ?_).trans (if_pos stage))))
  · simp [stage]
  · simp [free]

/-- With DONE written, TX_HEAD advances. -/
theorem exec_txWriteback_done (stage : j.stage = 2) :
    exec (.txWriteback e) s = .next (setReg (updEth s e fun x => { x with tx := none }) (ethReg e 0x98) (j.idx + 1)) := by
  change execTxWriteback e s = _
  simp only [execTxWriteback, stepOf, job]
  refine congrArg Host.Outcome.next ((if_neg (not_unacked acked)).trans ((if_neg ?_).trans ((if_neg ?_).trans (if_neg ?_)))) <;>
    simp [stage]

end

theorem txTail_of {v : Nat} (least : reg s (ethReg e 0x90) ≤ v) (most : v ≤ reg s (ethReg e 0x98) + txSlots s e) :
    txTail s e v = setReg s (ethReg e 0x90) v := if_pos (by simp [least, most])

theorem txCfg_of_off {v : Nat} (off : (reg s (ethReg e 0x88)).testBit 4 = false) (size : v % 16 < 9) (stays : v.testBit 4 = false) :
    txCfg s e v = setReg s (ethReg e 0x88) (v % 16) := by
  refine (if_neg (Bool.eq_false_iff.mp off)).trans ((if_neg (not_le.mpr size)).trans ?_)
  rw [stays]
  rfl

theorem rgHead_of {r v : Nat} (least : reg s (rgReg e r 0x18) ≤ v) (most : v ≤ reg s (rgReg e r 0x20)) :
    rgHead s e r v = setReg s (rgReg e r 0x18) v := if_pos (by simp [least, most])

/-- A ring that is on keeps its configuration, and may be turned off. -/
theorem rgCfg_of_on {r v : Nat} (on : (reg s (rgReg e r 0x10)).testBit 24 = true) :
    rgCfg s e r v = setReg (if v.testBit 24 then s else ringOff s e r) (rgReg e r 0x10)
      (setBits (reg s (rgReg e r 0x10)) 24 1 (b2n (v.testBit 24))) := by
  refine (if_pos on).trans ?_
  cases v.testBit 24 <;> rfl

theorem ptpStep_of_lt {v : Nat} (forward : v < 2 ^ 63) :
    ptpStep s e v = ptpSample (updEth s e fun x => { x with clock := (x.clock + v * 2 ^ 32) % clockRange }) e := by
  have sign : v.testBit 63 = false := Nat.testBit_lt_two_pow forward
  have whole : ((v : Int) % 2 ^ 64) = v := by omega
  have sum (c : Nat) : ((c : Int) + v * 2 ^ 32).toNat = c + v * 2 ^ 32 := by omega
  simp only [ptpStep, sign, Bool.false_eq_true, if_false, whole, sum]

section
variable (real : e < 4)
include real

theorem exec_ptpSample (due : (ethAt s e).sampled + 1800 ≤ s.clock.clk)
    (sampled : t = updEth (ptpSample s e) e fun x => { x with sampled := s.clock.clk }) :
    exec (.ptpSample e) s = .next (if e = 0 then steerTime t else t) := by
  subst sampled
  exact congrArg Host.Outcome.next (if_neg (by simp [real, due]))

theorem exec_ethLinkUp (booted : s.booted = true) (may : (reg s pfBoot).testBit 16 = false) :
    exec (.ethLinkUp e) s = .next (setReg s (ethReg e 0) 0x803) :=
  congrArg Host.Outcome.next (if_neg (by simp [real, booted, may]))

end
end

/-- Settles O52. -/
theorem ethernetTransmitAndClocksComplete : Obligations.EthernetTransmitAndClocksComplete := by
  intro s e real
  refine ⟨?_, ?_, ?_, ?_, ?_, congrArg Host.Outcome.next (if_pos real), ?_, ?_, congrArg Host.Outcome.next (if_pos real),
    congrArg Host.Outcome.next (if_pos real), exec_ethLinkUp real⟩
  · intro up on ahead idle i at_ d len least most free body ns
    exact exec_frameTransmit up on ahead idle rfl rfl rfl rfl least most free body
  · intro t job acked at_
    refine ⟨exec_txWriteback_plain job acked, ?_, exec_txWriteback_done job acked⟩
    intro stage free r
    exact exec_txWriteback_flags job acked stage rfl free rfl
  · exact fun v least most => congrArg Host.Outcome.next ((if_pos real).trans (txTail_of least most))
  · exact fun v off size stays => congrArg Host.Outcome.next ((if_pos real).trans (txCfg_of_off off size stays))
  · intro r v ring
    have both : (decide (e < 4) && decide (r < 16)) = true := by simp [real, ring]
    exact ⟨fun least most => congrArg Host.Outcome.next ((if_pos both).trans (rgHead_of least most)),
      fun on => congrArg Host.Outcome.next ((if_pos both).trans (rgCfg_of_on on))⟩
  · exact fun v forward => congrArg Host.Outcome.next ((if_pos real).trans (ptpStep_of_lt forward))
  · intro due t
    exact exec_ptpSample real due rfl

/-! ## Frames received, ring entries, messages and launches (R377, R383 to R388) -/

section
variable {s t : State} {e : Nat}

section
variable {f : List Byte} (up : ethUp s e = true)
include up

theorem exec_frameReceive_badFcs (bad : crc32 (f.take (f.length - 4)) ≠ leNat (f.drop (f.length - 4))) :
    exec (.frameReceive e f) s = .next (ethCount s e 0x108) := by
  have fcs : (crc32 (f.take (f.length - 4)) == leNat (f.drop (f.length - 4))) = false := beq_eq_false_iff_ne.mpr bad
  change execFrameReceive e f s = _
  simp only [execFrameReceive, stepOf, fcs, up]
  exact congrArg Host.Outcome.next ((if_neg (by decide)).trans (if_pos rfl))

section
variable (good : crc32 (f.take (f.length - 4)) = leNat (f.drop (f.length - 4)))
include good

theorem exec_frameReceive_pause (pause : isPause f (parseFrame f) = true) :
    exec (.frameReceive e f) s = .next (ethCount (ethCount s e 0x100) e 0x108) := by
  have fcs : (crc32 (f.take (f.length - 4)) == leNat (f.drop (f.length - 4))) = true := beq_iff_eq.mpr good
  change execFrameReceive e f s = _
  simp only [execFrameReceive, stepOf, fcs, up, pause]
  exact congrArg Host.Outcome.next ((if_neg (by decide)).trans (if_pos (by simp)))

section
variable {p : Parsed} (counted : t = ethCount s e 0x100) (parsed : p = parseFrame f) (least : 64 ≤ f.length) (most : f.length ≤ maxFr t e)
  (data : isPause f p = false) (sums : sumsOk f p = true)
include counted parsed least most data sums

theorem exec_frameReceive_others (other : forUs t e f = false) : exec (.frameReceive e f) s = .next (ethCount t e 0x110) := by
  subst counted parsed
  have fcs : (crc32 (f.take (f.length - 4)) == leNat (f.drop (f.length - 4))) = true := beq_iff_eq.mpr good
  change execFrameReceive e f s = _
  simp only [execFrameReceive, stepOf, fcs, up, if_true, other]
  refine congrArg Host.Outcome.next ((if_neg (by decide)).trans ((if_neg ?_).trans (if_pos (by decide))))
  simp [least, most, data, sums]

/-- A frame that a filter takes goes to its ring. -/
theorem exec_frameReceive_taken {k act : Nat} (ours : forUs t e f = true) (plain : isRoce t e f p = false)
    (filter : takeFilter t e f p = some (k, act)) (kept : bitsOf act 4 2 ≠ 3) :
    exec (.frameReceive e f) s = .next (ringWrite t e k act f p) := by
  subst counted parsed
  have fcs : (crc32 (f.take (f.length - 4)) == leNat (f.drop (f.length - 4))) = true := beq_iff_eq.mpr good
  change execFrameReceive e f s = _
  simp only [execFrameReceive, stepOf, fcs, up, if_true, filter, ours, plain]
  refine congrArg Host.Outcome.next ((if_neg (by decide)).trans ((if_neg ?_).trans ((if_neg (by decide)).trans ((if_neg (by decide)).trans (if_neg kept)))))
  simp [least, most, data, sums]

end
end
end

section
variable {i : Nat} {j : RxJob}

section
variable (job : (ethAt s e).rx[i]? = some j) (first : ((ethAt s e).rx.take i).any (underWay j.ring) = false) (acked : j.reqs.all (reqDone s) = true)
include job first acked

theorem exec_ringSeqWrite : exec (.ringSeqWrite e i) s = .next
    (if j.stage = 4 then updJobRx (sendPieces s e j).2 e i fun _ => (sendPieces s e j).1
      else if j.stage = 0 then
        let r := feStore s (rgAsid s e j.ring) (reg s (rgReg e j.ring 0) + rgOff s e j.ring j.idx + 0x18) (leBytes 8 (j.idx + 1))
        updJobRx r.2 e i fun j => { j with stage := 5, reqs := r.1 }
      else if j.stage = 5 then entryWhole s e i j else s) := by
  change execRingSeqWrite e i s = _
  simp only [execRingSeqWrite, stepOf, job]
  exact congrArg Host.Outcome.next (if_neg (by rw [first, acked]; decide))

end

theorem exec_ingressMessage (ready : rxAt s e i 1 = some j) (action : rxAct j = 1)
    (room : buffered64 s ((ethAt s e).rx.take i) (ethAt s e).imms < 64) (first : (((ethAt s e).rx.take i).any fun q => rxAct q == 1) = false)
    (free : ctxFree s (rgAsid s e j.ring) = true) :
    exec (.ingressMessage e i) s = .next (postHandler (dropRx s e i) e (rgAsid s e j.ring) (bitsOf j.act 6 2) (bitsOf j.act 8 2)
      (Nat.land (tgReg s e j 8) 0x7730000) (tgReg s e j 0x18 % 2 ^ 40) (BitVec.ofNat 64 (tgReg s e j 0))
      (netDeadline (bitsOf j.act 6 2) j.dts (tgReg s e j 0x10 % 2 ^ 32)) (BitVec.ofNat 64 (entryVa s e j)) (BitVec.ofNat 64 j.dts)) := by
  change execIngressMessage e i s = _
  simp only [execIngressMessage, stepOf, ready]
  exact congrArg Host.Outcome.next ((if_neg (not_not.mpr action)).trans ((if_neg (not_le.mpr room)).trans (if_neg (by rw [first, free]; decide))))

theorem exec_ingressDescriptorCopy {d : List Byte} {r : List Nat × State} (ready : rxAt s e i 1 = some j) (action : rxAct j = 2)
    (first : earlierLaunch s e i = false) (free : qFree s (launchQid s e j) = true) (home : homeFree s (tgReg s e j 0) 64 = true)
    (queue : launchQueue s e j ≠ none) (desc : d = peekHome s (tgReg s e j 0) 64)
    (stored : r = feStore s (rgAsid s e j.ring) (reg s (rgReg e j.ring 0) + descOff s e j)
      (d.take 0x28 ++ leBytes 8 (entryVa s e j) ++ leBytes 8 j.dts ++ d.drop 0x38)) :
    exec (.ingressDescriptorCopy e i) s = .next (updJobRx r.2 e i fun j => { j with stage := 2, reqs := r.1 }) := by
  subst stored desc
  change execIngressDescriptorCopy e i s = _
  simp only [execIngressDescriptorCopy, stepOf, ready]
  exact congrArg Host.Outcome.next ((if_neg (by simp [action, first, free, home])).trans (if_neg (by simp [queue])))

section
variable {qcb : Nat} (free : qFree s (launchQid s e j) = true) (known : qcbOf s (launchQid s e j) = some qcb)
include free known

theorem exec_ingressLaunchCommand {r : List Nat × State} (ready : rxAt s e i 2 = some j)
    (stored : r = feStore s (rgAsid s e j.ring) (qW s qcb 8 + 64 * (qW s qcb 0x28 % qSize (qW s qcb 0x10)))
      (leBytes 8 (1 + j.idx % 2 ^ 32 * 2 ^ 32) ++ leBytes 8 (reg s (rgReg e j.ring 8) + descOff s e j) ++ leBytes 8 0 ++
        leBytes 8 (j.dts + tgReg s e j 0x10 % 2 ^ 32) ++ leBytes 8 (tgReg s e j 0x18 % 2 ^ 40) ++ List.replicate 24 0)) :
    exec (.ingressLaunchCommand e i) s = .next (updJobRx r.2 e i fun j => { j with stage := 3, reqs := r.1 }) := by
  subst stored
  change execIngressLaunchCommand e i s = _
  simp only [execIngressLaunchCommand, stepOf, ready, known]
  exact congrArg Host.Outcome.next (if_neg (by rw [free]; decide))

theorem exec_ingressTailAdvance (ready : rxAt s e i 3 = some j) (queue : launchQueue s e j ≠ none) :
    exec (.ingressTailAdvance e i) s = .next (doorbellTail (dropRx s e i) (launchQid s e j) (qW s qcb 0x28 + 1)) := by
  change execIngressTailAdvance e i s = _
  simp only [execIngressTailAdvance, stepOf, ready, known]
  exact congrArg Host.Outcome.next ((if_neg (by rw [free]; decide)).trans (if_pos (Option.isSome_iff_ne_none.mpr queue)))

end
end
end

/-- Settles O53. -/
theorem ethernetReceiveCompletes : Obligations.EthernetReceiveCompletes := by
  intro s e
  refine ⟨?_, fun f up bad => exec_frameReceive_badFcs up bad, fun f up good pause => exec_frameReceive_pause up good pause, ?_, ?_, ?_, ?_⟩
  · intro f k act up good t p least most data sums
    exact ⟨exec_frameReceive_others up good rfl rfl least most data sums,
      exec_frameReceive_taken up good rfl rfl least most data sums⟩
  · intro i j job first acked
    have written := exec_ringSeqWrite job first acked
    refine ⟨fun stage => written.trans (congrArg _ (if_pos stage)), ?_, ?_⟩
    · intro stage r
      exact written.trans (congrArg _ ((if_neg (by omega)).trans (if_pos stage)))
    · intro stage t
      exact written.trans (congrArg _ ((if_neg (by omega)).trans ((if_neg (by omega)).trans (if_pos stage))))
  · intro i j ready
    refine ⟨fun action room first free => exec_ingressMessage ready action room first free, ?_⟩
    intro action first free home queue d r
    exact exec_ingressDescriptorCopy ready action first free home queue rfl rfl
  · intro i j qcb ready free known r
    exact exec_ingressLaunchCommand free known ready rfl
  · intro i j qcb ready free known queue
    exact exec_ingressTailAdvance free known ready queue

/-! ## A table put twice -/

theorem tdel_tins_same {α : Type} (t : Tbl α) (k : Nat) (a : α) : tdel (tins t k a) k = tdel t k := by
  induction t with
  | nil => simp [tins, tdel]
  | cons p t ih =>
    obtain ⟨j, b⟩ := p
    by_cases below : k < j
    · simp [tins, tdel, below]
    · by_cases same : k = j <;> simp [tins, tdel, below, same] at ih ⊢ <;> exact ih

theorem tdel_tdel_same {α : Type} (t : Tbl α) (k : Nat) : tdel (tdel t k) k = tdel t k := by
  induction t with
  | nil => rfl
  | cons p t ih =>
    obtain ⟨j, b⟩ := p
    by_cases same : k = j <;> simp [tdel, same] at ih ⊢ <;> exact ih

/-- The second of two puts at a key stands. -/
theorem tput_tput_same {α : Type} (t : Tbl α) (k : Nat) (a b : α) : tput (tput t k a) k b = tput t k b := by
  rw [tput, tput, tdel_tins_same, tdel_tdel_same, tput]

/-- Two updates of a pair are one. -/
theorem updQp_updQp (s : State) (e qp : Nat) (f g : Qp → Qp) : updQp (updQp s e qp f) e qp g = updQp s e qp fun x => g (f x) := by
  simp [updQp, updEth, ethAt, tput_tput_same]

/-! ## The pair's entry (R391) -/

section
variable {s t : State} {e qp : Nat}

section
variable (read : t = updQp s e qp fun x => { x with ent := peekHome s (qpAt s e qp) 64 }) (good : qpBad t e qp = false)
include read good

theorem readQp_of_ready (ready : qpState t e qp = 1) : readQp s e qp = (.ready, t) := by
  subst read
  refine (if_neg (Bool.eq_false_iff.mp good)).trans ?_
  generalize qpState _ e qp = n at ready ⊢
  subst ready
  rfl

theorem readQp_of_reset (reset : qpState t e qp = 0) : readQp s e qp = (.reset, t) := by
  subst read
  refine (if_neg (Bool.eq_false_iff.mp good)).trans ?_
  generalize qpState _ e qp = n at reset ⊢
  subst reset
  rfl

theorem readQp_of_error {n : Nat} (error : qpState t e qp = n + 2) : readQp s e qp = (.error, t) := by
  subst read
  refine (if_neg (Bool.eq_false_iff.mp good)).trans ?_
  generalize qpState _ e qp = m at error ⊢
  subst error
  rfl

end
end

/-! ## RoCEv2 doorbells and work entries (R391, R392) -/

section
variable {s s2 t u : State} {e qp : Nat}

/-- A doorbell of a pair that is not in RESET moves its tail, or breaks the pair. -/
theorem rcDb_of {v : Nat} (pair : qp < reg s (ethReg e 0xC08))
    (read : t = updQp s e qp fun x => { x with ent := peekHome s (qpAt s e qp) 64 }) (good : qpBad t e qp = false) (set : qpState t e qp ≠ 0) :
    rcDb s e qp v =
      (let more := (v + 2 ^ 32 - (qpOf t e qp).tail % 2 ^ 32) % 2 ^ 32
       if (qpOf t e qp).tail + more - (qpOf t e qp).head > 2 ^ (qpField t e qp 0x14 1 + 4) then breakQp t e qp (qpOf t e qp).tail 6
       else updQp t e qp fun x => { x with tail := x.tail + more }) := by
  refine (if_neg (not_le.mpr pair)).trans ?_
  rcases e' : qpState t e qp with _ | _ | n
  · exact absurd e' set
  · rw [readQp_of_ready read good e']
  · rw [readQp_of_error read good e']

section
variable {x : Qp} {w : QpWork} (real : e < 4) (pair : x = qpOf s e qp) (work : w = readWork s e qp x.head) (live : qpLive s e qp = true)
  (some_ : x.head < x.tail) (free : homeFree s (workAt s e qp x.head) 64 = true)
include real pair work live some_ free

theorem exec_workEntryRun {l : List (Loc × Nat)} (ready : qpState s e qp = 1) (valid : workBad s e qp x.head = false)
    (turn : w.op = 2 → (x.work.any fun v => v.op != 2 && !v.acked) = false)
    (range : rcParts s (qpAsid s e qp) w.lva w.len (if w.op = 2 then .store else .load) = (.ok l, s2)) :
    exec (.workEntryRun e qp) s = .next (startWork (updQp s2 e qp fun x => { x with head := x.head + 1 }) e qp w l) := by
  subst pair work
  change execWorkEntryRun e qp s = _
  simp only [execWorkEntryRun, stepOf, range]
  refine congrArg Host.Outcome.next ((if_neg ?_).trans ((if_neg (by omega)).trans ((if_neg (Bool.eq_false_iff.mp valid)).trans (if_neg ?_))))
  · simp [real, live, some_, free]
  · rintro both
    obtain ⟨isRead, earlier⟩ := Bool.and_eq_true_iff.mp both
    exact Bool.eq_false_iff.mp (turn (of_decide_eq_true isRead)) earlier

/-- The entry of a pair in ERROR is flushed. -/
theorem exec_workEntryRun_flush (error : qpState s e qp = 2) : exec (.workEntryRun e qp) s = .next (retireQp (updQp s e qp fun x =>
    { x with head := x.head + 1, work := x.work ++ [{ w with status := 6, acked := true, reqs := [] }] }) e qp) := by
  subst pair work
  change execWorkEntryRun e qp s = _
  simp only [execWorkEntryRun, stepOf]
  refine congrArg Host.Outcome.next ((if_neg ?_).trans ((if_pos error).trans ?_))
  · simp [real, live, some_, free]
  · exact congrArg (fun r => retireQp r e qp) (updQp_updQp s e qp _ _)

end
end

/-- Settles O54. -/
theorem roceEventsComplete : Obligations.RoceEventsComplete := by
  intro s s2 e qp real
  refine ⟨?_, ?_⟩
  · intro v pair free t x more good set
    have rung : exec (.rcDb e qp v) s = .next (rcDb s e qp v) := congrArg Host.Outcome.next (if_pos (by simp [real, free]))
    have moved := rung.trans (congrArg _ (rcDb_of (v := v) pair (t := t) rfl good set))
    exact ⟨fun fits => moved.trans (congrArg _ (if_neg (not_lt.mpr fits))), fun past => moved.trans (congrArg _ (if_pos past))⟩
  · intro x w live some_ free
    refine ⟨?_, exec_workEntryRun_flush real rfl rfl live some_ free⟩
    intro l ready valid turn range u n g first
    exact exec_workEntryRun real rfl rfl live some_ free ready valid turn range

/-! ## RoCEv2 responses and retries (R378, R392, R395) -/

section
variable {s s2 t : State} {e qp psn : Nat} {data : List Byte}

section
variable (up : ethUp s e = true) (on : roceOn s e = true) (pair : qp < reg s (ethReg e 0xC08)) (live : qpLive s e qp = true)
include up on pair live

/-- A NAK is counted. -/
theorem exec_roceResponsePacket_nak {k : Nat} (nak : k = 1 ∨ k = 2 ∨ k = 3) (counted : t = ethCount s e 0x138) :
    exec (.roceResponsePacket e qp psn k data) s = .next
      (if k = 1 then resend (updQp t e qp fun x => { x with since := t.clock.clk }) e qp else fatalNak t e qp psn (if k = 2 then 3 else 5)) := by
  subst counted
  have pair' : ¬ (qp ≥ reg (ethCount s e 0x138) (ethReg e 0xC08)) := by
    refine not_le.mpr (pair.trans_eq ?_)
    exact (tgetD_tput_other _ _ _ (by simp [ethReg])).symm
  have live' : qpLive (ethCount s e 0x138) e qp = true := live
  rcases nak with rfl | rfl | rfl <;>
    exact congrArg Host.Outcome.next ((if_neg (by simp [up, on])).trans (if_neg (by
      show ¬ ((decide (qp ≥ reg (ethCount s e 0x138) (ethReg e 0xC08)) || !qpLive (ethCount s e 0x138) e qp) = true)
      rw [live', decide_eq_false pair']
      decide)))

theorem exec_roceResponsePacket_ack : exec (.roceResponsePacket e qp psn 0 data) s = .next (retireQp (updQp s e qp fun x =>
    { x with since := s.clock.clk, retries := 0, work := x.work.map (ackWork (qpMtu s e qp) psn) }) e qp) :=
  congrArg Host.Outcome.next ((if_neg (by simp [up, on])).trans (if_neg (by simp [live, pair])))

theorem exec_roceResponsePacket_read (ready : qpState s e qp = 1) : exec (.roceResponsePacket e qp psn 4 data) s = .next
    (retireQp (readResponse s e qp psn data) e qp) :=
  congrArg Host.Outcome.next ((if_neg (by simp [up, on])).trans ((if_neg (by simp [live, pair])).trans (if_pos ready)))

end

theorem fatalNak_of {w : QpWork} {status : Nat} (held : ((qpOf s e qp).work.find? fun w => !w.acked && holdsPsn w psn) = some w) :
    fatalNak s e qp psn status = breakQp s e qp w.j status := by
  simp only [fatalNak, held]

/-- The next bytes of the oldest READ are written at their place. -/
theorem readResponse_of {w w' : QpWork} {l : List (Loc × Nat)} {r : List Nat × State}
    (read : ((qpOf s e qp).work.find? fun w => w.op == 2 && !w.acked) = some w)
    (turn : psn = (w.first + w.moved / qpMtu s e qp) % 2 ^ 24) (size : data.length = min (qpMtu s e qp) (w.len - w.moved))
    (range : rcParts s (qpAsid s e qp) (w.lva + w.moved) data.length .store = (.ok l, s2))
    (stored : r = rcScatter s2 (qpAsid s2 e qp) w.reqs l data)
    (moved : w' = { w with moved := w.moved + data.length, reqs := w.reqs ++ r.1, acked := w.moved + data.length == w.len }) :
    readResponse s e qp psn data = updQp r.2 e qp fun x =>
      { x with since := r.2.clock.clk, retries := 0, work := x.work.map fun v => if v = w then w' else v } := by
  subst stored moved
  simp only [readResponse, read, range]
  exact if_neg (not_or.mpr ⟨not_not.mpr turn, not_not.mpr size⟩)

theorem exec_roceRetryTimeout {w : QpWork} (real : e < 4) (live : qpLive s e qp = true)
    (open_ : ((qpOf s e qp).work.find? fun w => !w.acked) = some w) (late : (qpOf s e qp).since + 117000 ≤ s.clock.clk) :
    exec (.roceRetryTimeout e qp) s = .next (if (qpOf s e qp).retries ≥ 7 then breakQp s e qp w.j 4
      else resend (updQp s e qp fun x => { x with retries := x.retries + 1, since := s.clock.clk }) e qp) := by
  change execRoceRetryTimeout e qp s = _
  simp only [execRoceRetryTimeout, stepOf, open_]
  exact congrArg Host.Outcome.next (if_neg (by simp [real, live, late]))

end

/-- Settles O55. -/
theorem roceResponsesComplete : Obligations.RoceResponsesComplete := by
  intro s e qp real live
  refine ⟨?_, ?_⟩
  · intro psn data up on pair fresh
    refine ⟨exec_roceResponsePacket_ack up on pair live, exec_roceResponsePacket_nak up on pair live (.inl rfl) rfl, ?_, ?_⟩
    · rintro w k held (rfl | rfl)
      · exact (exec_roceResponsePacket_nak up on pair live (.inr (.inl rfl)) rfl).trans (congrArg _ (fatalNak_of held))
      · exact (exec_roceResponsePacket_nak up on pair live (.inr (.inr rfl)) rfl).trans (congrArg _ (fatalNak_of held))
    · intro w l s2 ready read turn size range r w'
      exact (exec_roceResponsePacket_read up on pair live ready).trans
        (congrArg (fun u => Host.Outcome.next (retireQp u e qp)) (readResponse_of read turn size range rfl rfl))
  · intro w open_ late
    have timed := exec_roceRetryTimeout real live open_ late
    exact ⟨fun again => timed.trans (congrArg _ (if_neg (not_le.mpr again))), fun last => timed.trans (congrArg _ (if_pos last))⟩

/-! ## RoCEv2 requests and writes with Immediate (R389, R391, R393, R394) -/

theorem psnAfter_self (p : Nat) : psnAfter p p = true := by simp [psnAfter]

section
variable {s s2 t u v : State} {e qp psn va rkey len : Nat} {data : List Byte} {l : List (Loc × Nat)}

/-- A READ request is answered with the bytes of its range. -/
theorem readRequest_of {g : List Byte × State} {r : State} (free : homeFree s (mrAt s e rkey) 32 = true) (key : keyOk s e qp rkey va len false = true)
    (range : rcParts s (qpAsid s e qp) va len .load = (.ok l, s2)) (gathered : g = rcGather s2 (qpAsid s2 e qp) l)
    (sent : r = sendPackets (updEth g.2 e fun y => { y with sent := g.1 }) e (packets g.2 e qp len)) :
    readRequest s e qp psn false va rkey len = updQp r e qp fun x =>
      { x with epsn := (x.epsn + packets r e qp len) % 2 ^ 24, nakOut := false } := by
  subst sent gathered
  simp only [readRequest, range]
  exact (if_neg (by rw [free]; decide)).trans (if_neg (by rw [key]; decide))

/-- The data of a WRITE Only, at the head of the pair's writes, is written, and its ACK waits for it. -/
theorem writePacket_of_only {rest : List (Nat × Nat × Nat × Nat)} {before : List Nat} {r : List Nat × State}
    (head : (qpOf s e qp).wrs = (psn, va, rkey, len) :: rest) (whole : data.length = len) (size : len ≤ qpMtu s e qp)
    (free : homeFree s (mrAt s e rkey) 32 = true) (key : keyOk s e qp rkey va len true = true)
    (range : rcPartsOf s (qpAsid s e qp) va len 0 len .store = (.ok l, s2))
    (earlier : before = ((qpOf s e qp).acks.flatMap fun a => a.2) ++ ((ethAt s2 e).imms.filter fun j => j.qp == qp).flatMap fun j => j.reqs)
    (stored : r = rcScatter s2 (qpAsid s2 e qp) before l data) :
    writePacket s e qp psn false false none data = updQp (updQp r.2 e qp fun x =>
      { x with epsn := (x.epsn + 1) % 2 ^ 24, nakOut := false }) e qp fun x => { x with acks := x.acks ++ [(psn, r.1)] } := by
  subst stored earlier whole
  have found : ((qpOf s e qp).wrs.find? fun w => psnAfter psn w.1) = some (psn, va, rkey, data.length) := by
    rw [head]
    exact List.find?_cons_of_pos (psnAfter_self psn)
  have start : (psn + 2 ^ 24 - psn) % 2 ^ 24 * qpMtu s e qp = 0 := by simp
  simp only [writePacket, found, start, range]
  refine (if_neg ?_).trans ((if_neg (by rw [free]; decide)).trans (if_neg ?_))
  · simpa using size
  · simp [key]

section
variable {op imm : Nat} (up : ethUp s e = true) (on : roceOn s e = true) (pair : qp < reg s (ethReg e 0xC08))
  (free : homeFree s (qpAt s e qp) 64 = true) (read : t = updQp s e qp fun x => { x with ent := peekHome s (qpAt s e qp) 64 })
  (good : qpBad t e qp = false)
include up on pair free read good

/-- A pair that is not ready refuses. -/
theorem exec_roceRequestPacket_refused (unready : qpState t e qp ≠ 1) :
    exec (.roceRequestPacket e qp psn op va rkey len imm data) s = .next (rcAnswer t e qp psn 3) := by
  refine congrArg Host.Outcome.next ((if_neg (by simp [up, on])).trans ((if_neg (not_le.mpr pair)).trans ((if_neg (by simp [free])).trans ?_)))
  rcases state : qpState t e qp with _ | _ | n
  · rw [readQp_of_reset read good state]
  · exact absurd state unready
  · rw [readQp_of_error read good state]

section
variable (ready : qpState t e qp = 1) (answered : u = acksOut t e qp)
include ready answered

/-- The expected packet of a ready pair is a READ request or one of a WRITE. -/
theorem exec_roceRequestPacket_expected {p : Nat} (short : p = psn % 2 ^ 24) (expected : p = (qpOf u e qp).epsn) (known : op ≤ 6) :
    exec (.roceRequestPacket e qp psn op va rkey len imm data) s = .next
      (if op = 6 then readRequest u e qp p false va rkey len
       else writePacket (if op = 0 ∨ op = 3 ∨ op = 5 then updQp u e qp fun x => { x with wrs := (p, va, rkey, len) :: x.wrs } else u)
        e qp p false (op ≤ 1) (if op ≥ 4 then some imm else none) data) := by
  subst answered
  have same : (p != (qpOf (acksOut t e qp) e qp).epsn) = false := bne_eq_false_iff_eq.mpr expected
  refine congrArg Host.Outcome.next ((if_neg (by simp [up, on])).trans ((if_neg (not_le.mpr pair)).trans ((if_neg (by simp [free])).trans ?_)))
  rw [readQp_of_ready read good ready, ← short]
  simp [same, not_lt.mpr known, or_assoc]

/-- A packet past the expected one is answered with one NAK. -/
theorem exec_roceRequestPacket_ahead {p : Nat} (short : p = psn % 2 ^ 24) (other : p ≠ (qpOf u e qp).epsn)
    (past : psnAfter (qpOf u e qp).epsn p = false) (first : (qpOf u e qp).nakOut = false) :
    exec (.roceRequestPacket e qp psn op va rkey len imm data) s = .next
      (rcAnswer (updQp u e qp fun x => { x with nakOut := true }) e qp (qpOf u e qp).epsn 1) := by
  subst answered
  have new : (p != (qpOf (acksOut t e qp) e qp).epsn) = true := bne_iff_ne.mpr other
  refine congrArg Host.Outcome.next ((if_neg (by simp [up, on])).trans ((if_neg (not_le.mpr pair)).trans ((if_neg (by simp [free])).trans ?_)))
  rw [readQp_of_ready read good ready, ← short]
  refine (if_pos ?_).trans (if_neg (by rw [first]; decide))
  rw [new, past]
  decide

end
end

theorem exec_writeImmHandler {i : Nat} {j : ImmJob} {f : Nat → Nat → Nat} (job : (ethAt s e).imms[i]? = some j) (acked : j.reqs.all (reqDone s) = true)
    (first : (((ethAt s e).imms.take i).any fun k => k.qp == j.qp) = false) (free : ctxFree s (qpAsid s e j.qp) = true)
    (room : buffered64 s (ethAt s e).rx ((ethAt s e).imms.take i) < 64) (field : f = qpField s e j.qp)
    (taken : t = updEth (acksOut s e j.qp) e fun x => { x with imms := dropAt x.imms i })
    (posted : u = postHandler t e (qpAsid t e j.qp) (f 0x16 1 % 4) (f 0x16 1 / 4 % 4) (Nat.land (f 0x30 4) 0x7730000) (f 0x38 5)
      (BitVec.ofNat 64 (f 0x28 8)) (netDeadline (f 0x16 1 % 4) j.dts (f 0x34 4)) (BitVec.ofNat 64 (j.imm + j.qp * 2 ^ 32)) (BitVec.ofNat 64 j.len)) :
    exec (.writeImmHandler e i) s = .next (acksOut (updQp u e j.qp fun x => { x with acks := (j.psn, []) :: x.acks }) e j.qp) := by
  subst posted taken field
  change execWriteImmHandler e i s = _
  simp only [execWriteImmHandler, stepOf, job]
  refine congrArg Host.Outcome.next ((if_neg (by simp only [acked, first, free]; decide)).trans ?_)
  exact congrArg (fun u => acksOut (updQp u e j.qp fun x => { x with acks := (j.psn, []) :: x.acks }) e j.qp) (if_neg (not_le.mpr room))

end

/-- Settles O56. -/
theorem roceRequestsComplete : Obligations.RoceRequestsComplete := by
  intro s e
  refine ⟨?_, ?_⟩
  · intro qp psn op va rkey len imm data up on pair free t u p good
    refine ⟨exec_roceRequestPacket_refused up on pair free rfl good, ?_, ?_⟩
    · intro ready expected
      refine ⟨?_, ?_⟩
      · intro l s2 isRead home key range g r
        subst isRead
        exact (exec_roceRequestPacket_expected up on pair free rfl good ready rfl rfl expected (le_refl 6)).trans
          (congrArg _ ((if_pos rfl).trans (readRequest_of home key range rfl rfl)))
      · intro l s2 v before isWrite whole size home key range r
        subst isWrite
        have head : (qpOf v e qp).wrs = (p, va, rkey, len) :: (qpOf u e qp).wrs := by simp [v, qpOf, updQp, updEth, ethAt]
        exact (exec_roceRequestPacket_expected up on pair free rfl good ready rfl rfl expected (by decide)).trans
          (congrArg _ ((if_neg (by decide)).trans (writePacket_of_only head whole size home key range rfl rfl)))
    · intro ready other past first
      exact exec_roceRequestPacket_ahead up on pair free rfl good ready rfl rfl other past first
  · intro i j job acked first free room f cls t u
    exact exec_writeImmHandler job acked first free room rfl rfl rfl

end Sys2Proof.Machine
end

section
/-! The scheduler, capture and return, the seams and the platform (O57 to O60). -/

namespace Sys2Proof.Machine

/-! ## Accounts, deadlines, the event ring and capture requests (R406 to R408, R413, R415, R421 to R423) -/

section
variable {s s1 t : State}

section
variable {a : Nat} {ac : Acct} (account : tget s.work.accts a = some ac)
include account

theorem exec_accountZero (zero : atZero ac = true) : exec (.accountZero a) s = .next (overrun s a ac) := by
  change execAccountZero a s = _
  simp only [execAccountZero, stepOf, accountZero, account]
  exact congrArg Host.Outcome.next (if_pos zero)

/-- Once the grace is over, what the account pays for is captured. -/
theorem exec_graceExpiry {g : Nat} (grace : ac.graceEnd = some g) (past : g ≤ s.clock.clk) (open_ : ac.closed = false)
    (uncaptured : ((s.harts.filter fun p => p.2.id.acct == a).any fun p => p.2.capture.isNone) = true) :
    exec (.graceExpiry a) s = .next { s with harts := s.harts.map fun p =>
      if p.2.id.acct = a ∧ p.2.capture.isNone then (p.1, { p.2 with capture := some s.clock.clk }) else p } := by
  change execGraceExpiry a s = _
  simp only [execGraceExpiry, stepOf, account, grace]
  exact congrArg Host.Outcome.next ((if_pos ⟨past, by rw [open_]; rfl⟩).trans (if_pos uncaptured))

end

section
variable {gk : Nat} {g : Grid} (grid : tget s.work.grids gk = some g)
include grid

theorem exec_deadlineMiss (first : g.missed = false) (live : g.retired = false) (dated : g.dline < 2 ^ 64 - 1) (past : g.dline ≤ timeNow s)
    (noted : t = updGrid (raiseIrq s 20 (hartUnder s gk)) gk fun g => { g with missed := true }) :
    exec (.deadlineMiss gk) s = .next
      (pushEvent (bumpReg t cntMiss 63 1) { type := 6, asid := g.asid, grid := g.num, pa := 0, team := 0, core := 0xFF }) := by
  subst noted
  have due : missDue s g = true := by simpa [missDue, first, live, past] using dated
  change execDeadlineMiss gk s = _
  simp only [execDeadlineMiss, stepOf, deadlineMiss, grid]
  exact congrArg Host.Outcome.next (if_neg (by rw [due]; decide))

/-- An Ibex grid that finds no cores asks for those of the victims. -/
theorem exec_captureRequest_ibex {r : HomeRes} {v : List Nat} {n : Nat} (may : mayPlace s g = true) (ibex : g.cls = 0)
    (first : outrankedGrid s gk g = false) (home : dataHome s g = (r, s1)) (found : r = .any ∨ ∃ c, r = .core c)
    (victims : victimsFor s1 gk g (homeCore? r) = some v) :
    exec (.captureRequest gk n 0) s = .next (v.foldl (fun s t => requestCapture s (ywaitIbex s) t) s1) := by
  change execCaptureRequest gk n 0 s = _
  rcases found with rfl | ⟨c, rfl⟩ <;> simp only [execCaptureRequest, stepOf, grid, home, victims] <;>
    exact congrArg Host.Outcome.next ((if_pos trivial).trans (if_neg (by simp [may, ibex, first])))

end

/-- A team that its die or its context makes leave is asked to. -/
theorem exec_captureRequest_leave {n tk : Nat} {m : Team} (team : tget s.work.teams tk = some m) (leaves : mustLeave s m = true) :
    exec (.captureRequest n tk 1) s = .next (captureAll s (ywaitLower s) tk) := by
  change execCaptureRequest n tk 1 s = _
  simp only [execCaptureRequest, stepOf, team]
  exact congrArg Host.Outcome.next ((if_neg (by decide)).trans ((if_neg (by decide)).trans (if_pos leaves)))

theorem exec_captureRequest_return {n tk : Nat} {m : Team} {g : Grid} {v : List Nat} (team : tget s.work.teams tk = some m) (grid : gridOf s m = some g)
    (may : mayReturn s m = true) (ibex : g.cls = 0) (first : outrankedGrid s m.grid g = false) (victims : victimsBack s tk m g = some v) :
    exec (.captureRequest n tk 2) s = .next (v.foldl (fun s t => requestCapture s (ywaitIbex s) t) s) := by
  change execCaptureRequest n tk 2 s = _
  simp only [execCaptureRequest, stepOf, team, grid, victims]
  exact congrArg Host.Outcome.next ((if_neg (by decide)).trans ((if_pos trivial).trans (if_neg (by simp [may, ibex, first]))))

theorem exec_yieldWindowExpiry {k e : Nat} {h : Hart} {m : Team} (there : hartAt s k = some h) (team : teamOf s h = some m)
    (window : m.yieldEnd = some e) (past : e < slotClk s k) (live : m.stat = .live) :
    exec (.yieldWindowExpiry k) s = .next ((leavesWith s h.id.team).foldl forceCapture s) := by
  change execYieldWindowExpiry k s = _
  simp only [execYieldWindowExpiry, stepOf, there, team, window]
  exact congrArg Host.Outcome.next (if_pos (by simp [past, live]))

theorem exec_eventRecordWrite {e : EvtRec} {rest : List EvtRec} {bs : List Byte} {n at_ : Nat} (queue : s.sch.evq = e :: rest)
    (idle : s.sch.evReqs = []) (on : (reg s evtCfg).testBit 4 = true) (tail : n = reg s evtTail) (room : n < reg s evtHead + evtSize s)
    (place : at_ = reg s evtBase + 32 * (n % evtSize s)) (quiet : ((linesOf at_ 32).any (mustQueue s)) = false)
    (bytes : bs = leBytes 1 e.type ++ leBytes 1 ((n / evtSize s + 1) % 2) ++ leBytes 2 e.asid ++ leBytes 4 e.grid ++ leBytes 8 e.pa ++
      leBytes 4 e.team ++ leBytes 1 e.core ++ List.replicate 3 0 ++ leBytes 8 (timeNow s)) :
    exec .eventRecordWrite s = .next (afterEvent (homeWrite s 0 at_ bs) e rest) := by
  subst tail place bytes
  change execEventRecordWrite s = _
  simp only [execEventRecordWrite, stepOf, queue]
  refine congrArg Host.Outcome.next ((if_neg ?_).trans ((if_neg ?_).trans (if_neg (Bool.eq_false_iff.mp quiet))))
  · simp [idle]
  · simp [on, room]

theorem exec_schWinrel {v tk : Nat} {m : Team} (go : v.testBit 0 = true) (team : teamOfRec s (bitsOf v 16 36 * 65536) = some (tk, m))
    (hands : m.handOver = true) :
    exec (.schWinrel v) s = .next (finishHandOver (updTeam s tk fun t => { t with released := true }) tk) := by
  change execSchWinrel v s = _
  simp only [execSchWinrel, stepOf, team]
  exact congrArg Host.Outcome.next ((if_neg (by rw [go]; decide)).trans (if_neg (by rw [hands]; decide)))

/-- The windows of a team that leaves are handed over once its record's event is written and they are released. -/
theorem finishHandOver_of {tk : Nat} {m : Team} (team : tget s.work.teams tk = some m) (leaves : m.stat ≠ .restoring) (hands : m.handOver = true)
    (released : m.released = true) (told : (s.sch.evq.any fun e => e.pa == m.recPa && (e.type == 2 || e.type == 3)) = false)
    (done : t = updTeam s tk fun t => { t with handOver := false, released := false }) :
    finishHandOver s tk = { t with cores := t.cores.map fun p => (p.1, { p.2 with winVac := p.2.winVac.filter fun x => x.2.1 != tk }) } := by
  subst done
  have notBack : (m.stat == .restoring) = false := beq_eq_false_iff_ne.mpr leaves
  simp only [finishHandOver, team, told]
  exact (if_neg (by simp [leaves, hands, released])).trans (if_neg (Bool.eq_false_iff.mp notBack))

section
variable {v : Nat}

theorem exec_schShoot (go : v.testBit 18 = true) (idle : (reg s schShstat).testBit 0 = false) : exec (.schShoot v) s = .next (setReg (sendShoot s 0
    (if v.testBit 17 then none else some (bitsOf (reg s (schBase + 0x58)) 12 36)) (if v.testBit 16 then none else some (v % 2 ^ 16))).2 schShstat 1) :=
  congrArg Host.Outcome.next (if_neg (by simp [go, idle]))

theorem exec_evtHeadWrite (least : reg s evtHead ≤ v) (most : v ≤ reg s evtTail) : exec (.evtHeadWrite v) s = .next (setReg s evtHead v) :=
  congrArg Host.Outcome.next (if_pos ⟨least, most⟩)

/-- A ring that is turned on is empty. -/
theorem exec_evtCfgWrite (off : (reg s evtCfg).testBit 4 = false) (size : v % 16 < 9) (on : v.testBit 4 = true) :
    exec (.evtCfgWrite v) s = .next (setReg (setReg (setReg s evtCfg (v % 16 + 16)) evtHead 0) evtTail 0) := by
  refine congrArg Host.Outcome.next ((if_neg (Bool.eq_false_iff.mp off)).trans ((if_neg (not_le.mpr size)).trans ?_))
  rw [on]
  exact if_pos rfl

end
end

/-- Settles O57. -/
theorem schedulerEventsComplete : Obligations.SchedulerEventsComplete := by
  intro s s1
  refine ⟨fun a ac account => ⟨exec_accountZero account, fun g grace past open_ uncaptured => exec_graceExpiry account grace past open_ uncaptured⟩,
    ?_, fun tk t g team leaves => exec_captureRequest_leave team leaves,
    fun tk t g n v team grid may ibex first victims => exec_captureRequest_return team grid may ibex first victims,
    fun k h t e there team window past live => exec_yieldWindowExpiry there team window past live, ?_, fun asid => rfl, fun asid => rfl,
    fun v tk t go team hands => exec_schWinrel go team hands, ?_, fun v go idle => exec_schShoot go idle, rfl,
    fun v least most => exec_evtHeadWrite least most, fun v off size on => exec_evtCfgWrite off size on⟩
  · intro gk g grid
    refine ⟨?_, fun r v n may ibex first home found victims => exec_captureRequest_ibex grid may ibex first home found victims⟩
    intro first live dated past t
    exact exec_deadlineMiss grid first live dated past rfl
  · intro e rest queue idle on room n quiet t u v
    exact exec_eventRecordWrite queue idle on rfl room rfl quiet rfl
  · intro tk t team leaves hands released told u
    exact finishHandOver_of team leaves hands released told rfl

/-! ## Capture, save, restore and restart (R136 to R140, R416 to R420, R423) -/

section
variable {s s1 t : State} {i : Nat}

section
variable {m : Team} (team : tget s.work.teams i = some m)
include team

theorem exec_captureComplete_team {g : Grid} (grid : gridOf s m = some g) (capturing : m.stat = .capturing) (live : ctxDead s m.asid = false)
    (free : ctxFree s m.asid = true) : exec (.captureComplete i) s = .next (captureTeam s i m g) := by
  change execCaptureComplete i s = _
  simp only [execCaptureComplete, stepOf, team, grid]
  exact congrArg Host.Outcome.next (if_pos (by simp [capturing, live, free]))

theorem exec_saveComplete_team (saving : m.stat = .saving) (told : evPending s m.recPa = false)
    (performed : ((savesOf s i).any fun p => !savePerformed s p.2) = false) (saved : m.told = 1) :
    exec (.saveComplete i) s = .next
      (if doomed (finishSave s i m) m then discardTeam (finishSave s i m) i else finishSave s i m) := by
  change execSaveComplete i s = _
  simp only [execSaveComplete, stepOf, team]
  refine congrArg Host.Outcome.next ((if_neg ?_).trans (if_neg (not_not.mpr saved)))
  rw [saving, told, performed]
  decide

section
variable {g : Grid} (grid : gridOf s m = some g) (single : g.spec.gang = false)
include grid single

theorem exec_teamRestore {cl : Claim} (may : mayReturn s m = true) (quiet : noCommit s g.tenant = true)
    (first : outrankedGrid s m.grid g = false) (turn : earlierReturn s m g = false) (free : recFree s m g = true)
    (claim : returnClaim s i m g = some cl) : exec (.teamRestore i) s = .next (restoreTeam (notePlaced s m.grid g) i m g cl) := by
  change execTeamRestore i s = _
  simp only [execTeamRestore, stepOf, team, grid, claim]
  exact congrArg Host.Outcome.next ((if_neg (by simp [may, quiet, first, turn])).trans
    ((if_neg (Bool.eq_false_iff.mp single)).trans (if_neg (by simp [free]))))

/-- A team whose windows have been handed over starts again, unless a line of its records is lost. -/
theorem exec_restoreStart (ready : startReady s i m g = true) : exec (.restoreStart i) s = .next
    (if ((savesOf s i).any fun p => lostRecord s p.2) = true then contextFault s m.asid 3 else startTeamBack s i m) := by
  have alone : restartsWith s i m g = [(i, m)] := if_neg (Bool.eq_false_iff.mp single)
  have handed : m.handOver = false := by
    cases e : m.handOver with
    | false => rfl
    | true => simp [startReady, e] at ready
  have kept : (m.stat == .restoring && m.handOver) = false := by rw [handed, Bool.and_false]
  change execRestoreStart i s = _
  simp only [execRestoreStart, stepOf, team, grid, kept, alone]
  refine congrArg Host.Outcome.next ((if_neg (by decide)).trans ((if_neg ?_).trans (if_congr ?_ rfl rfl)))
  · simp [ready]
  · simp

end
end

theorem captureHandler_of {k pa : Nat} {h g : Hart} (boundary : atBoundary s k h = true) (good : h.vbad = [])
    (alloc : allocRec s h.id.asid 1 = some pa) (taken : captureHart s k h = some (g, s1)) : captureHandler s k h =
      putSaved (ctxWrite s1 g.id.asid pa (hartRecord s1 k g ++ readWin s1 (coreOfSlot k) g.id.land 0 4096)) k g pa := by
  simp only [captureHandler, alloc, taken]
  exact (if_neg (by rw [boundary]; decide)).trans (if_neg (by rw [good]; decide))

section
variable (noTeam : tget s.work.teams i = none)
include noTeam

theorem exec_captureComplete_handler {k pa : Nat} {h g : Hart} (slot : slotOfUid s i = some k) (there : hartAt s k = some h)
    (handler : h.id.handler = true) (captured : h.capture.isSome = true) (live : ctxDead s h.id.asid = false)
    (free : ctxFree s h.id.asid = true) (boundary : atBoundary s k h = true) (good : h.vbad = [])
    (alloc : allocRec s h.id.asid 1 = some pa) (taken : captureHart s k h = some (g, s1)) : exec (.captureComplete i) s = .next
      (putSaved (ctxWrite s1 g.id.asid pa (hartRecord s1 k g ++ readWin s1 (coreOfSlot k) g.id.land 0 4096)) k g pa) := by
  change execCaptureComplete i s = _
  simp only [execCaptureComplete, stepOf, noTeam, slot, there]
  refine congrArg Host.Outcome.next ((if_pos ?_).trans (captureHandler_of boundary good alloc taken))
  simp [handler, captured, live, free]

theorem exec_saveComplete_handler {z : SavedHart} (saved : tget s.work.saves i = some z) (handler : z.hart.id.handler = true)
    (held : z.freed = false) (performed : savePerformed s z = true) : exec (.saveComplete i) s = .next
      { s with work := { s.work with saves := tupd s.work.saves i fun z => { z with freed := true } } } := by
  change execSaveComplete i s = _
  simp only [execSaveComplete, stepOf, noTeam, saved]
  exact congrArg Host.Outcome.next (if_pos (by simp [handler, held, performed]))

end
end

/-- Settles O58. -/
theorem captureAndReturnComplete : Obligations.CaptureAndReturnComplete := by
  intro s i
  refine ⟨?_, ?_, fun z noTeam saved handler held performed => exec_saveComplete_handler noTeam saved handler held performed⟩
  · intro t g team grid
    refine ⟨fun saved s1 capturing live free _ _ _ => exec_captureComplete_team team grid capturing live free, exec_saveComplete_team team,
      fun cl may quiet first turn single free claim => exec_teamRestore team grid single may quiet first turn free claim, ?_⟩
    intro ready single
    have started := exec_restoreStart team grid single ready
    refine ⟨fun lost => started.trans (congrArg _ (if_pos lost)), ?_⟩
    intro kept v
    exact started.trans (congrArg _ (if_neg (Bool.eq_false_iff.mp kept)))
  · intro k h pa g s1 noTeam slot there handler captured live free boundary good alloc taken
    exact exec_captureComplete_handler noTeam slot there handler captured live free boundary good alloc taken

/-! ## Flits, replays and retrains (R426 to R436) -/

section
variable {s t u : State} {n : Nat} {ab : Bool}

section
variable {m : Nat} {f : List Byte} (real : n < 24) (whole : f.length = 256) (up : smState s n = 1) (turn : nextModule s n ab = some m)
include real whole up turn

theorem flit_taken : ¬ ((decide (n ≥ 24) || f.length != 256 || smState s n != 1 || nextModule s n ab != some m) = true) := by
  simp [real, whole, up, turn]

section
variable (taken : t = updDir s n ab fun d => { d with turn := m })
include taken

/-- A flit that fails its CRC asks for a replay. -/
theorem exec_flitReceive_bad (bad : flitGood f = false) : exec (.flitReceive n ab m f) s = .next
    (askReplay (updDir (bumpReg (sendLost t n ab) (smCrc n (dirIx ab)) 63 1) n ab fun d => { d with failedOn := d.failedOn ++ [(m, s.clock.clk)] }) n ab) := by
  subst taken
  exact congrArg Host.Outcome.next ((if_neg (flit_taken real whole up turn)).trans (if_pos (by rw [bad]; rfl)))

section
variable (good : flitGood f = true) (formed : flitFormed f = true)
include good formed

theorem exec_flitReceive_control (control : flitKind f ≠ 0) : exec (.flitReceive n ab m f) s = .next (applyAck t n ab f) := by
  subst taken
  exact congrArg Host.Outcome.next ((if_neg (flit_taken real whole up turn)).trans ((if_neg (by rw [good]; decide)).trans
    ((if_neg (by rw [formed]; decide)).trans (if_pos control))))

theorem exec_flitReceive_data (data : flitKind f = 0) (sent : sendData t n ab f = some u) :
    exec (.flitReceive n ab m f) s = .next (receiveData (applyAck u n ab f) n ab f) := by
  subst taken
  change execFlitReceive n ab m f s = _
  simp only [execFlitReceive, stepOf, sent]
  exact congrArg Host.Outcome.next ((if_neg (flit_taken real whole up turn)).trans ((if_neg (by rw [good]; decide)).trans
    ((if_neg (by rw [formed]; decide)).trans (if_neg (not_not.mpr data)))))

end
end
end

/-- A new flit with a credit of its VC enters the sender's buffer. -/
theorem sendData_of_new {f : List Byte} {d : SeamDir} (dir : d = seamDir (seamAt s n) ab) (new : d.buf[d.pos]? = none) (next : flitSeq f = d.next)
    (may : maySend s n d (flitVc f) = true) :
    sendData s n ab f = some (updDir s n ab (enterFlit s (flitVc f) (some (flitBody f)))) := by
  subst dir
  simp only [sendData, new]
  exact if_pos (by simp [next, may])

theorem receiveData_of_expected {f : List Byte} (expected : flitSeq f = (seamDir (seamAt s n) ab).expect) :
    receiveData s n ab f = updDir s n ab fun d => { d with
      expect := (d.expect + 1) % 4096, nak := false, delivered := d.delivered + 1, last := tput d.last (flitVc f) (flitPayload f) } :=
  if_pos expected

theorem exec_seamAckTimeout (up : smState s n = 1) (held : buffered (seamDir (seamAt s n) ab) ≠ 0)
    (late : (seamDir (seamAt s n) ab).progress + 1800 ≤ s.clock.clk) :
    exec (.seamAckTimeout n ab) s = .next (updDir (startReplay s n ab 0) n ab fun d => { d with progress := s.clock.clk }) :=
  congrArg Host.Outcome.next (if_neg (by simp [up, held, late]))

theorem exec_replayThreshold (up : smState s n = 1) (first : ((seamAt s n).due.any isDegrade) = false) (crossed : overThr s n true = true) :
    exec (.replayThreshold n) s = .next (updSeam s n fun x => { x with due := .degrade (blamed s n true) :: x.due }) :=
  congrArg Host.Outcome.next ((if_neg (by rw [first, up]; decide)).trans (if_pos crossed))

/-- The seam's retrains begin with a degrade, at most one in 10 µs. -/
theorem exec_retrainStart {r : Retrain} (next : (seamAt s n).due.find? isDegrade = some r ∨
      ((seamAt s n).due.find? isDegrade = none ∧ (seamAt s n).due.head? = some r))
    (up : smState s n = 1) (spaced : ∀ c, (seamAt s n).began = some c → c + 18000 ≤ s.clock.clk) :
    exec (.retrainStart n) s = .next (execRetrainStart.begin s n r) := by
  change execRetrainStart n s = _
  rcases next with degrade | ⟨noDegrade, head⟩
  · cases began : (seamAt s n).began with
    | none => simp [execRetrainStart, stepOf, degrade, began, up]
    | some c => simp [execRetrainStart, stepOf, degrade, began, up, Nat.not_lt.mpr (spaced c began)]
  · obtain ⟨rest, due⟩ := List.head?_eq_some_iff.mp head
    rw [due] at noDegrade
    cases began : (seamAt s n).began with
    | none => simp [execRetrainStart, stepOf, noDegrade, due, began, up]
    | some c => simp [execRetrainStart, stepOf, noDegrade, due, began, up, Nat.not_lt.mpr (spaced c began)]

/-- What a retrain that has run does with the outcome of its lane test. -/
def afterRetrain (s : State) (n : Nat) (found : List Nat) : Retrain → State
  | .degrade m => degradeModule s n m found
  | .rate => changeRate s n found
  | .retest => retest s n found

theorem exec_retrainComplete {r : Retrain} {found : List Nat} {ns : Nat} {again : SeamDir → SeamDir} (running : (seamAt s n).running = some r)
    (took : ns = min 2000 ((s.clock.clk - (seamAt s n).began.getD s.clock.clk) * 5 / 9))
    (counted : t = setReg (setReg (bumpReg s (smRtCnt n) 63 1) (smRtLast n) ns) (smRtMax n) (max ns (reg s (smRtMax n))))
    (restart : again = fun d => { d with replays := [], failedOn := [], progress := s.clock.clk, pos := 0 })
    (resumed : u = setSmState (updSeam t n fun x => { x with running := none, ab := again x.ab, ba := again x.ba }) n 1) :
    exec (.retrainComplete n found) s = .next (failCheck (afterRetrain u n found r) n) := by
  subst resumed restart counted took
  change execRetrainComplete n found s = _
  simp only [execRetrainComplete, stepOf, running]
  cases r <;> rfl

end

/-- Settles O59. What a flit that fails its CRC was is a free value (log 80, the model's choice). -/
theorem seamEventsComplete : Obligations.SeamEventsComplete := by
  intro s n real
  refine ⟨?_, fun ab up held late => exec_seamAckTimeout up held late, exec_replayThreshold, fun r next up spaced => exec_retrainStart next up spaced, ?_,
    fun rate => congrArg Host.Outcome.next (if_pos real), congrArg Host.Outcome.next (if_pos real), congrArg Host.Outcome.next (if_pos real),
    congrArg Host.Outcome.next (if_pos real), congrArg Host.Outcome.next (if_pos real)⟩
  · intro ab m f whole up turn t
    refine ⟨exec_flitReceive_bad real whole up turn rfl, exec_flitReceive_control real whole up turn rfl, ?_⟩
    intro good formed data d new next may u expected
    exact (exec_flitReceive_data real whole up turn rfl good formed data (sendData_of_new rfl new next may)).trans
      (congrArg _ (receiveData_of_expected expected))
  · intro found r running ns t again u
    exact (exec_retrainComplete running rfl rfl rfl rfl).trans (by cases r <;> rfl)

/-! ## Boot, dies, power, kills, attestation and the debugger (R141, R142, R144, R437, R438, R440 to R442, R447 to R450) -/

section
variable {s t : State}

/-- The device as a boot without a failure leaves it. -/
def bootedFrom (s : State) : State :=
  let s := (badDies []).foldl leaveOffline (loadPatch (loadHpCfg (trainSeams s)))
  let s := setReg s pfBoot (bootWord s (s.plat.failed.getLastD 0))
  { updPlat s fun p => { p with attempt := 1, failed := [], bad := [] } with booted := true, steerCfg := s.plat.steerRec }

theorem stepFails_nil (step : Nat) : stepFails s [] step = false := by
  have none_ : badDies [] = [] := by decide
  by_cases five : step = 5 <;> simp [stepFails, five, none_]

section
variable (off : s.booted = false) (alive : inRecovery s = false)
include off alive

theorem not_bootDone : ¬ ((s.booted || inRecovery s) = true) := by rw [off, alive]; decide

theorem exec_boot_good : exec (.boot []) s = .next (bootedFrom s) := by
  have good : ((List.range 9).drop 1).find? (stepFails s []) = none :=
    List.find?_eq_none.mpr fun step _ => by rw [stepFails_nil]; decide
  change execBoot [] s = _
  simp only [execBoot, stepOf, good]
  exact congrArg Host.Outcome.next (if_neg (not_bootDone off alive))

theorem exec_boot_third (first : s.plat.attempt = 1) : exec (.boot [3]) s = .next
    (updPlat (setReg s pfBoot (bootWord s 3)) fun p => { p with attempt := p.attempt + 1, failed := p.failed ++ [3] }) := by
  have fails : ((List.range 9).drop 1).find? (stepFails s [3]) = some 3 := rfl
  change execBoot [3] s = _
  simp only [execBoot, stepOf, fails]
  exact congrArg Host.Outcome.next ((if_neg (not_bootDone off alive)).trans (if_neg (by simp [first])))

end

section
variable {d : Nat} (real : d < 4)
include real

theorem exec_dieOff_command (other : dieState s d ≠ 1) : exec (.dieOff d) s = .next (dieOffCmd s d) :=
  congrArg Host.Outcome.next ((if_neg (not_le.mpr real)).trans (if_neg other))

section
variable (leaving : dieState s d = 1) (left : t = leaveDie s d)
include leaving left

theorem exec_dieOff_seal (open_ : t.plat.sealed_.contains d = false) (empty : dieEmpty t d = true) :
    exec (.dieOff d) s = .next (sealDie t d) := by
  subst left
  exact congrArg Host.Outcome.next ((if_neg (not_le.mpr real)).trans ((if_pos leaving).trans
    ((if_neg (Bool.eq_false_iff.mp open_)).trans (if_pos empty))))

theorem exec_dieOff_retire (closed : t.plat.sealed_.contains d = true) (quiet : seamsQuiet t d = true) :
    exec (.dieOff d) s = .next (retireDie t d) := by
  subst left
  exact congrArg Host.Outcome.next ((if_neg (not_le.mpr real)).trans ((if_pos leaving).trans ((if_pos closed).trans (if_pos quiet))))

end

theorem exec_dieOn_command {found : List Nat} (other : dieState s d ≠ 3) : exec (.dieOn d found) s = .next (dieOnCmd s d) :=
  congrArg Host.Outcome.next ((if_neg (not_le.mpr real)).trans (if_neg other))

theorem exec_dieOn_up {found : List Nat} (coming : dieState s d = 3) : exec (.dieOn d found) s = .next (dieUp s d found) :=
  congrArg Host.Outcome.next ((if_neg (not_le.mpr real)).trans (if_pos coming))

section
variable {mhz : Nat} (step : mhz ∈ [1000, 1100, 1200, 1300, 1400, 1500, 1600, 1700])
include step

theorem powerStep_valid : ¬ ((decide (d ≥ 4) || decide (mhz < 1000) || decide (mhz > 1800) || mhz % 100 != 0) = true) ∧ mhz ≠ 1800 := by
  have least : ∀ m ∈ [1000, 1100, 1200, 1300, 1400, 1500, 1600, 1700], 1000 ≤ m ∧ m < 1800 ∧ m % 100 = 0 := by decide
  obtain ⟨low, high, whole⟩ := least mhz step
  refine ⟨?_, by omega⟩
  simp only [Bool.or_eq_true, decide_eq_true_eq, bne_iff_ne]
  omega

theorem exec_powerLimit (free : dieReserved s d = false) :
    exec (.powerLimit d mhz) s = .next (updPlat s fun p => { p with mhz := tput p.mhz d mhz }) := by
  obtain ⟨valid, below⟩ := powerStep_valid real step
  exact congrArg Host.Outcome.next ((if_neg valid).trans ((if_neg below).trans (if_neg (Bool.eq_false_iff.mp free))))

/-- A limit of a die with reserved slots waits. -/
theorem exec_powerLimit_reserved (reserved : dieReserved s d = true) (new : tget s.plat.limit d = none) :
    exec (.powerLimit d mhz) s = .next (updPlat s fun p => { p with limit := tput p.limit d (s.clock.clk, false) }) := by
  obtain ⟨valid, below⟩ := powerStep_valid real step
  change execPowerLimit d mhz s = _
  simp only [execPowerLimit, stepOf, new]
  exact congrArg Host.Outcome.next ((if_neg valid).trans ((if_neg below).trans (if_pos reserved)))

end

theorem exec_powerLimit_lifted :
    exec (.powerLimit d 1800) s = .next (updPlat s fun p => { p with limit := tdel p.limit d, mhz := tdel p.mhz d }) :=
  congrArg Host.Outcome.next ((if_neg (by simp [real])).trans (if_pos rfl))

end

theorem exec_contextKill {asid cause : Nat} (free : (s.fe.queues.any fun p => !qFree s p.1) = false) (alive : isFatal s = false)
    (faulted : s.faulted.contains (asid, cause) = true) : exec (.contextKill asid cause) s = .next (killContext s asid cause) :=
  congrArg Host.Outcome.next ((if_neg (Bool.eq_false_iff.mp free)).trans ((if_neg (by simp [alive])).trans
    (if_pos (by rw [alive, faulted]; rfl))))

/-- A failed lane is reported to the harts of its quadrant, and faults their contexts where another lane is steered away already. -/
theorem exec_laneFailureReport {core quad lane f : Nat} {here : Nat → Bool} {told : Nat × Hart → Nat × Hart} (realCore : core < 192)
    (realQuad : quad < 4) (realLane : lane < 32) (steered : f = bitsOf (steerOf s core) (8 * quad) 8)
    (there : here = fun k => coreOfSlot k == core && quadOfSlot k == quad)
    (marked : told = fun p => if here p.1 then (p.1, { p.2 with s := { p.2.s with mip := setBit p.2.s.mip 11 true } }) else p)
    (reported : t = if s.harts.any fun p => here p.1 then { s with harts := s.harts.map told }
      else updPlat s fun p => { p with laneRep := if p.laneRep.contains (core * 4 + quad) then p.laneRep else p.laneRep ++ [core * 4 + quad] }) :
    exec (.laneFailureReport core quad lane) s = .next (if f.testBit 5 = true ∧ f % 32 ≠ lane then
      ((t.harts.filter fun p => here p.1).map fun p => p.2.id.asid).eraseDups.foldl (fun s a => contextFault s a 6) t else t) := by
  subst reported marked there steered
  refine congrArg Host.Outcome.next ((if_neg ?_).trans (if_congr ?_ rfl rfl))
  · simp [realCore, realQuad, realLane]
  · simp

theorem exec_debugHalt {k : Nat} : exec (.debugHalt 0 k) s = .next
    (((s.harts.filter fun p => dbgFor s p.2.id.asid && p.1 == k).map (·.1)).foldl haltHart s) := rfl

section
variable {k : Nat} {h : Hart} (there : hartAt s k = some h)
include there

section
variable (open_ : dbgFor s h.id.asid = true) (halted : haltReported h = true)
include open_ halted

theorem exec_debugStep : exec (.debugStep k) s = .next (setHart s k { h with stepping := some (stepCode (slotClk s k) h.pc.toNat) }) := by
  change execDebugStep k s = _
  simp only [execDebugStep, stepOf, there]
  exact congrArg Host.Outcome.next (if_pos (by rw [halted, open_]; rfl))

theorem exec_debugRegisterAccess {r data : Nat} {write : Bool} : exec (.debugRegisterAccess k r write data) s = .next
    (if write then dbgWrite s k h r data else updPlat s fun p => { p with dbg := dbgRead s k h r }) := by
  change execDebugRegisterAccess k r write data s = _
  simp only [execDebugRegisterAccess, stepOf, there]
  exact congrArg Host.Outcome.next (if_neg (by rw [halted, open_]; decide))

end

theorem exec_debugStepTimeout {n : Nat} (stepping : h.stepping = some n) (waits : atWait s k h = true) (pc : h.pc.toNat = stepPc n)
    (late : stepClk n + 1800 ≤ slotClk s k) :
    exec (.debugStepTimeout k) s = .next (setHart (freeMonitor s k h) k { h with wait := none, stepping := none }) := by
  change execDebugStepTimeout k s = _
  simp only [execDebugStepTimeout, stepOf, there, stepping]
  exact congrArg Host.Outcome.next (if_pos (by simp [waits, pc, late]))

end

theorem exec_registerWrite_bar {off v : Nat} (aligned : off % 8 = 0) (within : off < 0x2000000) :
    exec (.registerWrite off v) s = .next (bar0Write s off (v % 2 ^ 64)) :=
  congrArg Host.Outcome.next ((if_neg (by omega)).trans (if_pos (by simp [aligned, within])))

theorem exec_registerWrite_config {fn off v : Nat} (within : off < 16) :
    exec (.registerWrite (2 ^ 32 + 16 * fn + off) v) s = .next (cfgWrite s fn off v) := by
  have number : (2 ^ 32 + 16 * fn + off - 2 ^ 32) / 16 = fn := by omega
  have offset : (2 ^ 32 + 16 * fn + off) % 16 = off := by omega
  refine congrArg Host.Outcome.next ((if_pos (by omega)).trans ?_)
  rw [number, offset]

end

/-- Settles O60. That a lane failure interrupts the harts of its quadrant (log 89), that the scan's answer is kept (log 95) and the numbers of
the debugger's registers (log 79) are the model's choices. -/
theorem platformEventsComplete : Obligations.PlatformEventsComplete := by
  intro s
  refine ⟨fun off alive first => ⟨⟨_, exec_boot_good off alive, rfl, rfl⟩, exec_boot_third off alive first⟩, ?_, fun d real => congrArg Host.Outcome.next (if_pos real),
    fun asid cause free alive faulted => exec_contextKill free alive faulted, ?_, fun req => rfl, fun k => exec_debugHalt, ?_,
    fun k h n there stepping waits pc late => exec_debugStepTimeout there stepping waits pc late, rfl,
    fun off v aligned within => exec_registerWrite_bar aligned within, fun fn off v within => exec_registerWrite_config within⟩
  · intro d real
    refine ⟨exec_dieOff_command real, ?_, fun found other => exec_dieOn_command real other, fun found coming => exec_dieOn_up real coming,
      fun mhz step free => exec_powerLimit real step free, fun mhz step reserved new => exec_powerLimit_reserved real step reserved new,
      exec_powerLimit_lifted real⟩
    intro leaving t
    exact ⟨exec_dieOff_seal real leaving rfl, exec_dieOff_retire real leaving rfl⟩
  · intro core quad lane realCore realQuad realLane f here told t
    have reported := exec_laneFailureReport (s := s) (t := t) (here := here) (told := told) realCore realQuad realLane (f := f) rfl rfl rfl rfl
    exact ⟨fun steered other => reported.trans (congrArg _ (if_pos ⟨steered, other⟩)),
      fun either => reported.trans (congrArg _ (if_neg fun both => either.elim (fun no => by rw [no] at both; exact absurd both.1 (by decide))
        (fun same => both.2 same)))⟩
  · intro k h there open_ halted
    have access (r data : Nat) (write : Bool) := exec_debugRegisterAccess there open_ halted (r := r) (data := data) (write := write)
    exact ⟨exec_debugStep there open_ halted, fun r data => access r data true, fun r data => access r data false⟩

end Sys2Proof.Machine
end
